-- ==== Sys2Proof/Word.lean ====
section
/-! DEFINITION. The words of the block: bytes, FP32 and BF16 bit patterns, block addresses, paired-complement
words, status codes and subsystem ids, and the plain records that commands carry as operands. -/

namespace Sys2Proof

/-- One byte of memory, of a frame or of the register window. -/
abbrev Byte := BitVec 8
/-- The bit pattern of an IEEE 754 binary32 value. -/
abbrev F32 := BitVec 32
/-- The bit pattern of a BF16 value. -/
abbrev BF16 := BitVec 16
/-- A block address in the form of R398: byte k of Table 6.2 in bits [8k+7:8k]. -/
abbrev BlockAddr := BitVec 48
/-- A finite table: keys with their values. A key that is not listed has no value. -/
abbrev Tab (α : Type) := List (Nat × α)

/-- A paired-complement word (R17, R349): a value and, as `flaw`, the exclusive-or of the stored upper half with
the complement of the value. The halves complement exactly when `flaw` is 0. -/
structure Pair (α : Type) where
  val  : α
  flaw : BitVec 32 := 0
  deriving DecidableEq, Repr

/-- The status codes of Table 13.14 (R367). -/
inductive Status where
  | done | refusedPc | notOwner | noTarget | badArg | overbooked | ringFull | state
  | integrity | saturated | nonfinite | timeout | fenced | closed | diverged | unsupported
  deriving DecidableEq, Repr

/-- The fourteen subsystems of Table 0.3 (R10: ids 0x0 and 0xF are assigned to none). -/
inductive Subsystem where
  | prompter | inlet | sieve | scaleDesk | pits | coachbuilder | tally | lines | portComplex
  | stageManager | callDesk | updateSequencer | ledger | rehearsal
  deriving DecidableEq, Repr

/-- Where Nimlia serves a posted command: the issuing troupe's call-board slot, and the ck that passed since the
previous command of the queue. -/
structure Post where
  issuer : Nat
  slot   : Nat
  dt     : Nat := 0
  deriving DecidableEq, Repr

/-- One access to the register window (R343, R345): the ck passed since the previous command, the troupe tag the
fabric delivers, the window offset, the size in bytes and, for a write, the bytes written. -/
structure Access where
  dt     : Nat := 0
  tag    : Nat
  offset : Nat
  size   : Nat
  data   : List Byte := []
  deriving DecidableEq, Repr

/-- What one rehearsal slice found (R369, R370, R372). -/
inductive SliceResult where
  | right | wrong | abandoned | brokenVector
  deriving DecidableEq, Repr

/-- The working format of one 32-element block (Table 10.7): masters w, first moments m, second moments v (one
entry per element, or one per block under Adafactor; empty where the rule keeps none). -/
structure Blk where
  w : List F32
  m : List F32 := []
  v : List F32 := []
  deriving DecidableEq, Repr

/-- The working state of one tensor (R269): its blocks by block index in the tensor, its 48-bit update count, and
the powers p1 and p2. -/
structure TState where
  blocks : Tab Blk := []
  t      : Nat := 0
  p1     : F32 := 0x3F800000
  p2     : F32 := 0x3F800000
  deriving DecidableEq, Repr, Inhabited

/-- One block of the reduced owned shard: a Q8B block (scale byte and 32 element bytes) or 32 FP32 values of an
F-class bucket. -/
inductive ShardBlock where
  | q8b (scale : Byte) (q : List Byte)
  | fp32 (x : List F32)
  deriving DecidableEq, Repr

/-- A tensor record (Table 11.3, R290). -/
structure TensorRec where
  tensor : Nat
  lamb   : Bool := false
  ft     : F32
  phi    : F32 := 0x3F800000
  gamma  : F32
  dig1   : BitVec 64 := 0
  dig2   : BitVec 64 := 0
  deriving DecidableEq, Repr

/-- A digest record (Table 11.5, R297). -/
structure DigestRec where
  step    : Nat
  skipped : Bool
  copy    : Bool
  kinds   : List (BitVec 64)
  epoch   : Nat
  closing : Pair Nat
  deriving DecidableEq, Repr

/-- One retained step of a lost chip, as the stand-in's mirror half holds it (Table 11.6). -/
structure Retained where
  step    : Nat
  skipped : Bool
  shard   : Tab (Tab ShardBlock) := []
  records : List TensorRec := []
  masters : Tab (Tab (List F32)) := []
  lost    : Option DigestRec := none
  running : List (BitVec 64) := []
  deriving DecidableEq, Repr

/-- What a promoted spare has pulled when its encore runs (Table 11.6, R306, R395, R396): the data arrives from
the stand-in and the donors, so it is an input of ENCORE_RUN. -/
structure Pulled where
  version      : Nat
  decided      : Nat
  lastCommitted : Nat
  checked      : Tab TState
  held         : Tab (List F32) := []
  retained     : List Retained := []
  residuals    : Tab (Nat × List BF16) := []
  histograms   : Tab (List Nat) := []
  histories    : Tab (List Nat) := []
  fallback     : List Nat := []
  copy         : Bool := false
  running      : Tab TState := []
  runningWhole : Bool := true
  deriving DecidableEq, Repr

end Sys2Proof
end

