-- ==== Sys2Proof/Syntax.lean ====
section
/-! DEFINITION. The commands the block takes: one constructor per row of spec/opcode_table.json.

A row that Nimlia serves from a call board carries the slot it is served from (`p`) and its arguments of Table 12.7,
each at its width. Every other row is an event at the block's boundary or inside it and carries what the outside world
gives it: `dt`, the ck that passed since the previous command; a port and the frame's bytes; a window access; the object
that acts. -/

namespace Sys2Proof

/-- The commands and events of the block (spec/opcode_table.json). -/
inductive Instr where
  /-- HOUSE_TICK_SET (R35). House command naming a new tick period and the tick from which it applies; refused if too soon or if admitted bookings would exceed capacity. -/
  | houseTickSet (p : Post) (period : BitVec 16) (effective : BitVec 64)
  /-- HOUSE_TICK_TREE (R245). House command naming the chip's parent port in the tick distribution tree, or none for the reference chip. -/
  | houseTickTree (p : Post) (parent : BitVec 8)
  /-- HOUSE_POD_SET (R228). House command, served only while the house is closed, setting the pod number, pod dimensions and VID. -/
  | housePodSet (p : Post) (pod : BitVec 16) (lx ly lz : BitVec 8) (vid : BitVec 16)
  /-- HOUSE_WING_SET (R246). House command setting the expected partner address of wing port P6 or P7; the port is verified again. -/
  | houseWingSet (p : Post) (port : BitVec 8) (partner : BitVec 64)
  /-- HOUSE_PORT_SET (R39). House command setting a port's booking ceiling, transit reserve and dim delay, effective from the next tick. -/
  | housePortSet (p : Post) (port ceiling : BitVec 8) (transit : BitVec 32) (dimDelay : BitVec 16)
  /-- HOUSE_SHAPER_SET (R56). House command changing a troupe's shaper rate or cap on a port at once, keeping any debt. -/
  | houseShaperSet (p : Post) (port : BitVec 8) (rate cap : BitVec 32)
  /-- HOUSE_GRANT (R40). House command setting a troupe's grant on a port; refused if it would fall below the troupe's admitted bookings. -/
  | houseGrant (p : Post) (port : BitVec 8) (grant : BitVec 32)
  /-- HOUSE_PIT_SHARE (R139). House command setting the pit share of HBM bandwidth for all pits from the next tick. -/
  | housePitShare (p : Post) (percent : BitVec 8)
  /-- HOUSE_SLICE_SET (R238). House command binding a troupe to a slice record, and giving the record a new slice when its origin or extent changes. -/
  | houseSliceSet (p : Post) (record x0 y0 z0 ex ey ez : BitVec 8)
  /-- HOUSE_ROUTE_FILL (R241). House command writing the default dimension-order routes of a slice into its staged bank. -/
  | houseRouteFill (p : Post) (record : BitVec 8)
  /-- HOUSE_ROUTE_SET (R401). House command writing house-computed routing entries into the staged bank. -/
  | houseRouteSet (p : Post) (record : BitVec 8) (count : BitVec 32) (items : BitVec 64)
  /-- HOUSE_ROUTE_COMMIT (R242). House command committing the staged bank as table epoch e+1 at an effective tick, with a detour margin and a stand-in mask. -/
  | houseRouteCommit (p : Post) (record : BitVec 8) (epoch : BitVec 16) (margin mask : BitVec 8) (effective : BitVec 64)
  /-- HOUSE_BIND (R74). House command binding a range of compute cores to a troupe for emits issued afterwards. -/
  | houseBind (p : Post) (first count : BitVec 16)
  /-- HOUSE_DISPATCH (R315). House command setting the pod dispatch mode to scripted or ad-lib while no step is in flight. -/
  | houseDispatch (p : Post) (flags : BitVec 8)
  /-- HOUSE_PORT_RESET (R244). Deferred house command that resets a port, drops its queues and completes once the port is relit and verified, miswired or failed. -/
  | housePortReset (p : Post) (port : BitVec 8)
  /-- HOUSE_PIT_RESET (R144). Deferred house command that resets a pit, abandons its lane work, raises curtains and darkens the pit for a return rehearsal. -/
  | housePitReset (p : Post) (pit : BitVec 8)
  /-- HOUSE_RESET (R336). House command that completes at once and resets the whole block at the next tick. -/
  | houseReset (p : Post)
  /-- TROUPE_CREATE (R317). House command creating an absent troupe with its mode, class and per-pit memory regions. -/
  | troupeCreate (p : Post) (flags : BitVec 8) (bases lens : List (BitVec 64))
  /-- TROUPE_DELETE (R334). Deferred house command that resets a troupe in intermission or fenced and then releases all its objects. -/
  | troupeDelete (p : Post)
  /-- TROUPE_MODE (R315). Command setting a troupe's own scripted or ad-lib mode in the quiet condition. -/
  | troupeMode (p : Post) (flags : BitVec 8)
  /-- TROUPE_CLASS (R43). House command setting a troupe to booked or best-effort class; refused while bookings exist. -/
  | troupeClass (p : Post) (flags : BitVec 8)
  /-- TROUPE_CAROUSEL (R173). Command writing one carousel-table entry with its member list, own position and carousel lines. -/
  | troupeCarousel (p : Post) (entry count : BitVec 8) (n own : BitVec 16) (lines : List (BitVec 16)) (members : BitVec 64)
  /-- TROUPE_INTERMISSION (R337). Deferred command placing a troupe in intermission at a step boundary; it completes when the troupe enters INTERMISSION. -/
  | troupeIntermission (p : Post)
  /-- TROUPE_RESUME (R59). Command re-admitting all suspended bookings or none, and serving any held STEP_OPEN. -/
  | troupeResume (p : Post)
  /-- TROUPE_RESET (R334). Deferred command resetting one troupe: it skips its open step, drops queues, closes its lines and empties its prop room. -/
  | troupeReset (p : Post)
  /-- TROUPE_STATE (R340). Command returning a troupe's state, fence status, intermission issuer, mode, cue table address and fencing record index. -/
  | troupeState (p : Post)
  /-- BILL_ADD (R61). Command registering 1 to 4,096 playbill entries, all or none, and unsealing the playbill. -/
  | billAdd (p : Post) (count : BitVec 16) (entries : BitVec 64)
  /-- BILL_SET (R67). Command changing the mutable fields of registered playbill entries while keeping their residuals. -/
  | billSet (p : Post) (count : BitVec 16) (entries : BitVec 64)
  /-- BILL_REMOVE (R67). Command removing up to 4,096 tensors and discarding their residuals and scale history. -/
  | billRemove (p : Post) (count : BitVec 16) (ids : BitVec 64)
  /-- BILL_READ (R64). Command returning a playbill entry as of the last served change. -/
  | billRead (p : Post) (tensor : BitVec 32)
  /-- BILL_BUCKET (R68). Command creating, changing or removing a bucket record with its class, selection and carousel. -/
  | billBucket (p : Post) (bucket : BitVec 16) (cls selection carousel flags : BitVec 8)
  /-- BILL_ARENA (R72). Command declaring, resizing or removing a staging arena of 64-KiB slots in scratchpad. -/
  | billArena (p : Post) (arena : BitVec 8) (slots : BitVec 16) (base : BitVec 64)
  /-- BILL_SEAL (R65). Deferred command that builds the exchange graph, reserves pit areas and seals the playbill. -/
  | billSeal (p : Post)
  /-- SEAL_COMPLETE (R65). The exchange-graph build of a served BILL_SEAL ends and the command completes, within 40 ms. -/
  | sealComplete (dt t : Nat)
  /-- BILL_SIEVE (R96). Command setting a bucket's sieve record of density and crossover from an effective step. -/
  | billSieve (p : Post) (bucket : BitVec 16) (density crossover : BitVec 32) (effective : BitVec 64)
  /-- BILL_SCALE (R129). Command setting a tensor's scale record of headroom, history length and return count from an effective step. -/
  | billScale (p : Post) (tensor : BitVec 32) (headroom length : BitVec 8) (returnCount : BitVec 16) (effective : BitVec 64)
  /-- BOOK_SET (R41). Command creating or changing a booking, admitted against the ceiling, transit reserve and grant. -/
  | bookSet (p : Post) (booking port cls : BitVec 8) (bytes : BitVec 32) (start stop : BitVec 64)
  /-- BOOK_CLEAR (R41). Command removing a booking unless a ring is bound to it or the step in flight names it. -/
  | bookClear (p : Post) (booking : BitVec 8)
  /-- BOOK_READ (R340). Command returning a booking's parameters and the bytes it carried over. -/
  | bookRead (p : Post) (booking : BitVec 8)
  /-- LINE_OPEN (R198). Deferred command opening a point or carousel line by knocking; it completes at the epoch fence. -/
  | lineOpen (p : Post) (line : BitVec 16) (flags : BitVec 8) (n : BitVec 16) (peer remoteBase remoteLen localBase localLen : BitVec 64) (payload share : BitVec 8)
  /-- LINE_SET (R226). Command changing an open line's payload size, windows or area share as a new entry version. -/
  | lineSet (p : Post) (line : BitVec 16) (mask : BitVec 8) (peer remoteBase remoteLen localBase localLen : BitVec 64) (payload share : BitVec 8)
  /-- LINE_RESET (R218). Deferred command resetting an open or faulted line into a new epoch; it completes at the fence. -/
  | lineReset (p : Post) (line : BitVec 16)
  /-- LINE_CLOSE (R400). Command closing a line in any state: deferred on an open line, at once otherwise. -/
  | lineClose (p : Post) (line : BitVec 16)
  /-- LINE_STATE (R199). Command returning a line's state, epoch and sequences, and optionally its whole entry. -/
  | lineState (p : Post) (line : BitVec 16) (dest : BitVec 64)
  /-- LINE_AREA (R212). Command setting the size of the troupe's retransmit area. -/
  | lineArea (p : Post) (mib : BitVec 16)
  /-- RING_CREATE (R325). Command writing a ring record with its kind, depth, binding, base and space cue. -/
  | ringCreate (p : Post) (ring : BitVec 16) (kind depth binding port booking : BitVec 8) (base : BitVec 64) (spaceCue : BitVec 16)
  /-- RING_DELETE (R325). Command releasing an empty ring record that has no taken work in flight. -/
  | ringDelete (p : Post) (ring : BitVec 16)
  /-- RING_STATE (R325). Command returning a ring record. -/
  | ringState (p : Post) (ring : BitVec 16)
  /-- CUE_CREATE (R328). Command creating a cue with an initial 64-bit value. -/
  | cueCreate (p : Post) (cue : BitVec 16) (initial : BitVec 64)
  /-- CUE_DELETE (R329). Command deleting a cue that no taken descriptor, ring, wait or playbill entry names. -/
  | cueDelete (p : Post) (cue : BitVec 16)
  /-- CUE_ADD (R329). Command adding to a cue counter; it releases waits that are reached and fences the troupe on saturation or a broken pair. -/
  | cueAdd (p : Post) (cue : BitVec 16) (increment : BitVec 64)
  /-- CUE_WAIT (R330). Deferred command that completes when a cue reaches a threshold, writing the counter to a notify address. -/
  | cueWait (p : Post) (cue : BitVec 16) (threshold : BitVec 64) (timeout : BitVec 32) (notify : BitVec 64)
  /-- CUE_READ (R329). Command returning a cue counter, or INTEGRITY for a broken entry. -/
  | cueRead (p : Post) (cue : BitVec 16)
  /-- STEP_OPEN (R21). Command opening the troupe's next step with M micro-batches and its booking mask; held during intermission or encore. -/
  | stepOpen (p : Post) (m : BitVec 16) (bookings : BitVec 256)
  /-- STEP_ABORT (R24). Command aborting the step in flight, which is skipped at the next commit tick if it is OPEN or CALLED. -/
  | stepAbort (p : Post)
  /-- STEP_SEED (R137). Command setting the troupe's rounding seed from the next STEP_OPEN. -/
  | stepSeed (p : Post) (seed : BitVec 64)
  /-- STEP_LOSS (R279). Command posting the loss sample of the OPEN or CALLED step for the loss spike detector. -/
  | stepLoss (p : Post) (loss : BitVec 32)
  /-- STEP_STATE (R340). Command returning the last opened step, its state, the last COMMITTED step, the residual epoch and the understudy mode. -/
  | stepState (p : Post)
  /-- STEP_DEADLINE (R52). Command setting the troupe's step deadline in ticks from the next STEP_OPEN. -/
  | stepDeadline (p : Post) (ticks : BitVec 32)
  /-- STEP_LEDGER (R312). Command placing the troupe's step-ledger ring, extension area and capture area. -/
  | stepLedger (p : Post) (flags : BitVec 8) (records : BitVec 32) (base extBase extLen capBase capLen : BitVec 64)
  /-- OPT_SET (R268). Command setting a tensor's optimiser record from an effective step. -/
  | optSet (p : Post) (tensor : BitVec 32) (rule nesterov : BitVec 8) (eta lam beta1 beta2 eps d clip : BitVec 32) (effective : BitVec 64)
  /-- OPT_TROUPE (R268). Command setting the troupe's gradient scale and delayed-tier lag D from an effective step. -/
  | optTroupe (p : Post) (gamma : BitVec 32) (lag : BitVec 8) (effective : BitVec 64)
  /-- OPT_HOST (R276). Command placing the delayed-tier host ring of D+1 slots. -/
  | optHost (p : Post) (base slotLen : BitVec 64)
  /-- OPT_SPIKE (R278). Command setting the loss or norm spike detector from the next STEP_OPEN. -/
  | optSpike (p : Post) (detector armed k : BitVec 8) (ratio : BitVec 32) (warmup : BitVec 16)
  /-- OPT_EXPORT (R280). Deferred command writing the committed working state of named owned tensors to memory. -/
  | optExport (p : Post) (count : BitVec 32) (ids dest : BitVec 64)
  /-- OPT_IMPORT (R280). Deferred command writing imported working state into the committed version. -/
  | optImport (p : Post) (count : BitVec 32) (ids source : BitVec 64)
  /-- SPARE_PAIR (R287). Command setting the troupe's side of an understudy pair: mirror line, mode and residual trickle. -/
  | sparePair (p : Post) (line : BitVec 16) (mode flags : BitVec 8) (owned : BitVec 64)
  /-- SPARE_PROP (R295). Command setting the prop-room depth K and the digest interval N. -/
  | spareProp (p : Post) (k n : BitVec 8)
  /-- SPARE_RESYNC (R302). Deferred house command copying the principal's committed state into both mirror areas of its understudy to clear a divergence. -/
  | spareResync (p : Post)
  /-- SPARE_STANDIN (R303). Deferred house command making a partner stand in for a lost chip's address, finish its all-gather and close its lines. -/
  | spareStandin (p : Post) (lost : BitVec 64)
  /-- SPARE_ENCORE (R305). House command holding the troupe's STEP_OPEN until every carousel line is OPEN. -/
  | spareEncore (p : Post)
  /-- SPARE_PROMOTE (R306). Deferred house command promoting a spare to a lost block address, pulling state and running the encore. -/
  | sparePromote (p : Post) (lost standin donors : BitVec 64) (donorCount : BitVec 16)
  /-- SPARE_EXPORT (R310). Deferred house command writing the lost chip's checked mirror area in working format. -/
  | spareExport (p : Post) (dest : BitVec 64)
  /-- TEST_SET (R371). House command switching rehearsal on or off and setting the slack share from the next tick. -/
  | testSet (p : Post) (flags slack : BitVec 8)
  /-- TEST_RUN (R373). Deferred house command running a full rehearsal of one unit, with result pass or fail. -/
  | testRun (p : Post) (sub unit : BitVec 8)
  /-- TEST_DARKEN (R374). House command darkening a unit from the next tick, handing its later work to its replacement. -/
  | testDarken (p : Post) (sub unit : BitVec 8)
  /-- TEST_RETURN (R377). Deferred house command running a return rehearsal of a dark unit and clearing it from the dark map if it passes. -/
  | testReturn (p : Post) (sub unit : BitVec 8)
  /-- GAUGE_SNAP (R380). Command writing a snapshot of the gauge page as at the start of the serving tick. -/
  | gaugeSnap (p : Post) (dest : BitVec 64)
  /-- GAUGE_CLEAR (R380). Command clearing the gauge groups named in its mask. -/
  | gaugeClear (p : Post) (groups : BitVec 32)
  /-- GAUGE_TIMERS (R382). Command writing the phase record of one of the last 64 opened steps. -/
  | gaugeTimers (p : Post) (step dest : BitVec 64)
  /-- SPILL_SET (R340). Command setting the pit and host regions that bound spill store addresses. -/
  | spillSet (p : Post) (pitBase pitLen hostBase hostLen : BitVec 64)
  /-- SPILL_DRAIN (R340). Deferred command that completes when every spill call taken before it has completed. -/
  | spillDrain (p : Post)
  /-- RING_DOORBELL (R326). Write advancing a ring's tail, with the tail rebuilt from 17 bits; refused on RING_FULL, and a ring overflow fences the troupe. -/
  | ringDoorbell (a : Access)
  /-- ERR_READ (R357). House write of ERR_READ releasing error-log records; refused unless it lies between ERR_READ and ERR_WRITE. -/
  | errRead (a : Access)
  /-- CHK_CTRL (R362). Write of CHK_CTRL starting a complement-check scan of COUNT words from CHK_BASE. -/
  | chkCtrl (a : Access)
  /-- CHECK_SCAN_END (R362). A complement-check scan ends: it sets DONE and BROKEN and records the first broken word. -/
  | checkScanEnd (dt : Nat)
  /-- REGISTER_WRITE (R346). Window write to a register with no behaviour of its own, judged by the access checks and by the paired-complement and reserved-bit rules. -/
  | registerWrite (a : Access)
  /-- WINDOW_ACCESS_REFUSED (R347). A window read to a reserved or unreachable offset, or of a bad size, is refused or answered no-target and recorded. -/
  | windowAccessRefused (a : Access)
  /-- EMIT (R75). The fused matrix-and-emit instruction places an emit descriptor in the troupe's descriptor queue, stalling the core while the queue is full. -/
  | emit (dt core : Nat) (desc : List Byte)
  /-- EMIT_TAKE (R76). The inlet serves the descriptor at the head of a queue: it takes it, drops it as stale, waits, or rejects it as bad. -/
  | emitTake (dt : Nat)
  /-- CHUNK_READ (R84). The inlet reads and checks a taken chunk from its slot, replacing non-finite values, and releases the slot and signals its cue. -/
  | chunkRead (dt t : Nat)
  /-- CHUNK_ACCUMULATE (R80). A home pit adds a chunk's micro-batch into its FP32 accumulation buffer; the chunk and then its bucket complete, and the scale call is issued. -/
  | chunkAccumulate (dt t tensor chunk : Nat)
  /-- PIT_WINDOW_OPEN (R139). A new 1-µs metering window gives a pit a fresh allowance, and stalled passes and intake resume. -/
  | pitWindowOpen (dt pit : Nat)
  /-- QUANT_PASS_START (R126). A bucket's quantisation pass starts once the pit holds every scale byte. -/
  | quantPassStart (dt t bucket : Nat)
  /-- QUANT_PASS_END (R99). A quantisation pass ends: residuals are written, blocks handed over and the local histogram made final. -/
  | quantPassEnd (dt t bucket : Nat)
  /-- BAND_CUT (R101). The sieve finds a sparse bucket's cut key by radix levels and a bitonic sort, then quantises or keeps the band entries. -/
  | bandCut (dt t bucket : Nat)
  /-- BAND_REREAD (R102). A band that overflows its buffer is narrowed by re-reading the bucket's values one radix level at a time. -/
  | bandReread (dt t bucket : Nat)
  /-- PACK_ITEM (R168). The coachbuilder packs a dispatch item into a train of carriages once its blocks or cut key are ready. -/
  | packItem (dt t pick : Nat)
  /-- FRAME_SEND (R44). At a frame boundary a port starts its next frame by priority, booking round, carry-over, shaper and congestion window. -/
  | frameSend (dt port : Nat)
  /-- WRITE_RECEIVE (R209). A line WRITE carriage is received, checked, matched to its line, sequenced, applied in order and acknowledged. -/
  | writeReceive (dt port : Nat) (frame : List Byte)
  /-- REDUCE_WRITE_RECEIVE (R191). A REDUCE_WRITE carriage is applied element by element to target memory under its operation. -/
  | reduceWriteReceive (dt port : Nat) (frame : List Byte)
  /-- READ_REQUEST_RECEIVE (R210). A READ_REQUEST carriage is served in sequence order by sending READ_RESPONSE carriages on the reverse direction. -/
  | readRequestReceive (dt port : Nat) (frame : List Byte)
  /-- READ_RESPONSE_RECEIVE (R207). A READ_RESPONSE carriage writes its data at the requester's address, completing the READ with its last byte. -/
  | readResponseReceive (dt port : Nat) (frame : List Byte)
  /-- FENCE_CARRIAGE_RECEIVE (R221). A fence carriage of a new epoch is accepted at sequence 0, applies nothing and is acknowledged at once. -/
  | fenceCarriageReceive (dt port : Nat) (frame : List Byte)
  /-- COLLECTIVE_CARRIAGE_RECEIVE (R180). A collective carriage is taken by the tally for its step or discarded as stale, and owned blocks, spans and buckets complete. -/
  | collectiveCarriageReceive (dt port : Nat) (frame : List Byte)
  /-- DELTA_CARRIAGE_RECEIVE (R275). A holder applies an all-gather delta to its held copy at most once and signals version cues as tensors become whole. -/
  | deltaCarriageReceive (dt port : Nat) (frame : List Byte)
  /-- MIRROR_CARRIAGE_RECEIVE (R291). An understudy takes a mirror carriage of the partner's reduced shard or masters for its OPEN or CALLED step. -/
  | mirrorCarriageReceive (dt port : Nat) (frame : List Byte)
  /-- RESIDUAL_TRICKLE_RECEIVE (R294). An understudy keeps a trickled residual chunk if its epoch is newer than the copy it holds. -/
  | residualTrickleReceive (dt port : Nat) (frame : List Byte)
  /-- ACK_RECEIVE (R214). An ACK advances the oldest unacknowledged sequence, restarts the timer, completes operations and feeds congestion control. -/
  | ackReceive (dt port : Nat) (frame : List Byte)
  /-- NAK_RECEIVE (R215). A NAK acknowledges earlier carriages and makes the sender go back, reset the line, or close it, depending on its reason. -/
  | nakReceive (dt port : Nat) (frame : List Byte)
  /-- PROBE_RECEIVE (R225). A PROBE is answered with a PROBE_ECHO carrying its timestamp and the hold. -/
  | probeReceive (dt port : Nat) (frame : List Byte)
  /-- PROBE_ECHO_RECEIVE (R225). A PROBE_ECHO gives a round-trip sample that steers the line's congestion window. -/
  | probeEchoReceive (dt port : Nat) (frame : List Byte)
  /-- CALL_RECEIVE (R257). A CALL frame is merged into its round and forwarded at the next hop, yields a result, or makes the chip adopt an outcome. -/
  | callReceive (dt port : Nat) (frame : List Byte)
  /-- KNOCK_RECEIVE (R218). A KNOCK is answered DONE with an epoch, or CLOSED with a retry-after, as the line's state requires. -/
  | knockReceive (dt port : Nat) (frame : List Byte)
  /-- KNOCK_ANSWER_RECEIVE (R218). A KNOCK_ANSWER opens the line in the granted epoch and completes the old epoch, or schedules a retry. -/
  | knockAnswerReceive (dt port : Nat) (frame : List Byte)
  /-- DIM_RECEIVE (R249). A DIM propose, agree, decline or commit frame advances the link's dim handshake. -/
  | dimReceive (dt port : Nat) (frame : List Byte)
  /-- LIGHT_RECEIVE (R251). A LIGHT request or ready frame completes the relight of a dark link. -/
  | lightReceive (dt port : Nat) (frame : List Byte)
  /-- TICK_RECEIVE (R245). A TICK frame gives the partner's counter and period, marks a child port, or corrects the child's next scene length. -/
  | tickReceive (dt port : Nat) (frame : List Byte) (sub : Nat)
  /-- PFC_RECEIVE (R231). A received PFC frame pauses, re-pauses or releases the enabled lossless priorities. -/
  | pfcReceive (dt port : Nat) (frame : List Byte)
  /-- PAUSE_FRAME_RECEIVE (R4). An IEEE 802.3x PAUSE frame is dropped and counted as pause ignored. -/
  | pauseFrameReceive (dt port : Nat) (frame : List Byte)
  /-- FOREIGN_FRAME_RECEIVE (R4). A received frame that is not 0x88B5 or PFC is dropped and counted. -/
  | foreignFrameReceive (dt port : Nat) (frame : List Byte)
  /-- FRAME_RELAY (R167). A frame addressed to another chip is checked through check 4 and forwarded under its routing entry, or dropped. -/
  | frameRelay (dt port : Nat) (frame : List Byte)
  /-- PAUSE_EXPIRE (R49). A running pause of a priority expires and its frames resume. -/
  | pauseExpire (dt port prio : Nat)
  /-- PFC_REPEAT (R232). Every 10 µs while a receive buffer stays at or above 1 MiB, the port resends PFC with the full time. -/
  | pfcRepeat (dt port prio : Nat)
  /-- TICK (R34). The pod tick: the counter increments, scenes and cue sheets start, commit-tick actions run, rounds launch and pending changes take effect. -/
  | tick
  /-- STEP_DEADLINE_MISS (R52). A step's deadline count expires without completion and the chip raises the curtain and records TIMEOUT. -/
  | stepDeadlineMiss (dt t : Nat)
  /-- ROUND_ABANDON_LIMIT (R258). Rounds of a troupe abandoned at 16 consecutive ticks give one TIMEOUT record. -/
  | roundAbandonLimit (dt t : Nat)
  /-- ADRIFT_ENTER (R37). After 16 ticks of offset beyond ±1 µs the chip becomes adrift and withholds completion bits. -/
  | adriftEnter (dt : Nat)
  /-- ADRIFT_CLEAR (R37). After 16 consecutive ticks within ±40 ns the chip ceases to be adrift. -/
  | adriftClear (dt : Nat)
  /-- TICK_REPLY (R245). Exactly 2,048 ck after a child's TICK frame arrives, the parent sends its reply TICK frame. -/
  | tickReply (dt port : Nat)
  /-- RETRANSMIT_TIMER_EXPIRY (R216). A line's retransmit timer expires: it goes back to the oldest unacknowledged carriage, or faults the line at stage 5. -/
  | retransmitTimerExpiry (dt t line peer : Nat)
  /-- KNOCK_TIMER_EXPIRY (R218). A knock timer expires: the knock is resent with a new number, or the line faults at stage 5. -/
  | knockTimerExpiry (dt t line peer : Nat)
  /-- KNOCK_RETRY (R218). The retry-after of a CLOSED answer elapses and the line knocks again. -/
  | knockRetry (dt t line peer : Nat)
  /-- FIRST_KNOCK (R247). After the doors open, carousel lines send their first knocks in rotation order, at most 64 per tick. -/
  | firstKnock (dt t line peer : Nat)
  /-- PROBE_SEND (R225). A governed line with work waiting and no sample in 32 µs sends a PROBE. -/
  | probeSend (dt t line peer : Nat)
  /-- CALL_RESEND (R257). After 2 µs waiting for the next hop frame on a port, the chip resends its latest CALL frame there. -/
  | callResend (dt t port : Nat)
  /-- CUE_WAIT_TIMEOUT (R330). A pending CUE_WAIT reaches its timeout in ticks and completes with TIMEOUT. -/
  | cueWaitTimeout (dt issuer slot : Nat)
  /-- SIEVE_CALL_TIMEOUT (R115). A carousel unique-and-count call lacking contributions after 4,096 ticks completes with TIMEOUT. -/
  | sieveCallTimeout (dt t : Nat)
  /-- BANK_DRAIN_RELEASE (R243). A draining routing bank with no queued frames, 16 ticks after the switch, is released to the staged role. -/
  | bankDrainRelease (dt record : Nat)
  /-- PROMPTER_STALL (R365). With no Nimlia heartbeat for 64 ticks, the block sets STALLED, records it and refuses doorbells. -/
  | prompterStall (dt : Nat)
  /-- LINK_SIGNAL_LOSS (R244). The MAC service reports loss of signal or link down on a lit port. -/
  | linkSignalLoss (dt port : Nat)
  /-- PORT_FAIL (R244). After 200 µs of loss or a relight not completed, a port is failed, its queues are dropped and the curtain falls on uncut neighbours. -/
  | portFail (dt port : Nat)
  /-- LINK_UP (R230). The MAC service reports a port's link up as its PHY lights. -/
  | linkUp (dt port : Nat)
  /-- DIM_PROPOSE (R249). A port idle for its dim delay and eligible sends DIM propose naming a dark tick. -/
  | dimPropose (dt port : Nat)
  /-- DIM_COMMIT_POINT (R249). At tick T−1 of an agreed dim handshake the proposer sends DIM commit. -/
  | dimCommitPoint (dt port : Nat)
  /-- LINK_DARK (R249). At the dark tick T the agreed link goes dark. -/
  | linkDark (dt port : Nat)
  /-- LINK_WAKE (R251). A wake signal from either end starts relighting a dark link, or declines an unfinished dim handshake. -/
  | linkWake (dt port : Nat) (fromPartner : Bool)
  /-- LINK_LIT (R251). A relit link is up and the held frames are sent. -/
  | linkLit (dt port : Nat)
  /-- LINE_DESCRIPTOR_TAKE (R327). Lines take a line descriptor from a ring, check it, and split the operation into carriages. -/
  | lineDescriptorTake (dt t : Nat)
  /-- SIEVE_CALL_TAKE (R116). The sieve takes a sieve-call descriptor and starts a local or carousel unique-and-count. -/
  | sieveCallTake (dt t : Nat)
  /-- SIEVE_CALL_COMPLETE (R111). A sieve call ends: the sieve writes its completion record and then signals the cue. -/
  | sieveCallComplete (dt t : Nat)
  /-- SPILL_CALL_TAKE (R145). The pits take a spill descriptor and start a spill out or a restore. -/
  | spillCallTake (dt t : Nat)
  /-- SPILL_CALL_COMPLETE (R147). A spill call ends: the pits write its completion record and then signal the cue. -/
  | spillCallComplete (dt t : Nat)
  /-- UPDATE_ISSUE (R273). The update sequencer issues a vector-engine command for an owned tensor span once its shard and norm are ready. -/
  | updateIssue (dt t : Nat)
  /-- UPDATE_COMPLETE (R272). The vector engine completes an update command: the pending span is written, deltas are formed, or a non-finite result raises the curtain. -/
  | updateComplete (dt t : Nat)
  /-- DELAYED_DONE_READ (R276). The host's done word of a due delayed-tier slot is found written and its masters are read into the pending version. -/
  | delayedDoneRead (dt t : Nat)
  /-- VERDICT_COMPARE (R298). Holding both the partner's digest record and its own mirror digests for a check step, the understudy writes a verdict. -/
  | verdictCompare (dt t step : Nat)
  /-- VERDICT_ARRIVE (R299). A verdict reaches the principal: equal makes steps CHECKED at the next tick, and unequal is a divergence. -/
  | verdictArrive (dt t : Nat) (word : BitVec 64)
  /-- ENCORE_RUN (R307). After pulling its state, a promoted spare replays the retained steps, checks their digests and then opens its lines. -/
  | encoreRun (dt t : Nat) (pulled : Pulled)
  /-- REHEARSAL_SLICE (R370). An idle unit runs a 256-ck rehearsal slice of stored vectors; a second wrong result is a failure. -/
  | rehearsalSlice (dt unit vector : Nat) (found : SliceResult)
  /-- REHEARSAL_COMPLETE (R377). A full rehearsal of a unit ends with pass or fail, completing TEST_RUN or TEST_RETURN. -/
  | rehearsalComplete (dt unit : Nat) (pass : Bool)
  /-- RESET_RELEASE (R384). Reset release: the house is closed, the vector store is loaded and every unit is rehearsed before Nimlia comes up. -/
  | resetRelease (dt : Nat) (failed : List Nat)
  /-- NIMLIA_UP (R384). Nimlia comes up after the bring-up rehearsal and starts serving call boards. -/
  | nimliaUp (dt : Nat)
  /-- DOORS_OPEN (R385). Once ports are verified, the chip is aligned, rehearsal is done and the pod is set, Nimlia opens the doors. -/
  | doorsOpen (dt : Nat)
  /-- DOORS_TIMEOUT (R385). If the doors are not open 400 ms after reset release, Nimlia writes one TIMEOUT record. -/
  | doorsTimeout (dt : Nat)
  /-- CHIP_RESET (R333). The management controller resets the chip, or the house, from outside. -/
  | chipReset (dt : Nat) (chip : Bool)
  /-- CALL_DOORBELL (R319). A write to CALL_DOORBELL posts the named call-board slots: each command arrives in that tick and its bytes 0–191 are copied at the ck of acceptance, or the write is ignored as busy or refused before Nimlia is up. -/
  | callDoorbell (a : Access)
  /-- OPT_EXPORT_COMPLETE (R280). The writing of the committed working state of the named tensors ends, and the deferred OPT_EXPORT completes. -/
  | optExportComplete (dt t : Nat)
  /-- OPT_IMPORT_COMPLETE (R280). The writing of imported state into the committed version ends, and the deferred OPT_IMPORT completes, so STEP_OPEN may be served again after a broken version word. -/
  | optImportComplete (dt t : Nat)
  /-- SPARE_EXPORT_COMPLETE (R310). The stand-in finishes writing the lost chip's checked area in working format, and the deferred SPARE_EXPORT completes. -/
  | spareExportComplete (dt t : Nat)
  /-- CAPTURE_COMPLETE (R313). The best-effort copy of a retiring step's prop-room half to the host capture area finishes over the host-memory path, and the slot is released. -/
  | captureComplete (dt t step : Nat)
  deriving DecidableEq, Repr

end Sys2Proof
end

