-- ==== Sys2Proof/WellFormed.lean ====
section
/-! DEFINITION. Which commands are well-formed: the ranges that the spec gives an operand before the block judges it.
Whatever passes here may still be refused by the block itself, under R321 or Table 13.2. -/

namespace Sys2Proof

/-- A call-board place: 64 troupes, 32 slots (R318). -/
def Post.wf (p : Post) : Bool := p.issuer < 64 && p.slot < 32

/-- A window access: a 6-bit tag, an offset in the 4 MiB window, 1 to 64 bytes, and data of that size or none
(R342, R343, R345). -/
def Access.wf (a : Access) : Bool :=
  a.tag < 64 && a.offset < 0x400000 && 0 < a.size && a.size ≤ 64 && (a.data.length == a.size || a.data.isEmpty)

/-- A port number (Table 0.4). -/
def portOk (p : Nat) : Bool := p < 8
/-- A troupe number (R315). -/
def troupeOk (t : Nat) : Bool := t < 64
/-- A rehearsed unit u of R379. -/
def unitOk (u : Nat) : Bool := u < 24

/-- Whether a command's operands lie in the ranges of the spec's own numbering. -/
def Instr.wf : Instr → Bool
  | .ringDoorbell a | .errRead a | .chkCtrl a | .registerWrite a | .callDoorbell a =>
    a.wf && ! a.data.isEmpty
  | .windowAccessRefused a => a.wf && a.data.isEmpty
  | .emit _ core desc => core < 65536 && desc.length == 32
  | .troupeCreate p _ bases lens => p.wf && bases.length == 8 && lens.length == 8
  | .troupeCarousel p _ _ _ _ lines _ => p.wf && lines.length == 6
  | .sealComplete _ t | .chunkRead _ t | .stepDeadlineMiss _ t | .roundAbandonLimit _ t | .sieveCallTimeout _ t
  | .lineDescriptorTake _ t | .sieveCallTake _ t | .sieveCallComplete _ t | .spillCallTake _ t
  | .spillCallComplete _ t | .updateIssue _ t | .updateComplete _ t | .delayedDoneRead _ t
  | .optExportComplete _ t | .optImportComplete _ t | .spareExportComplete _ t => troupeOk t
  | .chunkAccumulate _ t tensor _ => troupeOk t && tensor < 2 ^ 20
  | .quantPassStart _ t b | .quantPassEnd _ t b | .bandCut _ t b | .bandReread _ t b => troupeOk t && b < 65536
  | .packItem _ t _ => troupeOk t
  | .retransmitTimerExpiry _ t l _ | .knockTimerExpiry _ t l _ | .knockRetry _ t l _ | .firstKnock _ t l _
  | .probeSend _ t l _ => troupeOk t && l < 1024
  | .callResend _ t port => troupeOk t && portOk port
  | .cueWaitTimeout _ issuer slot => issuer < 64 && slot < 32
  | .verdictCompare _ t step => troupeOk t && step < 2 ^ 48
  | .verdictArrive _ t _ => troupeOk t
  | .encoreRun _ t _ => troupeOk t
  | .captureComplete _ t step => troupeOk t && step < 2 ^ 48
  | .bankDrainRelease _ record => record < 64
  | .pitWindowOpen _ pit => pit < 8
  | .pauseExpire _ port prio | .pfcRepeat _ port prio => portOk port && prio < 8
  | .rehearsalSlice _ u _ _ => unitOk u
  | .rehearsalComplete _ u _ => unitOk u
  | .resetRelease _ failed => failed.all unitOk
  | .frameSend _ port | .tickReply _ port | .linkSignalLoss _ port | .portFail _ port | .linkUp _ port
  | .dimPropose _ port | .dimCommitPoint _ port | .linkDark _ port | .linkLit _ port => portOk port
  | .linkWake _ port _ => portOk port
  | .tickReceive _ port _ sub => portOk port && sub < 16
  | .writeReceive _ port _ | .reduceWriteReceive _ port _ | .readRequestReceive _ port _
  | .readResponseReceive _ port _ | .fenceCarriageReceive _ port _ | .collectiveCarriageReceive _ port _
  | .deltaCarriageReceive _ port _ | .mirrorCarriageReceive _ port _ | .residualTrickleReceive _ port _
  | .ackReceive _ port _ | .nakReceive _ port _ | .probeReceive _ port _ | .probeEchoReceive _ port _
  | .callReceive _ port _ | .knockReceive _ port _ | .knockAnswerReceive _ port _ | .dimReceive _ port _
  | .lightReceive _ port _ | .pfcReceive _ port _ | .pauseFrameReceive _ port _ | .foreignFrameReceive _ port _
  | .frameRelay _ port _ => portOk port
  | .checkScanEnd _ | .emitTake _ | .tick | .adriftEnter _ | .adriftClear _ | .prompterStall _ | .nimliaUp _
  | .doorsOpen _ | .doorsTimeout _ | .chipReset _ _ => true
  | .houseTickSet p _ _ | .houseTickTree p _ | .housePodSet p _ _ _ _ _ | .houseWingSet p _ _
  | .housePortSet p _ _ _ _ | .houseShaperSet p _ _ _ | .houseGrant p _ _ | .housePitShare p _
  | .houseSliceSet p _ _ _ _ _ _ _ | .houseRouteFill p _ | .houseRouteSet p _ _ _ | .houseRouteCommit p _ _ _ _ _
  | .houseBind p _ _ | .houseDispatch p _ | .housePortReset p _ | .housePitReset p _ | .houseReset p
  | .troupeDelete p | .troupeMode p _ | .troupeClass p _ | .troupeIntermission p | .troupeResume p | .troupeReset p
  | .troupeState p | .billAdd p _ _ | .billSet p _ _ | .billRemove p _ _ | .billRead p _ | .billBucket p _ _ _ _ _
  | .billArena p _ _ _ | .billSeal p | .billSieve p _ _ _ _ | .billScale p _ _ _ _ _ | .bookSet p _ _ _ _ _ _
  | .bookClear p _ | .bookRead p _ | .lineOpen p _ _ _ _ _ _ _ _ _ _ | .lineSet p _ _ _ _ _ _ _ _ _
  | .lineReset p _ | .lineClose p _ | .lineState p _ _ | .lineArea p _ | .ringCreate p _ _ _ _ _ _ _ _
  | .ringDelete p _ | .ringState p _ | .cueCreate p _ _ | .cueDelete p _ | .cueAdd p _ _ | .cueWait p _ _ _ _
  | .cueRead p _ | .stepOpen p _ _ | .stepAbort p | .stepSeed p _ | .stepLoss p _ | .stepState p
  | .stepDeadline p _ | .stepLedger p _ _ _ _ _ _ _ | .optSet p _ _ _ _ _ _ _ _ _ _ _ | .optTroupe p _ _ _
  | .optHost p _ _ | .optSpike p _ _ _ _ _ | .optExport p _ _ _ | .optImport p _ _ _ | .sparePair p _ _ _ _
  | .spareProp p _ _ | .spareResync p | .spareStandin p _ | .spareEncore p | .sparePromote p _ _ _ _
  | .spareExport p _ | .testSet p _ _ | .testRun p _ _ | .testDarken p _ _ | .testReturn p _ _ | .gaugeSnap p _
  | .gaugeClear p _ | .gaugeTimers p _ _ | .spillSet p _ _ _ _ | .spillDrain p => p.wf

/-- The commands that the queue may hold. -/
def queueWf (q : List Instr) : Bool := q.all Instr.wf

end Sys2Proof
end

