-- ==== Sys2Proof/Machine/Bits.lean ====
section
/-! DEFINITION. Bit fields, byte order, finite tables, paired-complement words, the mixing function and the lane
generators (R12, R17, R136, R138). -/

namespace Sys2Proof.Machine

open Sys2Proof

/-! ### Finite tables -/

/-- The value of key `k`, if listed. -/
def tabGet {α : Type} : Tab α → Nat → Option α
  | [], _ => none
  | (j, v) :: r, k => if j = k then some v else tabGet r k

/-- List value `v` under key `k`, keeping the keys in ascending order. -/
def tabPut {α : Type} : Tab α → Nat → α → Tab α
  | [], k, v => [(k, v)]
  | (j, w) :: r, k, v =>
    if j = k then (k, v) :: r
    else if k < j then (k, v) :: (j, w) :: r
    else (j, w) :: tabPut r k v

/-- Take key `k` out of the table. -/
def tabDel {α : Type} (t : Tab α) (k : Nat) : Tab α :=
  t.filter fun e => e.1 != k

/-- The value of key `k`, or `d` where it is not listed. -/
def tabGetD {α : Type} (t : Tab α) (k : Nat) (d : α) : α :=
  (tabGet t k).getD d

/-- Change the value of key `k` where it is listed. -/
def tabMod {α : Type} (t : Tab α) (k : Nat) (f : α → α) : Tab α :=
  match tabGet t k with
  | none => t
  | some v => tabPut t k (f v)

/-! ### Bit fields and bytes -/

/-- Bits [lo + w − 1 : lo] of a number. -/
def bits (x lo w : Nat) : Nat := x / 2 ^ lo % 2 ^ w

/-- Bit i of a number. -/
def bit (x i : Nat) : Bool := x / 2 ^ i % 2 = 1

/-- A Bool as one bit. -/
def bitOf (b : Bool) : Nat := if b then 1 else 0

/-- The n bytes of x, least significant first (R12). -/
def leBytes : Nat → Nat → List Byte
  | 0, _ => []
  | n + 1, x => BitVec.ofNat 8 x :: leBytes n (x / 256)

/-- The number whose bytes are given least significant first (R12). -/
def leNat : List Byte → Nat
  | [] => 0
  | b :: r => b.toNat + 256 * leNat r

/-- The n bytes of x, most significant first. -/
def beBytes (n x : Nat) : List Byte := (leBytes n x).reverse

/-- The number whose bytes are given most significant first. -/
def beNat (bs : List Byte) : Nat := leNat bs.reverse

/-- n bytes of a string from an offset; bytes past its end read as 0. -/
def slice (bs : List Byte) (off n : Nat) : List Byte :=
  let part := (bs.drop off).take n
  part ++ List.replicate (n - part.length) 0

/-- The little-endian field of n bytes at an offset. -/
def field (bs : List Byte) (off n : Nat) : Nat := leNat (slice bs off n)

/-- Whether every byte is 0. -/
def allZero (bs : List Byte) : Bool := bs.all (· == 0)

/-- ⌈log2 n⌉, 0 for n ≤ 1. -/
def clog2 (n : Nat) : Nat := if n ≤ 1 then 0 else Nat.log2 (n - 1) + 1

/-- ⌈a / b⌉. -/
def cdiv (a b : Nat) : Nat := (a + b - 1) / b

/-- Saturate at a limit. -/
def capAt (limit x : Nat) : Nat := if x > limit then limit else x

/-! ### Paired-complement words -/

/-- Whether the halves of a 64-bit word complement (R17). -/
def pcWhole (w : BitVec 64) : Bool := w.extractLsb' 32 32 == ~~~ (w.extractLsb' 0 32)

/-- The value half of a paired-complement word. -/
def pcVal (w : BitVec 64) : Nat := (w.extractLsb' 0 32).toNat

/-- The paired-complement word of a 32-bit value. -/
def pcWord (v : Nat) : BitVec 64 :=
  let x := BitVec.ofNat 32 v
  (~~~ x) ++ x

/-- A whole pair. -/
def Pair.of {α : Type} (v : α) : Pair α := ⟨v, 0⟩

/-- Whether the stored halves complement. -/
def whole {α : Type} (p : Pair α) : Bool := p.flaw == 0

/-- The stored 64-bit word of a pair whose value is the number v. -/
def pairWord (v : Nat) (flaw : BitVec 32) : BitVec 64 :=
  let x := BitVec.ofNat 32 v
  ((~~~ x) ^^^ flaw) ++ x

/-! ### The mixing function and the lane generators -/

/-- The mixing function of R136. -/
def mix (k c : BitVec 64) : BitVec 64 :=
  let z := c + k * 0x9e3779b97f4a7c15#64
  let z := (z ^^^ (z >>> 30)) * 0xbf58476d1ce4e5b9#64
  let z := (z ^^^ (z >>> 27)) * 0x94d049bb133111eb#64
  z ^^^ (z >>> 31)

/-- `mix` on numbers taken modulo 2^64. -/
def mixNat (k c : Nat) : Nat := (mix (BitVec.ofNat 64 k) (BitVec.ofNat 64 c)).toNat

/-- One step of a lane's Galois LFSR (R138). -/
def lfsrStep (x : BitVec 64) : BitVec 64 :=
  if x.getLsbD 0 then (x >>> 1) ^^^ 0xD800000000000000#64 else x >>> 1

/-- n steps of a lane's LFSR. -/
def lfsrSteps : Nat → BitVec 64 → BitVec 64
  | 0, x => x
  | n + 1, x => lfsrSteps n (lfsrStep x)

/-- The value loaded into lane ℓ at house reset (R138). -/
def laneSeed (lane tick : Nat) : BitVec 64 :=
  let x := mix (BitVec.ofNat 64 lane) (BitVec.ofNat 64 tick)
  if x = 0 then 1 else x

/-- The values loaded into the first n lanes at house reset. -/
def laneSeeds (n tick : Nat) : List (BitVec 64) := (List.range n).map fun l => laneSeed l tick

/-- r16 in scripted mode (R137): bits [63:48] of mix(key, j). -/
def scriptedDraw (seed : BitVec 64) (step tensor j : Nat) : Nat :=
  let key := mix seed ((BitVec.ofNat 64 (step * 2 ^ 20)) ^^^ BitVec.ofNat 64 tensor)
  (mix key (BitVec.ofNat 64 j)).toNat / 2 ^ 48

/-! ### Digests (R282) -/

/-- The key of a digest. -/
def digestKey (kind step id : Nat) : BitVec 64 :=
  mix (mix (BitVec.ofNat 64 kind) (BitVec.ofNat 64 step)) (BitVec.ofNat 64 id)

/-- The digest of a list of elements (index, value bits), added to `d`. -/
def digestAdd (key : BitVec 64) : BitVec 64 → List (Nat × Nat) → BitVec 64
  | d, [] => d
  | d, (j, v) :: r =>
    digestAdd key (d + mix key (BitVec.ofNat 64 j ^^^ BitVec.ofNat 64 (v * 2 ^ 32))) r

/-- The digest of a set of elements under kind, step and id. -/
def digest (kind step id : Nat) (es : List (Nat × Nat)) : BitVec 64 :=
  digestAdd (digestKey kind step id) 0 es

end Sys2Proof.Machine
end

