-- ==== Sys2Proof/Machine/Float.lean ====
section
/-! DEFINITION. The block's arithmetic on FP32, BF16 and the 8-bit formats: exact on integers, with one explicit
rounding at the end (R80, R121, R127, R146, R186, R270). -/

namespace Sys2Proof.Machine

open Sys2Proof

/-- An exact binary fraction: the value num · 2^exp. -/
structure Dy where
  num : Int
  exp : Int
  deriving DecidableEq, Repr

/-- num/den rounded to the nearest integer, ties to even. -/
def rneDiv (num den : Nat) : Nat :=
  let q := num / den
  let r := num % den
  if 2 * r < den then q
  else if den < 2 * r then q + 1
  else if q % 2 = 0 then q else q + 1

/-- 2^(n) for a natural part of an integer exponent. -/
def pow2 (e : Int) : Nat := 2 ^ e.toNat

/-- The magnitude code of (num/den) · 2^e in a format of precision p whose smallest unit is 2^minUlp, rounded to
nearest even and without an upper limit. -/
def roundMag (p : Nat) (minUlp : Int) (num den : Nat) (e : Int) : Nat :=
  if num = 0 then 0 else
  let t : Int := Int.ofNat (Nat.log2 num) - Int.ofNat (Nat.log2 den) + e
  let u0 : Int := max (t - Int.ofNat p) minUlp
  let at_ (u : Int) : Nat × Nat := (num * pow2 (e - u), den * pow2 (u - e))
  let u : Int := if (at_ u0).1 / (at_ u0).2 ≥ 2 ^ p then u0 + 1 else u0
  (u - minUlp).toNat * 2 ^ (p - 1) + rneDiv (at_ u).1 (at_ u).2

/-- A signed code of w bits from its magnitude. -/
def signed (w : Nat) (neg : Bool) (mag : Nat) : BitVec w :=
  BitVec.ofNat w (mag + bitOf neg * 2 ^ (w - 1))

/-! ### FP32 -/

def f32Neg (x : F32) : Bool := x.getLsbD 31
def f32Exp (x : F32) : Nat := bits x.toNat 23 8
def f32Frac (x : F32) : Nat := bits x.toNat 0 23
/-- bits [30:0]: the magnitude. -/
def f32Mag (x : F32) : Nat := x.toNat % 2 ^ 31
def f32Finite (x : F32) : Bool := f32Exp x != 255
def f32Nan (x : F32) : Bool := f32Exp x == 255 && f32Frac x != 0
def f32Inf (x : F32) : Bool := f32Exp x == 255 && f32Frac x == 0
/-- The canonical NaN of FP32 (R147). -/
def f32CanonNan : F32 := 0x7FC00000
def f32InfOf (neg : Bool) : F32 := signed 32 neg 0x7F800000
def f32Zero (neg : Bool) : F32 := signed 32 neg 0

/-- The exact value of a finite FP32 pattern. -/
def f32Dy (x : F32) : Dy :=
  let m := if f32Exp x = 0 then f32Frac x else f32Frac x + 2 ^ 23
  let e : Int := (if f32Exp x = 0 then (1 : Int) else Int.ofNat (f32Exp x)) - 150
  ⟨if f32Neg x then - Int.ofNat m else Int.ofNat m, e⟩

/-- Exact sums and products. -/
def dyAdd (a b : Dy) : Dy :=
  let e := min a.exp b.exp
  ⟨a.num * pow2 (a.exp - e) + b.num * pow2 (b.exp - e), e⟩
def dyNeg (a : Dy) : Dy := ⟨- a.num, a.exp⟩
def dySub (a b : Dy) : Dy := dyAdd a (dyNeg b)
def dyMul (a b : Dy) : Dy := ⟨a.num * b.num, a.exp + b.exp⟩

/-- (num/den) · 2^e of the given sign rounded to FP32, to nearest even; beyond the largest finite value it is ±Inf. -/
def f32Round (neg : Bool) (num den : Nat) (e : Int) : F32 :=
  signed 32 neg (min (roundMag 24 (-149) num den e) 0x7F800000)

/-- An exact fraction rounded to FP32; `zneg` is the sign of an exact zero. -/
def dyF32 (d : Dy) (zneg : Bool) : F32 :=
  if d.num = 0 then f32Zero zneg else f32Round (d.num < 0) d.num.natAbs 1 d.exp

/-- FP32 addition, round to nearest even, subnormals kept. -/
def f32Add (a b : F32) : F32 :=
  if f32Nan a || f32Nan b then f32CanonNan
  else if f32Inf a then (if f32Inf b && f32Neg a != f32Neg b then f32CanonNan else a)
  else if f32Inf b then b
  else dyF32 (dyAdd (f32Dy a) (f32Dy b)) (f32Neg a && f32Neg b)

def f32Opp (x : F32) : F32 := x ^^^ 0x80000000
def f32Abs (x : F32) : F32 := x &&& 0x7FFFFFFF
def f32Sub (a b : F32) : F32 := f32Add a (f32Opp b)

/-- FP32 multiplication. -/
def f32Mul (a b : F32) : F32 :=
  let s := f32Neg a != f32Neg b
  if f32Nan a || f32Nan b then f32CanonNan
  else if f32Inf a || f32Inf b then
    (if f32Mag a = 0 || f32Mag b = 0 then f32CanonNan else f32InfOf s)
  else dyF32 (dyMul (f32Dy a) (f32Dy b)) s

/-- FP32 division. -/
def f32Div (a b : F32) : F32 :=
  let s := f32Neg a != f32Neg b
  if f32Nan a || f32Nan b then f32CanonNan
  else if f32Inf a then (if f32Inf b then f32CanonNan else f32InfOf s)
  else if f32Inf b then f32Zero s
  else if f32Mag b = 0 then (if f32Mag a = 0 then f32CanonNan else f32InfOf s)
  else if f32Mag a = 0 then f32Zero s
  else f32Round s (f32Dy a).num.natAbs (f32Dy b).num.natAbs ((f32Dy a).exp - (f32Dy b).exp)

/-- ⌊√n⌋ for n below 2^(2k), bit by bit. -/
def isqrt : Nat → Nat → Nat → Nat
  | 0, _, r => r
  | k + 1, n, r => isqrt k n (if (r + 2 ^ k) * (r + 2 ^ k) ≤ n then r + 2 ^ k else r)

/-- The correctly rounded square root of m · 2^e, m > 0. -/
def sqrtRound (m : Nat) (e : Int) : F32 :=
  let e2 : Int := if e % 2 = 0 then e - 60 else e - 61
  let n := m * pow2 (e - e2)
  let r := isqrt (Nat.log2 n / 2 + 1) n 0
  f32Round false (2 * r + bitOf (r * r != n)) 1 (e2 / 2 - 1)

/-- FP32 square root, correctly rounded. -/
def f32Sqrt (x : F32) : F32 :=
  if f32Nan x then f32CanonNan
  else if f32Mag x = 0 then x
  else if f32Neg x then f32CanonNan
  else if f32Inf x then x
  else sqrtRound (f32Dy x).num.natAbs (f32Dy x).exp

/-- a < b by IEEE value (false with a NaN; the zeros are equal). -/
def f32Lt (a b : F32) : Bool :=
  if f32Nan a || f32Nan b then false
  else
    let v (x : F32) : Int := if f32Neg x then - Int.ofNat (f32Mag x) else Int.ofNat (f32Mag x)
    decide (v a < v b)

/-- An integer as FP32. -/
def f32OfInt (n : Int) : F32 := dyF32 ⟨n, 0⟩ false

/-! ### BF16 -/

/-- BF16 widened to FP32, exactly. -/
def bf16Widen (x : BF16) : F32 := x ++ (0 : BitVec 16)

/-- The canonical NaN of BF16 (R147). -/
def bf16CanonNan : BF16 := 0x7FC0

/-- bf16_rne of R127: one rounding of an exact fraction, saturating at ±0x7F7F; an exact zero gives +0.0, and a
negative value that rounds to zero gives −0.0. -/
def bf16Sat (d : Dy) : BF16 :=
  signed 16 (d.num < 0) (min (roundMag 8 (-133) d.num.natAbs 1 d.exp) 0x7F7F)

/-- bf16_rne of an FP32 value itself (R128): the sign of a zero is kept. -/
def bf16OfF32 (x : F32) : BF16 :=
  if f32Mag x = 0 then signed 16 (f32Neg x) 0 else bf16Sat (f32Dy x)

/-- FP32 rounded to BF16 by IEEE rules (R146, R148, R189): ±Inf and NaN are kept as such. -/
def bf16Ieee (x : F32) : BF16 :=
  if f32Nan x then bf16CanonNan
  else if f32Inf x then signed 16 (f32Neg x) 0x7F80
  else signed 16 (f32Neg x) (min (roundMag 8 (-133) (f32Dy x).num.natAbs 1 (f32Dy x).exp) 0x7F80)

/-! ### Integers from exact fractions -/

/-- An exact fraction rounded to the nearest integer, ties to even. -/
def roundHalfEven (d : Dy) : Int :=
  let r := rneDiv (d.num.natAbs * pow2 d.exp) (pow2 (- d.exp))
  if d.num < 0 then - Int.ofNat r else Int.ofNat r

/-- The largest integer not above an exact fraction. -/
def floorDy (d : Dy) : Int := (d.num * pow2 d.exp) / Int.ofNat (pow2 (- d.exp))

/-- Clamp to −127..127 (R127). -/
def clamp127 (u : Int) : Int := max (-127) (min 127 u)

/-- A byte read as a signed number. -/
def s8 (b : Byte) : Int := b.toInt

/-- A signed number as a byte. -/
def byteOf (q : Int) : Byte := BitVec.ofInt 8 q

/-! ### Quantising (R118, R127, R128) -/

/-- Whether v has no exact value: ±Inf (a NaN never reaches the quantiser, R122). -/
def quantise (v : F32) (e : Nat) (stochastic : Option Nat) : Int × BF16 :=
  if ! f32Finite v then (0, 0)
  else
    let e := if e = 255 then 254 else e
    let x : Dy := ⟨(f32Dy v).num, (f32Dy v).exp + (133 - Int.ofNat e)⟩
    let u := match stochastic with
      | none => roundHalfEven x
      | some r => floorDy (dyAdd x ⟨Int.ofNat r, -16⟩)
    let q := clamp127 u
    (q, bf16Sat (dySub (f32Dy v) ⟨q, Int.ofNat e - 133⟩))

/-- The residual of an element that is not sent (R128): bf16_rne of v itself, which saturates to ±0x7F7F instead of giving
±Inf (R127; log entry 20). -/
def unsent (v : F32) : BF16 := if f32Finite v then bf16OfF32 v else signed 16 (f32Neg v) 0x7F7F

/-- The local byte of a block (R122). -/
def localByte (vs : List F32) : Nat := vs.foldl (fun a v => max a (f32Exp v)) 0

/-- The exact value of element q at scale byte E (R118). -/
def q8bDy (e : Nat) (q : Int) : Dy := ⟨q, Int.ofNat e - 133⟩

/-- The FP32 pattern of q · 2^(E − 133). -/
def q8bF32 (e : Nat) (q : Int) : F32 := dyF32 (q8bDy e q) false

/-! ### The MXFP8 formats (R146) -/

/-- An 8-bit float format: mantissa bits, smallest unit, largest code. E4M3 has emax 8, E5M2 has emax 15. -/
structure Fp8 where
  man  : Nat
  ulp  : Int
  top  : Nat
  emax : Nat
  deriving DecidableEq, Repr

def e4m3 : Fp8 := ⟨3, -9, 0x7E, 8⟩
def e5m2 : Fp8 := ⟨2, -16, 0x7B, 15⟩

/-- An exact value of sign `neg` rounded to an 8-bit format, saturating. -/
def fp8Round (f : Fp8) (neg : Bool) (d : Dy) : Byte :=
  signed 8 neg (min (roundMag (f.man + 1) f.ulp d.num.natAbs 1 d.exp) f.top)

/-- The exact value of an 8-bit pattern; none for a NaN or infinity of the format (OCP MX v1.0). -/
def fp8Dy (f : Fp8) (b : Byte) : Option Dy :=
  let mag := b.toNat % 128
  if mag > f.top then none
  else
    let ex := mag / 2 ^ f.man
    let m := if ex = 0 then mag % 2 ^ f.man else mag % 2 ^ f.man + 2 ^ f.man
    let e : Int := f.ulp + (if ex = 0 then (0 : Int) else Int.ofNat ex - 1)
    some ⟨if b.toNat ≥ 128 then - Int.ofNat m else Int.ofNat m, e⟩

/-- The FP32 value of an 8-bit pattern at shared scale byte E. -/
def fp8F32 (f : Fp8) (e : Nat) (b : Byte) : F32 :=
  match fp8Dy f b with
  | none =>
    if f.man = 2 && b.toNat % 128 = 0x7C then f32InfOf (b.toNat ≥ 128) else f32CanonNan
  | some d => dyF32 ⟨d.num, d.exp + (Int.ofNat e - 127)⟩ (b.toNat ≥ 128)

/-- One MXFP8 block of 32 values: its scale byte and element bytes (R146, R147). -/
def fp8Block (f : Fp8) (vs : List F32) : List Byte :=
  if vs.any (fun v => ! f32Finite v) then 0xFF :: List.replicate 32 0
  else
    let e := localByte vs - f.emax
    BitVec.ofNat 8 e ::
      vs.map fun v => fp8Round f (f32Neg v) ⟨(f32Dy v).num, (f32Dy v).exp + (127 - Int.ofNat e)⟩

/-! ### Compensated FP32 (R186) -/

/-- pair_add of R186. -/
def pairAdd (a b : F32 × F32) : F32 × F32 :=
  let s := f32Add a.1 b.1
  if ! (f32Finite a.1 && f32Finite a.2 && f32Finite b.1 && f32Finite b.2) then (s, 0)
  else
    let bb := f32Sub s a.1
    let t := f32Add (f32Sub a.1 (f32Sub s bb)) (f32Sub b.1 bb)
    let e := f32Add (f32Add a.2 b.2) t
    let s3 := f32Add s e
    (s3, f32Sub e (f32Sub s3 s))

/-- One level of the balanced tree of R192: neighbours added, an odd last pair passed up. -/
def pairLevel : List (F32 × F32) → List (F32 × F32)
  | a :: b :: r => pairAdd a b :: pairLevel r
  | l => l

/-- The balanced tree, by levels. -/
def pairTree : Nat → List (F32 × F32) → F32 × F32
  | 0, l => l.headD (0, 0)
  | n + 1, l => match l with
    | [] => (0, 0)
    | [x] => x
    | l => pairTree n (pairLevel l)

/-- Pairs added in order. -/
def pairSum (l : List (F32 × F32)) : F32 × F32 :=
  match l with
  | [] => (0, 0)
  | x :: r => r.foldl pairAdd x

/-- The grouping of R192: pair k belongs to group k mod G; each group is a tree, the groups are added in order. -/
def groupedSum (g : Nat) (l : List (F32 × F32)) : F32 × F32 :=
  let idx := l.zipIdx
  let groups := (List.range g).filterMap fun i =>
    let m := (idx.filter fun e => e.2 % g = i).map (·.1)
    if m = [] then none else some (pairTree m.length m)
  pairSum groups

/-! ### Minimum and maximum (R190) -/

/-- MAX or MIN of two FP32 values: −0.0 below +0.0, a NaN gives the canonical NaN. -/
def f32Pick (mx : Bool) (a b : F32) : F32 :=
  if f32Nan a || f32Nan b then f32CanonNan
  else
    let k (x : F32) : Int := if f32Neg x then - Int.ofNat (f32Mag x) - 1 else Int.ofNat (f32Mag x)
    if mx then (if k a < k b then b else a) else (if k b < k a then b else a)

end Sys2Proof.Machine
end

