-- ==== Sys2Proof/Config.lean ====
section
/-! DEFINITION. What an implementation fixes and the free values: constants without a body, so that nothing can
evaluate them and a claim holds whatever they are. -/

namespace Sys2Proof.Config

/-- The ck of one µs at the 1.8 GHz block clock (R1). -/
def ckPerUs : Nat := 1800

/-- The n-th draw of the generators whose values the spec leaves open: the retry-after of a line that is CLOSED
(1 to 4 ticks, Table 8.7), and the ticks by which a DIM propose exceeds its least dark tick (R249). Free value, log
entry 12. -/
opaque freeDraw : Nat → Nat

/-- The lane that the n-th ad-lib stochastic draw falls on: the spec does not say which lane takes an element in
ad-lib mode (R138). Free value, log entry 13. -/
opaque laneOf : Nat → Nat

/-- The HBM address of a troupe's cue table, which the block places in pit 0 (R328). Free value, log entry 14. -/
opaque cueTable : Nat → BitVec 64

/-- The address of a block-internal structure that an error record names and that the spec does not place:
the troupe, a kind of structure and its index. Free value, log entry 16. -/
opaque internalAddr : Nat → Nat → Nat → BitVec 64

/-- The int32 that a wide block holds after an exact sum that does not fit it: the spec gives a Q8B REDUCE_WRITE no
result there (R191). Free value, log entry 35. -/
opaque wideOverflow : Int → BitVec 32

/-- The FP32 that a broken parameter word is taken as: the value and the complement that it holds give no number in the
spec (R268, R351). Free value, log entry 97. -/
opaque brokenParam : BitVec 32 → BitVec 32 → BitVec 32

/-- The pit, modulo the pits of the build, in whose stack an HBM address lies: the spec gives no map from addresses to
pits (R139, R145, R362, Table 13.10). Free value, log entry 87. -/
opaque pitAt : Nat → Nat

/-- A field of a carousel line's entry that the spec gives the line once and its transport keeps per peer (timer stage,
knock number, window, base RTT), by its place in Table 8.1 and the peers' values. Free value, log entry 104. -/
opaque carouselField : Nat → List Nat → Nat

end Sys2Proof.Config
end

