-- ==== Sys2Proof/Machine/State.lean ====
section
/-! DEFINITION. The state of the block: plain data, everything the spec gives the machine.

Each field's docstring opens with its width or type, the file and rule of spec/ that names it, and its reset value;
`DESIGN CHOICE <value> [n]` or `PRESUMED <value> [n]` names the log entry n of notes/assumptions/ where the spec states
no reset value. -/

namespace Sys2Proof.Machine

open Sys2Proof

/-- Why the block stops with a fault. No meaning of this model raises one: every effect the spec describes is a next
state, and memory is total (log entry 4). Raised by: nobody. Safe. -/
inductive Fault where
  /-- An access to memory outside the address space. Raised by no meaning: every 64-bit address of a space reads. Safe. -/
  | outsideMemory (address : Nat)
  deriving DecidableEq, Repr

/-- Why the model gives a command no meaning. -/
inductive Refusal where
  /-- The command of this mnemonic has no meaning yet. Raised by arms of `exec` alone. Safe. -/
  | notModelled (mnemonic : String)
  deriving DecidableEq, Repr

/-- Step states in the order of STEP_STATE (Table 1.1, Table 12.7). -/
inductive StepState where
  | opened | called | exchanged | committed | skipped | updated | checked | retired
  deriving DecidableEq, Repr

/-- Troupe states (Table 12.2, Table 13.7). -/
inductive Life where
  | absent | active | pending | intermission | fenced | resetting
  deriving DecidableEq, Repr

/-- Line states (Table 8.1). -/
inductive LineState where
  | closed | knocking | opened | resetting | faulted | closing
  deriving DecidableEq, Repr

/-- Link states of a port (R246, R249, R251). -/
inductive Link where
  | unlit | lit | dark | relighting
  deriving DecidableEq, Repr

/-- A traffic class (Table 6.3: 0 G, 1 F, 2 D). -/
inductive Cls where
  | g | f | d
  deriving DecidableEq, Repr

/-- The three fabric responses (Table 0.1). -/
inductive Reply where
  | done | refused | noTarget
  deriving DecidableEq, Repr

/-- The mirroring mode of an understudy pair (R287). -/
inductive MirrorMode where
  | none | replay | copy
  deriving DecidableEq, Repr

/-- A position in the pod torus (Table 6.2). -/
structure Coord where
  x : Nat
  y : Nat
  z : Nat
  deriving DecidableEq, Repr

/-- An error record (Table 13.9). -/
structure ErrRec where
  sub      : Subsystem
  status   : Status
  troupe   : Nat
  chipWide : Bool
  index    : BitVec 32
  address  : BitVec 64
  tick     : Nat
  step     : Nat
  detail   : BitVec 64
  deriving DecidableEq, Repr

/-- The error log and its pointers (R357–R361, Table 13.5). -/
structure ErrorLog where
  /-- 256 records of 64 B by slot i mod 256; 13 R357; reset empty (DESIGN CHOICE none written [3]) -/
  records : Tab ErrRec := []
  /-- 32 bits; 13 R352 ERR_WRITE.INDEX; reset 0 -/
  write : BitVec 32 := 0
  /-- 64 bits, PC; 13 R352 ERR_READ; reset 0xFFFF_FFFF_0000_0000 -/
  read : BitVec 64 := 0xFFFFFFFF00000000
  /-- 32 bits, saturating; 13 R352 ERR_LOST.OVERWRITTEN; reset 0 -/
  overwritten : Nat := 0
  /-- 32 bits, saturating; 13 R352 ERR_LOST.SUPPRESSED; reset 0 -/
  suppressed : Nat := 0
  /-- 64 bits, PC; 13 R352 ERR_CUE; reset 0xFFFF_FFFF_0000_0000 -/
  cue : BitVec 64 := 0xFFFFFFFF00000000
  /-- count; 13 R360 records written in this tick, at most 256; reset 0 -/
  inTick : Nat := 0
  /-- list of (tag, status); 13 R347 access records written in this tick; reset empty -/
  accessSeen : List (Nat × Status) := []
  /-- list of ports; 06 R166 receive-check records written in this tick; reset empty -/
  portSeen : List Nat := []
  /-- list of troupes; 06 R399 unplaceable-carriage records written in this tick; reset empty -/
  placeSeen : List Nat := []
  /-- list of ports; 09 R236 overflow records written in this tick; reset empty -/
  overflowSeen : List Nat := []
  /-- offsets of the house page; 13 R351 PC registers found broken and recorded; reset empty -/
  pcFound : List Nat := []
  deriving DecidableEq, Repr

/-- The complement-check window (Table 13.11). -/
structure CheckWindow where
  /-- 64 bits; 13 R362 CHK_BASE; reset 0 -/
  base : BitVec 64 := 0
  /-- 64 bits, PC; 13 R362 CHK_CTRL; reset 0xFFFF_FFFF_0000_0000 -/
  ctrl : BitVec 64 := 0xFFFFFFFF00000000
  /-- 1 bit; 13 R362 CHK_STATUS.BUSY; reset 0 -/
  busy : Bool := false
  /-- 1 bit; 13 R362 CHK_STATUS.DONE; reset 0 -/
  finished : Bool := false
  /-- 24 bits; 13 R362 CHK_STATUS.BROKEN; reset 0 -/
  broken : Nat := 0
  /-- 64 bits; 13 R362 CHK_FIRST; reset 0 -/
  first : BitVec 64 := 0
  deriving DecidableEq, Repr

/-- A rehearsed unit (Table 14.1, numbered u = 0–23 as R379 numbers them). -/
structure UnitRec where
  /-- 1 bit; 14 R374 dark; reset as fused (DESIGN CHOICE 0 [3]) -/
  dark : Bool := false
  /-- 1 bit; 14 R376 fused off; reset as fused (DESIGN CHOICE 0 [3]) -/
  fused : Bool := false
  /-- 1 bit; 14 R372, R374 takes no new work item, dark from the next tick; reset 0 -/
  stopping : Bool := false
  /-- 1 bit; 14 R377 clear of the dark map at the next tick; reset 0 -/
  clearing : Bool := false
  /-- vector number; 14 R372 vector whose first run was wrong; reset none -/
  suspect : Option Nat := none
  /-- (slot owner, slot, return); 14 R373, R377 the deferred TEST_RUN or TEST_RETURN of the unit; reset none -/
  testing : Option Bool := none
  /-- 1 bit; 08 R144, 14 R377 the rehearsal that follows a pit reset runs; reset 0 -/
  resetting : Bool := false
  /-- ck; 14 R370 ck of this scene spent on rehearsal; reset 0 -/
  spent : Nat := 0
  /-- 1 bit; 14 R370, R372 failed since the last tick: a work item that reaches the unit waits for the next tick; reset 0 -/
  failed : Bool := false
  /-- list of vectors; 14 R369 vectors skipped for a broken pair; reset empty -/
  skippedVectors : List Nat := []
  deriving DecidableEq, Repr

/-- An update command issued to the vector engine (R272): the troupe, the tensor, the blocks of its owned span and the
step; step 0 marks a command whose troupe is gone. -/
structure UpdCmd where
  troupe : Nat
  tensor : Nat
  blocks : List Nat
  step   : Nat
  deriving DecidableEq, Repr

/-- The house: chip-wide state (R34–R37, R228, R245, R246, Table 13.5, R365, R370). -/
structure House where
  /-- pits of the build, 2, 4 or 8; 00 R9, 13 BLOCK_ID.PITS; reset 8 (R1) -/
  pits : Nat := 8
  /-- X 0–31, Y 0–31, Z 0–15; 06 R151 position in the pod torus; DESIGN CHOICE (0,0,0) [3] -/
  coord : Coord := ⟨0, 0, 0⟩
  /-- 16 bits; 06 R151 pod number; DESIGN CHOICE 0 [3] -/
  podNumber : Nat := 0
  /-- 8 bits each; 09 R228 pod dimensions Lx, Ly, Lz; DESIGN CHOICE (1,1,1) [3] -/
  dims : Coord := ⟨1, 1, 1⟩
  /-- 12 bits; 06 R151 the pod's VLAN id; reset 1 -/
  vid : Nat := 1
  /-- 1 bit; 14 R385 HOUSE_POD_SET has been served; reset 0 -/
  podSet : Bool := false
  /-- 64 bits; 02 R34 tick counter; reset 0 -/
  tick : Nat := 0
  /-- ck; 06 Table 6.3, R156 free-running ck counter, counted from reset; DESIGN CHOICE 0 [3] -/
  ck : Nat := 0
  /-- ck; 02 R34 ck counter at the last tick; DESIGN CHOICE 0 [3] -/
  sceneStart : Nat := 0
  /-- ck; 09 R245 length of this scene: the period and the correction of the scene before; reset 180,000 -/
  sceneLength : Nat := 180000
  /-- 1/16 ck, signed; 09 R245 correction of the next scene length; reset 0 -/
  correction : Int := 0
  /-- 1/16 ck, 0–15; 09 R245 the last tick's place beyond the ck of `sceneStart`; reset 0 -/
  sceneFrac : Nat := 0
  /-- 1/16 ck, 0–15; 09 R245 the next tick's place beyond the ck of its scene start; reset 0 -/
  sceneRest : Nat := 0
  /-- 16 bits, µs; 02 R34 tick period; reset 100 -/
  period : Nat := 100
  /-- (µs, tick); 02 R35 pending period and its effective tick; reset none -/
  pendingPeriod : Option (Nat × Nat) := none
  /-- port or none; 09 R245 parent port of the tick tree; reset none (DESIGN CHOICE none [3]) -/
  parent : Option Nat := none
  /-- port or none; 12 R340 parent port from the next tick; reset none -/
  pendingParent : Option (Option Nat) := none
  /-- 1 bit; 09 R246 the chip has taken its parent's tick counter; reset 0 -/
  tookCounter : Bool := false
  /-- tick; 09 R245 counter to take at the next tick while closed; reset none -/
  takeCounter : Option Nat := none
  /-- 1/16 ck, signed; 09 R245 offset measured in this scene; reset none -/
  theta : Option Int := none
  /-- count; 02 R37 consecutive ticks beyond ±1 µs; reset 0 -/
  ticksOut : Nat := 0
  /-- count; 02 R37 consecutive ticks within ±40 ns; reset 0 -/
  ticksIn : Nat := 0
  /-- 1 bit; 02 R37 neighbours announced another period at an effective tick; reset 0 -/
  periodClash : Bool := false
  /-- 1 bit; 13 HOUSE_STATUS.FW_UP; reset 0 -/
  fwUp : Bool := false
  /-- 1 bit; 13 HOUSE_STATUS.OPEN; reset 0 -/
  doorsOpen : Bool := false
  /-- 1 bit; 13 HOUSE_STATUS.ADRIFT; reset 0 -/
  adrift : Bool := false
  /-- ck; 10 R254 ck at which the chip last ceased to be adrift; reset none -/
  alignedCk : Option Nat := none
  /-- 1 bit; 13 HOUSE_STATUS.STALLED; reset 0 -/
  stalled : Bool := false
  /-- count; 13 R365 consecutive ticks in which Nimlia served nothing (log entry 51); reset 0 -/
  silentTicks : Nat := 0
  /-- 1 bit; 14 R384 the bring-up rehearsal has ended; reset 0 -/
  rehearsed : Bool := false
  /-- 1 bit; 14 R384 reset has been released; reset 0 -/
  released : Bool := false
  /-- ck; 14 R385 ck counter at reset release; reset 0 -/
  releaseCk : Nat := 0
  /-- 1 bit; 14 R385 the doors-timeout record has been written; reset 0 -/
  doorsRecord : Bool := false
  /-- 1 bit; 02 Table 2.1 pod dispatch mode is ad-lib; reset 0 (scripted) -/
  adlib : Bool := false
  /-- percent; 05 R139 pit share; reset 60 -/
  pitShare : Nat := 60
  /-- percent; 05 R139 pit share from the next tick; reset none -/
  pendingShare : Option Nat := none
  /-- bytes left of the current 1-µs window, by pit; 05 R139; reset 1,200,000 each (60%) -/
  allowance : Tab Nat := []
  /-- bytes by pit; 05 R139 bytes of a work item beyond its window's allowance, which later windows give first (the model's own field,
  log entry 93); reset 0 -/
  owed : Tab Nat := []
  /-- 1 bit; 14 UNIT_STATUS.REHEARSAL_ON; reset 1 -/
  rehearsal : Bool := true
  /-- percent; 14 UNIT_STATUS.SLACK_SHARE; reset 5 -/
  slack : Nat := 5
  /-- (on, percent); 14 R371 rehearsal settings from the next tick; reset none -/
  pendingTest : Option (Bool × Nat) := none
  /-- units u = 0–23 of R379; 14 R368; reset all in service -/
  units : Tab UnitRec := []
  /-- (first core, count, troupe), latest first; 03 R74 core bindings; reset empty: every core bound to troupe 0 (DESIGN CHOICE [3]) -/
  cores : List (Nat × Nat × Nat) := []
  /-- core and descriptor of each stalled emit; 03 R75; reset empty -/
  stalledEmits : List (Nat × Nat × List Byte) := []
  /-- troupe served last by the inlet; 03 R75 round-robin; reset 63 (DESIGN CHOICE [3]) -/
  inletTurn : Nat := 63
  /-- 8-B slots taken of the 64 MiB tally window; 07 R193; reset 0 -/
  tallySlots : Nat := 0
  /-- update commands in flight, oldest first, of every troupe: the chip has one sequencer; 10 R272; reset empty -/
  updates : List UpdCmd := []
  /-- 64 bits per lane, 256 lanes a pit and the wing's 256 after them (numbered by DESIGN CHOICE [92]); 00 R9, 05 R138 lane
  LFSRs; reset mix(lane, tick counter), or 1 -/
  lfsr : List (BitVec 64) := []
  /-- commands served in this tick; 12 R323; reset 0 -/
  servedInTick : Nat := 0
  /-- first knocks sent in this tick; 09 R247; reset 0 -/
  knocksInTick : Nat := 0
  /-- 1 bit; 12 R336 the block resets at the next tick; reset 0 -/
  resetDue : Bool := false
  /-- 64 bits per offset; 14 R379 chip-wide gauges of gauge page 0 by offset; reset 0 -/
  gauges : Tab Nat := []
  /-- 64 bits per offset; 14 R380 the chip-wide gauges and UNIT_STATUS as they stood at the last tick; reset 0, and the
  reset value of UNIT_STATUS -/
  tickGauges : Tab Nat := [(0x2C00, 0xB00000)]
  /-- response and data; 13 R346 the fabric response to the last window access; reset none. The model's view of the fabric -/
  reply : Option (Reply × List Byte) := none
  /-- counter; the model's own field: the index of the next free draw (log entry 12); DESIGN CHOICE 0 -/
  draws : Nat := 0
  deriving DecidableEq, Repr

/-- A carriage: its header (Table 6.3), payload and trailer's timing fields. -/
structure Car where
  type       : Nat
  cls        : Cls
  enc        : Nat
  op         : Nat
  troupe     : Nat
  line       : Nat
  seq        : BitVec 32 := 0
  ack        : BitVec 32 := 0
  lineEpoch  : BitVec 16 := 0
  tableEpoch : BitVec 16 := 0
  step       : Nat := 0
  count      : Nat
  tensor     : Nat := 0
  subject    : Nat := 0
  coll       : Bool := false
  rtx        : Bool := false
  last       : Bool := false
  ackv       : Bool := false
  echo       : Bool := false
  fence      : Bool := false
  scripted   : Bool := false
  position   : BitVec 32 := 0
  timestamp  : BitVec 32 := 0
  target     : BitVec 64 := 0
  payload    : List Byte
  echoTs     : BitVec 32 := 0
  hold       : BitVec 16 := 0
  deriving DecidableEq, Repr

/-- Where a frame's wire bytes are charged (R41, R43): a booking, the shaper of the port where the frame leaves, or the
shaper of the port that the frame's ring names. -/
inductive Charge where
  | booking (b : Nat)
  | shaper
  | shaperOn (port : Nat)
  deriving DecidableEq, Repr

/-- A dispatch item's place in the order of R46 and R70: bucket, kind of Table 7.2, round, chunk of a tensor. -/
structure ItemKey where
  bucket : Nat
  kind   : Nat
  round  : Nat
  tensor : Nat
  chunk  : Nat
  deriving DecidableEq, Repr

/-- A carriage on the cue sheet or waiting for it. -/
structure OutFrame where
  car    : Car
  peer   : Nat
  dst    : BlockAddr
  cls    : Nat := 0
  /-- 02 R43 what its ring or its area is bound to; none: the step's bookings (R41) -/
  charge : Option Charge := none
  /-- 02 R43, R48 what it draws on from the port whose cue sheet it entered; none before that -/
  drawn  : Option Charge := none
  port   : Option Nat := none
  seqd   : Bool := false
  carry  : Bool := false
  /-- 02 R48 its booking has left its port: it waits for a booking of the troupe there; 0 -/
  stranded : Bool := false
  opId   : Option Nat := none
  step   : Option Nat := none
  startedBE : Bool := false
  item   : Nat := 0
  itemWire : Nat := 0
  deriving DecidableEq, Repr

/-- A line operation taken from a ring (R203–R207). -/
structure LineOp where
  id       : Nat
  kind     : Nat
  ring     : Nat
  cue      : BitVec 16
  compl    : BitVec 64
  bytes    : Nat
  cars     : Nat
  acked    : Nat := 0
  sent     : Bool := false
  got      : Nat := 0
  localAt  : BitVec 64 := 0
  version  : Nat
  charge   : Charge
  allAcked : Bool := false
  /-- 08 R204, R227 the status that it ends with in its turn, where it sends nothing more; none -/
  ended    : Option Status := none
  deriving DecidableEq, Repr

/-- One peer of a line: the sequence words of Table 8.1 or of a peer record of Table 8.2, and the transport's own
bookkeeping for it. -/
structure Peer where
  /-- 48 bits; 08 R200, R201 block address of the peer; written by LINE_OPEN -/
  addr : BlockAddr
  /-- PC, 32 bits; 08 R200 next sequence; 0 at each epoch (R211) -/
  next : Pair (BitVec 32) := ⟨0, 0⟩
  /-- PC, 32 bits; 08 R200 oldest unacknowledged; 0 at each epoch -/
  oldest : Pair (BitVec 32) := ⟨0, 0⟩
  /-- PC, 32 bits; 08 R200 expected sequence; 0 at each epoch -/
  expected : Pair (BitVec 32) := ⟨0, 0⟩
  /-- 0–5; 08 R216 retransmit timer stage; 0 -/
  stage : Nat := 0
  /-- ck; 08 R216 start of the running timer, none while nothing is outstanding; none -/
  timer : Option Nat := none
  /-- carriages in sequence order with their wire bytes' send ck; 08 R212 outstanding; empty -/
  out : List (OutFrame × Nat) := []
  /-- sequences to resend, oldest first; 08 R215 go-back; empty -/
  goBack : List (BitVec 32) := []
  /-- count; 08 R214 carriages accepted since the last acknowledgement; 0 -/
  unacked : Nat := 0
  /-- (sequence, ck); 08 Table 8.5 last gap NAK; none -/
  nakAt : Option (BitVec 32 × Nat) := none
  /-- tick; 08 Table 8.5 last epoch NAK; none -/
  epochNak : Option Nat := none
  /-- 16 bits; 08 R200 knock number of the last knock sent; 0 -/
  knock : BitVec 16 := 0
  /-- 0–5; 08 R218 knock timer stage; 0 -/
  knockStage : Nat := 0
  /-- ck; 08 R218 start of the running knock timer; none -/
  knockTimer : Option Nat := none
  /-- tick; 08 R218 tick at which a refused knock is repeated; none -/
  retryAt : Option Nat := none
  /-- 1 bit; 09 R247 the first knock waits for its turn; 0 -/
  firstDue : Bool := false
  /-- (knock number, epoch); 08 R218 the knock answered last; none -/
  answered : Option (BitVec 16 × BitVec 16) := none
  /-- (epoch, sequence); 08 R219 the final acknowledgement sent last; none -/
  final : Option (BitVec 16 × BitVec 32) := none
  /-- epoch; 08 R218 the epoch the peer granted; none -/
  granted : Option (BitVec 16) := none
  /-- 1 bit; 08 R222 the fence carriage of this epoch is acknowledged; 0 -/
  fenced : Bool := false
  /-- (timestamp, ck); 06 Table 6.4 latest frame to echo; none -/
  echo : Option (BitVec 32 × Nat) := none
  /-- 32 bits, wire bytes; 08 R225 congestion window; 133,024 -/
  window : Nat := 133024
  /-- (tick, ck) samples of the last 1,024 ticks; 08 R225 base RTT; empty -/
  samples : List (Nat × Nat) := []
  /-- ck; 08 R225 last decrease of the window; none -/
  decreased : Option Nat := none
  /-- ck; 08 R225 ck of the last sample; none -/
  sampledAt : Option Nat := none
  /-- ck; 08 R225 when the last PROBE was sent; none -/
  probedAt : Option Nat := none
  /-- 32 bits; 06 Table 6.11 number of the last probe; 0 -/
  probe : BitVec 32 := 0
  deriving DecidableEq, Repr

/-- A line of a troupe (Table 8.1). -/
structure Line where
  /-- PC, bytes 0–7: state in [2:0], carousel in [3], epoch in [31:16]; 08 R200; reset CLOSED, epoch 0 (DESIGN CHOICE [3]) -/
  state : Pair LineState := ⟨.closed, 0⟩
  /-- 1 bit; 08 R200 carousel line; 0 -/
  carousel : Bool := false
  /-- 16 bits; 08 R200 line epoch; 0 -/
  epoch : BitVec 16 := 0
  /-- 16 bits; 08 R218 the epoch this end has requested; none -/
  requested : Option (BitVec 16) := none
  /-- 64 bits; 08 R200 remote window base; 0 -/
  remoteBase : BitVec 64 := 0
  /-- 40 bits; 08 R200 remote window length; 0 -/
  remoteLen : Nat := 0
  /-- 64 bits; 08 R200 local window base; 0 -/
  localBase : BitVec 64 := 0
  /-- 40 bits; 08 R200 local window length; 0 -/
  localLen : Nat := 0
  /-- 6 bits, 256-B units; 08 R200 largest payload; 32 -/
  payload : Nat := 32
  /-- percent; 08 R200 area share; 0 -/
  share : Nat := 0
  /-- 16 bits; 08 R200 entry version; 0 -/
  version : Nat := 0
  /-- peers: one for a point line, the n − 1 other members of a carousel line; 08 R201; empty -/
  peers : List Peer := []
  /-- block addresses in carousel order; 08 R198 member list; empty -/
  members : List BlockAddr := []
  /-- operations not completed, in descriptor order; 08 R206; empty -/
  ops : List LineOp := []
  /-- carriages waiting for a sequence number; 08 R198, R220; empty -/
  waiting : List OutFrame := []
  /-- tick; 08 R199 last NAK of reason 2; none -/
  closedNak : Option Nat := none
  /-- 1 bit; 11 R303 knocks as a stand-in for a lost address; 0 -/
  standIn : Bool := false
  deriving DecidableEq, Repr

/-- A ring record (Table 12.5). -/
structure Ring where
  kind     : Nat
  depth    : Nat
  binding  : Nat
  port     : Nat
  booking  : Nat
  base     : BitVec 64
  head     : Pair (BitVec 32) := ⟨0, 0⟩
  tail     : Pair (BitVec 32) := ⟨0, 0⟩
  spaceCue : BitVec 16
  /-- count; 12 R327 taken descriptors whose work has not ended; 0 -/
  inFlight : Nat := 0
  deriving DecidableEq, Repr

/-- A pending CUE_WAIT (R330). -/
structure Wait where
  issuer    : Nat
  slot      : Nat
  threshold : BitVec 64
  notify    : BitVec 64
  expires   : Option Nat
  deriving DecidableEq, Repr

/-- A cue: a 64-bit counter held as two paired-complement words (R328), and its waits in their order of service. -/
structure Cue where
  value  : BitVec 64
  flawLo : BitVec 32 := 0
  flawHi : BitVec 32 := 0
  waits  : List Wait := []
  deriving DecidableEq, Repr

/-- A change of a booking that has been served and waits for the tick at which it takes effect (R41). -/
structure BookChange where
  port  : Nat
  cls   : Cls
  bytes : Nat
  start : Nat
  stop  : Nat
  at_   : Nat
  deriving DecidableEq, Repr

/-- A booking (R41, R42, R58) with its scene accounts (R48, R50). -/
structure Booking where
  port      : Nat
  cls       : Cls
  bytes     : Pair Nat
  start     : Nat
  stop      : Nat
  suspended : Bool := false
  /-- tick; 02 R58 the tick at which it was suspended; 0 -/
  suspendedAt : Nat := 0
  /-- by ascending tick of effect; 02 R41 changes served and not yet in effect; empty -/
  changes   : List BookChange := []
  /-- bytes left in this scene; 02 R45; 0 -/
  left      : Nat := 0
  /-- bytes carried over at the end of the last whole scene; 02 R48, 14 group 6; 0 -/
  carried   : Nat := 0
  /-- ck paused with a frame ready in this scene; 02 R50; 0 -/
  paused    : Nat := 0
  /-- 1 bit; 02 R42 the pair was found broken; 0 -/
  broken    : Bool := false
  deriving DecidableEq, Repr

/-- A shaper (Table 2.3). The balance is in 1/1,800 of a byte, so that one ck refills a whole number. -/
structure Shaper where
  rate    : Pair Nat := ⟨0, 0⟩
  cap     : Pair Nat := ⟨1048576, 0⟩
  /-- 1 bit; 13 R351 a word of it was broken at the last tick; 0 -/
  found   : Bool := false
  balance : Int := 1048576 * 1800
  asOf    : Nat := 0
  deriving DecidableEq, Repr

/-- A playbill entry (Table 3.1). -/
structure Entry where
  tensor    : Nat
  ident     : BitVec 32 := 0
  count     : Nat
  bucket    : Nat
  layer     : Nat
  bf16      : Bool
  history   : Bool
  stochastic : Bool
  delayed   : Bool
  cue       : BitVec 16
  held      : BitVec 64
  offset    : Nat := 0
  fallback  : Bool := false
  /-- 1 bit; 03 R63 found broken and recorded; 0 -/
  found     : Bool := false
  deriving DecidableEq, Repr

/-- A bucket record (Table 3.2): class F or G, selection 0 dense, 1 sparse, 2 automatic, carousel entry. -/
structure Bucket where
  fclass    : Bool := false
  selection : Nat := 2
  carousel  : Nat := 0
  deriving DecidableEq, Repr

/-- A bucket of the exchange graph (R69, "The exchange graph"). -/
structure Graph where
  bucket   : Nat
  fclass   : Bool
  carousel : Nat
  selection : Nat
  /-- (tensor, count, bucket offset, bf16) in ascending tensor id -/
  tensors  : List (Nat × Nat × Nat × Bool)
  padded   : Nat
  deriving DecidableEq, Repr

/-- A carousel table entry (Table 7.1). -/
structure Carousel where
  members : List BlockAddr
  own     : Nat
  count   : Nat
  lines   : List Nat
  deriving DecidableEq, Repr

/-- A sieve record (Table 4.2). -/
structure SieveRec where
  density   : Nat := 65536
  crossover : Nat := 32768
  deriving DecidableEq, Repr

/-- A scale record (Table 5.4). -/
structure ScaleRec where
  headroom : Nat := 1
  length   : Nat := 16
  returns  : Nat := 32
  deriving DecidableEq, Repr

/-- The scale state of a tensor (Table 5.5): its history, newest first, each entry a paired-complement word. -/
structure ScaleState where
  record  : ScaleRec := {}
  pending : Option (ScaleRec × Nat) := none
  history : List (Pair Nat) := []
  clean   : Nat := 0
  deriving DecidableEq, Repr

/-- An optimiser record (Table 10.6); every FP32 parameter is a paired-complement word (R268). -/
structure OptRec where
  rule     : Nat := 0
  nesterov : Bool := false
  etaWord  : Pair F32 := ⟨0, 0⟩
  lamWord  : Pair F32 := ⟨0, 0⟩
  beta1Word : Pair F32 := ⟨0x3F666666, 0⟩
  beta2Word : Pair F32 := ⟨0x3F7FBE77, 0⟩
  epsWord  : Pair F32 := ⟨0x35800000, 0⟩
  dWord    : Pair F32 := ⟨0x3F800000, 0⟩
  clipWord : Pair F32 := ⟨0, 0⟩
  deriving DecidableEq, Repr

/-- A spike detector (Table 10.9) with its average and count in their committed and pending versions (R278). -/
structure Spike where
  armed  : Bool := false
  k      : Nat := 4
  ratio  : F32 := 0x40800000
  warmup : Nat := 16
  /-- committed average and count -/
  e      : F32 := 0
  count  : Nat := 0
  /-- pending average and count -/
  pendE  : F32 := 0
  pendCount : Nat := 0
  sample : Option F32 := none
  deriving DecidableEq, Repr

/-- A staging arena (R72). -/
structure Arena where
  base  : BitVec 64
  slots : Nat
  deriving DecidableEq, Repr

/-- A taken emit (R76, R84). -/
structure Taken where
  micro  : Nat
  cue    : BitVec 16
  tensor : Nat
  chunk  : Nat
  slot   : BitVec 64
  step   : Nat
  read   : Bool := false
  data   : List F32 := []
  deriving DecidableEq, Repr

/-- A chunk of the step (R80–R83). -/
structure ChunkRec where
  micros   : List Nat := []
  acc      : List F32 := []
  added    : Nat := 0
  complete : Bool := false
  slot     : Option (BitVec 64) := none
  cue      : BitVec 16 := 0
  deriving DecidableEq, Repr

/-- A reduction over a carousel by element ownership (R176): this chip's contribution, the contributions to the
elements it owns in order of arrival (member, first element, values), the members whose LAST has arrived, and the
gathered results. -/
structure Vec where
  own     : Option (List Int) := none
  contrib : List (Nat × Nat × List Int) := []
  ended   : List Nat := []
  reduced : Bool := false
  result  : Tab Int := []
  deriving DecidableEq, Repr

/-- The choice of R97: sparse, encoding, boundary bin (none for dense, 65,535 for all_nonzero) and t. -/
structure Choice where
  sparse : Bool
  enc    : Nat
  bin    : Option Nat
  t      : Nat
  deriving DecidableEq, Repr

/-- A quantised block: scale byte, 32 values, and which elements are sent. -/
structure QBlk where
  scale   : Nat
  q       : List Int
  present : List Bool
  deriving DecidableEq, Repr

/-- How far a bucket's quantisation pass has come (R99, R102). -/
inductive Pass where
  | idle | running | band | reread | ended
  deriving DecidableEq, Repr

/-- The work of one bucket in one step. -/
structure BWork where
  /-- 03 R82 the bucket is complete -/
  complete : Bool := false
  /-- 05 R124 the scale call has been issued (empty calls included) -/
  called : Bool := false
  /-- 05 R122 local bytes by block -/
  locals : List Nat := []
  /-- 05 R124 running maxima of owned blocks (block, byte) -/
  maxima : Tab Nat := []
  /-- 05 R125 scale bytes held, four to a PC word, by word number -/
  words : Tab (Pair (BitVec 32)) := []
  /-- 05 R125 blocks whose scale byte is held -/
  scaled : List Nat := []
  /-- 07 R182 ended contributions: (kind, tensor, chunk, member) -/
  ended : List (Nat × Nat × Nat × Nat) := []
  /-- 05 R126 state of the quantisation pass -/
  pass : Pass := .idle
  /-- 04 R97 choice -/
  choice : Option Choice := none
  /-- 04 R98 cut key -/
  kappa : Option Nat := none
  /-- 04 R99 band entries (offset, value) -/
  band : List (Nat × F32) := []
  /-- 04 R101 band bounds (lower, upper key, quota left, level) -/
  cut : Option (Nat × Nat × Nat × Nat) := none
  /-- 04 R100 band buffer held: its number 0–3 -/
  buffer : Option Nat := none
  /-- 05 R127 quantised blocks by block number -/
  quant : Tab QBlk := []
  /-- 04 R92 local histogram -/
  hist : List Nat := []
  /-- 04 R93 reduction of the histogram -/
  histVec : Vec := {}
  /-- 05 R130 reduction of the history bytes -/
  byteVec : Vec := {}
  /-- 07 R183 open block sums -/
  sums : Tab (List Int) := []
  /-- 07 R187 F-class contributions: (member, block, values), in order of arrival -/
  fcontrib : List (Nat × Nat × List F32) := []
  /-- 07 R185 reduced owned blocks -/
  reduced : Tab ShardBlock := []
  /-- 07 R192 reduction of the partial norms -/
  normVec : Vec := {}
  /-- 10 R271 reduction of the LAMB trust pairs -/
  trustVec : Vec := {}
  /-- 07 R193 place of the sums: none, window slots held, or HBM -/
  place : Option Nat := none
  /-- 05 R133 tensors in which this chip found an overflow -/
  overflow : List Nat := []
  /-- 10 R274 delta blocks of owned blocks (FP32 patterns for an F-class bucket) -/
  deltas : Tab (QBlk × List F32) := []
  /-- 11 R304 blocks of the bucket whose delta has been applied -/
  applied : List Nat := []
  /-- 11 R289 tensors whose reduced blocks (2·tensor) or masters (2·tensor + 1) have gone to the understudy -/
  mirrored : List Nat := []
  deriving DecidableEq, Repr

/-- A fallback round of a bucket (R134). -/
structure Fallback where
  step : Nat
  vec  : Vec := {}
  done : Bool := false
  deriving DecidableEq, Repr

/-- One phase of a phase record (Table 14.7): start tick, start offset, duration in 16-ck units. -/
structure Phase where
  tick  : Nat := 0
  off   : Nat := 0
  startCk : Option Nat := none
  dur   : Nat := 0
  ended : Bool := false
  deriving DecidableEq, Repr

/-- A sieve entry of the step ledger (R106). -/
structure SieveEntry where
  bucket   : Nat
  choice   : Choice
  selected : Nat
  kappa    : Nat
  deriving DecidableEq, Repr

/-- The record of a step (Table 1.1, R52, R253–R266, R295, R312, R381). -/
structure StepRec where
  num        : Nat
  state      : Pair StepState
  m          : Nat
  bookings   : BitVec 256
  seed       : BitVec 64
  adlib      : Bool
  mirror     : MirrorMode
  trickle    : Bool
  openTick   : Nat
  deadline   : Nat
  calledTick : Option Nat := none
  missed     : Bool := false
  livePits   : Nat := 0
  curtain    : Bool := false
  curtainCk  : Option Nat := none
  causes     : List Nat := []
  outcome    : Option Bool := none
  adopted    : Bool := false
  decideTick : Nat := 0
  commitTick : Nat := 0
  updTick    : Option Nat := none
  verdict    : Option Nat := none
  unmirrored : Bool := false
  loss       : Option F32 := none
  nonfinite  : Bool := false
  /-- (pit, slot, tensor, element offset) of the first non-finite element of the step, until its record is written at the
  end of its scene (R86, R89) -/
  badElement : Option (Nat × BitVec 64 × Nat × Nat) := none
  order      : List Nat := []
  sieve      : List SieveEntry := []
  digests    : List (BitVec 64) := [0, 0, 0, 0, 0]
  tensorDigests : List (Nat × Nat × BitVec 64) := []
  epoch      : Nat := 0
  phases     : List Phase := []
  sealNo     : Nat := 0
  generation : Nat := 0
  ledgerAt   : Option Nat := none
  extAt      : Nat := 0
  extLen     : Nat := 0
  restarted  : Bool := false
  capturing  : Bool := false
  uncaptured : Bool := false
  headerFlaw : BitVec 32 := 0
  propHeld   : Bool := false
  shard      : Tab (Tab ShardBlock) := []
  /-- agreed bytes of owned blocks (bucket, block, byte) -/
  agreed     : List (Nat × Nat × Nat) := []
  records    : List TensorRec := []
  /-- ck at which the chip's completion conditions were first all met -/
  completeCk : Option Nat := none
  mirrorEpoch : BitVec 16 := 0
  deriving DecidableEq, Repr

/-- A slot of the delayed-tier host ring (R276): its step, and whether its results have been read and applied. -/
structure HostSlot where
  step : Nat
  read : Option Nat := none
  deriving DecidableEq, Repr

/-- A call-frame round (R256). -/
structure Round where
  launch     : Nat
  step       : Nat
  curtain    : Bool
  completion : Bool
  hop        : Nat
  len        : Nat
  epoch      : BitVec 16
  ports      : List Nat
  got        : List (Nat × Nat × Bool × Bool) := []
  result     : Option (Bool × Bool) := none
  failed     : Bool := false
  startCk    : Nat := 0
  /-- ck of the last frame of the round sent, by port -/
  sent       : Tab Nat := []
  /-- outcome and commit tick of the last decided step as they stood at launch (Table 10.1) -/
  lastOutcome : Bool := false
  lastTick   : Nat := 0
  deriving DecidableEq, Repr

/-- What an understudy holds of its partner (R291–R294, R296, R303). -/
structure Mirror where
  checked   : Tab TState := []
  running   : Tab TState := []
  dirty     : Bool := false
  /-- partner's held range of the checked area by tensor block (tensor·2^32 + block) → 32 BF16 patterns (R292) -/
  checkedHeld : Tab (List F32) := []
  /-- partner's held range of the running area -/
  held      : Tab (List F32) := []
  checkedStep : Nat := 0
  runningStep : Nat := 0
  /-- mirror halves by step -/
  halves    : Tab Retained := []
  /-- mirror delta blocks of the last COMMITTED step -/
  deltas    : Tab (QBlk × List F32) := []
  /-- residual copies by chunk key, with their epochs -/
  residuals : Tab (Nat × List BF16) := []
  frozen    : Bool := false
  diverged  : Bool := false
  standIn   : Option BlockAddr := none
  /-- (check step, tick) of an equal verdict that waits for the flip -/
  passed    : Option (Nat × Nat) := none
  /-- bytes of an area that arrive in pieces (R293, R302), by tensor -/
  incoming  : Tab (List Byte) := []
  /-- index of the next span of the state trickle, and spans left to send of the committed state (R293) -/
  stateAt   : Nat := 0
  stateLeft : Nat := 0
  /-- stamp words of the partner's state spans, by tensor·2^20 + span (R293) -/
  stamps    : Tab Nat := []
  /-- the stand-in has sent the lost chip's deltas (R303) -/
  standSent : Bool := false
  deriving DecidableEq, Repr

/-- A sieve call in progress (R109–R116). -/
structure SieveCall where
  ring     : Nat
  kind     : Nat
  wide     : Bool
  bound    : Bool
  carousel : Nat
  n        : Nat
  keys     : BitVec 64
  unique   : BitVec 64
  counts   : BitVec 64
  inverse  : BitVec 64
  global   : BitVec 64
  step     : Nat
  cue      : BitVec 16
  compl    : BitVec 64
  number   : Nat
  issued   : Nat
  /-- (member, key, count) contributions to keys this chip owns -/
  contrib  : List (Nat × Nat × Nat) := []
  ended    : List Nat := []
  /-- (key, global count) results returned by owners -/
  results  : List (Nat × Nat) := []
  returned : List Nat := []
  status   : Option Status := none
  /-- contents that arrived before this chip's own call: (member, bytes) -/
  raw      : List (Nat × List Byte) := []
  deriving DecidableEq, Repr

/-- A spill call in progress (Table 5.9). -/
structure SpillCall where
  ring     : Nat
  restore  : Bool
  format   : Nat
  fp32     : Bool
  digest   : Bool
  cue      : BitVec 16
  count    : Nat
  scratch  : BitVec 64
  store    : BitVec 64
  host     : Bool
  layer    : BitVec 32
  compl    : BitVec 64
  deriving DecidableEq, Repr

/-- A posted command: Nimlia's copy of bytes 0–191 of its slot, and where it stands (R319, R322). -/
structure Posted where
  image   : List Byte
  arrived : Nat
  served  : Bool := false
  deriving DecidableEq, Repr

/-- What the completion of a deferred command waits for (Table 12.7, R322, R324). -/
inductive Awaits where
  | intermission | reset | delete | sealEnd | line (l : Nat) | lineClose (l : Nat) | cueWait (c : Nat)
  | stepOpen (m : Nat) (bookings : BitVec 256) | portReset (p : Nat) | pitReset (p : Nat)
  | optExport (ids : List Nat) (dest : BitVec 64) | optImport (ids : List Nat) (source : BitVec 64)
  | resync (epoch : BitVec 16) | standIn | promote (lost standin : BlockAddr) | spareExport (dest : BitVec 64)
  | testRun (u : Nat) | testReturn (u : Nat) | spillDrain (calls : Nat)
  deriving DecidableEq, Repr

/-- A deferred command: its slot, its target troupe and what it waits for. -/
structure Deferred where
  issuer : Nat
  slot   : Nat
  target : Nat
  awaits : Awaits
  deriving DecidableEq, Repr

/-- Where a troupe's step ledger lies (STEP_LEDGER, R312, R313). -/
structure LedgerPlace where
  host    : Bool
  capture : Bool
  records : Nat
  base    : BitVec 64
  extBase : BitVec 64
  extLen  : BitVec 64
  capBase : BitVec 64
  capLen  : BitVec 64
  deriving DecidableEq, Repr

/-- A troupe: everything the block holds for one tenant. -/
structure Troupe where
  /-- 3 bits; 13 TROUPE_STATUS.STATE; reset ACTIVE for troupe 0, others ABSENT -/
  life : Life := .active
  /-- Life; 12 Table 12.2 state before a reset, which decides the state after it; reset ACTIVE -/
  prior : Life := .active
  /-- 1 bit; 12 R315 the troupe's own mode is ad-lib; reset 0 -/
  adlib : Bool := false
  /-- 1 bit; 13 TROUPE_STATUS.BEST_EFFORT; reset 0 -/
  bestEffort : Bool := false
  /-- 2 bits; 13 TROUPE_STATUS.ISSUER (0 none, 1 troupe, 2 house); reset 0 -/
  issuer : Nat := 0
  /-- 1 bit; 13 TROUPE_STATUS.HELD; reset 0 -/
  held : Bool := false
  /-- 1 bit; 13 TROUPE_STATUS.DIVERGED; reset 0 -/
  diverged : Bool := false
  /-- 1 bit; 11 R301 no further step of the principal becomes CHECKED; reset 0 -/
  noCheck : Bool := false
  /-- status code; 12 TROUPE_STATE fence status; reset none -/
  fence : Option Status := none
  /-- (base, length) by pit; 12 TROUPE_CREATE regions; troupe 0: none (DESIGN CHOICE [3]) -/
  regions : List (BitVec 64 × BitVec 64) := []
  /-- bytes by page offset; 12 R318 call board, 32 slots of 256 B; reset 0 (DESIGN CHOICE [3]) -/
  board : List Host.Cell := []
  /-- by slot; 12 R319, R320 commands arrived and not completed; reset none -/
  posted : Tab Posted := []
  /-- (status, ring, refusals); 13 RING_STATUS; reset 0 -/
  ringStatus : Option Status × Nat × Nat := (none, 0, 0)
  /-- 32 bits, saturating; 13 ERROR_COUNT.RECORDS; reset 0 -/
  errors : Nat := 0
  /-- 32 bits; 13 ERROR_COUNT.FENCE_INDEX; reset 0 -/
  fenceIndex : BitVec 32 := 0
  /-- 64 B; 13 LAST_ERROR; reset 0 -/
  lastError : Option ErrRec := none
  /-- 64 bits per offset; 14 R378 gauge page; reset 0 -/
  gauges : Tab Nat := []
  /-- 64 bits per offset; 14 R380 the gauge page as it stood at the last tick; reset 0 -/
  tickGauges : Tab Nat := []
  /-- up to 512 descriptors; 03 R75 emit queue; reset empty -/
  queue : List (List Byte) := []
  /-- emits taken and not read or not added; 03 R76; reset empty -/
  taken : List Taken := []
  /-- slot addresses; 03 R72 held slots; reset empty -/
  slots : List (BitVec 64) := []
  /-- by arena 0–15; 03 R72; reset none -/
  arenas : Tab Arena := []
  /-- by cue 0–1,023; 12 R328; reset none -/
  cues : Tab Cue := []
  /-- by ring 0–4,095; 12 R325; reset none -/
  rings : Tab Ring := []
  /-- ring number; 12 R327 line ring served last; reset 4,095 (DESIGN CHOICE [3]) -/
  ringTurn : Nat := 4095
  /-- by booking 0–255; 02 R41; reset none -/
  bookings : Tab Booking := []
  /-- by port; 02 Table 2.3 shapers; reset rate 0, cap 1 MiB, balance cap -/
  shapers : Tab Shaper := []
  /-- PC, bytes by port; 02 Table 2.1 grants; reset 0 -/
  grants : Tab (Pair Nat) := []
  /-- (kind of word, port); 13 Table 13.3 broken grant and shaper words that have been recorded; reset empty -/
  brokenWords : List (Nat × Nat) := []
  /-- by line 0–511; 08 R200; reset CLOSED -/
  lines : Tab Line := []
  /-- MiB; 08 R212 retransmit area; reset 256 -/
  area : Nat := 256
  /-- by slice record, or none; 09 R238 slice of the troupe; reset none -/
  slice : Option Nat := none
  /-- by tensor id; 03 R62 playbill; reset empty -/
  bill : Tab Entry := []
  /-- by bucket; 03 R68; reset none -/
  buckets : Tab Bucket := []
  /-- 1 bit; 03 R65 the playbill is sealed; reset 0 (DESIGN CHOICE [3]) -/
  sealed : Bool := false
  /-- 1 bit; 03 R65 an exchange-graph build runs; reset 0 -/
  sealing : Bool := false
  /-- 32 bits; 11 Table 11.10 seal number; reset 0 -/
  sealNumber : Nat := 0
  /-- by bucket, ascending; 03 exchange graph; reset empty -/
  graph : Tab Graph := []
  /-- by bucket; 04 Table 4.2 sieve records; reset density 65,536, crossover 32,768 -/
  sieve : Tab (SieveRec × Option (SieveRec × Nat)) := []
  /-- by tensor; 05 R129, R130 scale records and histories; reset Table 5.4, empty history -/
  scale : Tab ScaleState := []
  /-- by bucket; 04 R95 current reduced histograms; reset none -/
  histograms : Tab (List Nat) := []
  /-- by entry 0–255; 07 R172 carousel table; reset none -/
  carousels : Tab Carousel := []
  /-- 32 bits; 11 Table 11.10 carousel generation; reset 0 -/
  generation : Nat := 0
  /-- 48 bits; 01 step counter, the last opened step; reset 0 -/
  opened : Nat := 0
  /-- 48 bits; 13 COMMITTED.STEP, 05 R142 residual epoch; reset 0 -/
  epoch : Nat := 0
  /-- by step; 01 step records, 11 prop room own halves, 14 phase records of the last 64 steps; reset none -/
  steps : Tab StepRec := []
  /-- by bucket; work of the step in flight; reset none -/
  work : Tab BWork := []
  /-- step of `work`; reset 0 -/
  workStep : Nat := 0
  /-- by bucket; work of the last COMMITTED step's all-gather; reset none -/
  gather : Tab BWork := []
  /-- by chunk key tensor·2^32 + chunk; 03 R80 chunks of the step; reset none -/
  chunks : Tab ChunkRec := []
  /-- by bucket, oldest first; 05 R134 fallback rounds of SKIPPED steps; reset none -/
  fallbacks : Tab (List Fallback) := []
  /-- (step, row of Table 10.4); 07 R180, R181 causes met by carriages of a step that has not been opened here; reset none -/
  earlyVeto : List (Nat × Nat) := []
  /-- 64 bits; 05 R137 rounding seed from the next STEP_OPEN; DESIGN CHOICE 0 [3] -/
  seed : BitVec 64 := 0
  /-- ticks; 02 R52 step deadline from the next STEP_OPEN; reset 2,048 -/
  deadline : Nat := 2048
  /-- PC, 1 bit (0 bank A); 05 R142 bank word; reset A -/
  bank : Pair Bool := ⟨false, 0⟩
  /-- 1 bit; 05 R143 the bank the engine keeps while the word is broken; reset A -/
  bankKept : Bool := false
  /-- 1 bit; 05 R143 the broken bank word has been found; reset 0 -/
  bankFound : Bool := false
  /-- by chunk key; 05 R141 residual bank A; reset none -/
  residA : Tab (List BF16) := []
  /-- by chunk key; 05 R141 residual bank B; reset none -/
  residB : Tab (List BF16) := []
  /-- PC, 1 bit; 10 R272 version word (0 area A committed); reset A (DESIGN CHOICE [3]) -/
  version : Pair Bool := ⟨false, 0⟩
  /-- 1 bit; 10 R280 the committed area the engine keeps while the word is broken; reset A -/
  versionKept : Bool := false
  /-- 1 bit; 10 R280 the broken version word has been found; reset 0 -/
  versionFound : Bool := false
  /-- 1 bit; 10 R280 STEP_OPEN is refused until an import or a cut-over; reset 0 -/
  needImport : Bool := false
  /-- tensors; 10 R280 owned tensors whose state is still to be restored; reset empty -/
  toImport : List Nat := []
  /-- by tensor; 10 R269 working state, area A; reset none -/
  areaA : Tab TState := []
  /-- by tensor; 10 R269 working state, area B; reset none -/
  areaB : Tab TState := []
  /-- by tensor; 10 Table 10.6 optimiser records and pending ones; reset Table 10.6 -/
  opt : Tab (OptRec × Option (OptRec × Nat)) := []
  /-- PC, FP32; 10 R268 gradient scale γ; DESIGN CHOICE 1.0 [3] -/
  gammaWord : Pair F32 := ⟨0x3F800000, 0⟩
  /-- steps; 10 R268 delayed-tier lag D; DESIGN CHOICE 0 [3] -/
  lag : Nat := 0
  /-- (γ, D, step); 10 R268 pending OPT_TROUPE; reset none -/
  pendingOpt : Option (F32 × Nat × Nat) := none
  /-- tensors whose tier change clears their state at the next opened step; 15 R390; reset empty -/
  tierChanged : List Nat := []
  /-- (tensor, block) written in the pending version; 10 R264; reset empty -/
  written : List (Nat × Nat) := []
  /-- (base, slot length); 10 R276 host ring; DESIGN CHOICE (0,0) [3] -/
  hostRing : BitVec 64 × BitVec 64 := (0, 0)
  /-- slots written and not applied; 10 R276; reset empty -/
  hostSlots : List HostSlot := []
  /-- loss and norm detectors, as set; 10 R278; reset Table 10.9 -/
  spikeLoss : Spike := {}
  /-- norm detector; 10 R278; reset Table 10.9 -/
  spikeNorm : Spike := {}
  /-- settings from the next STEP_OPEN; 10 OPT_SPIKE; reset none -/
  pendingSpike : List (Nat × Bool × Nat × F32 × Nat) := []
  /-- (host, capture, records, base, extension base, length, capture base, length); 11 R312; reset none -/
  ledger : Option LedgerPlace := none
  /-- records written to the ledger ring; 11 R312; reset 0 -/
  ledgerCount : Nat := 0
  /-- bytes; 11 R312 next free place of the extension area; reset 0 -/
  ledgerExt : Nat := 0
  /-- line; 11 R287 mirror line; reset 0 (DESIGN CHOICE [3]) -/
  pairLine : Nat := 0
  /-- MirrorMode; 11 R287 requested mode; reset none -/
  pairMode : MirrorMode := .none
  /-- 1 bit; 11 R287 residual trickle; reset off -/
  pairTrickle : Bool := false
  /-- count; 12 SPARE_PAIR partner owned count; DESIGN CHOICE 0 [3] -/
  pairOwned : Nat := 0
  /-- steps; 11 R295 prop-room depth K; reset 4 -/
  propK : Nat := 4
  /-- steps; 11 R295 digest interval N; reset 1 -/
  propN : Nat := 1
  /-- the partner's mirror; 11 R292; reset empty -/
  mirror : Mirror := {}
  /-- digest records received from the partner, by slot s mod 16; 11 R297; reset none -/
  digestArea : Tab DigestRec := []
  /-- chunk cursor; 11 R294 next chunk of the residual trickle; reset 0 -/
  trickleAt : Nat := 0
  /-- (pit base, length, host base, length); 12 SPILL_SET; DESIGN CHOICE 0 [3] -/
  spillRegions : BitVec 64 × BitVec 64 × BitVec 64 × BitVec 64 := (0, 0, 0, 0)
  /-- spill calls taken and not completed; 05 R145; reset empty -/
  spills : List SpillCall := []
  /-- 64 bits; 11 R284 kind 5 digest awaiting the next step; reset 0 -/
  layerDigest : BitVec 64 := 0
  /-- sieve calls taken and not completed; 04 R116; reset empty -/
  sieveCalls : List SieveCall := []
  /-- calls of kind 0x02 issued, by carousel entry; 04 R113; reset 0 -/
  sieveNumber : Tab Nat := []
  /-- cue sheet and waiting carriages of the troupe, in dispatch order; 02 cue sheets; reset empty -/
  sheet : List OutFrame := []
  /-- items packed; 02 R46; reset empty -/
  packed : List ItemKey := []
  /-- round in progress; 10 R256; reset none -/
  round : Option Round := none
  /-- 1 bit; 10 R253 rounds are launched; reset 0 -/
  rounds : Bool := false
  /-- tick; 10 R253 tick after which rounds end; reset none -/
  roundsEnd : Option Nat := none
  /-- count; 10 R258 consecutive ticks with an abandoned round; reset 0 -/
  abandoned : Nat := 0
  /-- 1 bit; 10 R258 the record of 16 abandoned rounds has been written; reset 0 -/
  abandonTold : Bool := false
  /-- 48 bits; 10 R253 last decided step; reset 0 -/
  decided : Nat := 0
  /-- 1 bit; 10 Table 10.1 outcome of the last decided step; reset 0 -/
  lastCommitted : Bool := false
  /-- 32 bits; 10 Table 10.1 commit tick of the last decided step; reset 0 -/
  lastCommitTick : Nat := 0
  /-- 1 bit; 03 R63 a broken entry waits for BILL_SET and BILL_SEAL; reset 0 -/
  billBroken : Bool := false
  /-- 1 bit; 12 R334 the reset in progress has done its work and waits for the step's decision; reset 0 -/
  resetRan : Bool := false
  /-- cues; 12 R335 cues that the reset in progress has rewritten at counter 0; reset empty -/
  resetCues : List Nat := []
  /-- ids of line operations and dispatch items given so far; the model's own numbering; 0 -/
  opCount : Nat := 0
  /-- (lost, stand-in); 11 R306 promotion in progress; reset none -/
  promotion : Option (BlockAddr × BlockAddr) := none
  /-- 1 bit; 11 R308 the encore is done, knocks are answered DONE from the next tick; reset 0 -/
  encoreDone : Bool := false
  /-- block address; 11 R306 the address this chip answers to for the troupe's slice, when promoted; reset none -/
  address : Option BlockAddr := none
  deriving DecidableEq, Repr

/-- A port (R228–R252). -/
structure Port where
  /-- Link; 09 R246 link state; reset unlit (the PHY trains after reset release) -/
  link : Link := .unlit
  /-- 1 bit; 13 HOUSE_STATUS.FAILED; reset 0 -/
  failed : Bool := false
  /-- 1 bit; 13 HOUSE_STATUS.MISWIRED; reset 0 -/
  miswired : Bool := false
  /-- 1 bit; 09 R246 verified; reset 0 -/
  verified : Bool := false
  /-- 48 bits; 09 R228 expected wing partner; reset none -/
  expected : Option BlockAddr := none
  /-- percent; 02 Table 2.1 booking ceiling; reset 90 -/
  ceiling : Nat := 90
  /-- bytes per scene; 02 Table 2.1 transit reserve; reset 0 -/
  transit : Nat := 0
  /-- ticks; 09 R248 dim delay; reset 0 -/
  dimDelay : Nat := 0
  /-- (ceiling, transit, dim delay); 12 HOUSE_PORT_SET from the next tick; reset none -/
  pendingSet : Option (Nat × Nat × Nat) := none
  /-- ck; 09 R244 start of the loss of signal; reset none -/
  lossSince : Option Nat := none
  /-- ck; 09 R251 ck at which the link went dark; reset none -/
  darkSince : Option Nat := none
  /-- ck; 09 R251 start of the relighting; reset none -/
  relightSince : Option Nat := none
  /-- 1 bit; 12 HOUSE_PORT_RESET in progress; reset 0 -/
  resetting : Bool := false
  /-- 1 bit; 09 R245 child port; reset 0 -/
  child : Bool := false
  /-- ck; 09 R245 arrival of the child's frame, awaiting the reply; reset none -/
  replyDue : Option Nat := none
  /-- 1/16 ck; 09 R245 time after the own tick at which the TICK frame was sent; reset none -/
  tickTx : Option Nat := none
  /-- (until ck, ck from which it applies) by priority; 09 R231, Table 6.17 running pauses; reset none -/
  pauses : Tab (Nat × Nat) := []
  /-- (output port, frame, priority, slice record, epoch); 09 R232, R233 frames held in the receive buffer: relayed ones
  whose output's relay overflow area is full, and, under output 8, frames that end here and wait for the pit share; reset
  empty -/
  rx : List (Nat × List Byte × Nat × Nat × BitVec 16) := []
  /-- (priority, ck of the last PFC); 09 R232 priorities the port is pausing; reset empty -/
  pausing : Tab Nat := []
  /-- (priority, quanta); 09 R232 PFC frames due; reset empty -/
  pfcDue : List (Nat × Nat) := []
  /-- frames; 02 R44 control frames ready; reset empty -/
  control : List (List Byte) := []
  /-- (frame, slice record, epoch); 09 R243 the entries that control frames of this chip were matched under; reset empty -/
  matched : List (List Byte × Nat × BitVec 16) := []
  /-- (frame, priority, slice record, epoch); 09 R236 relayed frames queued; reset empty -/
  relay : List (List Byte × Nat × Nat × BitVec 16) := []
  /-- as `relay`; 09 R236 relay overflow area; reset empty -/
  overflow : List (List Byte × Nat × Nat × BitVec 16) := []
  /-- wire bytes; 09 R237 relayed in this scene; reset 0 -/
  relayed : Nat := 0
  /-- count; 09 R235 frames dropped at check 1 in this tick; reset 0 -/
  dropped : Nat := 0
  /-- ticks; 09 R248 ticks with no frame other than TICK; reset 0 -/
  idle : Nat := 0
  /-- troupe; 02 R44 troupe served last in the booked round; reset 63 (DESIGN CHOICE [3]) -/
  turn : Nat := 63
  /-- troupe; 02 R47 troupe served last among best-effort frames; reset 63 (DESIGN CHOICE [3]) -/
  bestTurn : Nat := 63
  /-- 1 bit; 09 R237 the relayed turn of this round has been taken; reset 0 -/
  relayTurn : Bool := false
  /-- (proposer, handshake number, dark tick, agreed, committed); 09 R249 dim handshake; reset none -/
  dim : Option (Bool × BitVec 16 × Nat × Bool × Bool) := none
  /-- 16 bits; 09 Table 6.11 handshake number; reset 0 -/
  handshake : BitVec 16 := 0
  /-- (source, pod, VID, period µs, 2d in 1/16 ck); 09 R246 what the partner's TICK frames told; reset none -/
  partner : Option (BlockAddr × Nat × Nat) := none
  /-- 1/16 ck; 09 R246 measured round trip; reset none -/
  roundTrip : Option Nat := none
  /-- (left, ck of the next, handshake number, dark tick); 09 R250 DIM declines being sent; reset none -/
  declines : Option (Nat × Nat × BitVec 16 × Nat) := none
  /-- 1 bit; 09 R251 a wake after the dark commit point: the link relights as soon as it is dark; reset 0 -/
  woken : Bool := false
  /-- bytes by troupe; 02 R47 deficits of the round-robin of best-effort frames; reset 0 -/
  deficits : Tab Nat := []
  /-- ck; 02 R44 ck at which the frame on the wire ends: the next frame boundary; reset 0 -/
  busy : Nat := 0
  /-- frames sent, oldest first; 00 Table 0.1 MAC service; reset empty. The model's view of the wire -/
  tx : List (List Byte) := []
  deriving DecidableEq, Repr

/-- A slice record with its routing banks (R238–R243, R401). Routing entries are keyed destination·14 + slot. -/
structure Slice where
  /-- 09 R238 origin and extent; reset none -/
  shape : Option (Coord × Coord) := none
  /-- PC per entry; 09 R239 routing bank 0; reset Valid 0 -/
  bank0 : Tab (Pair (BitVec 32)) := []
  /-- PC per entry; 09 R239 routing bank 1; reset Valid 0 -/
  bank1 : Tab (Pair (BitVec 32)) := []
  /-- 1 bit; 09 R401 which bank is active; reset 0 (DESIGN CHOICE [3]) -/
  active : Bool := false
  /-- 16 bits; 09 R242 table epoch; reset 0 -/
  epoch : BitVec 16 := 0
  /-- 0–8; 10 R255 detour margin; reset 0 -/
  margin : Nat := 0
  /-- bits 6 and 7; 10 R255 stand-in mask; reset 0 -/
  mask : BitVec 8 := 0
  /-- (epoch, margin, mask, tick); 09 R242 pending commit; reset none -/
  commit : Option (BitVec 16 × Nat × BitVec 8 × Nat) := none
  /-- tick; 09 R243 tick at which the other bank began to drain; reset none -/
  draining : Option Nat := none
  /-- entry keys found broken in the active, other bank; 09 R240; reset empty -/
  found : List (Bool × Nat) := []
  deriving DecidableEq, Repr

/-- The state of the block. -/
structure State where
  house    : House := {}
  log      : ErrorLog := {}
  check    : CheckWindow := {}
  /-- troupes by number; a troupe not listed is ABSENT (R315) -/
  troupes  : Tab Troupe := []
  ports    : Tab Port := []
  slices   : Tab Slice := []
  /-- deferred commands in order of service (R322) -/
  deferred : List Deferred := []
  /-- bytes of HBM; 00 Table 0.1; nothing listed: an unlisted byte reads 0 (DESIGN CHOICE [4]) -/
  hbm      : List Host.Cell := []
  /-- bytes of scratchpad; 00 Table 0.1; as HBM -/
  scratch  : List Host.Cell := []
  /-- bytes of host memory; 00 Table 0.1; as HBM -/
  host     : List Host.Cell := []
  /-- the queue of commands that wait, first in, first out; the model's own; empty -/
  pending  : List Instr := []
  deriving DecidableEq, Repr

/-- The block at reset (R336, Table 14.9): registers at their reset values, troupe 0 empty, every other troupe
ABSENT, the house closed, nothing in memory and no command waiting. The lanes are the 256 of each of the build's eight pits,
then the wing's 256 (R9, R138): which generators the wing's lanes are is the model's DESIGN CHOICE [92], since the spec gives
lane l its load and numbers no wing lane. -/
def State.reset : State :=
  { house := { lfsr := laneSeeds 2304 0 },
    troupes := [(0, {})] }

end Sys2Proof.Machine
end

