-- ==== Sys2Proof/Machine/Ops.lean ====
section
/-! DEFINITION. The named operations over memory, troupes, gauges, the error log, cues, fences and completions. Every
meaning is written over these. -/

namespace Sys2Proof.Machine

open Sys2Proof

/-- What a command of the queue answers. -/
abbrev Out := Host.Outcome State Fault Refusal

/-! ### Memory (Table 0.1): canonical byte lists; an unlisted byte reads 0 (log entry 4) -/

/-- One byte of a memory. -/
def memByte : List Host.Cell → Nat → Byte
  | [], _ => 0
  | (a, b) :: r, k => if a = k then b else memByte r k

/-- Write one byte, keeping the canonical form: addresses rising, no zero byte listed. -/
def memPut : List Host.Cell → Nat → Byte → List Host.Cell
  | [], k, v => if v = 0 then [] else [(k, v)]
  | (a, b) :: r, k, v =>
    if k < a then (if v = 0 then (a, b) :: r else (k, v) :: (a, b) :: r)
    else if k = a then (if v = 0 then r else (k, v) :: r)
    else (a, b) :: memPut r k v

/-- The canonical form of a memory above address `lo`. -/
def memWfFrom : Nat → List Host.Cell → Bool
  | _, [] => true
  | lo, (a, b) :: r => decide (lo ≤ a) && b != 0 && memWfFrom (a + 1) r

/-- The canonical form of a memory: addresses strictly rising, and no byte listed that equals an unlisted one. -/
def Memory.wf (m : List Host.Cell) : Bool := memWfFrom 0 m

/-- n bytes from an address, modulo 2^64. -/
def memRead (m : List Host.Cell) (a n : Nat) : List Byte :=
  (List.range n).map fun i => memByte m ((a + i) % 2 ^ 64)

/-- Write a run of bytes, modulo 2^64. -/
def memWrite : List Host.Cell → Nat → List Byte → List Host.Cell
  | m, _, [] => m
  | m, a, b :: r => memWrite (memPut m (a % 2 ^ 64) b) (a + 1) r

/-- Write bytes to HBM. -/
def pokeHbm (s : State) (a : Nat) (bs : List Byte) : State := { s with hbm := memWrite s.hbm a bs }
/-- Write bytes to host memory. -/
def pokeHost (s : State) (a : Nat) (bs : List Byte) : State := { s with host := memWrite s.host a bs }
/-- Write bytes to host memory or to HBM. -/
def poke (host : Bool) (s : State) (a : Nat) (bs : List Byte) : State :=
  if host then pokeHost s a bs else pokeHbm s a bs
/-- Read bytes of host memory or of HBM. -/
def peek (host : Bool) (s : State) (a n : Nat) : List Byte :=
  memRead (if host then s.host else s.hbm) a n
/-- The little-endian word of n bytes at an HBM address. -/
def peekWord (s : State) (a n : Nat) : Nat := leNat (memRead s.hbm a n)

/-! ### Places that the spec leaves to the block -/

/-- The address of a structure that the spec does not place (log entry 16), by kind. -/
def place (t kind index : Nat) : Nat := (Config.internalAddr t kind index).toNat
/-- Kinds of structures whose words an error record names. -/
def kindLine : Nat := 1
def kindPeer : Nat := 2
def kindRoute : Nat := 3
def kindEntry : Nat := 4
def kindScale : Nat := 5
def kindHistory : Nat := 6
def kindBank : Nat := 7
def kindVersion : Nat := 8
def kindBooking : Nat := 9
def kindGrant : Nat := 10
def kindShaper : Nat := 11
def kindRing : Nat := 12
def kindHeader : Nat := 13
def kindStep : Nat := 14
/-- Areas at the understudy that the spec does not place: tensor records by step and tensor, digest records by slot,
the verdict word, state spans, copied tensors, stamp words, the word that ends a copy. -/
def kindMirrorRecord : Nat := 15
def kindDigest : Nat := 16
def kindVerdict : Nat := 17
def kindMirrorState : Nat := 18
def kindMirrorArea : Nat := 19
def kindStamp : Nat := 20
def kindResyncEnd : Nat := 21
/-- A word of the vector store (R369). -/
def kindVector : Nat := 22
/-- The words of a tensor's optimiser record; with index 2^20 the gradient scale's (R268). -/
def kindOpt : Nat := 23
/-- A port's relay overflow area (R236). -/
def kindOverflow : Nat := 24

/-! ### Troupes, ports, slices -/

/-- The FP32 of a parameter word: its value half, or a free value while the word is broken (R268, R351, log entry 97). -/
def paramOf (p : Pair F32) : F32 := if whole p then p.val else Config.brokenParam p.val p.flaw
/-- The FP32 parameters of an optimiser record and the gradient scale (R268). -/
def OptRec.eta (o : OptRec) : F32 := paramOf o.etaWord
def OptRec.lam (o : OptRec) : F32 := paramOf o.lamWord
def OptRec.beta1 (o : OptRec) : F32 := paramOf o.beta1Word
def OptRec.beta2 (o : OptRec) : F32 := paramOf o.beta2Word
def OptRec.eps (o : OptRec) : F32 := paramOf o.epsWord
def OptRec.d (o : OptRec) : F32 := paramOf o.dWord
def OptRec.clip (o : OptRec) : F32 := paramOf o.clipWord
def Troupe.gamma (tr : Troupe) : F32 := paramOf tr.gammaWord
/-- Whether every word of an optimiser record is whole. -/
def OptRec.isWhole (o : OptRec) : Bool :=
  [o.etaWord, o.lamWord, o.beta1Word, o.beta2Word, o.epsWord, o.dWord, o.clipWord].all whole

/-- A troupe that does not exist (R315). -/
def absentTroupe : Troupe := { life := .absent, prior := .absent }

/-- Troupe t. -/
def troupe (s : State) (t : Nat) : Troupe := tabGetD s.troupes t absentTroupe
/-- Put troupe t. -/
def setTroupe (s : State) (t : Nat) (tr : Troupe) : State := { s with troupes := tabPut s.troupes t tr }
/-- Change troupe t where it exists. -/
def modTroupe (s : State) (t : Nat) (f : Troupe → Troupe) : State := { s with troupes := tabMod s.troupes t f }
/-- Change the house. -/
def modHouse (s : State) (f : House → House) : State := { s with house := f s.house }
/-- Port p. -/
def portOf (s : State) (p : Nat) : Port := tabGetD s.ports p {}
/-- Change port p. -/
def modPort (s : State) (p : Nat) (f : Port → Port) : State :=
  { s with ports := tabPut s.ports p (f (portOf s p)) }
/-- Slice record r. -/
def sliceOf (s : State) (r : Nat) : Slice := tabGetD s.slices r {}
/-- Change slice record r. -/
def modSlice (s : State) (r : Nat) (f : Slice → Slice) : State :=
  { s with slices := tabPut s.slices r (f (sliceOf s r)) }

/-- The troupe numbers that exist, ascending. -/
def troupeNumbers (s : State) : List Nat := s.troupes.map (·.1)

/-- The record of a step of a troupe. -/
def stepOf (tr : Troupe) (n : Nat) : Option StepRec := tabGet tr.steps n
/-- The record of the last opened step. -/
def lastStep (tr : Troupe) : Option StepRec := stepOf tr tr.opened
/-- Whether a step is OPEN, CALLED or EXCHANGED (R317 "in flight"). -/
def inFlight (r : StepRec) : Bool :=
  match r.state.val with
  | .opened | .called | .exchanged => true
  | _ => false
/-- The step in flight, if any. -/
def flight (tr : Troupe) : Option StepRec := (lastStep tr).filter inFlight
/-- The step that is OPEN or CALLED, if any. -/
def openCalled (tr : Troupe) : Option StepRec :=
  (lastStep tr).filter fun r => r.state.val == .opened || r.state.val == .called
/-- The quiet condition of R64: every step of the troupe is RETIRED. -/
def quiet (tr : Troupe) : Bool := tr.steps.all fun e => e.2.state.val == .retired
/-- Change the record of a step. -/
def modStep (tr : Troupe) (n : Nat) (f : StepRec → StepRec) : Troupe := { tr with steps := tabMod tr.steps n f }
/-- Change the record of the last opened step. -/
def modLast (tr : Troupe) (f : StepRec → StepRec) : Troupe := modStep tr tr.opened f
/-- A step is decided on a chip when it enters EXCHANGED there (R253): the round step is the next one. -/
def roundStep (tr : Troupe) : Nat := tr.decided + 1
/-- Whether the troupe runs in scripted mode (R315). -/
def scripted (s : State) (tr : Troupe) : Bool := ! tr.adlib && ! s.house.adlib

/-! ### Gauges (R378): 64-bit, saturating -/

/-- Add to a gauge of a table. -/
def gaugePlus (g : Tab Nat) (off n : Nat) : Tab Nat :=
  if n = 0 then g else tabPut g off (capAt (2 ^ 64 - 1) (tabGetD g off 0 + n))
/-- Keep the largest value in a gauge. -/
def gaugeMax (g : Tab Nat) (off n : Nat) : Tab Nat :=
  if n ≤ tabGetD g off 0 then g else tabPut g off (capAt (2 ^ 64 - 1) n)
/-- Add to a gauge of troupe t's page (Table 14.3). -/
def gauge (s : State) (t off n : Nat) : State :=
  modTroupe s t fun tr => { tr with gauges := gaugePlus tr.gauges off n }
/-- Add to a chip-wide gauge (Table 14.4). -/
def houseGauge (s : State) (off n : Nat) : State :=
  modHouse s fun h => { h with gauges := gaugePlus h.gauges off n }
/-- Add to counter k of port p (Table 14.4). -/
def portGauge (s : State) (p k n : Nat) : State := houseGauge s (0x2000 + 0x100 * p + 8 * k) n
/-- Add to a gauge of port p in troupe t's page (Table 14.3, group 2). -/
def troupePortGauge (s : State) (t p off n : Nat) : State := gauge s t (0x200 + 64 * p + off) n

/-! ### Status codes (R367) and subsystem ids (Table 0.3) -/

/-- The status code of Table 13.14. -/
def statusCode : Status → Nat
  | .done => 0 | .refusedPc => 1 | .notOwner => 2 | .noTarget => 3 | .badArg => 4 | .overbooked => 5
  | .ringFull => 6 | .state => 7 | .integrity => 8 | .saturated => 9 | .nonfinite => 10 | .timeout => 11
  | .fenced => 12 | .closed => 13 | .diverged => 14 | .unsupported => 15

/-- The id of Table 0.3. -/
def subsystemId : Subsystem → Nat
  | .prompter => 1 | .inlet => 2 | .sieve => 3 | .scaleDesk => 4 | .pits => 5 | .coachbuilder => 6 | .tally => 7
  | .lines => 8 | .portComplex => 9 | .stageManager => 10 | .callDesk => 11 | .updateSequencer => 12 | .ledger => 13
  | .rehearsal => 14

/-! ### The error log (R357–R361) -/

/-- A record about to be written: `who` names its troupe, none makes it chip-wide. -/
structure Rec where
  sub     : Subsystem
  status  : Status
  who     : Option Nat := none
  address : Nat := 0
  detail  : Nat := 0
  /-- the step that the record names; without one, the troupe's last opened step -/
  step    : Option Nat := none
  deriving DecidableEq, Repr

/-- The stored record of index i. -/
def Rec.stored (r : Rec) (s : State) : ErrRec :=
  { sub := r.sub, status := r.status, troupe := r.who.getD 0, chipWide := r.who.isNone,
    index := s.log.write, address := BitVec.ofNat 64 r.address, tick := s.house.tick,
    step := r.step.getD ((r.who.map fun t => (troupe s t).opened).getD 0), detail := BitVec.ofNat 64 r.detail }

/-- ERR_READ as the engine takes it: ERR_WRITE − 256 while its stored pair is broken (Table 13.3). -/
def errReadVal (l : ErrorLog) : BitVec 32 :=
  if pcWhole l.read then BitVec.ofNat 32 (pcVal l.read) else l.write - 256

/-- Whether the log still takes a record in this tick (R360). -/
def logOpen (s : State) : Bool := s.log.inTick < 256

/-- Count a record that is not written (R360, R347). -/
def suppress (s : State) : State :=
  { s with log := { s.log with suppressed := capAt 0xFFFFFFFF (s.log.suppressed + 1) } }

/-- The log after a record is written (R357). A broken ERR_READ stays as it is: only a write of the house repairs it
(Table 13.3). -/
def ErrorLog.push (l : ErrorLog) (e : ErrRec) : ErrorLog :=
  let full := l.write - errReadVal l == 256
  { l with
    records := tabPut l.records (l.write.toNat % 256) e
    write := l.write + 1
    read := if full && pcWhole l.read then pcWord (errReadVal l + 1).toNat else l.read
    overwritten := if full then capAt 0xFFFFFFFF (l.overwritten + 1) else l.overwritten
    inTick := l.inTick + 1 }

/-- The copy of a record in the troupe page it names (R361). -/
def copyRecord (r : Rec) (e : ErrRec) (s : State) : State :=
  match r.who with
  | none => s
  | some t => modTroupe s t fun tr =>
      { tr with lastError := some e, errors := capAt 0xFFFFFFFF (tr.errors + 1) }

/-- Write a record, or count it as suppressed. -/
def writeRecord (r : Rec) (s : State) : State :=
  if logOpen s then
    let e := r.stored s
    copyRecord r e { s with log := s.log.push e }
  else suppress s

/-- The cue that ERR_CUE names, if it is whole and enabled (Table 13.3, Table 13.5). -/
def errCue (s : State) : Option Nat :=
  let v := pcVal s.log.cue
  if pcWhole s.log.cue && bit v 15 then some (v % 1024) else none

/-! ### The step-ledger record (Table 11.10) -/

/-- One sieve entry of an extension: 32 B (R106, log entry 33). -/
def sieveEntryBytes (e : SieveEntry) : List Byte :=
  leBytes 1 (bitOf e.choice.sparse) ++ leBytes 1 e.choice.enc ++ leBytes 2 (e.choice.bin.getD 0) ++ leBytes 4 e.bucket ++
    leBytes 8 e.choice.t ++ leBytes 8 e.selected ++ leBytes 8 e.kappa

/-- The extension of a record: completion order, sieve entries, and whether the step is uncaptured (log entry 33). -/
def extensionBytes (buckets : Nat) (r : StepRec) : List Byte :=
  (r.order.flatMap fun b => leBytes 2 b) ++ List.replicate (2 * (buckets - r.order.length)) 0 ++
    r.sieve.flatMap sieveEntryBytes

/-- Whether a step is past its outcome and UPDATED. -/
def pastUpdated (r : StepRec) : Bool :=
  match r.state.val with
  | .updated | .checked | .retired => true
  | _ => false
/-- Whether a step has been CHECKED. -/
def pastChecked (r : StepRec) : Bool :=
  match r.state.val with
  | .checked | .retired => true
  | _ => false

/-- The 128-B record as far as it is filled (R312). -/
def ledgerBytes (t : Nat) (r : StepRec) : List Byte :=
  let up := pastUpdated r
  let skipped := r.outcome == some false
  leBytes 8 (r.num % 2 ^ 48 + t % 64 * 2 ^ 48 + bitOf (up && skipped) * 2 ^ 54 + bitOf (up && r.adopted) * 2 ^ 55 +
      bitOf r.restarted * 2 ^ 57 + bitOf (! r.adlib) * 2 ^ 58 + bitOf (pastChecked r) * 2 ^ 59 + bitOf r.unmirrored * 2 ^ 60) ++
    leBytes 8 (if up then r.commitTick else 0) ++ leBytes 8 r.seed.toNat ++
    leBytes 2 (if up then (r.causes.map fun i => 2 ^ i).sum else 0) ++ leBytes 1 (r.m - 1) ++
    leBytes 1 (if r.calledTick.isSome then r.livePits else 0) ++ leBytes 2 0x0401 ++ leBytes 2 0 ++
    leBytes 8 (if up then r.epoch % 2 ^ 48 else 0) ++ leBytes 4 r.sealNo ++ leBytes 4 r.generation ++
    ((List.range 5).flatMap fun i => leBytes 8 (if up then (r.digests.getD i 0).toNat else 0)) ++
    leBytes 8 (r.calledTick.getD 0) ++ leBytes 4 r.extAt ++ leBytes 4 r.extLen ++ List.replicate 24 0

/-- Write a step's ledger record and extension as they stand, unless the ring has passed them. -/
def ledgerStore (t num : Nat) (s : State) : State :=
  let tr := troupe s t
  match tr.ledger, stepOf tr num with
  | some p, some r =>
    match r.ledgerAt with
    | none => s
    | some i =>
      if i + p.records < tr.ledgerCount + 1 then s
      else
        let s := poke p.host s (p.base.toNat + 128 * (i % max 1 p.records)) (ledgerBytes t r)
        if r.extLen = 0 then s
        else poke p.host s (p.extBase.toNat + r.extAt)
          (((extensionBytes tr.graph.length r ++ List.replicate r.extLen 0).take (r.extLen - 1) ++
            [BitVec.ofNat 8 (bitOf r.uncaptured)]).take (p.extLen.toNat - r.extAt))
  | _, _ => s

/-! ### The curtain (R262, R263) -/

/-- The number of live pits: DARK_MAP.PITS (R376, R192). -/
def pitDark (s : State) (p : Nat) : Bool := ((tabGet s.house.units p).map (·.dark)).getD false
def livePits (s : State) : Nat := ((List.range s.house.pits).filter fun p => ! pitDark s p).length

/-- A phase of the step starts (R381): its first event. -/
def Phase.start (p : Phase) (s : State) : Phase :=
  if p.startCk.isSome then p
  else { p with tick := s.house.tick, off := s.house.ck - s.house.sceneStart, startCk := some s.house.ck }
/-- A phase's latest event so far (R381). -/
def Phase.stop (p : Phase) (s : State) : Phase :=
  match p.startCk with
  | none => p
  | some c => { p with dur := capAt 0xFFFFFFFE ((s.house.ck - c) / 16), ended := true }

/-- Change phase i of a step. -/
def StepRec.phase (r : StepRec) (i : Nat) (f : Phase → Phase) : StepRec :=
  { r with phases := ((r.phases ++ List.replicate (9 - r.phases.length) ({} : Phase)).modify i f) }

/-- Whether a row of Table 10.4 is a new cause of a step's curtain; a fence and a reset count under no row (log entry
21). -/
def freshCause (row : Option Nat) (r : StepRec) : Bool := row.any fun i => ! r.causes.contains i
/-- Count a new cause in its gauge (R262). -/
def countCause (row : Option Nat) (fresh : Bool) (t : Nat) (s : State) : State :=
  if fresh then gauge s t (0x80 + 8 * row.getD 0) 1 else s

/-- A step under the curtain: one that is OPEN enters CALLED (R263). -/
def StepRec.fall (row : Option Nat) (fresh : Bool) (s : State) (r : StepRec) : StepRec :=
  { r with
    curtain := true
    curtainCk := r.curtainCk.or (some s.house.ck)
    causes := if fresh then row.toList ++ r.causes else r.causes
    calledTick := r.calledTick.or (some s.house.tick)
    livePits := if r.state.val == .opened then Machine.livePits s else r.livePits
    state := if r.state.val == .opened then { r.state with val := .called } else r.state }

/-- A bucket whose scale call is empty, as the curtain fell on an OPEN step (R263). -/
def BWork.callEmpty (w : BWork) : BWork := { w with called := true }

/-- A troupe whose OPEN or CALLED step stands under the curtain. -/
def Troupe.fall (row : Option Nat) (fresh opened : Bool) (s : State) (tr : Troupe) : Troupe :=
  modLast { tr with work := if opened then tr.work.map fun e => (e.1, e.2.callEmpty) else tr.work } (·.fall row fresh s)

/-- Raise the curtain for the troupe's OPEN or CALLED step. `row` is the row of Table 10.4 that caused it. A step that is
OPEN enters CALLED with empty scale calls (R263), and its ledger record takes its second stage (R312). -/
def curtain (row : Option Nat) (t : Nat) (s : State) : State :=
  match openCalled (troupe s t) with
  | none => s
  | some r =>
    let fresh := freshCause row r
    let opened := r.state.val == .opened
    let s := countCause row fresh t s
    let s := modTroupe s t (·.fall row fresh opened s)
    if opened then ledgerStore t r.num s else s

/-! ### Completions, signals, records and fences, as one worklist (R322, R329–R332, R361) -/

/-- What the call desk and Nimlia still have to do. -/
inductive Act where
  /-- complete a command with a status and results at offsets of the results area (R322) -/
  | complete (issuer slot : Nat) (st : Status) (results : List (Nat × List Byte))
  /-- write bytes to HBM: a notify address (R330) or a completion record (R205) -/
  | store (a : Nat) (bs : List Byte)
  /-- add 1 to a cue of a troupe (R329) -/
  | signal (t c : Nat)
  /-- write a record -/
  | record (r : Rec)
  /-- write a record and fence the troupe it names, raising the curtain under a row of Table 10.4 -/
  | fault (r : Rec) (row : Option Nat)
  /-- fence a troupe: status and index of the record (R332) -/
  | fence (t : Nat) (st : Status) (index : BitVec 32) (row : Option Nat)
  deriving DecidableEq, Repr

/-- The byte a slot's word of 32 bits and its complement stand in (Table 12.3). -/
def completionBytes (st : Status) (complete deferred : Bool) (tag : Nat) : List Byte :=
  leBytes 8 (pcWord (statusCode st + bitOf complete * 2 ^ 8 + bitOf deferred * 2 ^ 9 + tag * 2 ^ 10)).toNat

/-- Write bytes into a slot of a call board. -/
def boardWrite (s : State) (t slot off : Nat) (bs : List Byte) : State :=
  modTroupe s t fun tr => { tr with board := memWrite tr.board (256 * slot + off) bs }

/-- The tag of a copied command: bits [31:22] of the post word. -/
def imageTag (image : List Byte) : Nat := field image 0 4 / 2 ^ 22
/-- The cue to signal at completion, if enabled (Table 12.3). -/
def imageCue (image : List Byte) : Option Nat :=
  let w := field image 16 2
  if bit w 15 then some (w % 1024) else none

/-- Nimlia's completion of a command: results, then the completion word; then the cue once (R322). -/
def completeSlot (issuer slot : Nat) (st : Status) (results : List (Nat × List Byte)) (s : State) :
    State × List Act :=
  match tabGet (troupe s issuer).posted slot with
  | none => (s, [])
  | some q =>
    let s := results.foldl (fun s e => boardWrite s issuer slot (192 + e.1) e.2) s
    let s := boardWrite s issuer slot 8 (completionBytes st true false (imageTag q.image))
    let s := modTroupe s issuer fun tr => { tr with posted := tabDel tr.posted slot }
    let s := { s with deferred := s.deferred.filter fun d => ! (d.issuer == issuer && d.slot == slot) }
    (s, (imageCue q.image).toList.map fun c => .signal issuer c)

/-- Whether both pairs of a cue entry are whole (R328). -/
def Cue.isWhole (c : Cue) : Bool := c.flawLo == 0 && c.flawHi == 0

/-- The address of a cue entry (R328). -/
def cueAddress (t c : Nat) (cue : Cue) : Nat :=
  (Config.cueTable t).toNat + 16 * c + (if cue.flawLo == 0 then (if cue.flawHi == 0 then 0 else 8) else 0)

/-- Insert a wait after those of the same or a smaller threshold. -/
def insertWait (w : Wait) : List Wait → List Wait
  | [] => [w]
  | v :: r => if w.threshold < v.threshold then w :: v :: r else v :: insertWait w r

/-- Waits by ascending threshold, equal ones in order of service (R330). -/
def sortWaits (ws : List Wait) : List Wait := ws.foldl (fun a w => insertWait w a) []

/-- The end of a wait: the counter is written at a non-zero notify address, then the command completes. -/
def endWait (st : Status) (value : BitVec 64) (w : Wait) : List Act :=
  (if w.notify = 0 then [] else [.store w.notify.toNat (leBytes 8 value.toNat)]) ++
    [.complete w.issuer w.slot st []]

/-- The record of cue misuse (R331). -/
def cueMisuse (t c : Nat) (cue : Cue) (st : Status) : Rec :=
  { sub := .callDesk, status := st, who := some t, address := cueAddress t c cue }

/-- Add to a cue counter (R329): the counter saturates at 2^64 − 1, and the waits that it reaches are released. The
result says whether the add was misuse. -/
def cueAdd (t c n : Nat) (s : State) : State × List Act × Option Status :=
  match tabGet (troupe s t).cues c with
  | none => (s, [], none)
  | some cue =>
    if ! cue.isWhole then (s, [], some .integrity)
    else
      let sum := cue.value.toNat + n
      let v := BitVec.ofNat 64 (capAt (2 ^ 64 - 1) sum)
      let due := sortWaits (cue.waits.filter fun w => decide (w.threshold ≤ v))
      let rest := cue.waits.filter fun w => ! decide (w.threshold ≤ v)
      (modTroupe s t fun tr => { tr with cues := tabPut tr.cues c { cue with value := v, waits := rest } },
       due.flatMap (endWait .done v),
       if sum > 2 ^ 64 - 1 then some .saturated else none)

/-- A deferred command that a fence of its target ends: every one but a reset or deletion of the troupe and the HOUSE_
commands (R332, R315). -/
def Awaits.fenceEnds : Awaits → Bool
  | .reset | .delete | .portReset _ | .pitReset _ => false
  | _ => true

/-- The fence of a troupe (R332): the state, the curtain, its deferred commands. A BILL_SEAL or a SPARE_PROMOTE that it
ends no longer holds anything (R324). -/
def fenceTroupe (t : Nat) (st : Status) (index : BitVec 32) (row : Option Nat) (s : State) : State × List Act :=
  match (troupe s t).life with
  | .active | .pending | .intermission =>
    let s := curtain row t s
    let s := modTroupe s t fun tr =>
      { tr with life := .fenced, prior := tr.life, fence := some st, fenceIndex := index, sealing := false, promotion := none
                cues := tr.cues.map fun e => (e.1, { e.2 with waits := [] }) }
    (s, (s.deferred.filter fun d => d.target == t && d.awaits.fenceEnds).map fun d =>
          .complete d.issuer d.slot .fenced [])
  | _ => (s, [])

/-- One action: the new state and what it brings with it. -/
def act : Act → State → State × List Act
  | .complete i sl st res, s => completeSlot i sl st res s
  | .store a bs, s => (pokeHbm s a bs, [])
  | .signal t c, s =>
    let r := cueAdd t c 1 s
    (r.1, r.2.1 ++ (match r.2.2 with
      | none => []
      | some st => [.fault (cueMisuse t c (tabGetD (troupe s t).cues c { value := 0 }) st) none]))
  | .record r, s =>
    (writeRecord r s, if logOpen s then (errCue s).toList.map fun c => .signal 0 c else [])
  | .fault r row, s =>
    (writeRecord r s,
     (if logOpen s then (errCue s).toList.map fun c => .signal 0 c else []) ++
       [.fence (r.who.getD 0) r.status s.log.write row])
  | .fence t st ix row, s => fenceTroupe t st ix row s

/-- Carry out a worklist, what an action brings with it first. -/
def runActs : Nat → List Act → State → State
  | 0, _, s => s
  | _ + 1, [], s => s
  | n + 1, a :: r, s => runActs n ((act a s).2 ++ r) (act a s).1

/-- More actions than any worklist can bring: every completion frees one of 2,048 slots, every fence one of 64 troupes,
and the log takes 256 records in a tick. -/
def actFuel : Nat := 16384

/-- Carry out a list of actions. -/
def run (as : List Act) (s : State) : State := runActs (actFuel + as.length) as s

/-- Write one record. -/
def record (r : Rec) (s : State) : State := run [.record r] s
/-- Write one record and fence its troupe. -/
def fault (r : Rec) (row : Option Nat) (s : State) : State := run [.fault r row] s
/-- Signal a cue. -/
def signal (t c : Nat) (s : State) : State := run [.signal t c] s
/-- Signal the cue of a cue field (bits [9:0] cue, bit 15 enable). -/
def signalField (t : Nat) (w : BitVec 16) (s : State) : State :=
  if w.getLsbD 15 then signal t (w.toNat % 1024) s else s
/-- Whether a cue exists. -/
def cueExists (tr : Troupe) (c : Nat) : Bool := (tabGet tr.cues c).isSome

/-- Complete the deferred commands of a kind whose target is t. -/
def completeDeferred (t : Nat) (which : Awaits → Bool) (st : Status) (results : List (Nat × List Byte))
    (s : State) : State :=
  run ((s.deferred.filter fun d => d.target == t && which d.awaits).map fun d =>
        .complete d.issuer d.slot st results) s

/-! ### Time -/

/-- ck that a running pause of a priority still lasts. -/
def pauseLeft (p : Port) (now prio : Nat) : Nat :=
  match tabGet p.pauses prio with
  | none => 0
  | some e => e.1 - now

/-- Of the next d ck, those in which a priority is paused: from the frame boundary at which the pause applies (Table 6.17)
until it expires. -/
def pausedFor (p : Port) (now d prio : Nat) : Nat :=
  match tabGet p.pauses prio with
  | none => 0
  | some e => min (now + d) e.1 - max now e.2

/-- The carriages that a troupe is to resend (R215). -/
def backFrames (tr : Troupe) : List OutFrame :=
  tr.lines.flatMap fun e => e.2.peers.flatMap fun p =>
    p.out.filterMap fun o => if p.goBack.contains o.1.car.seq then some o.1 else none

/-- The priority code point of a class (R152). -/
def Cls.pcp : Cls → Nat
  | .g => 3 | .f => 4 | .d => 2

/-- ck as whole ns: 5 ns are 9 ck. -/
def ckNs (ck : Nat) : Nat := ck * 5 / 9

/-- Whether a port's link is dark or relighting (R251). -/
def Port.unlit (p : Port) : Bool := p.link == .dark || p.link == .relighting

/-- R50 over an interval of d ck: a booking with a frame ready, new or to be resent, whose priority is paused counts the
paused time; so does one whose port is dark or relighting (R251). -/
def accountPaused (d : Nat) (s : State) (tr : Troupe) : Troupe :=
  { tr with bookings := tr.bookings.map fun e =>
      let b := e.2
      let port := portOf s b.port
      let draws (f : OutFrame) : Bool := f.port == some b.port && f.drawn == some (.booking e.1)
      let longest := (tr.sheet.filter draws ++ (backFrames tr).filter draws).foldl
        (fun a f => max a (if port.unlit then d else pausedFor port s.house.ck d f.car.cls.pcp)) 0
      (e.1, { b with paused := b.paused + longest }) }

/-- Let d ck pass: the free-running counter and the paused time of R50. -/
def passCk (d : Nat) (s : State) : State :=
  if d = 0 then s
  else
    let paused := (s.ports.filter fun e => ! e.2.pauses.isEmpty).foldl (fun s e =>
      let n := e.2.pauses.foldl (fun a q => max a (min d (q.2.1 - s.house.ck))) 0
      portGauge s e.1 28 (ckNs (s.house.ck + n) - ckNs s.house.ck)) s
    let troupes := if s.ports.all fun e => e.2.pauses.isEmpty && ! e.2.unlit then s.troupes
      else s.troupes.map fun e => (e.1, accountPaused d s e.2)
    { paused with troupes := troupes, house := { paused.house with ck := s.house.ck + d } }

end Sys2Proof.Machine
end

