-- ==== Sys2Proof/Machine/Operands.lean ====
section
/-! DEFINITION. The operand forms of the call board: opcodes and argument bytes of Table 12.7, the slot image of
Table 12.3, the checks of R321 and the service of one command (R318–R324). -/

namespace Sys2Proof.Machine

open Sys2Proof

/-- The opcode of a call-board command (Table 12.7); 0 for a row that no slot carries. -/
def opcode : Instr → Nat
  | .houseTickSet _ _ _ => 0x0101
  | .houseTickTree _ _ => 0x0102
  | .housePodSet _ _ _ _ _ _ => 0x0103
  | .houseWingSet _ _ _ => 0x0104
  | .housePortSet _ _ _ _ _ => 0x0105
  | .houseShaperSet _ _ _ _ => 0x0106
  | .houseGrant _ _ _ => 0x0107
  | .housePitShare _ _ => 0x0108
  | .houseSliceSet _ _ _ _ _ _ _ _ => 0x0109
  | .houseRouteFill _ _ => 0x010A
  | .houseRouteSet _ _ _ _ => 0x010B
  | .houseRouteCommit _ _ _ _ _ _ => 0x010C
  | .houseBind _ _ _ => 0x010D
  | .houseDispatch _ _ => 0x010E
  | .housePortReset _ _ => 0x010F
  | .housePitReset _ _ => 0x0110
  | .houseReset _ => 0x0111
  | .troupeCreate _ _ _ _ => 0x0201
  | .troupeDelete _ => 0x0202
  | .troupeMode _ _ => 0x0203
  | .troupeClass _ _ => 0x0204
  | .troupeCarousel _ _ _ _ _ _ _ => 0x0205
  | .troupeIntermission _ => 0x0206
  | .troupeResume _ => 0x0207
  | .troupeReset _ => 0x0208
  | .troupeState _ => 0x0209
  | .billAdd _ _ _ => 0x0301
  | .billSet _ _ _ => 0x0302
  | .billRemove _ _ _ => 0x0303
  | .billRead _ _ => 0x0304
  | .billBucket _ _ _ _ _ _ => 0x0305
  | .billArena _ _ _ _ => 0x0306
  | .billSeal _ => 0x0307
  | .billSieve _ _ _ _ _ => 0x0308
  | .billScale _ _ _ _ _ _ => 0x0309
  | .bookSet _ _ _ _ _ _ _ => 0x0401
  | .bookClear _ _ => 0x0402
  | .bookRead _ _ => 0x0403
  | .lineOpen _ _ _ _ _ _ _ _ _ _ _ => 0x0501
  | .lineSet _ _ _ _ _ _ _ _ _ _ => 0x0502
  | .lineReset _ _ => 0x0503
  | .lineClose _ _ => 0x0504
  | .lineState _ _ _ => 0x0505
  | .lineArea _ _ => 0x0506
  | .ringCreate _ _ _ _ _ _ _ _ _ => 0x0601
  | .ringDelete _ _ => 0x0602
  | .ringState _ _ => 0x0603
  | .cueCreate _ _ _ => 0x0701
  | .cueDelete _ _ => 0x0702
  | .cueAdd _ _ _ => 0x0703
  | .cueWait _ _ _ _ _ => 0x0704
  | .cueRead _ _ => 0x0705
  | .stepOpen _ _ _ => 0x0801
  | .stepAbort _ => 0x0802
  | .stepSeed _ _ => 0x0803
  | .stepLoss _ _ => 0x0804
  | .stepState _ => 0x0805
  | .stepDeadline _ _ => 0x0806
  | .stepLedger _ _ _ _ _ _ _ _ => 0x0807
  | .optSet _ _ _ _ _ _ _ _ _ _ _ _ => 0x0901
  | .optTroupe _ _ _ _ => 0x0902
  | .optHost _ _ _ => 0x0903
  | .optSpike _ _ _ _ _ _ => 0x0904
  | .optExport _ _ _ _ => 0x0905
  | .optImport _ _ _ _ => 0x0906
  | .sparePair _ _ _ _ _ => 0x0A01
  | .spareProp _ _ _ => 0x0A02
  | .spareResync _ => 0x0A03
  | .spareStandin _ _ => 0x0A04
  | .spareEncore _ => 0x0A05
  | .sparePromote _ _ _ _ _ => 0x0A06
  | .spareExport _ _ => 0x0A07
  | .testSet _ _ _ => 0x0B01
  | .testRun _ _ _ => 0x0B02
  | .testDarken _ _ _ => 0x0B03
  | .testReturn _ _ _ => 0x0B04
  | .gaugeSnap _ _ => 0x0C01
  | .gaugeClear _ _ => 0x0C02
  | .gaugeTimers _ _ _ => 0x0C03
  | .spillSet _ _ _ _ _ => 0x0D01
  | .spillDrain _ => 0x0D02
  | _ => 0

/-- The opcodes that are defined (R340). -/
def opcodes : List Nat :=
  [0x0101, 0x0102, 0x0103, 0x0104, 0x0105, 0x0106, 0x0107, 0x0108, 0x0109, 0x010A, 0x010B, 0x010C,
   0x010D, 0x010E, 0x010F, 0x0110, 0x0111, 0x0201, 0x0202, 0x0203, 0x0204, 0x0205, 0x0206, 0x0207,
   0x0208, 0x0209, 0x0301, 0x0302, 0x0303, 0x0304, 0x0305, 0x0306, 0x0307, 0x0308, 0x0309, 0x0401,
   0x0402, 0x0403, 0x0501, 0x0502, 0x0503, 0x0504, 0x0505, 0x0506, 0x0601, 0x0602, 0x0603, 0x0701,
   0x0702, 0x0703, 0x0704, 0x0705, 0x0801, 0x0802, 0x0803, 0x0804, 0x0805, 0x0806, 0x0807, 0x0901,
   0x0902, 0x0903, 0x0904, 0x0905, 0x0906, 0x0A01, 0x0A02, 0x0A03, 0x0A04, 0x0A05, 0x0A06, 0x0A07,
   0x0B01, 0x0B02, 0x0B03, 0x0B04, 0x0C01, 0x0C02, 0x0C03, 0x0D01, 0x0D02]

/-- The arguments of a command: byte offset in the argument area, bytes, value (Table 12.7). -/
def arguments : Instr → List (Nat × Nat × Nat)
  | .houseTickSet _ period effective => [(0, 2, period.toNat), (8, 8, effective.toNat)]
  | .houseTickTree _ parent => [(0, 1, parent.toNat)]
  | .housePodSet _ pod lx ly lz vid =>
    [(0, 2, pod.toNat), (2, 1, lx.toNat), (3, 1, ly.toNat), (4, 1, lz.toNat), (6, 2, vid.toNat)]
  | .houseWingSet _ port partner => [(0, 1, port.toNat), (8, 8, partner.toNat)]
  | .housePortSet _ port ceiling transit dimDelay =>
    [(0, 1, port.toNat), (1, 1, ceiling.toNat), (4, 4, transit.toNat), (8, 2, dimDelay.toNat)]
  | .houseShaperSet _ port rate cap => [(0, 1, port.toNat), (4, 4, rate.toNat), (8, 4, cap.toNat)]
  | .houseGrant _ port grant => [(0, 1, port.toNat), (4, 4, grant.toNat)]
  | .housePitShare _ percent => [(0, 1, percent.toNat)]
  | .houseSliceSet _ record x0 y0 z0 ex ey ez =>
    [(0, 1, record.toNat), (1, 1, x0.toNat), (2, 1, y0.toNat), (3, 1, z0.toNat),
     (4, 1, ex.toNat), (5, 1, ey.toNat), (6, 1, ez.toNat)]
  | .houseRouteFill _ record => [(0, 1, record.toNat)]
  | .houseRouteSet _ record count items => [(0, 1, record.toNat), (4, 4, count.toNat), (8, 8, items.toNat)]
  | .houseRouteCommit _ record epoch margin mask effective =>
    [(0, 1, record.toNat), (2, 2, epoch.toNat), (4, 1, margin.toNat), (5, 1, mask.toNat), (8, 8, effective.toNat)]
  | .houseBind _ first count => [(0, 2, first.toNat), (2, 2, count.toNat)]
  | .houseDispatch _ flags => [(0, 1, flags.toNat)]
  | .housePortReset _ port => [(0, 1, port.toNat)]
  | .housePitReset _ pit => [(0, 1, pit.toNat)]
  | .troupeCreate _ flags bases lens =>
    (0, 1, flags.toNat) :: (bases.zipIdx.map fun e => (8 + 16 * e.2, 8, e.1.toNat)) ++
      lens.zipIdx.map fun e => (16 + 16 * e.2, 8, e.1.toNat)
  | .troupeMode _ flags => [(0, 1, flags.toNat)]
  | .troupeClass _ flags => [(0, 1, flags.toNat)]
  | .troupeCarousel _ entry count n own lines members =>
    [(0, 1, entry.toNat), (1, 1, count.toNat), (4, 2, n.toNat), (8, 2, own.toNat), (24, 8, members.toNat)] ++
      lines.zipIdx.map fun e => (12 + 2 * e.2, 2, e.1.toNat)
  | .billAdd _ count entries => [(0, 2, count.toNat), (8, 8, entries.toNat)]
  | .billSet _ count entries => [(0, 2, count.toNat), (8, 8, entries.toNat)]
  | .billRemove _ count ids => [(0, 2, count.toNat), (8, 8, ids.toNat)]
  | .billRead _ tensor => [(0, 4, tensor.toNat)]
  | .billBucket _ bucket cls selection carousel flags =>
    [(0, 2, bucket.toNat), (2, 1, cls.toNat), (3, 1, selection.toNat), (4, 1, carousel.toNat), (5, 1, flags.toNat)]
  | .billArena _ arena slots base => [(0, 1, arena.toNat), (4, 2, slots.toNat), (8, 8, base.toNat)]
  | .billSieve _ bucket density crossover effective =>
    [(0, 2, bucket.toNat), (4, 4, density.toNat), (8, 4, crossover.toNat), (16, 8, effective.toNat)]
  | .billScale _ tensor headroom length returnCount effective =>
    [(0, 4, tensor.toNat), (4, 1, headroom.toNat), (5, 1, length.toNat),
     (6, 2, returnCount.toNat), (8, 8, effective.toNat)]
  | .bookSet _ booking port cls bytes start stop =>
    [(0, 1, booking.toNat), (1, 1, port.toNat), (2, 1, cls.toNat),
     (4, 4, bytes.toNat), (8, 8, start.toNat), (16, 8, stop.toNat)]
  | .bookClear _ booking => [(0, 1, booking.toNat)]
  | .bookRead _ booking => [(0, 1, booking.toNat)]
  | .lineOpen _ line flags n peer remoteBase remoteLen localBase localLen payload share =>
    [(0, 2, line.toNat), (2, 1, flags.toNat), (4, 2, n.toNat), (8, 8, peer.toNat), (16, 8, remoteBase.toNat),
     (24, 8, remoteLen.toNat), (32, 8, localBase.toNat), (40, 8, localLen.toNat), (48, 1, payload.toNat), (49, 1, share.toNat)]
  | .lineSet _ line mask peer remoteBase remoteLen localBase localLen payload share =>
    [(0, 2, line.toNat), (4, 1, mask.toNat), (8, 8, peer.toNat), (16, 8, remoteBase.toNat), (24, 8, remoteLen.toNat),
     (32, 8, localBase.toNat), (40, 8, localLen.toNat), (48, 1, payload.toNat), (49, 1, share.toNat)]
  | .lineReset _ line => [(0, 2, line.toNat)]
  | .lineClose _ line => [(0, 2, line.toNat)]
  | .lineState _ line dest => [(0, 2, line.toNat), (8, 8, dest.toNat)]
  | .lineArea _ mib => [(0, 2, mib.toNat)]
  | .ringCreate _ ring kind depth binding port booking base spaceCue =>
    [(0, 2, ring.toNat), (2, 1, kind.toNat), (3, 1, depth.toNat), (4, 1, binding.toNat),
     (5, 1, port.toNat), (6, 1, booking.toNat), (8, 8, base.toNat), (16, 2, spaceCue.toNat)]
  | .ringDelete _ ring => [(0, 2, ring.toNat)]
  | .ringState _ ring => [(0, 2, ring.toNat)]
  | .cueCreate _ cue initial => [(0, 2, cue.toNat), (8, 8, initial.toNat)]
  | .cueDelete _ cue => [(0, 2, cue.toNat)]
  | .cueAdd _ cue increment => [(0, 2, cue.toNat), (8, 8, increment.toNat)]
  | .cueWait _ cue threshold timeout notify =>
    [(0, 2, cue.toNat), (8, 8, threshold.toNat), (16, 4, timeout.toNat), (24, 8, notify.toNat)]
  | .cueRead _ cue => [(0, 2, cue.toNat)]
  | .stepOpen _ m bookings => [(0, 2, m.toNat), (32, 32, bookings.toNat)]
  | .stepSeed _ seed => [(8, 8, seed.toNat)]
  | .stepLoss _ loss => [(0, 4, loss.toNat)]
  | .stepDeadline _ ticks => [(0, 4, ticks.toNat)]
  | .stepLedger _ flags records base extBase extLen capBase capLen =>
    [(0, 1, flags.toNat), (4, 4, records.toNat), (8, 8, base.toNat), (16, 8, extBase.toNat),
     (24, 8, extLen.toNat), (32, 8, capBase.toNat), (40, 8, capLen.toNat)]
  | .optSet _ tensor rule nesterov eta lam beta1 beta2 eps d clip effective =>
    [(0, 4, tensor.toNat), (4, 1, rule.toNat), (5, 1, nesterov.toNat), (8, 4, eta.toNat), (12, 4, lam.toNat), (16, 4, beta1.toNat),
     (20, 4, beta2.toNat), (24, 4, eps.toNat), (28, 4, d.toNat), (32, 4, clip.toNat), (40, 8, effective.toNat)]
  | .optTroupe _ gamma lag effective => [(0, 4, gamma.toNat), (4, 1, lag.toNat), (8, 8, effective.toNat)]
  | .optHost _ base slotLen => [(8, 8, base.toNat), (16, 8, slotLen.toNat)]
  | .optSpike _ detector armed k ratio warmup =>
    [(0, 1, detector.toNat), (1, 1, armed.toNat), (2, 1, k.toNat), (4, 4, ratio.toNat), (8, 2, warmup.toNat)]
  | .optExport _ count ids dest => [(0, 4, count.toNat), (8, 8, ids.toNat), (16, 8, dest.toNat)]
  | .optImport _ count ids source => [(0, 4, count.toNat), (8, 8, ids.toNat), (16, 8, source.toNat)]
  | .sparePair _ line mode flags owned =>
    [(0, 2, line.toNat), (2, 1, mode.toNat), (3, 1, flags.toNat), (8, 8, owned.toNat)]
  | .spareProp _ k n => [(0, 1, k.toNat), (1, 1, n.toNat)]
  | .spareStandin _ lost => [(8, 8, lost.toNat)]
  | .sparePromote _ lost standin donors donorCount =>
    [(8, 8, lost.toNat), (16, 8, standin.toNat), (24, 8, donors.toNat), (32, 2, donorCount.toNat)]
  | .spareExport _ dest => [(8, 8, dest.toNat)]
  | .testSet _ flags slack => [(0, 1, flags.toNat), (4, 1, slack.toNat)]
  | .testRun _ sub unit => [(0, 1, sub.toNat), (1, 1, unit.toNat)]
  | .testDarken _ sub unit => [(0, 1, sub.toNat), (1, 1, unit.toNat)]
  | .testReturn _ sub unit => [(0, 1, sub.toNat), (1, 1, unit.toNat)]
  | .gaugeSnap _ dest => [(8, 8, dest.toNat)]
  | .gaugeClear _ groups => [(0, 4, groups.toNat)]
  | .gaugeTimers _ step dest => [(0, 8, step.toNat), (8, 8, dest.toNat)]
  | .spillSet _ pitBase pitLen hostBase hostLen =>
    [(8, 8, pitBase.toNat), (16, 8, pitLen.toNat), (24, 8, hostBase.toNat), (32, 8, hostLen.toNat)]
  | _ => []

/-- Where a service row is served. -/
def post : Instr → Option Post
  | .houseTickSet p _ _ => some p
  | .houseTickTree p _ => some p
  | .housePodSet p _ _ _ _ _ => some p
  | .houseWingSet p _ _ => some p
  | .housePortSet p _ _ _ _ => some p
  | .houseShaperSet p _ _ _ => some p
  | .houseGrant p _ _ => some p
  | .housePitShare p _ => some p
  | .houseSliceSet p _ _ _ _ _ _ _ => some p
  | .houseRouteFill p _ => some p
  | .houseRouteSet p _ _ _ => some p
  | .houseRouteCommit p _ _ _ _ _ => some p
  | .houseBind p _ _ => some p
  | .houseDispatch p _ => some p
  | .housePortReset p _ => some p
  | .housePitReset p _ => some p
  | .houseReset p => some p
  | .troupeCreate p _ _ _ => some p
  | .troupeDelete p => some p
  | .troupeMode p _ => some p
  | .troupeClass p _ => some p
  | .troupeCarousel p _ _ _ _ _ _ => some p
  | .troupeIntermission p => some p
  | .troupeResume p => some p
  | .troupeReset p => some p
  | .troupeState p => some p
  | .billAdd p _ _ => some p
  | .billSet p _ _ => some p
  | .billRemove p _ _ => some p
  | .billRead p _ => some p
  | .billBucket p _ _ _ _ _ => some p
  | .billArena p _ _ _ => some p
  | .billSeal p => some p
  | .billSieve p _ _ _ _ => some p
  | .billScale p _ _ _ _ _ => some p
  | .bookSet p _ _ _ _ _ _ => some p
  | .bookClear p _ => some p
  | .bookRead p _ => some p
  | .lineOpen p _ _ _ _ _ _ _ _ _ _ => some p
  | .lineSet p _ _ _ _ _ _ _ _ _ => some p
  | .lineReset p _ => some p
  | .lineClose p _ => some p
  | .lineState p _ _ => some p
  | .lineArea p _ => some p
  | .ringCreate p _ _ _ _ _ _ _ _ => some p
  | .ringDelete p _ => some p
  | .ringState p _ => some p
  | .cueCreate p _ _ => some p
  | .cueDelete p _ => some p
  | .cueAdd p _ _ => some p
  | .cueWait p _ _ _ _ => some p
  | .cueRead p _ => some p
  | .stepOpen p _ _ => some p
  | .stepAbort p => some p
  | .stepSeed p _ => some p
  | .stepLoss p _ => some p
  | .stepState p => some p
  | .stepDeadline p _ => some p
  | .stepLedger p _ _ _ _ _ _ _ => some p
  | .optSet p _ _ _ _ _ _ _ _ _ _ _ => some p
  | .optTroupe p _ _ _ => some p
  | .optHost p _ _ => some p
  | .optSpike p _ _ _ _ _ => some p
  | .optExport p _ _ _ => some p
  | .optImport p _ _ _ => some p
  | .sparePair p _ _ _ _ => some p
  | .spareProp p _ _ => some p
  | .spareResync p => some p
  | .spareStandin p _ => some p
  | .spareEncore p => some p
  | .sparePromote p _ _ _ _ => some p
  | .spareExport p _ => some p
  | .testSet p _ _ => some p
  | .testRun p _ _ => some p
  | .testDarken p _ _ => some p
  | .testReturn p _ _ => some p
  | .gaugeSnap p _ => some p
  | .gaugeClear p _ => some p
  | .gaugeTimers p _ _ => some p
  | .spillSet p _ _ _ _ => some p
  | .spillDrain p => some p
  | _ => none

/-! ### The slot image (Table 12.3) -/

/-- Write a run of bytes over a list of bytes. -/
def overlay (bs : List Byte) (off : Nat) (new : List Byte) : List Byte :=
  bs.take off ++ new ++ bs.drop (off + new.length)

/-- The argument area of 160 bytes that spells a command: its arguments at their offsets, every other byte 0 (R14). -/
def argumentArea (i : Instr) : List Byte :=
  (arguments i).foldl (fun a f => overlay a f.1 (leBytes f.2.1 f.2.2)) (List.replicate 160 0)

/-- Bytes 0–191 of a slot: post word, cue field and arguments (Table 12.3). -/
def slotImage (i : Instr) (target tag cue : Nat) : List Byte :=
  leBytes 8 (pcWord (opcode i + target * 2 ^ 16 + tag * 2 ^ 22)).toNat ++ List.replicate 8 0 ++
    leBytes 2 cue ++ List.replicate 14 0 ++ argumentArea i

/-- Whether a post word's halves complement (R321 check 1). -/
def imageWhole (image : List Byte) : Bool := pcWhole (BitVec.ofNat 64 (field image 0 8))
/-- The opcode of a copied command. -/
def imageOpcode (image : List Byte) : Nat := field image 0 2
/-- The target troupe of a copied command. -/
def imageTarget (image : List Byte) : Nat := bits (field image 0 4) 16 6

/-- Whether a copied command spells a row: its opcode and the value of every argument. -/
def spells (i : Instr) (image : List Byte) : Bool :=
  imageOpcode image == opcode i &&
    (arguments i).all fun f => field image (32 + f.1) f.2.1 == f.2.2 % 256 ^ f.2.1

/-- Whether the reserved bytes of a copied command are 0: the cue field's reserved bits, bytes 18–23 and every
argument byte that the command does not name (R14, R321 check 5). -/
def reservedClear (i : Instr) (image : List Byte) : Bool :=
  bits (field image 16 2) 10 5 == 0 && field image 18 6 == 0 && slice image 32 160 == argumentArea i

/-! ### Who is served next (R323) -/

/-- Commands arrived and not served: (arrival, issuer, slot). -/
def waiting (s : State) : List (Nat × Nat × Nat) :=
  s.troupes.flatMap fun e => (e.2.posted.filter fun q => ! q.2.served).map fun q => (q.2.arrived, e.1, q.1)

/-- House order: tick of arrival, then issuer (the house is 0), then slot. -/
def houseBefore (a b : Nat × Nat × Nat) : Bool :=
  a.1 < b.1 || (a.1 == b.1 && (a.2.1 < b.2.1 || (a.2.1 == b.2.1 && a.2.2 < b.2.2)))

/-- Whether Nimlia serves this slot now: it is up, not stalled, has service left in the tick, and no waiting command
comes before it in house order (R323, R365). -/
def servable (p : Post) (s : State) : Option Posted :=
  match tabGet (troupe s p.issuer).posted p.slot with
  | none => none
  | some q =>
    let key := (q.arrived, p.issuer, p.slot)
    if s.house.fwUp && ! s.house.stalled && ! q.served && decide (s.house.servedInTick < 40 * s.house.period)
        && (waiting s).all (fun k => ! houseBefore k key) then some q else none

/-! ### Serving one command (R321, R322) -/

/-- What a command that passed checks 1 to 5 does. -/
inductive Verdict where
  /-- refused with a status; nothing changes -/
  | refuse (st : Status)
  /-- completes now: status, the state, results, actions before and after the completion -/
  | finish (st : Status) (s : State) (results : List (Nat × List Byte)) (before after : List Act)
  /-- served, completion pending on later events -/
  | defer (s : State) (awaits : Awaits) (before : List Act)

/-- Done, with nothing returned. -/
def done (s : State) : Verdict := .finish .done s [] [] []
/-- Done, with results. -/
def doneWith (s : State) (results : List (Nat × List Byte)) : Verdict := .finish .done s results [] []
/-- Refuse unless a condition holds. -/
def need (c : Bool) (st : Status) (k : Verdict) : Verdict := if c then k else .refuse st

/-- How R321 judges a command before its own conditions. -/
structure Cmd where
  /-- house only: an H of Table 12.7 -/
  house : Bool := false
  /-- check 4, the column Served: the refusal, if any -/
  gate : State → Nat → Option Status
  /-- check 5, the arguments' ranges -/
  args : Bool := true
  /-- checks 6 and 7 and the effect: issuer, slot, target, state -/
  body : Nat → Nat → Nat → State → Verdict

/-- Any: every troupe state but FENCED and RESETTING; a troupe that does not exist gives STATE (log entry 22). -/
def anyGate (s : State) (t : Nat) : Option Status :=
  match (troupe s t).life with
  | .absent => some .state
  | .fenced | .resetting => some .fenced
  | _ => none
/-- F: also while FENCED or RESETTING. -/
def alwaysGate (s : State) (t : Nat) : Option Status :=
  if (troupe s t).life == .absent then some .state else none
/-- Q: the quiet condition of R64 beside Any. -/
def quietGate (s : State) (t : Nat) : Option Status :=
  (anyGate s t).orElse fun _ => if quiet (troupe s t) then none else some .state
/-- HOUSE_ commands with no target of their own: served in every state of the house (R315). -/
def houseGate (_s : State) (_t : Nat) : Option Status := none

/-- HOUSE_ commands name a target only for four of them; the others carry 0 (Table 12.3). -/
def targetOk (i : Instr) (target : Nat) : Bool :=
  if opcode i / 256 == 1 then
    (opcode i == 0x0106 || opcode i == 0x0107 || opcode i == 0x0109 || opcode i == 0x010D) || target == 0
  else true

/-- The address of a slot in the register window (R318). -/
def slotAddress (issuer slot : Nat) : Nat := 0x100000 + issuer * 0x4000 + 256 * slot

/-- The block when Nimlia takes the command of a slot: `dt` ck have passed, and the command is counted (R323, gauge
0x500). -/
def begun (p : Post) (s : State) : State :=
  gauge (modHouse (passCk p.dt s) fun h => { h with servedInTick := h.servedInTick + 1 }) p.issuer 0x500 1

/-- The served tick in the slot, and the slot marked as served (R319, Table 12.3). -/
def markServed (p : Post) (s : State) : State :=
  modTroupe s p.issuer fun tr => { tr with
    board := memWrite tr.board (256 * p.slot + 24) (leBytes 8 s.house.tick)
    posted := tabMod tr.posted p.slot fun q => { q with served := true } }

/-- A command that completes with a status and results, and what it brings with it before and after (R322). -/
def completed (p : Post) (st : Status) (results : List (Nat × List Byte)) (before after : List Act) (s : State) : State :=
  run (before ++ [.complete p.issuer p.slot st results] ++ after) (markServed p s)

/-- A command that is refused: it completes with the status and counts as refused (R322, gauge 0x508). -/
def refusedWith (p : Post) (st : Status) (s : State) : State :=
  run [.complete p.issuer p.slot st []] (gauge (markServed p s) p.issuer 0x508 1)

/-- A command that is served and whose completion waits (R322): the slot's word says DEFERRED. -/
def heldBack (p : Post) (target : Nat) (q : Posted) (aw : Awaits) (before : List Act) (s : State) : State :=
  let s := boardWrite (markServed p s) p.issuer p.slot 8 (completionBytes .done false true (imageTag q.image))
  run before { s with deferred := s.deferred ++ [⟨p.issuer, p.slot, target, aw⟩] }

/-- Carry out a verdict on the command of a slot: the served tick, the gauges, the completion. -/
def answer (p : Post) (target : Nat) (q : Posted) (v : Verdict) (s : State) : State :=
  match v with
  | .refuse st => refusedWith p st s
  | .finish st s res before after => completed p st res before after s
  | .defer s aw before => heldBack p target q aw before s

/-- The checks of R321 on a copied command, in order, up to its own conditions. -/
def judge (p : Post) (i : Instr) (c : Cmd) (image : List Byte) (s : State) : Verdict :=
  let target := imageTarget image
  let cue := imageCue image
  if ! (p.issuer == 0 || (target == p.issuer && ! c.house)) then .refuse .notOwner
  else match c.gate s target with
  | some st => .refuse st
  | none =>
    if ! (reservedClear i image && c.args && targetOk i target
        && (cue.all fun k => cueExists (troupe s p.issuer) k)) then .refuse .badArg
    else c.body p.issuer p.slot target s

/-- Serve the command of a slot (R319–R323). A slot whose copied bytes do not spell the row, or that is not next in
house order, leaves the row without effect (log entry 23). -/
def serve (p : Post) (i : Instr) (c : Cmd) (s0 : State) : State :=
  let s := passCk p.dt s0
  match servable p s with
  | none => s
  | some q =>
    let target := imageTarget q.image
    if ! imageWhole q.image then
      answer p target q (.refuse .refusedPc)
        (record { sub := .prompter, status := .refusedPc, who := some p.issuer,
                  address := slotAddress p.issuer p.slot } (begun p s0))
    else if ! opcodes.contains (imageOpcode q.image) then answer p target q (.refuse .unsupported) (begun p s0)
    else if ! spells i q.image then s
    else answer p target q (judge p i c q.image (begun p s0)) (begun p s0)

/-- Put a value at an argument's width into the results (Table 12.7). -/
def res (off n x : Nat) : Nat × List Byte := (off, leBytes n x)

/-- Whether a range check holds. -/
def inRange (lo hi x : Nat) : Bool := decide (lo ≤ x) && decide (x ≤ hi)

/-- Whether an address field of 8 B is a block address of this pod: R398 and Table 6.2. -/
def addressOk (a : BitVec 64) : Bool := a.toNat < 2 ^ 48 && a.toNat % 256 == 2

/-- Whether a deferred command holds an object of a troupe (R324). -/
def holdsBy (s : State) (t : Nat) (which : Awaits → Bool) : Bool :=
  s.deferred.any fun d => d.target == t && which d.awaits

end Sys2Proof.Machine
end

