-- ==== Sys2Proof/Machine/Admission.lean ====
section
/-! DEFINITION. Scene capacity, admission and shapers (R36, R39–R42, R54–R59). -/

namespace Sys2Proof.Machine

open Sys2Proof

/-- The capacity of a port for one scene, in wire bytes: 200,000 B per µs. -/
def sceneCapacity (period : Nat) : Nat := period * 200000
/-- The admission limit: the booking ceiling × the scene capacity (R39). -/
def admissionLimit (ceiling period : Nat) : Nat := ceiling * period * 2000

/-- One span of scenes that a booking serves: port, bytes, start tick, end tick (0 open-ended). -/
structure Span where
  port  : Nat
  bytes : Nat
  start : Nat
  stop  : Nat
  deriving DecidableEq, Repr

/-- Whether a span serves the scene that a tick opens (R41). -/
def Span.serves (p : Span) (tick : Nat) : Bool := decide (p.start ≤ tick) && (p.stop == 0 || decide (tick < p.stop))

/-- Insert a change by the tick at which it takes effect, after those of the same tick that were served before it. -/
def insertChange (c : BookChange) : List BookChange → List BookChange
  | [] => [c]
  | d :: r => if c.at_ < d.at_ then c :: d :: r else d :: insertChange c r

/-- The end of a span that the next change cuts short. -/
def cutBy (stop : Nat) : List BookChange → Nat
  | [] => stop
  | d :: _ => if stop = 0 then d.at_ else min stop d.at_

/-- The spans that served changes give, each up to the next. -/
def changeSpans : List BookChange → List Span
  | [] => []
  | c :: r => ⟨c.port, c.bytes, max c.start c.at_, cutBy c.stop r⟩ :: changeSpans r

/-- The span of a change among the other changes of its booking: up to the next one due after it. -/
def spanAmong (c : BookChange) (cs : List BookChange) : Span :=
  ⟨c.port, c.bytes, max c.start c.at_, cutBy c.stop (cs.filter fun d => decide (c.at_ < d.at_))⟩

/-- The spans that a booking is admitted for: as it stands, and as served changes leave it (R41). A broken booking
counts 0 bytes (R42); the bytes of a suspended one are open to admission from the tick after its suspension (R58). -/
def Booking.spans (now : Nat) (b : Booking) : List Span :=
  if b.suspended && decide (b.suspendedAt < now) then []
  else
    let bytes := if whole b.bytes then b.bytes.val else 0
    ⟨b.port, bytes, b.start, cutBy b.stop b.changes⟩ :: changeSpans b.changes

/-- The spans of a troupe on a port, one booking left out. -/
def troupeSpans (now : Nat) (tr : Troupe) (port : Nat) (except : Option Nat) : List Span :=
  (tr.bookings.flatMap fun e => if except = some e.1 then [] else e.2.spans now).filter fun p => p.port == port

/-- The spans of every troupe on a port, one booking left out. -/
def portSpans (s : State) (port : Nat) (except : Option (Nat × Nat)) : List Span :=
  s.troupes.flatMap fun e =>
    troupeSpans s.house.tick e.2 port (except.bind fun x => if x.1 = e.1 then some x.2 else none)

/-- Bytes of some spans in the scene that a tick opens. -/
def bytesAt (ps : List Span) (tick : Nat) : Nat := ((ps.filter fun p => p.serves tick).map (·.bytes)).sum

/-- The most bytes in any scene of a span: the total only rises at the start of a span. -/
def peakIn (ps : List Span) (sp : Span) : Nat :=
  ((sp.start :: ps.map (·.start)).filter fun t => sp.serves t).foldl (fun a t => max a (bytesAt ps t)) 0

/-- The parameters of a port from the next tick on. -/
def portNext (s : State) (p : Nat) : Nat × Nat :=
  match (portOf s p).pendingSet with
  | some (c, t, _) => (c, t)
  | none => ((portOf s p).ceiling, (portOf s p).transit)

/-- A troupe's admitted bytes on a port, most in any scene from the next tick. -/
def troupeAdmitted (s : State) (tr : Troupe) (port : Nat) : Nat :=
  peakIn (troupeSpans s.house.tick tr port none) ⟨port, 0, s.house.tick + 1, 0⟩

/-- A grant as the stage manager takes it: the admitted bytes while its pair is broken, from the tick at which it is found
so (Table 13.3). -/
def grantOf (s : State) (tr : Troupe) (port : Nat) : Nat :=
  let g := tabGetD tr.grants port ⟨0, 0⟩
  if whole g || ! tr.brokenWords.contains (kindGrant, port) then g.val else troupeAdmitted s tr port

/-- Whether a span holds a scene at all. -/
def Span.some_ (p : Span) : Bool := p.stop == 0 || decide (p.start < p.stop)

/-- Whether some spans with the transit reserve stay within the admission limit in every scene of a span (R39): the
scenes from a pending period's tick on are judged at that period. -/
def withinLimit (s : State) (ceiling reserve : Nat) (ps : List Span) (sp : Span) : Bool :=
  let fits (sp : Span) (period : Nat) : Bool :=
    ! sp.some_ || decide (reserve + peakIn ps sp ≤ admissionLimit ceiling period)
  match s.house.pendingPeriod with
  | none => fits sp s.house.period
  | some (period, at_) =>
    fits { sp with stop := if sp.stop = 0 then at_ else min sp.stop at_ } s.house.period &&
      fits { sp with start := max sp.start at_ } period

/-- R39 for one booking against what else is admitted: the port's limit, the grant, and a booked troupe. -/
def admits (s : State) (t b : Nat) (sp : Span) : Bool :=
  let tr := troupe s t
  let lim := portNext s sp.port
  let others := portSpans s sp.port (some (t, b))
  let own := troupeSpans s.house.tick tr sp.port (some b)
  ! tr.bestEffort
    && withinLimit s lim.1 lim.2 (sp :: others) sp
    && decide (peakIn (sp :: own) sp ≤ grantOf s tr sp.port)

/-- The part of R39 that a suspended booking is still judged by: its grant (R338). -/
def grantAdmits (s : State) (t b : Nat) (sp : Span) : Bool :=
  let tr := troupe s t
  let own := ((tr.bookings.filter fun e => e.1 != b).map fun e => { e.2 with suspended := false }).flatMap
    (Booking.spans s.house.tick) |>.filter fun p => p.port == sp.port
  ! tr.bestEffort && decide (peakIn (sp :: own) sp ≤ grantOf s tr sp.port)

/-- A shaper of a troupe. -/
def shaperOf (tr : Troupe) (port : Nat) : Shaper := tabGetD tr.shapers port {}
/-- Whether both words of a shaper are whole. -/
def Shaper.isWhole (sh : Shaper) : Bool := whole sh.rate && whole sh.cap
/-- The rate as the stage manager takes it: 0 while a word of the shaper is broken, from the tick at which it is found so
(Table 13.3). -/
def shaperRate (sh : Shaper) : Nat := if sh.isWhole || ! sh.found then sh.rate.val else 0

/-- Refill a shaper up to now: rate bytes per µs, at 1-ck resolution, up to the cap (Table 2.3). -/
def refill (sh : Shaper) (now : Nat) : Shaper :=
  { sh with balance := min (sh.balance + Int.ofNat (shaperRate sh * (now - sh.asOf))) (Int.ofNat (sh.cap.val * 1800))
            asOf := now }

/-- The floor of a shaper, −2 MiB. -/
def shaperFloor : Int := -2097152 * 1800

/-- Charge wire bytes to a shaper: never below the floor; the rest goes to the debt-clamp gauge (R54, R55). -/
def chargeShaper (t port bytes : Nat) (s : State) : State :=
  let sh := refill (shaperOf (troupe s t) port) s.house.ck
  let left := sh.balance - Int.ofNat (bytes * 1800)
  let s := modTroupe s t fun tr =>
    { tr with shapers := tabPut tr.shapers port { sh with balance := max left shaperFloor } }
  troupePortGauge s t port 0x30 ((shaperFloor - left).toNat / 1800)

end Sys2Proof.Machine
end

