-- ==== Sys2Proof/Machine/Fabric.lean ====
section
/-! DEFINITION. The pod torus: block addresses, neighbours, slices, default routes and routing entries (R151, R228,
R238–R241, R255). -/

namespace Sys2Proof.Machine

open Sys2Proof

/-- A block address: bytes 0x02, pod number (high byte first), X, Y, Z (Table 6.2, R398). -/
def blockAddr (pod : Nat) (c : Coord) : BlockAddr :=
  BitVec.ofNat 48 (2 + (pod / 256 % 256) * 2 ^ 8 + (pod % 256) * 2 ^ 16 + c.x * 2 ^ 24 + c.y * 2 ^ 32 + c.z * 2 ^ 40)
/-- The coordinates that an address names. -/
def coordOf (a : BlockAddr) : Coord := ⟨bits a.toNat 24 8, bits a.toNat 32 8, bits a.toNat 40 8⟩
/-- The pod number that an address names. -/
def podOf (a : BlockAddr) : Nat := bits a.toNat 8 8 * 256 + bits a.toNat 16 8
/-- This chip's block address. -/
def ownAddr (s : State) : BlockAddr := blockAddr s.house.podNumber s.house.coord
/-- The link-local group address 03-00-00-00-00-01 (R151). -/
def groupAddr : BlockAddr := 0x010000000003
/-- Whether a value has the form of a block address. -/
def isBlockAddr (a : BlockAddr) : Bool := a.toNat % 256 == 2

/-- The component of a position on an axis: 0 X, 1 Y, 2 Z. -/
def Coord.on (c : Coord) (axis : Nat) : Nat := if axis = 0 then c.x else if axis = 1 then c.y else c.z
/-- A position with one component changed. -/
def Coord.setOn (c : Coord) (axis v : Nat) : Coord :=
  if axis = 0 then { c with x := v } else if axis = 1 then { c with y := v } else { c with z := v }

/-- The torus neighbour on port p, if the axis has any (Table 9.1, R402). -/
def torusNeighbour (s : State) (p : Nat) : Option Coord :=
  let axis := p / 2
  let l := s.house.dims.on axis
  let c := s.house.coord.on axis
  if p ≥ 6 || l ≤ 1 then none
  else some (s.house.coord.setOn axis (if p % 2 = 0 then (c + 1) % l else (c + l - 1) % l))

/-- The partner that verification expects on a port (R246). -/
def expectedPartner (s : State) (p : Nat) : Option BlockAddr :=
  if p < 6 then (torusNeighbour s p).map (blockAddr s.house.podNumber) else (portOf s p).expected

/-- Whether an axis of a slice wraps: its extent is the pod's length (R238). -/
def wraps (s : State) (extent : Coord) (axis : Nat) : Bool := extent.on axis == s.house.dims.on axis

/-- A position's offset in a slice on an axis. -/
def offsetOn (s : State) (origin : Coord) (c : Coord) (axis : Nat) : Nat :=
  (c.on axis + s.house.dims.on axis - origin.on axis) % max 1 (s.house.dims.on axis)

/-- Whether a position lies in a slice (R238). -/
def inSlice (s : State) (sh : Coord × Coord) (c : Coord) : Bool :=
  [0, 1, 2].all fun a => c.on a < s.house.dims.on a && offsetOn s sh.1 c a < sh.2.on a

/-- The positions of a slice, in the job's chip order (R238). -/
def sliceCoords (s : State) (sh : Coord × Coord) : List Coord :=
  (List.range sh.2.z).flatMap fun k => (List.range sh.2.y).flatMap fun j => (List.range sh.2.x).map fun i =>
    ⟨(sh.1.x + i) % max 1 s.house.dims.x, (sh.1.y + j) % max 1 s.house.dims.y, (sh.1.z + k) % max 1 s.house.dims.z⟩

/-- The slice diameter (R255). -/
def diameter (s : State) (e : Coord) : Nat :=
  ([0, 1, 2].map fun a => if wraps s e a then e.on a / 2 else e.on a - 1).sum

/-- Hops to a destination on an axis, and whether they go the + way: the shorter way on a wrapping axis, an exact half
the + way; directly on an axis that does not wrap (R241). -/
def axisHops (s : State) (sh : Coord × Coord) (fr to_ : Coord) (axis : Nat) : Nat × Bool :=
  let l := max 1 (s.house.dims.on axis)
  if wraps s sh.2 axis then
    let d := (to_.on axis + l - fr.on axis) % l
    if 2 * d ≤ l then (d, true) else (l - d, false)
  else
    let a := offsetOn s sh.1 fr axis
    let b := offsetOn s sh.1 to_ axis
    if a ≤ b then (b - a, true) else (a - b, false)

/-- The axis order of a route class at the source (Table 9.6). -/
def classOrder (k : Nat) : List Nat :=
  match k with
  | 0 => [0, 1, 2] | 1 => [0, 2, 1] | 2 => [1, 0, 2] | 3 => [1, 2, 0] | 4 => [2, 0, 1] | _ => [2, 1, 0]

/-- The first of some axes with the most hops left. -/
def longestAxis (hops : Nat → Nat) (axes : List Nat) : Option Nat :=
  axes.foldl (fun a x => match a with
    | none => if hops x = 0 then none else some x
    | some y => if hops x > hops y then some x else some y) none

/-- The value of a routing entry (Table 9.5). -/
def entryWord (port hops : Nat) (valid isLocal cut : Bool) : BitVec 32 :=
  BitVec.ofNat 32 (port % 8 + bitOf valid * 8 + bitOf isLocal * 16 + bitOf cut * 32 + hops % 64 * 64)
def entryPort (w : BitVec 32) : Nat := bits w.toNat 0 3
def entryValid (w : BitVec 32) : Bool := w.getLsbD 3
def entryLocal (w : BitVec 32) : Bool := w.getLsbD 4
def entryCut (w : BitVec 32) : Bool := w.getLsbD 5

/-- The destination index of R241's tables. -/
def destIndex (c : Coord) : Nat := c.x + 32 * (c.y + 32 * c.z)
/-- The key of an entry in a bank. -/
def entryKey (dest slot : Nat) : Nat := dest * 14 + slot

/-- The default route of a slice from this chip to a destination in a slot (R241). -/
def defaultRoute (s : State) (sh : Coord × Coord) (dest : Coord) (slot : Nat) : BitVec 32 :=
  let me := s.house.coord
  if dest = me then entryWord 0 0 true true false
  else
    let h (a : Nat) := (axisHops s sh me dest a).1
    let hops := h 0 + h 1 + h 2
    let axis : Option Nat :=
      if slot < 6 then (classOrder slot).find? fun a => h a != 0
      else if slot < 12 && h ((slot - 6) / 2) != 0 then some ((slot - 6) / 2)
      else longestAxis h [0, 1, 2]
    match axis with
    | none => 0
    | some a => entryWord (2 * a + if (axisHops s sh me dest a).2 then 0 else 1) hops true false false

/-- The bank of a slice record: false bank 0. -/
def bankOf (sl : Slice) (which : Bool) : Tab (Pair (BitVec 32)) := if which then sl.bank1 else sl.bank0
/-- Put a bank. -/
def setBank (sl : Slice) (which : Bool) (b : Tab (Pair (BitVec 32))) : Slice :=
  if which then { sl with bank1 := b } else { sl with bank0 := b }
/-- An entry of a bank; one that nothing has written is whole with value 0 (R239). -/
def bankEntry (sl : Slice) (which : Bool) (key : Nat) : Pair (BitVec 32) := tabGetD (bankOf sl which) key ⟨0, 0⟩

/-- Whether a slice's staged bank may be written: it has a slice, no commit pends, no bank drains (R401). -/
def stagedFree (sl : Slice) : Bool := sl.shape.isSome && sl.commit.isNone && sl.draining.isNone

/-- Write an entry of the staged bank; a rewritten entry may be found broken again (R240). -/
def putStaged (sl : Slice) (key : Nat) (w : Pair (BitVec 32)) : Slice :=
  { setBank sl (!sl.active) (tabPut (bankOf sl (!sl.active)) key w) with
    found := sl.found.filter fun e => ! (e.1 == (!sl.active) && e.2 == key) }

/-- Fill the staged bank with a slice's default routes (R241). -/
def fillRoutes (s : State) (sl : Slice) : Slice :=
  match sl.shape with
  | none => sl
  | some sh => (sliceCoords s sh).foldl (fun sl d => (List.range 14).foldl (fun sl k =>
      putStaged sl (entryKey (destIndex d) k) ⟨defaultRoute s sh d k, 0⟩) sl) sl

/-- The round length L of a slice (R255). -/
def roundLength (s : State) (sl : Slice) : Nat :=
  match sl.shape with
  | none => 0
  | some sh => diameter s sh.2 + sl.margin

/-- The round ports of a slice (R255). -/
def roundPorts (s : State) (sl : Slice) : List Nat :=
  match sl.shape with
  | none => []
  | some sh =>
    (List.range 8).filter fun p =>
      if p < 6 then
        match torusNeighbour s p with
        | none => false
        | some c =>
          let e := bankEntry sl sl.active (entryKey (destIndex c) 0)
          inSlice s sh c && ! (whole e && entryCut e.val)
      else sl.mask.getLsbD p

/-- A port's failure, miswiring, darkness as HOUSE_STATUS shows them. -/
def portUsable (s : State) (p : Nat) : Bool := ! (portOf s p).failed && ! (portOf s p).miswired

end Sys2Proof.Machine
end

