-- ==== Sys2Proof/Machine/Queues.lean ====
section
/-! DEFINITION. What is queued for a port: the cue sheet's frames, control frames, relayed frames (R212, R216, R236, R244),
and the DIM decline (R250). -/

namespace Sys2Proof.Machine

open Sys2Proof

/-- Whether two frames of a cue sheet are one carriage. -/
def OutFrame.same (a b : OutFrame) : Bool :=
  a.car.line == b.car.line && a.peer == b.peer && a.car.seq == b.car.seq

/-- Whether a frame draws on a booking. -/
def OutFrame.booked (f : OutFrame) : Bool :=
  match f.drawn.or f.charge with
  | some (.booking _) => true
  | _ => false

/-- A carriage leaves the cue sheet of troupe t: it is outstanding from now on, its timer runs, and its operation has a
carriage sent (R212, R216, R220). -/
def launched (t : Nat) (f : OutFrame) (s : State) : State :=
  modTroupe s t fun tr =>
    let ln := tabGetD tr.lines f.car.line {}
    let ln := { ln with
      ops := ln.ops.map fun o => if f.opId == some o.id then { o with sent := true } else o
      peers := ln.peers.modify f.peer fun p =>
        { p with out := p.out ++ [(f, s.house.ck)], timer := p.timer.or (some s.house.ck) } }
    { tr with sheet := tr.sheet.filter fun g => ! g.same f, lines := tabPut tr.lines f.car.line ln }

/-- The frames of a troupe's cue sheet for a port. -/
def sheetFor (tr : Troupe) (port : Nat) : List OutFrame := tr.sheet.filter fun f => f.port == some port

/-- The frames on the cue sheet for a port are lost: to Lines they have been sent (R240, R244). -/
def loseSheet (port : Nat) (s : State) : State :=
  s.troupes.foldl (fun s e => (sheetFor e.2 port).foldl (fun s f => launched e.1 f s) s) s

/-- Drop what is queued for a port, in every receive buffer too, and count the frames at counter `k` (R244, Table 9.10). -/
def dropQueues (port k : Nat) (s : State) : State :=
  let q := portOf s port
  let sheet := (s.troupes.map fun e => (sheetFor e.2 port).length).sum
  let held := (s.ports.map fun e => (e.2.rx.filter fun r => r.1 == port).length).sum
  let s := portGauge s port k (q.relay.length + q.overflow.length + q.control.length + sheet + held)
  let s := modPort (loseSheet port s) port fun q => { q with relay := [], overflow := [], control := [], matched := [] }
  { s with ports := (s.ports.map fun e => (e.1, { e.2 with rx := e.2.rx.filter fun r => r.1 != port }) : Tab Port) }

/-! ### Receive buffers (R232, R233) -/

/-- Bytes of a priority that a port's receive buffer holds. -/
def occupancy (q : Port) (prio : Nat) : Nat := ((q.rx.filter fun r => r.2.2.1 == prio).map fun r => r.2.1.length).sum

/-- Send PFC for a priority with the full time, and again every 10 µs (R232). -/
def pausePartner (port prio : Nat) (s : State) : State :=
  modPort s port fun q => { q with
    pausing := tabPut q.pausing prio s.house.ck, pfcDue := q.pfcDue.filter (·.1 != prio) ++ [(prio, 65535)] }

/-- A priority whose occupancy has fallen below 1 MiB is released (R232). -/
def releasePartner (before : Nat) (port prio : Nat) (s : State) : State :=
  if decide (2 ^ 20 ≤ before) && decide (occupancy (portOf s port) prio < 2 ^ 20) then
    modPort s port fun q => { q with
      pausing := tabDel q.pausing prio, pfcDue := q.pfcDue.filter (·.1 != prio) ++ [(prio, 0)] }
  else s

/-- Hold a frame in a port's receive buffer: 64 KiB for control frames, which are dropped beyond it; 2 MiB for each lossless
priority, whose partner is paused once 1.5 MiB are held. What a partner sends in spite of that beyond 2 MiB is lost (log
entry 52). -/
def bufferFrame (arrival : Nat) (r : Nat × List Byte × Nat × Nat × BitVec 16) (s : State) : State :=
  let prio := r.2.2.1
  let n := occupancy (portOf s arrival) prio + r.2.1.length
  if prio = 6 && decide (2 ^ 16 < n) then portGauge s arrival 17 1
  else if decide (2 ^ 21 < n) then s
  else
    let s := modPort s arrival fun q => { q with rx := q.rx ++ [r] }
    if decide (3 * 2 ^ 19 ≤ n) && (tabGet (portOf s arrival).pausing prio).isNone then pausePartner arrival prio s
    else s

/-- A frame leaves a port's receive buffer. -/
def unbuffer (arrival : Nat) (r : Nat × List Byte × Nat × Nat × BitVec 16) (s : State) : State :=
  let before := occupancy (portOf s arrival) r.2.2.1
  releasePartner before arrival r.2.2.1 (modPort s arrival fun q => { q with rx := q.rx.erase r })

/-- Whether a dim handshake is at or past its dark commit point, tick T − 1 (R249). -/
def pastCommitPoint (s : State) (dark : Nat) : Bool := dark ≤ s.house.tick + 1

/-- Decline a dim handshake that is before its dark commit point: three frames, 2 µs apart, and the link stays lit (R250). -/
def declineDim (port : Nat) (s : State) : State :=
  match (portOf s port).dim with
  | none => s
  | some (_, n, dark, _, _) =>
    if pastCommitPoint s dark then s
    else modPort s port fun q => { q with dim := none, declines := some (3, s.house.ck, n, dark) }

end Sys2Proof.Machine
end

