-- ==== Sys2Proof/Machine/House.lean ====
section
/-! DEFINITION. The HOUSE_ commands (Table 12.7, opcodes 0x0101 to 0x0111). -/

namespace Sys2Proof.Machine

open Sys2Proof

/-- HOUSE_TICK_SET (R34–R36): the period and its effective tick pend; a second command replaces the first. -/
def execHouseTickSet (p : Post) (period : BitVec 16) (effective : BitVec 64) (s : State) : Out :=
  .next (serve p (.houseTickSet p period effective)
    { house := true, gate := houseGate, args := inRange 25 400 period.toNat
      body := fun _ _ _ s =>
        let fits (q : Nat) : Bool :=
          decide (peakIn (portSpans s q none) ⟨q, 0, effective.toNat, 0⟩ ≤ admissionLimit (portNext s q).1 period.toNat)
        need (decide (s.house.tick + 64 ≤ effective.toNat)) .state <|
        need ((List.range 8).all fits) .overbooked <|
        done (modHouse s fun h => { h with pendingPeriod := some (period.toNat, effective.toNat) }) } s)

/-- HOUSE_TICK_TREE (R245): the parent port from the next tick. -/
def execHouseTickTree (p : Post) (parent : BitVec 8) (s : State) : Out :=
  .next (serve p (.houseTickTree p parent)
    { house := true, gate := houseGate, args := parent.toNat < 8 || parent == 0xFF
      body := fun _ _ _ s => done (modHouse s fun h =>
        { h with pendingParent := some (if parent == 0xFF then none else some parent.toNat) }) } s)

/-- HOUSE_POD_SET (R151, R228): served only while the house is closed. -/
def execHousePodSet (p : Post) (pod : BitVec 16) (lx ly lz : BitVec 8) (vid : BitVec 16) (s : State) : Out :=
  .next (serve p (.housePodSet p pod lx ly lz vid)
    { house := true, gate := fun s _ => if s.house.doorsOpen then some .state else none
      args := inRange 1 32 lx.toNat && inRange 1 32 ly.toNat && inRange 1 16 lz.toNat && vid.toNat < 4096
      body := fun _ _ _ s => done (modHouse s fun h =>
        { h with podNumber := pod.toNat, dims := ⟨lx.toNat, ly.toNat, lz.toNat⟩, vid := vid.toNat, podSet := true }) } s)

/-- HOUSE_WING_SET (R228, R246): the wing partner; the port is verified again. -/
def execHouseWingSet (p : Post) (port : BitVec 8) (partner : BitVec 64) (s : State) : Out :=
  .next (serve p (.houseWingSet p port partner)
    { house := true, gate := houseGate, args := inRange 6 7 port.toNat && addressOk partner
      body := fun _ _ _ s => done (modPort s port.toNat fun q =>
        { q with expected := some (partner.setWidth 48), verified := false, miswired := false }) } s)

/-- HOUSE_PORT_SET (Table 2.1, R39, R248): ceiling, transit reserve and dim delay from the next tick. -/
def execHousePortSet (p : Post) (port ceiling : BitVec 8) (transit : BitVec 32) (dimDelay : BitVec 16) (s : State) :
    Out :=
  .next (serve p (.housePortSet p port ceiling transit dimDelay)
    { house := true, gate := houseGate, args := port.toNat < 8 && inRange 50 100 ceiling.toNat
      body := fun _ _ _ s =>
        need (withinLimit s ceiling.toNat transit.toNat (portSpans s port.toNat none)
          ⟨port.toNat, 0, s.house.tick + 1, 0⟩) .overbooked <|
        done (modPort s port.toNat fun q =>
          { q with pendingSet := some (ceiling.toNat, transit.toNat, dimDelay.toNat) }) } s)

/-- HOUSE_SHAPER_SET (R56): the rate and cap of the target troupe's shaper at once; debt is kept. -/
def execHouseShaperSet (p : Post) (port : BitVec 8) (rate cap : BitVec 32) (s : State) : Out :=
  .next (serve p (.houseShaperSet p port rate cap)
    { house := true, gate := alwaysGate
      args := port.toNat < 8 && decide (rate.toNat ≤ 200000) && inRange 8314 67108864 cap.toNat
      body := fun _ _ t s => done (modTroupe s t fun tr =>
        let sh := refill (shaperOf tr port.toNat) s.house.ck
        let new : Shaper := { sh with
          rate := Pair.of rate.toNat, cap := Pair.of cap.toNat, found := false
          balance := min sh.balance (Int.ofNat (cap.toNat * 1800)) }
        { tr with shapers := tabPut tr.shapers port.toNat new }) } s)

/-- HOUSE_GRANT (R40): the target troupe's grant, never below its admitted bookings on the port. -/
def execHouseGrant (p : Post) (port : BitVec 8) (grant : BitVec 32) (s : State) : Out :=
  .next (serve p (.houseGrant p port grant)
    { house := true, gate := alwaysGate, args := port.toNat < 8
      body := fun _ _ t s =>
        need (decide (troupeAdmitted s (troupe s t) port.toNat ≤ grant.toNat) &&
              decide (grant.toNat ≤ admissionLimit (portNext s port.toNat).1 s.house.period)) .overbooked <|
        done (modTroupe s t fun tr => { tr with grants := tabPut tr.grants port.toNat (Pair.of grant.toNat) }) } s)

/-- HOUSE_PIT_SHARE (R139): 10% to 92% from the next tick. -/
def execHousePitShare (p : Post) (percent : BitVec 8) (s : State) : Out :=
  .next (serve p (.housePitShare p percent)
    { house := true, gate := houseGate, args := inRange 10 92 percent.toNat
      body := fun _ _ _ s => done (modHouse s fun h => { h with pendingShare := some percent.toNat }) } s)

/-- HOUSE_SLICE_SET (R238): binds the target troupe to a record, and gives the record a new slice. -/
def execHouseSliceSet (p : Post) (record x0 y0 z0 ex ey ez : BitVec 8) (s : State) : Out :=
  .next (serve p (.houseSliceSet p record x0 y0 z0 ex ey ez)
    { house := true
      gate := fun s t => (alwaysGate s t).orElse fun _ => if quiet (troupe s t) then none else some .state
      args := record.toNat < 8
      body := fun _ _ t s =>
        let o : Coord := ⟨x0.toNat, y0.toNat, z0.toNat⟩
        let e : Coord := ⟨ex.toNat, ey.toNat, ez.toNat⟩
        let r := record.toNat
        let sl := sliceOf s r
        let fits := [0, 1, 2].all fun a =>
          decide (1 ≤ e.on a) && decide (e.on a ≤ s.house.dims.on a) && decide (o.on a < s.house.dims.on a)
        let bind (s : State) : State := modTroupe s t fun tr => { tr with slice := some r }
        need (fits && inSlice s (o, e) s.house.coord && decide (diameter s e ≤ 63)) .badArg <|
        if sl.shape == some (o, e) then done (bind s)
        else
          need (s.troupes.all (fun k => k.1 == t || k.2.slice != some r) && sl.commit.isNone && sl.draining.isNone)
            .state <|
          done (bind (modSlice s r fun sl =>
            { sl with shape := some (o, e), bank0 := [], bank1 := [], epoch := 0, margin := 0, mask := 0,
                      found := [] })) } s)

/-- HOUSE_ROUTE_FILL (R241, R401): the default routes into the staged bank. -/
def execHouseRouteFill (p : Post) (record : BitVec 8) (s : State) : Out :=
  .next (serve p (.houseRouteFill p record)
    { house := true, gate := houseGate, args := record.toNat < 8
      body := fun _ _ _ s =>
        need (stagedFree (sliceOf s record.toNat)) .state <|
        done (modSlice s record.toNat (fillRoutes s)) } s)

/-- One 16-B item of HOUSE_ROUTE_SET at an HBM address: the key of its entry and the entry, or its refusal. -/
def routeItem (s : State) (a : Nat) : Except Status (Nat × BitVec 32) :=
  let dest := peekWord s a 2
  let slot := peekWord s (a + 2) 1
  let w := BitVec.ofNat 64 (peekWord s (a + 8) 8)
  if ! pcWhole w then .error .refusedPc
  else if dest ≥ 16384 || slot ≥ 14 || peekWord s (a + 3) 5 != 0 || pcVal w ≥ 4096 then .error .badArg
  else .ok (entryKey dest slot, BitVec.ofNat 32 (pcVal w))

/-- The items of HOUSE_ROUTE_SET in order, or the first refusal. -/
def routeItems (s : State) : Nat → Nat → Except Status (List (Nat × BitVec 32))
  | 0, _ => .ok []
  | n + 1, a => match routeItem s a with
    | .error e => .error e
    | .ok i => match routeItems s n (a + 16) with
      | .error e => .error e
      | .ok r => .ok (i :: r)

/-- HOUSE_ROUTE_SET (R401): computed entries into the staged bank, all or none. -/
def execHouseRouteSet (p : Post) (record : BitVec 8) (count : BitVec 32) (items : BitVec 64) (s : State) : Out :=
  .next (serve p (.houseRouteSet p record count items)
    { house := true, gate := houseGate, args := record.toNat < 8 && inRange 1 65536 count.toNat
      body := fun _ _ _ s =>
        need (stagedFree (sliceOf s record.toNat)) .state <|
        match routeItems s count.toNat items.toNat with
        | .error e => .refuse e
        | .ok es => done (modSlice s record.toNat fun sl => es.foldl (fun sl e => putStaged sl e.1 ⟨e.2, 0⟩) sl) } s)

/-- HOUSE_ROUTE_COMMIT (R242, R255): the staged bank becomes active at the effective tick. -/
def execHouseRouteCommit (p : Post) (record : BitVec 8) (epoch : BitVec 16) (margin mask : BitVec 8)
    (effective : BitVec 64) (s : State) : Out :=
  .next (serve p (.houseRouteCommit p record epoch margin mask effective)
    { house := true, gate := houseGate
      args := record.toNat < 8 && decide (margin.toNat ≤ 8) && mask &&& 0x3F == 0
      body := fun _ _ _ s =>
        let sl := sliceOf s record.toNat
        let bad := (bankOf sl (!sl.active)).any fun e =>
          whole e.2 && entryValid e.2.val && ! entryLocal e.2.val && ! entryCut e.2.val
            && ! portUsable s (entryPort e.2.val)
        let d := (sl.shape.map fun sh => diameter s sh.2).getD 0
        need (decide (s.house.tick + 4 ≤ effective.toNat) && sl.draining.isNone && sl.commit.isNone
              && epoch == sl.epoch + 1) .state <|
        need (! bad && decide (d + margin.toNat ≤ 63)) .badArg <|
        done (modSlice s record.toNat fun sl =>
          { sl with commit := some (epoch, margin.toNat, mask, effective.toNat) }) } s)

/-- HOUSE_BIND (R74): the cores' troupe for instructions issued afterwards. -/
def execHouseBind (p : Post) (first count : BitVec 16) (s : State) : Out :=
  .next (serve p (.houseBind p first count)
    { house := true, gate := alwaysGate
      args := decide (1 ≤ count.toNat) && decide (first.toNat + count.toNat ≤ 65536)
      body := fun _ _ t s => done (modHouse s fun h =>
        { h with cores := (first.toNat, count.toNat, t) :: h.cores }) } s)

/-- HOUSE_DISPATCH (Table 2.1, R315): the pod dispatch mode, while no step of any troupe is in flight. -/
def execHouseDispatch (p : Post) (flags : BitVec 8) (s : State) : Out :=
  .next (serve p (.houseDispatch p flags)
    { house := true, args := flags.toNat < 2
      gate := fun s _ => if s.troupes.all (fun e => (flight e.2).isNone) then none else some .state
      body := fun _ _ _ s => done (modHouse s fun h => { h with adlib := flags.getLsbD 0 }) } s)

/-- HOUSE_PORT_RESET (R244, R251, Table 9.10): queues and overflow are dropped, the link relights. -/
def execHousePortReset (p : Post) (port : BitVec 8) (s : State) : Out :=
  .next (serve p (.housePortReset p port)
    { house := true, gate := houseGate, args := port.toNat < 8
      body := fun _ _ _ s =>
        .defer (modPort (dropQueues port.toNat 21 s) port.toNat fun q =>
            { q with link := .relighting, relightSince := some s.house.ck, darkSince := none, resetting := true
                     lossSince := none, verified := false, miswired := false, roundTrip := none, dim := none
                     declines := none, woken := false, pauses := [], pausing := [], pfcDue := [], child := false
                     replyDue := none, tickTx := none })
          (.portReset port.toNat) [] } s)

/-- Whether a chunk is on a pit: the pit is its home (R79). -/
def chunkOnPit (s : State) (pit : Nat) (key : Nat) : Bool :=
  (key / 2 ^ 32 + key % 2 ^ 32) % max 1 s.house.pits == pit

/-- Whether a bucket has a chunk on a pit: a tensor of it has a chunk whose home is the pit (R79). -/
def bucketOnPit (s : State) (g : Graph) (pit : Nat) : Bool :=
  g.tensors.any fun e =>
    (List.range (min s.house.pits (cdiv e.2.1 (if e.2.2.2 then 32768 else 16384)))).any fun c =>
      chunkOnPit s pit (e.1 * 2 ^ 32 + c)

/-- Whether a step of the troupe has a chunk on a pit (R79, log entry 24). -/
def graphOnPit (s : State) (tr : Troupe) (pit : Nat) : Bool := tr.graph.any fun g => bucketOnPit s g.2 pit

/-- Unit u of R379. -/
def unitOf (s : State) (u : Nat) : UnitRec := tabGetD s.house.units u {}
/-- Change unit u. -/
def modUnit (s : State) (u : Nat) (f : UnitRec → UnitRec) : State :=
  modHouse s fun h => { h with units := tabPut h.units u (f (tabGetD h.units u {})) }

/-- Whether a unit of R379 is dark. -/
def unitDark (s : State) (u : Nat) : Bool := (unitOf s u).dark
/-- Whether a build of P pits has unit u of R379: pits and tally groups 0 to P − 1, both wing groups, the networks and
the packers (R9). -/
def unitExists (pits u : Nat) : Bool :=
  u < pits || u == 8 || (9 ≤ u && u < 9 + pits) || (17 ≤ u && u < 24)

/-- The group on whose lanes the work of group k of P runs, for the groups numbered from unit `first` on and their wing
group: its own lanes; while they are dark the wing group's; with the wing group dark too, those of the next group above
it that is not dark, modulo P; none while every one is dark (R7, R375). -/
def laneGroup (h : House) (first wing k : Nat) : Option Nat :=
  let dark (u : Nat) : Bool := (tabGetD h.units u {}).dark
  if ! dark (first + k) then some (first + k)
  else if ! dark wing then some wing
  else ((List.range h.pits).map fun j => first + (k + j) % max 1 h.pits).find? fun u => ! dark u

/-- The unit whose lanes take the chunks of a pit (R375). -/
def pitGroup (h : House) (pit : Nat) : Option Nat := laneGroup h 0 8 pit
/-- The unit whose lanes take the sums of a tally group (R375). -/
def tallyGroup (h : House) (k : Nat) : Option Nat := laneGroup h 9 17 k

/-- Whether work that reaches group k has to wait: every group that could take it is dark (R7), or the one that takes it
has failed since the last tick (R370, R375). -/
def groupWaits (s : State) (u : Option Nat) : Bool := u.all fun u => (unitOf s u).failed
/-- Whether a chunk that reaches a pit has to wait (R7, R370, R375). -/
def pitWaits (s : State) (pit : Nat) : Bool := groupWaits s (pitGroup s.house pit)
/-- Whether a block sum that reaches tally group k has to wait (R7, R370, R375). -/
def tallyWaits (s : State) (k : Nat) : Bool := groupWaits s (tallyGroup s.house k)
/-- Networks that are not dark (R112). -/
def liveNetworks (s : State) : Nat :=
  ((List.range 4).filter fun k => ! ((tabGet s.house.units (18 + k)).any (·.dark))).length

/-- Whether no tally group is left to reduce anything (R7). -/
def tallyOut (s : State) : Bool := (tallyGroup s.house 0).isNone
/-- Whether a dispatch item has to wait: both packers are dark, or the one in use has failed since the last tick (R370,
R375). -/
def packerWaits (s : State) : Bool :=
  (unitDark s 22 && unitDark s 23) || (unitOf s (if unitDark s 22 then 23 else 22)).failed

/-- Every troupe number with a property raises the curtain for a row of Table 10.4. -/
def curtainAll (row : Nat) (which : Troupe → Bool) (s : State) : State :=
  ((s.troupes.filter fun e => which e.2).map (·.1)).foldl (fun s t => curtain (some row) t s) s

/-- Whether a chunk's lane work runs on unit u: on its home pit's own lanes or on those that take its place (R7, R375). -/
def worksOn (s : State) (u pit : Nat) : Bool := pitGroup s.house pit == some u

/-- The work of a bucket without a pass in flight: nothing of it is held, and nothing was written. -/
def BWork.dropPass (w : BWork) : BWork :=
  match w.pass with
  | .idle | .ended => w
  | _ => { w with pass := .idle, choice := none, kappa := none, band := [], cut := none, buffer := none, quant := [] }

/-- A pit reset abandons the lane work in flight on the pit (R144): chunks read and not yet added, and the passes of
buckets with a chunk there. A spill call is one operation of its completion, which no reset of a pit cuts in half. -/
def abandonPit (s : State) (u : Nat) (tr : Troupe) : Troupe :=
  let homes := (List.range s.house.pits).filter (worksOn s u)
  { tr with
    taken := tr.taken.filter fun k => ! (k.read && homes.any fun p => chunkOnPit s p (k.tensor * 2 ^ 32 + k.chunk))
    work := (tr.work.map fun e =>
      (e.1, if (tabGet tr.graph e.1).any fun g => homes.any (bucketOnPit s g) then e.2.dropPass else e.2) : Tab BWork) }

/-- HOUSE_PIT_RESET (R144, R374, R377): abandons the pit's lane work, raises the curtain of every step with a chunk on
the pit, and darkens the lanes at once until their return rehearsal passes; a return rehearsal that runs ends with
fail (Table 14.10). -/
def execHousePitReset (p : Post) (pit : BitVec 8) (s : State) : Out :=
  .next (serve p (.housePitReset p pit)
    { house := true, gate := houseGate, args := pit.toNat < s.house.pits
      body := fun _ _ _ s =>
        let u := pit.toNat
        let ended := (s.deferred.filter fun d => d.awaits == .testReturn u).map fun d =>
          Act.complete d.issuer d.slot .done [res 0 1 0]
        let s := curtainAll 9 (fun tr => graphOnPit s tr u) s
        let s := { s with troupes := (s.troupes.map fun e => (e.1, abandonPit s u e.2) : Tab Troupe) }
        .defer (modUnit s u fun r => { r with dark := true, stopping := true, testing := none, resetting := true })
          (.pitReset u) ended } s)

/-- HOUSE_RESET (R336): completes now; the block resets at the next tick. -/
def execHouseReset (p : Post) (s : State) : Out :=
  .next (serve p (.houseReset p)
    { house := true, gate := houseGate
      body := fun _ _ _ s => done (modHouse s fun h => { h with resetDue := true }) } s)

end Sys2Proof.Machine
end

