-- ==== Sys2Proof/Machine/Crc.lean ====
section
/-! DEFINITION. The two check sequences of a frame: the IEEE 802.3 FCS and the CRC-64 of a carriage's payload (R150,
R155). -/

namespace Sys2Proof.Machine

open Sys2Proof

/-- Eight steps of the reflected CRC-32 of IEEE 802.3. -/
def crc32Bits : Nat → BitVec 32 → BitVec 32
  | 0, c => c
  | n + 1, c => crc32Bits n (if c.getLsbD 0 then (c >>> 1) ^^^ 0xEDB88320#32 else c >>> 1)

/-- The CRC-32 register over bytes. -/
def crc32Run : BitVec 32 → List Byte → BitVec 32
  | c, [] => c
  | c, b :: r => crc32Run (crc32Bits 8 (c ^^^ b.setWidth 32)) r

/-- The IEEE 802.3 frame check sequence. -/
def crc32 (bs : List Byte) : BitVec 32 := ~~~ crc32Run 0xFFFFFFFF#32 bs

/-- The four FCS bytes in transmission order. -/
def fcsBytes (bs : List Byte) : List Byte := leBytes 4 (crc32 bs).toNat

/-- A frame with its FCS. -/
def withFcs (bs : List Byte) : List Byte := bs ++ fcsBytes bs

/-- Whether a frame's last four bytes are its FCS. -/
def fcsOk (frame : List Byte) : Bool :=
  let n := frame.length - 4
  frame.drop n == fcsBytes (frame.take n)

/-- Eight steps of the ECMA-182 CRC-64, most significant bit first. -/
def crc64Bits : Nat → BitVec 64 → BitVec 64
  | 0, c => c
  | n + 1, c => crc64Bits n (if c.getLsbD 63 then (c <<< 1) ^^^ 0x42F0E1EBA9EA3693#64 else c <<< 1)

/-- The CRC-64 register over bytes. -/
def crc64Run : BitVec 64 → List Byte → BitVec 64
  | c, [] => c
  | c, b :: r => crc64Run (crc64Bits 8 (c ^^^ (b.setWidth 64 <<< 56))) r

/-- The CRC-64 of a payload (R155). -/
def crc64 (bs : List Byte) : BitVec 64 := ~~~ crc64Run 0xFFFFFFFFFFFFFFFF#64 bs

end Sys2Proof.Machine
end

