-- ==== Sys2Proof/Machine/Wire.lean ====
section
/-! DEFINITION. Frames: the layouts of Tables 6.1, 6.3, 6.4, 6.8 and 6.11, built and read. -/

namespace Sys2Proof.Machine

open Sys2Proof

/-! ### Building -/

/-- Bytes 0–17 of a frame (Table 6.1). -/
def ethHeader (dst src : BlockAddr) (pcp vid : Nat) : List Byte :=
  leBytes 6 dst.toNat ++ leBytes 6 src.toNat ++ [0x81, 0x00] ++ beBytes 2 (pcp % 8 * 2 ^ 13 + vid % 4096) ++
    [0x88, 0xB5]

/-- A class as the two bits of Table 6.3. -/
def Cls.code : Cls → Nat
  | .g => 0 | .f => 1 | .d => 2
/-- The class of two bits; 3 is reserved. -/
def clsOf (n : Nat) : Option Cls :=
  match n with
  | 0 => some .g | 1 => some .f | 2 => some .d | _ => none

/-- The flag word at header offset 28 (Table 6.3). -/
def Car.flags (c : Car) : Nat :=
  c.tensor % 2 ^ 20 + c.subject % 16 * 2 ^ 20 + bitOf c.coll * 2 ^ 24 + bitOf c.rtx * 2 ^ 25 + bitOf c.last * 2 ^ 26 +
    bitOf c.ackv * 2 ^ 27 + bitOf c.echo * 2 ^ 28 + bitOf c.fence * 2 ^ 29 + bitOf c.scripted * 2 ^ 30

/-- The bitwise complement of bytes. -/
def complement (bs : List Byte) : List Byte := bs.map fun b => ~~~ b

/-- The carriage header with its complement shadow (Table 6.3). -/
def carHeader (c : Car) : List Byte :=
  let troupeByte := leBytes 1 (c.troupe % 64 + c.cls.code * 64)
  let lineBytes := leBytes 2 (c.line % 512)
  let seq := leBytes 4 c.seq.toNat
  let step := leBytes 6 c.step
  leBytes 1 2 ++ leBytes 1 c.type ++ troupeByte ++ leBytes 1 (c.enc % 16 + c.op % 16 * 16) ++ lineBytes ++
    leBytes 2 c.payload.length ++ seq ++ leBytes 4 c.ack.toNat ++ leBytes 2 c.lineEpoch.toNat ++
    leBytes 2 c.tableEpoch.toNat ++ step ++ leBytes 2 c.count ++ leBytes 4 c.flags ++ leBytes 4 c.position.toNat ++
    leBytes 4 c.timestamp.toNat ++ leBytes 8 c.target.toNat ++
    complement seq ++ complement step ++ complement lineBytes ++ complement troupeByte ++ [0, 0, 0]

/-- The trailer (Table 6.4). -/
def carTrailer (c : Car) : List Byte :=
  leBytes 8 (crc64 c.payload).toNat ++ leBytes 4 c.echoTs.toNat ++ leBytes 2 c.hold.toNat ++ [0, 0]

/-- A carriage frame (R150). -/
def carFrame (c : Car) (dst src : BlockAddr) (vid : Nat) : List Byte :=
  withFcs (ethHeader dst src c.cls.pcp vid ++ carHeader c ++ c.payload ++ carTrailer c)

/-- The wire bytes of a carriage: P + 102 B and 20 B of preamble and gap (R38, R150). -/
def Car.wire (c : Car) : Nat := c.payload.length + 122
/-- The wire bytes of a frame. -/
def frameWire (f : List Byte) : Nat := f.length + 20

/-- Content padded with zeros to the smallest multiple of 256, at least 256 (R159). -/
def padPayload (content : List Byte) : List Byte :=
  content ++ List.replicate (256 * max 1 (cdiv content.length 256) - content.length) 0

/-- A control frame: 21 field bytes, their complement, the FCS (R163). -/
def ctlFrame (type byte2 : Nat) (fields : List (Nat × Nat × Nat)) (dst src : BlockAddr) (vid : Nat) : List Byte :=
  let body := fields.foldl (fun b f => overlay b f.1 (leBytes f.2.1 f.2.2))
    (leBytes 1 2 ++ leBytes 1 type ++ leBytes 1 byte2 ++ List.replicate 18 0)
  withFcs (ethHeader dst src 6 vid ++ body ++ complement body)

/-- A PFC frame: priorities with their quanta (R3, R231, IEEE 802.1Qbb). -/
def pfcFrame (src : BlockAddr) (times : List (Nat × Nat)) : List Byte :=
  let enable := (times.map fun t => 2 ^ t.1).sum
  withFcs ([0x01, 0x80, 0xC2, 0x00, 0x00, 0x01] ++ leBytes 6 src.toNat ++ [0x88, 0x08, 0x01, 0x01] ++
    beBytes 2 enable ++ ((List.range 8).flatMap fun k => beBytes 2 (tabGetD times k 0)) ++ List.replicate 26 0)

/-! ### Reading -/

def frameDst (f : List Byte) : BlockAddr := BitVec.ofNat 48 (field f 0 6)
def frameSrc (f : List Byte) : BlockAddr := BitVec.ofNat 48 (field f 6 6)
/-- Whether the frame carries an 802.1Q tag. -/
def frameTagged (f : List Byte) : Bool := slice f 12 2 == [0x81, 0x00]
def framePcp (f : List Byte) : Nat := beNat (slice f 14 2) / 2 ^ 13
def frameVid (f : List Byte) : Nat := beNat (slice f 14 2) % 4096
/-- The EtherType, behind the tag if there is one. -/
def frameEther (f : List Byte) : Nat := beNat (slice f (if frameTagged f then 16 else 12) 2)
/-- The MAC control opcode of an untagged or tagged MAC control frame. -/
def macOpcode (f : List Byte) : Nat := beNat (slice f (if frameTagged f then 18 else 14) 2)
/-- Body or header bytes from offset 18. -/
def bodyField (f : List Byte) (off n : Nat) : Nat := field f (18 + off) n
def frameType (f : List Byte) : Nat := bodyField f 1 1

/-- The carriage that a frame carries (Table 6.3). -/
def readCar (f : List Byte) : Car :=
  let h (off n : Nat) : Nat := bodyField f off n
  let flags := h 28 4
  let p := h 6 2
  { type := h 1 1, cls := (clsOf (bits (h 2 1) 6 2)).getD .d, enc := h 3 1 % 16, op := h 3 1 / 16
    troupe := h 2 1 % 64, line := h 4 2 % 512, seq := BitVec.ofNat 32 (h 8 4), ack := BitVec.ofNat 32 (h 12 4)
    lineEpoch := BitVec.ofNat 16 (h 16 2), tableEpoch := BitVec.ofNat 16 (h 18 2), step := h 20 6, count := h 26 2
    tensor := bits flags 0 20, subject := bits flags 20 4, coll := bit flags 24, rtx := bit flags 25
    last := bit flags 26, ackv := bit flags 27, echo := bit flags 28, fence := bit flags 29
    scripted := bit flags 30, position := BitVec.ofNat 32 (h 32 4), timestamp := BitVec.ofNat 32 (h 36 4)
    target := BitVec.ofNat 64 (h 40 8), payload := slice f 82 p
    echoTs := BitVec.ofNat 32 (field f (82 + p + 8) 4), hold := BitVec.ofNat 16 (field f (82 + p + 12) 2) }

/-- Whether every shadow field complements its field (R154). -/
def shadowOk (f : List Byte) : Bool :=
  let b (off n : Nat) := slice f (18 + off) n
  b 48 4 == complement (b 8 4) && b 52 6 == complement (b 20 6) && b 58 2 == complement (b 4 2) &&
    b 60 1 == complement (b 2 1)

/-- Whether body bytes 21–41 complement bytes 0–20 (R163). -/
def controlOk (f : List Byte) : Bool := slice f 39 21 == complement (slice f 18 21)

/-! ### Content (R159–R161) -/

/-- Encodings of Table 6.8 by code. -/
def isQ8b (enc : Nat) : Bool := enc == 1 || enc == 2 || enc == 3
/-- Bytes of one unit of an encoding of fixed size. -/
def unitBytes (enc : Nat) : Nat :=
  match enc with
  | 0 => 1 | 1 => 33 | 4 => 33 | 5 => 33 | 6 => 2 | 7 => 4 | 8 => 4 | 9 => 1 | 10 => 8 | _ => 1

/-- A Q8B block's bytes: the scale byte and 32 element bytes (Table 5.1). -/
def q8bBytes (b : QBlk) : List Byte := BitVec.ofNat 8 b.scale :: b.q.map byteOf

/-- A Q8B block from its 33 bytes, every element present. -/
def q8bRead (bs : List Byte) : QBlk :=
  ⟨(bs.headD 0).toNat, (slice bs 1 32).map s8, List.replicate 32 true⟩

/-- The values of the present elements, ascending. -/
def presentOf (b : QBlk) : List Int := ((b.q.zip b.present).filter (·.2)).map (·.1)

/-- One Q8B-S record (R160). -/
def q8bsBytes (b : QBlk) : List Byte :=
  let mask := (b.present.zipIdx.map fun e => bitOf e.1 * 2 ^ e.2).sum
  leBytes 4 mask ++ (if mask = 0 then [] else BitVec.ofNat 8 b.scale :: (presentOf b).map byteOf)

/-- LEB128 in its shortest form, 1 to 3 bytes (R161). -/
def leb128 : Nat → Nat → List Byte
  | 0, _ => []
  | n + 1, d => if d < 128 then [BitVec.ofNat 8 d] else BitVec.ofNat 8 (d % 128 + 128) :: leb128 n (d / 128)

/-- The Q8B-R records of the present elements of one block; `prev` is the index before its first record, `fresh`
whether a scale byte is due (R161). -/
def q8brBlock (scale : Nat) : List (Nat × Int) → Nat → Bool → List Byte
  | [], _, _ => []
  | (ix, q) :: r, prev1, fresh =>
    leb128 3 (ix - prev1) ++ (if fresh then [BitVec.ofNat 8 scale] else []) ++ [byteOf q] ++
      q8brBlock scale r (ix + 1) false

/-- The present elements of block `blk` of a chunk by their index in the chunk. -/
def presentAt (blk : Nat) (b : QBlk) : List (Nat × Int) :=
  ((b.q.zip b.present).zipIdx.filter (·.1.2)).map fun e => (32 * blk + e.2, e.1.1)

/-- Q8B-R content of blocks of a chunk; `next` is the index that follows the previous record (R161). -/
def q8brBytes : List (Nat × QBlk) → Nat → List Byte
  | [], _ => []
  | (blk, b) :: r, next =>
    let es := presentAt blk b
    q8brBlock b.scale es next true ++ q8brBytes r ((es.getLast?.map fun e => e.1 + 1).getD next)

/-- Read an LEB128 varint of at most 3 bytes in its shortest form: the value and the rest. -/
def readLeb : List Byte → Option (Nat × List Byte)
  | a :: r =>
    if a.toNat < 128 then some (a.toNat, r)
    else match r with
      | b :: r =>
        if b.toNat < 128 then (if b.toNat = 0 then none else some (a.toNat - 128 + 128 * b.toNat, r))
        else match r with
          | c :: r =>
            if c.toNat < 128 && c.toNat != 0 then
              some (a.toNat - 128 + 128 * (b.toNat - 128) + 16384 * c.toNat, r)
            else none
          | [] => none
      | [] => none
  | [] => none

/-- Parse `n` Q8B-S records from block `blk`: the blocks and what is left. -/
def readQ8bs : Nat → Nat → List Byte → Option (List (Nat × QBlk) × List Byte)
  | 0, _, bs => some ([], bs)
  | n + 1, blk, bs =>
    if bs.length < 4 then none
    else
      let mask := leNat (bs.take 4)
      let bs := bs.drop 4
      let present := (List.range 32).map (bit mask)
      let k := (present.filter id).length
      if mask = 0 then
        (readQ8bs n (blk + 1) bs).map fun r => ((blk, ⟨0, List.replicate 32 0, present⟩) :: r.1, r.2)
      else if bs.length < 1 + k then none
      else
        let place : List Bool → List Byte → List Int := fun ps vs =>
          (ps.foldl (fun a p => if p then (a.1 ++ [s8 (a.2.headD 0)], a.2.drop 1) else (a.1 ++ [0], a.2)) ([], vs)).1
        let q := place present ((bs.drop 1).take k)
        (readQ8bs n (blk + 1) (bs.drop (1 + k))).map fun r =>
          ((blk, ⟨(bs.headD 0).toNat, q, present⟩) :: r.1, r.2)

/-- Parse `n` Q8B-R records: (index, scale, value) and what is left. `prev` is the previous index + 1. -/
def readQ8br : Nat → Nat → Option (Nat × Nat) → List Byte → Option (List (Nat × Nat × Int) × List Byte)
  | 0, _, _, bs => some ([], bs)
  | n + 1, prev, cur, bs =>
    match readLeb bs with
    | none => none
    | some (d, bs) =>
      let ix := prev + d
      let same := match cur with
        | none => none
        | some (blk, sc) => if blk = ix / 32 then some sc else none
      match same, bs with
      | some sc, v :: bs => (readQ8br n (ix + 1) (some (ix / 32, sc)) bs).map fun r => ((ix, sc, s8 v) :: r.1, r.2)
      | none, sc :: v :: bs =>
        (readQ8br n (ix + 1) (some (ix / 32, sc.toNat)) bs).map fun r => ((ix, sc.toNat, s8 v) :: r.1, r.2)
      | _, _ => none

/-- Gather run records into blocks. -/
def gatherRuns (rs : List (Nat × Nat × Int)) : List (Nat × QBlk) :=
  rs.foldl (fun t r =>
    let b := tabGetD t (r.1 / 32) ⟨r.2.1, List.replicate 32 0, List.replicate 32 false⟩
    tabPut t (r.1 / 32) { b with q := b.q.set (r.1 % 32) r.2.2, present := b.present.set (r.1 % 32) true }) []

/-- Parse dense Q8B blocks from block `blk`. -/
def readQ8b : Nat → Nat → List Byte → List (Nat × QBlk)
  | 0, _, _ => []
  | n + 1, blk, bs => (blk, q8bRead (bs.take 33)) :: readQ8b n (blk + 1) (bs.drop 33)

/-- The blocks of a Q8B-family content and the bytes it takes; none where it does not parse (check 12). -/
def readBlocks (enc count first : Nat) (payload : List Byte) : Option (List (Nat × QBlk) × Nat) :=
  if enc = 1 then
    if 33 * count ≤ payload.length then some (readQ8b count first payload, 33 * count) else none
  else if enc = 2 then
    (readQ8bs count first payload).map fun r => (r.1, payload.length - r.2.length)
  else
    (readQ8br count (32 * first) none payload).map fun r => (gatherRuns r.1, payload.length - r.2.length)

/-- The first block of a carriage's position field (R158). -/
def Car.firstBlock (c : Car) : Nat := c.position.toNat / 2 ^ 22
/-- The chunk index of a position field. -/
def Car.chunk (c : Car) : Nat := c.position.toNat % 2 ^ 22
/-- Subjects whose position is chunk and block (R158). -/
def chunkSubject (sub : Nat) : Bool := [1, 2, 3, 8, 10, 11].contains sub
/-- Blocks that elements of a fixed-size encoding cover: a scale byte covers one, others 32 to a block. -/
def coveredBlocks (sub enc count : Nat) : Nat := if sub == 2 then count else if enc == 4 || enc == 5 then count else cdiv count 32

/-- Check 12 of Table 6.12 on a carriage. -/
def contentOk (c : Car) : Bool :=
  let p := c.payload.length
  let padded (n : Nat) : Bool := n ≤ p && p == 256 * max 1 (cdiv n 256)
  if isQ8b c.enc then
    (c.enc == 1 || c.type == 1 || c.type == 2) &&
    match readBlocks c.enc c.count c.firstBlock c.payload with
    | none => false
    | some (bs, n) => padded n && (! chunkSubject c.subject || (c.firstBlock < 1024 && bs.all fun b => b.1 < 1024))
  else
    padded (unitBytes c.enc * c.count) &&
      (! chunkSubject c.subject || (c.firstBlock < 1024 && c.firstBlock + coveredBlocks c.subject c.enc c.count ≤ 1024))

/-- Whether class, encoding and operation form a combination of Table 6.10. -/
def combination (cls : Cls) (enc op : Nat) : Bool :=
  let g := cls == .g
  let d := cls == .d
  let f := cls == .f
  match enc with
  | 0 => d && op == 0
  | 1 | 2 | 3 => (g || d) && (op == 0 || op == 1)
  | 4 | 5 | 6 => d && [0, 3, 4, 5].contains op
  | 7 => ((f || d) && [0, 2, 4, 5].contains op) || (d && op == 3)
  | 10 => f && (op == 0 || op == 2)
  | 8 => (g || d) && [0, 1, 4, 5, 6, 7, 8, 9, 10, 11].contains op
  | 9 => (g || d) && [0, 4, 5, 6, 7, 8, 9, 10, 11].contains op
  | _ => false

/-- Whether a class is allowed for a subject (Table 6.7); a fence carriage is of class D. -/
def classOk (sub : Nat) (fence : Bool) (cls : Cls) (enc : Nat) : Bool :=
  match sub with
  | 0 => ! fence || cls == .d
  | 1 | 2 | 4 | 5 | 6 => cls == .g
  | 3 | 10 => if isQ8b enc then cls == .g else cls == .f
  | 7 | 8 => cls == .f
  | 9 | 11 => cls == .d
  | _ => false

/-- Check 10 of Table 6.12. -/
def formOk (c : Car) : Bool :=
  c.subject < 12 && c.enc < 11 && c.op < 12 && combination c.cls c.enc c.op && classOk c.subject c.fence c.cls c.enc &&
    (match c.type with
     | 1 => c.op == 0
     | 2 => c.op != 0
     | _ => c.op == 0 && c.cls == .d && c.enc == 0)

/-! ### The receive checks (R165, Table 6.12) -/

/-- What a frame is, once it has passed its checks. -/
inductive Kind where
  | pfc | pause | foreign | passing | write | reduceWrite | readRequest | readResponse | fence | collective
  | delta | mirror | trickle | ack | nak | probe | probeEcho | call | knock | knockAnswer | dim | light | tick
  deriving DecidableEq, Repr

/-- The outcome of the checks: the frame's kind, or the check that failed. -/
inductive Checked where
  | ok (k : Kind)
  | runt | oversize | fcs | vlan | misaddressed
  | malformed (check : Nat)
  deriving DecidableEq, Repr

/-- The kind of a control type. -/
def controlKind (type : Nat) : Option Kind :=
  match type with
  | 0x80 => some .ack | 0x81 => some .nak | 0x82 => some .probe | 0x83 => some .probeEcho | 0x84 => some .call
  | 0x85 => some .knock | 0x86 => some .knockAnswer | 0x87 => some .dim | 0x88 => some .light | 0x89 => some .tick
  | _ => none

/-- Whether a type is link-local (R164). -/
def linkLocal (type : Nat) : Bool := type == 0x84 || type == 0x87 || type == 0x88 || type == 0x89

/-- The kind of a carriage. -/
def carKind (c : Car) : Kind :=
  if c.fence then .fence
  else if c.coll then
    (if c.subject == 3 then .delta else if c.subject == 10 then .mirror else if c.subject == 11 then .trickle
     else .collective)
  else match c.type with
    | 1 => .write | 2 => .reduceWrite | 3 => .readRequest | _ => .readResponse

/-- The addresses that this chip answers to: its own, one it was promoted to (R306), one it stands in for (R303). -/
def ownAddresses (s : State) : List BlockAddr :=
  ownAddr s :: s.troupes.flatMap fun e => e.2.address.toList ++ e.2.mirror.standIn.toList

/-- The checks of Table 6.12, in order. -/
def checkFrame (s : State) (f : List Byte) : Checked :=
  if f.length < 64 then .runt
  else if f.length > 9216 then .oversize
  else if ! fcsOk f then .fcs
  else if frameEther f == 0x8808 then
    (if macOpcode f == 0x0101 && f.length == 64 then .ok .pfc else if macOpcode f == 0x0001 then .ok .pause else .ok .foreign)
  else if frameEther f != 0x88B5 || ! frameTagged f then .ok .foreign
  else if frameVid f != s.house.vid then .vlan
  else
    let type := frameType f
    let mine := (ownAddresses s).contains (frameDst f) || frameDst f == groupAddr
    if ! mine then (if linkLocal type then .misaddressed else .ok .passing)
    else if bodyField f 0 1 != 2 then .malformed 5
    else match controlKind type with
      | some k =>
        if f.length != 64 then .malformed 7
        else if framePcp f != 6 then .malformed 8
        else if ! controlOk f then .malformed 9
        else .ok k
      | none =>
        if ! (1 ≤ type && type ≤ 4) then .malformed 6
        else if f.length < 358 || f.length > 8294 || bodyField f 6 2 % 256 != 0 || bodyField f 6 2 + 102 != f.length
        then .malformed 7
        else
          let c := readCar f
          match clsOf (bits (bodyField f 2 1) 6 2) with
          | none => .malformed 8
          | some cls =>
            if framePcp f != cls.pcp then .malformed 8
            else if ! shadowOk f then .malformed 9
            else if ! formOk c then .malformed 10
            else if field f (82 + c.payload.length) 8 != (crc64 c.payload).toNat then .malformed 11
            else if ! contentOk c then .malformed 12
            else .ok (carKind c)

/-- Count a frame dropped at check 1; the 64th of a tick gives one record (R235). -/
def dropAtOne (port k : Nat) (s : State) : State :=
  let s := modPort (portGauge s port k 1) port fun q => { q with dropped := q.dropped + 1 }
  if (portOf s port).dropped = 64 then
    record { sub := .portComplex, status := .integrity, detail := port * 2 ^ 9 + 2 ^ 12 } s
  else s

/-- Drop a frame that failed checks 5 to 12: the gauge, and at most one record per port and tick (R166). -/
def dropMalformed (port check : Nat) (f : List Byte) (s : State) : State :=
  let s := portGauge s port (3 + check) 1
  if check = 11 then s
  else if s.log.portSeen.contains port then suppress s
  else
    let line := bodyField f (if (controlKind (frameType f)).isSome then 3 else 4) 2 % 512
    record { sub := if check = 12 then .coachbuilder else .portComplex
             status := if check = 9 then .integrity else .badArg
             detail := line + port * 2 ^ 9 + check * 2 ^ 12 + bodyField f 2 1 % 64 * 2 ^ 16 }
      { s with log := { s.log with portSeen := port :: s.log.portSeen } }

/-- Whether a port receives frames: its link is lit. -/
def receives (s : State) (port : Nat) : Bool := (portOf s port).link == .lit

/-- A frame received on a port: its gauge, and the idle time of R248, which TICK frames leave running. -/
def received (port : Nat) (k : Checked) (s : State) : State :=
  let s := portGauge s port 0 1
  if k = .ok .tick then s else modPort s port fun q => { q with idle := 0 }

/-- A frame that has arrived on a port, for one kind of frame: the checks of Table 6.12, then the kind's own effect. A
frame of another kind leaves this row without effect (log entry 23). -/
def arrived (kind : Kind) (port : Nat) (f : List Byte) (handler : State → State) (s : State) : State :=
  if ! receives s port then s
  else
    let got := received port (checkFrame s f)
    match checkFrame s f with
    | .ok k => if k = kind then handler (got s) else s
    | .runt => dropAtOne port 2 (got s)
    | .oversize => dropAtOne port 3 (got s)
    | .fcs => dropAtOne port 4 (got s)
    | .vlan => portGauge (got s) port 6 1
    | .misaddressed => portGauge (got s) port 7 1
    | .malformed k => dropMalformed port k f (got s)

/-- The arrival of a frame on a port, dt ck after the last event. -/
def arrive (kind : Kind) (dt port : Nat) (f : List Byte) (handler : State → State) (s0 : State) : State :=
  arrived kind port f handler (passCk dt s0)

/-- Whether a torus port is of an axis of length 1, once the pod is set (R402). -/
def loneAxis (s : State) (port : Nat) : Bool := s.house.podSet && port < 6 && s.house.dims.on (port / 2) == 1

/-- Whether a port carries TICK frames only: a miswired port, one of an axis of length 1 (R402), one that has failed and is
relit (R244), or a wing port that awaits verification (R246). -/
def ticksOnly (s : State) (port : Nat) : Bool :=
  (portOf s port).miswired || loneAxis s port || (portOf s port).failed || (port ≥ 6 && (portOf s port).expected.isSome && ! (portOf s port).verified)

/-- The arrival of a frame of a kind that a closed house ignores or that a TICK-only port does not carry (R246);
`carriage` counts it in the "closed" gauge. -/
def arriveOpen (kind : Kind) (carriage : Bool) (dt port : Nat) (f : List Byte) (handler : State → State)
    (s0 : State) : State :=
  arrive kind dt port f (fun s =>
    if ! s.house.doorsOpen then (if carriage then portGauge s port 22 1 else s)
    else if ticksOnly s port then s
    else handler s) s0

end Sys2Proof.Machine
end

