-- ==== Sys2Proof/Machine/LineOps.lean ====
section
/-! DEFINITION. The shared operations of Lines: control frames and their routes, acknowledgement, completion records,
epochs, faults and the window (R202, R205–R225, R240). -/

namespace Sys2Proof.Machine

open Sys2Proof

/-- Line l of a troupe. -/
def lineOf (tr : Troupe) (l : Nat) : Line := tabGetD tr.lines l {}
/-- Change line l of troupe t. -/
def modLine (s : State) (t l : Nat) (f : Line → Line) : State :=
  modTroupe s t fun tr => { tr with lines := tabPut tr.lines l (f (lineOf tr l)) }
/-- Change peer i of a line. -/
def modPeer (s : State) (t l i : Nat) (f : Peer → Peer) : State :=
  modLine s t l fun ln => { ln with peers := ln.peers.modify i f }
/-- Peer i of line l. -/
def peerOf (s : State) (t l i : Nat) : Option Peer := (lineOf (troupe s t) l).peers[i]?
/-- The index of a peer by its address. -/
def peerIndex (ln : Line) (a : BlockAddr) : Option Nat := ln.peers.findIdx? fun p => p.addr == a

/-- The route class of a line: a carousel's k-th line has class k, a point line class 0 (R240). -/
def routeClass (tr : Troupe) (l : Nat) : Nat :=
  ((tr.carousels.filterMap fun e => (e.2.lines.take e.2.count).findIdx? (· == l % 512)).head?).getD 0

/-! ### Routing what this chip sends (R240, R243) -/

/-- What a routing entry makes of a frame. -/
inductive Route where
  | out (port : Nat)
  | drop (port counter : Nat)
  | broken (port : Nat)
  deriving DecidableEq, Repr

/-- Judge an entry; `here` is the port that counts when the entry's pair is broken. -/
def judgeEntry (s : State) (e : Pair (BitVec 32)) (here : Nat) : Route :=
  let p := entryPort e.val
  if ! whole e then .broken here
  else if ! entryValid e.val then .drop p 7
  else if entryCut e.val then .drop p 19
  else if (portOf s p).failed then .drop p 21
  else .out p

/-- The route of a frame that originates here, in the active bank of the troupe's slice. -/
def originRoute (s : State) (t cls : Nat) (dst : BlockAddr) : Route :=
  match (troupe s t).slice with
  | none => .drop 0 7
  | some r =>
    let sl := sliceOf s r
    judgeEntry s (bankEntry sl sl.active (entryKey (destIndex (coordOf dst)) cls)) 0

/-- Count a frame that meets a broken entry; the first find writes a record (R240). -/
def brokenRoute (r : Nat) (bank : Bool) (key port : Nat) (s : State) : State :=
  let s := portGauge s port 7 1
  if (sliceOf s r).found.contains (bank, key) then s
  else
    record { sub := .portComplex, status := .integrity, address := place r kindRoute (key * 2 + bitOf bank) }
      (modSlice s r fun sl => { sl with found := (bank, key) :: sl.found })

/-- Queue a control frame of a line's troupe towards a chip: it leaves on the port that the route names (R240). -/
def sendControl (t cls : Nat) (dst : BlockAddr) (frame : List Byte) (s : State) : State :=
  match originRoute s t cls dst with
  | .out p => modPort s p fun q => { q with
      control := q.control ++ [frame]
      matched := q.matched ++ ((troupe s t).slice.map fun r => (frame, r, (sliceOf s r).epoch)).toList }
  | .drop p k => portGauge s p k 1
  | .broken p =>
    match (troupe s t).slice with
    | none => s
    | some r => brokenRoute r (sliceOf s r).active (entryKey (destIndex (coordOf dst)) cls) p s

/-- The address that this chip sends under on a line: the one it was promoted to (R306), or its own; a line numbered
from 512 is a line of the lost address that it stands in for (R303). -/
def lineAddr (s : State) (t l : Nat) : BlockAddr :=
  if l < 512 then ((troupe s t).address).getD (ownAddr s) else ((troupe s t).mirror.standIn).getD (ownAddr s)

/-- A control frame of line l addressed to a chip: body bytes 3–4 name the line (Table 6.11). -/
def controlTo (s : State) (type t l : Nat) (fields : List (Nat × Nat × Nat)) (dst : BlockAddr) : List Byte :=
  ctlFrame type (t % 64) ((3, 2, l % 512) :: fields) dst (lineAddr s t l) s.house.vid
/-- A link-local control frame. -/
def controlLink (s : State) (type byte2 : Nat) (fields : List (Nat × Nat × Nat)) : List Byte :=
  ctlFrame type byte2 fields groupAddr (ownAddr s) s.house.vid
/-- Queue a link-local control frame on a port. -/
def sendLink (port type byte2 : Nat) (fields : List (Nat × Nat × Nat)) (s : State) : State :=
  modPort s port fun q => { q with control := q.control ++ [controlLink s type byte2 fields] }

/-- The active table epoch of a troupe's slice. -/
def tableEpoch (s : State) (t : Nat) : BitVec 16 :=
  ((troupe s t).slice.map fun r => (sliceOf s r).epoch).getD 0

/-! ### ACK, NAK, KNOCK, PROBE (Table 6.11) -/

/-- The echo fields: timestamp, hold in units of 16 ck, validity (R156). -/
def echoFields (now : Nat) (p : Peer) : Nat × Nat × Bool :=
  match p.echo with
  | none => (0, 0, false)
  | some (ts, at_) => (ts.toNat, capAt 0xFFFF ((now - at_) / 16), true)

/-- Send an ACK with the cumulative sequence x − 1 (R214). -/
def sendAck (t l i : Nat) (s : State) : State :=
  match peerOf s t l i with
  | none => s
  | some p =>
    let e := echoFields s.house.ck p
    let fields := [(5, 2, (lineOf (troupe s t) l).epoch.toNat), (7, 4, (p.expected.val - 1).toNat),
      (11, 4, e.1), (15, 2, e.2.1), (17, 1, bitOf e.2.2)]
    modPeer (sendControl t (routeClass (troupe s t) l) p.addr (controlTo s 0x80 t l fields p.addr) s) t l i
      fun p => { p with unacked := 0 }

/-- Send a NAK of a reason to an address (R213, R199). -/
def sendNak (t l : Nat) (dst : BlockAddr) (epoch : BitVec 16) (first : BitVec 32) (reason : Nat)
    (echo : Nat × Nat × Bool) (s : State) : State :=
  let fields := [(5, 2, epoch.toNat), (7, 4, first.toNat), (11, 4, echo.1), (15, 2, echo.2.1),
    (17, 1, bitOf echo.2.2 + reason * 2)]
  sendControl t (routeClass (troupe s t) l) dst (controlTo s 0x81 t l fields dst) s

/-- Send a KNOCK to peer i with the next knock number; its timer runs from now at a stage (R218). -/
def sendKnock (t l i stage : Nat) (s : State) : State :=
  match peerOf s t l i with
  | none => s
  | some p =>
    let req := (lineOf (troupe s t) l).requested.getD 0
    let n := p.knock + 1
    let fields := [(5, 2, req.toNat), (7, 2, (tableEpoch s t).toNat), (9, 2, n.toNat),
      (11, 8, s.house.tick)]
    modPeer (sendControl t (routeClass (troupe s t) l) p.addr (controlTo s 0x85 t l fields p.addr) s) t l i
      fun p => { p with knock := n, knockStage := stage, knockTimer := some s.house.ck, retryAt := none,
                        firstDue := false }

/-- Knock every peer of a line. -/
def knockAll (t l : Nat) (s : State) : State :=
  (List.range (lineOf (troupe s t) l).peers.length).foldl (fun s i => sendKnock t l i 0 s) s

/-- Send a final acknowledgement to every peer (R219); each is kept to be sent again (Table 8.9). -/
def finalAcks (t l : Nat) (s : State) : State :=
  (List.range (lineOf (troupe s t) l).peers.length).foldl (fun s i =>
    modPeer (sendAck t l i s) t l i fun p =>
      { p with final := some ((lineOf (troupe s t) l).epoch, p.expected.val - 1) }) s

/-- Send the kept final acknowledgement of peer i again. -/
def sendFinal (t l i : Nat) (s : State) : State :=
  match (peerOf s t l i).bind fun p => p.final.map fun f => (p, f) with
  | none => s
  | some (p, f) =>
    let e := echoFields s.house.ck p
    let fields := [(5, 2, f.1.toNat), (7, 4, f.2.toNat), (11, 4, e.1), (15, 2, e.2.1), (17, 1, bitOf e.2.2)]
    sendControl t (routeClass (troupe s t) l) p.addr (controlTo s 0x80 t l fields p.addr) s

/-- Send a KNOCK_ANSWER (R218). -/
def sendAnswer (t l : Nat) (dst : BlockAddr) (epoch knock : BitVec 16) (st : Status) (retry : Nat) (s : State) :
    State :=
  let fields := [(5, 2, epoch.toNat), (7, 2, (tableEpoch s t).toNat), (9, 2, knock.toNat),
    (11, 1, statusCode st), (12, 2, retry)]
  sendControl t (routeClass (troupe s t) l) dst (controlTo s 0x86 t l fields dst) s

/-! ### Operations and their completion (R204, R206) -/

/-- The completion record of Table 8.4. -/
def lineRecord (st : Status) (epoch : BitVec 16) (bytes : Nat) : List Byte :=
  leBytes 4 (statusCode st + epoch.toNat * 2 ^ 8) ++ leBytes 4 (if st = .done then bytes else 0) ++
    List.replicate 8 0

/-- A ring's taken work ends. -/
def ringEnd (t ring : Nat) (s : State) : State :=
  modTroupe s t fun tr => { tr with rings := tabMod tr.rings ring fun r => { r with inFlight := r.inFlight - 1 } }

/-- End an operation: its record, then its cue once (R206). -/
def endOp (t : Nat) (epoch : BitVec 16) (op : LineOp) (st : Status) (s : State) : State :=
  signalField t op.cue (pokeHbm (ringEnd t op.ring s) op.compl.toNat (lineRecord st epoch op.bytes))

/-- End operations in descriptor order with one status. -/
def endOps (t : Nat) (epoch : BitVec 16) (ops : List LineOp) (st : Status) (s : State) : State :=
  ops.foldl (fun s op => endOp t epoch op st s) s

/-- Whether an operation has nothing left to wait for but the earlier ones of its line: its carriages are all acknowledged,
or it sends no more (R204, R206). -/
def LineOp.over (op : LineOp) : Bool := op.allAcked || op.ended.isSome

/-- The operations at the head of a line that are finished (R206: in descriptor order). -/
def finishedOps (ops : List LineOp) : List LineOp := ops.takeWhile LineOp.over

/-- Complete the finished operations of a line; a CLOSING line whose last one completed closes (Table 8.7). -/
def completeOps (t l : Nat) (s : State) : State :=
  let ln := lineOf (troupe s t) l
  let fin := finishedOps ln.ops
  let s := fin.foldl (fun s op => endOp t ln.epoch op (op.ended.getD .done) s)
    (modLine s t l fun ln => { ln with ops := ln.ops.drop fin.length })
  let ln := lineOf (troupe s t) l
  if ln.state.val == .closing && ln.ops.isEmpty && ln.waiting.isEmpty && ln.peers.all (fun p => p.out.isEmpty)
      && ! (troupe s t).sheet.any (fun f => f.car.line == l) then
    completeDeferred t (· == .lineClose l) .done [] (modLine s t l fun ln => { ln with state := Pair.of .closed })
  else s

/-! ### Unsent carriages (R169, R171, R198, R220) -/

/-- Take a line's carriages off the cue sheet: those kept go back to wait for new sequence numbers. -/
def withdraw (t l : Nat) (keep : OutFrame → Bool) (s : State) : State :=
  modTroupe s t fun tr =>
    let back := (tr.sheet.filter fun f => f.car.line == l && keep f).map fun f =>
      { f with seqd := false, port := none, drawn := none, stranded := false }
    let ln := lineOf tr l
    { tr with sheet := tr.sheet.filter fun f => f.car.line != l
              lines := tabPut tr.lines l { ln with waiting := back ++ ln.waiting.filter keep } }

/-- A frame's operation, if it is one of some operations. -/
def ofOps (ops : List LineOp) (f : OutFrame) : Bool :=
  match f.opId with
  | none => false
  | some i => ops.any fun o => o.id == i

/-- The port that a waiting frame will leave on, as the active bank routes it. -/
def framePort (s : State) (t : Nat) (f : OutFrame) : Nat :=
  match originRoute s t f.cls f.dst with
  | .out p => p
  | .drop p _ => p
  | .broken p => p

/-- The dispatch item of a frame: its number, or for a fence carriage its line and peer. -/
def OutFrame.entry (f : OutFrame) : Nat × Nat × Nat := if f.item = 0 then (0, f.car.line, f.peer) else (f.item, 0, 0)

/-- The entries of a port's cue sheet: dispatch items of every troupe. -/
def sheetCount (s : State) (port : Nat) : Nat :=
  (s.troupes.map fun e => ((sheetFor e.2 port).map OutFrame.entry).eraseDups.length).sum

/-- Whether a frame has its place on the cue sheet of a port: its item is there, or there is room for it. -/
def sheetRoom (s : State) (t port : Nat) (f : OutFrame) : Bool :=
  ((sheetFor (troupe s t) port).any fun g => g.entry == f.entry) || decide (sheetCount s port < 8192)

/-- Of some bookings, the one that a class draws on: of that class, else of class G, else the first (R41). -/
def bookingFor (cls : Cls) (named : Tab Booking) : Option Nat :=
  let ofCls (c : Cls) := named.find? fun e => e.2.cls == c
  (((ofCls cls).orElse fun _ => ofCls .g).orElse fun _ => named.head?).map (·.1)

/-- The charge of a frame on its port: its ring's, else the step's booking (R41, R43). -/
def chargeOf (tr : Troupe) (f : OutFrame) (port : Nat) : Charge :=
  match f.charge with
  | some c => c
  | none =>
    match f.step.bind (stepOf tr) with
    | none => .shaper
    | some r =>
      match bookingFor f.car.cls (tr.bookings.filter fun e => r.bookings.getLsbD e.1 && e.2.port == port) with
      | some b => .booking b
      | none => .shaper

/-- The booking of the troupe that a booked frame draws on at a port where its own no longer is (R48, R195): one that its
step names, else another there. -/
def otherBooking (tr : Troupe) (f : OutFrame) (port : Nat) : Option Nat :=
  let there := tr.bookings.filter fun e => e.2.port == port
  match chargeOf tr f port with
  | .booking c => if there.any (·.1 == c) then some c else bookingFor f.car.cls there
  | _ => bookingFor f.car.cls there

/-- What a frame draws on when it is resent (R43, R51, R195): what its ring is bound to, else a booking on the port where
it leaves. -/
def recharge (tr : Troupe) (f : OutFrame) (port : Nat) : Charge :=
  match f.drawn, f.charge with
  | some (.booking b), none => .booking ((otherBooking tr f port).getD b)
  | _, _ => chargeOf tr f port

/-- Whether a booking is one on a port. -/
def bookedOn (tr : Troupe) (port b : Nat) : Bool := (tabGet tr.bookings b).any fun k => k.port == port

/-- A booked frame of the cue sheet when a scene opens on changed bookings (R48): one whose booking has left its port, or is
gone, draws on another booking of the troupe there, or waits for one; it is not sent outside a booking. -/
def rebook (old new : Troupe) (f : OutFrame) : OutFrame :=
  match f.port, f.drawn with
  | some p, some (.booking b) =>
    if f.stranded || (bookedOn old p b && ! bookedOn new p b) || (tabGet new.bookings b).isNone then
      match otherBooking new f p with
      | some c => { f with drawn := some (.booking c), stranded := false }
      | none => { f with stranded := true }
    else f
  | _, _ => f

/-- Give the waiting carriages of an OPEN line their sequence numbers as they enter the cue sheet (R169), up to 8,192
items per port; the first that cannot enter holds the later ones of its line. -/
def enterFrames (t l : Nat) : List OutFrame → State → State
  | [], s => s
  | f :: r, s =>
    let port := framePort s t f
    match peerOf s t l f.peer with
    | none => s
    | some p =>
      if ! sheetRoom s t port f then s
      else
        let tr := troupe s t
        let ln := lineOf tr l
        let f := { f with
          port := some port, drawn := some (chargeOf tr f port), seqd := true
          car := { f.car with seq := p.next.val, lineEpoch := ln.epoch, tableEpoch := tableEpoch s t } }
        let s := modTroupe s t fun tr => { tr with sheet := tr.sheet ++ [f] }
        let s := modLine s t l fun ln => { ln with
          waiting := ln.waiting.drop 1
          peers := ln.peers.modify f.peer fun p => { p with next := ⟨p.next.val + 1, p.next.flaw⟩ } }
        enterFrames t l r s

/-- Whether a line word or peer word is broken (R202). -/
def lineBroken (ln : Line) : Bool :=
  ! whole ln.state || ln.peers.any fun p => ! (whole p.next && whole p.oldest && whole p.expected)

/-- Move what waits on a line onto the cue sheet. -/
def enterLine (t l : Nat) (s : State) : State :=
  let ln := lineOf (troupe s t) l
  if (ln.state.val == .opened || ln.state.val == .closing) && ! lineBroken ln then enterFrames t l ln.waiting s
  else s

/-- Move what waits on every line of a troupe onto the cue sheet. -/
def enterAll (t : Nat) (s : State) : State :=
  ((troupe s t).lines.map (·.1)).foldl (fun s l => enterLine t l s) s

/-! ### Faults (R202, R217) -/

/-- Whether a line is the troupe's mirror line in use (R287). -/
def mirrorLine (tr : Troupe) (l : Nat) : Bool := tr.pairLine == l && (tr.pairMode != .none || tr.pairTrickle)

/-- Whether a line carries collective carriages: a carousel line, or the mirror line (R198, R217). -/
def carriesCollectives (tr : Troupe) (l : Nat) : Bool := (lineOf tr l).carousel || mirrorLine tr l

/-- The words of a line as a reset or a close writes them: whole (R335). -/
def Line.rewrite (ln : Line) (st : LineState) : Line :=
  { ln with
    state := Pair.of st
    peers := ln.peers.map fun p => { p with
      next := Pair.of p.next.val, oldest := Pair.of p.oldest.val, expected := Pair.of p.expected.val
      timer := none, goBack := [], knockTimer := none, retryAt := none, firstDue := false } }

/-- A line faults: operations end with TIMEOUT, one record, the curtain if it carries collectives (R217). -/
def faultLine (t l : Nat) (r : Rec) (s : State) : State :=
  let ln := lineOf (troupe s t) l
  let s := endOps t ln.epoch ln.ops .timeout s
  let s := withdraw t l (fun f => f.opId.isNone && ! f.car.fence) s
  let s := modLine s t l fun ln => { ln with
    state := Pair.of .faulted, ops := [],
    peers := ln.peers.map fun p => { p with out := [], goBack := [], timer := none, knockTimer := none, retryAt := none } }
  let s := record r (gauge s t 0x428 1)
  if carriesCollectives (troupe s t) l then curtain (some 8) t s else s

/-- The record of a line fault. -/
def lineRec (t l : Nat) (st : Status) (address : Nat) : Rec :=
  { sub := .lines, status := st, who := some t, address := address, detail := l }

/-- The place of the first broken word among a peer's three words (Tables 8.1 and 8.2). -/
def Peer.flaw (p : Peer) : Option Nat :=
  if ! whole p.next then some 0 else if ! whole p.oldest then some 8 else if ! whole p.expected then some 16 else none

/-- The address of the first broken word of a line: in its entry, or in a peer record of a carousel line (R201, R202). -/
def brokenAddress (t l : Nat) (ln : Line) : Nat :=
  if ! whole ln.state then place t kindLine l
  else match ln.peers.zipIdx.findSome? fun e => e.1.flaw.map fun k => (e.2, k) with
    | some (i, k) => if ln.carousel then place t kindPeer l + 32 * i + k else place t kindLine l + 8 + k
    | none => place t kindLine l

/-- Judge a line's words before it is used: a broken one puts the line into FAULTED (R202). -/
def checkLine (t l : Nat) (s : State) : State :=
  let ln := lineOf (troupe s t) l
  if ln.state.val != .closed && ln.state.val != .faulted && lineBroken ln then
    faultLine t l (lineRec t l .integrity (brokenAddress t l ln)) s
  else s

/-- Use a line: a broken word faults it instead (R202). -/
def useLine (t l : Nat) (f : State → State) (s : State) : State :=
  if lineBroken (lineOf (troupe s t) l) then checkLine t l s else f s

/-! ### Epochs (R219–R223) -/

/-- A fence carriage (R221). -/
def fenceCar (s : State) (t l : Nat) : Car :=
  { type := 1, cls := .d, enc := 0, op := 0, troupe := t, line := l, count := 0, fence := true
    scripted := scripted s (troupe s t), payload := List.replicate 256 0 }

/-- End the operations of an epoch that is left: DONE where every carriage was acknowledged, FENCED where any was sent,
kept otherwise (R220). -/
def leaveEpoch (t l : Nat) (s : State) : State :=
  let ln := lineOf (troupe s t) l
  let s := ln.ops.foldl (fun s op =>
    if op.allAcked then endOp t ln.epoch op .done s
    else if op.sent then gauge (endOp t ln.epoch op .fenced s) t 0x430 1
    else s) s
  let kept := ln.ops.filter fun op => ! op.allAcked && ! op.sent
  let s := withdraw t l (fun f => ! f.car.fence && (f.opId.isNone || ofOps kept f)) s
  modLine s t l fun ln => { ln with ops := kept }

/-- Enter a new epoch: sequences at 0, the window at its start, a fence carriage to each peer at sequence 0 (R211,
R221, R225). -/
def openEpoch (t l : Nat) (epoch : BitVec 16) (s : State) : State :=
  let s := leaveEpoch t l s
  let s := modLine s t l fun ln => { ln with
    state := Pair.of .opened, epoch := epoch, requested := none
    peers := ln.peers.map fun p => { p with
      next := Pair.of 0, oldest := Pair.of 0, expected := Pair.of 0, stage := 0, timer := none, out := [],
      goBack := [], unacked := 0, nakAt := none, knockTimer := none, retryAt := none, granted := none,
      fenced := false, window := 133024, samples := [], decreased := none, sampledAt := none, probedAt := none } }
  let car := fenceCar s t l
  let fences := (lineOf (troupe s t) l).peers.zipIdx.map fun e =>
    ({ car := car, peer := e.2, dst := e.1.addr, cls := routeClass (troupe s t) l, charge := some .shaper,
       itemWire := car.wire } : OutFrame)
  completeOps t l (enterLine t l (modLine s t l fun ln => { ln with waiting := fences ++ ln.waiting }))

/-- Whether every peer of a line has granted one and the same epoch (R218). -/
def allGranted (ln : Line) : Option (BitVec 16) :=
  match ln.peers with
  | [] => none
  | p :: _ => if ln.peers.all fun q => q.granted == p.granted then p.granted else none

/-- The curtain of a carousel reset, for a step that is CALLED (R223). -/
def resetCurtain (t l : Nat) (s : State) : State :=
  let tr := troupe s t
  if (lineOf tr l).carousel && (lastStep tr).any (fun r => r.state.val == .called) then curtain (some 8) t s else s

/-- An end that leaves its epoch knocks all peers for a later one; what it has not sent leaves the cue sheet (R198, R218,
R223). -/
def askEpoch (t l : Nat) (epoch : BitVec 16) (s : State) : State :=
  let s := withdraw t l (fun f => ! f.car.fence) s
  let s := modLine s t l fun ln => { ln.rewrite .resetting with requested := some epoch }
  let s := modLine s t l fun ln => { ln with peers := ln.peers.map fun p => { p with granted := none, fenced := false } }
  knockAll t l s

/-- Begin a reset of a line: from OPEN with final acknowledgements, from FAULTED with words rewritten whole; knock for
epoch + 1; what is unsent waits for the new epoch (Table 8.7, R198, R219, R223). -/
def beginReset (t l : Nat) (s : State) : State :=
  let ln := lineOf (troupe s t) l
  let s := resetCurtain t l s
  let s := if ln.state.val == .opened then finalAcks t l s else s
  askEpoch t l (ln.epoch + 1) s

/-- Close a line at once: operations end with a status, what is unsent of collectives waits (R400, Table 8.7). -/
def closeLine (t l : Nat) (st : Status) (s : State) : State :=
  let ln := lineOf (troupe s t) l
  let first := if ln.state.val == .resetting then ln.ops.filter (·.allAcked) else []
  let rest := if ln.state.val == .resetting then ln.ops.filter fun o => ! o.allAcked else ln.ops
  let s := endOps t ln.epoch rest st (endOps t ln.epoch first .done s)
  let s := withdraw t l (fun f => f.opId.isNone && ! f.car.fence) s
  modLine s t l fun ln =>
    let shut := ln.rewrite .closed
    { shut with ops := [], requested := none,
                peers := shut.peers.map fun p => { p with out := [], granted := none } }

/-! ### Acknowledgement and the window (R213–R216, R225) -/

/-- Sequence a is before sequence b (R211). -/
def seqBefore (a b : BitVec 32) : Bool :=
  let d := (b - a).toNat
  1 ≤ d && d ≤ 2 ^ 31 - 1

/-- An operation that an acknowledged carriage belongs to counts it (R207). -/
def countAcked (ops : List LineOp) (f : OutFrame) : List LineOp :=
  match f.opId with
  | none => ops
  | some i => ops.map fun o =>
      if o.id == i then
        { o with acked := o.acked + 1, allAcked := if o.kind = 2 then o.allAcked else o.acked + 1 == o.cars }
      else o

/-- The phases of a step when a carriage of its mirror is acknowledged (Table 14.6). -/
def mirrorAcked (s : State) (tr : Troupe) (f : OutFrame) : Troupe :=
  match f.step with
  | some n => if f.car.coll && f.car.subject == 10 then modStep tr n fun r => r.phase 7 fun p => p.stop s else tr
  | none => tr

/-- The lowest sequence sent to a peer and not acknowledged; with nothing outstanding, the one sent next (R200): the first
that a cue sheet holds, else the next to be given. -/
def oldestOf (tr : Troupe) (l i : Nat) (kept : List (OutFrame × Nat)) (p : Peer) : BitVec 32 :=
  match kept with
  | e :: _ => e.1.car.seq
  | [] => ((tr.sheet.find? fun f => f.car.line == l && f.peer == i).map (·.car.seq)).getD p.next.val

/-- Acknowledge every outstanding carriage before a sequence: the wire bytes newly acknowledged (R214, R215, R216). -/
def ackBefore (t l i : Nat) (seq : BitVec 32) (s : State) : State × Nat :=
  match peerOf s t l i with
  | none => (s, 0)
  | some p =>
    let gone := p.out.filter fun e => seqBefore e.1.car.seq seq
    let kept := p.out.filter fun e => ! seqBefore e.1.car.seq seq
    if gone.isEmpty then (s, 0)
    else
      let s := modLine s t l fun ln => { ln with ops := gone.foldl (fun ops e => countAcked ops e.1) ln.ops }
      let s := modTroupe s t fun tr => gone.foldl (fun tr e => mirrorAcked s tr e.1) tr
      let s := modPeer s t l i fun p => { p with
        out := kept, oldest := ⟨oldestOf (troupe s t) l i kept p, p.oldest.flaw⟩
        goBack := p.goBack.filter fun q => ! seqBefore q seq
        stage := 0, timer := if kept.isEmpty then none else some s.house.ck
        fenced := p.fenced || gone.any fun e => e.1.car.fence }
      (s, (gone.map fun e => e.1.car.wire).sum)

/-- The epoch fence completion: every fence carriage of the epoch is acknowledged (R222). -/
def fenceDone (t l : Nat) (s : State) : State :=
  let ln := lineOf (troupe s t) l
  if ln.state.val == .opened && ln.peers.all (·.fenced) then completeDeferred t (· == .line l) .done [] s else s

/-- A round-trip sample steers the window (R225). -/
def sampleRtt (t l i r acked : Nat) (s : State) : State :=
  modPeer s t l i fun p =>
    let samples := (s.house.tick, r) :: p.samples.filter fun e => decide (s.house.tick < e.1 + 1024)
    let base := samples.foldl (fun a e => min a e.2) r
    let target := base + 3600
    let p := { p with samples := samples, sampledAt := some s.house.ck }
    if r ≤ target then
      { p with window := min 34054144 (p.window + 8314 * acked / p.window) }
    else if (p.out.head?.all fun e => p.decreased.all fun d => decide (d < e.2)) then
      { p with window := max 8314 (p.window - p.window * (r - target) / (2 * r)), decreased := some s.house.ck }
    else p

/-- The round-trip time of an echo (R156). -/
def rttOf (now : Nat) (echoTs : BitVec 32) (hold : Nat) : Nat :=
  ((BitVec.ofNat 32 now) - echoTs).toNat - 16 * hold

/-- A carriage as it is resent: on the port that its routing entry of now names, charged there (R51, R169, R195). -/
def rerouted (s : State) (t : Nat) (f : OutFrame) : OutFrame :=
  let port := framePort s t f
  { f with port := some port, drawn := some (recharge (troupe s t) f port) }

/-- Go back: resend every outstanding carriage from a sequence onward (R215). -/
def goBackFrom (t l i : Nat) (seq : BitVec 32) (s : State) : State :=
  gauge (modPeer s t l i fun p => { p with
    out := p.out.map fun e => (rerouted s t e.1, e.2)
    goBack := (p.out.map fun e => e.1.car.seq).filter fun q => ! seqBefore q seq }) t 0x418 1

/-- Close every line of a troupe with no record and no cue (R334): Table 8.7, last row. -/
def dropLines (t : Nat) (s : State) : State :=
  modTroupe s t fun tr =>
    { tr with sheet := [], lines := tr.lines.map fun e =>
        let shut := e.2.rewrite .closed
        let peers := shut.peers.map fun p => { p with out := [], granted := none, unacked := 0 }
        (e.1, { shut with ops := [], waiting := [], requested := none, peers := peers }) }

end Sys2Proof.Machine
end

