-- ==== Sys2Proof/Machine/LineCommands.lean ====
section
/-! DEFINITION. The LINE_ commands (R197–R202, R212, R218, R226, R400). -/

namespace Sys2Proof.Machine

open Sys2Proof

/-- The address that this chip has for a troupe: the one it was promoted to, or its own (R306). -/
def myAddr (s : State) (t : Nat) : BlockAddr := ((troupe s t).address).getD (ownAddr s)

/-- n block addresses from an HBM list of 8-B entries (R398). -/
def readAddresses (s : State) (a n : Nat) : List (BitVec 64) :=
  (List.range n).map fun k => BitVec.ofNat 64 (peekWord s (a + 8 * k) 8)

/-- Whether a member list is good: n block addresses in the form of R398, this chip's own exactly once (R198). -/
def membersOk (own : BlockAddr) (l : List (BitVec 64)) : Bool :=
  l.all addressOk && (l.filter fun a => a.setWidth 48 == own).length == 1

/-- Whether a deferred LINE_OPEN, LINE_RESET or LINE_CLOSE holds a line (R324). -/
def lineHeld (s : State) (t l : Nat) : Bool := holdsBy s t fun a => a == .line l || a == .lineClose l

/-- LINE_OPEN (R198, Table 8.7): knocks for the stored epoch + 1; a carousel line's first knocks wait for their turn
(R247). -/
def execLineOpen (p : Post) (line : BitVec 16) (flags : BitVec 8) (n : BitVec 16)
    (peer remoteBase remoteLen localBase localLen : BitVec 64) (payload share : BitVec 8) (s : State) : Out :=
  .next (serve p (.lineOpen p line flags n peer remoteBase remoteLen localBase localLen payload share)
    { gate := anyGate
      args := line.toNat < 512 && flags.toNat < 2 && inRange 1 32 payload.toNat && share.toNat ≤ 100
        && (if flags == 1 then inRange 1 16384 n.toNat
            else n == 0 && addressOk peer && remoteLen.toNat ≤ 2 ^ 40 && localLen.toNat ≤ 2 ^ 40)
      body := fun _ _ t s =>
        let l := line.toNat
        let ln := lineOf (troupe s t) l
        let carousel := flags == 1
        let list := readAddresses s peer.toNat n.toNat
        let members := list.map (·.setWidth 48)
        let own := myAddr s t
        let addrs := if carousel then members.filter (· != own) else [peer.setWidth 48]
        let fresh : Line := { ln with
          state := Pair.of .knocking, carousel := carousel, requested := some (ln.epoch + 1)
          remoteBase := if carousel then 0 else remoteBase, remoteLen := if carousel then 0 else remoteLen.toNat
          localBase := if carousel then 0 else localBase, localLen := if carousel then 0 else localLen.toNat
          payload := payload.toNat, share := share.toNat, standIn := false
          peers := addrs.map fun a => { addr := a, firstDue := carousel }
          members := if carousel then members else [], ops := [] }
        need (! carousel || membersOk own list) .badArg <|
        need (ln.state.val == .closed && ! lineHeld s t l) .state <|
        let s := modLine s t l fun _ => fresh
        if addrs.isEmpty then done (openEpoch t l (ln.epoch + 1) s)
        else .defer (if carousel then s else sendKnock t l 0 0 s) (.line l) [] } s)

/-- LINE_SET (R226): payload, windows and share of an OPEN line, as a new entry version. -/
def execLineSet (p : Post) (line : BitVec 16) (mask : BitVec 8)
    (peer remoteBase remoteLen localBase localLen : BitVec 64) (payload share : BitVec 8) (s : State) : Out :=
  .next (serve p (.lineSet p line mask peer remoteBase remoteLen localBase localLen payload share)
    { gate := anyGate
      args := line.toNat < 512 && mask.toNat < 16 && (! mask.getLsbD 0 || inRange 1 32 payload.toNat)
        && (! mask.getLsbD 3 || share.toNat ≤ 100) && (! mask.getLsbD 1 || remoteLen.toNat ≤ 2 ^ 40)
        && (! mask.getLsbD 2 || localLen.toNat ≤ 2 ^ 40)
      body := fun _ _ t s =>
        let l := line.toNat
        let ln := lineOf (troupe s t) l
        let samePeer := peer == 0 || (! ln.carousel && ln.peers.head?.any fun q => q.addr.toNat == peer.toNat)
        need (ln.state.val == .opened && ! lineHeld s t l && samePeer && ln.ops.all fun o => o.version == ln.version)
          .state <|
        done (modLine s t l fun ln => { ln with
          payload := if mask.getLsbD 0 then payload.toNat else ln.payload
          remoteBase := if mask.getLsbD 1 then remoteBase else ln.remoteBase
          remoteLen := if mask.getLsbD 1 then remoteLen.toNat else ln.remoteLen
          localBase := if mask.getLsbD 2 then localBase else ln.localBase
          localLen := if mask.getLsbD 2 then localLen.toNat else ln.localLen
          share := if mask.getLsbD 3 then share.toNat else ln.share
          version := (ln.version + 1) % 65536 }) } s)

/-- LINE_RESET (Table 8.7, R400): on an OPEN or FAULTED line. -/
def execLineReset (p : Post) (line : BitVec 16) (s : State) : Out :=
  .next (serve p (.lineReset p line)
    { gate := anyGate, args := line.toNat < 512
      body := fun _ _ t s =>
        let l := line.toNat
        let ln := lineOf (troupe s t) l
        need ((ln.state.val == .opened || ln.state.val == .faulted) && ! lineHeld s t l) .state <|
        if ln.peers.isEmpty then done (openEpoch t l (ln.epoch + 1) (resetCurtain t l s))
        else .defer (beginReset t l s) (.line l) [] } s)

/-- Complete the deferred LINE_OPEN or LINE_RESET of a line, as actions. -/
def endLineCommands (s : State) (t l : Nat) (st : Status) : List Act :=
  (s.deferred.filter fun d => d.target == t && d.awaits == .line l).map fun d => .complete d.issuer d.slot st []

/-- Whether a line has nothing left to send or to have acknowledged. -/
def lineEmpty (s : State) (t l : Nat) : Bool :=
  let tr := troupe s t
  let ln := lineOf tr l
  ln.ops.isEmpty && ln.peers.all (fun p => p.out.isEmpty) && ! tr.sheet.any fun f => f.car.line == l

/-- LINE_CLOSE (R400): served in every state of its line. -/
def execLineClose (p : Post) (line : BitVec 16) (s : State) : Out :=
  .next (serve p (.lineClose p line)
    { gate := anyGate, args := line.toNat < 512
      body := fun _ _ t s =>
        let l := line.toNat
        match (lineOf (troupe s t) l).state.val with
        | .closed => done s
        | .closing => .refuse .state
        | .opened =>
          if lineEmpty s t l then .finish .done (closeLine t l .closed s) [] (endLineCommands s t l .closed) []
          else .defer (modLine s t l fun ln => { ln with state := Pair.of .closing }) (.lineClose l)
            (endLineCommands s t l .closed)
        | _ =>
          let earlier := (s.deferred.filter fun d => d.target == t && d.awaits == .lineClose l).map fun d =>
            Act.complete d.issuer d.slot .done []
          .finish .done (closeLine t l .closed s) [] (endLineCommands s t l .closed ++ earlier) [] } s)

/-- The code of a line state (Table 8.1). -/
def LineState.code : LineState → Nat
  | .closed => 0 | .knocking => 1 | .opened => 2 | .resetting => 3 | .faulted => 4 | .closing => 5

/-- The first word of a line entry: state, carousel, epoch (Table 8.1). -/
def lineStateWord (ln : Line) : Nat := ln.state.val.code + bitOf ln.carousel * 8 + ln.epoch.toNat * 2 ^ 16

/-- The stored 64-bit word of a pair of sequence numbers. -/
def seqWord (p : Pair (BitVec 32)) : List Byte := leBytes 8 (pairWord p.val.toNat p.flaw).toNat

/-- The base round-trip time of a peer: the least sample that it holds (R225). -/
def baseRtt (p : Peer) : Nat := (p.samples.map (·.2)).foldl min ((p.samples.head?.map (·.2)).getD 0)

/-- A transport field of a line's entry, by its place: its peer's on a point line; a carousel line keeps it per peer, and
what its entry shows there the spec does not say (log entry 104). -/
def entryField (ln : Line) (at_ : Nat) (get : Peer → Nat) : Nat :=
  if ln.carousel then Config.carouselField at_ (ln.peers.map get) else get (ln.peers.headD { addr := 0 })

/-- The 128-B line table entry (Table 8.1). The sequence words of a carousel line stand in its peer records (R201); those
of its entry keep the value 0 (log entry 104). -/
def lineEntry (t l : Nat) (ln : Line) : List Byte :=
  let p := if ln.carousel then ({ addr := 0 } : Peer) else ln.peers.headD { addr := 0 }
  leBytes 8 (pairWord (lineStateWord ln) ln.state.flaw).toNat ++ seqWord p.next ++ seqWord p.oldest ++
    seqWord p.expected ++ leBytes 8 p.addr.toNat ++ leBytes 8 ln.remoteBase.toNat ++ leBytes 8 ln.remoteLen ++
    leBytes 8 ln.localBase.toNat ++ leBytes 8 ln.localLen ++ leBytes 1 ln.payload ++
    leBytes 1 (entryField ln 73 (·.stage) % 8) ++ leBytes 2 (entryField ln 74 (·.knock.toNat)) ++
    leBytes 4 (entryField ln 76 (·.window)) ++ leBytes 4 (entryField ln 80 baseRtt) ++ leBytes 2 ln.version ++
    leBytes 1 ln.share ++ [0] ++ leBytes 8 (if ln.carousel then place t kindPeer l else 0) ++ List.replicate 32 0

/-- LINE_STATE (R199): state, epoch and sequences; the whole entry at a non-zero address (log entry 25 for the places
of the results). -/
def execLineState (p : Post) (line : BitVec 16) (dest : BitVec 64) (s : State) : Out :=
  .next (serve p (.lineState p line dest)
    { gate := alwaysGate, args := line.toNat < 512
      body := fun _ _ t s =>
        let ln := lineOf (troupe s t) line.toNat
        let q := if ln.carousel then ({ addr := 0 } : Peer) else ln.peers.headD { addr := 0 }
        let s := if dest = 0 then s else pokeHbm s dest.toNat (lineEntry t line.toNat ln)
        doneWith s [res 0 1 ln.state.val.code, res 2 2 ln.epoch.toNat, res 4 4 q.next.val.toNat,
          res 8 4 q.oldest.val.toNat, res 12 4 q.expected.val.toNat] } s)

/-- LINE_AREA (R212): 16 MiB to 4 GiB. -/
def execLineArea (p : Post) (mib : BitVec 16) (s : State) : Out :=
  .next (serve p (.lineArea p mib)
    { gate := anyGate, args := inRange 16 4096 mib.toNat
      body := fun _ _ t s => done (modTroupe s t fun tr => { tr with area := mib.toNat }) } s)

end Sys2Proof.Machine
end

