-- ==== Sys2Proof/Machine/Book.lean ====
section
/-! DEFINITION. The BOOK_ commands (R39, R41, R42, R338). -/

namespace Sys2Proof.Machine

open Sys2Proof

/-- The class of a booking operand: 0 G, 1 F, 2 D. -/
def classArg (c : BitVec 8) : Option Cls := clsOf c.toNat

/-- Whether a ring of the troupe is bound to a booking (R43). -/
def ringBound (tr : Troupe) (b : Nat) : Bool := tr.rings.any fun e => e.2.binding == 1 && e.2.booking == b
/-- Whether the step in flight names a booking. -/
def stepNames (tr : Troupe) (b : Nat) : Bool := (flight tr).any fun r => r.bookings.getLsbD b

/-- BOOK_SET (R39, R41): creates or changes a booking; each change takes effect at the next tick or its later start, and
one served before it keeps its own tick. A suspended booking is judged against the grant alone (R338). An admitted booking wakes a dark port (Table 9.10). -/
def execBookSet (p : Post) (booking port cls : BitVec 8) (bytes : BitVec 32) (start stop : BitVec 64) (s : State) :
    Out :=
  .next (serve p (.bookSet p booking port cls bytes start stop)
    { gate := anyGate
      args := port.toNat < 8 && (classArg cls).isSome && (stop == 0 || start.toNat < stop.toNat)
      body := fun _ _ t s =>
        let b := booking.toNat
        let c := (classArg cls).getD .g
        let at_ := max (s.house.tick + 1) start.toNat
        let tr := troupe s t
        let suspended := tr.life == .intermission
        let old := tabGet tr.bookings b
        let change : BookChange := ⟨port.toNat, c, bytes.toNat, start.toNat, stop.toNat, at_⟩
        let kept := ((old.filter fun o => ! o.suspended).map (·.changes)).getD []
        let sp := spanAmong change kept
        let new : Booking := match old with
          | none => { port := port.toNat, cls := c, bytes := Pair.of bytes.toNat, start := start.toNat, stop := stop.toNat,
                      suspended := suspended, suspendedAt := 0 }
          | some o =>
            if o.suspended then
              { o with port := port.toNat, cls := c, bytes := Pair.of bytes.toNat, start := start.toNat,
                       stop := stop.toNat, changes := [], broken := false }
            else { o with changes := insertChange change o.changes }
        let held := suspended || (old.any (·.suspended))
        need (if held then grantAdmits s t b sp else admits s t b sp) .overbooked <|
        let s := modTroupe s t fun tr => { tr with bookings := tabPut tr.bookings b new }
        done (if (portOf s port.toNat).link == .dark then
            modPort s port.toNat fun q => { q with link := .relighting, relightSince := some s.house.ck }
          else declineDim port.toNat s) } s)

/-- BOOK_CLEAR (R41). The spec does not say whether a removal waits for the next scene as a change does: here the booking
is gone at once; a frame that drew on it waits for the next scene, which gives it another booking of its port or lets it
wait on (DESIGN CHOICE, log entry 91). -/
def execBookClear (p : Post) (booking : BitVec 8) (s : State) : Out :=
  .next (serve p (.bookClear p booking)
    { gate := anyGate
      body := fun _ _ t s =>
        let tr := troupe s t
        need ((tabGet tr.bookings booking.toNat).isSome) .noTarget <|
        need (! ringBound tr booking.toNat && ! stepNames tr booking.toNat) .state <|
        done (modTroupe s t fun tr => { tr with bookings := tabDel tr.bookings booking.toNat }) } s)

/-- BOOK_READ: the booking's parameters and the bytes it carried over. -/
def execBookRead (p : Post) (booking : BitVec 8) (s : State) : Out :=
  .next (serve p (.bookRead p booking)
    { gate := alwaysGate
      body := fun _ _ t s =>
        match tabGet (troupe s t).bookings booking.toNat with
        | none => .refuse .noTarget
        | some b => doneWith s [res 0 1 booking.toNat, res 1 1 b.port, res 2 1 b.cls.code,
            res 3 1 (bitOf b.suspended), res 4 4 b.bytes.val, res 8 8 b.start, res 16 8 b.stop, res 24 8 b.carried] } s)

end Sys2Proof.Machine
end

