-- ==== Sys2Proof/Machine/RingCue.lean ====
section
/-! DEFINITION. The RING_ and CUE_ commands (R325, R328–R330). -/

namespace Sys2Proof.Machine

open Sys2Proof

/-- A cue field of a command: reserved bits [14:10] are 0, and an enabled cue exists (Table 12.5). -/
def cueFieldOk (tr : Troupe) (w : BitVec 16) : Bool :=
  bits w.toNat 10 5 == 0 && (! w.getLsbD 15 || cueExists tr (w.toNat % 1024))

/-- RING_CREATE (R325). -/
def execRingCreate (p : Post) (ring : BitVec 16) (kind depth binding port booking : BitVec 8) (base : BitVec 64)
    (spaceCue : BitVec 16) (s : State) : Out :=
  .next (serve p (.ringCreate p ring kind depth binding port booking base spaceCue)
    { gate := anyGate
      args := ring.toNat < 4096 && inRange 1 3 kind.toNat && inRange 6 16 depth.toNat && binding.toNat < 3
        && port.toNat < 8 && base.toNat % 4096 == 0
      body := fun _ _ t s =>
        let tr := troupe s t
        let bindOk := if kind == 3 then binding == 0
          else binding == 2 || (binding == 1 && ! tr.bestEffort && (tabGet tr.bookings booking.toNat).isSome)
        need (bindOk && cueFieldOk tr spaceCue) .badArg <|
        need ((tabGet tr.rings ring.toNat).isNone) .state <|
        let new : Ring := { kind := kind.toNat, depth := 2 ^ depth.toNat, binding := binding.toNat
                            port := port.toNat, booking := booking.toNat, base := base, spaceCue := spaceCue }
        done (modTroupe s t fun tr => { tr with rings := tabPut tr.rings ring.toNat new }) } s)

/-- Descriptors that a ring holds: tail − head modulo 2^32 (R325). -/
def ringHeld (r : Ring) : Nat := (r.tail.val - r.head.val).toNat

/-- RING_DELETE (R325): an empty ring with nothing taken in flight. -/
def execRingDelete (p : Post) (ring : BitVec 16) (s : State) : Out :=
  .next (serve p (.ringDelete p ring)
    { gate := anyGate, args := ring.toNat < 4096
      body := fun _ _ t s =>
        match tabGet (troupe s t).rings ring.toNat with
        | none => .refuse .noTarget
        | some r =>
          need (ringHeld r == 0 && r.inFlight == 0) .state <|
          done (modTroupe s t fun tr => { tr with rings := tabDel tr.rings ring.toNat }) } s)

/-- The 64-B ring record (Table 12.5). -/
def ringRecord (r : Ring) : List Byte :=
  leBytes 1 r.kind ++ leBytes 1 (Nat.log2 r.depth) ++ leBytes 1 r.binding ++
    leBytes 1 (if r.binding = 2 then r.port else 0) ++ leBytes 1 (if r.binding = 1 then r.booking else 0) ++ [0, 0, 0] ++
    leBytes 8 r.base.toNat ++ leBytes 8 (pairWord r.head.val.toNat r.head.flaw).toNat ++
    leBytes 8 (pairWord r.tail.val.toNat r.tail.flaw).toNat ++ leBytes 2 r.spaceCue.toNat ++ List.replicate 30 0

/-- RING_STATE: the ring record. -/
def execRingState (p : Post) (ring : BitVec 16) (s : State) : Out :=
  .next (serve p (.ringState p ring)
    { gate := alwaysGate, args := ring.toNat < 4096
      body := fun _ _ t s =>
        match tabGet (troupe s t).rings ring.toNat with
        | none => .refuse .noTarget
        | some r => doneWith s [(0, ringRecord r)] } s)

/-- CUE_CREATE (R328). -/
def execCueCreate (p : Post) (cue : BitVec 16) (initial : BitVec 64) (s : State) : Out :=
  .next (serve p (.cueCreate p cue initial)
    { gate := anyGate, args := cue.toNat < 1024
      body := fun _ _ t s =>
        need (! cueExists (troupe s t) cue.toNat) .state <|
        done (modTroupe s t fun tr => { tr with cues := tabPut tr.cues cue.toNat { value := initial } }) } s)

/-- Whether a cue field names a cue. -/
def fieldNames (w : BitVec 16) (c : Nat) : Bool := w.getLsbD 15 && w.toNat % 1024 == c

/-- Whether a taken descriptor, a ring, a wait or a playbill entry names a cue; so does a command whose completion
signals it (log entry 26). -/
def cueNamed (s : State) (t c : Nat) : Bool :=
  let tr := troupe s t
  tr.taken.any (fun k => fieldNames k.cue c) || tr.chunks.any (fun e => e.2.slot.isSome && fieldNames e.2.cue c)
    || tr.rings.any (fun e => fieldNames e.2.spaceCue c) || tr.bill.any (fun e => fieldNames e.2.cue c)
    || ((tabGet tr.cues c).any fun q => ! q.waits.isEmpty)
    || tr.lines.any (fun e => e.2.ops.any fun o => fieldNames o.cue c)
    || tr.sieveCalls.any (fun k => fieldNames k.cue c) || tr.spills.any (fun k => fieldNames k.cue c)

/-- CUE_DELETE (R329). -/
def execCueDelete (p : Post) (cue : BitVec 16) (s : State) : Out :=
  .next (serve p (.cueDelete p cue)
    { gate := anyGate, args := cue.toNat < 1024
      body := fun _ _ t s =>
        need (cueExists (troupe s t) cue.toNat) .noTarget <|
        need (! cueNamed s t cue.toNat) .state <|
        done (modTroupe s t fun tr => { tr with cues := tabDel tr.cues cue.toNat }) } s)

/-- CUE_ADD (R329, R330): SATURATED or INTEGRITY come with the fence after the completion. -/
def execCueAdd (p : Post) (cue : BitVec 16) (increment : BitVec 64) (s : State) : Out :=
  .next (serve p (.cueAdd p cue increment)
    { gate := anyGate, args := cue.toNat < 1024 && inRange 1 (2 ^ 32) increment.toNat
      body := fun _ _ t s =>
        match tabGet (troupe s t).cues cue.toNat with
        | none => .refuse .noTarget
        | some q =>
          let r := cueAdd t cue.toNat increment.toNat s
          .finish (r.2.2.getD .done) r.1 [] r.2.1
            (r.2.2.toList.map fun st => .fault (cueMisuse t cue.toNat q st) none) } s)

/-- CUE_WAIT (R330): at service if the threshold is reached; at most 8 pending waits per cue. -/
def execCueWait (p : Post) (cue : BitVec 16) (threshold : BitVec 64) (timeout : BitVec 32) (notify : BitVec 64)
    (s : State) : Out :=
  .next (serve p (.cueWait p cue threshold timeout notify)
    { gate := anyGate, args := cue.toNat < 1024
      body := fun issuer slot t s =>
        match tabGet (troupe s t).cues cue.toNat with
        | none => .refuse .noTarget
        | some q =>
          if ! q.isWhole then
            .finish .integrity s [] [] [.fault (cueMisuse t cue.toNat q .integrity) none]
          else if threshold ≤ q.value then
            .finish .done s [] (if notify = 0 then [] else [.store notify.toNat (leBytes 8 q.value.toNat)]) []
          else
            need (decide (q.waits.length < 8)) .state <|
            let w : Wait := { issuer := issuer, slot := slot, threshold := threshold, notify := notify
                              expires := if timeout = 0 then none else some (s.house.tick + timeout.toNat) }
            .defer (modTroupe s t fun tr =>
                { tr with cues := tabPut tr.cues cue.toNat { q with waits := q.waits ++ [w] } })
              (.cueWait cue.toNat) [] } s)

/-- CUE_READ (R329). -/
def execCueRead (p : Post) (cue : BitVec 16) (s : State) : Out :=
  .next (serve p (.cueRead p cue)
    { gate := alwaysGate, args := cue.toNat < 1024
      body := fun _ _ t s =>
        match tabGet (troupe s t).cues cue.toNat with
        | none => .refuse .noTarget
        | some q =>
          if ! q.isWhole then .finish .integrity s [] [] [.fault (cueMisuse t cue.toNat q .integrity) none]
          else doneWith s [res 0 8 q.value.toNat] } s)

/-- CUE_WAIT_TIMEOUT (R330): a wait that has reached its timeout completes with TIMEOUT. -/
def execCueWaitTimeout (dt issuer slot : Nat) (s0 : State) : Out :=
  let s := passCk dt s0
  .next (match s.deferred.find? fun d => d.issuer == issuer && d.slot == slot with
    | some d =>
      match d.awaits with
      | .cueWait c =>
        match tabGet (troupe s d.target).cues c with
        | none => s
        | some q =>
          match q.waits.find? fun w => w.issuer == issuer && w.slot == slot && w.expires.any (· ≤ s.house.tick) with
          | none => s
          | some w =>
            let keep := q.waits.filter fun v => ! (v.issuer == issuer && v.slot == slot)
            run (endWait .timeout q.value w) (modTroupe s d.target fun tr =>
              { tr with cues := tabPut tr.cues c { q with waits := keep } })
      | _ => s
    | none => s)

end Sys2Proof.Machine
end

