-- ==== Sys2Proof/Machine/Graph.lean ====
section
/-! DEFINITION. The exchange graph: the layout of buckets, chunks, owners and home pits (R66, R69, R78, R79, R141,
R175, R176). -/

namespace Sys2Proof.Machine

open Sys2Proof

/-- n elements padded to a multiple of 32 (R69). -/
def pad32 (n : Nat) : Nat := cdiv n 32 * 32

/-- The key of a chunk: its tensor and its index. -/
def chunkKey (tensor chunk : Nat) : Nat := tensor * 2 ^ 32 + chunk
/-- Elements of a whole chunk: 64 KiB in the emit format (R78). -/
def chunkSize (bf16 : Bool) : Nat := if bf16 then 32768 else 16384
/-- Blocks of a whole chunk. -/
def chunkBlocks (bf16 : Bool) : Nat := if bf16 then 1024 else 512
/-- The chunks of a tensor. -/
def chunkCount (count : Nat) (bf16 : Bool) : Nat := cdiv count (chunkSize bf16)
/-- The elements of chunk c of a tensor. -/
def chunkLength (count : Nat) (bf16 : Bool) (c : Nat) : Nat := min (chunkSize bf16) (count - c * chunkSize bf16)
/-- The home pit of a chunk (R79). -/
def homePit (pits tensor chunk : Nat) : Nat := (tensor + chunk) % max 1 pits

/-- The entries of a bucket, in ascending tensor id. -/
def bucketEntries (tr : Troupe) (b : Nat) : List Entry :=
  (tr.bill.filter fun e => e.2.bucket == b).map (·.2)

/-- The tensors of a bucket laid out from an offset, with the padded end (R69). -/
def layout : List Entry → Nat → List (Nat × Nat × Nat × Bool) × Nat
  | [], off => ([], off)
  | e :: r, off =>
    let l := layout r (off + pad32 e.count)
    ((e.tensor, e.count, off, e.bf16) :: l.1, l.2)

/-- The graph of one bucket. -/
def graphOfBucket (tr : Troupe) (b : Nat) (k : Bucket) : Graph :=
  let l := layout (bucketEntries tr b) 0
  { bucket := b, fclass := k.fclass, carousel := k.carousel, selection := k.selection, tensors := l.1, padded := l.2 }

/-- The exchange graph of a troupe's entries and bucket records, in ascending bucket number (R66). -/
def buildGraph (tr : Troupe) : Tab Graph := tr.buckets.map fun e => (e.1, graphOfBucket tr e.1 e.2)

/-- Blocks of a bucket. -/
def Graph.blocks (g : Graph) : Nat := g.padded / 32

/-- A carousel entry of a troupe; one that is not written has no member. -/
def carouselOf (tr : Troupe) (e : Nat) : Carousel :=
  tabGetD tr.carousels e { members := [], own := 0, count := 1, lines := [] }
/-- Members of a bucket's entry. -/
def Graph.members (tr : Troupe) (g : Graph) : Nat := max 1 (carouselOf tr g.carousel).members.length
/-- This chip's position. -/
def Graph.own (tr : Troupe) (g : Graph) : Nat := (carouselOf tr g.carousel).own

/-- The blocks that position p of n owns of B: from, and up to but not including (R175). -/
def ownedRange (p n blocks : Nat) : Nat × Nat := (p * blocks / n, (p + 1) * blocks / n)
/-- The owner of element i of a vector of W elements (R176). -/
def elementOwner (i n w : Nat) : Nat := i * n / max 1 w
/-- The elements of a vector that position p owns. -/
def ownedElements (p n w : Nat) : List Nat := (List.range w).filter fun i => elementOwner i n w == p
/-- The owner of block b. -/
def blockOwner (b n blocks : Nat) : Nat :=
  ((List.range n).find? fun p => (ownedRange p n blocks).1 ≤ b && b < (ownedRange p n blocks).2).getD 0
/-- This chip's owned blocks of a bucket. -/
def Graph.mine (tr : Troupe) (g : Graph) : Nat × Nat := ownedRange (g.own tr) (g.members tr) g.blocks
/-- Whether this chip owns block b. -/
def Graph.owns (tr : Troupe) (g : Graph) (b : Nat) : Bool := (g.mine tr).1 ≤ b && b < (g.mine tr).2

/-- The blocks of a tensor in its bucket: first and count. -/
def tensorBlocks (e : Nat × Nat × Nat × Bool) : Nat × Nat := (e.2.2.1 / 32, cdiv e.2.1 32)
/-- The tensor whose block is block b of the bucket. -/
def Graph.tensorAt (g : Graph) (b : Nat) : Option (Nat × Nat × Nat × Bool) :=
  g.tensors.find? fun e => (tensorBlocks e).1 ≤ b && b < (tensorBlocks e).1 + (tensorBlocks e).2
/-- The entry of a tensor in a bucket's graph. -/
def Graph.tensor (g : Graph) (t : Nat) : Option (Nat × Nat × Nat × Bool) := g.tensors.find? fun e => e.1 == t

/-- The span of chunk c of a tensor: first block and number of blocks in the bucket. -/
def chunkSpan (e : Nat × Nat × Nat × Bool) (c : Nat) : Nat × Nat :=
  let first := (tensorBlocks e).1 + c * chunkBlocks e.2.2.2
  (first, min (chunkBlocks e.2.2.2) ((tensorBlocks e).1 + (tensorBlocks e).2 - first))

/-- The chunks of a bucket in order: tensor entry and chunk index. -/
def Graph.chunkList (g : Graph) : List ((Nat × Nat × Nat × Bool) × Nat) :=
  g.tensors.flatMap fun e => (List.range (chunkCount e.2.1 e.2.2.2)).map fun c => (e, c)

/-- The spans of a range of blocks, one per chunk: tensor entry, chunk, first block, number of blocks. -/
def Graph.spans (g : Graph) (lo hi : Nat) : List ((Nat × Nat × Nat × Bool) × Nat × Nat × Nat) :=
  g.chunkList.filterMap fun k =>
    let sp := chunkSpan k.1 k.2
    let a := max lo sp.1
    let z := min hi (sp.1 + sp.2)
    if a < z then some (k.1, k.2, a, z - a) else none

/-- The bucket of a tensor in the sealed playbill, with its graph. -/
def graphOfTensor (tr : Troupe) (tensor : Nat) : Option Graph :=
  (tabGet tr.bill tensor).bind fun e => tabGet tr.graph e.bucket

/-- ⌈log2 n⌉ of a bucket's carousel. -/
def Graph.g (tr : Troupe) (g : Graph) : Nat := clog2 (g.members tr)

/-- The owned blocks of a chunk. -/
def Graph.ownedOf (tr : Troupe) (g : Graph) (k : (Nat × Nat × Nat × Bool) × Nat) : Nat :=
  let sp := chunkSpan k.1 k.2
  min (g.mine tr).2 (sp.1 + sp.2) - max (g.mine tr).1 sp.1

/-- The chunks of a bucket whose home is pit p (R79). -/
def Graph.chunksIn (pits : Nat) (g : Graph) (p : Nat) : List ((Nat × Nat × Nat × Bool) × Nat) :=
  g.chunkList.filter fun k => homePit pits k.1.1 k.2 == p

/-- The tensors of a bucket whose first chunk is at home in pit p: what a tensor has once lies there (log entry 27). -/
def Graph.tensorsIn (pits : Nat) (g : Graph) (p : Nat) : List (Nat × Nat × Nat × Bool) :=
  g.tensors.filter fun e => homePit pits e.1 0 == p

/-- The partial-norm pairs that this chip owns (R176, R192). -/
def Graph.ownedPairs (tr : Troupe) (g : Graph) : List (Nat × Nat × Nat × Bool) :=
  (ownedElements (g.own tr) (g.members tr) g.tensors.length).filterMap fun i => g.tensors[i]?

/-- Bytes that a seal places in pit p for one bucket: both residual banks, the accumulation buffers, the int32 sum
area and the ordered-sum area of its chunks and of its owned partial-norm pairs (R141, R188, R193). -/
def bucketRoom (pits : Nat) (tr : Troupe) (g : Graph) (p : Nat) : Nat :=
  ((g.chunksIn pits p).map fun k =>
    let n := chunkLength k.1.2.1 k.1.2.2.2 k.2
    4 * n + (if g.fclass then (g.members tr - 1) * 8 * 32 * g.ownedOf tr k
      else 2 * (cdiv (2 * n) 256 * 256) + 128 * g.ownedOf tr k)).sum +
    (g.members tr - 1) * 8 * ((g.ownedPairs tr).filter fun e => homePit pits e.1 0 == p).length

/-- Whether some bucket may go sparse, so that the band buffers are reserved (R100). -/
def needsBands (gs : Tab Graph) : Bool := gs.any fun e => ! e.2.fclass && e.2.selection != 0

/-- Bytes of the band buffers in pit p (R100). -/
def bandRoom (pits : Nat) (gs : Tab Graph) (p : Nat) : Nat :=
  if needsBands gs then 8388608 * ((List.range 4).filter fun k => k * pits / 4 == p).length else 0

/-- The ordered-sum area of a troupe (R188). -/
def orderedRoom (tr : Troupe) (gs : Tab Graph) : Nat :=
  (gs.map fun e =>
    let g := e.2
    let n := g.members tr
    let owned := if g.fclass then 32 * ((g.mine tr).2 - (g.mine tr).1) else 0
    (n - 1) * 8 * (owned + (g.ownedPairs tr).length)).sum

/-- Whether this chip owns a block of a tensor. -/
def Graph.ownsPart (tr : Troupe) (g : Graph) (e : Nat × Nat × Nat × Bool) : Bool :=
  decide (max (g.mine tr).1 (tensorBlocks e).1 < min (g.mine tr).2 ((tensorBlocks e).1 + (tensorBlocks e).2))

/-- Bytes of a prop-room slot's own half in pit p (R295, Table 11.4): the owned blocks of the chunks at home there with their
agreed bytes, the records and the held digests of the tensors there; the header and the digest record lie in pit 0 (log
entry 27). -/
def ownHalf (pits : Nat) (tr : Troupe) (gs : Tab Graph) (p : Nat) : Nat :=
  (gs.map fun e =>
    ((e.2.chunksIn pits p).map fun k => (if e.2.fclass then 128 else 34) * e.2.ownedOf tr k).sum +
      ((e.2.tensorsIn pits p).map fun k => 8 + if e.2.ownsPart tr k then 32 else 0).sum).sum +
    if p = 0 then 192 else 0

/-- Bytes of a slot's mirror half in pit p, sized from the partner's owned elements: its blocks in equal parts, its header
and its digest record in pit 0 (R295; log entry 27). -/
def mirrorHalf (pits owned p : Nat) : Nat :=
  if owned = 0 then 0 else cdiv (34 * cdiv owned 32) (max 1 pits) + if p = 0 then 192 else 0

/-- Whether the troupe's region of each pit holds all that a seal places there (R100, R141, R295). A troupe to which no
TROUPE_CREATE gave regions, the house's own, is not bounded (log entry 28). -/
def roomOk (pits : Nat) (tr : Troupe) (gs : Tab Graph) (k owned : Nat) : Bool :=
  tr.regions.isEmpty ||
    let need (p : Nat) : Nat := (gs.map fun e => bucketRoom pits tr e.2 p).sum + bandRoom pits gs p +
      k * (ownHalf pits tr gs p + mirrorHalf pits owned p)
    let have_ (p : Nat) : Nat := ((tr.regions[p]?).map fun r => r.2.toNat).getD 0
    (List.range pits).all fun p => decide (need p ≤ have_ p)

end Sys2Proof.Machine
end

