-- ==== Sys2Proof/Machine/Bill.lean ====
section
/-! DEFINITION. The BILL_ and SPILL_ commands and the end of a seal (R61–R72, R96, R129, R135, R390, Table 12.7). -/

namespace Sys2Proof.Machine

open Sys2Proof

/-- The gate of the commands that change the playbill: Q, and no seal that holds it (R64, R324). -/
def billGate (s : State) (t : Nat) : Option Status :=
  (quietGate s t).orElse fun _ => if (troupe s t).sealing then some .state else none

/-! ### Entries (Table 3.1) -/

/-- The 64 bytes of an entry as a number's bytes at `a`. -/
def entryAt (s : State) (a k : Nat) : List Byte := memRead s.hbm (a + 64 * k) 64

/-- Whether 64 bytes form an entry that BILL_ADD and BILL_SET take (R61, Table 3.1): whole ident, valid, of the target
troupe, every reserved bit 0, every field in range; bytes 32–40 are ignored. An enabled version cue that the troupe has not
created makes the entry bad (DESIGN CHOICE, log entry 106). -/
def entryOk (tr : Troupe) (t : Nat) (e : List Byte) : Bool :=
  let ident := field e 0 4
  let f20 := field e 20 1
  let cue := field e 22 2
  pcWhole (BitVec.ofNat 64 (field e 0 8)) && bits ident 20 6 == t && bit ident 26 && ident / 2 ^ 27 == 0
    && inRange 1 (2 ^ 36) (field e 8 8) && bits f20 0 2 < 2 && bits f20 2 2 < 2 && f20 / 2 ^ 6 == 0
    && field e 21 1 == 0 && bits cue 10 5 == 0 && (! bit cue 15 || cueExists tr (cue % 1024))
    && field e 24 8 % 256 == 0 && allZero (slice e 41 23)

/-- The entry that 64 bytes give, its engine-written fields at their reset. -/
def entryOf (e : List Byte) : Entry :=
  let f20 := field e 20 1
  { tensor := field e 0 4 % 2 ^ 20, count := field e 8 8, bucket := field e 16 2, layer := field e 18 2
    bf16 := bits f20 0 2 == 1, history := bits f20 2 2 == 1, stochastic := bit f20 4, delayed := bit f20 5
    cue := BitVec.ofNat 16 (field e 22 2), held := BitVec.ofNat 64 (field e 24 8) }

/-- The 64 bytes of a registered entry. -/
def entryBytes (t : Nat) (e : Entry) : List Byte :=
  leBytes 8 (pairWord (e.tensor + t * 2 ^ 20 + 2 ^ 26) e.ident).toNat ++ leBytes 8 e.count ++ leBytes 2 e.bucket ++
    leBytes 2 e.layer ++ leBytes 1 (bitOf e.bf16 + bitOf e.history * 4 + bitOf e.stochastic * 16 + bitOf e.delayed * 32) ++
    [0] ++ leBytes 2 e.cue.toNat ++ leBytes 8 e.held.toNat ++ leBytes 8 e.offset ++ leBytes 1 (bitOf e.fallback) ++
    List.replicate 23 0

/-- The entries of a BILL_ADD or BILL_SET, or none where one of them is refused. -/
def readEntries (s : State) (t a n : Nat) : Option (List Entry) :=
  let raw := (List.range n).map (entryAt s a)
  if raw.all (entryOk (troupe s t) t) then some (raw.map entryOf) else none

/-- Padded held elements of a playbill (Table 3.6). -/
def heldElements (bill : Tab Entry) : Nat := (bill.map fun e => pad32 e.2.count).sum
/-- Entries of every troupe's playbill. -/
def poolUsed (s : State) : Nat := (s.troupes.map fun e => e.2.bill.length).sum

/-- A tensor's scale history emptied, its record kept (Table 5.5, first row). -/
def clearScale (tr : Troupe) (tensor : Nat) : Tab ScaleState :=
  let sc := tabGetD tr.scale tensor {}
  tabPut tr.scale tensor { sc with history := [], clean := 0 }

/-- BILL_ADD (R61, R67): all or none. -/
def execBillAdd (p : Post) (count : BitVec 16) (entries : BitVec 64) (s : State) : Out :=
  .next (serve p (.billAdd p count entries)
    { gate := billGate, args := inRange 1 4096 count.toNat
      body := fun _ _ t s =>
        let tr := troupe s t
        match readEntries s t entries.toNat count.toNat with
        | none => .refuse .badArg
        | some es =>
          let bill := es.foldl (fun b e => tabPut b e.tensor e) tr.bill
          need ((es.map (·.tensor)).Nodup && es.all (fun e => (tabGet tr.bill e.tensor).isNone)
              && decide (poolUsed s + es.length ≤ 4194304) && decide (bill.length ≤ 1048576)
              && decide (heldElements bill ≤ 2 ^ 36)) .badArg <|
          done (modTroupe s t fun tr => es.foldl (fun tr e => { tr with scale := clearScale tr e.tensor })
            { tr with bill := bill, sealed := false }) } s)

/-- The fields that BILL_SET may change, put into a registered entry; a rewritten ident is whole (R63, R67). -/
def Entry.reset (old new : Entry) : Entry :=
  { new with offset := old.offset, fallback := old.fallback && old.history == new.history, ident := 0, found := false }

/-- One entry of a BILL_SET (R67, R135, R390). -/
def setEntry (tr : Troupe) (e : Entry) : Troupe :=
  match tabGet tr.bill e.tensor with
  | none => tr
  | some old =>
    { tr with bill := tabPut tr.bill e.tensor (old.reset e)
              scale := if old.history == e.history then tr.scale else clearScale tr e.tensor
              tierChanged := if old.delayed == e.delayed then tr.tierChanged else e.tensor :: tr.tierChanged }

/-- BILL_SET (R67, R390): all or none. -/
def execBillSet (p : Post) (count : BitVec 16) (entries : BitVec 64) (s : State) : Out :=
  .next (serve p (.billSet p count entries)
    { gate := billGate, args := inRange 1 4096 count.toNat
      body := fun _ _ t s =>
        let tr := troupe s t
        match readEntries s t entries.toNat count.toNat with
        | none => .refuse .badArg
        | some es =>
          let same (e : Entry) : Bool := (tabGet tr.bill e.tensor).any fun o =>
            o.count == e.count && o.bf16 == e.bf16 && o.bucket == e.bucket
          let moves (e : Entry) : Bool := (tabGet tr.bill e.tensor).any fun o => o.delayed != e.delayed
          need (es.all same) .badArg <|
          need (! es.any moves || tr.hostSlots.isEmpty) .state <|
          done (modTroupe s t fun tr => es.foldl setEntry { tr with sealed := false }) } s)

/-- Take a tensor out of a playbill with its residuals and its scale history (R67), and with its optimiser record and
state, so that a tensor added under the same id starts at the reset values (log entry 3). -/
def dropTensor (tr : Troupe) (tensor : Nat) : Troupe :=
  { tr with bill := tabDel tr.bill tensor, scale := tabDel tr.scale tensor
            areaA := tabDel tr.areaA tensor, areaB := tabDel tr.areaB tensor, opt := tabDel tr.opt tensor
            tierChanged := tr.tierChanged.filter (· != tensor)
            residA := tr.residA.filter fun e => e.1 / 2 ^ 32 != tensor
            residB := tr.residB.filter fun e => e.1 / 2 ^ 32 != tensor }

/-- BILL_REMOVE (R67): all or none. A list that names a tensor twice is refused with BAD_ARG: its second place names one that
the first has removed (DESIGN CHOICE, log entry 107). -/
def execBillRemove (p : Post) (count : BitVec 16) (ids : BitVec 64) (s : State) : Out :=
  .next (serve p (.billRemove p count ids)
    { gate := billGate, args := inRange 1 4096 count.toNat
      body := fun _ _ t s =>
        let list := (List.range count.toNat).map fun k => peekWord s (ids.toNat + 4 * k) 4
        need (list.Nodup && list.all fun i => (tabGet (troupe s t).bill i).isSome) .badArg <|
        done (modTroupe s t fun tr => list.foldl dropTensor { tr with sealed := false }) } s)

/-- BILL_READ (R64): the entry as of the last served change. -/
def execBillRead (p : Post) (tensor : BitVec 32) (s : State) : Out :=
  .next (serve p (.billRead p tensor)
    { gate := alwaysGate
      body := fun _ _ t s =>
        match tabGet (troupe s t).bill tensor.toNat with
        | none => .refuse .badArg
        | some e => doneWith s [(0, entryBytes t e)] } s)

/-- BILL_BUCKET (R68): a bucket record created, changed or removed. -/
def execBillBucket (p : Post) (bucket : BitVec 16) (cls selection carousel flags : BitVec 8) (s : State) : Out :=
  .next (serve p (.billBucket p bucket cls selection carousel flags)
    { gate := billGate, args := cls.toNat < 2 && selection.toNat < 3 && flags.toNat < 2
      body := fun _ _ t s =>
        let b := bucket.toNat
        let new : Bucket := { fclass := cls == 1, selection := selection.toNat, carousel := carousel.toNat }
        if flags == 1 then
          need ((tabGet (troupe s t).buckets b).isSome) .noTarget <|
          done (modTroupe s t fun tr => { tr with buckets := tabDel tr.buckets b, sieve := tabDel tr.sieve b,
                                                  sealed := false })
        else done (modTroupe s t fun tr => { tr with buckets := tabPut tr.buckets b new, sealed := false }) } s)

/-- The slot addresses of an arena. -/
def arenaSlots (a : Arena) : List (BitVec 64) :=
  (List.range a.slots).map fun k => a.base + BitVec.ofNat 64 (65536 * k)

/-- Whether two arenas overlap. -/
def arenasMeet (a b : Arena) : Bool :=
  a.base.toNat < b.base.toNat + 65536 * b.slots && b.base.toNat < a.base.toNat + 65536 * a.slots

/-- BILL_ARENA (R72): an arena declared, resized or removed. One that would reach above address 2^48 of the scratchpad space
is refused with BAD_ARG, as a slot address of a descriptor has 48 bits (DESIGN CHOICE, log entry 108). -/
def execBillArena (p : Post) (arena : BitVec 8) (slots : BitVec 16) (base : BitVec 64) (s : State) : Out :=
  .next (serve p (.billArena p arena slots base)
    { gate := billGate
      args := arena.toNat < 16 && slots.toNat ≤ 4096
        && (slots == 0 || (base.toNat % 65536 == 0 && base.toNat + 65536 * slots.toNat ≤ 2 ^ 48))
      body := fun _ _ t s =>
        let tr := troupe s t
        let new : Arena := { base := base, slots := slots.toNat }
        let others := s.troupes.flatMap fun e =>
          (e.2.arenas.filter fun a => ! (e.1 == t && a.1 == arena.toNat)).map (·.2)
        let gone := ((tabGet tr.arenas arena.toNat).map arenaSlots |>.getD []).filter fun a => ! (arenaSlots new).contains a
        need (slots == 0 || ! others.any (arenasMeet new)) .badArg <|
        need (! gone.any fun a => tr.slots.contains a) .state <|
        done (modTroupe s t fun tr => { tr with
          arenas := if slots == 0 then tabDel tr.arenas arena.toNat else tabPut tr.arenas arena.toNat new }) } s)

/-! ### Sealing (R65, R66, R141) -/

/-- The conditions of BILL_SEAL (R65, R88, R100, R141, R188, R295). -/
def sealOk (pits : Nat) (tr : Troupe) : Bool :=
  let gs := buildGraph tr
  tr.bill.all (fun e => (tabGet tr.buckets e.2.bucket).isSome)
    && gs.all (fun e => inRange 1 4096 e.2.tensors.length && decide (e.2.padded ≤ 2 ^ 26)
        && (tabGet tr.carousels e.2.carousel).isSome)
    && decide (heldElements tr.bill ≤ 2 ^ 36) && decide (orderedRoom tr gs ≤ 268435456)
    && roomOk pits tr gs tr.propK tr.pairOwned

/-- BILL_SEAL (R65): the build runs until SEAL_COMPLETE. -/
def execBillSeal (p : Post) (s : State) : Out :=
  .next (serve p (.billSeal p)
    { gate := billGate
      body := fun _ _ t s =>
        need (sealOk s.house.pits (troupe s t)) .badArg <|
        .defer (modTroupe s t fun tr => { tr with sealing := true }) .sealEnd [] } s)

/-- Whether a seal leaves a bucket's tensor set and padded count as they were (R95). -/
def sameBucket (old new : Graph) : Bool :=
  old.padded == new.padded && old.tensors.map (fun e => (e.1, e.2.1)) == new.tensors.map fun e => (e.1, e.2.1)

/-- The broken entries of a playbill. -/
def brokenEntries (tr : Troupe) : List Entry := (tr.bill.filter fun e => e.2.ident != 0).map (·.2)

/-- The first use that finds an entry broken writes its record, under the id of the subsystem that uses it (R351); every
use raises the curtain and holds STEP_OPEN (R63). Table 0.3 gives the exchange-graph build to no subsystem: a broken
entry that BILL_SEAL finds is recorded by the inlet, which describes it (log entry 99). -/
def useEntry (finder : Subsystem) (t tensor : Nat) (s : State) : State :=
  match tabGet (troupe s t).bill tensor with
  | none => s
  | some e =>
    if e.ident == 0 then s
    else
      let s := if e.found then s else
        record { sub := finder, status := .integrity, who := some t, address := place t kindEntry tensor } s
      curtain (some 1) t (modTroupe s t fun tr => { tr with
        billBroken := true, bill := tabPut tr.bill tensor { e with found := true } })

/-- A troupe with the graph of its playbill: bucket offsets written, histograms of changed buckets removed (R65, R69,
R95). -/
def sealed (tr : Troupe) : Troupe :=
  let gs := buildGraph tr
  let offsets := gs.flatMap fun e => e.2.tensors.map fun k => (k.1, k.2.2.1)
  { tr with
    graph := gs, sealed := true, sealing := false, sealNumber := (tr.sealNumber + 1) % 2 ^ 32
    billBroken := ! (brokenEntries tr).isEmpty
    bill := tr.bill.map fun e => (e.1, { e.2 with offset := tabGetD offsets e.1 e.2.offset })
    histograms := tr.histograms.filter fun h =>
      match tabGet tr.graph h.1, tabGet gs h.1 with
      | some o, some n => sameBucket o n
      | _, _ => false }

/-- SEAL_COMPLETE (R65): the build ends and the seal number goes into the results. -/
def execSealComplete (dt t : Nat) (s0 : State) : Out :=
  let s := passCk dt s0
  .next (if ! (troupe s t).sealing then s
    else
      let s := modTroupe s t sealed
      let s := (brokenEntries (troupe s t)).foldl (fun s e => useEntry .inlet t e.tensor s) s
      completeDeferred t (· == .sealEnd) .done [res 0 4 (troupe s t).sealNumber] s)

/-! ### Records with an effective step (R96, R129) -/

/-- BILL_SIEVE (R96). -/
def execBillSieve (p : Post) (bucket : BitVec 16) (density crossover : BitVec 32) (effective : BitVec 64) (s : State) :
    Out :=
  .next (serve p (.billSieve p bucket density crossover effective)
    { gate := anyGate, args := inRange 1 65536 density.toNat && crossover.toNat ≤ 65536
      body := fun _ _ t s =>
        let tr := troupe s t
        let b := bucket.toNat
        match tabGet tr.buckets b with
        | none => .refuse .noTarget
        | some k =>
          need (! k.fclass) .badArg <|
          need (decide (tr.opened < effective.toNat)) .state <|
          let cur := (tabGetD tr.sieve b ({}, none)).1
          let new : SieveRec := { density := density.toNat, crossover := crossover.toNat }
          done (modTroupe s t fun tr => { tr with sieve := tabPut tr.sieve b (cur, some (new, effective.toNat)) }) } s)

/-- BILL_SCALE (R129). -/
def execBillScale (p : Post) (tensor : BitVec 32) (headroom length : BitVec 8) (returnCount : BitVec 16)
    (effective : BitVec 64) (s : State) : Out :=
  .next (serve p (.billScale p tensor headroom length returnCount effective)
    { gate := anyGate, args := headroom.toNat < 8 && inRange 1 64 length.toNat && returnCount.toNat ≤ 1024
      body := fun _ _ t s =>
        let tr := troupe s t
        let i := tensor.toNat
        match tabGet tr.bill i with
        | none => .refuse .badArg
        | some e =>
          need (! (tabGet tr.buckets e.bucket).any (·.fclass)) .badArg <|
          need (decide (tr.opened < effective.toNat)) .state <|
          let sc := tabGetD tr.scale i {}
          let new : ScaleRec := { headroom := headroom.toNat, length := length.toNat, returns := returnCount.toNat }
          done (modTroupe s t fun tr =>
            { tr with scale := tabPut tr.scale i { sc with pending := some (new, effective.toNat) } }) } s)

/-! ### Spill regions (Table 12.7) -/

/-- SPILL_SET: the bounds of spill store addresses, while no spill call is taken. -/
def execSpillSet (p : Post) (pitBase pitLen hostBase hostLen : BitVec 64) (s : State) : Out :=
  .next (serve p (.spillSet p pitBase pitLen hostBase hostLen)
    { gate := anyGate
      body := fun _ _ t s =>
        need ((troupe s t).spills.isEmpty) .state <|
        done (modTroupe s t fun tr => { tr with spillRegions := (pitBase, pitLen, hostBase, hostLen) }) } s)

/-- SPILL_DRAIN: completes when every spill call taken before it has completed. -/
def execSpillDrain (p : Post) (s : State) : Out :=
  .next (serve p (.spillDrain p)
    { gate := anyGate
      body := fun _ _ t s =>
        let n := (troupe s t).spills.length
        if n = 0 then done s else .defer s (.spillDrain n) [] } s)

end Sys2Proof.Machine
end

