-- ==== Sys2Proof/Machine/Train.lean ====
section
/-! DEFINITION. Trains of carriages: how content is cut and queued on a line (R159–R161, R168, R169). -/

namespace Sys2Proof.Machine

open Sys2Proof

/-! ### Carriages of an item (R168) -/

/-- The content bytes of some blocks of a chunk in an encoding of the Q8B family, and the content count (Table 6.8). -/
def blockContent (enc : Nat) (bs : List (Nat × QBlk)) : List Byte × Nat :=
  if enc = 2 then (bs.flatMap fun b => q8bsBytes b.2, bs.length)
  else if enc = 3 then
    (q8brBytes bs (32 * ((bs.head?.map (·.1)).getD 0)), ((bs.map fun b => (presentOf b.2).length).sum))
  else (bs.flatMap fun b => q8bBytes b.2, bs.length)

/-- The blocks of a group that lie behind its last present element: they open the next Q8B-R carriage. -/
def tailEmpty (bs : List (Nat × QBlk)) : List (Nat × QBlk) :=
  (bs.reverse.takeWhile fun b => (presentOf b.2).isEmpty).reverse

/-- Cut the blocks of an item into the groups of its carriages: as many whole blocks as the largest payload holds. -/
def cutBlocks (enc limit : Nat) : List (Nat × QBlk) → List (Nat × QBlk) → List (List (Nat × QBlk))
  | cur, [] => [cur]
  | cur, b :: r =>
    if (blockContent enc (cur ++ [b])).1.length ≤ limit || cur.isEmpty then cutBlocks enc limit (cur ++ [b]) r
    else
      let back := if enc = 3 then tailEmpty cur else []
      cur.take (cur.length - back.length) :: cutBlocks enc limit (back ++ [b]) r

/-- Cut units of one size into carriages: (first unit, count, bytes). -/
def cutUnits (unit per : Nat) (content : List Byte) : List (Nat × Nat × List Byte) :=
  let n := content.length / max 1 unit
  let k := max 1 (cdiv n (max 1 per))
  (List.range k).map fun i =>
    (i * per, min per (n - i * per), (content.drop (i * per * unit)).take (min per (n - i * per) * unit))

/-- Mark the last carriage (R168). -/
def markLast : List Car → List Car
  | [] => []
  | [c] => [{ c with last := true }]
  | c :: r => c :: markLast r

/-- The position field of chunk and block. -/
def blockPosition (chunk blk : Nat) : BitVec 32 := BitVec.ofNat 32 (chunk % 2 ^ 22 + blk % 1024 * 2 ^ 22)

/-- Carriages of fixed-size units, placed by byte offset or by chunk and block. -/
def unitCars (proto : Car) (limit : Nat) (place : Nat → BitVec 32) (content : List Byte) : List Car :=
  let unit := unitBytes proto.enc
  markLast ((cutUnits unit (limit / unit) content).map fun u =>
    { proto with position := place u.1, count := u.2.1, payload := padPayload u.2.2 })

/-- Carriages of blocks of the Q8B family. An item of a sparse encoding without a present element is one carriage of
content count 0 and 256 zero bytes (R179). -/
def blockCars (proto : Car) (limit chunk : Nat) (bs : List (Nat × QBlk)) : List Car :=
  if proto.enc != 1 && bs.all (fun b => (presentOf b.2).isEmpty) then
    [{ proto with position := blockPosition chunk ((bs.head?.map (·.1)).getD 0), count := 0
                  payload := List.replicate 256 0, last := true }]
  else markLast ((cutBlocks proto.enc limit [] bs).map fun g =>
    let c := blockContent proto.enc g
    { proto with
      position := blockPosition chunk ((g.head?.map (·.1)).getD ((bs.head?.map (·.1)).getD 0))
      count := c.2, payload := padPayload c.1 })

/-! ### Sending on a line -/

/-- Queue the carriages of one dispatch item on a line towards a peer under a route class (R169, R54: the item's wire
length). -/
def queueOn (cls t l peer : Nat) (charge : Option Charge) (step : Option Nat) (cars : List Car) (s : State) : State :=
  match peerOf s t l peer with
  | none => s
  | some p =>
    let wire := (cars.map Car.wire).sum
    let frames := cars.map fun c =>
      ({ car := { c with line := l }, peer := peer, dst := p.addr, cls := cls, charge := charge,
         step := step, item := (troupe s t).opCount + 1, itemWire := wire } : OutFrame)
    let s := modTroupe s t fun tr => { tr with opCount := tr.opCount + 1 }
    let s := modLine s t l fun ln => { ln with waiting := ln.waiting ++ frames }
    enterLine t l s

/-- Queue the carriages of one dispatch item under the class of its line. -/
def queueCars (t l peer : Nat) (charge : Option Charge) (step : Option Nat) (cars : List Car) (s : State) : State :=
  queueOn (routeClass (troupe s t) l) t l peer charge step cars s

/-- The line of carousel k of an entry. -/
def carouselLine (c : Carousel) (k : Nat) : Nat := c.lines.getD (k % max 1 c.count) 0
/-- The largest payload of a line in bytes. -/
def payloadLimit (s : State) (t l : Nat) : Nat := 256 * max 1 (lineOf (troupe s t) l).payload

/-- Send an item's carriages to a member of a carousel entry. -/
def sendMember (t : Nat) (c : Carousel) (k member : Nat) (charge : Option Charge) (step : Option Nat)
    (build : Nat → List Car) (s : State) : State :=
  let l := carouselLine c k
  match c.members[member]? with
  | none => s
  | some a =>
    match peerIndex (lineOf (troupe s t) l) a with
    | none => s
    | some i => queueOn (k % max 1 c.count) t l i charge step (build (payloadLimit s t l)) s

end Sys2Proof.Machine
end

