-- ==== Sys2Proof/Machine/Optim.lean ====
section
/-! DEFINITION. The optimiser's arithmetic on one block of 32 elements, and the records that steer it (R267–R274). -/

namespace Sys2Proof.Machine

open Sys2Proof

/-- Element-wise over two lists of a block. -/
def zip2 (f : F32 → F32 → F32) (a b : List F32) : List F32 := (a.zip b).map fun e => f e.1 e.2

/-- The constants of a tensor's update (R270). -/
structure Consts where
  a1 : F32
  a2 : F32
  b1 : F32
  b2 : F32
  deriving DecidableEq, Repr

def f32One : F32 := 0x3F800000

/-- a1, a2 from the record and b1, b2 from the new powers. -/
def consts (o : OptRec) (p1 p2 : F32) : Consts :=
  ⟨f32Sub f32One o.beta1, f32Sub f32One o.beta2, f32Sub f32One p1, f32Sub f32One p2⟩

/-- sign of R270. -/
def f32Sign (x : F32) : F32 := if f32Mag x = 0 then 0 else if f32Neg x then 0xBF800000 else f32One

/-- Sum by pair_add in ascending order, its first part. -/
def pairSumOf (xs : List F32) : F32 := (pairSum (xs.map fun x => (x, 0))).1

/-- A block's fields made whole: 32 entries each. -/
def fill32 (xs : List F32) : List F32 := xs.take 32 ++ List.replicate (32 - xs.length) 0

/-- m, v and u of AdamW and LAMB. -/
def adamParts (o : OptRec) (k : Consts) (g m v : List F32) : List F32 × List F32 × List F32 :=
  let m := zip2 f32Add (m.map (f32Mul o.beta1)) (g.map (f32Mul k.a1))
  let v := zip2 f32Add (v.map (f32Mul o.beta2)) (g.map fun x => f32Mul k.a2 (f32Mul x x))
  let u := zip2 (fun m v => f32Div (f32Div m k.b1) (f32Add (f32Sqrt (f32Div v k.b2)) o.eps)) m v
  (m, v, u)

/-- r of LAMB: u + λ·w (R270, R271). -/
def lambR (o : OptRec) (k : Consts) (b : Blk) (g : List F32) : List F32 :=
  zip2 (fun u w => f32Add u (f32Mul o.lam w)) (adamParts o k g (fill32 b.m) (fill32 b.v)).2.2 (fill32 b.w)

/-- Adafactor's scaled update of a block and its second moment. -/
def adafactorU (o : OptRec) (k : Consts) (v : F32) (g : List F32) : List F32 × F32 :=
  let fifth : F32 := 0x3D000000
  let s := pairSumOf (g.map fun x => f32Mul x x)
  let vb := f32Add (f32Mul o.beta2 v) (f32Mul k.a2 (f32Add (f32Mul s fifth) o.eps))
  let u := g.map fun x => f32Div x (f32Sqrt vb)
  let q := f32Sqrt (f32Mul (pairSumOf (u.map fun x => f32Mul x x)) fifth)
  let d := f32Pick true f32One (f32Div q o.d)
  (u.map fun x => f32Div x d, vb)

/-- The update of one block (R270): the committed block and the gradient give the pending block. -/
def updateBlock (o : OptRec) (k : Consts) (phi : F32) (b : Blk) (g : List F32) : Blk :=
  let w := fill32 b.w
  let m := fill32 b.m
  let decay (eta : F32) (u : List F32) : List F32 := zip2 (fun w u => f32Sub w (f32Mul eta (f32Add u (f32Mul o.lam w)))) w u
  match o.rule with
  | 0 => { w := zip2 (fun w u => f32Sub w (f32Mul o.eta u)) w (zip2 (fun g w => f32Add g (f32Mul o.lam w)) g w) }
  | 1 =>
    let u := zip2 (fun g w => f32Add g (f32Mul o.lam w)) g w
    let m := zip2 f32Add (m.map (f32Mul o.beta1)) u
    let u := if o.nesterov then zip2 (fun u m => f32Add u (f32Mul o.beta1 m)) u m else m
    { w := zip2 (fun w u => f32Sub w (f32Mul o.eta u)) w u, m := m }
  | 2 =>
    let a := adamParts o k g m (fill32 b.v)
    { w := decay o.eta a.2.2, m := a.1, v := a.2.1 }
  | 3 =>
    let a := adamParts o k g m (fill32 b.v)
    let r := zip2 (fun u w => f32Add u (f32Mul o.lam w)) a.2.2 w
    { w := zip2 (fun w r => f32Sub w (f32Mul (f32Mul o.eta phi) r)) w r, m := a.1, v := a.2.1 }
  | 4 =>
    let a := adafactorU o k (b.v.headD 0) g
    let keep := f32Lt 0 o.beta1
    let m := zip2 f32Add (m.map (f32Mul o.beta1)) (a.1.map (f32Mul k.a1))
    let u := if keep then m else a.1
    { w := decay o.eta u, m := if keep then m else [], v := [a.2] }
  | _ =>
    let c := zip2 f32Add (m.map (f32Mul o.beta1)) (g.map (f32Mul k.a1))
    { w := decay o.eta (c.map f32Sign), m := zip2 f32Add (m.map (f32Mul o.beta2)) (g.map (f32Mul k.a2)) }

/-- Whether a block holds only finite values. -/
def blkFinite (b : Blk) : Bool := (b.w ++ b.m ++ b.v).all f32Finite

/-- The gradient of R267 from decoded values. -/
def gradient (gamma ft : F32) (x : List F32) : List F32 := x.map fun v => f32Mul (f32Mul v gamma) ft

/-- Decoded values of a reduced block (R267). -/
def decodeBlock : ShardBlock → List F32
  | .q8b e q => q.map fun b => q8bF32 e.toNat (s8 b)
  | .fp32 x => x

/-- The squared norm S_t of a finite pair value: × 2^(2 (E_ref − 133)), exactly (R192, R267). -/
def squaredNorm (pair : F32) (eref : Nat) : Dy := ⟨(f32Dy pair).num, (f32Dy pair).exp + 2 * (Int.ofNat eref - 133)⟩

/-- The exact square root of S_t rounded once: N_t before γ. S_t itself is not rounded (R267). -/
def normRoot (pair : F32) (eref : Nat) : F32 :=
  if ! f32Finite pair then f32Sqrt pair
  else if f32Mag pair = 0 then pair
  else if f32Neg pair then f32CanonNan
  else sqrtRound (squaredNorm pair eref).num.natAbs (squaredNorm pair eref).exp

/-- f_t of R267. -/
def clipFactor (c n : F32) : F32 :=
  if f32Mag c = 0 || f32Mag n = 0 then f32One
  else
    let q := f32Div c n
    if f32Lt q f32One then q else f32One

/-- φ of R271 from the two squared norms. -/
def trustRatio (w r : F32) : F32 :=
  let a := f32Sqrt w
  let b := f32Sqrt r
  if f32Mag a = 0 || f32Mag b = 0 then f32One else f32Div a b

/-- The powers and count of a tensor's next update (R269). -/
def advance (o : OptRec) (st : TState) : TState :=
  { st with t := (st.t + 1) % 2 ^ 48, p1 := f32Mul st.p1 o.beta1, p2 := f32Mul st.p2 o.beta2 }

/-- A delta block as Q8B: E the local byte of the deltas, nearest even, no residual (R274). -/
def deltaBlock (d : List F32) : QBlk :=
  let e := localByte d
  ⟨min e 254, d.map fun x => (quantise x e none).1, List.replicate 32 true⟩

/-! ### Records that take effect at an opened step -/

/-- A pending record whose effective step has come takes the place of the record (R96, R268). -/
def promote {α : Type} (n : Nat) (e : α × Option (α × Nat)) : α × Option (α × Nat) :=
  match e.2 with
  | some (new, at_) => if at_ ≤ n then (new, none) else e
  | none => e

/-- A scale record's turn (R129): a shorter history keeps its newest entries. -/
def promoteScale (n : Nat) (sc : ScaleState) : ScaleState :=
  let r := promote n (sc.record, sc.pending)
  { sc with record := r.1, pending := r.2, history := sc.history.take r.1.length }

/-- The troupe with the sieve and scale records that step n uses (R96, R129). -/
def withRecords (tr : Troupe) (n : Nat) : Troupe :=
  { tr with
    sieve := (tr.sieve.map fun (e : Nat × _) => (e.1, promote n e.2) : Tab (SieveRec × Option (SieveRec × Nat)))
    scale := (tr.scale.map fun (e : Nat × _) => (e.1, promoteScale n e.2) : Tab ScaleState) }

/-- The troupe as a carriage of a step is judged: one that comes before the step has opened here meets the records that
the step will use (R180, R181). -/
def viewFor (tr : Troupe) (step : Nat) : Troupe := if tr.opened < step then withRecords tr step else tr

/-- The optimiser record of a tensor. -/
def optRec (tr : Troupe) (tensor : Nat) : OptRec := (tabGetD tr.opt tensor ({}, none)).1

/-! ### The committed and pending areas (R272, R280) -/

/-- The area that the version word names, or the one the engine keeps while the word is broken. -/
def versionNow (tr : Troupe) : Bool := if whole tr.version then tr.version.val else tr.versionKept
/-- The committed area. -/
def committed (tr : Troupe) : Tab TState := if versionNow tr then tr.areaB else tr.areaA
/-- The pending area. -/
def pendingArea (tr : Troupe) : Tab TState := if versionNow tr then tr.areaA else tr.areaB
/-- Put the pending area. -/
def setPending (tr : Troupe) (a : Tab TState) : Troupe := if versionNow tr then { tr with areaA := a } else { tr with areaB := a }
/-- Put the committed area. -/
def setCommitted (tr : Troupe) (a : Tab TState) : Troupe :=
  if versionNow tr then { tr with areaB := a } else { tr with areaA := a }

/-- The block of a tensor; one that nothing has written holds +0.0 (log entry 3). -/
def blockOf (st : TState) (k : Nat) : Blk :=
  tabGetD st.blocks k { w := List.replicate 32 0, m := List.replicate 32 0, v := List.replicate 32 0 }

end Sys2Proof.Machine
end

