-- ==== Sys2Proof/Machine/Exchange.lean ====
section
/-! DEFINITION. The work of a bucket in a step: values and residuals, scale bytes and history scales, vectors that a
carousel reduces, owned sums, norms and trust pairs (R121–R135, R141–R143, R176, R181–R193, R271). -/

namespace Sys2Proof.Machine

open Sys2Proof

/-! ### Metering (R85, R139) -/

/-- The share of 2 TB/s in one window of 1 µs. -/
def windowBytes (h : House) : Nat := h.pitShare * 20000
/-- What is left of a pit's current window. -/
def allowance (s : State) (pit : Nat) : Nat := tabGetD s.house.allowance pit (windowBytes s.house)
/-- Whether a pit's window still has allowance. -/
def hasShare (s : State) (pit : Nat) : Bool := 0 < allowance s pit
/-- Spend bytes of a pit's window. A work item that has begun runs to its end: what it moves beyond the window's allowance
is owed to the pit by the windows that follow (log entry 93). -/
def spendShare (pit bytes : Nat) (s : State) : State :=
  modHouse s fun h => { h with
    allowance := tabPut h.allowance pit (allowance s pit - bytes)
    owed := tabPut h.owed pit (tabGetD h.owed pit 0 + (bytes - allowance s pit)) }

/-- The pit in whose memory block blk of a bucket's graph lies: the home pit of its chunk (R79). -/
def Graph.pitOf (pits : Nat) (g : Graph) (blk : Nat) : Nat :=
  ((g.tensorAt blk).map fun e => homePit pits e.1 ((blk - (tensorBlocks e).1) / chunkBlocks e.2.2.2)).getD 0

/-! ### Slots -/

/-- The elements of a slot in the emit format, widened to FP32 (R78). -/
def slotElements (s : State) (slot : BitVec 64) (n : Nat) (bf16 : Bool) : List F32 :=
  (List.range n).map fun i =>
    if bf16 then bf16Widen (BitVec.ofNat 16 (leNat (memRead s.scratch (slot.toNat + 2 * i) 2)))
    else BitVec.ofNat 32 (leNat (memRead s.scratch (slot.toNat + 4 * i) 4))

/-- Replace what fails a test by 0. -/
def cleaned (bad : F32 → Bool) (xs : List F32) : List F32 := xs.map fun x => if bad x then 0 else x
/-- R86's test. -/
def notFinite (x : F32) : Bool := ! f32Finite x

/-- Release a held slot, then signal its cue (R84). -/
def releaseSlot (t : Nat) (slot : BitVec 64) (cue : BitVec 16) (s : State) : State :=
  signalField t cue (modTroupe s t fun tr => { tr with slots := tr.slots.erase slot })

/-- Release the slot that one chunk holds, if it holds one. -/
def releaseChunk (t : Nat) (s : State) (key : Nat) : State :=
  match (tabGetD (troupe s t).chunks key {}).slot with
  | none => s
  | some slot =>
    let cue := (tabGetD (troupe s t).chunks key {}).cue
    releaseSlot t slot cue (modTroupe s t fun tr =>
      { tr with chunks := tabMod tr.chunks key fun c => { c with slot := none } })

/-- Release the slots that some chunks hold (R84, R103). The spec orders the releases by the quantisation reads and does
not order the reads of one bucket's chunks: here they go by ascending tensor id and chunk (log entry 94). -/
def releaseChunks (t : Nat) (keys : List Nat) (s : State) : State := keys.foldl (releaseChunk t) s

/-! ### Work, banks and values -/

/-- The work of bucket b. -/
def workOf (tr : Troupe) (b : Nat) : BWork := tabGetD tr.work b {}
/-- Change the work of bucket b. -/
def modWork (s : State) (t b : Nat) (f : BWork → BWork) : State :=
  modTroupe s t fun tr => { tr with work := tabPut tr.work b (f (workOf tr b)) }
/-- The graph of bucket b. -/
def graphAt (tr : Troupe) (b : Nat) : Graph :=
  tabGetD tr.graph b { bucket := b, fclass := false, carousel := 0, selection := 0, tensors := [], padded := 0 }

/-- The current bank as the engine takes it: false is bank A (R142, R143). -/
def bankNow (tr : Troupe) : Bool := if whole tr.bank then tr.bank.val else tr.bankKept
/-- The first use that finds the bank word broken: record, curtain, fence (R143). -/
def useBank (t : Nat) (s : State) : State :=
  let tr := troupe s t
  if whole tr.bank || tr.bankFound then s
  else fault { sub := .ledger, status := .integrity, who := some t, address := place t kindBank 0 } (some 1)
    (modTroupe s t fun tr => { tr with bankFound := true })
/-- The first use that finds the version word broken (R280, as R143). -/
def useVersion (t : Nat) (s : State) : State :=
  let tr := troupe s t
  if whole tr.version || tr.versionFound then s
  else fault { sub := .updateSequencer, status := .integrity, who := some t, address := place t kindVersion 0 } (some 1)
    (modTroupe s t fun tr => { tr with versionFound := true })

/-- A bank's residuals of a chunk. -/
def residual (tr : Troupe) (bank : Bool) (key : Nat) : List BF16 := tabGetD (if bank then tr.residB else tr.residA) key []
/-- Write a chunk's residuals in a bank. -/
def setResidual (tr : Troupe) (bank : Bool) (key : Nat) (r : List BF16) : Troupe :=
  if bank then { tr with residB := tabPut tr.residB key r } else { tr with residA := tabPut tr.residA key r }

/-- The sums of a chunk's emits: its accumulation buffer, or, with one micro-step, its slot as the pit reads it, every
non-finite element 0 (R83, R86). -/
def chunkSums (s : State) (tr : Troupe) (k : (Nat × Nat × Nat × Bool) × Nat) : List F32 :=
  let c := tabGetD tr.chunks (chunkKey k.1.1 k.2) {}
  let n := chunkLength k.1.2.1 k.1.2.2.2 k.2
  match c.slot with
  | some slot => cleaned notFinite (slotElements s slot n k.1.2.2.2)
  | none => (List.range n).map fun i => c.acc.getD i 0

/-- The values v of a chunk's elements (R121). -/
def chunkValues (s : State) (tr : Troupe) (k : (Nat × Nat × Nat × Bool) × Nat) : List F32 :=
  let res := residual tr (bankNow tr) (chunkKey k.1.1 k.2)
  (chunkSums s tr k).zipIdx.map fun x => f32Add x.1 (bf16Widen (res.getD x.2 0))

/-- A list of elements cut into blocks of 32, the last padded with +0.0 (R69). -/
def toBlocks (xs : List F32) : List (List F32) :=
  (List.range (cdiv xs.length 32)).map fun k => fill32 ((xs.drop (32 * k)).take 32)

/-- The values of a bucket's blocks, in block order. -/
def bucketValues (s : State) (tr : Troupe) (g : Graph) : List (List F32) :=
  g.chunkList.flatMap fun k => toBlocks (chunkValues s tr k)

/-- The accumulated values of an F-class bucket's blocks: no residual enters them. -/
def bucketSums (s : State) (tr : Troupe) (g : Graph) : List (List F32) :=
  g.chunkList.flatMap fun k => toBlocks (chunkSums s tr k)

/-- Spend bytes for every element of some chunks in their home pits. -/
def spendChunks (per : Nat) (ks : List ((Nat × Nat × Nat × Bool) × Nat)) (s : State) : State :=
  ks.foldl (fun s k => spendShare (homePit s.house.pits k.1.1 k.2) (per * chunkLength k.1.2.1 k.1.2.2.2 k.2) s) s

/-- An F-class bucket's chunks of one micro-step are read out of their slots, which go: no quantisation pass will read
them (R83, R84, log entry 85). -/
def drainChunk (t : Nat) (s : State) (k : (Nat × Nat × Nat × Bool) × Nat) : State :=
  let xs := chunkSums s (troupe s t) k
  releaseChunk t (modTroupe s t fun tr =>
    { tr with chunks := tabMod tr.chunks (chunkKey k.1.1 k.2) fun c => { c with acc := xs } }) (chunkKey k.1.1 k.2)

/-! ### Scale bytes (R122–R135) -/

/-- The scale state of a tensor. -/
def scaleOf (tr : Troupe) (tensor : Nat) : ScaleState := tabGetD tr.scale tensor {}
/-- Change the scale state of a tensor. -/
def modScale (tr : Troupe) (tensor : Nat) (f : ScaleState → ScaleState) : Troupe :=
  { tr with scale := tabPut tr.scale tensor (f (scaleOf tr tensor)) }
/-- Set a tensor's fallback flag in its entry (R135). -/
def setFallback (tr : Troupe) (tensor : Nat) (v : Bool) : Troupe :=
  { tr with bill := tabMod tr.bill tensor fun e => { e with fallback := v } }

/-- Whether a tensor uses history scaling (R132). -/
def usesHistory (tr : Troupe) (tensor : Nat) : Bool :=
  ! (scaleOf tr tensor).history.isEmpty && (tabGet tr.bill tensor).any fun e => e.history || e.fallback
/-- The largest entry of a history. -/
def historyMax (sc : ScaleState) : Nat := sc.history.foldl (fun a p => max a p.val) 0
/-- E_h (R131). -/
def historyScale (tr : Troupe) (g : Graph) (tensor : Nat) : Nat :=
  let sc := scaleOf tr tensor
  min (254 - g.g tr) (historyMax sc + sc.record.headroom)
/-- Enter a byte into a tensor's history (R130). -/
def enterHistory (sc : ScaleState) (e : Nat) : ScaleState :=
  { sc with history := (Pair.of e :: sc.history).take sc.record.length }

/-- Judge a tensor's history before its use: a broken entry raises the curtain and empties it (Table 13.3). -/
def useHistory (t tensor : Nat) (s : State) : State :=
  if (scaleOf (troupe s t) tensor).history.all whole then s
  else
    curtain (some 1) t (record
      { sub := .scaleDesk, status := .integrity, who := some t, address := place t kindHistory tensor }
      (modTroupe s t fun tr =>
        setFallback (modScale tr tensor fun sc => { sc with history := [], clean := 0 }) tensor false))

/-- Put the scale byte of a block into its word, four to a word (R125). -/
def putScale (w : BWork) (blk byte : Nat) : BWork :=
  let p := tabGetD w.words (blk / 4) ⟨0, 0⟩
  let sh := 8 * (blk % 4)
  let v := p.val.toNat - bits p.val.toNat sh 8 * 2 ^ sh + byte * 2 ^ sh
  { w with words := tabPut w.words (blk / 4) ⟨BitVec.ofNat 32 v, p.flaw⟩, scaled := blk :: w.scaled }

/-- The scale byte that a block is quantised at: 254 while its word is broken, and for 0xFF (R125, R127). -/
def scaleByte (w : BWork) (blk : Nat) : Nat :=
  let p := tabGetD w.words (blk / 4) ⟨0, 0⟩
  if whole p then bits p.val.toNat (8 * (blk % 4)) 8 else 254

/-- A tensor overflows its headroom: the curtain and the gauge, once a step (R133). -/
def overflowed (t b tensor : Nat) (s : State) : State :=
  if (workOf (troupe s t) b).overflow.contains tensor then s
  else curtain (some 3) t (gauge (modWork s t b fun w => { w with overflow := tensor :: w.overflow }) t 0x130 1)

/-- Hold the agreed byte of a block of a tensor on the scale call, and test it (R125, R133). -/
def holdByte (t b : Nat) (e : Nat × Nat) (s : State) : State :=
  let g := graphAt (troupe s t) b
  let s := modWork s t b fun w => putScale w e.1 e.2
  if e.2 = 255 || 254 - g.g (troupe s t) < e.2 then
    match g.tensorAt e.1 with
    | some k => overflowed t b k.1 s
    | none => s
  else s

/-- Whether every block of a bucket has its scale byte (R126). -/
def allScaled (g : Graph) (w : BWork) : Bool := (List.range g.blocks).all w.scaled.contains

/-- Whether a fallback round of the bucket still runs (R134). -/
def fallbackRuns (tr : Troupe) (b : Nat) : Bool := (tabGetD tr.fallbacks b []).any fun f => ! f.done

/-- A bucket's scale call is issued (R124): the step is CALLED and its ledger record takes its second stage (R312), local
bytes are formed, history-scaled blocks take E_h. With one micro-step the pits read slots and residuals for it (R123). An
F-class bucket's call is empty. -/
def issueCall (t b : Nat) (s : State) : State :=
  let tr := troupe s t
  let w := workOf tr b
  let g := graphAt tr b
  if ! w.complete || w.called || fallbackRuns tr b then s
  else
    let s := if g.fclass then s else g.tensors.foldl (fun s e => useHistory t e.1 s) s
    let live := livePits s
    let first := (lastStep tr).any fun r => r.state.val == .opened
    let s := modTroupe s t fun tr => modLast tr fun r =>
      let r := r.phase 1 fun p => p.start s
      if r.state.val == .opened then
        { r with state := { r.state with val := .called }, calledTick := some s.house.tick, livePits := live }
      else r
    let s := if first then ledgerStore t tr.opened s else s
    let s := if g.fclass then g.chunkList.foldl (drainChunk t) s
      else if (lastStep tr).any (·.m == 1) then spendChunks 2 g.chunkList s else s
    let tr := troupe s t
    let hist := if g.fclass then [] else g.tensors.filter fun e => usesHistory tr e.1
    let own := if ! g.fclass then [] else ((bucketSums s tr g).zipIdx.filter fun e => g.owns tr e.2).map fun e =>
      (g.own tr, e.2, e.1)
    let s := modWork s t b fun w => { w with
      called := true, fcontrib := w.fcontrib ++ own
      locals := if g.fclass then [] else (bucketValues s tr g).map localByte }
    hist.foldl (fun s e =>
      (List.range (tensorBlocks e).2).foldl (fun s k =>
        modWork s t b fun w => putScale w ((tensorBlocks e).1 + k) (historyScale tr g e.1)) s) s

/-- Spans of a range of blocks of tensors on the scale call. -/
def callSpans (tr : Troupe) (g : Graph) (lo hi : Nat) : List ((Nat × Nat × Nat × Bool) × Nat × Nat × Nat) :=
  (g.spans lo hi).filter fun sp => ! usesHistory tr sp.1.1

/-! ### Contributions -/

/-- Members other than this chip. -/
def others (tr : Troupe) (g : Graph) : List Nat := (List.range (g.members tr)).filter (· != g.own tr)

/-- Whether every other member's LAST of a kind has arrived for a chunk (R182). -/
def spanEnded (tr : Troupe) (g : Graph) (w : BWork) (kind tensor chunk : Nat) : Bool :=
  (others tr g).all fun m => w.ended.contains (kind, tensor, chunk, m)

/-- Own spans of the scale call that are complete take their agreed bytes (R124). The spec assigns each chunk's sums to no
tally group by name: here they are those of the group numbered as its home pit, whose place R375 fills while it is dark
(log entry 92). -/
def settleScale (t b : Nat) (s : State) : State :=
  let tr := troupe s t
  let g := graphAt tr b
  let w := workOf tr b
  if g.fclass || ! w.called || w.locals.isEmpty then s
  else
    let due := (callSpans tr g (g.mine tr).1 (g.mine tr).2).filter fun sp =>
      ! w.scaled.contains sp.2.2.1 && spanEnded tr g w 1 sp.1.1 sp.2.1 && ! tallyWaits s (homePit s.house.pits sp.1.1 sp.2.1)
    let bytes := due.flatMap fun sp => (List.range sp.2.2.2).map fun k =>
      let blk := sp.2.2.1 + k
      (blk, max (w.locals.getD blk 0) (tabGetD w.maxima blk 0))
    bytes.foldl (fun s e => holdByte t b e s) s

/-! ### Vectors (R176, R184, R187) -/

/-- An FP32 pair as one element of a vector. -/
def pairInt (p : F32 × F32) : Int := Int.ofNat (p.1.toNat * 2 ^ 32 + p.2.toNat)
/-- The FP32 pair of a vector's element. -/
def intPair (x : Int) : F32 × F32 := (BitVec.ofNat 32 (x.toNat / 2 ^ 32), BitVec.ofNat 32 x.toNat)

/-- How a vector is reduced. -/
inductive VecOp where
  | sum | max | or | pairs (inOrder : Bool)
  deriving DecidableEq, Repr

/-- Saturate an exact sum to INT32 (R184). -/
def satI32 (x : Int) : Int := max (-2147483648) (min 2147483647 x)

/-- Insert by ascending member. -/
def insertBy (e : Nat × Int) : List (Nat × Int) → List (Nat × Int)
  | [] => [e]
  | f :: r => if e.1 < f.1 then e :: f :: r else f :: insertBy e r

/-- The reduced value of one element from its contributions (member, value) in order of arrival. -/
def VecOp.combine (op : VecOp) (cs : List (Nat × Int)) : Int :=
  match op with
  | .sum => satI32 (cs.map (·.2)).sum
  | .max => cs.foldl (fun a c => if a < c.2 then c.2 else a) 0
  | .or => Int.ofNat (cs.foldl (fun a c => a ||| c.2.toNat) 0)
  | .pairs inOrder =>
    let cs := if inOrder then cs.foldl (fun a c => insertBy c a) [] else cs
    pairInt (pairSum (cs.map fun c => intPair c.2))

/-- This chip's contribution goes in. -/
def Vec.give (v : Vec) (own : Nat) (xs : List Int) : Vec :=
  if v.own.isSome then v else { v with own := some xs, contrib := v.contrib ++ [(own, 0, xs)] }

/-- The contributions to element i, in order of arrival. -/
def Vec.at_ (v : Vec) (i : Nat) : List (Nat × Int) :=
  v.contrib.filterMap fun c => if c.2.1 ≤ i then (c.2.2[i - c.2.1]?).map fun x => (c.1, x) else none

/-- Reduce the elements that position p of n owns of W, once every contribution is in. -/
def Vec.reduce (v : Vec) (op : VecOp) (p n w : Nat) : Vec :=
  let mine := ownedElements p n w
  let ready := v.own.isSome && (mine.isEmpty || ((List.range n).filter (· != p)).all v.ended.contains)
  if v.reduced || ! ready then v
  else { v with reduced := true, result := mine.foldl (fun r i => tabPut r i (op.combine (v.at_ i))) v.result }

/-- Whether every result of a vector of W elements is held. -/
def Vec.whole (v : Vec) (w : Nat) : Bool := (List.range w).all fun i => (tabGet v.result i).isSome
/-- The results in order. -/
def Vec.values (v : Vec) (w : Nat) : List Int := (List.range w).map fun i => tabGetD v.result i 0

/-- The history-scaled tensors of a bucket, in ascending id. -/
def historyTensors (tr : Troupe) (g : Graph) : List Nat := (g.tensors.map (·.1)).filter (usesHistory tr)
/-- The LAMB tensors of a bucket, in ascending id. -/
def lambTensors (tr : Troupe) (g : Graph) : List Nat := (g.tensors.map (·.1)).filter fun i => (optRec tr i).rule == 3
/-- Bytes of a bucket's fallback bitmap. -/
def bitmapBytes (g : Graph) : Nat := cdiv g.tensors.length 8

/-- Whether the step whose work is held runs scripted (R315, Table 15.1). -/
def stepScripted (tr : Troupe) : Bool := ! (stepOf tr tr.workStep).any (·.adlib)

/-! ### The owner's sums (R183–R187) -/

/-- The shift and scale of a re-encoded block (R185). -/
def reShift (g : Nat) (sums : List Int) : Nat :=
  ((List.range (g + 1)).find? fun sh => sums.all fun x =>
    (roundHalfEven ⟨x, - Int.ofNat sh⟩).natAbs ≤ 127).getD g

/-- Re-encode a block's sums at scale byte e: the reduced scale byte, the values and the exact remainders (R185). -/
def reEncode (g e : Nat) (sums : List Int) : Nat × List Int × List Dy :=
  let sh := if e + reShift g sums > 254 then 254 - e else reShift g sums
  let q := sums.map fun x => clamp127 (roundHalfEven ⟨x, - Int.ofNat sh⟩)
  (e + sh, q, (sums.zip q).map fun p => ⟨p.1 - p.2 * Int.ofNat (2 ^ sh), Int.ofNat e - 133⟩)

/-- Add two lists of sums. -/
def addSums (a b : List Int) : List Int := (a.zip b).map fun e => e.1 + e.2

/-- The quantised values of a block as contributions. -/
def sentValues (q : QBlk) : List Int := (q.q.zip q.present).map fun e => if e.2 then e.1 else 0

/-- Fold the remainders of owned block blk into the residual bank being written (R185). -/
def foldRemainder (tr : Troupe) (g : Graph) (blk : Nat) (d : List Dy) : Troupe :=
  match g.tensorAt blk with
  | none => tr
  | some e =>
    let tb := blk - (tensorBlocks e).1
    let key := chunkKey e.1 (tb / chunkBlocks e.2.2.2)
    let first := 32 * (tb % chunkBlocks e.2.2.2)
    let bank := ! bankNow tr
    let new := (residual tr bank key).zipIdx.map fun r =>
      if first ≤ r.2 && r.2 < first + 32 then
        bf16Sat (dyAdd (f32Dy (bf16Widen r.1)) (d.getD (r.2 - first) ⟨0, 0⟩))
      else r.1
    setResidual tr bank key new

/-- The reduced block of a G-class owned block, with its fold. -/
def reduceBlock (tr : Troupe) (g : Graph) (b blk : Nat) : Troupe :=
  let w := workOf tr b
  let own := ((tabGet w.quant blk).map sentValues).getD (List.replicate 32 0)
  let sums := addSums own (tabGetD w.sums blk (List.replicate 32 0))
  let e := min 254 (scaleByte w blk)
  let r := reEncode (g.g tr) e sums
  let tr := foldRemainder tr g blk r.2.2
  let w := { w with reduced := tabPut w.reduced blk (.q8b (BitVec.ofNat 8 r.1) (r.2.1.map byteOf))
                    sums := tabDel w.sums blk }
  { tr with work := tabPut tr.work b w }

/-- The reduced block of an F-class owned block: ascending position in scripted mode, arrival in ad-lib (R187). -/
def reduceFBlock (tr : Troupe) (b blk : Nat) : Troupe :=
  let w := workOf tr b
  let cs := w.fcontrib.filter fun c => c.2.1 == blk
  let value (i : Nat) : F32 :=
    (intPair ((VecOp.pairs (stepScripted tr)).combine (cs.map fun c => (c.1, pairInt (c.2.2.getD i 0, 0))))).1
  { tr with work := tabPut tr.work b { w with
      reduced := tabPut w.reduced blk (.fp32 ((List.range 32).map value))
      fcontrib := w.fcontrib.filter fun c => c.2.1 != blk } }

/-- Whether this chip's own contribution to a bucket is with its tally (R177). -/
def ownIn (g : Graph) (w : BWork) : Bool := if g.fclass then w.complete else w.pass == .ended

/-- Own spans that are complete are reduced (R182). -/
def settleSums (t b : Nat) (s : State) : State :=
  let tr := troupe s t
  let g := graphAt tr b
  let w := workOf tr b
  if ! ownIn g w then s
  else
    let due := (g.spans (g.mine tr).1 (g.mine tr).2).filter fun sp =>
      (tabGet w.reduced sp.2.2.1).isNone && spanEnded tr g w 3 sp.1.1 sp.2.1 && ! tallyWaits s (homePit s.house.pits sp.1.1 sp.2.1)
    let blks := due.flatMap fun sp => (List.range sp.2.2.2).map fun k => sp.2.2.1 + k
    modTroupe s t fun tr => blks.foldl (fun tr blk => if g.fclass then reduceFBlock tr b blk else reduceBlock tr g b blk) tr

/-- Whether every owned block of a bucket is reduced. -/
def ownReduced (tr : Troupe) (g : Graph) (w : BWork) : Bool :=
  (List.range ((g.mine tr).2 - (g.mine tr).1)).all fun k => (tabGet w.reduced ((g.mine tr).1 + k)).isSome

/-! ### Norms and trust pairs (R192, R271) -/

/-- E_ref of a tensor in a bucket (R192). -/
def eRef (tr : Troupe) (g : Graph) (w : BWork) (e : Nat × Nat × Nat × Bool) : Nat :=
  if g.fclass then 133
  else ((List.range (tensorBlocks e).2).foldl (fun a k => max a (min 254 (scaleByte w ((tensorBlocks e).1 + k)))) 0) + g.g tr

/-- The pair of one reduced block (R192). -/
def blockPair (eref : Nat) : ShardBlock → F32 × F32
  | .q8b e q => (dyF32 ⟨(q.map fun b => s8 b * s8 b).sum, 2 * (Int.ofNat e.toNat - Int.ofNat eref)⟩ false, 0)
  | .fp32 x => (pairSumOf (x.map fun v => f32Mul v v), 0)

/-- The owned blocks of a tensor, ascending: block number and reduced block. -/
def ownedBlocks (tr : Troupe) (g : Graph) (w : BWork) (e : Nat × Nat × Nat × Bool) : List (Nat × ShardBlock) :=
  (List.range (tensorBlocks e).2).filterMap fun k =>
    let blk := (tensorBlocks e).1 + k
    if g.owns tr blk then (tabGet w.reduced blk).map fun x => (blk, x) else none

/-- The number of live pits at the step's first scale call. -/
def liveGroups (tr : Troupe) : Nat := max 1 (((stepOf tr tr.workStep).map (·.livePits)).getD 1)

/-- This chip's partial norms of a bucket (R192). -/
def partialNorms (tr : Troupe) (g : Graph) (w : BWork) : List Int :=
  g.tensors.map fun e => pairInt (groupedSum (liveGroups tr)
    ((ownedBlocks tr g w e).map fun x => blockPair (eRef tr g w e) x.2))

/-- A tensor's reduced pair value, E_ref, N_t and f_t once its bucket's norms are whole (R267). -/
def normValue (g : Graph) (w : BWork) (tensor : Nat) : F32 :=
  ((g.tensors.findIdx? fun e => e.1 == tensor).map fun i => (intPair (tabGetD w.normVec.result i 0)).1).getD 0
/-- N_t and f_t. -/
def normFactor (tr : Troupe) (g : Graph) (w : BWork) (e : Nat × Nat × Nat × Bool) : F32 × F32 :=
  let n := f32Mul (f32Abs tr.gamma) (normRoot (normValue g w e.1) (eRef tr g w e))
  (n, clipFactor (optRec tr e.1).clip n)

/-- The gradient of an owned block. -/
def blockGradient (tr : Troupe) (g : Graph) (w : BWork) (e : Nat × Nat × Nat × Bool) (x : ShardBlock) : List F32 :=
  gradient tr.gamma (normFactor tr g w e).2 (decodeBlock x)

/-- A FP32 block's sum of squares as an F-class block's pair (R271). -/
def squares (xs : List F32) : F32 × F32 := (pairSumOf (xs.map fun v => f32Mul v v), 0)

/-- This chip's trust pairs of a bucket: Σw² and Σr² for each LAMB tensor (R271). -/
def trustPairs (tr : Troupe) (g : Graph) (w : BWork) : List Int :=
  (g.tensors.filter fun e => (optRec tr e.1).rule == 3).flatMap fun e =>
    let o := optRec tr e.1
    let st := tabGetD (committed tr) e.1 {}
    let up := advance o st
    let k := consts o up.p1 up.p2
    let own := ownedBlocks tr g w e
    let blk (x : Nat × ShardBlock) := blockOf st (x.1 - (tensorBlocks e).1)
    [pairInt (groupedSum (liveGroups tr) (own.map fun x => squares (fill32 (blk x).w))),
     pairInt (groupedSum (liveGroups tr) (own.map fun x => squares (lambR o k (blk x) (blockGradient tr g w e x.2))))]

/-- φ of a LAMB tensor, from its bucket's trust pairs. -/
def phiOf (tr : Troupe) (g : Graph) (w : BWork) (tensor : Nat) : F32 :=
  match (lambTensors tr g).findIdx? (· == tensor) with
  | none => f32One
  | some i => trustRatio (intPair (tabGetD w.trustVec.result (2 * i) 0)).1 (intPair (tabGetD w.trustVec.result (2 * i + 1) 0)).1

/-! ### Settling a bucket -/

/-- Bins of the histogram (R92). -/
def bins : Nat := 4096
/-- The shift s of R93. -/
def histShift (n : Nat) : Nat := clog2 n - 15

/-- Whether the bucket's histogram and history bytes are held (R94, R130). -/
def statsHeld (tr : Troupe) (g : Graph) (w : BWork) : Bool :=
  g.fclass || (w.histVec.whole bins && w.byteVec.whole (historyTensors tr g).length)

/-- Whether the bucket is reduced: owned blocks, histogram, history bytes and partial norms (R182). -/
def bucketReduced (tr : Troupe) (g : Graph) (w : BWork) : Bool :=
  ownReduced tr g w && statsHeld tr g w && w.normVec.whole g.tensors.length

/-- Reduce what a bucket's vectors allow (R176): histogram, history bytes, norms, trust pairs; with every tally group dark
nothing (R7). -/
def settleVecs (t b : Nat) (s : State) : State :=
  if tallyOut s then s else
  let tr := troupe s t
  let g := graphAt tr b
  let p := g.own tr
  let n := g.members tr
  let norm (w : BWork) : BWork :=
    if ! ownReduced tr g w || ! (g.fclass || allScaled g w) then w
    else { w with normVec := (w.normVec.give p (partialNorms tr g w)).reduce (.pairs (stepScripted tr)) p n g.tensors.length }
  let trust (w : BWork) : BWork :=
    if (lambTensors tr g).isEmpty || ! w.normVec.whole g.tensors.length || ! ownReduced tr g w then w
    else { w with trustVec := (w.trustVec.give p (trustPairs tr g w)).reduce (.pairs (stepScripted tr)) p n
                    (2 * (lambTensors tr g).length) }
  modWork s t b fun w => trust (norm { w with
    histVec := w.histVec.reduce .sum p n bins
    byteVec := w.byteVec.reduce .max p n (historyTensors tr g).length })

/-- The byte of each history-scaled tensor is tested for overflow as this chip comes to hold it (R133). -/
def settleHistory (t b : Nat) (s : State) : State :=
  let tr := troupe s t
  let g := graphAt tr b
  let w := workOf tr b
  if g.fclass then s
  else (historyTensors tr g).zipIdx.foldl (fun s e =>
    match tabGet w.byteVec.result e.2 with
    | none => s
    | some x =>
      if x.toNat = 255 || historyScale tr g e.1 + (scaleOf tr e.1).record.headroom < x.toNat then overflowed t b e.1 s
      else s) s

/-- Give back the tally window slots of a bucket that is reduced (R193). -/
def freeWindow (t b : Nat) (s : State) : State :=
  match (workOf (troupe s t) b).place with
  | some (k + 1) =>
    modWork (modHouse s fun h => { h with tallySlots := h.tallySlots - (k + 1) }) t b fun w => { w with place := some 0 }
  | _ => s

/-- Whether every bucket of a troupe is reduced on this chip. -/
def allReduced (tr : Troupe) : Bool := tr.graph.all fun e => bucketReduced tr e.2 (workOf tr e.1)
/-- Whether every scale byte of every bucket is held. -/
def everyScale (tr : Troupe) : Bool := tr.graph.all fun e => e.2.fclass || allScaled e.2 (workOf tr e.1)

/-! ### Tiers, the order of updates, and completion (R70, R264) -/

/-- Whether a tensor is of the delayed tier. -/
def isDelayed (tr : Troupe) (tensor : Nat) : Bool := (tabGet tr.bill tensor).any (·.delayed)
/-- Whether this chip owns a block of a tensor. -/
def ownsSome (tr : Troupe) (g : Graph) (e : Nat × Nat × Nat × Bool) : Bool :=
  (List.range (tensorBlocks e).2).any fun k => g.owns tr ((tensorBlocks e).1 + k)

/-- Insert by ascending layer, then tensor id (R70). -/
def insertTensor (tr : Troupe) (e : Nat × Nat × Nat × Nat × Bool) :
    List (Nat × Nat × Nat × Nat × Bool) → List (Nat × Nat × Nat × Nat × Bool)
  | [] => [e]
  | f :: r =>
    let key (x : Nat × Nat × Nat × Nat × Bool) : Nat := ((tabGet tr.bill x.2.1).map (·.layer)).getD 0 * 2 ^ 20 + x.2.1
    if key e < key f then e :: f :: r else f :: insertTensor tr e r

/-- The prompt-tier tensors of which this chip owns a part, in the order of their updates: bucket and tensor entry. -/
def updateOrder (tr : Troupe) : List (Nat × Nat × Nat × Nat × Bool) :=
  (tr.graph.flatMap fun ge => (ge.2.tensors.filter fun e => ownsSome tr ge.2 e && ! isDelayed tr e.1).map fun e => (ge.1, e)).foldl
    (fun a e => insertTensor tr e a) []

/-- Owned blocks of a tensor, numbered in the tensor. -/
def ownedIn (tr : Troupe) (g : Graph) (e : Nat × Nat × Nat × Bool) : List Nat :=
  (List.range (tensorBlocks e).2).filter fun k => g.owns tr ((tensorBlocks e).1 + k)

/-- Whether every owned prompt block of the step has been written. -/
def promptWritten (tr : Troupe) : Bool :=
  (updateOrder tr).all fun e => (ownedIn tr (graphAt tr e.1) e.2).all fun k => tr.written.contains (e.2.1, k)

/-- The slots due at step m: written at step m − D or before (R27, R276). -/
def dueSlots (tr : Troupe) (m : Nat) : List HostSlot := tr.hostSlots.filter fun h => decide (h.step + tr.lag ≤ m)

/-- Whether every LAMB trust round of the step is complete. -/
def trustsDone (tr : Troupe) : Bool :=
  tr.graph.all fun e => (workOf tr e.1).trustVec.whole (2 * (lambTensors tr e.2).length)

/-- What R264 asks of this chip for its completion bit, its alignment left out. -/
def completionMet (tr : Troupe) (r : StepRec) : Bool :=
  r.state.val == .called && tr.workStep == r.num && allReduced tr && promptWritten tr && trustsDone tr
    && (dueSlots tr r.num).all (·.read.isSome) && (! tr.spikeLoss.armed || r.loss.isSome)

/-- The ck at which the last condition of R264 is met is kept: a round carries only what was met before its tick (R254). -/
def noteComplete (t : Nat) (s : State) : State :=
  let tr := troupe s t
  match lastStep tr with
  | none => s
  | some r =>
    if r.completeCk.isSome || ! completionMet tr r then s
    else modTroupe s t fun tr => modLast tr fun r => { r with completeCk := some s.house.ck }

end Sys2Proof.Machine
end

