-- ==== Sys2Proof/Machine/Mirror.lean ====
section
/-! DEFINITION. The understudy: what a principal sends over the mirror line, what its understudy keeps, applies and
compares, and the settling of a bucket's work (R282–R302). -/

namespace Sys2Proof.Machine

open Sys2Proof

/-! ### Digests of a chip's own values (R282–R285) -/

/-- Value bits of a reduced block's elements (Table 11.1, kind 1). -/
def shardBits : ShardBlock → List Nat
  | .q8b e q => q.map fun b => e.toNat * 256 + b.toNat
  | .fp32 x => x.map fun v => v.toNat

/-- The elements of blocks of a tensor, padding left out: (index in the tensor, value bits). -/
def blockElements (count : Nat) (blocks : Tab (List Nat)) : List (Nat × Nat) :=
  blocks.flatMap fun e => (e.2.zipIdx.map fun v => (32 * e.1 + v.2, v.1)).filter fun v => decide (v.1 < count)

/-- The tensor digest of a kind over blocks. -/
def blocksDigest (kind step tensor count : Nat) (blocks : Tab (List Nat)) : BitVec 64 :=
  digest kind step tensor (blockElements count blocks)

/-- FP32 blocks as value bits. -/
def f32Bits (blocks : Tab (List F32)) : Tab (List Nat) := blocks.map fun e => (e.1, e.2.map (·.toNat))

/-- The sum of tensor digests of a kind: the step digest (R284). -/
def digestSum (ds : List (BitVec 64)) : BitVec 64 := ds.foldl (· + ·) 0

/-! ### What the principal sends (R287–R290, R294) -/

/-- The effective mode of a pair (R288). -/
def effectiveMode (s : State) (tr : Troupe) : MirrorMode :=
  if tr.pairMode == .replay && ! scripted s tr then .copy else tr.pairMode

/-- The booking that mirror blocks are charged to: the first line ring bound to a booking on a wing port (R43, R289);
with none, the shaper. -/
def mirrorCharge (tr : Troupe) : Charge :=
  match tr.rings.find? fun e => e.2.kind == 1 && e.2.binding == 1 && ((tabGet tr.bookings e.2.booking).any fun b => b.port ≥ 6) with
  | some e => .booking e.2.booking
  | none => .shaper

/-- A tensor record (Table 11.3); mirror traffic carries no digests (R290). -/
def tensorRecordBytes (digests : Bool) (r : TensorRec) : List Byte :=
  leBytes 4 (r.tensor % 2 ^ 20 + bitOf r.lamb * 2 ^ 20) ++ leBytes 4 r.ft.toNat ++ leBytes 4 r.phi.toNat ++
    leBytes 4 r.gamma.toNat ++ leBytes 8 (if digests then r.dig1.toNat else 0) ++
    leBytes 8 (if digests then r.dig2.toNat else 0)

/-- A tensor record read from its bytes. -/
def readTensorRecord (bs : List Byte) : TensorRec :=
  { tensor := bits (field bs 0 4) 0 20, lamb := bit (field bs 0 4) 20, ft := BitVec.ofNat 32 (field bs 4 4)
    phi := BitVec.ofNat 32 (field bs 8 4), gamma := BitVec.ofNat 32 (field bs 12 4) }

/-- A digest record (Table 11.5). -/
def digestRecordBytes (r : DigestRec) : List Byte :=
  leBytes 8 (r.step % 2 ^ 48 + bitOf r.skipped * 2 ^ 48 + bitOf r.copy * 2 ^ 49) ++
    ((List.range 5).flatMap fun i => leBytes 8 (r.kinds.getD i 0).toNat) ++ leBytes 8 (r.epoch % 2 ^ 48) ++
    leBytes 8 (pairWord r.closing.val r.closing.flaw).toNat

/-- A digest record read from its bytes; its closing word keeps what it holds (R297). -/
def readDigestRecord (bs : List Byte) : DigestRec :=
  let w := BitVec.ofNat 64 (field bs 56 8)
  { step := field bs 0 6, skipped := bit (field bs 0 8) 48, copy := bit (field bs 0 8) 49
    kinds := (List.range 5).map fun i => BitVec.ofNat 64 (field bs (8 + 8 * i) 8), epoch := field bs 48 6
    closing := ⟨pcVal w, w.extractLsb' 32 32 ^^^ ~~~ (w.extractLsb' 0 32)⟩ }

/-- Carriages of RAW WRITEs of bytes to a place at the peer (R289, R293, R302). -/
def rawCars (proto : Car) (limit target : Nat) (bytes : List Byte) : List Car :=
  markLast ((cutUnits 1 limit bytes).map fun u =>
    { proto with target := BitVec.ofNat 64 (target + u.1), count := u.2.1, payload := padPayload u.2.2 })

/-- A carriage on a line to the pair's partner. -/
def mirrorProto (s : State) (t step : Nat) : Car :=
  { type := 1, cls := .d, enc := 0, op := 0, troupe := t, line := (troupe s t).pairLine, step := step, count := 0
    scripted := scripted s (troupe s t), payload := [] }

/-- Send a run of bytes to the partner as RAW WRITEs. -/
def mirrorWrite (t step target : Nat) (charge : Charge) (bytes : List Byte) (s : State) : State :=
  let l := (troupe s t).pairLine
  queueCars t l 0 (some charge) none (rawCars (mirrorProto s t step) (payloadLimit s t l) target bytes) s

/-- Send blocks of one chunk as collective carriages of subject 0xA (R289). -/
def mirrorBlocks (t step tensor chunk first : Nat) (xs : List ShardBlock) (s : State) : State :=
  let l := (troupe s t).pairLine
  let limit := payloadLimit s t l
  let proto := { mirrorProto s t step with coll := true, subject := 10, tensor := tensor }
  let cars := match xs with
    | .fp32 _ :: _ =>
      unitCars { proto with cls := .f, enc := 7 } (limit / 128 * 128) (fun k => blockPosition chunk (first + k / 32))
        (xs.flatMap fun x => (decodeBlock x).flatMap fun v => leBytes 4 v.toNat)
    | _ =>
      blockCars { proto with cls := .g, enc := 1 } limit chunk (xs.zipIdx.map fun x =>
        (first + x.2, match x.1 with
          | .q8b e q => ⟨e.toNat, q.map s8, List.replicate 32 true⟩
          | .fp32 _ => ⟨0, List.replicate 32 0, List.replicate 32 true⟩))
  queueCars t l 0 (some (mirrorCharge (troupe s t))) (some step) cars s

/-- The tensor record of an owned tensor of a bucket, once its factors are known. -/
def tensorRecord (tr : Troupe) (g : Graph) (w : BWork) (e : Nat × Nat × Nat × Bool) : TensorRec :=
  { tensor := e.1, lamb := (optRec tr e.1).rule == 3, ft := (normFactor tr g w e).2, phi := phiOf tr g w e.1
    gamma := tr.gamma }

/-- Whether a tensor's factors are known: its norm is held, and its bucket's trust pairs where it is a LAMB tensor. -/
def factorsHeld (tr : Troupe) (g : Graph) (w : BWork) (e : Nat × Nat × Nat × Bool) : Bool :=
  ((g.tensors.findIdx? fun k => k.1 == e.1).any fun i => (tabGet w.normVec.result i).isSome) &&
    ((optRec tr e.1).rule != 3 || w.trustVec.whole (2 * (lambTensors tr g).length))

/-- Owned blocks of a tensor in runs of one chunk: chunk, first block in the chunk, blocks. -/
def ownedRuns (tr : Troupe) (g : Graph) (e : Nat × Nat × Nat × Bool) (x : Nat → Option ShardBlock) :
    List (Nat × Nat × List ShardBlock) :=
  ((g.spans (g.mine tr).1 (g.mine tr).2).filter fun sp => sp.1.1 == e.1).map fun sp =>
    (sp.2.1, sp.2.2.1 - (chunkSpan e sp.2.1).1, (List.range sp.2.2.2).filterMap fun k => x (sp.2.2.1 + k))

/-- Send some masters of a tensor from the pending version (R289). -/
def mirrorMasters (t b step : Nat) (e : Nat × Nat × Nat × Bool) (blocks : List Nat) (s : State) : State :=
  let tr := troupe s t
  let g := graphAt tr b
  let st := tabGetD (pendingArea tr) e.1 {}
  (ownedRuns tr g e fun blk =>
      if blocks.contains (blk - (tensorBlocks e).1) then some (.fp32 (fill32 (blockOf st (blk - (tensorBlocks e).1)).w)) else none).foldl
    (fun s k => if k.2.2.isEmpty then s else
      let first := ((List.range (chunkBlocks e.2.2.2)).find? fun i =>
        blocks.contains (k.1 * chunkBlocks e.2.2.2 + i) && k.2.1 ≤ i).getD k.2.1
      mirrorBlocks t step e.1 k.1 first k.2.2 s) s

/-- Send one tensor's record, then in replay mode its reduced blocks (R289). Masters follow as they are formed; those of a
delayed tensor that were taken before its record could go follow it at once. -/
def mirrorTensor (t b : Nat) (e : Nat × Nat × Nat × Bool) (s : State) : State :=
  let tr := troupe s t
  let g := graphAt tr b
  let w := workOf tr b
  match stepOf tr tr.workStep with
  | none => s
  | some r =>
    if w.mirrored.contains (2 * e.1) || ! ownsSome tr g e || ! factorsHeld tr g w e || ! ownReduced tr g w then s
    else
      let s := modWork s t b fun w => { w with mirrored := 2 * e.1 :: w.mirrored }
      let s := mirrorWrite t r.num (place t kindMirrorRecord (r.num % 16 * 2 ^ 20 + e.1)) (mirrorCharge tr)
        (tensorRecordBytes false (tensorRecord tr g w e)) s
      let s := if r.mirror == .replay then
          (ownedRuns tr g e (tabGet w.reduced)).foldl (fun s k => mirrorBlocks t r.num e.1 k.1 k.2.1 k.2.2 s) s
        else s
      if isDelayed tr e.1 then
        mirrorMasters t b r.num e ((ownedIn tr g e).filter fun k => tr.written.contains (e.1, k)) s
      else s

/-- Send what a bucket's work allows to the understudy. -/
def mirrorBucket (t b : Nat) (s : State) : State :=
  let tr := troupe s t
  if ! (stepOf tr tr.workStep).any (fun r => r.mirror != .none && inFlight r) then s
  else (graphAt tr b).tensors.foldl (fun s e => mirrorTensor t b e s) s

/-! ### Settling a bucket -/

/-- A histogram reduction that saturated: counted, recorded, and the curtain (R184). -/
def settleSaturated (t b : Nat) (before : BWork) (s : State) : State :=
  let tr := troupe s t
  let g := graphAt tr b
  let w := workOf tr b
  if before.histVec.reduced || ! w.histVec.reduced then s
  else
    let far := ((ownedElements (g.own tr) (g.members tr) bins).filter fun i =>
      let x := ((w.histVec.at_ i).map (·.2)).sum
      satI32 x != x).length
    if far = 0 then s
    else curtain (some 4) t (record { sub := .tally, status := .saturated, who := some t } (gauge s t 0x138 far))

/-- 2^−k. -/
def f32Pow2Neg (k : Nat) : F32 := dyF32 ⟨1, - Int.ofNat k⟩ false

/-- A detector takes the sample of a step into its pending version (R278, R279); the commit tick decides about it. -/
def Spike.take (d : Spike) (x : F32) : Spike :=
  { d with
    sample := some x, pendCount := d.count + 1
    pendE := if d.count = 0 then x else f32Add d.e (f32Mul (f32Pow2Neg d.k) (f32Sub x d.e)) }

/-- A detector without the sample of a step that did not commit. -/
def Spike.drop (d : Spike) : Spike := { d with sample := none, pendE := d.e, pendCount := d.count }

/-- Whether a detector fires on a sample (R279). -/
def spikeFires (d : Spike) (x : F32) : Bool :=
  d.armed && decide (d.warmup ≤ d.count) && (! f32Finite x || f32Lt (f32Mul d.ratio d.e) x)

/-- A spike raises the curtain and counts (R279). -/
def judgeSpike (t : Nat) (d : Spike) (x : F32) (s : State) : State :=
  if spikeFires d x then gauge (curtain (some 13) t s) t 0x20 1 else s

/-- A tensor's S_t × γ², rounded once (R279); what is not finite stays so. -/
def scaledNorm (gamma pair : F32) (eref : Nat) : F32 :=
  if f32Finite pair then dyF32 (dyMul (squaredNorm pair eref) (dyMul (f32Dy gamma) (f32Dy gamma))) false
  else if f32Mag gamma = 0 then f32CanonNan else pair

/-- Insert by ascending tensor id. -/
def insertTerm (e : Nat × F32) : List (Nat × F32) → List (Nat × F32)
  | [] => [e]
  | f :: r => if e.1 < f.1 then e :: f :: r else f :: insertTerm e r

/-- The held norm (R279): the terms of every held tensor by pair_add in ascending id, then its root. -/
def heldNorm (tr : Troupe) : F32 :=
  let terms := tr.graph.flatMap fun ge => ge.2.tensors.map fun e =>
    (e.1, scaledNorm tr.gamma (normValue ge.2 (workOf tr ge.1) e.1) (eRef tr ge.2 (workOf tr ge.1) e))
  f32Sqrt (pairSumOf ((terms.foldl (fun a e => insertTerm e a) []).map (·.2)))

/-- Once every norm of the step is held, the norm detector has its sample (R279). -/
def settleNorm (t : Nat) (s : State) : State :=
  let tr := troupe s t
  if tr.workStep != tr.opened || (openCalled tr).isNone || tr.spikeNorm.sample.isSome
      || ! tr.graph.all (fun e => (workOf tr e.1).normVec.whole e.2.tensors.length) then s
  else
    let x := heldNorm tr
    judgeSpike t tr.spikeNorm x (modTroupe s t fun tr => { tr with spikeNorm := tr.spikeNorm.take x })

/-- Everything that follows in a bucket from what has arrived and been formed. -/
def settle (t b : Nat) (s : State) : State :=
  let before := workOf (troupe s t) b
  let s := settleSaturated t b before (settleHistory t b (settleVecs t b (settleSums t b (settleScale t b s))))
  let tr := troupe s t
  let s := if bucketReduced tr (graphAt tr b) (workOf tr b) then freeWindow t b s else s
  let s := settleNorm t (mirrorBucket t b s)
  noteComplete t (modTroupe s t fun tr =>
    if tr.workStep != tr.opened then tr
    else modLast tr fun r =>
      let r := if everyScale tr && r.phases != [] then r.phase 1 fun p => if p.ended then p else p.stop s else r
      if allReduced tr && r.phases != [] then r.phase 3 fun p => if p.ended then p else p.stop s else r)

/-! ### What the understudy takes (R291–R294, R399) -/

/-- Change what the troupe keeps of its partner. -/
def modMirror (s : State) (t : Nat) (f : Mirror → Mirror) : State :=
  modTroupe s t fun tr => { tr with mirror := f tr.mirror }

/-- The mirror half of a step. -/
def halfOf (tr : Troupe) (step : Nat) : Retained := tabGetD tr.mirror.halves step { step := step, skipped := false }
/-- Change the mirror half of a step. -/
def modHalf (s : State) (t step : Nat) (f : Retained → Retained) : State :=
  modTroupe s t fun tr => { tr with mirror := { tr.mirror with halves := tabPut tr.mirror.halves step (f (halfOf tr step)) } }

/-- The emit format, the count and the class of a partner's tensor: as this chip's own playbill gives them for the same
id; else BF16 chunks, every element, class G (log entry 30). -/
def partnerForm (tr : Troupe) (tensor : Nat) : Bool × Nat × Bool :=
  match tabGet tr.bill tensor with
  | some e => (e.bf16, e.count, (tabGet tr.buckets e.bucket).any (·.fclass))
  | none => (true, 2 ^ 40, false)

/-- The block index in its tensor of a block of a chunk of the partner's. -/
def partnerBlock (tr : Troupe) (tensor chunk blk : Nat) : Nat := chunk * chunkBlocks (partnerForm tr tensor).1 + blk

/-- FP32 content of a carriage in blocks of 32: (block in the chunk, values). -/
def fp32Blocks (c : Car) : List (Nat × List F32) :=
  let xs := (List.range c.count).map fun k => BitVec.ofNat 32 (field c.payload (4 * k) 4)
  (toBlocks xs).zipIdx.map fun b => (c.firstBlock + b.2, b.1)

/-- Put a block of a tensor into a table of tables. -/
def putBlock {α : Type} (tab : Tab (Tab α)) (tensor blk : Nat) (x : α) : Tab (Tab α) :=
  tabPut tab tensor (tabPut (tabGetD tab tensor []) blk x)

/-- One block of subject 0xA enters the half of its step: Q8B is reduced shard; FP32 is a master in copy mode and for
what the half already holds reduced or a G-class tensor, else a reduced F-class block (R289). -/
def takeMirrorBlock (tr : Troupe) (mode : MirrorMode) (c : Car) (h : Retained) (x : Nat × ShardBlock) : Retained :=
  let blk := partnerBlock tr c.tensor c.chunk x.1
  match x.2 with
  | .q8b _ _ => { h with shard := putBlock h.shard c.tensor blk x.2 }
  | .fp32 v =>
    if mode == .copy || ! (partnerForm tr c.tensor).2.2 || (tabGet (tabGetD h.shard c.tensor []) blk).isSome then
      { h with masters := putBlock h.masters c.tensor blk v }
    else { h with shard := putBlock h.shard c.tensor blk x.2 }

/-- The record of a carriage that has no place (R399), at most one for each troupe and tick, and the curtain where the
carriage names the OPEN or CALLED step. -/
def misplaced (t : Nat) (c : Car) (id : Nat) (s : State) : State :=
  let s := if s.log.placeSeen.contains t then suppress s
    else record { sub := .tally, status := .badArg, who := some t, detail := id % 2 ^ 20 + c.chunk * 2 ^ 20 }
      { s with log := { s.log with placeSeen := t :: s.log.placeSeen } }
  if (openCalled (troupe s t)).any fun r => r.num == c.step then curtain none t s else s

/-- Count a stale carriage (R180). -/
def staleCar (t : Nat) (s : State) : State := gauge s t 0x140 1

/-- The blocks of chunk `chunk` of a partner's tensor. -/
def partnerSpan (tr : Troupe) (tensor chunk : Nat) : Nat :=
  let f := partnerForm tr tensor
  min (chunkBlocks f.1) (cdiv f.2.1 32 - chunk * chunkBlocks f.1)

/-- The blocks that a mirror carriage brings, numbered in its chunk. -/
def mirrorContent (c : Car) : List (Nat × ShardBlock) :=
  if c.enc = 7 then (fp32Blocks c).map fun b => (b.1, .fp32 b.2)
  else (((readBlocks c.enc c.count c.firstBlock c.payload).map (·.1)).getD []).map fun b =>
    (b.1, .q8b (BitVec.ofNat 8 b.2.scale) (b.2.q.map byteOf))

/-- A mirror carriage of subject 0xA (R291, R399): its chunk and every block of it lie in the partner's tensor. -/
def takeMirror (t : Nat) (c : Car) (s : State) : State :=
  let tr := troupe s t
  match (openCalled tr).filter fun r => r.num == c.step with
  | none => staleCar t s
  | some r =>
    if tr.mirror.frozen || r.mirror == .none then s
    else if ! ((halfOf tr c.step).records.any fun k => k.tensor == c.tensor)
        || ! (mirrorContent c).all (fun x => decide (x.1 < partnerSpan tr c.tensor c.chunk)) then misplaced t c c.tensor s
    else modHalf s t c.step fun h => (mirrorContent c).foldl (takeMirrorBlock tr r.mirror c) h

/-- A residual trickle carriage (R294): a chunk's copy is replaced by a newer epoch; the copy grows block by block while
carriages of one epoch arrive. -/
def takeTrickle (t : Nat) (c : Car) (s : State) : State :=
  let tr := troupe s t
  if tr.mirror.frozen then s
  else
    let key := chunkKey c.tensor c.chunk
    let vals := (List.range c.count).map fun k => BitVec.ofNat 16 (field c.payload (2 * k) 2)
    let old := tabGetD tr.mirror.residuals key (0, [])
    let known := (tabGet tr.mirror.residuals key).isSome
    if known && c.step < old.1 then s
    else
      let base := if known && old.1 = c.step then old.2 else []
      let at_ := 32 * c.firstBlock
      let grown := base ++ List.replicate (at_ - base.length) 0
      let new := grown.take at_ ++ vals ++ grown.drop (at_ + vals.length)
      modMirror s t fun m => { m with residuals := tabPut m.residuals key (c.step, new) }

/-! ### The mirror's update at a commit tick (R291, R292) -/

/-- The area that the next mirror update reads (R292). -/
def mirrorBase (m : Mirror) : Tab TState := if m.dirty then m.running else m.checked
/-- The partner's held range in that area. -/
def heldBase (m : Mirror) : Tab (List F32) := if m.dirty then m.held else m.checkedHeld

/-- One tensor of the mirror through a step: its new state. -/
def mirrorState (tr : Troupe) (h : Retained) (base : Tab TState) (r : TensorRec) : TState :=
  let st := tabGetD base r.tensor {}
  let masters := tabGetD h.masters r.tensor []
  if ! masters.isEmpty || isDelayed tr r.tensor then
    let up := if isDelayed tr r.tensor then st else advance (optRec tr r.tensor) st
    { up with blocks := masters.foldl (fun b e => tabPut b e.1 { blockOf st e.1 with w := e.2 }) st.blocks }
  else
    let o := optRec tr r.tensor
    let up := advance o st
    let k := consts o up.p1 up.p2
    let blocks := (tabGetD h.shard r.tensor []).foldl (fun b e =>
      tabPut b e.1 (updateBlock o k r.phi (blockOf st e.1) (gradient r.gamma r.ft (decodeBlock e.2)))) st.blocks
    { up with blocks := blocks }

/-- The key of a block of the partner's held range. -/
def heldKey (tensor blk : Nat) : Nat := tensor * 2 ^ 32 + blk

/-- A held BF16 element with a delta added (R275): one rounding; a non-finite copy stays as IEEE addition keeps it. -/
def heldPlus (h : F32) (x : Dy) : BF16 :=
  if f32Finite h then bf16Sat (dyAdd (f32Dy h) x) else bf16Ieee (f32Add h (dyF32 x false))

/-- A delta of one block against a held copy, and the copy with the delta applied (R274, R275). -/
def deltaOf (fclass : Bool) (w h : List F32) : (QBlk × List F32) × List F32 :=
  let d := zip2 f32Sub w h
  if fclass then ((⟨0, List.replicate 32 0, List.replicate 32 true⟩, d), zip2 f32Add h d)
  else
    let q := deltaBlock d
    ((q, []), (h.zip q.q).map fun e => bf16Widen (heldPlus e.1 (q8bDy q.scale e.2)))

/-- Apply a COMMITTED step of the partner to the running area (R291). -/
def mirrorApply (tr : Troupe) (step : Nat) (h : Retained) : Troupe :=
  let m := tr.mirror
  let base := mirrorBase m
  let next := h.records.foldl (fun a r => tabPut a r.tensor (mirrorState tr h base r)) base
  let touched (r : TensorRec) : List Nat :=
    (tabGetD h.masters r.tensor []).map (·.1) ++
      (if (tabGetD h.masters r.tensor []).isEmpty && ! isDelayed tr r.tensor then (tabGetD h.shard r.tensor []).map (·.1)
       else [])
  let moved := h.records.foldl (fun (a : Tab (QBlk × List F32) × Tab (List F32)) r =>
      (touched r).foldl (fun a blk =>
        let key := heldKey r.tensor blk
        let d := deltaOf (partnerForm tr r.tensor).2.2 (fill32 (blockOf (tabGetD next r.tensor {}) blk).w)
          (tabGetD a.2 key (List.replicate 32 0))
        (tabPut a.1 key d.1, tabPut a.2 key d.2)) a) (([] : Tab (QBlk × List F32)), heldBase m)
  let count (r : TensorRec) : Nat := (partnerForm tr r.tensor).2.1
  let k1 := digestSum (h.records.map fun r =>
    blocksDigest 1 step r.tensor (count r) ((tabGetD h.shard r.tensor []).map fun e => (e.1, shardBits e.2)))
  let ws (r : TensorRec) : Tab (List F32) :=
    (touched r).map fun blk => (blk, fill32 (blockOf (tabGetD next r.tensor {}) blk).w)
  let kind (k : Nat) (delayed : Bool) : BitVec 64 :=
    digestSum ((h.records.filter fun r => isDelayed tr r.tensor == delayed).map fun r =>
      blocksDigest k step r.tensor (count r) (f32Bits (ws r)))
  let half := { h with running := [k1, kind 2 false, kind 3 true] }
  { tr with mirror := { m with
      running := next, dirty := true, runningStep := step, deltas := moved.1, held := moved.2
      halves := tabPut m.halves step half } }

/-- The understudy's part of a commit tick (R291): a frozen mirror takes no step, and what it received for a SKIPPED one
goes (R303, Table 11.8); a step whose mirror line changed its epoch while it ran is unmirrored
(Table 11.11). -/
def mirrorCommit (t : Nat) (r : StepRec) (did : Bool) (s : State) : State :=
  let tr := troupe s t
  if r.mirror == .none || tr.mirror.diverged then s
  else if tr.mirror.frozen then
    if did then s else modMirror s t fun m => { m with halves := tabDel m.halves r.num }
  else if (lineOf tr tr.pairLine).epoch != r.mirrorEpoch then
    gauge (modMirror s t fun m => { m with halves := tabDel m.halves r.num, deltas := [] }) t 0x28 1
  else if ! did then
    modMirror s t fun m => { m with
      deltas := []
      halves := tabPut m.halves r.num { (tabGetD m.halves r.num { step := r.num, skipped := true }) with
        step := r.num, skipped := true, shard := [], records := [], masters := [], running := [0, 0, 0] } }
  else modTroupe s t fun tr => mirrorApply tr r.num (halfOf tr r.num)

/-- The mirror areas flip (R299): the running area, at the last step it has taken, becomes the checked one, and the halves
up to the check step go. The next update reads it and writes the other area (R292), so that a successor that committed
before the flip loses nothing (Table 11.11). -/
def flipMirror (step : Nat) (m : Mirror) : Mirror :=
  { m with
    checked := if m.dirty then m.running else m.checked
    running := if m.dirty then m.checked else m.running
    checkedHeld := if m.dirty then m.held else m.checkedHeld
    held := if m.dirty then m.checkedHeld else m.held
    dirty := false
    checkedStep := if m.dirty then m.runningStep else max m.checkedStep step
    halves := m.halves.filter fun e => decide (step < e.1)
    passed := none }

/-! ### Verdicts (R298, R301) -/

/-- The verdict word (R298): s[23:0], the equal bit, the mismatching kinds. -/
def verdictValue (step : Nat) (bad : List Nat) : Nat :=
  step % 2 ^ 24 + bitOf bad.isEmpty * 2 ^ 24 + (bad.map fun k => 2 ^ (24 + k)).sum

/-- A divergence (R301): record, curtain, and no step is opened; on the principal no step is checked any more. -/
def diverge (principal : Bool) (t step kinds : Nat) (s : State) : State :=
  let s := record { sub := .ledger, status := .diverged, who := some t, step := some step, detail := kinds } s
  curtain none t (modTroupe s t fun tr => { tr with diverged := true, noCheck := tr.noCheck || principal })

/-- A digest record that is written: its closing word is whole and names the step (R297). -/
def digestWritten (tr : Troupe) (step : Nat) : Option DigestRec :=
  (tabGet tr.digestArea (step % 16)).filter fun r =>
    r.step == step && whole r.closing && r.closing.val == step % 2 ^ 32

/-- The kinds that differ (R298). -/
def badKinds (r : DigestRec) (mine : List (BitVec 64)) : List Nat :=
  ([1, 2, 3].filter fun k => ! (r.copy && k == 1)).filter fun k => r.kinds.getD (k - 1) 0 != mine.getD (k - 1) 0

/-- VERDICT_COMPARE (R298): the understudy holds the partner's record and its own mirror digests of a check step. -/
def execVerdictCompare (dt t step : Nat) (s0 : State) : Out :=
  let s := passCk dt s0
  let tr := troupe s t
  .next (match digestWritten tr step, tabGet tr.mirror.halves step with
    | some r, some h =>
      if step % max 1 tr.propN != 0 || h.running.isEmpty || tr.mirror.passed.isSome || tr.mirror.diverged then s
      else
        let bad := badKinds r h.running
        let s := mirrorWrite t step (place t kindVerdict 0) (mirrorCharge tr)
          (leBytes 8 (pcWord (verdictValue step bad)).toNat) s
        if bad.isEmpty then modMirror s t fun m => { m with passed := some (step, s.house.tick) }
        else
          diverge false t step ((bad.map fun k => 2 ^ (k - 1)).sum)
            (modMirror s t fun m => { m with diverged := true, passed := some (step, 2 ^ 64) })
    | _, _ => s)

/-- A verdict at the principal (R299, R301): an equal one waits for the next tick, an unequal one is a divergence. -/
def takeVerdict (t : Nat) (word : BitVec 64) (s : State) : State :=
  let tr := troupe s t
  if ! pcWhole word then s
  else
    let v := pcVal word
    match tr.steps.find? fun e => e.1 % 2 ^ 24 == v % 2 ^ 24 && e.2.state.val == .updated && e.1 % max 1 tr.propN == 0 with
    | none => s
    | some e =>
      if tr.noCheck then s
      else if bit v 24 then
        modTroupe s t fun tr => modStep tr e.1 fun r => { r with verdict := some s.house.tick }
      else diverge true t e.1 (bits v 25 3) s

/-- VERDICT_ARRIVE (R299). -/
def execVerdictArrive (dt t : Nat) (word : BitVec 64) (s0 : State) : Out :=
  .next (takeVerdict t word (passCk dt s0))

/-! ### What arrives as WRITEs on a mirror line -/

/-- Bytes of a state span: the elements' m, then their v, in element order (log entry 31). -/
def stateSpan (o : OptRec) (st : TState) (first n : Nat) : List Byte :=
  let blks := (List.range (cdiv n 32)).map fun k => blockOf st (first / 32 + k)
  let ms := (blks.flatMap fun b => fill32 b.m).take n
  let vs := if o.rule = 4 then blks.map fun b => b.v.headD 0 else (blks.flatMap fun b => fill32 b.v).take n
  (ms ++ vs).flatMap fun v => leBytes 4 v.toNat

/-- Read a state span back into a tensor's state. -/
def readSpan (o : OptRec) (st : TState) (first : Nat) (bs : List Byte) : TState :=
  let w (k : Nat) : F32 := BitVec.ofNat 32 (field bs (4 * k) 4)
  let total := bs.length / 4
  let n := if o.rule = 4 then total * 32 / 33 else total / 2
  { st with blocks := (List.range (cdiv n 32)).foldl (fun b k =>
      let old := tabGetD b (first / 32 + k) { w := List.replicate 32 0 }
      let m := (List.range 32).map fun i => if 32 * k + i < n then w (32 * k + i) else 0
      let v := if o.rule = 4 then [w (n + k)] else (List.range 32).map fun i => if 32 * k + i < n then w (n + 32 * k + i) else 0
      tabPut b (first / 32 + k) { old with m := m, v := v }) st.blocks }

/-! ### The working format in memory (R269, R280, Table 10.7)

The spec names the parts and their sizes and gives them no order in memory: here the elements of the blocks in ascending
order as w, then m where the rule keeps it, then v, each part whole, then t, p1 and p2 (log entry 15). -/

/-- Elements of block k of a tensor of some count. -/
def inBlock (count k : Nat) : Nat := min 32 (count - 32 * k)
/-- Whether a rule keeps m (Table 10.7). -/
def OptRec.keepsM (o : OptRec) : Bool := if o.rule = 0 then false else if o.rule = 4 then f32Lt 0 o.beta1 else true
/-- Whether a rule keeps v (Table 10.7). -/
def OptRec.keepsV (o : OptRec) : Bool := o.rule == 2 || o.rule == 3 || o.rule == 4

/-- The words of one part of a tensor's state: a number of words of each block. -/
def stateWords (blocks : List Nat) (words : Nat → List F32) : List Byte :=
  (blocks.flatMap words).flatMap fun v => leBytes 4 v.toNat

/-- The second moments of a block: one word under Adafactor, else one for each element. -/
def vWords (o : OptRec) (n : Nat) (b : Blk) : List F32 := if o.rule = 4 then [b.v.headD 0] else (fill32 b.v).take n

/-- The working state of some blocks of a tensor as bytes. -/
def stateBytes (o : OptRec) (count : Nat) (blocks : List Nat) (st : TState) : List Byte :=
  stateWords blocks (fun k => (fill32 (blockOf st k).w).take (inBlock count k)) ++
    (if o.keepsM then stateWords blocks fun k => (fill32 (blockOf st k).m).take (inBlock count k) else []) ++
    (if o.keepsV then stateWords blocks fun k => vWords o (inBlock count k) (blockOf st k) else []) ++
    leBytes 8 st.t ++ leBytes 4 st.p1.toNat ++ leBytes 4 st.p2.toNat

/-- Elements of some blocks. -/
def stateElems (count : Nat) (blocks : List Nat) : Nat := (blocks.map (inBlock count)).sum
/-- The bytes that the state of some blocks takes. -/
def stateLength (o : OptRec) (count : Nat) (blocks : List Nat) : Nat :=
  let n := stateElems count blocks
  4 * (n + (if o.keepsM then n else 0) + (if o.keepsV then (if o.rule = 4 then blocks.length else n) else 0)) + 16

/-- Read the words of a block back: `w` gives word k of the state; `e` is the first element of the block and `i` its place
among the blocks. -/
def readBlock (o : OptRec) (count total : Nat) (w : Nat → F32) (k e i : Nat) : Blk :=
  let n := inBlock count k
  let run (from_ : Nat) : List F32 := fill32 ((List.range n).map fun j => w (from_ + j))
  let vAt := total + (if o.keepsM then total else 0)
  { w := run e
    m := if o.keepsM then run (total + e) else []
    v := if ! o.keepsV then [] else if o.rule = 4 then [w (vAt + i)] else run (vAt + e) }

/-- Read some blocks of a tensor, one after the other. -/
def readBlocksOf (o : OptRec) (count total : Nat) (w : Nat → F32) : List Nat → Nat → Nat → Tab Blk → Tab Blk
  | [], _, _, a => a
  | k :: r, e, i, a =>
    readBlocksOf o count total w r (e + inBlock count k) (i + 1) (tabPut a k (readBlock o count total w k e i))

/-- The working state that bytes give to some blocks of a tensor; its other blocks stay. -/
def readState (o : OptRec) (count : Nat) (blocks : List Nat) (old : TState) (bs : List Byte) : TState :=
  let w (k : Nat) : F32 := BitVec.ofNat 32 (field bs (4 * k) 4)
  let tail := stateLength o count blocks - 16
  { blocks := readBlocksOf o count (stateElems count blocks) w blocks 0 0 old.blocks
    t := field bs tail 8 % 2 ^ 48, p1 := BitVec.ofNat 32 (field bs (tail + 8) 4), p2 := BitVec.ofNat 32 (field bs (tail + 12) 4) }

/-- Room for a copied tensor: its blocks' numbers, its state and its held range (log entry 84). -/
def copyRoom (count : Nat) : Nat := 20 + 516 * cdiv count 32

/-- Elements of one span of the state trickle (R293). -/
def spanSize : Nat := 65536

/-- A copied tensor that has arrived whole enters both mirror areas, with its held range (R302): the number of blocks,
their indices, their state, and 32 words of the held range for each. -/
def takeCopied (tr : Troupe) (tensor : Nat) (bs : List Byte) : Troupe :=
  let o := optRec tr tensor
  let count := (partnerForm tr tensor).2.1
  let n := field bs 0 4
  let blocks := (List.range n).map fun i => field bs (4 + 4 * i) 4
  let body := bs.drop (4 + 4 * n)
  let st := readState o count blocks {} body
  let held := body.drop (stateLength o count blocks)
  let put (h : Tab (List F32)) : Tab (List F32) := blocks.zipIdx.foldl (fun h k => tabPut h (heldKey tensor k.1)
    ((List.range 32).map fun i => BitVec.ofNat 32 (field held (4 * (32 * k.2 + i)) 4))) h
  { tr with mirror := { tr.mirror with
      checked := tabPut tr.mirror.checked tensor st, running := tabPut tr.mirror.running tensor st, dirty := false
      checkedHeld := put tr.mirror.checkedHeld, held := put tr.mirror.held } }

/-- The places of a partner's areas that a WRITE on the mirror line may name (log entry 16): tensor record, digest
record, verdict word, state span, copied tensor. The result says whether it was one. -/
def takeMirrorWrite (t : Nat) (c : Car) (content : List Byte) (s : State) : Option State :=
  let tr := troupe s t
  let target := c.target.toNat
  let frozen (f : State → State) : Option State := some (if tr.mirror.frozen then s else f s)
  if target = place t kindMirrorRecord (c.step % 16 * 2 ^ 20 + bits (field content 0 4) 0 20) then
    frozen fun s => modHalf s t c.step fun h =>
      { h with records := (h.records.filter fun r => r.tensor != (readTensorRecord content).tensor) ++ [readTensorRecord content] }
  else if target = place t kindDigest (c.step % 16) then
    frozen fun s => modTroupe s t fun tr =>
      { tr with digestArea := tabPut tr.digestArea (c.step % 16) (readDigestRecord content) }
  else if target = place t kindResyncEnd 0 then
    let at_ := field content 0 6
    some (modMirror (modTroupe s t fun tr => { tr with diverged := tr.diverged && tr.noCheck }) t fun m =>
      { m with diverged := false, passed := none, checkedStep := at_, runningStep := at_, dirty := false
               halves := m.halves.filter fun e => decide (at_ < e.1) })
  else if target = place t kindVerdict 0 then some (takeVerdict t (BitVec.ofNat 64 (field content 0 8)) s)
  else
    match tr.bill.find? fun e =>
        place t kindMirrorArea e.1 ≤ target && target < place t kindMirrorArea e.1 + copyRoom e.2.count with
    | some e =>
      let bs := (if target = place t kindMirrorArea e.1 then [] else tabGetD tr.mirror.incoming e.1 []) ++ content
      if c.last then
        frozen fun s => modMirror (modTroupe s t fun tr => takeCopied tr e.1 bs) t fun m =>
          { m with incoming := tabDel m.incoming e.1 }
      else frozen fun s => modMirror s t fun m => { m with incoming := tabPut m.incoming e.1 bs }
    | none =>
      match tr.bill.find? fun e =>
          place t kindMirrorState e.1 ≤ target && target < place t kindMirrorState e.1 + 8 * e.2.count with
      | none =>
        (tr.bill.find? fun e => (List.range (cdiv e.2.count spanSize)).any fun k =>
            target = place t kindStamp (e.1 * 2 ^ 20 + k)).bind fun e =>
          ((List.range (cdiv e.2.count spanSize)).find? fun k => target = place t kindStamp (e.1 * 2 ^ 20 + k)).bind fun k =>
            frozen fun s => modMirror s t fun m =>
              { m with stamps := tabPut m.stamps (e.1 * 2 ^ 20 + k) (field content 0 6) }
      | some e =>
        let first := (target - place t kindMirrorState e.1) / (8 * spanSize) * spanSize
        let bs := (if (target - place t kindMirrorState e.1) % (8 * spanSize) = 0 then []
          else tabGetD tr.mirror.incoming e.1 []) ++ content
        if c.last then
          frozen fun s => modMirror s t fun m =>
            let upd (a : Tab TState) : Tab TState := tabPut a e.1 (readSpan (optRec tr e.1) (tabGetD a e.1 {}) first bs)
            { m with checked := upd m.checked, running := upd m.running, incoming := tabDel m.incoming e.1 }
        else frozen fun s => modMirror s t fun m => { m with incoming := tabPut m.incoming e.1 bs }

end Sys2Proof.Machine
end

