-- ==== Sys2Proof/Machine/Inlet.lean ====
section
/-! DEFINITION. The inlet: emits, their checks, chunk reads, accumulation and the pits' metering windows (R72–R87,
R139). -/

namespace Sys2Proof.Machine

open Sys2Proof

/-- The troupe that a core is bound to: the binding served last that covers it, else troupe 0 (R74). -/
def coreTroupe (h : House) (core : Nat) : Nat :=
  ((h.cores.find? fun b => b.1 ≤ core && core < b.1 + b.2.1).map fun b => b.2.2).getD 0

/-- A descriptor with the troupe that the chip fills in (Table 3.3). -/
def stamped (t : Nat) (desc : List Byte) : List Byte :=
  BitVec.ofNat 8 (field desc 0 1 / 64 * 64 + t % 64) :: slice desc 1 31

/-- EMIT (R75): the descriptor enters its troupe's queue; while the queue is full the core stalls. -/
def execEmit (dt core : Nat) (desc : List Byte) (s0 : State) : Out :=
  let s := passCk dt s0
  let t := coreTroupe s.house core
  let tr := troupe s t
  .next (if tr.life == .absent || s.house.stalledEmits.any (fun e => e.1 == core) then s
    else if tr.queue.length < 512 then modTroupe s t fun tr => { tr with queue := tr.queue ++ [stamped t desc] }
    else modHouse s fun h => { h with stalledEmits := h.stalledEmits ++ [(core, t, stamped t desc)] })

/-- Take the head off a troupe's queue; the first core that stalls on it goes on (R75). -/
def popQueue (t : Nat) (s : State) : State :=
  let next := s.house.stalledEmits.find? fun e => e.2.1 == t
  let s := modTroupe s t fun tr => { tr with queue := tr.queue.drop 1 ++ (next.map fun e => e.2.2).toList }
  match next with
  | none => s
  | some e => modHouse s fun h => { h with stalledEmits := h.stalledEmits.filter fun f => f.1 != e.1 }

/-- What the tag of a descriptor at the head of a queue makes of it (R76, R332). -/
inductive TagJudge where
  | taken | waits | stale
  deriving DecidableEq, Repr

/-- Compare a step tag with the troupe's step state (R76). -/
def tagJudge (tr : Troupe) (tag : Nat) : TagJudge :=
  if tr.life == .fenced || tr.life == .resetting then .stale
  else match openCalled tr with
    | some r => if tag == r.num % 65536 then .taken else if tag == (tr.opened + 1) % 65536 then .waits else .stale
    | none => if tag == (tr.opened + 1) % 65536 then .waits else .stale

/-- The scratchpad address of a descriptor. -/
def descSlot (d : List Byte) : BitVec 64 := BitVec.ofNat 64 (field d 16 6)

/-- The checks of Table 3.4 on a taken descriptor, in order. -/
def descStatus (tr : Troupe) (r : StepRec) (d : List Byte) : Option Status :=
  let cue := field d 2 2
  let tensor := field d 4 4
  let chunk := field d 8 4
  let micro := field d 1 1
  let slot := descSlot d
  if field d 0 1 / 64 != 0 || bits cue 10 5 != 0 || tensor ≥ 2 ^ 20 || field d 14 2 != 0 || field d 22 2 != 0
      || field d 24 8 != 0 then some .badArg
  else match (graphOfTensor tr tensor).bind fun g => g.tensor tensor with
    | none => some .badArg
    | some e =>
      let seen := (tabGetD tr.chunks (chunkKey tensor chunk) {}).micros
      if chunk ≥ chunkCount e.2.1 e.2.2.2 then some .badArg
      else if micro ≥ r.m || seen.contains micro then some .badArg
      else if ! r.adlib && micro != seen.length then some .badArg
      else if ! tr.arenas.any (fun a => (arenaSlots a.2).contains slot) then some .badArg
      else if bit cue 15 && ! cueExists tr (cue % 1024) then some .badArg
      else if tr.slots.contains slot then some .state
      else none

/-- Take a descriptor: its slot is held (R72, R76). -/
def takeEmit (t : Nat) (r : StepRec) (d : List Byte) (s : State) : State :=
  let tensor := field d 4 4
  let chunk := field d 8 4
  let slot := descSlot d
  let cue := BitVec.ofNat 16 (field d 2 2)
  let k : Taken := { micro := field d 1 1, cue := cue, tensor := tensor, chunk := chunk, slot := slot, step := r.num }
  useEntry .inlet t tensor (modTroupe s t fun tr =>
    let c := tabGetD tr.chunks (chunkKey tensor chunk) {}
    let c := { c with micros := c.micros ++ [k.micro], cue := cue }
    modLast { tr with taken := tr.taken ++ [k], slots := slot :: tr.slots
                      chunks := tabPut tr.chunks (chunkKey tensor chunk) c }
      fun r => r.phase 0 fun p => p.start s)

/-- Serve the descriptor at the head of troupe t's queue: taken, dropped as stale, or bad (R76, R77). -/
def serveHead (t : Nat) (d : List Byte) (s : State) : State :=
  let tr := troupe s t
  let s := modHouse (popQueue t s) fun h => { h with inletTurn := t }
  match tagJudge tr (field d 12 2), openCalled tr with
  | .taken, some r =>
    match descStatus tr r d with
    | some st =>
      fault { sub := .inlet, status := st, who := some t, address := (descSlot d).toNat
              detail := field d 4 4 % 2 ^ 20 + field d 8 4 * 2 ^ 20 } (some 6) s
    | none => takeEmit t r d s
  | _, _ =>
    let cue := BitVec.ofNat 16 (field d 2 2)
    gauge (if cueExists tr (cue.toNat % 1024) then signalField t cue s else s) t 0x108 1

/-- The troupes in the order in which the inlet looks at their queues (R75). -/
def inletOrder (s : State) : List Nat :=
  let ts := troupeNumbers s
  (ts.filter fun t => s.house.inletTurn < t) ++ ts.filter fun t => t ≤ s.house.inletTurn

/-- Whether the head of a queue can be served now. A descriptor to be taken waits while the share of its chunk's home pit
is spent, so that the stall passes back through the queue to the cores (R85, log entry 93). -/
def headReady (s : State) (t : Nat) : Bool :=
  match (troupe s t).queue with
  | [] => false
  | d :: _ =>
    match tagJudge (troupe s t) (field d 12 2) with
    | .waits => false
    | .stale => true
    | .taken => hasShare s (homePit s.house.pits (field d 4 4) (field d 8 4))

/-- EMIT_TAKE (R75–R77): the next queue whose head does not wait. -/
def execEmitTake (dt : Nat) (s0 : State) : Out :=
  let s := passCk dt s0
  .next (match (inletOrder s).find? (headReady s) with
    | none => s
    | some t =>
      match (troupe s t).queue with
      | [] => s
      | d :: _ => serveHead t d s)

/-! ### Metering windows (R139) -/

/-- The pit's next 1-µs window opens with its whole allowance, less what work begun before still owes; nothing unused
carries over (R139). -/
def openWindow (pit : Nat) (s : State) : State :=
  modHouse s fun h => { h with
    allowance := tabPut h.allowance pit (windowBytes h - tabGetD h.owed pit 0)
    owed := tabPut h.owed pit (tabGetD h.owed pit 0 - windowBytes h) }

/-! ### Chunks (R80–R84, R86, R87) -/

/-- The first non-finite element of a step: of those of one scene the one in the lowest pit (R89). -/
def StepRec.found (r : StepRec) (e : Nat × BitVec 64 × Nat × Nat) : StepRec :=
  if r.nonfinite || r.badElement.any (fun b => decide (b.1 ≤ e.1)) then r else { r with badElement := some e }

/-- Non-finite elements of a chunk (R86): counted, the curtain, and the step's one record, which the end of the scene
writes (R89, log entry 95). -/
def nonFinite (t step tensor chunk : Nat) (slot : BitVec 64) (at_ : List Nat) (s : State) : State :=
  match at_ with
  | [] => s
  | first :: _ =>
    let s := gauge s t 0x100 at_.length
    let s := modTroupe s t fun tr =>
      modStep tr step fun r => r.found (homePit s.house.pits tensor chunk, slot, tensor, first)
    if (openCalled (troupe s t)).any fun r => r.num == step then curtain (some 0) t s else s

/-- The record of one step's first non-finite element (R86). -/
def elementRecord (t : Nat) (s : State) (e : Nat × StepRec) : State :=
  match e.2.badElement with
  | none => s
  | some b =>
    record { sub := .inlet, status := .nonfinite, who := some t, step := some e.1, address := b.2.1.toNat
             detail := b.2.2.1 % 2 ^ 20 + b.2.2.2 % 65536 * 2 ^ 20 }
      (modTroupe s t fun tr => modStep tr e.1 fun r => { r with nonfinite := true, badElement := none })

/-- The records of a scene's first non-finite elements, as the scene ends (R89). -/
def closeElements (t : Nat) (s : State) : State := (troupe s t).steps.foldl (elementRecord t) s

/-- Places of a list that fail a test. -/
def placesOf (bad : F32 → Bool) (xs : List F32) : List Nat := (xs.zipIdx.filter fun e => bad e.1).map (·.2)

/-- A chunk is complete; its bucket completes with its last one: the order, its entry in the step ledger, inversions and
the scale call (R71, R82, R124, R312). -/
def chunkDone (t tensor chunk : Nat) (s : State) : State :=
  let s := modTroupe s t fun tr =>
    { tr with chunks := tabMod tr.chunks (chunkKey tensor chunk) fun c => { c with complete := true } }
  let tr := troupe s t
  match graphOfTensor tr tensor with
  | none => s
  | some g =>
    let b := g.bucket
    let whole_ := g.chunkList.all fun k => (tabGet tr.chunks (chunkKey k.1.1 k.2)).any (·.complete)
    if ! whole_ || (workOf tr b).complete then s
    else
      let order := ((lastStep tr).map (·.order)).getD []
      let s := gauge s t 0x110 (bitOf (order.any (b < ·)))
      let s := modTroupe s t fun tr => modLast tr fun r => { r with order := r.order ++ [b] }
      let s := ledgerStore t tr.opened (modWork s t b fun w => { w with complete := true })
      let s := if (troupe s t).graph.all fun e => (workOf (troupe s t) e.1).complete then
          modTroupe s t fun tr => modLast tr fun r => r.phase 0 fun p => p.stop s
        else s
      settle t b (issueCall t b s)

/-- CHUNK_READ (R83–R86): the oldest taken chunk whose pit has allowance left is read and checked. With M > 1 its slot
is released and its cue signalled; with M = 1 the chunk is complete and stays in its slot, which the pit reads for the
scale call and again at quantisation. -/
def execChunkRead (dt t : Nat) (s0 : State) : Out :=
  let s := passCk dt s0
  let tr := troupe s t
  .next (match tr.taken.find? fun k => ! k.read && hasShare s (homePit s.house.pits k.tensor k.chunk) with
    | none => s
    | some k =>
      match (graphOfTensor tr k.tensor).bind fun g => g.tensor k.tensor with
      | none => s
      | some e =>
        let raw := slotElements s k.slot (chunkLength e.2.1 e.2.2.2 k.chunk) e.2.2.2
        let data := cleaned notFinite raw
        let single := (stepOf tr k.step).any fun r => r.m == 1
        let rest := tr.taken.erase k
        let now := { k with read := true, data := data }
        let s := modTroupe s t fun tr => { tr with
          taken := if single then rest else tr.taken.map fun j => if j == k then now else j }
        let s := nonFinite t k.step k.tensor k.chunk k.slot (placesOf notFinite raw) s
        if ! single then releaseSlot t k.slot k.cue s
        else if (flight (troupe s t)).any fun r => r.num == k.step then
          chunkDone t k.tensor k.chunk (modTroupe s t fun tr =>
            { tr with chunks := tabMod tr.chunks (chunkKey k.tensor k.chunk) fun c =>
                { c with added := 1, slot := some k.slot } })
        else releaseSlot t k.slot k.cue s)

/-- The accumulation of one micro-batch into a buffer (R80): the first emit is copied. -/
def accumulate (c : ChunkRec) (data : List F32) : List F32 :=
  if c.added = 0 then data else zip2 f32Add c.acc data

/-- HBM bytes of one add of n elements (Table 3.5): the first writes the buffer, a later one reads and writes it, and the
last one of a G-class chunk also reads the residual for the local bytes (R123, Table 5.6). -/
def addBytes (first last : Bool) (n : Nat) : Nat := ((if first then 4 else 8) + (if last then 2 else 0)) * n

/-- CHUNK_ACCUMULATE (R80–R82, R87, R89, R123): the oldest read micro-batch of the chunk is added while its step is in
flight; what belongs to a step whose commit tick has passed is dropped. -/
def execChunkAccumulate (dt t tensor chunk : Nat) (s0 : State) : Out :=
  let s := passCk dt s0
  let tr := troupe s t
  let pit := homePit s.house.pits tensor chunk
  .next (match tr.taken.find? fun k => k.read && k.tensor == tensor && k.chunk == chunk with
    | none => s
    | some k =>
      if ! hasShare s pit || pitWaits s pit then s
      else
        let s := modTroupe s t fun tr => { tr with taken := tr.taken.erase k }
        match (flight tr).filter fun r => r.num == k.step with
        | none => s
        | some r =>
          let c := tabGetD tr.chunks (chunkKey tensor chunk) {}
          let sums := accumulate c k.data
          let last := c.added + 1 == r.m && ! (graphOfTensor tr tensor).any (·.fclass)
          let s := spendShare pit (addBytes (c.added == 0) last k.data.length) s
          let s := modTroupe s t fun tr => { tr with
            chunks := tabPut tr.chunks (chunkKey tensor chunk) { c with acc := cleaned notFinite sums, added := c.added + 1 } }
          let s := nonFinite t k.step tensor chunk k.slot (placesOf notFinite sums) s
          if c.added + 1 = r.m then chunkDone t tensor chunk s else s)

end Sys2Proof.Machine
end

