-- ==== Sys2Proof/Machine/Quant.lean ====
section
/-! DEFINITION. The quantisation pass and the sieve's choice and cut (R90–R107, R126–R128, R137–R140). -/

namespace Sys2Proof.Machine

open Sys2Proof

/-! ### The choice (R97) -/

/-- A bucket's sieve record. -/
def sieveRec (tr : Troupe) (b : Nat) : SieveRec := (tabGetD tr.sieve b ({}, none)).1

/-- Walk counts from the top: the first index, counting down from `i`, at which the running count reaches `q`, and what
is left of `q` there. -/
def walkDown : List Nat → Nat → Nat → Nat × Nat
  | [], i, q => (i, q)
  | c :: r, i, q => if q ≤ c then (i, q) else walkDown r (i - 1) (q - c)

/-- The dense choice. A bucket that R97 sends dense before it computes t has t 0 in its ledger entry: the spec gives R106
no value there (log entry 101). -/
def denseChoice (t : Nat) : Choice := { sparse := false, enc := 1, bin := none, t := t }

/-- R97. The selection is 0 dense, 1 sparse, 2 automatic; bin 65,535 stands for all_nonzero. -/
def choose (hist : Option (List Nat)) (selection : Nat) (d c : Nat) : Choice :=
  match hist with
  | none => denseChoice 0
  | some h =>
    let total := h.sum
    if selection = 0 || total = 0 then denseChoice 0
    else
      let z := (h.drop 1).sum
      let t := cdiv (total * d) 65536
      let est := min t z
      if selection = 2 && c * total < est * 65536 then denseChoice t
      else
        let enc := if 8 * est < total then 3 else 2
        if z < t then { sparse := true, enc := enc, bin := some 65535, t := t }
        else { sparse := true, enc := enc, bin := some (walkDown h.reverse (h.length - 1) t).1, t := t }

/-- The choice of a bucket (R97). -/
def bucketChoice (tr : Troupe) (b : Nat) : Choice :=
  let k := sieveRec tr b
  choose (tabGet tr.histograms b) (graphAt tr b).selection k.density k.crossover

/-! ### Keys and draws -/

/-- m of R90. -/
def magnitude (v : F32) : Nat := if f32Nan v then 0x7FFFFFFF else f32Mag v
/-- The key of the element at bucket offset i (R90). -/
def magKey (i : Nat) (v : F32) : Nat := magnitude v * 2 ^ 32 + (0xFFFFFFFF - i)
/-- The bin of a value (R90). -/
def magBin (v : F32) : Nat := magnitude v / 2 ^ 19

/-- The first of the 256 lanes on which the work of a pit runs: the pit's own, or those of the group that takes its chunks
(R9, R375). The wing group's lanes follow those of the P pits: the spec numbers them nowhere (log entry 92). -/
def laneBase (h : House) (pit : Nat) : Nat :=
  let u := (pitGroup h pit).getD pit
  256 * (if u = 8 then h.pits else u)

/-- One ad-lib draw for an element of a pit: the lane that takes it steps 16 times (R138, log entry 13). -/
def adlibDraw (pit : Nat) (h : House) : Nat × House :=
  let lane := laneBase h pit + Config.laneOf h.draws % 256
  let x := lfsrSteps 16 (h.lfsr.getD lane 1)
  (x.toNat / 2 ^ 48, { h with lfsr := h.lfsr.set lane x, draws := h.draws + 1 })

/-- r16 of an element: none for nearest even (R127, R137, R138). In scripted mode it is a function of the seed, the step, the
tensor and the element alone: no tick, pit, lane or port enters a value (R311). -/
def drawFor (r : StepRec) (stochastic : Bool) (tensor j pit : Nat) (h : House) : Option Nat × House :=
  if ! stochastic then (none, h)
  else if r.adlib then (some (adlibDraw pit h).1, (adlibDraw pit h).2)
  else (some (scriptedDraw r.seed r.num tensor j), h)

/-! ### The pass over one block -/

/-- What a pass made of one element; without a residual nothing is written for it yet (R99). -/
structure Elem where
  q    : Int
  res  : Option BF16
  sent : Bool
  band : Bool
  deriving DecidableEq, Repr

/-- The boundary bin as the pass compares with it: bin 0 for all_nonzero. -/
def Choice.edge (c : Choice) : Nat :=
  match c.bin with
  | none => 0
  | some b => if b = 65535 then 0 else b
/-- Whether the choice has a band. -/
def Choice.banded (c : Choice) : Bool := c.sparse && c.bin != some 65535

/-- A sent element (R127). -/
def sendElem (r : StepRec) (stochastic : Bool) (tensor j pit e : Nat) (v : F32) (h : House) : Elem × House :=
  let d := drawFor r stochastic tensor j pit h
  let x := quantise v e d.1
  (⟨x.1, some x.2, true, false⟩, d.2)

/-- One element of the pass (R99, R127, R128): j is its offset in its tensor. -/
def passElem (c : Choice) (r : StepRec) (en : Entry) (pit e j : Nat) (v : F32) (h : House) : Elem × House :=
  if en.count ≤ j then (⟨0, some 0, ! c.sparse, false⟩, h)
  else if ! c.sparse || c.edge < magBin v then sendElem r en.stochastic en.tensor j pit e v h
  else if c.banded && magBin v == c.edge then (⟨0, none, false, true⟩, h)
  else (⟨0, some (unsent v), false, false⟩, h)

/-- The elements of one block. -/
def passElems (c : Choice) (r : StepRec) (en : Entry) (pit e : Nat) : List F32 → Nat → House → List Elem × House
  | [], _, h => ([], h)
  | v :: vs, j, h =>
    let x := passElem c r en pit e j v h
    let y := passElems c r en pit e vs (j + 1) x.2
    (x.1 :: y.1, y.2)

/-- What a pass has made of a bucket: blocks, residuals by block, band entries. -/
structure PassOut where
  quant : Tab QBlk := []
  res   : Tab (List (Option BF16)) := []
  band  : List (Nat × F32) := []
  deriving DecidableEq, Repr

/-- One block of the pass; its scale byte is 254 where it is 0xFF (R127). -/
def passBlock (tr : Troupe) (g : Graph) (w : BWork) (c : Choice) (r : StepRec) (blk : Nat) (vs : List F32)
    (o : PassOut × House) : PassOut × House :=
  match g.tensorAt blk with
  | none => o
  | some te =>
    match tabGet tr.bill te.1 with
    | none => o
    | some en =>
      let e := min 254 (scaleByte w blk)
      let x := passElems c r en (g.pitOf o.2.pits blk) e vs (32 * (blk - (tensorBlocks te).1)) o.2
      let q : QBlk := ⟨e, x.1.map (·.q), x.1.map (·.sent)⟩
      let band := ((x.1.zip vs).zipIdx.filter fun k => k.1.1.band).map fun k => (32 * blk + k.2, k.1.2)
      ({ quant := tabPut o.1.quant blk q, res := tabPut o.1.res blk (x.1.map (·.res)), band := o.1.band ++ band }, x.2)

/-- The blocks of a bucket in the order in which the pits quantise them: the member's own range, then the ranges of the
others in the order of its rounds (R177). -/
def passOrder (tr : Troupe) (g : Graph) : List Nat :=
  let n := g.members tr
  (List.range n).flatMap fun r =>
    let o := ownedRange ((g.own tr + r) % n) n g.blocks
    (List.range (o.2 - o.1)).map (o.1 + ·)

/-- Put the new residuals of a chunk's blocks into the bank being written; where the pass wrote none, what stands there
stays (R99). -/
def storeChunk (tr : Troupe) (res : Tab (List (Option BF16))) (k : (Nat × Nat × Nat × Bool) × Nat) : Troupe :=
  let sp := chunkSpan k.1 k.2
  let old := residual tr (! bankNow tr) (chunkKey k.1.1 k.2)
  let all := (List.range sp.2).flatMap fun i => tabGetD res (sp.1 + i) (List.replicate 32 none)
  setResidual tr (! bankNow tr) (chunkKey k.1.1 k.2)
    ((all.take (chunkLength k.1.2.1 k.1.2.2.2 k.2)).zipIdx.map fun x => x.1.getD (old.getD x.2 0))

/-! ### The cut (R98, R101) -/

/-- T_local (R98). -/
def localQuota (n d : Nat) : Nat := cdiv (n * d) 65536

/-- The keys of a band between two bounds, descending. -/
def bandKeys (band : List (Nat × F32)) (lo hi : Nat) : List Nat :=
  ((band.map fun e => magKey e.1 e.2).filter fun k => lo ≤ k && k < hi).mergeSort (fun a b => b ≤ a)

/-- The shift of a radix level (Table 4.3). -/
def levelShift (level : Nat) : Nat :=
  match level with
  | 2 => 39 | 3 => 27 | 4 => 15 | 5 => 3 | _ => 0
/-- The number of bins of a radix level. -/
def levelBins (level : Nat) : Nat := if level ≤ 5 then 4096 else 8

/-- One radix level: the bounds, the quota left and the level done (R101). -/
def radixLevel (band : List (Nat × F32)) (cut : Nat × Nat × Nat × Nat) : Nat × Nat × Nat × Nat :=
  let level := cut.2.2.2 + 1
  let sh := levelShift level
  let keys := bandKeys band cut.1 cut.2.1
  let counts := ((List.range (levelBins level)).map fun i =>
    (keys.filter fun k => (k - cut.1) / 2 ^ sh == i).length).reverse
  let x := walkDown counts (levelBins level - 1) cut.2.2.1
  (cut.1 + x.1 * 2 ^ sh, cut.1 + (x.1 + 1) * 2 ^ sh, x.2, level)

/-- Write one band entry into the bucket's blocks and residuals once κ is fixed (R99). -/
def placeBand (g : Graph) (r : StepRec) (kappa : Nat) (e : Nat × F32) (s : State) (t b : Nat) : State :=
  let tr := troupe s t
  let blk := e.1 / 32
  match g.tensorAt blk with
  | none => s
  | some te =>
    let tb := blk - (tensorBlocks te).1
    let j := 32 * tb + e.1 % 32
    let stochastic := (tabGet tr.bill te.1).any (·.stochastic)
    let byte := min 254 (scaleByte (workOf tr b) blk)
    let x : Elem × House :=
      if kappa ≤ magKey e.1 e.2 then sendElem r stochastic te.1 j (g.pitOf s.house.pits blk) byte e.2 s.house
      else (⟨0, some (unsent e.2), false, false⟩, s.house)
    let key := chunkKey te.1 (tb / chunkBlocks te.2.2.2)
    let at_ := 32 * (tb % chunkBlocks te.2.2.2) + e.1 % 32
    let bank := ! bankNow tr
    let s := { s with house := x.2 }
    let s := modTroupe s t fun tr => setResidual tr bank key ((residual tr bank key).set at_ (x.1.res.getD 0))
    if ! x.1.sent then s
    else modWork s t b fun w => { w with quant := tabMod w.quant blk fun q =>
      { q with q := q.q.set (e.1 % 32) x.1.q, present := q.present.set (e.1 % 32) true } }

/-- Elements that a bucket's blocks send. -/
def sentCount (w : BWork) : Nat := (w.quant.map fun e => (e.2.present.filter id).length).sum

/-- HBM bytes of a cut in its buffer, two passes over what each level finds and one over what is sorted (R101); `limit`
is the number of keys at which the levels stop. -/
def cutBytes (limit : Nat) (band : List (Nat × F32)) : Nat → Nat × Nat × Nat × Nat → Nat
  | 0, _ => 0
  | n + 1, cut =>
    let keys := (bandKeys band cut.1 cut.2.1).length
    if keys ≤ limit then 8 * keys else 16 * keys + cutBytes limit band n (radixLevel band cut)

/-- The pit of band buffer k (R100). -/
def bufferPit (pits : Nat) (k : Option Nat) : Nat := k.getD 0 * pits / 4
/-- The lowest band buffer of the troupe that no bucket holds (R100). -/
def freeBuffer (tr : Troupe) : Option Nat :=
  (List.range 4).find? fun k => ! tr.work.any fun e => e.2.buffer == some k

/-- The pass is over: κ is fixed, the buffer is released, the slots go, this chip's own contribution is in, and the sieve
entry stands in the step ledger (R84, R99, R103, R106, R312). -/
def endPass (t b kappa : Nat) (s : State) : State :=
  let tr := troupe s t
  let g := graphAt tr b
  let w := workOf tr b
  match stepOf tr tr.workStep with
  | none => s
  | some r =>
    let s := w.band.foldl (fun s e => placeBand g r kappa e s t b) s
    let s := modWork s t b fun w => { w with pass := .ended, kappa := some kappa, buffer := none, band := [], cut := none }
    let w := workOf (troupe s t) b
    let entry : SieveEntry := { bucket := b, choice := w.choice.getD (denseChoice 0), selected := sentCount w, kappa := kappa }
    let s := ledgerStore t r.num (modTroupe s t fun tr => modLast tr fun r => { r with sieve := r.sieve ++ [entry] })
    let s := releaseChunks t (g.chunkList.map fun k => chunkKey k.1.1 k.2) s
    let tr := troupe s t
    let done_ := tr.graph.all fun e => e.2.fclass || (workOf tr e.1).pass == .ended
    let s := if done_ then modTroupe s t fun tr => modLast tr fun r => r.phase 2 fun p => p.stop s else s
    settle t b s

/-! ### The events -/

/-- Whether the pits of some chunks can work: their windows have allowance left and their lanes do not wait (R139, R375). -/
def pitsReady (s : State) (ks : List ((Nat × Nat × Nat × Bool) × Nat)) : Bool :=
  ks.all fun k => hasShare s (homePit s.house.pits k.1.1 k.2) && ! pitWaits s (homePit s.house.pits k.1.1 k.2)

/-- Whether a bucket's pass is due, and waits for nothing but its pits (R100, R126, R134): passes start in the order of completion among the buckets that
hold their scale bytes (R70), so that a bucket whose calls wait for the dispatch order of R46 holds no other back (log
entry 54). -/
def passDue (s : State) (t b : Nat) : Bool :=
  let tr := troupe s t
  let w := workOf tr b
  let g := graphAt tr b
  let order := ((openCalled tr).map (·.order)).getD []
  let before := order.takeWhile (· != b)
  (openCalled tr).isSome && tr.life != .resetting && tr.workStep == tr.opened && w.called && w.pass == .idle && ! g.fclass && allScaled g w
    && ! g.tensors.isEmpty && ! fallbackRuns tr b
    && before.all (fun c => (graphAt tr c).fclass || (workOf tr c).pass != .idle
        || ! allScaled (graphAt tr c) (workOf tr c))
    && (! (bucketChoice tr b).sparse || (freeBuffer tr).isSome)

/-- Whether a bucket's pass may start: it is due, and every pit with a chunk of it can go on. -/
def passReady (s : State) (t b : Nat) : Bool := passDue s t b && pitsReady s (graphAt (troupe s t) b).chunkList

/-- QUANT_PASS_START (R63, R97, R100, R126): the pits use the bucket's entries, the choice is made and a sparse bucket
takes a band buffer. -/
def execQuantPassStart (dt t b : Nat) (s0 : State) : Out :=
  let s := passCk dt s0
  .next (if ! passReady s t b then s
    else
      let s := (graphAt (troupe s t) b).tensors.foldl (fun s e => useEntry .pits t e.1 s) (useBank t s)
      let c := bucketChoice (troupe s t) b
      let k := if c.sparse then freeBuffer (troupe s t) else none
      let s := modTroupe s t fun tr => modLast tr fun r => r.phase 2 fun p => p.start s
      modWork s t b fun w => { w with pass := .running, choice := some c, buffer := k })

/-- A broken scale word that the pass meets: record and curtain (R125). -/
def useScaleWord (t b : Nat) (g : Graph) (k : Nat) (s : State) : State :=
  if whole (tabGetD (workOf (troupe s t) b).words k ⟨0, 0⟩) then s
  else
    let pit := ((g.tensorAt (4 * k)).map fun e =>
      homePit s.house.pits e.1 ((4 * k - (tensorBlocks e).1) / chunkBlocks e.2.2.2)).getD 0
    curtain (some 1) t (record
      { sub := .pits, status := .integrity, who := some t, address := place t kindScale (b * 2 ^ 21 + k), detail := pit } s)

/-- HBM bytes that a pass reads of n elements (Table 5.6): the residual, and with M > 1 the accumulation buffer. -/
def passBytes (single : Bool) : Nat := if single then 2 else 6
/-- HBM bytes that a pass writes for a chunk beside its residuals: one scale byte for each block and the elements sent
(Table 5.6). -/
def sentBytes (quant : Tab QBlk) (k : (Nat × Nat × Nat × Bool) × Nat) : Nat :=
  let sp := chunkSpan k.1 k.2
  ((List.range sp.2).map fun i => 1 + ((tabGet quant (sp.1 + i)).map fun q => (q.present.filter id).length).getD 0).sum

/-- Spend what a pass moves (Table 5.6). -/
def spendPass (single : Bool) (quant : Tab QBlk) (ks : List ((Nat × Nat × Nat × Bool) × Nat)) (s : State) : State :=
  ks.foldl (fun s k => spendShare (homePit s.house.pits k.1.1 k.2)
    ((passBytes single + 2) * chunkLength k.1.2.1 k.1.2.2.2 k.2 + sentBytes quant k) s) s

/-- QUANT_PASS_END (R92, R93, R98, R99, R102): the bucket is quantised in the order of R177; residuals are written; the
histogram and the history bytes are given; κ is fixed at once, or the band waits for its cut or, where it exceeds its
buffer, for a re-read. -/
def execQuantPassEnd (dt t b : Nat) (s0 : State) : Out :=
  let s := passCk dt s0
  let tr := troupe s t
  let w := workOf tr b
  .next (match (openCalled tr).filter fun r => w.pass == .running && r.num == tr.workStep with
    | none => s
    | some r =>
      let g := graphAt tr b
      let s := (List.range (cdiv g.blocks 4)).foldl (fun s k => useScaleWord t b g k s) s
      let c := w.choice.getD (denseChoice 0)
      let vals := bucketValues s tr g
      let out := (passOrder tr g).foldl (fun o k => passBlock tr g w c r k (vals.getD k []) o) (({} : PassOut), s.house)
      let s := spendPass (r.m == 1) out.1.quant g.chunkList { s with house := out.2 }
      let s := modTroupe s t fun tr => g.chunkList.foldl (fun tr k => storeChunk tr out.1.res k) tr
      let all := vals.flatMap id
      let counts := (List.range bins).map fun j => (all.filter fun v => magBin v == j).length
      let hist := counts.map fun n => n / 2 ^ histShift g.padded
      let bytes := (g.tensors.filter fun e => usesHistory tr e.1).map fun e =>
        ((List.range (tensorBlocks e).2).map fun k => w.locals.getD ((tensorBlocks e).1 + k) 0).foldl max 0
      let s := modWork s t b fun w => { w with
        quant := out.1.quant, band := out.1.band, hist := hist
        histVec := w.histVec.give (g.own tr) (hist.map Int.ofNat)
        byteVec := w.byteVec.give (g.own tr) (bytes.map Int.ofNat) }
      let n := g.padded
      let above := (all.filter fun v => c.edge < magBin v).length
      let quota := localQuota n (sieveRec tr b).density - above
      let size := out.1.band.length
      let cut : Nat × Nat × Nat × Nat := (c.edge * 2 ^ 51, (c.edge + 1) * 2 ^ 51, quota, 1)
      if ! c.sparse then endPass t b 0 s
      else if ! c.banded then endPass t b (2 ^ 51) s
      else if 2 ^ 20 < size then modWork s t b fun w => { w with pass := .reread, cut := some cut }
      else
        let s := spendShare (bufferPit s.house.pits w.buffer) (8 * size) s
        if quota = 0 then endPass t b cut.2.1 s
        else if size ≤ quota then endPass t b cut.1 s
        else modWork s t b fun w => { w with pass := .band, cut := some cut })

/-- BAND_CUT (R98, R101): κ is the quota-th largest key of what is left of the band. The cut waits for its buffer's
window (R139). -/
def execBandCut (dt t b : Nat) (s0 : State) : Out :=
  let s := passCk dt s0
  let w := workOf (troupe s t) b
  let pit := bufferPit s.house.pits w.buffer
  .next (match w.pass, w.cut with
    | .band, some cut =>
      if ! hasShare s pit then s
      else endPass t b ((bandKeys w.band cut.1 cut.2.1).getD (cut.2.2.1 - 1) 0)
        (spendShare pit (cutBytes (if liveNetworks s = 0 then 1 else 1024) w.band 6 cut) s)
    | _, _ => s)

/-- BAND_REREAD (R102): the pits read the bucket's values again for one radix level, until the band fits a buffer. Where
the cut needs no level, because all of the band or none of it is sent, this one re-read places it. -/
def execBandReread (dt t b : Nat) (s0 : State) : Out :=
  let s := passCk dt s0
  let tr := troupe s t
  let w := workOf tr b
  let g := graphAt tr b
  .next (match w.pass, w.cut with
    | .reread, some cut =>
      if ! pitsReady s g.chunkList then s
      else
        let s := gauge (spendChunks (passBytes ((lastStep tr).any (·.m == 1))) g.chunkList s) t 0x118 1
        if cut.2.2.1 = 0 then endPass t b cut.2.1 s
        else if cut.2.2.2 = 1 && w.band.length ≤ cut.2.2.1 then endPass t b cut.1 s
        else
          let next := radixLevel w.band cut
          let left := (bandKeys w.band next.1 next.2.1).length
          if left ≤ 2 ^ 20 then
            modWork (spendShare (bufferPit s.house.pits w.buffer) (8 * left) s) t b fun w =>
              { w with cut := some next, pass := .band }
          else modWork s t b fun w => { w with cut := some next }
    | _, _ => s)

end Sys2Proof.Machine
end

