-- ==== Sys2Proof/Machine/Pack.lean ====
section
/-! DEFINITION. The coachbuilder: dispatch items, their order, and the carriages they become (R46, R70, R158–R161,
R168, R169, R177–R179, R194). -/

namespace Sys2Proof.Machine

open Sys2Proof

/-! ### Items (R46, R70, R177, Table 7.2) -/

/-- The kinds of collective traffic in their order: 1 local bytes, 2 agreed bytes, 3 contributions, 4 and 5 histogram,
6 and 7 history bytes, 8 and 9 partial norms, 10 and 11 trust pairs, 12 and 13 fallback bitmap, 14 deltas; of a pair
the first is the reduce-scatter and the second the all-gather. -/
structure Item where
  key   : ItemKey
  dest  : Nat
  nth   : Nat
  te    : Nat × Nat × Nat × Bool
  chunk : Nat
  first : Nat
  count : Nat
  deriving DecidableEq, Repr

/-- Elements of the vector of a kind. -/
def kindWidth (tr : Troupe) (g : Graph) (kind : Nat) : Nat :=
  match kind with
  | 4 | 5 => if g.fclass then 0 else bins
  | 6 | 7 => if g.fclass then 0 else (historyTensors tr g).length
  | 8 | 9 => g.tensors.length
  | 10 | 11 => 2 * (lambTensors tr g).length
  | 12 | 13 => if g.fclass then 0 else bitmapBytes g
  | _ => 0

/-- The items of one kind of a bucket, round by round. -/
def kindItems (tr : Troupe) (g : Graph) (kind : Nat) : List Item :=
  let n := g.members tr
  let p := g.own tr
  let w := workOf tr g.bucket
  (List.range (n - 1)).flatMap fun r0 =>
    let r := r0 + 1
    let dest := (p + r) % n
    let range := if kind = 1 || kind = 3 then ownedRange dest n g.blocks else g.mine tr
    if kind ≤ 3 || kind = 14 then
      let spans := if kind ≤ 2 then (if g.fclass || w.locals.isEmpty then [] else callSpans tr g range.1 range.2)
        else g.spans range.1 range.2
      spans.zipIdx.map fun e =>
        ⟨⟨g.bucket, kind, r, e.1.1.1, e.1.2.1⟩, dest, e.2, e.1.1, e.1.2.1, e.1.2.2.1, e.1.2.2.2⟩
    else
      let width := kindWidth tr g kind
      let own := ownedElements (if kind % 2 = 0 then dest else p) n width
      match own with
      | [] => []
      | x :: _ => [⟨⟨g.bucket, kind, r, 0, 0⟩, dest, 0, (0, 0, 0, false), 0, x, own.length⟩]

/-- The items of the step in flight, in the order of R46. -/
def stepItems (tr : Troupe) : List Item :=
  tr.graph.flatMap fun e => [1, 2, 3, 4, 5, 6, 7, 8, 9, 10, 11].flatMap fun k => kindItems tr e.2 k
/-- The items of a bucket's fallback round after step n; the step stands in their keys, since the rounds of two SKIPPED
steps can be open at once (R134). -/
def fallItems (tr : Troupe) (g : Graph) (n : Nat) : List Item :=
  ([12, 13].flatMap fun k => kindItems tr g k).map fun i => { i with key := { i.key with chunk := n } }
/-- The items that follow a decided step: fallback bitmaps, oldest round first, then deltas. -/
def afterItems (tr : Troupe) : List Item :=
  (tr.graph.flatMap fun e => (tabGetD tr.fallbacks e.1 []).flatMap fun f => fallItems tr e.2 f.step) ++
    tr.gather.flatMap fun e => kindItems tr (graphAt tr e.1) 14

/-- The fallback round that an item of kind 12 or 13 belongs to. -/
def roundOf (tr : Troupe) (k : ItemKey) : Option Fallback :=
  (tabGetD tr.fallbacks k.bucket []).find? fun f => f.step == k.chunk

/-- Whether an item has been packed. -/
def itemPacked (tr : Troupe) (i : Item) : Bool := tr.packed.contains i.key
/-- Whether every contribution of a bucket has been packed: its histogram and history bytes follow them (R93). -/
def contributed (tr : Troupe) (g : Graph) : Bool := (kindItems tr g 3).all (itemPacked tr)

/-- Whether an item's data is ready to be packed. -/
def itemReady (tr : Troupe) (i : Item) : Bool :=
  let g := graphAt tr i.key.bucket
  let w := workOf tr i.key.bucket
  match i.key.kind with
  | 1 => w.called
  | 2 => (List.range i.count).all fun k => w.scaled.contains (i.first + k)
  | 3 => if g.fclass then w.called else w.pass == .ended
  | 4 => w.histVec.own.isSome && contributed tr g
  | 5 => w.histVec.reduced && contributed tr g
  | 6 => w.byteVec.own.isSome && contributed tr g
  | 7 => w.byteVec.reduced && contributed tr g
  | 8 => w.normVec.own.isSome
  | 9 => w.normVec.reduced
  | 10 => w.trustVec.own.isSome
  | 11 => w.trustVec.reduced
  | 12 => (roundOf tr i.key).any (·.vec.own.isSome)
  | 13 => (roundOf tr i.key).any (·.vec.reduced)
  | _ => true

/-- The vector of an item. -/
def kindVec (tr : Troupe) (k : ItemKey) : Vec :=
  let w := workOf tr k.bucket
  match k.kind with
  | 4 | 5 => w.histVec
  | 6 | 7 => w.byteVec
  | 8 | 9 => w.normVec
  | 10 | 11 => w.trustVec
  | _ => ((roundOf tr k).map (·.vec)).getD {}

/-- Subject, encoding and reduce operation of a vector kind (Table 7.2). -/
def vecForm (kind : Nat) : Nat × Nat × Nat :=
  match kind with
  | 4 | 5 => (4, 8, 1)
  | 6 | 7 => (5, 9, 4)
  | 12 | 13 => (6, 9, 7)
  | _ => (7, 10, 2)

/-- Bytes of an element of a vector kind. -/
def vecBytes (kind : Nat) : Nat := unitBytes (vecForm kind).2.1
/-- The offset at which a vector kind starts in its object: trust pairs follow the partial norms (log entry 29). -/
def vecBase (g : Graph) (kind : Nat) : Nat := if kind = 10 || kind = 11 then 8 * g.tensors.length else 0
/-- An element of a vector as bytes: an INT32 in two's complement, a byte, or a pair, its sum first. -/
def elemBytes (kind : Nat) (x : Int) : List Byte :=
  if kind = 4 || kind = 5 then leBytes 4 (BitVec.ofInt 32 x).toNat
  else if vecBytes kind = 8 then leBytes 4 (intPair x).1.toNat ++ leBytes 4 (intPair x).2.toNat
  else leBytes (vecBytes kind) x.toNat

/-- The encoding that gives a delta item the fewest content bytes; a tie goes to the denser (R194). -/
def deltaEnc (bs : List (Nat × QBlk)) : Nat :=
  let n (e : Nat) := (blockContent e bs).1.length
  if n 1 ≤ n 2 && n 1 ≤ n 3 then 1 else if n 2 ≤ n 3 then 2 else 3

/-- A delta block as it is sent: its non-zero values present. -/
def deltaPresent (q : QBlk) : QBlk := { q with present := q.q.map (· != 0) }

/-- The blocks of an item, numbered within its chunk. -/
def itemBlocks (t : Tab QBlk) (i : Item) : List (Nat × QBlk) :=
  let base := (chunkSpan i.te i.chunk).1
  (List.range i.count).map fun k =>
    (i.first + k - base, tabGetD t (i.first + k) ⟨0, List.replicate 32 0, List.replicate 32 false⟩)

/-- The step whose outcome or work an item belongs to: the SKIPPED step of a fallback round, the last COMMITTED step of
deltas, else the step in flight. -/
def itemOf (tr : Troupe) (k : ItemKey) : Nat :=
  if k.kind = 14 then tr.epoch else if k.kind ≥ 12 then k.chunk else tr.opened
/-- The step that an item's carriages name: fallback bitmaps belong to the step after the SKIPPED one (R134). -/
def itemStep (tr : Troupe) (k : ItemKey) : Nat := itemOf tr k + bitOf (k.kind == 12 || k.kind == 13)

/-- The carriages of an item for a largest payload. -/
def itemCars (s : State) (t : Nat) (tr : Troupe) (i : Item) (limit : Nat) : List Car :=
  let b := i.key.bucket
  let g := graphAt tr b
  let kind := i.key.kind
  let w := if kind = 14 then tabGetD tr.gather b {} else workOf tr b
  let proto : Car :=
    { type := 1, cls := .g, enc := 9, op := 0, troupe := t, line := 0, step := itemStep tr i.key, count := 0, tensor := i.te.1
      subject := 2, coll := true, scripted := ! (stepOf tr (itemOf tr i.key)).any (·.adlib), payload := [] }
  let base := (chunkSpan i.te i.chunk).1
  let at_ (k : Nat) : BitVec 32 := blockPosition i.chunk (i.first - base + k)
  let fpAt (k : Nat) : BitVec 32 := blockPosition i.chunk (i.first - base + k / 32)
  match kind with
  | 1 => unitCars { proto with type := 2, op := 4 } limit at_
      ((List.range i.count).map fun k => BitVec.ofNat 8 (w.locals.getD (i.first + k) 0))
  | 2 => unitCars proto limit at_
      ((List.range i.count).map fun k =>
        BitVec.ofNat 8 (max (w.locals.getD (i.first + k) 0) (tabGetD w.maxima (i.first + k) 0)))
  | 3 =>
    if g.fclass then
      unitCars { proto with type := 2, cls := .f, enc := 7, op := 2, subject := 8 } (limit / 128 * 128) fpAt
        ((((bucketSums s tr g).drop i.first).take i.count).flatMap fun x => x.flatMap fun v => leBytes 4 v.toNat)
    else
      blockCars { proto with type := 2, enc := (w.choice.getD (denseChoice 0)).enc, op := 1, subject := 1 } limit i.chunk
        (itemBlocks w.quant i)
  | 14 =>
    if g.fclass then
      unitCars { proto with cls := .f, enc := 7, subject := 3 } (limit / 128 * 128) fpAt
        ((List.range i.count).flatMap fun k =>
          (tabGetD w.deltas (i.first + k) (⟨0, [], []⟩, [])).2.flatMap fun v => leBytes 4 v.toNat)
    else
      let bs := (itemBlocks (w.deltas.map fun e => (e.1, e.2.1)) i).map fun e => (e.1, deltaPresent e.2)
      let enc := deltaEnc bs
      blockCars { proto with enc := enc, subject := 3 } limit i.chunk
        (if enc = 1 then bs.map fun e => (e.1, { e.2 with present := List.replicate 32 true }) else bs)
  | _ =>
    let f := vecForm kind
    let v := kindVec tr i.key
    let scatter := kind % 2 = 0
    let xs := (List.range i.count).map fun k =>
      if scatter then (v.own.getD []).getD (i.first + k) 0 else tabGetD v.result (i.first + k) 0
    unitCars { proto with
        type := if scatter then 2 else 1, enc := f.2.1, op := if scatter then f.2.2 else 0, subject := f.1, tensor := b
        cls := if f.1 = 7 then .f else .g } limit
      (fun k => BitVec.ofNat 32 (vecBase g kind + (i.first + k) * vecBytes kind)) (xs.flatMap (elemBytes kind))

/-- Pack one item: its carriages go to the line of its carousel, moved on by `shift` carousels of the same entry (R178). -/
def packItem (t : Nat) (i : Item) (shift : Nat) (s : State) : State :=
  let tr := troupe s t
  let g := graphAt tr i.key.bucket
  let s := modTroupe s t fun tr => { tr with packed := i.key :: tr.packed }
  sendMember t (carouselOf tr g.carousel) (i.nth + shift) i.dest none (some (itemOf tr i.key)) (itemCars s t tr i) s

/-- The items that a troupe has not packed yet, those after a decided step first. -/
def openItems (tr : Troupe) : List Item :=
  (afterItems tr ++ (if (openCalled tr).isSome && tr.workStep == tr.opened then stepItems tr else [])).filter fun i =>
    ! itemPacked tr i

/-- PACK_ITEM (R46, R168, R178, R375): in scripted mode the next item in order, if it is ready, on its own carousel; in
ad-lib mode the stage manager picks a ready one, and a carousel for it (log entry 90). -/
def execPackItem (dt t pick : Nat) (s0 : State) : Out :=
  let s := passCk dt s0
  let tr := troupe s t
  let items := openItems tr
  .next (if packerWaits s then s
    else if stepScripted tr then
      match items with
      | [] => s
      | i :: _ => if itemReady tr i then packItem t i 0 s else s
    else
      let ready := items.filter (itemReady tr)
      match ready[pick % max 1 ready.length]? with
      | none => s
      | some i => packItem t i (pick / max 1 ready.length) s)

end Sys2Proof.Machine
end

