-- ==== Sys2Proof/Machine/Records.lean ====
section
/-! DEFINITION. The engine's own structures as a fabric master reads them in HBM: cue tables (R328) and the peer records
of carousel lines (R201). They are fields of State, and their bytes are formed at each read (log entry 74). -/

namespace Sys2Proof.Machine

open Sys2Proof

/-- The 16-B cue table entry: the low and the high 32 bits, each a paired-complement word (R328). -/
def cueEntry (c : Cue) : List Byte :=
  leBytes 8 (pairWord (c.value.toNat % 2 ^ 32) c.flawLo).toNat ++ leBytes 8 (pairWord (c.value.toNat / 2 ^ 32) c.flawHi).toNat

/-- The 32-B peer record of a carousel line (Table 8.2). -/
def peerRecord (p : Peer) : List Byte :=
  seqWord p.next ++ seqWord p.oldest ++ seqWord p.expected ++ leBytes 6 p.addr.toNat ++ leBytes 2 p.stage

/-- The peer records of a carousel line, at the address that bytes 88 to 95 of its entry name. -/
def peerRecords (ln : Line) : List Byte := if ln.carousel then ln.peers.flatMap peerRecord else []

/-- The structures of a troupe that lie in HBM: (base, bytes). An entry of a cue that does not exist holds 0. -/
def hbmRecords (t : Nat) (tr : Troupe) : List (Nat × List Byte) :=
  tr.cues.map (fun e => ((Config.cueTable t).toNat + 16 * e.1, cueEntry e.2)) ++
    tr.lines.map fun e => (place t kindPeer e.1, peerRecords e.2)

/-- The byte of the engine's structures at an HBM address. -/
def recordByte (s : State) (a : Nat) : Option Byte :=
  s.troupes.findSome? fun e => (hbmRecords e.1 e.2).findSome? fun r => if r.1 ≤ a then r.2[a - r.1]? else none

/-- A run of HBM bytes as a fabric master reads them. -/
def hbmRead (s : State) (a n : Nat) : List Byte :=
  (memRead s.hbm a n).zipIdx.map fun e => (recordByte s ((a + e.2) % 2 ^ 64)).getD e.1

end Sys2Proof.Machine
end

