-- ==== Sys2Proof/Machine/RingTake.lean ====
section
/-! DEFINITION. Taking descriptors from rings, and the line operations they start (R203–R206, R325–R327, R332). -/

namespace Sys2Proof.Machine

open Sys2Proof

/-- Whether consumers take descriptors from a troupe's rings: not while it is FENCED, RESETTING or ABSENT (R332). -/
def takesRings (tr : Troupe) : Bool := tr.life == .active || tr.life == .pending || tr.life == .intermission

/-- Whether a ring of a kind holds a descriptor. -/
def ringReady (kind : Nat) (r : Ring) : Bool := r.kind == kind && ringHeld r != 0
/-- Whether the head and the tail pair of a ring are whole. -/
def ringWhole (r : Ring) : Bool := whole r.head && whole r.tail

/-- A consumer's turn comes to a ring with a broken pair: the ring is not served, and the troupe is fenced (Table 13.3). -/
def brokenRing (t ring : Nat) (r : Ring) (s : State) : State :=
  fault { sub := .callDesk, status := .integrity, who := some t
          address := place t kindRing (2 * ring + bitOf (whole r.head)) } none s

/-- The descriptor at the head of a ring (R325). -/
def headDescriptor (s : State) (r : Ring) : List Byte :=
  memRead s.hbm (r.base.toNat + 64 * (r.head.val.toNat % r.depth)) 64

/-- Take the descriptor at the head: the head advances, then the space cue is signalled (R327). -/
def takeDescriptor (t ring : Nat) (s : State) : State :=
  match tabGet (troupe s t).rings ring with
  | none => s
  | some r =>
    let next := { r with head := ⟨r.head.val + 1, r.head.flaw⟩, inFlight := r.inFlight + 1 }
    signalField t r.spaceCue (modTroupe s t fun tr => { tr with rings := tabPut tr.rings ring next })

/-- What a ring's work is charged to (R43). -/
def ringCharge (r : Ring) : Charge := if r.binding = 1 then .booking r.booking else .shaperOn r.port

/-- A cue field of a descriptor is good: reserved bits 0, and an enabled cue exists. -/
def descCueOk (tr : Troupe) (w : Nat) : Bool := bits w 10 5 == 0 && (! bit w 15 || cueExists tr (w % 1024))

/-- A bad descriptor: its completion record, its cue where that exists, the error record with the detail of its source
(Table 13.10), the fence (R112, R204). -/
def badDescriptor (t ring : Nat) (sub : Subsystem) (detail compl : Nat) (rec_ : List Byte) (cue : Nat) (s : State) :
    State :=
  let s := pokeHbm (ringEnd t ring s) compl rec_
  let ix := s.log.write
  let sig : List Act := if bit cue 15 && cueExists (troupe s t) (cue % 1024) then [.signal t (cue % 1024)] else []
  run ([.record { sub := sub, status := .badArg, who := some t, address := compl, detail := detail }] ++ sig ++
    [.fence t .badArg ix none]) s

/-- Complete a descriptor's work: its record, then its cue. -/
def endDescriptor (t ring compl : Nat) (rec_ : List Byte) (cue : BitVec 16) (s : State) : State :=
  signalField t cue (pokeHbm (ringEnd t ring s) compl rec_)

/-! ### Line descriptors (Table 8.3) -/

/-- A line descriptor. -/
structure LineDesc where
  kind   : Nat
  enc    : Nat
  op     : Nat
  line   : Nat
  cls    : Option Cls
  bound  : Bool
  tag    : Nat
  length : Nat
  local_ : Nat
  offset : Nat
  cue    : Nat
  compl  : Nat
  clear  : Bool
  deriving DecidableEq, Repr

/-- Read a descriptor; `clear` says that every reserved field is 0. -/
def readLineDesc (d : List Byte) : LineDesc :=
  let b1 := field d 1 1
  let b4 := field d 4 1
  { kind := field d 0 1, enc := b1 % 16, op := b1 / 16, line := field d 2 2 % 512, cls := clsOf (b4 % 4)
    bound := bit b4 2, tag := field d 6 2, length := field d 8 4, local_ := field d 16 8, offset := field d 24 8
    cue := field d 32 2, compl := field d 48 8
    clear := field d 2 2 / 512 == 0 && b4 / 8 == 0 && field d 5 1 == 0 && field d 12 4 == 0 && allZero (slice d 34 14)
      && field d 56 8 == 0 }

/-- Bytes that one unit covers at the target: a wide block for a Q8B REDUCE_WRITE (R191). -/
def targetUnit (kind enc : Nat) : Nat := if kind = 3 && enc = 1 then 136 else unitBytes enc

/-- Whether a descriptor is good (R204). -/
def lineDescOk (s : State) (t : Nat) (d : LineDesc) : Bool :=
  let tr := troupe s t
  let ln := lineOf tr d.line
  let unit := unitBytes d.enc
  inRange 1 3 d.kind && d.clear && descCueOk tr d.cue && ! ln.carousel
    && (ln.state.val == .opened || ln.state.val == .knocking || ln.state.val == .resetting)
    && [0, 1, 4, 5, 6, 7, 8, 9, 10].contains d.enc
    && (match d.cls with
        | none => false
        | some c => combination c d.enc d.op && (if d.kind = 3 then d.op != 0 else d.op == 0))
    && inRange 1 (2 ^ 24) d.length && d.length % unit == 0
    && d.offset + d.length / unit * targetUnit d.kind d.enc ≤ ln.remoteLen

/-- The carriages of a line operation (R168, R205). -/
def opCars (s : State) (t : Nat) (d : LineDesc) : List Car :=
  let ln := lineOf (troupe s t) d.line
  let limit := payloadLimit s t d.line
  let remote := ln.remoteBase.toNat + d.offset
  let step := if d.bound then (troupe s t).opened else 0
  let proto : Car := { type := d.kind, cls := d.cls.getD .d, enc := d.enc, op := d.op, troupe := t, line := d.line
                       step := step, count := 0, scripted := scripted s (troupe s t), payload := [] }
  markLast (
    if d.kind = 2 then
      (List.range (cdiv d.length limit)).map fun k =>
        let n := min limit (d.length - k * limit)
        { proto with
          type := 3, cls := .d, enc := 0, op := 0, count := 16, target := BitVec.ofNat 64 (d.local_ + k * limit)
          payload := padPayload (leBytes 8 (remote + k * limit) ++ leBytes 4 n ++ leBytes 4 0) }
    else
      let unit := unitBytes d.enc
      let per := max 1 (limit / unit)
      (cutUnits unit per (hbmRead s d.local_ d.length)).map fun u =>
        { proto with
          type := if d.kind = 3 then 2 else 1, count := u.2.1
          target := BitVec.ofNat 64 (remote + u.1 * targetUnit d.kind d.enc), payload := padPayload u.2.2 })

/-- Start a line operation: its carriages wait on the line behind those of earlier ones (R205, R206). -/
def startOp (t ring : Nat) (charge : Charge) (d : LineDesc) (s : State) : State :=
  let cars := opCars s t d
  let tr := troupe s t
  let id := tr.opCount + 1
  let ln := lineOf tr d.line
  let op : LineOp :=
    { id := id, kind := d.kind, ring := ring, cue := BitVec.ofNat 16 d.cue, compl := BitVec.ofNat 64 d.compl
      bytes := d.length, cars := cars.length, localAt := BitVec.ofNat 64 d.local_, version := ln.version, charge := charge }
  let wire := (cars.map Car.wire).sum
  let frames := cars.map fun c =>
    ({ car := c, peer := 0, dst := (ln.peers.head?.map (·.addr)).getD 0, cls := routeClass tr d.line
       charge := some charge, opId := some id, step := if d.bound then some tr.opened else none, item := id
       itemWire := wire } : OutFrame)
  let s := modTroupe s t fun tr => { tr with opCount := id }
  enterLine t d.line (modLine s t d.line fun ln => { ln with ops := ln.ops ++ [op], waiting := ln.waiting ++ frames })

/-- An operation that sends nothing: it completes with a status behind the earlier ones of its line (R204, R206). -/
def refuseOp (t ring : Nat) (charge : Charge) (d : LineDesc) (st : Status) (s : State) : State :=
  let id := (troupe s t).opCount + 1
  let op : LineOp :=
    { id := id, kind := d.kind, ring := ring, cue := BitVec.ofNat 16 d.cue, compl := BitVec.ofNat 64 d.compl
      bytes := d.length, cars := 0, localAt := BitVec.ofNat 64 d.local_, version := (lineOf (troupe s t) d.line).version
      charge := charge, ended := some st }
  let s := modTroupe s t fun tr => { tr with opCount := id }
  completeOps t d.line (modLine s t d.line fun ln => { ln with ops := ln.ops ++ [op] })

/-- Take one line descriptor (R204). -/
def takeLine (t ring : Nat) (r : Ring) (s : State) : State :=
  let d := readLineDesc (headDescriptor s r)
  let s := modTroupe s t fun tr => { tr with ringTurn := ring }
  let s := checkLine t d.line (takeDescriptor t ring s)
  if ! lineDescOk s t d then
    badDescriptor t ring .lines 0 d.compl (lineRecord .badArg (lineOf (troupe s t) d.line).epoch 0) d.cue s
  else if d.bound && ! ((openCalled (troupe s t)).any fun k => k.num % 65536 == d.tag) then
    refuseOp t ring (ringCharge r) d .state s
  else startOp t ring (ringCharge r) d s

/-- The line rings of a troupe in the order of their turns (R327). -/
def ringOrder (tr : Troupe) : Tab Ring :=
  (tr.rings.filter fun e => tr.ringTurn < e.1) ++ tr.rings.filter fun e => e.1 ≤ tr.ringTurn

/-- Whether an operation of a ring has carriages that have not been sent. -/
def ringUnsent (tr : Troupe) (ring : Nat) : Bool :=
  let ids := tr.lines.flatMap fun e => (e.2.ops.filter fun o => o.ring == ring).map (·.id)
  (tr.sheet ++ tr.lines.flatMap fun e => e.2.waiting).any fun f => f.opId.any ids.contains

/-- Whether a ring's work can be carried: best-effort work that the shaper or the port cannot carry stays in its ring
(R57). -/
def ringCarried (s : State) (tr : Troupe) (e : Nat × Ring) : Bool :=
  e.2.binding != 2 || (decide (0 ≤ (refill (shaperOf tr e.2.port) s.house.ck).balance) && ! ringUnsent tr e.1)

/-- Whether the turn can come to a line ring: it holds a descriptor, which its line takes (a CLOSING line takes none, Table
8.7) and which can be carried. A broken ring is found when its turn comes. -/
def lineRingReady (s : State) (tr : Troupe) (e : Nat × Ring) : Bool :=
  ringReady 1 e.2 && (! ringWhole e.2 || (ringCarried s tr e &&
    (lineOf tr (readLineDesc (headDescriptor s e.2)).line).state.val != .closing))

/-- LINE_DESCRIPTOR_TAKE (R57, R203, R327): the next line ring whose turn can come. -/
def execLineDescriptorTake (dt t : Nat) (s0 : State) : Out :=
  let s := passCk dt s0
  let tr := troupe s t
  .next (if ! takesRings tr then s
    else
      match (ringOrder tr).find? (lineRingReady s tr) with
      | none => s
      | some e => if ringWhole e.2 then takeLine t e.1 e.2 s else brokenRing t e.1 e.2 s)

/-! ### Spill calls (R145–R148) -/

/-- A completion record in the form of Table 4.8. -/
def callRecord (st : Status) (u sat high : Nat) : List Byte :=
  leBytes 4 (statusCode st) ++ leBytes 4 u ++ leBytes 4 sat ++ leBytes 4 high

/-- Bytes that a stored format takes for some elements (R146). -/
def storedBytes (format count : Nat) : Nat := if format = 3 then 2 * count else 33 * cdiv count 32

/-- Read a spill descriptor (Table 5.9); the Bool says that its reserved fields and its ranges are good (R145, R112). -/
def readSpill (ring : Nat) (d : List Byte) : SpillCall × Bool :=
  let b1 := field d 1 1
  let c : SpillCall :=
    { ring := ring, restore := field d 0 1 == 2, format := b1 % 4, fp32 := bit b1 2, digest := bit b1 3
      cue := BitVec.ofNat 16 (field d 2 2), count := field d 4 4, scratch := BitVec.ofNat 64 (field d 8 8)
      store := BitVec.ofNat 64 (field d 16 8), host := bit (field d 24 1) 0, layer := BitVec.ofNat 32 (field d 32 4)
      compl := BitVec.ofNat 64 (field d 56 8) }
  (c, inRange 1 2 (field d 0 1) && b1 / 16 == 0 && inRange 1 (2 ^ 31) c.count && c.scratch.toNat % 256 == 0
    && c.store.toNat % 256 == 0 && field d 24 8 < 2 && allZero (slice d 36 20) && c.compl.toNat % 16 == 0)

/-- Whether a call's store span lies in the troupe's spill region of its space (Table 12.6). -/
def spillInside (tr : Troupe) (c : SpillCall) : Bool :=
  let r := tr.spillRegions
  let b := if c.host then r.2.2.1 else r.1
  let n := if c.host then r.2.2.2 else r.2.1
  b.toNat ≤ c.store.toNat && c.store.toNat + storedBytes c.format c.count ≤ b.toNat + n.toNat

/-- The pit that a spill call is served on: the one of its store address (log entry 87). -/
def spillPit (s : State) (c : SpillCall) : Nat := Config.pitAt c.store.toNat % max 1 s.house.pits

/-- Whether a quantisation pass waits for a pit, which it then has before a spill call (R145, Table 5.10). -/
def passWaitsOn (s : State) (pit : Nat) : Bool :=
  s.troupes.any fun e => e.2.graph.any fun g => passDue s e.1 g.1 && bucketOnPit s g.2 pit

/-- The spill ring of a troupe that is served next: one call of a troupe at a time, rings in ascending order (R145). -/
def spillRing (tr : Troupe) : Option (Nat × Ring) :=
  if takesRings tr && tr.spills.isEmpty then tr.rings.find? fun e => ringReady 3 e.2 else none

/-- Whether a troupe's next spill call can be taken: no pass waits for its pit, and the pit's share has allowance left for
bytes of HBM (R139, R145). -/
def spillGoes (s : State) (tr : Troupe) : Bool :=
  (spillRing tr).any fun e => ! ringWhole e.2 ||
    let c := (readSpill e.1 (headDescriptor s e.2)).1
    ! passWaitsOn s (spillPit s c) && (c.host || hasShare s (spillPit s c))

/-- SPILL_CALL_TAKE (R145): in ascending troupe number among the calls that can be taken. -/
def execSpillCallTake (dt t : Nat) (s0 : State) : Out :=
  let s := passCk dt s0
  .next (if ! spillGoes s (troupe s t) || s.troupes.any (fun e => e.1 < t && spillGoes s e.2) then s
    else
      match spillRing (troupe s t) with
      | none => s
      | some e => if ! ringWhole e.2 then brokenRing t e.1 e.2 s else
        let c := readSpill e.1 (headDescriptor s e.2)
        let s := takeDescriptor t e.1 s
        if ! c.2 || ! descCueOk (troupe s t) c.1.cue.toNat || ! spillInside (troupe s t) c.1 then
          badDescriptor t e.1 .pits (spillPit s c.1) c.1.compl.toNat (callRecord .badArg 0 0 0) c.1.cue.toNat s
        else modTroupe s t fun tr => { tr with spills := [c.1] })

/-- The source elements of a spill out as FP32 values, and their value bits as read. -/
def spillSource (s : State) (c : SpillCall) : List F32 × List Nat :=
  let w := if c.fp32 then 4 else 2
  let raw := (List.range c.count).map fun i => leNat (memRead s.scratch (c.scratch.toNat + w * i) w)
  (raw.map fun v => if c.fp32 then BitVec.ofNat 32 v else bf16Widen (BitVec.ofNat 16 v), raw)

/-- One block as it is stored (R146, R147). -/
def spillBlock (format : Nat) (vs : List F32) : List Byte :=
  if ! vs.all f32Finite then 0xFF :: List.replicate 32 0
  else if format = 0 then
    let e := localByte vs
    BitVec.ofNat 8 e :: vs.map fun v => byteOf (quantise v e none).1
  else fp8Block (if format = 1 then e4m3 else e5m2) vs

/-- The bytes that a spill out stores of its source, its values and their bits as read: in BF16 as is, the bits of BF16
elements as given, and FP32 rounded (R146, R147). -/
def spillOut (c : SpillCall) (src : List F32 × List Nat) : List Byte :=
  if c.format = 3 then
    if c.fp32 then src.1.flatMap fun v => leBytes 2 (bf16Ieee v).toNat else src.2.flatMap (leBytes 2)
  else (toBlocks src.1).flatMap (spillBlock c.format)

/-- The values that a restore decodes (R148). -/
def spillValues (format count : Nat) (bs : List Byte) : List F32 :=
  if format = 3 then (List.range count).map fun i => bf16Widen (BitVec.ofNat 16 (field bs (2 * i) 2))
  else
    ((List.range (cdiv count 32)).flatMap fun k =>
      let e := field bs (33 * k) 1
      (slice bs (33 * k + 1) 32).map fun b =>
        if e = 255 then f32CanonNan
        else if format = 0 then q8bF32 e (s8 b)
        else fp8F32 (if format = 1 then e4m3 else e5m2) e b).take count

/-- The bytes that a restore writes: BF16 as is goes back into BF16 elements as it is stored (R148). -/
def spillBack (c : SpillCall) (bs : List Byte) : List Byte :=
  if c.format = 3 && ! c.fp32 then slice bs 0 (2 * c.count)
  else (spillValues c.format c.count bs).flatMap fun v =>
    if c.fp32 then leBytes 4 v.toNat else leBytes 2 (bf16Ieee v).toNat

/-- Add a call's source into the layer digest: of the OPEN or CALLED step, else of the next one (R283, R284). -/
def addLayer (t : Nat) (c : SpillCall) (raw : List Nat) (s : State) : State :=
  let tr := troupe s t
  let es := raw.zipIdx.map fun e => (e.2, e.1)
  match openCalled tr with
  | some r =>
    modTroupe s t fun tr => modLast tr fun k =>
      { k with digests := k.digests.set 4 (k.digests.getD 4 0 + digest 5 r.num c.layer.toNat es) }
  | none =>
    modTroupe s t fun tr => { tr with layerDigest := tr.layerDigest + digest 5 (tr.opened + 1) c.layer.toNat es }

/-- Complete the SPILL_DRAINs that waited for a call: each counts the calls taken before it. -/
def spillDrained (t : Nat) (s : State) : State :=
  let s := { s with deferred := s.deferred.map fun d =>
    if d.target == t then
      match d.awaits with
      | .spillDrain n => { d with awaits := .spillDrain (n - 1) }
      | _ => d
    else d }
  completeDeferred t (· == .spillDrain 0) .done [] s

/-- SPILL_CALL_COMPLETE (R139, R146–R148): the bytes move, those of HBM within the pit's share, then the completion record,
then the cue. -/
def execSpillCallComplete (dt t : Nat) (s0 : State) : Out :=
  let s := passCk dt s0
  .next (match (troupe s t).spills with
    | [] => s
    | c :: rest =>
      let n := storedBytes c.format c.count
      let s := modTroupe s t fun tr => { tr with spills := rest }
      let s := if c.host then s else spendShare (spillPit s c) n s
      let ended (st : Status) (bad : Nat) (s : State) : State :=
        spillDrained t (endDescriptor t c.ring c.compl.toNat (callRecord st (n % 2 ^ 32) bad (n / 2 ^ 32)) c.cue s)
      if c.restore then
        let bs := spillBack c (peek c.host s c.store.toNat n)
        ended .done 0 { s with scratch := memWrite s.scratch c.scratch.toNat bs }
      else
        let src := spillSource s c
        let bad := (src.1.filter notFiniteValue).length
        let s := poke c.host s c.store.toNat (spillOut c src)
        let s := if c.digest then addLayer t c src.2 s else s
        ended (if bad = 0 then .done else .nonfinite) bad s)
where
  /-- A NaN or ±Inf. -/
  notFiniteValue (v : F32) : Bool := ! f32Finite v

end Sys2Proof.Machine
end

