-- ==== Sys2Proof/Machine/SieveCalls.lean ====
section
/-! DEFINITION. Unique-and-count calls, local and over a carousel (R109–R116). -/

namespace Sys2Proof.Machine

open Sys2Proof

/-- A call read from its descriptor (Table 4.7); the Bool says that it is good (R112). -/
def readSieve (s : State) (t ring : Nat) (d : List Byte) : SieveCall × Bool :=
  let b1 := field d 1 1
  let kind := field d 0 1
  let c : SieveCall :=
    { ring := ring, kind := kind, wide := bit b1 0, bound := bit b1 1, carousel := field d 2 2, n := field d 4 4
      keys := BitVec.ofNat 64 (field d 8 8), unique := BitVec.ofNat 64 (field d 16 8)
      counts := BitVec.ofNat 64 (field d 24 8), inverse := BitVec.ofNat 64 (field d 32 8)
      global := BitVec.ofNat 64 (field d 40 8), step := field d 48 2, cue := BitVec.ofNat 16 (field d 50 2)
      compl := BitVec.ofNat 64 (field d 56 8), number := 0, issued := s.house.tick }
  let aligned (a : BitVec 64) : Bool := a.toNat % 256 == 0
  (c, inRange 1 2 kind && b1 / 4 == 0 && inRange 1 (2 ^ 24) c.n && aligned c.keys && aligned c.unique
    && aligned c.counts && aligned c.inverse && aligned c.global && field d 52 4 == 0 && c.compl.toNat % 16 == 0
    && (if kind = 1 then c.carousel == 0 && c.global == 0 else (tabGet (troupe s t).carousels c.carousel).isSome)
    && descCueOk (troupe s t) c.cue.toNat)

/-- Bytes of a key. -/
def SieveCall.width (c : SieveCall) : Nat := if c.wide then 8 else 4
/-- Bytes of a key with its count on the wire (R113). -/
def SieveCall.entry (c : SieveCall) : Nat := c.width + 4
/-- The keys of a call. -/
def callKeys (s : State) (c : SieveCall) : List Nat :=
  (List.range c.n).map fun i => peekWord s (c.keys.toNat + c.width * i) c.width

/-- Runs of equal keys in a sorted list: key and count. -/
def runLengths : List Nat → List (Nat × Nat)
  | [] => []
  | k :: r =>
    match runLengths r with
    | [] => [(k, 1)]
    | (j, n) :: q => if k = j then (j, n + 1) :: q else (k, 1) :: (j, n) :: q

/-- The unique keys in ascending order with their counts (R110). -/
def uniqueCounts (keys : List Nat) : List (Nat × Nat) := runLengths (keys.mergeSort fun a b => a ≤ b)

/-- The local call of R110: unique keys, counts and the inverse map are written. -/
def localCall (c : SieveCall) (s : State) : State :=
  let keys := callKeys s c
  let u := uniqueCounts keys
  let s := pokeHbm s c.unique.toNat (u.flatMap fun e => leBytes c.width e.1)
  let s := pokeHbm s c.counts.toNat (u.flatMap fun e => leBytes 4 e.2)
  pokeHbm s c.inverse.toNat (keys.flatMap fun k => leBytes 4 ((u.findIdx? fun e => e.1 == k).getD 0))

/-- The owner of a key (R113). -/
def keyOwner (n key : Nat) : Nat := mixNat 0 key / 2 ^ 32 * n / 2 ^ 32

/-- Entries as RAW bytes. -/
def entryContent (c : SieveCall) (es : List (Nat × Nat)) : List Byte :=
  es.flatMap fun e => leBytes c.width e.1 ++ leBytes 4 e.2

/-- Send entries to a member on the first carousel, as one item that ends with LAST (R113). -/
def sendEntries (t : Nat) (c : SieveCall) (charge : Charge) (member : Nat) (es : List (Nat × Nat)) (s : State) : State :=
  let tr := troupe s t
  let proto : Car := { type := 1, cls := .d, enc := 0, op := 0, troupe := t, line := 0, step := if c.bound then tr.opened else 0
                       count := 0, tensor := c.number % 2 ^ 20, subject := 9, coll := true
                       scripted := scripted s tr, payload := [] }
  sendMember t (carouselOf tr c.carousel) 0 member (some charge) none
    (fun limit => unitCars proto (limit / c.entry * c.entry) (fun k => BitVec.ofNat 32 k) (entryContent c es)) s

/-- The charge of a ring's work. -/
def chargeOfRing (tr : Troupe) (ring : Nat) : Charge := ((tabGet tr.rings ring).map ringCharge).getD .shaper

/-- A call's place in the troupe's list: carousel entry and call number. -/
def sameCall (c : SieveCall) (carousel number : Nat) : Bool := c.carousel == carousel && c.number == number && c.kind != 1
/-- Change a carousel call. -/
def modCall (s : State) (t carousel number : Nat) (f : SieveCall → SieveCall) : State :=
  modTroupe s t fun tr => { tr with sieveCalls := tr.sieveCalls.map fun c => if sameCall c carousel number then f c else c }

/-- The global counts of the keys that a chip owns: exact sums, saturated at 2^31 − 1 (R113, R114). -/
def ownedCounts (c : SieveCall) : List (Nat × Nat) :=
  let keys := ((c.contrib.map fun e => e.2.1).mergeSort fun a b => a ≤ b).dedup
  keys.map fun k => (k, ((c.contrib.filter fun e => e.2.1 == k).map fun e => e.2.2).sum)

/-- Phases 3 and 4 of R113 at an owner: once every member's contributions are in, the global counts go back. -/
def settleCall (t carousel number : Nat) (s : State) : State :=
  let tr := troupe s t
  match tr.sieveCalls.find? fun c => sameCall c carousel number with
  | none => s
  | some c =>
    let k := carouselOf tr carousel
    let n := k.members.length
    if c.kind = 0 || c.returned.contains k.own
        || ! ((List.range n).all fun m => m == k.own || c.ended.contains m) then s
    else
      let sums := ownedCounts c
      let of (m : Nat) : List (Nat × Nat) := sums.filter fun e => c.contrib.any fun x => x.1 == m && x.2.1 == e.1
      let s := modCall s t carousel number fun c => { c with returned := k.own :: c.returned, results := c.results ++ of k.own }
      ((List.range n).filter (· != k.own)).foldl (fun s m =>
        sendEntries t c (chargeOfRing tr c.ring) m ((of m).map fun e => (e.1, min e.2 (2 ^ 32 - 1))) s) s

/-- Parse entries of a content. -/
def readCounts (c : SieveCall) (bs : List Byte) : List (Nat × Nat) :=
  (List.range (bs.length / c.entry)).map fun i => (field bs (c.entry * i) c.width, field bs (c.entry * i + c.width) 4)

/-- Whether a list of keys rises strictly. -/
def rises : List Nat → Bool
  | a :: b :: r => decide (a < b) && rises (b :: r)
  | _ => true

/-- Whether a content is one of this call's key width (R113): whole entries from a whole entry on, whose keys rise and belong
to one owner. No field of a carriage names the width, so a member that disagrees is known by its content (log entry 32). -/
def widthFits (c : SieveCall) (n owner first : Nat) (bs : List Byte) : Bool :=
  let keys := (readCounts c bs).map (·.1)
  first % c.entry == 0 && bs.length % c.entry == 0 && rises keys && keys.all fun k => keyOwner n k == owner

/-- Start a carousel call: the local call, then each unique key goes to its owner (R113). The call number j counts the calls
that start here; one that ended as it was taken (R112) joins no other and is not counted (DESIGN CHOICE, log entry 105). -/
def startCarousel (t : Nat) (c : SieveCall) (s : State) : State :=
  let tr := troupe s t
  let j := tabGetD tr.sieveNumber c.carousel 0 + 1
  let k := carouselOf tr c.carousel
  let n := k.members.length
  let early := tr.sieveCalls.find? fun e => e.kind == 0 && sameCall e c.carousel j
  let raw := (early.map (·.raw)).getD []
  let u := uniqueCounts (callKeys s c)
  let to_ (m : Nat) : List (Nat × Nat) := u.filter fun e => keyOwner n e.1 == m
  let c := { c with
    number := j
    contrib := (raw.flatMap fun e => (readCounts c e.2).map fun y => (e.1, y.1, y.2)) ++
      (to_ k.own).map fun e => (k.own, e.1, e.2)
    ended := (early.map (·.ended)).getD []
    status := if raw.any fun e => ! widthFits c n k.own 0 e.2 then some .state else none }
  let s := localCall c s
  let s := modTroupe s t fun tr => { tr with
    sieveNumber := tabPut tr.sieveNumber c.carousel j
    sieveCalls := c :: tr.sieveCalls.filter fun e => ! (e.kind == 0 && sameCall e c.carousel j) }
  let s := ((List.range n).filter (· != k.own)).foldl (fun s m =>
    sendEntries t c (chargeOfRing tr c.ring) m (to_ m) s) s
  settleCall t c.carousel j s

/-- A call that the troupe has taken and not completed. -/
def activeCall (tr : Troupe) : Option SieveCall := tr.sieveCalls.find? fun c => c.kind != 0
/-- Take a call off the list. -/
def dropCall (s : State) (t : Nat) (c : SieveCall) : State :=
  modTroupe s t fun tr => { tr with sieveCalls := tr.sieveCalls.erase c }

/-- Whether a troupe has a sieve call to take. -/
def sieveWaits (tr : Troupe) : Bool :=
  takesRings tr && (activeCall tr).isNone && tr.rings.any fun e => ringReady 2 e.2

/-- SIEVE_CALL_TAKE (R112, R116): troupes, then rings in ascending number; one call of a troupe at a time. -/
def execSieveCallTake (dt t : Nat) (s0 : State) : Out :=
  let s := passCk dt s0
  let tr := troupe s t
  .next (if ! sieveWaits tr || s.troupes.any (fun e => e.1 < t && sieveWaits e.2) then s
    else
      match tr.rings.find? fun e => ringReady 2 e.2 with
      | none => s
      | some e => if ! ringWhole e.2 then brokenRing t e.1 e.2 s else
        let c := readSieve s t e.1 (headDescriptor s e.2)
        let s := takeDescriptor t e.1 s
        if ! c.2 then
          badDescriptor t e.1 .sieve 0 c.1.compl.toNat (callRecord .badArg 0 0 0) c.1.cue.toNat s
        else if liveNetworks s = 0
            || (c.1.bound && ! ((openCalled (troupe s t)).any fun r => r.num % 65536 == c.1.step)) then
          endDescriptor t e.1 c.1.compl.toNat (callRecord .state 0 0 0) c.1.cue s
        else if c.1.kind = 1 then modTroupe s t fun tr => { tr with sieveCalls := c.1 :: tr.sieveCalls }
        else startCarousel t c.1 s)

/-- The curtain of a step-bound call, for its own step (R114, R115). -/
def callCurtain (t : Nat) (c : SieveCall) (s : State) : State :=
  if c.bound && (openCalled (troupe s t)).any (fun r => r.num % 65536 == c.step) then curtain (some 5) t s else s

/-- A global count as it is written (R114). -/
def globalCount (x : Nat) : Nat := min x (2 ^ 31 - 1)

/-- SIEVE_CALL_COMPLETE (R110, R111, R113, R114): results, then the record, then the cue. -/
def execSieveCallComplete (dt t : Nat) (s0 : State) : Out :=
  let s := passCk dt s0
  let tr := troupe s t
  .next (match activeCall tr with
    | none => s
    | some c =>
      let u := uniqueCounts (callKeys s c)
      let finish (st : Status) (n sat : Nat) (s : State) : State :=
        endDescriptor t c.ring c.compl.toNat (callRecord st n sat 0) c.cue (dropCall s t c)
      if c.kind = 1 then finish .done u.length 0 (localCall c s)
      else if c.status == some .state then finish .state 0 0 s
      else
        let k := carouselOf tr c.carousel
        if ! (List.range k.members.length).all c.returned.contains then s
        else
          let global (key : Nat) : Nat := ((c.results.find? fun e => e.1 == key).map (·.2)).getD 0
          let sat := (u.filter fun e => 2 ^ 31 - 1 < global e.1).length
          let s := pokeHbm s c.global.toNat (u.flatMap fun e => leBytes 4 (globalCount (global e.1)))
          if sat = 0 then finish .done u.length 0 s
          else callCurtain t c (finish .saturated u.length sat
            (record { sub := .sieve, status := .saturated, who := some t, address := c.compl.toNat } s)))

/-- SIEVE_CALL_TIMEOUT (R115): 4,096 ticks after its issue without every member's contributions. -/
def execSieveCallTimeout (dt t : Nat) (s0 : State) : Out :=
  let s := passCk dt s0
  let tr := troupe s t
  .next (match activeCall tr with
    | none => s
    | some c =>
      let k := carouselOf tr c.carousel
      if c.kind != 2 || s.house.tick < c.issued + 4096 || c.status.isSome
          || (List.range k.members.length).all c.returned.contains then s
      else callCurtain t c (endDescriptor t c.ring c.compl.toNat (callRecord .timeout 0 0 0) c.cue (dropCall s t c)))

/-- The carousel entry that a line belongs to. -/
def entryOfLine (tr : Troupe) (l : Nat) : Option Nat :=
  (tr.carousels.find? fun e => (e.2.lines.take e.2.count).contains l).map (·.1)

/-- A carriage of subject 0x9 (R113): contributions until a member's LAST, global counts after it. An early one waits
for this chip's own call (log entry 32). -/
def takeCounts (t l : Nat) (src : BlockAddr) (c : Car) (s : State) : State :=
  let tr := troupe s t
  match entryOfLine tr l with
  | none => s
  | some e =>
    let k := carouselOf tr e
    match k.members.findIdx? (· == src) with
    | none => s
    | some m =>
      let next := tabGetD tr.sieveNumber e 0 + 1
      let known := tr.sieveCalls.find? fun x => x.kind != 1 && x.carousel == e && x.number % 2 ^ 20 == c.tensor
      let s := if known.isNone && next % 2 ^ 20 == c.tensor then
          modTroupe s t fun tr => { tr with sieveCalls := tr.sieveCalls ++ [
            { ring := 0, kind := 0, wide := false, bound := false, carousel := e, n := 0
              keys := 0, unique := 0, counts := 0, inverse := 0, global := 0, step := 0, cue := 0, compl := 0
              number := next, issued := s.house.tick }] }
        else s
      match (troupe s t).sieveCalls.find? fun x => x.kind != 1 && x.carousel == e && x.number % 2 ^ 20 == c.tensor with
      | none => s
      | some x =>
        let bs := c.payload.take c.count
        if x.kind = 0 then
          modCall s t e x.number fun x => { x with
            raw := x.raw ++ [(m, bs)], ended := if c.last then m :: x.ended else x.ended }
        else if ! widthFits x k.members.length (if x.ended.contains m then m else k.own) c.position.toNat bs then
          modCall s t e x.number fun x => { x with status := some .state }
        else if x.ended.contains m then
          modCall s t e x.number fun x => { x with
            results := x.results ++ readCounts x bs, returned := if c.last then m :: x.returned else x.returned }
        else
          settleCall t e x.number (modCall s t e x.number fun x => { x with
            contrib := x.contrib ++ (readCounts x bs).map fun y => (m, y.1, y.2)
            ended := if c.last then m :: x.ended else x.ended })

end Sys2Proof.Machine
end

