-- ==== Sys2Proof/Machine/Tally.lean ====
section
/-! DEFINITION. The tally: what an arriving collective carriage does at an owner or a holder (R120, R134, R180–R194,
R275, R304, R399). -/

namespace Sys2Proof.Machine

open Sys2Proof

/-! ### Which step (R180) -/

/-- How the step of a collective carriage stands to the troupe. -/
inductive StepJudge where
  | now | early | stale | ahead
  deriving DecidableEq, Repr

/-- R180. -/
def judgeStep (tr : Troupe) (step : Nat) : StepJudge :=
  if (openCalled tr).any fun r => r.num == step then .now
  else if tr.opened + 2 ≤ step then .ahead
  else if step = tr.opened + 1 && tr.life == .active && tr.sealed && (flight tr).isNone then .early
  else .stale

/-- A carriage two or more steps ahead (R180). -/
def tooFar (t : Nat) (s : State) : State :=
  curtain (some 7) t (record { sub := .tally, status := .state, who := some t } s)

/-- Hold sums for a step from their first arrival (R180). -/
def readyWork (t step : Nat) (s : State) : State :=
  modTroupe s t fun tr => if tr.workStep = step then tr else { tr with work := [], workStep := step }

/-! ### Where (R399) -/

/-- The place of a carriage of a chunk subject: graph, tensor entry, first block in the bucket, blocks that it may
cover from there. -/
def chunkPlace (tr : Troupe) (c : Car) : Option (Graph × (Nat × Nat × Nat × Bool) × Nat × Nat) :=
  (graphOfTensor tr c.tensor).bind fun g => (g.tensor c.tensor).bind fun e =>
    if chunkCount e.2.1 e.2.2.2 ≤ c.chunk then none
    else
      let sp := chunkSpan e c.chunk
      if sp.2 < c.firstBlock then none else some (g, e, sp.1 + c.firstBlock, sp.2 - c.firstBlock)

/-- Blocks that a content covers from the carriage's first block. -/
def coverage (c : Car) : Nat :=
  if isQ8b c.enc then
    match readBlocks c.enc c.count c.firstBlock c.payload with
    | none => 0
    | some (bs, _) => bs.foldl (fun a b => max a (b.1 + 1 - c.firstBlock)) 0
  else coveredBlocks c.subject c.enc c.count

/-- The place of a carriage, if every block of it has one. -/
def placed (tr : Troupe) (c : Car) : Option (Graph × (Nat × Nat × Nat × Bool) × Nat) :=
  (chunkPlace tr c).bind fun p => if coverage c ≤ p.2.2.2 then some (p.1, p.2.1, p.2.2.1) else none

/-- The position of a source in a bucket's carousel. -/
def memberOf (tr : Troupe) (g : Graph) (src : BlockAddr) : Option Nat :=
  (carouselOf tr g.carousel).members.findIdx? (· == src)

/-! ### Contributions of G-class buckets (R120, R181–R183, R193) -/

/-- Give a bucket its place at its first arrival: window slots for its whole owned range, or HBM (R193). -/
def takePlace (t b : Nat) (s : State) : State :=
  match (workOf (troupe s t) b).place with
  | some _ => s
  | none =>
    let tr := troupe s t
    let g := graphAt tr b
    let need := 32 * ((g.mine tr).2 - (g.mine tr).1)
    if s.house.tallySlots + need ≤ 8388608 then
      modWork (modHouse s fun h => { h with tallySlots := h.tallySlots + need }) t b fun w => { w with place := some need }
    else modWork s t b fun w => { w with place := some 0 }

/-- The record of a bad scale byte, counted (R120, R181). -/
def scaleRecord (t : Nat) (s : State) : State :=
  record { sub := .tally, status := .integrity, who := some t } (gauge s t 0x128 1)

/-- A bad scale byte of a step's contribution (R120, R181): gauge, record, and the curtain of the step, which falls as the
step opens where it has not opened here yet (R180, R196). -/
def badScale (t step : Nat) (s : State) : State :=
  let s := scaleRecord t s
  if (openCalled (troupe s t)).any fun r => r.num == step then curtain (some 2) t s
  else if step = (troupe s t).opened + 1 then modTroupe s t fun tr => { tr with earlyVeto := (step, 2) :: tr.earlyVeto }
  else s

/-- The scale byte that an owner expects of contributions to a block (R181): 256 while it has none. -/
def expectedByte (tr : Troupe) (g : Graph) (w : BWork) (tensor blk : Nat) : Nat :=
  if w.scaled.contains blk then min 254 (scaleByte w blk)
  else if usesHistory tr tensor then min 254 (historyScale tr g tensor)
  else 256

/-- One block of a contribution to a step: added to its sums when its scale byte is the one that the step expects. -/
def addBlock (t b tensor step base : Nat) (x : Nat × QBlk) (s : State) : State :=
  let tr := troupe s t
  let g := graphAt tr b
  let w := workOf tr b
  let blk := base + x.1
  if ! g.owns tr blk || ! x.2.present.any id then s
  else if x.2.scale = 255 || x.2.scale != expectedByte (viewFor tr step) g w tensor blk then badScale t step s
  else
    let s := modWork s t b fun w =>
      { w with sums := tabPut w.sums blk (addSums (tabGetD w.sums blk (List.replicate 32 0)) (sentValues x.2)) }
    if w.place = some 0 then spendShare (g.pitOf s.house.pits blk) (8 * (x.2.present.filter id).length) s else s

/-- Mark the end of a member's contribution. -/
def markEnded (t b kind tensor chunk member : Nat) (last : Bool) (s : State) : State :=
  if last then modWork s t b fun w => { w with ended := (kind, tensor, chunk, member) :: w.ended } else s

/-- A carriage of subject 0x1 (R181–R183, R107). -/
def takeContribution (t : Nat) (src : BlockAddr) (c : Car) (s : State) : State :=
  let tr := troupe s t
  match placed tr c with
  | none => misplaced t c c.tensor s
  | some (g, e, base) =>
    let b := g.bucket
    match memberOf tr g src with
    | none => s
    | some m =>
      let own := ((workOf tr b).choice.map (·.enc)).getD (bucketChoice (viewFor tr c.step) b).enc
      let s := if c.enc = own then s else gauge s t 0x120 1
      let s := takePlace t b s
      let bs := ((readBlocks c.enc c.count c.firstBlock c.payload).map (·.1)).getD []
      let s := bs.foldl (fun s x => addBlock t b e.1 c.step (base - c.firstBlock) x s) s
      settle t b (markEnded t b 3 e.1 c.chunk m c.last s)

/-- A carriage of subject 0x8 (R187). -/
def takeValues (t : Nat) (src : BlockAddr) (c : Car) (s : State) : State :=
  let tr := troupe s t
  match placed tr c with
  | none => misplaced t c c.tensor s
  | some (g, e, base) =>
    match memberOf tr g src with
    | none => s
    | some m =>
      let xs := (fp32Blocks c).map fun x => (m, base - c.firstBlock + x.1, x.2)
      let s := modWork s t g.bucket fun w => { w with fcontrib := w.fcontrib ++ xs.filter fun x => g.owns tr x.2.1 }
      settle t g.bucket (markEnded t g.bucket 3 e.1 c.chunk m c.last s)

/-- A carriage of subject 0x2: local bytes at an owner, agreed bytes at a holder (R124, R125). -/
def takeScales (t : Nat) (src : BlockAddr) (c : Car) (s : State) : State :=
  let tr := troupe s t
  match placed tr c with
  | none => misplaced t c c.tensor s
  | some (g, e, base) =>
    match memberOf tr g src with
    | none => s
    | some m =>
      let bytes := (c.payload.take c.count).zipIdx.map fun x => (base + x.2, x.1.toNat)
      if c.type = 2 then
        let s := modWork s t g.bucket fun w => { w with
          maxima := bytes.foldl (fun a x => tabPut a x.1 (max x.2 (tabGetD a x.1 0))) w.maxima }
        settle t g.bucket (markEnded t g.bucket 1 e.1 c.chunk m c.last s)
      else settle t g.bucket (bytes.foldl (fun s x => holdByte t g.bucket x s) s)

/-! ### Vectors (R93, R130, R134, R176, R192, R271) -/

/-- The elements of a vector carriage as integers. -/
def vecElements (c : Car) : List Int :=
  (List.range c.count).map fun k =>
    match c.enc with
    | 8 => (BitVec.ofNat 32 (field c.payload (4 * k) 4)).toInt
    | 10 => pairInt (BitVec.ofNat 32 (field c.payload (8 * k) 4), BitVec.ofNat 32 (field c.payload (8 * k + 4) 4))
    | _ => Int.ofNat (field c.payload k 1)

/-- What a carriage adds to a vector: a contribution from a member, or results. -/
def Vec.take (v : Vec) (scatter last : Bool) (m first : Nat) (xs : List Int) : Vec :=
  if scatter then { v with contrib := v.contrib ++ [(m, first, xs)], ended := if last then m :: v.ended else v.ended }
  else { v with result := xs.zipIdx.foldl (fun r x => tabPut r (first + x.2) x.1) v.result }

/-- The scale state of a tensor after a fallback round with its bit set (Table 5.5). -/
def fallbackTensor (tr : Troupe) (g : Graph) (tensor : Nat) : Troupe :=
  let sc := scaleOf tr tensor
  let top := 254 - g.g tr
  if usesHistory tr tensor then
    let e := min top (historyScale tr g tensor + sc.record.headroom + 1)
    modScale tr tensor fun sc => { enterHistory sc e with clean := 0 }
  else setFallback (modScale tr tensor fun sc => { enterHistory sc top with clean := 0 }) tensor true

/-- Change the fallback round of a bucket after one step. -/
def modRound (s : State) (t b step : Nat) (f : Fallback → Fallback) : State :=
  modTroupe s t fun tr => { tr with
    fallbacks := tabMod tr.fallbacks b fun fs => fs.map fun k => if k.step = step then f k else k }

/-- The oldest open round of a bucket completes once its bitmap is whole (R134, R135). -/
def settleRound (t b : Nat) (s : State) : State :=
  let tr := troupe s t
  let g := graphAt tr b
  match (tabGetD tr.fallbacks b []).find? fun f => ! f.done with
  | none => s
  | some f =>
    if ! f.vec.whole (bitmapBytes g) then s
    else
      let hit := g.tensors.zipIdx.filter fun e => bit (tabGetD f.vec.result (e.2 / 8) 0).toNat (e.2 % 8)
      modRound (modTroupe s t fun tr => hit.foldl (fun tr e => fallbackTensor tr g e.1.1) tr) t b f.step fun f =>
        { f with done := true }

/-- The fallback rounds of a bucket go on: every one reduces what it can, and they complete in the order of their steps;
then the bucket's scale call may be issued (R134). -/
def settleFallback (t b : Nat) (s : State) : State :=
  let tr := troupe s t
  let g := graphAt tr b
  let go (f : Fallback) : Fallback := { f with vec := f.vec.reduce .or (g.own tr) (g.members tr) (bitmapBytes g) }
  let s := if tallyOut s then s else modTroupe s t fun tr => { tr with fallbacks := tabMod tr.fallbacks b fun fs => fs.map go }
  let s := (tabGetD tr.fallbacks b []).foldl (fun s _ => settleRound t b s) s
  settle t b (issueCall t b s)

/-- Whether a bitmap carriage belongs to a fallback round that is open here: it names the step after the round's (R134). -/
def roundOpen (tr : Troupe) (c : Car) : Bool :=
  c.subject == 6 && (tabGetD tr.fallbacks c.tensor []).any fun f => ! f.done && f.step + 1 == c.step

/-- A carriage of subjects 0x4 to 0x7. -/
def takeVector (t : Nat) (src : BlockAddr) (c : Car) (s : State) : State :=
  let tr := troupe s t
  match tabGet tr.graph c.tensor with
  | none => misplaced t { c with position := 0 } c.tensor s
  | some g =>
    let b := g.bucket
    match memberOf tr g src with
    | none => s
    | some m =>
      let scatter := c.type = 2
      let xs := vecElements c
      let at_ := c.position.toNat / max 1 (unitBytes c.enc)
      match c.subject with
      | 4 => settle t b (modWork s t b fun w => { w with histVec := w.histVec.take scatter c.last m at_ xs })
      | 5 => settle t b (modWork s t b fun w => { w with byteVec := w.byteVec.take scatter c.last m at_ xs })
      | 6 =>
        settleFallback t b (modRound s t b (c.step - 1) fun f => { f with vec := f.vec.take scatter c.last m at_ xs })
      | _ =>
        let n := g.tensors.length
        if at_ < n then
          settle t b (modWork s t b fun w => { w with normVec := w.normVec.take scatter c.last m at_ xs })
        else settle t b (modWork s t b fun w => { w with trustVec := w.trustVec.take scatter c.last m (at_ - n) xs })

/-- A collective carriage other than deltas and mirror traffic (R180). -/
def takeCollective (t l : Nat) (src : BlockAddr) (c : Car) (s : State) : State :=
  if c.subject = 9 then takeCounts t l src c s
  else if roundOpen (troupe s t) c then takeVector t src c s
  else
    match judgeStep (troupe s t) c.step with
    | .stale => staleCar t s
    | .ahead => tooFar t s
    | _ =>
      let s := readyWork t c.step s
      match c.subject with
      | 0 => misplaced t c c.tensor s
      | 1 => takeContribution t src c s
      | 2 => takeScales t src c s
      | 8 => takeValues t src c s
      | _ => takeVector t src c s

/-! ### Deltas at a holder (R30, R194, R275, R304) -/

/-- Add the deltas of one block to this chip's held copy: BF16 for a G-class tensor, FP32 for an F-class one (R275). -/
def applyHeld (e : Entry) (fclass : Bool) (tb : Nat) (q : QBlk) (x : List F32) (s : State) : State :=
  (List.range (min 32 (e.count - 32 * tb))).foldl (fun s i =>
    let j := 32 * tb + i
    if fclass then
      let a := e.held.toNat + 4 * j
      pokeHbm s a (leBytes 4 (f32Add (BitVec.ofNat 32 (peekWord s a 4)) (x.getD i 0)).toNat)
    else
      let a := e.held.toNat + 2 * j
      let h := bf16Widen (BitVec.ofNat 16 (peekWord s a 2))
      let d : Dy := if q.present.getD i false then q8bDy q.scale (q.q.getD i 0) else ⟨0, 0⟩
      pokeHbm s a (leBytes 2 (heldPlus h d).toNat)) s

/-- The gather work of a bucket. -/
def gatherOf (tr : Troupe) (b : Nat) : BWork := tabGetD tr.gather b {}

/-- Whether every block of a tensor has its delta (R30). -/
def tensorWhole (tr : Troupe) (b : Nat) (e : Nat × Nat × Nat × Bool) : Bool :=
  (List.range (tensorBlocks e).2).all fun k => (gatherOf tr b).applied.contains ((tensorBlocks e).1 + k)
/-- Whether the all-gather of the last COMMITTED step is complete on the chip. -/
def gatherDone (tr : Troupe) : Bool := tr.gather.all fun e => (graphAt tr e.1).tensors.all fun k => tensorWhole tr e.1 k

/-- Apply one delta block at most once (R304); a tensor that becomes whole signals its version cue (R30). -/
def applyDelta (t b blk : Nat) (q : QBlk) (x : List F32) (s : State) : State :=
  let tr := troupe s t
  let g := graphAt tr b
  if (gatherOf tr b).applied.contains blk then s
  else
    match g.tensorAt blk with
    | none => s
    | some te =>
      match tabGet tr.bill te.1 with
      | none => s
      | some e =>
        let s := applyHeld e g.fclass (blk - (tensorBlocks te).1) q x (useEntry .tally t te.1 s)
        let s := modTroupe s t fun tr =>
          let w := gatherOf tr b
          { tr with gather := tabPut tr.gather b { w with applied := blk :: w.applied } }
        if tensorWhole (troupe s t) b te then signalField t e.cue s else s

end Sys2Proof.Machine
end

