-- ==== Sys2Proof/Machine/Ledger.lean ====
section
/-! DEFINITION. The step ledger, digests of a step, and how a step becomes UPDATED, CHECKED and RETIRED (R283, R284,
R295–R300, R312, R313, R381, R382). -/

namespace Sys2Proof.Machine

open Sys2Proof

/-- The code of a step state in STEP_STATE. -/
def StepState.code : StepState → Nat
  | .opened => 1 | .called => 2 | .exchanged => 3 | .committed => 4 | .skipped => 5 | .updated => 6 | .checked => 7
  | .retired => 8

/-- Open the ledger record of a step: its place in the ring and in the extension area (R312). -/
def ledgerOpen (t num : Nat) (s : State) : State :=
  let tr := troupe s t
  match tr.ledger with
  | none => s
  | some p =>
    let len := 2 * tr.graph.length + 32 * (tr.graph.filter fun e => ! e.2.fclass).length + 1
    let len := if len ≤ p.extLen.toNat then len else 0
    let at_ := if tr.ledgerExt + len ≤ p.extLen.toNat then tr.ledgerExt else 0
    ledgerStore t num (modTroupe s t fun tr =>
      modStep { tr with ledgerCount := tr.ledgerCount + 1, ledgerExt := at_ + len } num
        fun r => { r with ledgerAt := some tr.ledgerCount, extAt := at_, extLen := len })

/-! ### Digests of a step (R283, R284) -/

/-- The tensor digests of kind 1 of a step from its reduced owned shard. -/
def shardDigests (tr : Troupe) (step : Nat) (shard : Tab (Tab ShardBlock)) : List (Nat × Nat × BitVec 64) :=
  shard.map fun e => (1, e.1, blocksDigest 1 step e.1 (((tabGet tr.bill e.1).map (·.count)).getD 0)
    (e.2.map fun b => (b.1, shardBits b.2)))

/-- The masters of a tensor's owned blocks in an area. -/
def ownedMasters (tr : Troupe) (g : Graph) (area : Tab TState) (e : Nat × Nat × Nat × Bool) : Tab (List F32) :=
  (List.range (tensorBlocks e).2).filterMap fun k =>
    if g.owns tr ((tensorBlocks e).1 + k) then some (k, fill32 (blockOf (tabGetD area e.1 {}) k).w) else none

/-- The tensor digests of kinds 2 and 3 of a step: prompt masters, and delayed masters where results were read. -/
def masterDigests (tr : Troupe) (step : Nat) (area : Tab TState) (delayedRead : Bool) : List (Nat × Nat × BitVec 64) :=
  tr.graph.flatMap fun ge => (ge.2.tensors.filter fun e => ownsSome tr ge.2 e && (! isDelayed tr e.1 || delayedRead)).map fun e =>
    let k := if isDelayed tr e.1 then 3 else 2
    (k, e.1, blocksDigest k step e.1 e.2.1 (f32Bits (ownedMasters tr ge.2 area e)))

/-- The value bits of a tensor's held copy. -/
def heldBits (s : State) (e : Entry) (fclass : Bool) : List (Nat × Nat) :=
  (List.range e.count).map fun j => (j, if fclass then peekWord s (e.held.toNat + 4 * j) 4 else peekWord s (e.held.toNat + 2 * j) 2)

/-- The tensor digests of kind 4 of a step. -/
def heldDigests (s : State) (tr : Troupe) (step : Nat) : List (Nat × Nat × BitVec 64) :=
  tr.graph.flatMap fun ge => ge.2.tensors.filterMap fun k => (tabGet tr.bill k.1).map fun e =>
    (4, k.1, digest 4 step k.1 (heldBits s e ge.2.fclass))

/-- The step digest of a kind. -/
def stepDigest (ds : List (Nat × Nat × BitVec 64)) (kind : Nat) : BitVec 64 :=
  digestSum ((ds.filter fun d => d.1 == kind).map fun d => d.2.2)

/-- The digest record of a step (Table 11.5). -/
def digestRecord (r : StepRec) : DigestRec :=
  { step := r.num, skipped := r.outcome == some false, copy := r.mirror == .copy, kinds := r.digests, epoch := r.epoch
    closing := ⟨r.num % 2 ^ 32, 0⟩ }

/-! ### UPDATED (Table 1.1, R297, R312) -/

/-- A step becomes UPDATED: held digests, the ledger's fourth stage, the digest record to the partner. -/
def becomeUpdated (t num : Nat) (s : State) : State :=
  let tr := troupe s t
  match stepOf tr num with
  | none => s
  | some r =>
    let committed_ := r.outcome == some true
    let ds := if committed_ then r.tensorDigests ++ heldDigests s tr num else []
    let five := r.digests.getD 4 0
    let s := modTroupe s t fun tr => modStep tr num fun r =>
      let r := (r.phase 6 fun p => p.stop s).phase 8 fun p => p.start s
      { r with
        state := Pair.of .updated, updTick := some s.house.tick, tensorDigests := ds, epoch := tr.epoch
        digests := [stepDigest ds 1, stepDigest ds 2, stepDigest ds 3, stepDigest ds 4, five] }
    let s := ledgerStore t num s
    match stepOf (troupe s t) num with
    | none => s
    | some r =>
      if r.mirror == .none then s
      else mirrorWrite t num (place t kindDigest (num % 16)) (mirrorCharge (troupe s t)) (digestRecordBytes (digestRecord r)) s

/-- Once the last delta has been applied, a COMMITTED step becomes UPDATED, whatever has been decided since (R18). -/
def settleGather (t : Nat) (s : State) : State :=
  let tr := troupe s t
  if ! gatherDone tr then s
  else ((tr.steps.filter fun e => e.2.state.val == .committed).map (·.1)).foldl (fun s n => becomeUpdated t n s) s

/-! ### CHECKED and RETIRED (R296, R299, R300) -/

/-- Whether the chip takes no verdict (R300). -/
def takesNoVerdict (s : State) (tr : Troupe) : Bool :=
  let ln := lineOf tr tr.pairLine
  tr.pairMode == .none || ln.state.val == .faulted || ln.state.val == .closed ||
    (match tr.slice, ln.peers.head? with
     | some r, some p =>
       let sl := sliceOf s r
       let e := bankEntry sl sl.active (entryKey (destIndex (coordOf p.addr)) 0)
       whole e && entryCut e.val
     | _, _ => false)

/-- The bytes of a step's own prop-room half (Table 11.4, log entry 34): header, reduced shard, the agreed bytes of owned
blocks in ascending bucket and block, tensor records, held digests and the digest record. -/
def halfBytes (r : StepRec) : List Byte :=
  let header := leBytes 8 (pcWord r.num).toNat ++ leBytes 8 (pcWord (bitOf (r.outcome == some false))).toNat ++
    leBytes 8 (pcWord ((r.causes.map fun i => 2 ^ i).sum)).toNat ++ leBytes 8 (pcWord (r.seed.toNat % 2 ^ 32)).toNat ++
    leBytes 8 (pcWord (r.seed.toNat / 2 ^ 32)).toNat ++ leBytes 8 (pcWord (r.commitTick % 2 ^ 32)).toNat ++
    leBytes 8 (pcWord (r.commitTick / 2 ^ 32)).toNat
  let shard := r.shard.flatMap fun e => e.2.flatMap fun b => match b.2 with
    | .q8b e q => e :: q
    | .fp32 x => x.flatMap fun v => leBytes 4 v.toNat
  header ++ List.replicate (128 - header.length) 0 ++ shard ++ (r.agreed.flatMap fun a => leBytes 1 a.2.2) ++ (r.records.flatMap (tensorRecordBytes true)) ++
    ((r.tensorDigests.filter fun d => d.1 == 4).flatMap fun d => leBytes 8 d.2.2.toNat) ++ digestRecordBytes (digestRecord r)

/-- Release a step's prop-room slot (Table 11.4). -/
def releaseHalf (r : StepRec) : StepRec := { r with propHeld := false, capturing := false, shard := [], agreed := [], records := [] }

/-- A step is RETIRED: its slot goes, or waits for its capture (R313). -/
def retire (capture : Bool) (r : StepRec) : StepRec :=
  let r := { r with state := Pair.of .retired }
  if capture && r.propHeld then { r with capturing := true } else releaseHalf r

/-- The durations of a step's phases go into group 5 (R382). -/
def addPhases (t : Nat) (r : StepRec) (s : State) : State :=
  if r.outcome != some true then s
  else r.phases.zipIdx.foldl (fun s e =>
    if e.1.startCk.isNone || ! e.1.ended then s
    else modTroupe (gauge s t (0x600 + 16 * e.2) e.1.dur) t fun tr =>
      { tr with gauges := gaugeMax tr.gauges (0x608 + 16 * e.2) e.1.dur }) s

/-- A step becomes CHECKED. -/
def becomeChecked (t num : Nat) (s : State) : State :=
  let s := modTroupe s t fun tr => modStep tr num fun r => { (r.phase 8 fun p => p.stop s) with state := Pair.of .checked }
  match stepOf (troupe s t) num with
  | none => s
  | some r => ledgerStore t num (addPhases t r s)

/-- Retire CHECKED steps as far as every earlier step is RETIRED (Table 1.1). -/
def retireAll (t : Nat) (s : State) : State :=
  modTroupe s t fun tr =>
    let capture := tr.ledger.any (·.capture)
    let upTo := ((tr.steps.find? fun e => ! pastChecked e.2).map (·.1)).getD (tr.opened + 1)
    { tr with steps := tr.steps.map fun e =>
        (e.1, if e.1 < upTo && e.2.state.val == .checked then retire capture e.2 else e.2) }

/-- A broken step header is found: record, and nothing later is checked (R296). -/
def brokenHeader (t : Nat) (s : State) : State :=
  match (troupe s t).steps.find? fun e => ! pastChecked e.2 && e.2.headerFlaw != 0 && e.2.verdict != some 0 with
  | none => s
  | some e =>
    record { sub := .ledger, status := .integrity, who := some t, address := place t kindHeader e.1 }
      (modTroupe s t fun tr => modStep tr e.1 fun r => { r with verdict := some 0 })

/-- The check steps whose wait is over at this tick, with whether they went unmirrored (R299, R300). -/
def checkDue (s : State) (tr : Troupe) : List (Nat × Bool) :=
  if tr.noCheck then []
  else
    let bound := ((tr.steps.find? fun e => ! pastChecked e.2 && e.2.headerFlaw != 0).map (·.1)).getD (tr.opened + 1)
    let none_ := takesNoVerdict s tr
    tr.steps.filterMap fun e =>
      if e.2.state.val != .updated || e.1 % max 1 tr.propN != 0 || bound ≤ e.1 then none
      else if e.2.verdict.any fun v => decide (v < s.house.tick) then some (e.1, false)
      else if none_ && e.2.updTick.any fun v => decide (v < s.house.tick) then some (e.1, true)
      else none

/-- One check step is over: every UPDATED step up to it becomes CHECKED. -/
def passCheck (t : Nat) (c : Nat × Bool) (s : State) : State :=
  let s := if c.2 then gauge (modTroupe s t fun tr => modStep tr c.1 fun r => { r with unmirrored := true }) t 0x28 1 else s
  let due := ((troupe s t).steps.filter fun e => e.1 ≤ c.1 && e.2.state.val == .updated).map (·.1)
  due.foldl (fun s n => becomeChecked t n s) s

/-- The checking of a troupe's steps at a tick (R299, R300). -/
def checkTroupe (t : Nat) (s : State) : State :=
  let s := brokenHeader t s
  retireAll t ((checkDue s (troupe s t)).foldl (fun s c => passCheck t c s) s)

/-- The understudy's flip at the tick after an equal verdict (R299), before what commits at that tick (Table 11.11). -/
def flipDue (t : Nat) (s : State) : State :=
  match (troupe s t).mirror.passed with
  | some (step, tick) => if tick < s.house.tick then modMirror s t (flipMirror step) else s
  | none => s

/-- CAPTURE_COMPLETE (R313): the copy in the host capture area is finished and the slot goes. -/
def execCaptureComplete (dt t step : Nat) (s0 : State) : Out :=
  let s := passCk dt s0
  let tr := troupe s t
  .next (match tr.ledger, (stepOf tr step).filter (·.capturing) with
    | some p, some r =>
      let bs := halfBytes r
      let slots := max 1 (p.capLen.toNat / max 1 bs.length)
      let s := if bs.length ≤ p.capLen.toNat then pokeHost s (p.capBase.toNat + step % slots * bs.length) bs else s
      modTroupe s t fun tr => modStep tr step releaseHalf
    | _, _ => s)

end Sys2Proof.Machine
end

