-- ==== Sys2Proof/Machine/Reduce.lean ====
section
/-! DEFINITION. A REDUCE_WRITE on target memory: the operations of Table 6.9 on one unit of each encoding, and wide
blocks (R184, R189–R191). -/

namespace Sys2Proof.Machine

open Sys2Proof

/-- Bitwise and logical operations on a word (R190). -/
def logicOp {w : Nat} (op : Nat) (a b : BitVec w) : BitVec w :=
  let truth (x : Bool) : BitVec w := if x then 1 else 0
  match op with
  | 6 => a &&& b
  | 7 => a ||| b
  | 8 => a ^^^ b
  | 9 => truth (a != 0 && b != 0)
  | 10 => truth (a != 0 || b != 0)
  | _ => truth ((a != 0) != (b != 0))

/-- An INT32 element: the result, and whether a sum saturated (R190, R191). -/
def reduceInt (op : Nat) (a b : BitVec 32) : BitVec 32 × Bool :=
  match op with
  | 1 =>
    let x := a.toInt + b.toInt
    (BitVec.ofInt 32 (satI32 x), satI32 x != x)
  | 4 => (if a.toInt < b.toInt then b else a, false)
  | 5 => (if b.toInt < a.toInt then b else a, false)
  | _ => (logicOp op a b, false)

/-- A UINT8 element (R190). -/
def reduceByte (op : Nat) (a b : Byte) : Byte :=
  match op with
  | 4 => if a.toNat < b.toNat then b else a
  | 5 => if b.toNat < a.toNat then b else a
  | _ => logicOp op a b

/-- An FP32 element: a sum with one rounding, or the larger or smaller (R186, R189, R190). -/
def reduceF32 (op : Nat) (a b : F32) : F32 :=
  match op with
  | 4 => f32Pick true a b
  | 5 => f32Pick false a b
  | 2 => (pairAdd (a, 0) (b, 0)).1
  | _ => f32Add a b

/-- The 32 values of an MXFP8 block; scale byte 0xFF gives canonical NaNs (R147). -/
def mxValues (f : Fp8) (bs : List Byte) : List F32 :=
  let e := (bs.headD 0).toNat
  (slice bs 1 32).map fun b => if e = 255 then f32CanonNan else fp8F32 f e b

/-- One unit of the target reduced with one unit of the content: the new unit, and whether it saturated. -/
def reduceUnit (enc op : Nat) (old new : List Byte) : List Byte × Bool :=
  let w (bs : List Byte) (k : Nat) : BitVec 32 := BitVec.ofNat 32 (field bs (4 * k) 4)
  match enc with
  | 8 =>
    let r := reduceInt op (w old 0) (w new 0)
    (leBytes 4 r.1.toNat, r.2)
  | 9 => ([reduceByte op (old.headD 0) (new.headD 0)], false)
  | 7 => (leBytes 4 (reduceF32 op (w old 0) (w new 0)).toNat, false)
  | 10 =>
    let p := pairAdd (w old 0, w old 1) (w new 0, w new 1)
    (leBytes 4 p.1.toNat ++ leBytes 4 p.2.toNat, false)
  | 6 =>
    let h (bs : List Byte) : F32 := bf16Widen (BitVec.ofNat 16 (field bs 0 2))
    (leBytes 2 (bf16Ieee (reduceF32 op (h old) (h new))).toNat, false)
  | 4 => (fp8Block e4m3 (zip2 (reduceF32 op) (mxValues e4m3 old) (mxValues e4m3 new)), false)
  | 5 => (fp8Block e5m2 (zip2 (reduceF32 op) (mxValues e5m2 old) (mxValues e5m2 new)), false)
  | _ => (new, false)

/-- Whether a carriage names the troupe's OPEN or CALLED step. -/
def carNamesStep (tr : Troupe) (c : Car) : Bool := c.step != 0 && (openCalled tr).any fun r => r.num == c.step

/-- A REDUCE_WRITE of an encoding other than the Q8B family: unit by unit, with the saturated ones counted (R184). -/
def reduceUnits (t : Nat) (c : Car) (s : State) : State :=
  let n := unitBytes c.enc
  let r := (List.range c.count).foldl (fun (a : State × Nat) k =>
    let at_ := c.target.toNat + n * k
    let u := reduceUnit c.enc c.op (memRead a.1.hbm at_ n) (slice c.payload (n * k) n)
    (pokeHbm a.1 at_ u.1, a.2 + bitOf u.2)) (s, 0)
  if r.2 = 0 then r.1
  else
    let s := record { sub := .tally, status := .saturated, who := some t, address := c.target.toNat } (gauge r.1 t 0x138 r.2)
    if carNamesStep (troupe s t) c then curtain (some 4) t s else s

/-- One element of a wide block: the exact sum, or a free value where it does not fit (log entry 35). -/
def wideAdd (old : BitVec 32) (q : Int) : BitVec 32 :=
  let x := old.toInt + q
  if satI32 x = x then BitVec.ofInt 32 x else Config.wideOverflow x

/-- A Q8B-family REDUCE_WRITE into wide blocks of 136 B (R191). -/
def reduceWide (t : Nat) (c : Car) (s : State) : State :=
  let bs := ((readBlocks c.enc c.count c.firstBlock c.payload).map (·.1)).getD []
  bs.foldl (fun s x =>
    let at_ := c.target.toNat + 136 * (x.1 - c.firstBlock)
    if ! x.2.present.any id then s
    else if x.2.scale = 255 || x.2.scale != (memByte s.hbm at_).toNat then
      let s := scaleRecord t s
      if carNamesStep (troupe s t) c then curtain (some 2) t s else s
    else (sentValues x.2).zipIdx.foldl (fun s q =>
      let a := at_ + 8 + 4 * q.2
      pokeHbm s a (leBytes 4 (wideAdd (BitVec.ofNat 32 (peekWord s a 4)) q.1).toNat)) s) s

/-- A REDUCE_WRITE on its target. -/
def reduceInto (t : Nat) (c : Car) (s : State) : State := if isQ8b c.enc then reduceWide t c s else reduceUnits t c s

end Sys2Proof.Machine
end

