-- ==== Sys2Proof/Machine/Deliver.lean ====
section
/-! DEFINITION. Carriages that arrive: matching, sequence, windows, what each kind applies, acknowledgement (R199,
R206–R215, R219, R221, R275, R291, R294). -/

namespace Sys2Proof.Machine

open Sys2Proof

/-! ### Matching (R199) -/

/-- The line that a frame names: a line of the lost address that this chip stands in for is numbered from 512 (R303). -/
def lineNumber (s : State) (t l : Nat) (f : List Byte) : Nat :=
  if (troupe s t).mirror.standIn == some (frameDst f) then l + 512 else l

/-- Whether a carriage's kind suits a line (R199). -/
def kindSuits (tr : Troupe) (l : Nat) (c : Car) : Bool :=
  if (lineOf tr l).carousel then c.coll || c.fence
  else ! c.coll || ((c.subject == 10 || c.subject == 11) && mirrorLine tr l)

/-- The line and the peer that a carriage matches. -/
def matchLine (s : State) (f : List Byte) (c : Car) : Option (Nat × Nat) :=
  let tr := troupe s c.troupe
  let l := lineNumber s c.troupe c.line f
  let ln := lineOf tr l
  if ln.state.val == .closed || ! kindSuits tr l c then none
  else (peerIndex ln (frameSrc f)).map fun i => (l, i)

/-- A NAK of reason 2, at most one for each line and tick (R199). -/
def nakClosed (t l : Nat) (src : BlockAddr) (c : Car) (s : State) : State :=
  if (lineOf (troupe s t) l).closedNak == some s.house.tick then s
  else sendNak t l src c.lineEpoch 0 2 (0, 0, false)
    (modLine s t l fun ln => { ln with closedNak := some s.house.tick })

/-- A carriage that matches no line (R199). -/
def unmatched (port l : Nat) (src : BlockAddr) (c : Car) (s : State) : State :=
  nakClosed c.troupe l src c (portGauge s port 18 1)

/-- A carriage of another epoch: counted, and a NAK of reason 1, at most one for each line and tick (Table 8.5). -/
def staleEpoch (t l i : Nat) (s : State) : State :=
  let s := gauge s t 0x408 1
  let ln := lineOf (troupe s t) l
  match ln.peers[i]? with
  | none => s
  | some p =>
    if ln.peers.any fun q => q.epochNak == some s.house.tick then s
    else sendNak t l p.addr ln.epoch p.expected.val 1 (echoFields s.house.ck p)
      (modPeer s t l i fun p => { p with epochNak := some s.house.tick })

/-- A carriage after a gap (Table 8.5): a NAK of reason 0 for the expected sequence, at most one in 20 µs. -/
def gapFound (t l i : Nat) (s : State) : State :=
  let s := gauge s t 0x400 1
  match peerOf s t l i with
  | none => s
  | some p =>
    if p.nakAt.any fun e => e.1 == p.expected.val && decide (s.house.ck < e.2 + 36000) then s
    else sendNak t l p.addr (lineOf (troupe s t) l).epoch p.expected.val 0 (echoFields s.house.ck p)
      (modPeer s t l i fun p => { p with nakAt := some (p.expected.val, s.house.ck) })

/-- Whether carriages of a copy to the understudy are on a line, unsent or unacknowledged (R302). -/
def copying (tr : Troupe) (l : Nat) : Bool :=
  let ln := lineOf tr l
  let mine (f : OutFrame) : Bool := f.car.line == l && f.opId == some 0
  tr.sheet.any mine || ln.waiting.any mine || ln.peers.any fun p => p.out.any fun e => mine e.1

/-- When the copy of a SPARE_RESYNC is acknowledged, the UPDATED steps are CHECKED, none earlier than the tick after it
became UPDATED, and the divergence is over (R33, R302). -/
def settleResync (t : Nat) (s : State) : State :=
  let tr := troupe s t
  let ln := lineOf tr tr.pairLine
  let due := s.deferred.any fun d => d.target == t && d.awaits == .resync ln.epoch
  let updated := tr.steps.filter fun e => e.2.state.val == .updated
  if ! due || ln.state.val != .opened || copying tr tr.pairLine
      || ! updated.all (fun e => e.2.updTick.all fun v => decide (v < s.house.tick)) then s
  else
    let steps := updated.map (·.1)
    let s := retireAll t (steps.foldl (fun s n => becomeChecked t n s) s)
    completeDeferred t (fun a => match a with | .resync _ => true | _ => false) .done []
      (modTroupe s t fun tr => { tr with diverged := tr.mirror.diverged, noCheck := false })

/-- The timing fields and the acknowledgement that a carriage carries (R156, R214, R225). -/
def takeTimes (t l i : Nat) (c : Car) (s : State) : State :=
  let s := modPeer s t l i fun p => { p with echo := some (c.timestamp, s.house.ck) }
  let r := if c.ackv then ackBefore t l i (c.ack + 1) s else (s, 0)
  let s := if c.echo then sampleRtt t l i (rttOf s.house.ck c.echoTs c.hold.toNat) r.2 r.1 else r.1
  if c.ackv then settleResync t (fenceDone t l (completeOps t l s)) else s

/-! ### Windows (R208) -/

/-- The content bytes of a carriage. -/
def contentBytes (c : Car) : Nat :=
  if isQ8b c.enc then ((readBlocks c.enc c.count c.firstBlock c.payload).map (·.2)).getD 0
  else unitBytes c.enc * c.count

/-- The span of memory here that a carriage of line traffic names: the source of a READ_REQUEST, else the target. -/
def carSpan (c : Car) : Nat × Nat :=
  match c.type with
  | 3 => (field c.payload 0 8, bits (field c.payload 8 4) 0 14)
  | 2 => (c.target.toNat, if isQ8b c.enc then 136 * coverage c else contentBytes c)
  | _ => (c.target.toNat, contentBytes c)

/-- Whether the span lies within the local window. -/
def inWindow (ln : Line) (c : Car) : Bool :=
  decide (ln.localBase.toNat ≤ (carSpan c).1) &&
    decide ((carSpan c).1 + (carSpan c).2 ≤ ln.localBase.toNat + ln.localLen)

/-- A line goes to CLOSED at once: its operations end with CLOSED, and so do commands that wait for its fence; a
LINE_CLOSE that waits is done (Table 8.7, R400). -/
def shutLine (t l : Nat) (s : State) : State :=
  completeDeferred t (· == .lineClose l) .done []
    (completeDeferred t (· == .line l) .closed [] (closeLine t l .closed s))

/-- A span outside the window (R208). -/
def outsideWindow (t l : Nat) (src : BlockAddr) (c : Car) (s : State) : State :=
  sendNak t l src c.lineEpoch 0 2 (0, 0, false)
    (shutLine t l (record { sub := .lines, status := .noTarget, who := some t, address := (carSpan c).1 } s))

/-! ### In sequence (R209, R213, R214) -/

/-- What a kind of carriage applies: troupe, line, peer, source, carriage. `none`: discarded as if lost (R275). -/
abbrev Applies := Nat → Nat → Nat → BlockAddr → Car → State → Option State

/-- A carriage is accepted: the expected sequence moves on, and an acknowledgement is sent where one is due (R214). -/
def accepted (t l i : Nat) (c : Car) (s : State) : State :=
  let s := modPeer s t l i fun p => { p with expected := ⟨p.expected.val + 1, p.expected.flaw⟩, unacked := p.unacked + 1 }
  if c.last || c.fence || (peerOf s t l i).any (fun p => 16 ≤ p.unacked) then sendAck t l i s else s

/-- The carriage in sequence. -/
def takeCar (apply : Applies) (t l i : Nat) (src : BlockAddr) (c : Car) (s : State) : State :=
  let tr := troupe s t
  if ! c.coll && ! c.fence && ! inWindow (lineOf tr l) c then outsideWindow t l src c s
  else
    let here := if c.type = 1 && ! c.coll && ! c.fence && mirrorLine tr l then
        takeMirrorWrite t c (c.payload.take (contentBytes c)) s
      else none
    match here.orElse fun _ => apply t l i src c s with
    | none => s
    | some s => accepted t l i c s

/-- Table 8.5. -/
def sequenced (apply : Applies) (t l i : Nat) (src : BlockAddr) (c : Car) (s : State) : State :=
  if c.lineEpoch != (lineOf (troupe s t) l).epoch then staleEpoch t l i s
  else
    let s := takeTimes t l i c s
    match peerOf s t l i with
    | none => s
    | some p =>
      if c.seq == p.expected.val then takeCar apply t l i src c s
      else if seqBefore c.seq p.expected.val then sendAck t l i s
      else gapFound t l i s

/-- The arrival of a carriage that has passed its checks (R199). -/
def deliver (apply : Applies) (port : Nat) (f : List Byte) (s : State) : State :=
  let c := readCar f
  let t := c.troupe
  match matchLine s f c with
  | none => unmatched port (lineNumber s t c.line f) (frameSrc f) c s
  | some (l, i) =>
    let s := checkLine t l s
    let ln := lineOf (troupe s t) l
    match ln.state.val with
    | .opened | .closing => sequenced apply t l i (frameSrc f) c s
    | .knocking | .resetting =>
      let lent := (ln.peers[i]?).any fun p => p.answered.any fun a => a.2 == c.lineEpoch && a.2 != ln.epoch
      if ln.requested == some c.lineEpoch || lent then s else staleEpoch t l i s
    | .faulted | .closed => portGauge s port 18 1

/-! ### What each kind applies -/

/-- A WRITE writes its content at its target (R209). -/
def applyWrite : Applies := fun _ _ _ _ c s => some (pokeHbm s c.target.toNat (c.payload.take (contentBytes c)))

/-- A REDUCE_WRITE (R191); with every tally group dark the block assigns it to no unit, and it is lost until the sender's
timer brings it again (R7, log entry 92). -/
def applyReduce : Applies := fun t _ _ _ c s => if tallyOut s then none else some (reduceInto t c s)

/-- A READ_REQUEST sends READ_RESPONSE carriages on the reverse direction, charged to the shaper (R210). -/
def applyRequest : Applies := fun t l i _ c s =>
  let data := hbmRead s (carSpan c).1 (carSpan c).2
  let proto : Car := { type := 4, cls := .d, enc := 0, op := 0, troupe := t, line := l, step := c.step, count := 0
                       scripted := scripted s (troupe s t), payload := [] }
  some (queueCars t l i (some .shaper) none (rawCars proto (payloadLimit s t l) c.target.toNat data) s)

/-- A READ_RESPONSE writes at the requester's address; the READ completes with its last byte (R207). -/
def applyResponse : Applies := fun t l _ _ c s =>
  let s := pokeHbm s c.target.toNat (c.payload.take c.count)
  let ln := lineOf (troupe s t) l
  match ln.ops.find? fun o => o.kind == 2 && decide (o.got < o.bytes) with
  | none => some s
  | some op => some (completeOps t l (modLine s t l fun ln => { ln with ops := ln.ops.map fun o =>
      if o.id == op.id then { o with got := o.got + c.count, allAcked := decide (o.bytes ≤ o.got + c.count) } else o }))

/-- A fence carriage applies nothing (R221). -/
def applyFence : Applies := fun _ _ _ _ _ s => some s

/-- A collective carriage goes to the tally (R180); a contribution finds none while every tally group is dark (R7, log
entry 92). -/
def applyCollective : Applies := fun t l _ src c s =>
  if tallyOut s && c.type = 2 then none else some (takeCollective t l src c s)

/-- The blocks of a delta carriage by block of the bucket: Q8B, or FP32 for an F-class bucket (R194). -/
def deltaBlocks (c : Car) (base : Nat) : List (Nat × QBlk × List F32) :=
  if c.enc = 7 then (fp32Blocks c).map fun b => (base + b.1 - c.firstBlock, ⟨0, [], []⟩, b.2)
  else (((readBlocks c.enc c.count c.firstBlock c.payload).map (·.1)).getD []).map fun b =>
    (base + b.1 - c.firstBlock, b.2, [])

/-- Whether the all-gather of step n runs on this chip: it is the last COMMITTED step, and not yet whole (R180). -/
def gathering (tr : Troupe) (n : Nat) : Bool :=
  n == tr.epoch && (stepOf tr n).any (fun r => r.state.val == .committed) && ! gatherDone tr

/-- The blocks of a delta item: the part of its owner's range that lies in the chunk, all of which its LAST carriage
completes; the elements that no carriage of a Q8B-S or Q8B-R item named have x = 0 (R194, R275). -/
def itemEnd (tr : Troupe) (g : Graph) (te : Nat × Nat × Nat × Bool) (chunk base : Nat) : List Nat :=
  let n := g.members tr
  let r := ownedRange (blockOwner base n g.blocks) n g.blocks
  let sp := chunkSpan te chunk
  let a := max r.1 sp.1
  (List.range (min r.2 (sp.1 + sp.2) - a)).map (a + ·)

/-- The blocks of a delta carriage with those that its item leaves at zero. -/
def allDeltas (tr : Troupe) (g : Graph) (te : Nat × Nat × Nat × Bool) (c : Car) (base : Nat) :
    List (Nat × QBlk × List F32) :=
  deltaBlocks c base ++ (if c.last && c.enc != 7 then
    (itemEnd tr g te c.chunk base).map fun k => (k, ⟨0, List.replicate 32 0, List.replicate 32 false⟩, []) else [])

/-- A delta block whose scale byte is 0xFF holds 32 zeros; it is counted and recorded, and its step is past any curtain
(R120). -/
def deltaScale (t : Nat) (x : Nat × QBlk × List F32) (s : State) : (Nat × QBlk × List F32) × State :=
  if x.2.1.scale = 255 then
    ((x.1, { x.2.1 with scale := 0, q := List.replicate 32 0 }, x.2.2), scaleRecord t s)
  else (x, s)

/-- Apply one delta block of a carriage (R120, R275, R304). -/
def takeDelta (t b : Nat) (s : State) (x : Nat × QBlk × List F32) : State :=
  let y := deltaScale t x s
  applyDelta t b y.1.1 y.1.2.1 y.1.2.2 y.2

/-- A delta (R180, R275, R304, R399). -/
def applyDeltas : Applies := fun t _ _ _ c s =>
  let tr := troupe s t
  if tr.opened + 2 ≤ c.step then some (tooFar t s)
  else if tr.decided < c.step then none
  else if ! gathering tr c.step then some (staleCar t s)
  else match placed tr c with
    | none => some (misplaced t c c.tensor s)
    | some (g, te, base) =>
      some (settleGather t ((allDeltas tr g te c base).foldl (takeDelta t g.bucket) s))

/-- A mirror carriage of subject 0xA (R291). -/
def applyMirror : Applies := fun t _ _ _ c s => some (takeMirror t c s)

/-- A residual trickle carriage (R294). -/
def applyTrickle : Applies := fun t _ _ _ c s => some (takeTrickle t c s)

/-! ### Frames that end here and the pit share (R232, R233) -/

/-- The pit whose share a contribution needs: that of its first block, where its bucket's sums lie in HBM (R193). -/
def framePit (s : State) (c : Car) : Option Nat :=
  if c.coll && c.type = 2 && c.subject = 1 then
    (placed (troupe s c.troupe) c).bind fun p =>
      if (workOf (troupe s c.troupe) p.1.bucket).place = some 0 then some (p.1.pitOf s.house.pits p.2.2) else none
  else none

/-- Whether a frame has to wait in the receive buffer: the share of the pit that it needs is spent. -/
def shareWaits (s : State) (f : List Byte) : Bool := (framePit s (readCar f)).any fun p => ! hasShare s p

/-- Whether a frame of a priority that ends here waits in a port's receive buffer. -/
def heldHere (s : State) (port prio : Nat) : Bool := (portOf s port).rx.any fun r => r.1 == 8 && r.2.2.1 == prio

/-- A carriage that ends here goes to Lines, or stays in the receive buffer behind those that wait for the pit share. -/
def terminate (apply : Applies) (port : Nat) (f : List Byte) (s : State) : State :=
  if heldHere s port (framePcp f) || shareWaits s f then bufferFrame port (8, f, framePcp f, 64, 0) s
  else deliver apply port f s

/-- What each kind of carriage applies. -/
def appliesOf (k : Kind) : Option Applies :=
  match k with
  | .write => some applyWrite
  | .reduceWrite => some applyReduce
  | .readRequest => some applyRequest
  | .readResponse => some applyResponse
  | .fence => some applyFence
  | .collective => some applyCollective
  | .delta => some applyDeltas
  | .mirror => some applyMirror
  | .trickle => some applyTrickle
  | _ => none

/-- Take the frames of a priority that wait in a port's receive buffer, in the order of their arrival, while the share
lasts. -/
def drainHere (port prio : Nat) : Nat → State → State
  | 0, s => s
  | n + 1, s =>
    match (portOf s port).rx.find? fun r => r.1 == 8 && r.2.2.1 == prio with
    | none => s
    | some r =>
      if shareWaits s r.2.1 then s
      else drainHere port prio n (((appliesOf (carKind (readCar r.2.1))).map fun a => deliver a port r.2.1
        (unbuffer port r s)).getD (unbuffer port r s))

/-- PIT_WINDOW_OPEN (R139, R233): the pit's window opens, and the frames that waited for its share go on. -/
def execPitWindowOpen (dt pit : Nat) (s0 : State) : Out :=
  let s := passCk dt s0
  .next (if pit < s.house.pits then
      (s.ports.map (·.1)).foldl (fun s port => [2, 3, 4].foldl (fun s prio =>
        drainHere port prio (portOf s port).rx.length s) s) (openWindow pit s)
    else s)

/-! ### The rows -/

/-- WRITE_RECEIVE (R209). -/
def execWriteReceive (dt port : Nat) (frame : List Byte) (s : State) : Out :=
  .next (arriveOpen .write true dt port frame (terminate applyWrite port frame) s)

/-- REDUCE_WRITE_RECEIVE (R191). -/
def execReduceWriteReceive (dt port : Nat) (frame : List Byte) (s : State) : Out :=
  .next (arriveOpen .reduceWrite true dt port frame (terminate applyReduce port frame) s)

/-- READ_REQUEST_RECEIVE (R210). -/
def execReadRequestReceive (dt port : Nat) (frame : List Byte) (s : State) : Out :=
  .next (arriveOpen .readRequest true dt port frame (terminate applyRequest port frame) s)

/-- READ_RESPONSE_RECEIVE (R207). -/
def execReadResponseReceive (dt port : Nat) (frame : List Byte) (s : State) : Out :=
  .next (arriveOpen .readResponse true dt port frame (terminate applyResponse port frame) s)

/-- FENCE_CARRIAGE_RECEIVE (R221). -/
def execFenceCarriageReceive (dt port : Nat) (frame : List Byte) (s : State) : Out :=
  .next (arriveOpen .fence true dt port frame (terminate applyFence port frame) s)

/-- COLLECTIVE_CARRIAGE_RECEIVE (R180). -/
def execCollectiveCarriageReceive (dt port : Nat) (frame : List Byte) (s : State) : Out :=
  .next (arriveOpen .collective true dt port frame (terminate applyCollective port frame) s)

/-- DELTA_CARRIAGE_RECEIVE (R275). -/
def execDeltaCarriageReceive (dt port : Nat) (frame : List Byte) (s : State) : Out :=
  .next (arriveOpen .delta true dt port frame (terminate applyDeltas port frame) s)

/-- MIRROR_CARRIAGE_RECEIVE (R291). -/
def execMirrorCarriageReceive (dt port : Nat) (frame : List Byte) (s : State) : Out :=
  .next (arriveOpen .mirror true dt port frame (terminate applyMirror port frame) s)

/-- RESIDUAL_TRICKLE_RECEIVE (R294). -/
def execResidualTrickleReceive (dt port : Nat) (frame : List Byte) (s : State) : Out :=
  .next (arriveOpen .trickle true dt port frame (terminate applyTrickle port frame) s)

end Sys2Proof.Machine
end

