-- ==== Sys2Proof/Machine/LineEvents.lean ====
section
/-! DEFINITION. Control frames of Lines that arrive, and the timers of Lines (R214–R219, R225, R246, R247). -/

namespace Sys2Proof.Machine

open Sys2Proof

/-! ### Control frames (Table 6.11) -/

/-- The troupe, the line and the peer that a control frame of Lines matches: any line but a CLOSED one. -/
def matchControl (s : State) (f : List Byte) : Option (Nat × Nat × Nat) :=
  let t := bodyField f 2 1 % 64
  let l := lineNumber s t (bodyField f 3 2 % 512) f
  let ln := lineOf (troupe s t) l
  if ln.state.val == .closed then none else (peerIndex ln (frameSrc f)).map fun i => (t, l, i)

/-- The epoch field of a control frame. -/
def frameEpoch (f : List Byte) : BitVec 16 := BitVec.ofNat 16 (bodyField f 5 2)

/-- A line's words are judged, then a frame that matches it is taken. -/
def onLine (f : List Byte) (k : Nat → Nat → Nat → State → State) (s : State) : State :=
  match matchControl s f with
  | none => s
  | some (t, l, i) => k t l i (checkLine t l s)

/-- Whether a line still takes acknowledgements of its current epoch (R219, R220). -/
def takesAcks (ln : Line) : Bool :=
  ln.state.val == .opened || ln.state.val == .closing || ln.state.val == .resetting

/-- The acknowledgement and the echo of an ACK or a NAK: everything before a sequence (R214, R215, R225). -/
def acknowledge (t l i : Nat) (before : BitVec 32) (f : List Byte) (s : State) : State :=
  let r := ackBefore t l i before s
  let s := if bit (bodyField f 17 1) 0 then
      sampleRtt t l i (rttOf s.house.ck (BitVec.ofNat 32 (bodyField f 11 4)) (bodyField f 15 2)) r.2 r.1
    else r.1
  enterLine t l (settleResync t (fenceDone t l (completeOps t l s)))

/-- ACK_RECEIVE (R214). -/
def execAckReceive (dt port : Nat) (frame : List Byte) (s : State) : Out :=
  .next (arriveOpen .ack false dt port frame (onLine frame fun t l i s =>
    let ln := lineOf (troupe s t) l
    if ! takesAcks ln || frameEpoch frame != ln.epoch then s
    else acknowledge t l i (BitVec.ofNat 32 (bodyField frame 7 4) + 1) frame s) s)

/-- A NAK of reason 0 (R215, R216): everything before it is acknowledged, and the sender goes back. -/
def nakGap (t l i : Nat) (f : List Byte) (s : State) : State :=
  let first := BitVec.ofNat 32 (bodyField f 7 4)
  let s := acknowledge t l i first f s
  let ln := lineOf (troupe s t) l
  if (ln.state.val == .opened || ln.state.val == .closing) && (peerOf s t l i).any (fun p => ! p.out.isEmpty) then
    modPeer (goBackFrom t l i first s) t l i fun p => { p with stage := 0, timer := some s.house.ck }
  else s

/-- NAK_RECEIVE (R215, Table 8.7). -/
def execNakReceive (dt port : Nat) (frame : List Byte) (s : State) : Out :=
  .next (arriveOpen .nak false dt port frame (onLine frame fun t l i s =>
    let ln := lineOf (troupe s t) l
    let open_ := ln.state.val == .opened || ln.state.val == .closing
    match bits (bodyField frame 17 1) 1 2 with
    | 0 => if takesAcks ln && frameEpoch frame == ln.epoch then nakGap t l i frame s else s
    | 1 => if ln.state.val == .opened && frameEpoch frame != ln.epoch then beginReset t l s else s
    | 2 => if open_ then shutLine t l s else s
    | _ => s) s)

/-- PROBE_RECEIVE (R225): the echo carries the timestamp, held for no time. -/
def execProbeReceive (dt port : Nat) (frame : List Byte) (s : State) : Out :=
  .next (arriveOpen .probe false dt port frame (onLine frame fun t l i s =>
    match peerOf s t l i with
    | none => s
    | some p =>
      let fields := [(5, 2, bodyField frame 5 2), (7, 4, bodyField frame 7 4), (11, 4, bodyField frame 11 4)]
      sendControl t (routeClass (troupe s t) l) p.addr (controlTo s 0x83 t l fields p.addr) s) s)

/-- PROBE_ECHO_RECEIVE (R225): a sample of the current epoch's probe. -/
def execProbeEchoReceive (dt port : Nat) (frame : List Byte) (s : State) : Out :=
  .next (arriveOpen .probeEcho false dt port frame (onLine frame fun t l i s =>
    let ln := lineOf (troupe s t) l
    if frameEpoch frame != ln.epoch || ! (peerOf s t l i).any (fun p => p.probe.toNat == bodyField frame 7 4) then s
    else sampleRtt t l i (rttOf s.house.ck (BitVec.ofNat 32 (bodyField frame 11 4)) (bodyField frame 15 2)) 0 s) s)

/-! ### Knocks (R218, R219, R246) -/

/-- Epoch b is later than epoch a, modulo 2^16 (R218). -/
def epochLater (a b : BitVec 16) : Bool :=
  let d := (b - a).toNat
  1 ≤ d && d < 2 ^ 15

/-- The retry-after that a closed house sends (R246). -/
def closedRetry (s : State) : Nat :=
  let x := mixNat (ownAddr s).toNat s.house.tick
  if s.house.fwUp then 64 + x / 2 ^ 58 else 512 + x / 2 ^ 55

/-- The answer to a knock, on the route of its troupe's slice; a troupe without one answers on the port of arrival (log
entry 36). -/
def answerKnock (port t l : Nat) (f : List Byte) (epoch : BitVec 16) (st : Status) (retry : Nat) (s : State) : State :=
  let n := BitVec.ofNat 16 (bodyField f 9 2)
  let fields := [(5, 2, epoch.toNat), (7, 2, (tableEpoch s t).toNat), (9, 2, n.toNat), (11, 1, statusCode st), (12, 2, retry)]
  let back := controlTo s 0x86 t l fields (frameSrc f)
  if (troupe s t).slice.isNone then modPort s port fun q => { q with control := q.control ++ [back] }
  else sendAnswer t l (frameSrc f) epoch n st retry s

/-- A knock on a line that is not open to it (Table 8.7): CLOSED, with a draw of 1 to 4 ticks (log entry 12). -/
def refuseKnock (port t l : Nat) (f : List Byte) (s : State) : State :=
  let n := 1 + Config.freeDraw s.house.draws % 4
  answerKnock port t l f 0 .closed n (modHouse s fun h => { h with draws := h.draws + 1 })

/-- Grant an epoch to the peer that knocks. -/
def grant (port t l i : Nat) (f : List Byte) (epoch : BitVec 16) (s : State) : State :=
  answerKnock port t l f epoch .done 0
    (modPeer s t l i fun p => { p with answered := some (BitVec.ofNat 16 (bodyField f 9 2), epoch) })

/-- An OPEN line takes a later epoch: a point line at once, a carousel line with more peers by knocking them all. -/
def takeLater (port t l i : Nat) (f : List Byte) (epoch : BitVec 16) (s : State) : State :=
  let s := grant port t l i f epoch (finalAcks t l (resetCurtain t l s))
  if (lineOf (troupe s t) l).peers.length ≤ 1 then openEpoch t l epoch s
  else askEpoch t l epoch s

/-- A knock of peer i by the state of its line (Table 8.7, Table 8.9): a knock already answered has its answer again. -/
def knockByState (port t l i : Nat) (f : List Byte) (s : State) : State :=
  let ln := lineOf (troupe s t) l
  let req := frameEpoch f
  let own := ln.requested.getD 0
  let again := ((peerOf s t l i).bind (·.answered)).filter fun a => a.1 == BitVec.ofNat 16 (bodyField f 9 2)
  match ln.state.val, again with
  | .opened, some a => answerKnock port t l f a.2 .done 0 s
  | .opened, none =>
    if epochLater ln.epoch req then takeLater port t l i f req s
    else grant port t l i f ln.epoch (sendFinal t l i s)
  | .knocking, some a | .resetting, some a => answerKnock port t l f a.2 .done 0 s
  | .knocking, none | .resetting, none => grant port t l i f (if epochLater own req then req else own) s
  | _, _ => refuseKnock port t l f s

/-- A knock that arrives (R218, R246, Table 8.7): a closed house, a CLOSED line and a promoted chip do not take it. -/
def hearKnock (port : Nat) (f : List Byte) (s : State) : State :=
  let t := bodyField f 2 1 % 64
  let l := lineNumber s t (bodyField f 3 2 % 512) f
  if ! s.house.doorsOpen then answerKnock port t l f 0 .closed (closedRetry s) s
  else
    let s := checkLine t l s
    let ln := lineOf (troupe s t) l
    if ln.state.val == .closed || (troupe s t).promotion.isSome then refuseKnock port t l f s
    else match peerIndex ln (frameSrc f) with
      | none => portGauge s port 18 1
      | some i => knockByState port t l i f s

/-- KNOCK_RECEIVE (R218, R246). -/
def execKnockReceive (dt port : Nat) (frame : List Byte) (s : State) : Out :=
  .next (arrive .knock dt port frame (fun s =>
    if ticksOnly s port then s else hearKnock port frame s) s)

/-- The answer DONE of peer i with a granted epoch (R218). -/
def granted (t l i : Nat) (g : BitVec 16) (s : State) : State :=
  let ln := lineOf (troupe s t) l
  let req := ln.requested.getD 0
  if g != req && ! epochLater req g then s
  else if g != req && ln.carousel then
    knockAll t l (modLine s t l fun ln => { ln with
      requested := some g, peers := ln.peers.map fun p => { p with granted := none } })
  else
    let s := modPeer s t l i fun p => { p with granted := some g, knockTimer := none, knockStage := 0, retryAt := none }
    match allGranted (lineOf (troupe s t) l) with
    | some e => openEpoch t l e s
    | none => s

/-- KNOCK_ANSWER_RECEIVE (R218, Table 8.7). -/
def execKnockAnswerReceive (dt port : Nat) (frame : List Byte) (s : State) : Out :=
  .next (arriveOpen .knockAnswer false dt port frame (onLine frame fun t l i s =>
    let ln := lineOf (troupe s t) l
    let waits := (ln.state.val == .knocking || ln.state.val == .resetting) && (peerOf s t l i).any (·.granted.isNone)
    if ! waits then s
    else if bodyField frame 11 1 = statusCode .done then granted t l i (frameEpoch frame) s
    else if bodyField frame 11 1 = statusCode .closed then
      gauge (modPeer s t l i fun p => { p with
        knockTimer := none, knockStage := 0, retryAt := some (s.house.tick + max 1 (bodyField frame 12 2)) }) t 0x410 1
    else s) s)

/-! ### Timers -/

/-- The timeout of a stage in ck (Table 8.6). -/
def stageCk (stage : Nat) : Nat := 36000 * 2 ^ stage

/-- Whether the next hop of a line's peer is a dark or relighting port, which freezes its retransmit timer (R251). -/
def frozenHop (s : State) (t l : Nat) (p : Peer) : Bool :=
  match originRoute s t (routeClass (troupe s t) l) p.addr with
  | .out q => (portOf s q).link == .dark || (portOf s q).link == .relighting
  | _ => false

/-- RETRANSMIT_TIMER_EXPIRY (R216). -/
def execRetransmitTimerExpiry (dt t line peer : Nat) (s0 : State) : Out :=
  let s := passCk dt s0
  let ln := lineOf (troupe s t) line
  .next (match ln.peers[peer]? with
    | none => s
    | some p =>
      let due := p.timer.any fun c => decide (c + stageCk p.stage ≤ s.house.ck)
      if ! due || p.out.isEmpty || frozenHop s t line p || ! (ln.state.val == .opened || ln.state.val == .closing) then s
      else useLine t line (fun s =>
        let s := gauge s t 0x420 1
        if 5 ≤ p.stage then faultLine t line (lineRec t line .timeout 0) s
        else modPeer (goBackFrom t line peer p.oldest.val s) t line peer fun p =>
          { p with stage := p.stage + 1, timer := some s.house.ck }) s)

/-- Whether peer i of a line waits for an answer to a knock. -/
def knocks (ln : Line) (i : Nat) : Option Peer :=
  if ln.state.val == .knocking || ln.state.val == .resetting then (ln.peers[i]?).filter (·.granted.isNone) else none

/-- KNOCK_TIMER_EXPIRY (R218, Table 8.7). -/
def execKnockTimerExpiry (dt t line peer : Nat) (s0 : State) : Out :=
  let s := passCk dt s0
  let ln := lineOf (troupe s t) line
  .next (match knocks ln peer with
    | none => s
    | some p =>
      if ! p.knockTimer.any (fun c => decide (c + stageCk p.knockStage ≤ s.house.ck)) then s
      else useLine t line (fun s =>
        if p.knockStage < 5 then sendKnock t line peer (p.knockStage + 1) s
        else faultLine t line (lineRec t line .timeout 0) (if ln.state.val == .resetting then leaveEpoch t line s else s)) s)

/-- KNOCK_RETRY (R218): the retry-after has elapsed. -/
def execKnockRetry (dt t line peer : Nat) (s0 : State) : Out :=
  let s := passCk dt s0
  .next (match knocks (lineOf (troupe s t) line) peer with
    | none => s
    | some p => if p.retryAt.any (· ≤ s.house.tick) then useLine t line (sendKnock t line peer 0) s else s)

/-- The peers of a carousel line in rotation order from this chip's position (R247). -/
def rotation (own : BlockAddr) (ln : Line) : List Nat :=
  let n := ln.peers.length
  let p := (ln.members.findIdx? (· == own)).getD 0
  (List.range n).map fun k => (p + k) % max 1 n

/-- FIRST_KNOCK (R247): in rotation order, at most 64 in a tick. -/
def execFirstKnock (dt t line peer : Nat) (s0 : State) : Out :=
  let s := passCk dt s0
  let ln := lineOf (troupe s t) line
  let next := (rotation (lineAddr s t line) ln).find? fun i => (ln.peers[i]?).any (·.firstDue)
  .next (if s.house.doorsOpen && decide (s.house.knocksInTick < 64) && next == some peer && (knocks ln peer).isSome then
      useLine t line (fun s => sendKnock t line peer 0 (modHouse s fun h => { h with knocksInTick := h.knocksInTick + 1 })) s
    else s)

/-- Frames of a line towards a peer that are not sent yet. -/
def unsentFrames (tr : Troupe) (l i : Nat) : List OutFrame :=
  (tr.sheet ++ (lineOf tr l).waiting).filter fun f => f.car.line == l && f.peer == i

/-- Whether the window governs a frame: its ring is bound to a shaper, or its troupe runs ad-lib (R224). -/
def governed (s : State) (tr : Troupe) (f : OutFrame) : Bool :=
  ! scripted s tr || (f.opId.any (0 < ·) && ! f.booked)

/-- PROBE_SEND (R225): a governed line with work waiting and no sample in 32 µs; one PROBE in 32 µs (log entry 53). -/
def execProbeSend (dt t line peer : Nat) (s0 : State) : Out :=
  let s := passCk dt s0
  let tr := troupe s t
  let ln := lineOf tr line
  .next (match ln.peers[peer]? with
    | none => s
    | some p =>
      let long_ (at_ : Option Nat) : Bool := at_.all fun c => decide (c + 57600 ≤ s.house.ck)
      let quiet_ := long_ p.sampledAt && long_ p.probedAt
      if ln.state.val != .opened || ! quiet_ || ! (unsentFrames tr line peer).any (governed s tr) then s
      else useLine t line (fun s =>
        let n := p.probe + 1
        let fields := [(5, 2, ln.epoch.toNat), (7, 4, n.toNat), (11, 4, s.house.ck % 2 ^ 32)]
        sendControl t (routeClass tr line) p.addr (controlTo s 0x82 t line fields p.addr)
          (modPeer s t line peer fun p => { p with probe := n, probedAt := some s.house.ck })) s)

end Sys2Proof.Machine
end

