-- ==== Sys2Proof/Machine/Steps.lean ====
section
/-! DEFINITION. Opening, aborting and reading steps: the STEP_ commands (R21–R24, R52, R65, R83, R137, R279, R301, R305,
R312, R338, R340). -/

namespace Sys2Proof.Machine

open Sys2Proof

/-! ### Records that take effect at an opened step -/

/-- A tensor's optimiser state at +0.0 and its update count at 0 (R268, R390). -/
def clearState (st : TState) : TState :=
  { blocks := st.blocks.map fun e => (e.1, { e.2 with m := [], v := [] }) }

/-- Clear a tensor's state in the committed area and in the partner's mirror. -/
def clearTensor (tr : Troupe) (tensor : Nat) : Troupe :=
  let tr := setCommitted tr (tabMod (committed tr) tensor clearState)
  { tr with mirror := { tr.mirror with
      checked := tabMod tr.mirror.checked tensor clearState
      running := tabMod tr.mirror.running tensor clearState } }

/-- The tensors whose rule changes at step n (R268). -/
def ruleChanges (tr : Troupe) (n : Nat) : List Nat :=
  (tr.opt.filter fun e => (promote n e.2).1.rule != e.2.1.rule).map (·.1)

/-- A detector as OPT_SPIKE leaves it from the next STEP_OPEN (R278). -/
def respike (k : Nat) (d : Spike) (e : Nat × Bool × Nat × F32 × Nat) : Spike :=
  if e.1 = k then { d with armed := e.2.1, k := e.2.2.1, ratio := e.2.2.2.1, warmup := e.2.2.2.2 } else d

/-- Every record that step n is the first to use. -/
def promoteAll (tr : Troupe) (n : Nat) : Troupe :=
  let cleared := ruleChanges tr n ++ tr.tierChanged
  let tr := { withRecords (cleared.foldl clearTensor tr) n with
    tierChanged := []
    opt := (tr.opt.map fun (e : Nat × _) => (e.1, promote n e.2) : Tab (OptRec × Option (OptRec × Nat)))
    spikeLoss := (tr.pendingSpike.foldl (respike 0) tr.spikeLoss).drop
    spikeNorm := (tr.pendingSpike.foldl (respike 1) tr.spikeNorm).drop
    pendingSpike := [] }
  match tr.pendingOpt with
  | some (g, d, at_) => if at_ ≤ n then { tr with gammaWord := Pair.of g, lag := d, pendingOpt := none } else tr
  | none => tr

/-! ### STEP_OPEN -/

/-- Slots of a troupe's arenas (R72). -/
def slotsInAll (tr : Troupe) : Nat := (tr.arenas.map fun e => e.2.slots).sum
/-- Chunks of a troupe's largest bucket (R83). -/
def largestBucket (tr : Troupe) : Nat := tr.graph.foldl (fun a e => max a e.2.chunkList.length) 0
/-- Steps of a troupe that are not yet RETIRED (R22). -/
def unretired (tr : Troupe) : Nat := (tr.steps.filter fun e => e.2.state.val != .retired).length

/-- Why a STEP_OPEN is refused, if it is (R21, R22, R65, R83, R280, R301, R324, log entry 49). -/
def openRefusal (s : State) (t m : Nat) (mask : BitVec 256) : Option Status :=
  let tr := troupe s t
  if (List.range 256).any fun b => mask.getLsbD b && (tabGet tr.bookings b).isNone then some .badArg
  else if tr.diverged then some .diverged
  else if ! tr.sealed || tr.sealing || tr.billBroken || (flight tr).isSome || decide (tr.propK ≤ unretired tr) || tr.needImport
      || holdsBy s t (fun a => match a with | .optImport _ _ => true | _ => false) then some .state
  else if m == 1 && decide (slotsInAll tr < largestBucket tr) then some .badArg
  else none

/-- Whether a deferred STEP_OPEN of the troupe is held. -/
def heldOpen (s : State) (t : Nat) : Option (Deferred × Nat × BitVec 256) :=
  s.deferred.findSome? fun d => match d.awaits with
    | .stepOpen m mask => if d.target == t then some (d, m, mask) else none
    | _ => none

/-- Whether every carousel line of the troupe is OPEN (R305). -/
def carouselOpen (tr : Troupe) : Bool :=
  tr.carousels.all fun e => (e.2.lines.take e.2.count).all fun l => (lineOf tr l).state.val == .opened

/-- Whether an opened step has to wait: an intermission (R338) or an encore (R305). -/
def openWaits (tr : Troupe) : Bool := tr.life == .intermission || (tr.held && ! carouselOpen tr)

/-- The record that a step opens with. -/
def newStep (s : State) (t n m : Nat) (mask : BitVec 256) : StepRec :=
  let tr := troupe s t
  let mode := effectiveMode s tr
  { num := n, state := Pair.of .opened, m := m, bookings := mask, seed := tr.seed, adlib := ! scripted s tr
    mirror := mode, trickle := tr.pairTrickle && mode != .none, openTick := s.house.tick, deadline := tr.deadline
    digests := [0, 0, 0, 0, tr.layerDigest], epoch := tr.epoch, sealNo := tr.sealNumber, generation := tr.generation
    propHeld := true, mirrorEpoch := (lineOf tr tr.pairLine).epoch }

/-- Steps that step n pushes out: RETIRED ones keep their phases for 64 steps (R382), the last COMMITTED one longer, since
a restart of its residuals still marks it (R143). -/
def keptSteps (tr : Troupe) (n : Nat) : Tab StepRec :=
  tr.steps.filter fun e => e.1 == tr.epoch || ! (e.1 + 64 ≤ n && e.2.state.val == .retired && ! e.2.capturing)

/-- Captures that still hold a slot that step n needs are cut short (R313). -/
def overtaken (tr : Troupe) (n : Nat) : List Nat :=
  (tr.steps.filter fun e => e.2.capturing && e.1 + tr.propK ≤ n).map (·.1)

/-- The causes that carriages of step n met before it opened here raise its curtain now (R180, R196). -/
def earlyCurtains (t n : Nat) (s : State) : State :=
  let rows := ((troupe s t).earlyVeto.filter fun v => v.1 == n).map (·.2)
  rows.foldl (fun s row => curtain (some row) t s)
    (modTroupe s t fun tr => { tr with earlyVeto := tr.earlyVeto.filter fun v => decide (n < v.1) })

/-- Open the next step (R21–R23, R312, R381). -/
def openStep (t m : Nat) (mask : BitVec 256) (s : State) : State :=
  let n := (troupe s t).opened + 1
  let late := overtaken (troupe s t) n
  let s := modTroupe s t fun tr => late.foldl (fun tr k => modStep tr k fun r => { releaseHalf r with uncaptured := true }) tr
  let s := late.foldl (fun s k => ledgerStore t k s) s
  let s := modTroupe s t fun tr => promoteAll tr n
  let r := newStep s t n m mask
  let s := modTroupe s t fun tr =>
    let old : Tab BWork := if tr.workStep = n then tr.work else []
    let tr := setPending tr (committed tr)
    { tr with
      opened := n, steps := tabPut (keptSteps tr n) n r, workStep := n
      work := tr.graph.map fun e => (e.1, tabGetD old e.1 {})
      packed := tr.packed.filter fun k => decide (12 ≤ k.kind), chunks := [], written := []
      hostSlots := tr.hostSlots.map fun h => { h with read := none }
      rounds := true, roundsEnd := none, layerDigest := 0, held := false }
  earlyCurtains t n (ledgerOpen t n (gauge s t 0x00 1))

/-- The results of a STEP_OPEN: the step's number. -/
def openResults (s : State) (t : Nat) : List (Nat × List Byte) := [res 0 8 (troupe s t).opened]

/-- Serve a held STEP_OPEN, if nothing holds it any longer (R305, R339); it is judged again. -/
def serveHeld (t : Nat) (s : State) : State :=
  match heldOpen s t with
  | none => s
  | some (d, m, mask) =>
    if openWaits (troupe s t) then s
    else match openRefusal s t m mask with
      | some st => run [.complete d.issuer d.slot st []] s
      | none =>
        let s := openStep t m mask s
        run [.complete d.issuer d.slot .done (openResults s t)] s

/-- STEP_OPEN (R21, R22, R65, R83, R301, R305, R338). In an intermission it is held without being judged: R339 serves
it after the resume, and it is judged then (log entry 49). -/
def execStepOpen (p : Post) (m : BitVec 16) (bookings : BitVec 256) (s : State) : Out :=
  .next (serve p (.stepOpen p m bookings)
    { gate := anyGate, args := inRange 1 256 m.toNat
      body := fun _ _ t s =>
        let judged := if (troupe s t).life == .intermission then none else openRefusal s t m.toNat bookings
        match judged with
        | some st => .refuse st
        | none =>
          need ((heldOpen s t).isNone) .state <|
          if openWaits (troupe s t) then .defer s (.stepOpen m.toNat bookings) []
          else
            let s := openStep t m.toNat bookings s
            doneWith s (openResults s t) } s)

/-! ### The other STEP_ commands -/

/-- STEP_ABORT (R24): an OPEN or CALLED step will be SKIPPED; one that is EXCHANGED keeps its outcome. -/
def execStepAbort (p : Post) (s : State) : Out :=
  .next (serve p (.stepAbort p)
    { gate := anyGate
      body := fun _ _ t s =>
        need ((flight (troupe s t)).isSome) .state <| done (curtain (some 12) t s) } s)

/-- STEP_SEED (R137): from the next STEP_OPEN. -/
def execStepSeed (p : Post) (seed : BitVec 64) (s : State) : Out :=
  .next (serve p (.stepSeed p seed)
    { gate := anyGate, body := fun _ _ t s => done (modTroupe s t fun tr => { tr with seed := seed }) } s)

/-- STEP_LOSS (R279). -/
def execStepLoss (p : Post) (loss : BitVec 32) (s : State) : Out :=
  .next (serve p (.stepLoss p loss)
    { gate := anyGate
      body := fun _ _ t s =>
        need ((openCalled (troupe s t)).any (·.loss.isNone)) .state <|
        let s := modTroupe s t fun tr =>
          { modLast tr (fun r => { r with loss := some loss }) with spikeLoss := tr.spikeLoss.take loss }
        done (noteComplete t (judgeSpike t (troupe s t).spikeLoss loss s)) } s)

/-- The code of a mirroring mode (SPARE_PAIR). -/
def MirrorMode.code : MirrorMode → Nat
  | .none => 0 | .replay => 1 | .copy => 2

/-- STEP_STATE (Table 12.7, R288, R393). -/
def execStepState (p : Post) (s : State) : Out :=
  .next (serve p (.stepState p)
    { gate := alwaysGate
      body := fun _ _ t s =>
        let tr := troupe s t
        let mode := effectiveMode s tr
        let oldest := ((tr.steps.find? fun e => e.2.state.val != .retired).map (·.1)).getD 0
        doneWith s [res 0 8 tr.opened, res 8 1 (((lastStep tr).map fun r => r.state.val.code).getD 0),
          res 16 8 tr.epoch, res 24 8 tr.epoch, res 32 8 oldest, res 40 1 mode.code,
          res 41 1 (bitOf (tr.pairTrickle && mode != .none))] } s)

/-- STEP_DEADLINE (R52): from the next STEP_OPEN. -/
def execStepDeadline (p : Post) (ticks : BitVec 32) (s : State) : Out :=
  .next (serve p (.stepDeadline p ticks)
    { gate := anyGate, args := inRange 2 1048575 ticks.toNat
      body := fun _ _ t s => done (modTroupe s t fun tr => { tr with deadline := ticks.toNat }) } s)

/-- STEP_LEDGER (R312, R313): a fresh ring. -/
def execStepLedger (p : Post) (flags : BitVec 8) (records : BitVec 32) (base extBase extLen capBase capLen : BitVec 64)
    (s : State) : Out :=
  .next (serve p (.stepLedger p flags records base extBase extLen capBase capLen)
    { gate := quietGate, args := flags.toNat < 4 && inRange 1024 16777216 records.toNat
      body := fun _ _ t s => done (modTroupe s t fun tr => { tr with
        ledger := some ⟨flags.getLsbD 0, flags.getLsbD 1, records.toNat, base, extBase, extLen, capBase, capLen⟩
        ledgerCount := 0, ledgerExt := 0
        steps := tr.steps.map fun e => (e.1, { e.2 with ledgerAt := none }) }) } s)

end Sys2Proof.Machine
end

