-- ==== Sys2Proof/Machine/Flags.lean ====
section
/-! DEFINITION. Status words and their bits: the registers of the window, the error record and the gauge pages as bytes
(R342, R345, R352, R353, R358, R362, R378, R379, Tables 13.1 to 13.11, 14.3 to 14.5). -/

namespace Sys2Proof.Machine

open Sys2Proof

/-- The low n bits of a number. -/
def low (n x : Nat) : Nat := x % 2 ^ n

/-- A mask of the bits i < n that have a property. -/
def maskOf (n : Nat) (p : Nat → Bool) : Nat := ((List.range n).map fun i => if p i then 2 ^ i else 0).sum

/-! ### House page (Table 13.5) -/

/-- BLOCK_ID. -/
def blockId (s : State) : Nat :=
  0xB0 + low 8 s.house.pits * 2 ^ 8 + 0x02 * 2 ^ 16 + 0xFA * 2 ^ 24 + (if s.house.fwUp then 0x0401 else 0) * 2 ^ 32

/-- HOUSE_STATUS. -/
def houseStatus (s : State) : Nat :=
  bitOf s.house.fwUp + bitOf s.house.doorsOpen * 2 + bitOf s.house.adrift * 4 + bitOf s.house.stalled * 8 +
    maskOf 8 (fun p => (portOf s p).failed) * 2 ^ 8 + maskOf 8 (fun p => (portOf s p).miswired) * 2 ^ 16 +
    maskOf 8 (fun p => (portOf s p).unlit) * 2 ^ 24

/-- TICK_PERIOD. -/
def tickPeriod (s : State) : Nat :=
  low 16 s.house.period + (match s.house.pendingPeriod with
    | some (p, at_) => low 16 p * 2 ^ 16 + low 32 at_ * 2 ^ 32
    | none => 0)

/-- Whether a unit of the build is dark: the bit of one that the build lacks reads 0 (R9). -/
def unitOut (s : State) (u : Nat) : Bool := unitExists s.house.pits u && unitDark s u

/-- DARK_MAP: pits, networks, tally groups. -/
def darkMap (s : State) : Nat :=
  maskOf 8 (fun p => unitOut s p) + maskOf 4 (fun k => unitDark s (18 + k)) * 2 ^ 8 +
    maskOf 8 (fun k => unitOut s (9 + k)) * 2 ^ 12

/-- The register at an offset of the house page (Table 13.4); none where the offset is reserved. -/
def houseWord (s : State) (off : Nat) : Option Nat :=
  match off with
  | 0x00 => some (blockId s)
  | 0x08 => some (houseStatus s)
  | 0x10 => some (low 64 s.house.tick)
  | 0x18 => some (tickPeriod s)
  | 0x20 => some (darkMap s)
  | 0x28 => some s.log.write.toNat
  | 0x30 => some s.log.read.toNat
  | 0x38 => some (low 32 s.log.overwritten + low 32 s.log.suppressed * 2 ^ 32)
  | 0x40 => some s.log.cue.toNat
  | _ => none

/-- The complement-check registers (Table 13.11). -/
def checkWord (s : State) (off : Nat) : Option Nat :=
  match off with
  | 0x00 => some s.check.base.toNat
  | 0x08 => some s.check.ctrl.toNat
  | 0x10 => some (bitOf s.check.busy + bitOf s.check.finished * 2 + low 24 s.check.broken * 2 ^ 8)
  | 0x18 => some s.check.first.toNat
  | _ => none

/-! ### Error records (Table 13.9) -/

/-- The bytes of an error record. -/
def recordBytes (r : ErrRec) : List Byte :=
  leBytes 1 (subsystemId r.sub) ++ leBytes 1 (statusCode r.status) ++ leBytes 1 (low 6 r.troupe + bitOf r.chipWide * 64) ++
    leBytes 1 0 ++ leBytes 4 r.index.toNat ++ leBytes 8 r.address.toNat ++ leBytes 8 r.tick ++ leBytes 8 (low 48 r.step) ++
    leBytes 8 r.detail.toNat ++ List.replicate 16 0 ++ leBytes 8 (pcWord r.index.toNat).toNat

/-- Bytes of the error log from an offset of its region. -/
def logBytes (s : State) (off n : Nat) : List Byte :=
  (List.range n).map fun i =>
    match tabGet s.log.records ((off + i) / 64) with
    | none => 0
    | some r => (recordBytes r).getD ((off + i) % 64) 0

/-! ### Troupe page (Tables 13.6 and 13.7) -/

/-- The code of a troupe state (Table 13.7). -/
def Life.code : Life → Nat
  | .absent => 0 | .active => 1 | .pending => 2 | .intermission => 3 | .fenced => 4 | .resetting => 5

/-- CALL_DOORBELL as it reads: the slots that have arrived and not completed. -/
def callDoorbell (tr : Troupe) : Nat := (pcWord (maskOf 32 fun k => (tabGet tr.posted k).isSome)).toNat

/-- RING_STATUS. -/
def ringStatusWord (tr : Troupe) : Nat :=
  ((tr.ringStatus.1.map statusCode).getD 0) + low 12 tr.ringStatus.2.1 * 2 ^ 8 + low 32 tr.ringStatus.2.2 * 2 ^ 32

/-- TROUPE_STATUS. -/
def troupeStatus (s : State) (tr : Troupe) : Nat :=
  tr.life.code + bitOf (tr.life != .absent && ! scripted s tr) * 8 + bitOf tr.bestEffort * 16 + low 2 tr.issuer * 32 +
    bitOf tr.held * 128 + bitOf tr.diverged * 256

/-- STEP_STATUS. -/
def stepStatus (tr : Troupe) : Nat :=
  low 48 tr.opened + (((lastStep tr).map fun r => r.state.val.code).getD 0) * 2 ^ 48

/-- The registers of a troupe page; an ABSENT troupe's read as their reset values (R353), and CUE_TABLE reads 0 until
Nimlia is up and places the table (log entry 14). -/
def troupeWord (s : State) (t off : Nat) : Option Nat :=
  let tr := troupe s t
  match off with
  | 0x2000 => some (callDoorbell tr)
  | 0x2008 => some 0
  | 0x2010 => some (ringStatusWord tr)
  | 0x2018 => some (troupeStatus s tr)
  | 0x2020 => some (stepStatus tr)
  | 0x2028 => some (low 48 tr.epoch)
  | 0x2030 => some (if tr.life == .absent || ! s.house.fwUp then 0 else (Config.cueTable t).toNat)
  | 0x2038 => some (low 32 tr.errors + tr.fenceIndex.toNat * 2 ^ 32)
  | _ => if 0x2040 ≤ off && off < 0x2080 then
      some (((tr.lastError.map fun r => leNat (slice (recordBytes r) (off - 0x2040) 8))).getD 0)
    else none

/-! ### Gauge pages (Tables 14.3 to 14.5) -/

/-- UNIT_STATUS. -/
def unitStatus (s : State) : Nat :=
  maskOf 8 (fun p => unitOut s p && ! unitDark s 8) + maskOf 8 (fun k => unitOut s (9 + k) && ! unitDark s 17) * 2 ^ 8 +
    bitOf (unitDark s 8) * 2 ^ 16 + bitOf (unitDark s 17) * 2 ^ 17 + bitOf (unitDark s 22) * 2 ^ 18 +
    bitOf (unitDark s 23) * 2 ^ 19 + bitOf s.house.rehearsal * 2 ^ 20 + low 7 s.house.slack * 2 ^ 21

/-- The word at an 8-B offset of gauge page t, from given gauges. -/
def gaugeWord (s : State) (own chip : Tab Nat) (t off : Nat) : Nat :=
  if off = 0x2C00 && t = 0 then unitStatus s
  else if off < 0x1800 then tabGetD own off 0
  else if t = 0 then tabGetD chip off 0
  else 0

/-- Bytes of a gauge page from an offset. -/
def gaugeBytes (s : State) (own chip : Tab Nat) (t off n : Nat) : List Byte :=
  (List.range n).map fun i =>
    BitVec.ofNat 8 (gaugeWord s own chip t ((off + i) / 8 * 8) / 256 ^ ((off + i) % 8))

/-- The gauge group of an offset (Tables 14.3 and 14.4). -/
def gaugeGroup (off : Nat) : Nat :=
  if off < 0x100 then 0 else if off < 0x200 then 1 else if off < 0x400 then 2 else if off < 0x500 then 3
  else if off < 0x600 then 4 else if off < 0x800 then 5 else if off < 0x1800 then 6
  else if off < 0x2800 then 8 else 9

end Sys2Proof.Machine
end

