-- ==== Sys2Proof/Machine/Test.lean ====
section
/-! DEFINITION. The TEST_ commands and rehearsal (R368–R377, R386, Table 14.1). -/

namespace Sys2Proof.Machine

open Sys2Proof

/-- Subsystem id and number of unit u of R379. -/
def unitName (u : Nat) : Nat × Nat :=
  if u < 9 then (5, u) else if u < 18 then (7, u - 9) else if u < 22 then (3, u - 18) else (6, u - 22)

/-- Unit u of a subsystem id and a unit number (Table 14.1); a unit that the build lacks is none (R9). -/
def unitNumber (s : State) (sub unit : Nat) : Option Nat :=
  let grouped := unit < s.house.pits || unit == 8
  if sub = 5 && grouped then some unit
  else if sub = 7 && grouped then some (9 + unit)
  else if sub = 3 && unit < 4 then some (18 + unit)
  else if sub = 6 && unit < 2 then some (22 + unit)
  else none

/-- Whether a TEST_RUN, a TEST_RETURN or a pit reset rehearses a unit. -/
def underTest (r : UnitRec) : Bool := r.testing.isSome || r.resetting

/-- TEST_SET (R371): from the next tick. -/
def execTestSet (p : Post) (flags slack : BitVec 8) (s : State) : Out :=
  .next (serve p (.testSet p flags slack)
    { house := true, gate := anyGate, args := flags.toNat < 2 && inRange 1 50 slack.toNat
      body := fun _ _ _ s => done (modHouse s fun h =>
        { h with pendingTest := some (flags.getLsbD 0, slack.toNat) }) } s)

/-- TEST_RUN (R373). -/
def execTestRun (p : Post) (sub unit : BitVec 8) (s : State) : Out :=
  .next (serve p (.testRun p sub unit)
    { house := true, gate := anyGate
      body := fun _ _ _ s =>
        match unitNumber s sub.toNat unit.toNat with
        | none => .refuse .badArg
        | some u =>
          need (! underTest (unitOf s u)) .state <|
          .defer (modUnit s u fun r => { r with testing := some false }) (.testRun u) [] } s)

/-- TEST_DARKEN (R374): dark from the next tick. -/
def execTestDarken (p : Post) (sub unit : BitVec 8) (s : State) : Out :=
  .next (serve p (.testDarken p sub unit)
    { house := true, gate := anyGate
      body := fun _ _ _ s =>
        match unitNumber s sub.toNat unit.toNat with
        | none => .refuse .badArg
        | some u => done (modUnit s u fun r => { r with stopping := true }) } s)

/-- TEST_RETURN (R376, R377): of a dark unit that is not fused off. -/
def execTestReturn (p : Post) (sub unit : BitVec 8) (s : State) : Out :=
  .next (serve p (.testReturn p sub unit)
    { house := true, gate := anyGate
      body := fun _ _ _ s =>
        match unitNumber s sub.toNat unit.toNat with
        | none => .refuse .badArg
        | some u =>
          let r := unitOf s u
          need (r.dark && ! r.fused && ! underTest r) .state <|
          .defer (modUnit s u fun r => { r with testing := some true }) (.testReturn u) [] } s)

/-! ### Rehearsal -/

/-- A gauge of unit u (Table 14.4). -/
def unitGauge (s : State) (u off : Nat) : State := houseGauge s (0x2800 + 32 * u + off) 1

/-- The record of a failure (R372). -/
def failureTold (u : Nat) (s : State) : State :=
  let n := unitName u
  record { sub := .rehearsal, status := .integrity, address := n.1 * 256 + n.2 } s

/-- The record and the gauge of the failure of a dark unit (R377). -/
def failureRecord (u : Nat) (s : State) : State := failureTold u (unitGauge s u 0x18)

/-- Complete the TEST_RUN or TEST_RETURN of a unit with a result: 1 pass, 0 fail. -/
def endTest (u : Nat) (pass : Bool) (s : State) : State :=
  let ended := s.deferred.filter fun d => d.awaits == .testRun u || d.awaits == .testReturn u
  run (ended.map fun d => .complete d.issuer d.slot .done [res 0 1 (bitOf pass)])
    (modUnit s u fun r => { r with testing := none })

/-- A unit in service fails (R372): no new work item from now; the next tick darkens it and writes the record (Table 14.2);
a TEST_RUN ends with fail. -/
def failUnit (u : Nat) (s : State) : State :=
  let s := unitGauge (modUnit s u fun r => { r with suspect := none, failed := true, stopping := true }) u 0x18
  if (unitOf s u).testing == some false then endTest u false s else s

/-- Whether a unit has troupe work queued or in flight, as far as an event of this model leaves any (R370): a chunk read
and not yet added, a pass that runs on the pits, a band that is being cut. -/
def unitBusy (s : State) (u : Nat) : Bool :=
  let chunkOf (pit : Nat) : Bool := s.troupes.any fun e =>
    e.2.taken.any fun k => k.read && chunkOnPit s pit (k.tensor * 2 ^ 32 + k.chunk)
  let passing (p : Pass) : Bool := s.troupes.any fun e => e.2.work.any fun w => w.2.pass == p
  if u < 8 then ! unitDark s u && (chunkOf u || passing .running)
  else if u = 8 then (List.range s.house.pits).any fun p => unitDark s p && (chunkOf p || passing .running)
  else if 18 ≤ u && u < 22 then passing .band || passing .reread
  else false

/-- Whether rehearsal may run a slice on a unit (R370, R371, R373): it is on with slack left in the scene, or TEST_RUN
asks for it. -/
def mayRehearse (s : State) (u : Nat) : Bool :=
  let r := unitOf s u
  let cap := s.house.period * Config.ckPerUs * s.house.slack / 100
  unitExists s.house.pits u && ! r.dark && ! r.stopping && ! r.resetting && ! unitBusy s u &&
    (r.testing == some false || (s.house.rehearsal && decide (r.spent + 256 ≤ cap)))

/-- What a slice on a unit found (R369, R370, R372). -/
def sliceFound (u vector : Nat) : SliceResult → State → State
  | .right, s =>
    let retried := (unitOf s u).suspect.isSome
    let s := unitGauge (modUnit s u fun r => { r with suspect := none }) u 0
    if retried then unitGauge s u 0x10 else s
  | .wrong, s =>
    let s := unitGauge s u 0
    if (unitOf s u).suspect == some vector then failUnit u s
    else modUnit s u fun r => { r with suspect := some vector }
  | .abandoned, s => unitGauge s u 0x08
  | .brokenVector, s =>
    record { sub := .rehearsal, status := .integrity, address := 2 ^ 63 + place 0 kindVector vector }
      (modUnit s u fun r => { r with skippedVectors := vector :: r.skippedVectors })

/-- REHEARSAL_SLICE (R370–R372): 256 ck of a unit in service; a vector whose first result was wrong comes first. -/
def execRehearsalSlice (dt unit vector : Nat) (found : SliceResult) (s0 : State) : Out :=
  let s := passCk dt s0
  let r := unitOf s unit
  .next (if ! mayRehearse s unit || r.skippedVectors.contains vector || r.suspect.any (· != vector) then s
    else sliceFound unit vector found (modUnit s unit fun r => { r with spent := r.spent + 256 }))

/-- The end of a full rehearsal of a unit (R373, R377, R386). A pass of a return clears the unit at the next tick. -/
def rehearsalEnd (u : Nat) (pass : Bool) (s : State) : State :=
  let r := unitOf s u
  if r.resetting then
    if pass then modUnit s u fun r => { r with resetting := false, clearing := true, stopping := false }
    else failureRecord u (modUnit s u fun r => { r with resetting := false })
  else match r.testing with
    | some true =>
      if pass then modUnit s u fun r => { r with clearing := true }
      else endTest u false (failureRecord u s)
    | some false =>
      if pass then endTest u true s
      else if r.dark then endTest u false (failureRecord u s)
      else failUnit u s
    | none => s

/-- REHEARSAL_COMPLETE (R373, R377). -/
def execRehearsalComplete (dt unit : Nat) (pass : Bool) (s0 : State) : Out :=
  .next (rehearsalEnd unit pass (passCk dt s0))

end Sys2Proof.Machine
end

