-- ==== Sys2Proof/Machine/Bringup.lean ====
section
/-! DEFINITION. Reset, bring-up, adrift and stalled (R37, R246, R333, R336, R365, R384, R385, Tables 12.7a and 14.9). -/

namespace Sys2Proof.Machine

open Sys2Proof

/-! ### Reset (R333, R336) -/

/-- What a house reset leaves of a unit: a unit that is fused off stays dark until chip reset (R376). -/
def resetUnit (chip : Bool) (r : UnitRec) : UnitRec :=
  let fused := r.fused && ! chip
  { fused := fused, dark := fused }

/-- What a reset leaves of a port: the PHY lies outside the block and keeps a lit link through a house reset; at a chip
reset the peers see the ports fail (log entry 50). -/
def resetPort (chip : Bool) (p : Port) : Port :=
  { link := if p.link == .lit && ! chip then .lit else .unlit, tx := p.tx }

/-- The house after a reset: every register at its reset value; the chip's position and build are straps. -/
def resetHouse (chip : Bool) (h : House) : House :=
  { pits := h.pits, coord := h.coord, lfsr := laneSeeds (256 * (h.pits + 1)) 0, draws := h.draws
    units := (h.units.map fun e => (e.1, resetUnit chip e.2) : Tab UnitRec) }

/-- A house reset or a chip reset: the block as State.reset has it, but for memory, straps, fuses and links. -/
def resetBlock (chip : Bool) (s : State) : State :=
  { s with
    house := resetHouse chip s.house, log := {}, check := {}, troupes := [(0, {})], slices := [], deferred := []
    ports := (s.ports.map fun e => (e.1, resetPort chip e.2) : Tab Port) }

/-- CHIP_RESET (Table 12.7a): the management controller resets the chip, or the house alone. -/
def execChipReset (dt : Nat) (chip : Bool) (s0 : State) : Out :=
  .next (resetBlock chip (passCk dt s0))

/-! ### Bring-up (R384, R385) -/

/-- RESET_RELEASE (R384): the bring-up rehearsal of every unit that is not fused off; those that fail go dark at the
next tick. -/
def execResetRelease (dt : Nat) (failed : List Nat) (s0 : State) : Out :=
  let s := passCk dt s0
  .next (if s.house.released then s
    else
      let s := modHouse s fun h => { h with released := true, releaseCk := h.ck, rehearsed := true }
      (failed.eraseDups.filter fun u => unitExists s.house.pits u && ! (unitOf s u).fused).foldl (fun s u => failUnit u s) s)

/-- NIMLIA_UP (R384): after the rehearsal. -/
def execNimliaUp (dt : Nat) (s0 : State) : Out :=
  let s := passCk dt s0
  .next (if s.house.released && s.house.rehearsed && ! s.house.fwUp then
      modHouse s fun h => { h with fwUp := true, silentTicks := 0 }
    else s)

/-- The conditions under which Nimlia opens the doors (R246, R385). -/
def doorsReady (s : State) : Bool :=
  (List.range 8).all (fun p => (portOf s p).link != .lit || (portOf s p).verified || (portOf s p).miswired)
    && ! s.house.adrift && (s.house.parent.isNone || s.house.tookCounter) && s.house.rehearsed && s.house.podSet
    && ! (unitDark s 22 && unitDark s 23)

/-- DOORS_OPEN (R246, R385). -/
def execDoorsOpen (dt : Nat) (s0 : State) : Out :=
  let s := passCk dt s0
  .next (if s.house.fwUp && ! s.house.doorsOpen && doorsReady s then
      modHouse s fun h => { h with doorsOpen := true, takeCounter := none }
    else s)

/-- DOORS_TIMEOUT (R385): 400 ms after reset release, once. -/
def execDoorsTimeout (dt : Nat) (s0 : State) : Out :=
  let s := passCk dt s0
  .next (if s.house.fwUp && ! s.house.doorsOpen && ! s.house.doorsRecord
        && decide (s.house.releaseCk + 400000 * Config.ckPerUs ≤ s.house.ck) then
      record { sub := .prompter, status := .timeout } (modHouse s fun h => { h with doorsRecord := true })
    else s)

/-! ### Adrift (R37) and stalled (R365) -/

/-- ADRIFT_ENTER (R37): 16 consecutive ticks beyond ±1 µs, or a neighbour of another period. -/
def execAdriftEnter (dt : Nat) (s0 : State) : Out :=
  let s := passCk dt s0
  .next (if ! s.house.adrift && (decide (16 ≤ s.house.ticksOut) || s.house.periodClash) then
      record { sub := .portComplex, status := .timeout }
        (modHouse s fun h => { h with adrift := true, ticksIn := 0 })
    else s)

/-- ADRIFT_CLEAR (R37): 16 consecutive ticks within ±40 ns. -/
def execAdriftClear (dt : Nat) (s0 : State) : Out :=
  let s := passCk dt s0
  .next (if s.house.adrift && decide (16 ≤ s.house.ticksIn) then
      modHouse s fun h => { h with adrift := false, periodClash := false, alignedCk := some h.ck }
    else s)

/-- PROMPTER_STALL (R365): 64 consecutive ticks without a heartbeat (log entry 51). -/
def execPrompterStall (dt : Nat) (s0 : State) : Out :=
  let s := passCk dt s0
  .next (if s.house.fwUp && ! s.house.stalled && decide (64 ≤ s.house.silentTicks) then
      record { sub := .prompter, status := .timeout } (modHouse s fun h => { h with stalled := true })
    else s)

end Sys2Proof.Machine
end

