-- ==== Sys2Proof/Machine/Opt.lean ====
section
/-! DEFINITION. The OPT_ commands and the ends of an export and an import (R268, R276–R278, R280). -/

namespace Sys2Proof.Machine

open Sys2Proof

/-- Whether an FP32 operand is finite and at least 0. -/
def nonNegative (x : F32) : Bool := f32Finite x && (! f32Neg x || f32Mag x == 0)
/-- Whether an FP32 operand is finite and above 0. -/
def positive (x : F32) : Bool := f32Finite x && ! f32Neg x && f32Mag x != 0
/-- Whether an FP32 operand lies in [0, 1). -/
def belowOne (x : F32) : Bool := nonNegative x && f32Lt x f32One

/-- OPT_SET (R268): the record of a tensor from an effective step, under the rules of R96. -/
def execOptSet (p : Post) (tensor : BitVec 32) (rule nesterov : BitVec 8) (eta lam beta1 beta2 eps d clip : BitVec 32)
    (effective : BitVec 64) (s : State) : Out :=
  .next (serve p (.optSet p tensor rule nesterov eta lam beta1 beta2 eps d clip effective)
    { gate := anyGate
      args := rule.toNat < 6 && nesterov.toNat < 2 && nonNegative eta && nonNegative lam && belowOne beta1
        && belowOne beta2 && positive eps && positive d && nonNegative clip
      body := fun _ _ t s =>
        let tr := troupe s t
        need ((tabGet tr.bill tensor.toNat).isSome) .badArg <|
        need (decide (tr.opened < effective.toNat)) .state <|
        let new : OptRec := { rule := rule.toNat, nesterov := nesterov == 1, etaWord := Pair.of eta, lamWord := Pair.of lam
                              beta1Word := Pair.of beta1, beta2Word := Pair.of beta2, epsWord := Pair.of eps
                              dWord := Pair.of d, clipWord := Pair.of clip }
        done (modTroupe s t fun tr =>
          { tr with opt := tabPut tr.opt tensor.toNat (optRec tr tensor.toNat, some (new, effective.toNat)) }) } s)

/-- OPT_TROUPE (R268, R277): γ and D from an effective step. -/
def execOptTroupe (p : Post) (gamma : BitVec 32) (lag : BitVec 8) (effective : BitVec 64) (s : State) : Out :=
  .next (serve p (.optTroupe p gamma lag effective)
    { gate := anyGate
      body := fun _ _ t s =>
        let tr := troupe s t
        need (decide (tr.opened < effective.toNat) && (lag.toNat == tr.lag || tr.hostSlots.isEmpty)) .state <|
        done (modTroupe s t fun tr => { tr with pendingOpt := some (gamma, lag.toNat, effective.toNat) }) } s)

/-- OPT_HOST (R276). -/
def execOptHost (p : Post) (base slotLen : BitVec 64) (s : State) : Out :=
  .next (serve p (.optHost p base slotLen)
    { gate := quietGate
      body := fun _ _ t s => done (modTroupe s t fun tr => { tr with hostRing := (base, slotLen) }) } s)

/-- OPT_SPIKE (R278): from the next STEP_OPEN. -/
def execOptSpike (p : Post) (detector armed k : BitVec 8) (ratio : BitVec 32) (warmup : BitVec 16) (s : State) : Out :=
  .next (serve p (.optSpike p detector armed k ratio warmup)
    { gate := anyGate
      args := detector.toNat < 2 && armed.toNat < 2 && inRange 1 10 k.toNat && ! f32Nan ratio && f32Lt f32One ratio
      body := fun _ _ t s => done (modTroupe s t fun tr => { tr with
        pendingSpike := tr.pendingSpike ++ [(detector.toNat, armed == 1, k.toNat, ratio, warmup.toNat)] }) } s)

/-! ### Export and import (R280) -/

/-- The tensor ids of a list in HBM. -/
def idList (s : State) (a n : Nat) : List Nat := (List.range n).map fun k => peekWord s (a + 4 * k) 4

/-- Whether this chip owns a block of a tensor of its sealed playbill. -/
def ownedTensor (tr : Troupe) (tensor : Nat) : Bool :=
  (graphOfTensor tr tensor).any fun g => (g.tensor tensor).any fun e => ownsSome tr g e

/-- Whether OPT_EXPORT and OPT_IMPORT take every tensor of a list: registered, owned and of the prompt tier. -/
def exportable (tr : Troupe) (ids : List Nat) : Bool :=
  ids.all fun i => (tabGet tr.bill i).isSome && ownedTensor tr i && ! isDelayed tr i

/-- OPT_EXPORT (R280). -/
def execOptExport (p : Post) (count : BitVec 32) (ids dest : BitVec 64) (s : State) : Out :=
  .next (serve p (.optExport p count ids dest)
    { gate := anyGate, args := 1 ≤ count.toNat
      body := fun _ _ t s =>
        let list := idList s ids.toNat count.toNat
        need (exportable (troupe s t) list) .badArg <| .defer s (.optExport list dest) [] } s)

/-- OPT_IMPORT (R280, R64). -/
def execOptImport (p : Post) (count : BitVec 32) (ids source : BitVec 64) (s : State) : Out :=
  .next (serve p (.optImport p count ids source)
    { gate := quietGate, args := 1 ≤ count.toNat
      body := fun _ _ t s =>
        let list := idList s ids.toNat count.toNat
        need (exportable (troupe s t) list) .badArg <| .defer s (.optImport list source) [] } s)

/-- The form in which a tensor's owned state is exported: element count and owned blocks (log entry 15). -/
def exportForm (tr : Troupe) (tensor : Nat) : Nat × List Nat :=
  (((graphOfTensor tr tensor).bind fun g => (g.tensor tensor).map fun e => (e.2.1, ownedIn tr g e))).getD (0, [])

/-- The bytes that a tensor's exported state takes. -/
def exportLength (tr : Troupe) (tensor : Nat) : Nat :=
  stateLength (optRec tr tensor) (exportForm tr tensor).1 (exportForm tr tensor).2

/-- Write the committed owned state of some tensors, one after the other (R280, Table 10.7, log entry 15). -/
def exportAll (tr : Troupe) : List Nat → Nat → State → State
  | [], _, s => s
  | i :: r, a, s =>
    let form := exportForm tr i
    exportAll tr r (a + exportLength tr i)
      (pokeHbm s a (stateBytes (optRec tr i) form.1 form.2 (tabGetD (committed tr) i {})))

/-- The export that a deferred command of troupe t waits for. -/
def exportOf (t : Nat) (d : Deferred) : Option (Deferred × List Nat × BitVec 64) :=
  match d.awaits with
  | .optExport ids dest => if d.target == t then some (d, ids, dest) else none
  | _ => none

/-- The import that a deferred command of troupe t waits for. -/
def importOf (t : Nat) (d : Deferred) : Option (Deferred × List Nat × BitVec 64) :=
  match d.awaits with
  | .optImport ids source => if d.target == t then some (d, ids, source) else none
  | _ => none

/-- OPT_EXPORT_COMPLETE (R280): the committed version of the oldest export stands in memory. -/
def execOptExportComplete (dt t : Nat) (s0 : State) : Out :=
  let s := passCk dt s0
  .next (match s.deferred.findSome? (exportOf t) with
    | none => s
    | some (d, ids, dest) =>
      let s := useVersion t s
      run [.complete d.issuer d.slot .done []] (exportAll (troupe s t) ids dest.toNat s))

/-- The addresses of a list of exported tensors. -/
def importPlaces (tr : Troupe) : List Nat → Nat → List (Nat × Nat)
  | [], _ => []
  | i :: r, a => (i, a) :: importPlaces tr r (a + exportLength tr i)

/-- The working state of a tensor with the owned blocks that an export holds. -/
def imported (s : State) (tr : Troupe) (e : Nat × Nat) : TState :=
  let form := exportForm tr e.1
  readState (optRec tr e.1) form.1 form.2 (tabGetD (committed tr) e.1 {}) (memRead s.hbm e.2 (exportLength tr e.1))

/-- OPT_IMPORT_COMPLETE (R280, R390): the committed version is written. After a broken version word steps may open again
once the state of every owned tensor is restored. -/
def execOptImportComplete (dt t : Nat) (s0 : State) : Out :=
  let s := passCk dt s0
  .next (match s.deferred.findSome? (importOf t) with
    | none => s
    | some (d, ids, source) =>
      let new := (importPlaces (troupe s t) ids source.toNat).map fun e => (e.1, imported s (troupe s t) e)
      let s := modTroupe s t fun tr =>
        let tr := setCommitted tr (new.foldl (fun a e => tabPut a e.1 e.2) (committed tr))
        let left := tr.toImport.filter fun i => ! ids.contains i
        { tr with toImport := left, needImport := tr.needImport && ! left.isEmpty
                  tierChanged := tr.tierChanged.filter fun i => ! ids.contains i }
      run [.complete d.issuer d.slot .done []] s)

end Sys2Proof.Machine
end

