-- ==== Sys2Proof/Machine/Update.lean ====
section
/-! DEFINITION. The update sequencer: commands to the vector engine, deltas, and the delayed tier's host ring
(R267–R277). -/

namespace Sys2Proof.Machine

open Sys2Proof

/-! ### Which span is next (R70, R272, R273) -/

/-- A block run that one update command covers: tensor entry, bucket, blocks in the tensor. -/
structure Span32 where
  bucket : Nat
  te     : Nat × Nat × Nat × Bool
  blocks : List Nat
  deriving DecidableEq, Repr

/-- Blocks of a tensor that no command has written or holds. -/
def openBlocks (s : State) (t : Nat) (g : Graph) (e : Nat × Nat × Nat × Bool) : List Nat :=
  let tr := troupe s t
  (ownedIn tr g e).filter fun k => ! tr.written.contains (e.1, k) && ! s.house.updates.any fun u =>
    u.troupe == t && u.step == tr.opened && u.tensor == e.1 && u.blocks.contains k

/-- The blocks of the first command of some open blocks: those of one pit, at most 65,536 elements (R272). -/
def commandBlocks (pits : Nat) (e : Nat × Nat × Nat × Bool) : List Nat → List Nat
  | [] => []
  | k :: r =>
    let pit (b : Nat) := homePit pits e.1 (b / chunkBlocks e.2.2.2)
    (k :: r.takeWhile fun b => pit b == pit k).take 2048

/-- Whether a tensor is ready: its reduced shard and its norm are held, and its trust round is over (R273). -/
def updateReady (tr : Troupe) (b : Nat) (e : Nat × Nat × Nat × Bool) : Bool :=
  let g := graphAt tr b
  ownReduced tr g (workOf tr b) && factorsHeld tr g (workOf tr b) e

/-- The broken words among the parameters that an update of a tensor uses. -/
def brokenParams (tr : Troupe) (tensor : Nat) : List (Nat × Nat) :=
  (if (optRec tr tensor).isWhole then [] else [(kindOpt, tensor)]) ++ if whole tr.gammaWord then [] else [(kindOpt, 2 ^ 20)]

/-- The update sequencer finds the broken words among a tensor's parameters: one record each (R268, R351). -/
def useParams (t tensor : Nat) (s : State) : State :=
  let fresh := (brokenParams (troupe s t) tensor).filter fun w => ! (troupe s t).brokenWords.contains w
  fresh.foldl (fun s w =>
      record { sub := .updateSequencer, status := .integrity, who := some t, address := place t w.1 w.2 } s)
    (modTroupe s t fun tr => { tr with brokenWords := fresh ++ tr.brokenWords })

/-- The first tensor in the order of R70 that is ready and has blocks which no command covers: bucket and entry. -/
def nextUpdate (s : State) (t : Nat) : Option (Nat × Nat × Nat × Nat × Bool) :=
  let tr := troupe s t
  (updateOrder tr).find? fun e => updateReady tr e.1 e.2 && ! (openBlocks s t (graphAt tr e.1) e.2).isEmpty

/-- UPDATE_ISSUE (R272, R273): at most 32 commands in flight on the chip's one sequencer. -/
def execUpdateIssue (dt t : Nat) (s0 : State) : Out :=
  let s := passCk dt s0
  let tr := troupe s t
  .next (match lastStep tr, nextUpdate s t with
    | some r, some (b, e) =>
      if r.state.val != .called || decide (32 ≤ s.house.updates.length) then s
      else
        let blocks := commandBlocks s.house.pits e (openBlocks s t (graphAt tr b) e)
        let s := useEntry .updateSequencer t e.1 (useParams t e.1 (useVersion t s))
        modTroupe (modHouse s fun h => { h with updates := h.updates ++ [⟨t, e.1, blocks, r.num⟩] }) t fun tr =>
          modLast tr fun r => r.phase 4 fun p => p.start s
    | _, _ => s)

/-! ### The update and its deltas (R270, R274) -/

/-- The held copy of a block, widened to FP32 (R274). -/
def heldBlock (s : State) (e : Entry) (fclass : Bool) (tb : Nat) : List F32 :=
  (List.range 32).map fun i =>
    let j := 32 * tb + i
    if e.count ≤ j then 0
    else if fclass then BitVec.ofNat 32 (peekWord s (e.held.toNat + 4 * j) 4)
    else bf16Widen (BitVec.ofNat 16 (peekWord s (e.held.toNat + 2 * j) 2))

/-- Padding elements of a tensor's last block stay +0.0 (R69). -/
def maskPad (count tb : Nat) (xs : List F32) : List F32 :=
  xs.zipIdx.map fun x => if 32 * tb + x.2 < count then x.1 else 0

/-- Form and keep the deltas of some blocks of a tensor from its pending masters (R274), a use of its playbill entry. -/
def formDeltas (t b : Nat) (te : Nat × Nat × Nat × Bool) (blocks : List Nat) (s : State) : State :=
  let s := useEntry .updateSequencer t te.1 s
  let tr := troupe s t
  match tabGet tr.bill te.1 with
  | none => s
  | some e =>
    let st := tabGetD (pendingArea tr) te.1 {}
    let fclass := (graphAt tr b).fclass
    modWork s t b fun w => { w with deltas := blocks.foldl (fun d k =>
      tabPut d ((tensorBlocks te).1 + k)
        (deltaOf fclass (maskPad e.count k (fill32 (blockOf st k).w)) (heldBlock s e fclass k)).1) w.deltas }

/-- A block of gradients, its padding +0.0. -/
def gradientAt (tr : Troupe) (g : Graph) (w : BWork) (te : Nat × Nat × Nat × Bool) (k : Nat) : List F32 :=
  match tabGet w.reduced ((tensorBlocks te).1 + k) with
  | none => List.replicate 32 0
  | some x => maskPad te.2.1 k (blockGradient tr g w te x)

/-- The update of a command's blocks: the tensor's pending state (R269, R270). -/
def updateTensor (tr : Troupe) (b : Nat) (te : Nat × Nat × Nat × Bool) (blocks : List Nat) : TState :=
  let g := graphAt tr b
  let w := workOf tr b
  let o := optRec tr te.1
  let old := tabGetD (committed tr) te.1 {}
  let up := advance o old
  let k := consts o up.p1 up.p2
  let pend := tabGetD (pendingArea tr) te.1 {}
  { up with blocks := blocks.foldl (fun a n =>
      let new := updateBlock o k (phiOf tr g w te.1) (blockOf old n) (gradientAt tr g w te n)
      tabPut a n { new with w := maskPad te.2.1 n new.w }) pend.blocks }

/-- Elements of a block that lie in its tensor. -/
def blockCount (te : Nat × Nat × Nat × Bool) (k : Nat) : Nat := min 32 (te.2.1 - 32 * k)

/-- The pits' read of a written span for its digest of kind 2: 4 B per element (R285). -/
def spendDigest (pits : Nat) (te : Nat × Nat × Nat × Bool) (blocks : List Nat) (s : State) : State :=
  blocks.foldl (fun s k => spendShare (homePit pits te.1 (k / chunkBlocks te.2.2.2)) (4 * blockCount te k) s) s

/-- UPDATE_COMPLETE (R270–R274, R285): the chip's oldest command ends, which troupe t issued. A non-finite result raises
the curtain (R271). What a command of a step that has ended wrote changes nothing. -/
def execUpdateComplete (dt t : Nat) (s0 : State) : Out :=
  let s := passCk dt s0
  let tr := troupe s t
  .next (match s.house.updates with
    | [] => s
    | u :: rest =>
      if u.troupe != t then s
      else
      let s := modHouse s fun h => { h with updates := rest }
      match graphOfTensor tr u.tensor with
      | none => s
      | some g =>
        match g.tensor u.tensor with
        | none => s
        | some te =>
          if (stepOf tr u.step).all fun r => ! inFlight r then s
          else
            let s := spendDigest s.house.pits te u.blocks s
            let new := updateTensor tr g.bucket te u.blocks
            let bad := u.blocks.any fun k => ! blkFinite (blockOf new k)
            let s := modTroupe s t fun tr =>
              { setPending tr (tabPut (pendingArea tr) u.tensor new) with
                written := tr.written ++ u.blocks.map fun k => (u.tensor, k) }
            let s := formDeltas t g.bucket te u.blocks s
            let s := if (stepOf tr u.step).any (·.mirror == .copy) then
                mirrorMasters t g.bucket u.step te u.blocks s else s
            let s := modTroupe s t fun tr =>
              if promptWritten tr then modLast tr fun r => r.phase 4 fun p => p.stop s else tr
            let s := noteComplete t s
            if bad then
              curtain (some 14) t (record { sub := .updateSequencer, status := .nonfinite, who := some t }
                (gauge s t 0x100 1))
            else s)

/-! ### The delayed tier (R27, R276, R277) -/

/-- Where slot n mod (D + 1) of the host ring lies. -/
def hostSlotAt (tr : Troupe) (n : Nat) : Nat := tr.hostRing.1.toNat + tr.hostRing.2.toNat * (n % (tr.lag + 1))

/-- Whether the done word of a slot is written: whole, and it names the step (R277). -/
def doneWritten (s : State) (tr : Troupe) (n : Nat) : Bool :=
  let w := BitVec.ofNat 64 (leNat (peek true s (hostSlotAt tr n + 24) 8))
  pcWhole w && pcVal w == n % 2 ^ 32

/-- The delayed tensors of which this chip owns a part, in ascending id: bucket and entry. -/
def delayedOwned (tr : Troupe) : List (Nat × Nat × Nat × Nat × Bool) :=
  (tr.bill.filter fun e => e.2.delayed).filterMap fun e =>
    (graphOfTensor tr e.1).bind fun g => (g.tensor e.1).bind fun te =>
      if ownsSome tr g te then some (g.bucket, te) else none

/-- Read the masters of a tensor's owned blocks from host memory, one element after the other. -/
def readMasters (s : State) (te : Nat × Nat × Nat × Bool) : List Nat → Nat → TState → TState × Nat
  | [], a, st => (st, a)
  | k :: r, a, st =>
    let n := blockCount te k
    let xs := (List.range n).map fun i => BitVec.ofNat 32 (leNat (peek true s (a + 4 * i) 4))
    readMasters s te r (a + 4 * n) { st with blocks := tabPut st.blocks k { blockOf st k with w := fill32 xs } }

/-- The masters of the latest due slot go into the pending version (R276), tensor after tensor. They go to the understudy
after their tensor's record, which takes them along if it is still to come (R289). -/
def takeMasters (t step : Nat) : List (Nat × Nat × Nat × Nat × Bool) → Nat → State → State
  | [], _, s => s
  | (b, te) :: r, a, s =>
    let tr := troupe s t
    let blocks := ownedIn tr (graphAt tr b) te
    let got := readMasters s te blocks a (tabGetD (pendingArea tr) te.1 {})
    let s := modTroupe s t fun tr =>
      { setPending tr (tabPut (pendingArea tr) te.1 got.1) with written := tr.written ++ blocks.map fun k => (te.1, k) }
    let s := formDeltas t b te blocks s
    let told := (workOf tr b).mirrored.contains (2 * te.1)
    let s := if told && (stepOf tr step).any (·.mirror != .none) then mirrorMasters t b step te blocks s else s
    takeMasters t step r got.2 s

/-- DELAYED_DONE_READ (R276): the done words of due slots are read; once every due one is, the latest slot's masters
enter the pending version. -/
def execDelayedDoneRead (dt t : Nat) (s0 : State) : Out :=
  let s := passCk dt s0
  let tr := troupe s t
  .next (match lastStep tr with
    | none => s
    | some r =>
      let due := dueSlots tr r.num
      let fresh := due.filter fun h => h.read.isNone && doneWritten s tr h.step
      if r.state.val != .called || fresh.isEmpty then s
      else
        let mark (h : HostSlot) : HostSlot := if fresh.contains h then { h with read := some r.num } else h
        let s := modTroupe s t fun tr => { tr with hostSlots := tr.hostSlots.map mark }
        let due := dueSlots (troupe s t) r.num
        if ! due.all (·.read.isSome) then s
        else
          let last := due.foldl (fun a h => max a h.step) 0
          let at_ := leNat (peek true s (hostSlotAt tr last + 32) 8)
          noteComplete t (takeMasters t r.num (delayedOwned (troupe s t)) at_ (useVersion t s)))

/-- A delayed tensor's record and its owned reduced blocks (Table 10.8). -/
def slotTensor (tr : Troupe) (b : Nat) (te : Nat × Nat × Nat × Bool) : List Byte :=
  let g := graphAt tr b
  let w := workOf tr b
  let blocks := ownedIn tr g te
  let content (k : Nat) : List Byte := match tabGet w.reduced ((tensorBlocks te).1 + k) with
    | some (.q8b e q) => e :: q
    | some (.fp32 x) => x.flatMap fun v => leBytes 4 v.toNat
    | none => []
  leBytes 4 (te.1 % 2 ^ 20) ++ leBytes 4 ((blocks.map (blockCount te)).sum) ++
    leBytes 4 (normFactor tr g w te).2.toNat ++ List.replicate 4 0 ++ blocks.flatMap content

/-- Write slot n: header, tensors, and the ready word last (R276). -/
def writeSlot (t n : Nat) (s : State) : State :=
  let tr := troupe s t
  let own := delayedOwned tr
  if own.isEmpty then s
  else
    let a := hostSlotAt tr n
    let body := own.flatMap fun e => slotTensor tr e.1 e.2
    let s := pokeHost s a (leBytes 8 (n % 2 ^ 48) ++ leBytes 4 own.length ++ leBytes 4 tr.gamma.toNat)
    let s := pokeHost (pokeHost s (a + 40) (List.replicate 24 0)) (a + 64) body
    let s := pokeHost s (a + 16) (leBytes 8 (pcWord n).toNat)
    modTroupe s t fun tr => { tr with hostSlots := tr.hostSlots ++ [{ step := n }] }

/-- Retire the slots applied at the commit tick of step n, then write step n's (R265, R276). -/
def commitSlots (t n : Nat) (s : State) : State :=
  writeSlot t n (modTroupe s t fun tr => { tr with hostSlots := tr.hostSlots.filter fun h => h.read.isNone })

end Sys2Proof.Machine
end

