-- ==== Sys2Proof/Machine/Reset.lean ====
section
/-! DEFINITION. Intermission and the troupe reset (R58, R143, R253, R280, R317, R334, R335). -/

namespace Sys2Proof.Machine

open Sys2Proof

/-- The troupe enters INTERMISSION: bookings suspended, rounds for 16 more ticks, its command done (R58, R253, R337). -/
def enterIntermission (t : Nat) (s : State) : State :=
  let s := modTroupe s t fun tr => { tr with
    life := .intermission, roundsEnd := if tr.rounds then some (s.house.tick + 16) else tr.roundsEnd
    bookings := tr.bookings.map fun e => (e.1, { e.2 with suspended := true, suspendedAt := s.house.tick }) }
  completeDeferred t (· == .intermission) .done [] s

/-! ### The troupe reset (R334, R335) -/

/-- A ring with its head at its tail, both whole. -/
def Ring.emptied (r : Ring) : Ring :=
  { r with head := Pair.of r.tail.val, tail := Pair.of r.tail.val, inFlight := 0 }

/-- A cue entry whole again: a broken one at counter 0 (R335); its waits have ended. -/
def Cue.rewritten (c : Cue) : Cue :=
  if c.isWhole then { c with waits := [] } else { value := 0 }

/-- A step as the reset retires it (R313, R334 step 6): its slot goes, its capture with it. -/
def retiredByReset (capture : Bool) (r : StepRec) : StepRec :=
  { releaseHalf r with
    state := Pair.of .retired, unmirrored := true, uncaptured := r.uncaptured || r.capturing || (capture && r.propHeld) }

/-- Whether a step can be retired at a tick: it is CHECKED, or it became UPDATED before the tick (R33), or the capture of
its slot still runs. -/
def retiresAt (tick : Nat) (r : StepRec) : Bool :=
  match r.state.val with
  | .updated => r.updTick.all fun v => decide (v < tick)
  | .checked => true
  | .retired => r.capturing
  | _ => false

/-- One step enters CHECKED and RETIRED by the reset. -/
def retireStep (t : Nat) (s : State) (n : Nat) : State :=
  let updated := (stepOf (troupe s t) n).any fun r => r.state.val == .updated
  let s := if updated then becomeChecked t n s else s
  ledgerStore t n (modTroupe s t fun tr => modStep tr n (retiredByReset (tr.ledger.any (·.capture))))

/-- The steps that the reset retires now, in order: no step passes over a state, or over an earlier step (R18, R33,
R334 step 6). -/
def retireDue (t : Nat) (s : State) : State :=
  let open_ := (troupe s t).steps.filter fun e => e.2.state.val != .retired || e.2.capturing
  ((open_.takeWhile fun e => retiresAt s.house.tick e.2).map (·.1)).foldl (retireStep t) s

/-- A COMMITTED step whose all-gather the reset cuts off becomes UPDATED with what its holders have (R18, R334). -/
def updateCut (t : Nat) (s : State) : State :=
  (((troupe s t).steps.filter fun e => e.2.state.val == .committed).map (·.1)).foldl (fun s n => becomeUpdated t n s) s

/-- The bank word as the reset leaves it: a broken one restarts the residuals in bank A (R143). -/
def resetBank (tr : Troupe) : Troupe :=
  if whole tr.bank then tr
  else
    let tr := { tr with bank := Pair.of false, bankKept := false, bankFound := false, residA := [], residB := []
                        gauges := gaugePlus tr.gauges 0x38 1 }
    modStep tr tr.epoch fun r => { r with restarted := true }

/-- The tensors whose state lies on this chip: owned in part and of the prompt tier. -/
def promptOwned (tr : Troupe) : List Nat :=
  tr.graph.flatMap fun ge => (ge.2.tensors.filter fun e => ownsSome tr ge.2 e && ! isDelayed tr e.1).map (·.1)

/-- The version word as the reset leaves it: after a broken one no step opens until the owned state is restored (R280). -/
def resetVersion (tr : Troupe) : Troupe :=
  if whole tr.version then tr
  else { tr with version := Pair.of tr.versionKept, versionFound := false
                 toImport := promptOwned tr, needImport := ! (promptOwned tr).isEmpty }

/-- The words, queues and work of a troupe after a reset (R334 steps 2, 3 and 4, R335); what it holds of its partner is
kept (Table 11.11, log entry 100). A cut in progress ends with nothing written (Table 4.9). -/
def clearTroupe (tr : Troupe) : Troupe :=
  let tr := resetVersion (resetBank tr)
  { tr with
    rounds := false, roundsEnd := none, queue := [], taken := [], slots := []
    chunks := tr.chunks.map fun e => (e.1, { e.2 with slot := none })
    rings := tr.rings.map fun e => (e.1, e.2.emptied)
    resetCues := (tr.cues.filter fun e => ! e.2.isWhole).map (·.1)
    cues := tr.cues.map fun e => (e.1, e.2.rewritten)
    sieveCalls := [], spills := []
    work := (tr.work.map fun e => (e.1, e.2.dropPass) : Tab BWork)
    mirror := { tr.mirror with incoming := [] }
    steps := (tr.steps.map fun e => (e.1, { e.2 with state := Pair.of e.2.state.val }) : Tab StepRec)
    sealing := false, promotion := none, held := false, resetRan := true }

/-- Cores that stalled on a queue which is no longer full go on, in their order (R75). -/
def refillQueue (t : Nat) (s : State) : State :=
  let next := (s.house.stalledEmits.filter fun e => e.2.1 == t).take (512 - (troupe s t).queue.length)
  modHouse (modTroupe s t fun tr => { tr with queue := tr.queue ++ next.map fun e => e.2.2 }) fun h =>
    { h with stalledEmits := h.stalledEmits.filter fun e => ! next.contains e }

/-- Run a troupe reset: its curtain, its words, its lines, its deferred commands. -/
def runReset (t : Nat) (s : State) : State :=
  let s := updateCut t (curtain none t s)
  let s := (troupe s t).graph.foldl (fun s e => freeWindow t e.1 s) s
  let restart := ! whole (troupe s t).bank
  let s := retireDue t (refillQueue t (dropLines t (modTroupe s t clearTroupe)))
  let s := if restart then ledgerStore t (troupe s t).epoch s else s
  completeDeferred t (fun a => a.fenceEnds) .fenced [] s

/-- The results of a troupe reset: the cues rewritten at counter 0 (R335, log entry 37). -/
def resetResults (tr : Troupe) : List (Nat × List Byte) :=
  res 0 2 tr.resetCues.length :: ((tr.resetCues.take 31).zipIdx.map fun e => res (2 + 2 * e.2) 2 e.1)

/-- The house without a troupe: its tag in the core bindings falls back to troupe 0, its cores stall no longer, and its
update commands end without an effect (step 0 is no step). -/
def House.without (t : Nat) (h : House) : House :=
  { h with
    cores := h.cores.map fun c => if c.2.2 = t then (c.1, c.2.1, 0) else c
    stalledEmits := h.stalledEmits.filter fun e => e.2.1 != t
    updates := h.updates.map fun u => if u.troupe = t then { u with step := 0 } else u }

/-- Release every object of a troupe (Table 12.2), its slots of the tally window among them. -/
def deleteTroupe (t : Nat) (s : State) : State :=
  let s := (troupe s t).graph.foldl (fun s e => freeWindow t e.1 s) s
  { s with troupes := tabDel s.troupes t, house := s.house.without t }

/-- The reset is complete: the state of Table 12.2 follows, and its command ends. A deletion releases the troupe. -/
def finishReset (t : Nat) (s : State) : State :=
  let tr := troupe s t
  let results := resetResults tr
  let s := modTroupe s t fun tr => { tr with life := .active, resetRan := false, resetCues := [], fence := none }
  let s := if tr.prior == .pending || tr.prior == .intermission then enterIntermission t s else s
  if holdsBy s t (· == .delete) then deleteTroupe t (completeDeferred t (· == .delete) .done [] s)
  else completeDeferred t (· == .reset) .done results s

/-- Whether a reset has to wait for the commit tick of a step: one that is EXCHANGED, and any step in flight of a troupe
that is PENDING and not fenced (R334, Table 12.8). -/
def resetWaits (tr : Troupe) : Bool :=
  (lastStep tr).any fun r => r.state.val == .exchanged || (tr.prior == .pending && tr.fence.isNone && inFlight r)

/-- Run a reset that has not run and need not wait. -/
def resetRun (t : Nat) (s : State) : State :=
  if (troupe s t).resetRan || resetWaits (troupe s t) then s else runReset t s

/-- Whether everything that a reset does is done: it has run, every earlier step is RETIRED, and the step in flight is
decided (R334). -/
def resetDone (tr : Troupe) : Bool :=
  tr.resetRan && (openCalled tr).isNone && tr.steps.all fun e => inFlight e.2 || (e.2.state.val == .retired && ! e.2.capturing)

/-- How far a troupe reset has come: it waits, it runs, it retires steps, and it completes (R334). -/
def resetStep (t : Nat) (s : State) : State :=
  if (troupe s t).life != .resetting then s
  else
    let s := resetRun t s
    let s := if (troupe s t).resetRan then retireDue t s else s
    if resetDone (troupe s t) then finishReset t s else s

/-- TROUPE_RESET and TROUPE_DELETE begin (R317). -/
def beginTroupeReset (t : Nat) (s : State) : State :=
  resetRun t (modTroupe s t fun tr =>
    { tr with life := .resetting, prior := if tr.life == .fenced then tr.prior else tr.life })

end Sys2Proof.Machine
end

