-- ==== Sys2Proof/Machine/Commit.lean ====
section
/-! DEFINITION. How a step is decided and what its commit tick does; call-frame rounds (R19, R27–R31, R52, R134, R142,
R253–R266, R279, R291). -/

namespace Sys2Proof.Machine

open Sys2Proof

/-! ### Completion (R264) -/

/-- A chip's completion bit for a step (R264). -/
def completionOf (s : State) (tr : Troupe) (r : StepRec) : Bool := completionMet tr r && ! s.house.adrift

/-- Whether the completion bit was set before ck `limit` (R254). -/
def completeBefore (s : State) (tr : Troupe) (r : StepRec) (limit : Nat) : Bool :=
  completionOf s tr r && r.completeCk.any (fun c => decide (c < limit)) && s.house.alignedCk.all fun c => decide (c < limit)

/-! ### The commit-tick actions of a COMMITTED step (R265) -/

/-- Flip the version word; a broken one stays, and the engine keeps the flipped value itself (R272, R280). -/
def flipVersion (tr : Troupe) : Troupe :=
  let v := ! versionNow tr
  { tr with version := if whole tr.version then Pair.of v else tr.version, versionKept := v }

/-- Flip the bank word (R26, R142, R143). -/
def flipBank (n : Nat) (tr : Troupe) : Troupe :=
  let v := ! bankNow tr
  { tr with bank := if whole tr.bank then Pair.of v else tr.bank, bankKept := v, epoch := n }

/-- One bucket's reduced histogram becomes current. -/
def currentHistogram (tr : Troupe) (h : Tab (List Nat)) (e : Nat × Graph) : Tab (List Nat) :=
  let v := (workOf tr e.1).histVec
  if e.2.fclass || ! v.whole bins then h else tabPut h e.1 ((v.values bins).map (·.toNat))
/-- The step's reduced histograms become current (R95). -/
def currentHistograms (tr : Troupe) : Troupe :=
  { tr with histograms := tr.graph.foldl (currentHistogram tr) tr.histograms }

/-- The tensor exponent e_t of a step (R130). -/
def tensorExponent (tr : Troupe) (g : Graph) (w : BWork) (e : Nat × Nat × Nat × Bool) : Nat :=
  match (historyTensors tr g).findIdx? (· == e.1) with
  | some i => (tabGetD w.byteVec.result i 0).toNat
  | none => (List.range (tensorBlocks e).2).foldl (fun a k => max a (scaleByte w ((tensorBlocks e).1 + k))) 0

/-- The scale state of one tensor after a COMMITTED step (Table 5.5). -/
def commitScale (tr : Troupe) (g : Graph) (e : Nat × Nat × Nat × Bool) : Troupe :=
  let et := tensorExponent tr g (workOf tr g.bucket) e
  let sc := scaleOf tr e.1
  let falls := usesHistory tr e.1 && ! (tabGet tr.bill e.1).any (·.history)
  if ! falls then modScale tr e.1 fun sc => enterHistory sc et
  else
    let clean := if et ≤ historyScale tr g e.1 then sc.clean + 1 else 0
    let back := decide (0 < sc.record.returns) && decide (sc.record.returns ≤ clean)
    let tr := modScale tr e.1 fun sc => { enterHistory sc et with clean := if back then 0 else clean }
    if back then setFallback tr e.1 false else tr

/-- Every scale state after a COMMITTED step: each tensor is judged against the states before the step. -/
def commitScales (tr : Troupe) : Troupe :=
  tr.graph.foldl (fun acc ge =>
    if ge.2.fclass then acc
    else ge.2.tensors.foldl (fun acc e =>
      let new := commitScale tr ge.2 e
      { acc with scale := tabPut acc.scale e.1 (scaleOf new e.1)
                 bill := tabMod acc.bill e.1 fun k => { k with fallback := (tabGet new.bill e.1).any (·.fallback) } }) acc) tr

/-- A detector after a COMMITTED step: its pending version becomes the committed one (R278, R279). -/
def Spike.commit (d : Spike) : Spike :=
  match d.sample with
  | none => d
  | some _ => { d with e := d.pendE, count := d.pendCount, sample := none }

/-- The reduced owned blocks of a step, by tensor and block in the tensor. -/
def ownShard (tr : Troupe) : Tab (Tab ShardBlock) :=
  tr.graph.foldl (fun a ge => ge.2.tensors.foldl (fun a e =>
    match ownedBlocks tr ge.2 (workOf tr ge.1) e with
    | [] => a
    | bs => tabPut a e.1 (bs.map fun b => (b.1 - (tensorBlocks e).1, b.2))) a) []

/-- The digest of a kind of a tensor. -/
def digestOf (ds : List (Nat × Nat × BitVec 64)) (kind tensor : Nat) : BitVec 64 :=
  ((ds.find? fun d => d.1 == kind && d.2.1 == tensor).map (·.2.2)).getD 0

/-- The blocks of a bucket that this chip owns. -/
def ownedRangeOf (tr : Troupe) (g : Graph) : List Nat :=
  (List.range ((g.mine tr).2 - (g.mine tr).1)).map fun k => (g.mine tr).1 + k

/-- The agreed scale bytes of a step's owned G-class blocks, in ascending bucket and block (Table 11.4). -/
def ownBytes (tr : Troupe) : List (Nat × Nat × Nat) :=
  tr.graph.flatMap fun ge =>
    if ge.2.fclass then []
    else (ownedRangeOf tr ge.2).map fun b => (ge.1, b, scaleByte (workOf tr ge.1) b)

/-- The tensor records of the owned tensors, with their digests (R290). -/
def ownRecords (tr : Troupe) (ds : List (Nat × Nat × BitVec 64)) : List TensorRec :=
  tr.graph.flatMap fun ge => (ge.2.tensors.filter fun e => ownsSome tr ge.2 e).map fun e =>
    { tensorRecord tr ge.2 (workOf tr ge.1) e with
      dig1 := digestOf ds 1 e.1, dig2 := digestOf ds (if isDelayed tr e.1 then 3 else 2) e.1 }

/-- An owned block without a delta of its own moves by nothing (log entry 38). -/
def zeroDelta (fclass : Bool) : QBlk × List F32 :=
  (⟨0, List.replicate 32 0, List.replicate 32 true⟩, if fclass then List.replicate 32 0 else [])

/-- The work of the all-gather: the step's work with a delta for each owned block. -/
def gatherWork (tr : Troupe) : Tab BWork :=
  tr.graph.map fun ge =>
    let w := workOf tr ge.1
    let g := ge.2
    (ge.1, { w with applied := [], deltas := (ownedRangeOf tr g).foldl (fun d b =>
      if (tabGet d b).isSome then d else tabPut d b (zeroDelta g.fclass)) w.deltas })

/-- The owner applies its own deltas (R275). -/
def applyOwn (t : Nat) (s : State) : State :=
  (troupe s t).gather.foldl (fun s e =>
    e.2.deltas.foldl (fun s d => applyDelta t e.1 d.1 d.2.1 d.2.2 s) s) s

/-- The spans of the state trickle: owned prompt-tier tensors in runs of 65,536 elements (R293). -/
def stateSpans (tr : Troupe) : List (Nat × Nat) :=
  tr.graph.flatMap fun ge => (ge.2.tensors.filter fun e => ownsSome tr ge.2 e && ! isDelayed tr e.1).flatMap fun e =>
    (List.range (cdiv e.2.1 spanSize)).map fun k => (e.1, k)

/-- The commit tick of a COMMITTED step (R265). -/
def commitStep (t n : Nat) (s : State) : State :=
  let s := useBank t (useVersion t s)
  let delayed := ! (dueSlots (troupe s t) n).isEmpty
  let s := modTroupe s t fun tr => modStep tr n fun r =>
    ({ r with state := Pair.of .committed, outcome := some true }).phase 6 fun p => p.start s
  let s := modTroupe s t fun tr => commitScales (currentHistograms (flipBank n (flipVersion tr)))
  let s := modTroupe s t fun tr => { tr with spikeLoss := tr.spikeLoss.commit, spikeNorm := tr.spikeNorm.commit }
  let s := commitSlots t n s
  let s := modTroupe s t fun tr =>
    let shard := ownShard tr
    let ds := shardDigests tr n shard ++ masterDigests tr n (committed tr) delayed
    modStep tr n fun r =>
      { r with shard := shard, agreed := ownBytes tr, records := ownRecords tr ds, tensorDigests := ds }
  let s := match stepOf (troupe s t) n with
    | some r => mirrorCommit t r true s
    | none => s
  let s := (troupe s t).graph.foldl (fun s e => freeWindow t e.1 s) s
  let s := modTroupe s t fun tr => { tr with
    gather := gatherWork tr, fallbacks := [], packed := tr.packed.filter fun k => decide (k.kind < 12), written := []
    mirror := { tr.mirror with stateAt := 0, stateLeft := (stateSpans tr).length } }
  settleGather t (applyOwn t (gauge s t 0x08 1))

/-! ### The commit tick of a SKIPPED step (R53, R134, R266) -/

/-- The frames of a list with new sequence numbers from a first one, for one line and peer. -/
def renumber (l i : Nat) : BitVec 32 → List OutFrame → List OutFrame
  | _, [] => []
  | q, f :: r =>
    if f.car.line == l && f.peer == i then { f with car := { f.car with seq := q } } :: renumber l i (q + 1) r
    else f :: renumber l i q r

/-- Whether a frame is on a line towards a peer. -/
def OutFrame.onto (f : OutFrame) (k : Nat × Nat) : Bool := f.car.line == k.1 && f.peer == k.2

/-- Drop the unsent frames that a test names from one line and peer of the cue sheet. -/
def dropFrom (gone : OutFrame → Bool) (tr : Troupe) (k : Nat × Nat) : Troupe :=
  match tr.sheet.find? fun f => f.onto k with
  | none => tr
  | some f0 =>
    let kept := tr.sheet.filter fun f => ! (f.onto k && gone f)
    let n := (kept.filter fun f => f.onto k).length
    let ln := lineOf tr k.1
    let peers := ln.peers.modify k.2 fun p => { p with next := ⟨f0.car.seq + BitVec.ofNat 32 n, p.next.flaw⟩ }
    { tr with sheet := renumber k.1 k.2 f0.car.seq kept, lines := tabPut tr.lines k.1 { ln with peers := peers } }

/-- Drop the unsent frames that a test names from the cue sheet and from the lines' queues. What stays behind them on
their lines takes the sequence numbers that this frees (log entry 39). An operation that loses carriages so sends no more,
and completes with STATE in its turn (R204, Table 8.9). -/
def dropFrames (t : Nat) (gone : OutFrame → Bool) (s : State) : State :=
  modTroupe s t fun tr =>
    let lost := (tr.sheet ++ tr.lines.flatMap fun e => e.2.waiting).filterMap fun f => if gone f then f.opId else none
    let lines : Tab Line := tr.lines.map fun e => (e.1, { e.2 with
      waiting := e.2.waiting.filter fun f => ! gone f
      ops := e.2.ops.map fun o => if lost.contains o.id then { o with ended := some .state } else o })
    let hit := ((tr.sheet.filter gone).map fun f => (f.car.line, f.peer)).eraseDups
    hit.foldl (dropFrom gone) { tr with lines := lines }

/-- Queued carriages of a SKIPPED step are dropped (R53, R266). -/
def dropStep (t n : Nat) (s : State) : State :=
  let s := dropFrames t (fun f => f.step == some n) s
  enterAll t (((troupe s t).lines.map (·.1)).foldl (fun s l => completeOps t l s) s)

/-- This chip's bitmap of a bucket: the tensors in which it found an overflow (R134). -/
def overflowBitmap (g : Graph) (w : BWork) : List Int :=
  (List.range (bitmapBytes g)).map fun k => Int.ofNat (((List.range 8).map fun i =>
    match g.tensors[8 * k + i]? with
    | some e => if w.overflow.contains e.1 then 2 ^ i else 0
    | none => 0).sum)

/-- Start the fallback round of a G-class bucket after a SKIPPED step (R134). -/
def startFallback (t n b : Nat) (s : State) : State :=
  let tr := troupe s t
  let g := graphAt tr b
  if g.fclass || g.tensors.isEmpty then s
  else
    let w := if tr.workStep = n then workOf tr b else {}
    let vec := ({} : Vec).give (g.own tr) (overflowBitmap g w)
    settleFallback t b (modTroupe s t fun tr =>
      { tr with fallbacks := tabPut tr.fallbacks b (tabGetD tr.fallbacks b [] ++ [{ step := n, vec := vec }]) })

/-- The fallback rounds of a bucket that still have work: not complete, or not wholly packed. -/
def openRounds (tr : Troupe) (b : Nat) (fs : List Fallback) : List Fallback :=
  fs.filter fun f => ! f.done || ! (fallItems tr (graphAt tr b) f.step).all (itemPacked tr)

/-- A troupe without the fallback rounds that have no work left, and without their items' marks. -/
def pruneRounds (tr : Troupe) : Troupe :=
  let tr := { tr with fallbacks := (tr.fallbacks.map fun (e : Nat × List Fallback) => (e.1, openRounds tr e.1 e.2) : Tab (List Fallback)) }
  { tr with packed := tr.packed.filter fun k => (k.kind != 12 && k.kind != 13) || (roundOf tr k).isSome }

/-- The slots of a step of one micro-step that no quantisation read has freed: those of read chunks, then those of emits
taken and not read; each signals its cue (R84). -/
def releaseHeld (t n : Nat) (s : State) : State :=
  let s := releaseChunks t ((troupe s t).chunks.map (·.1)) s
  let late := (troupe s t).taken.filter fun k => k.step == n && ! k.read && (stepOf (troupe s t) n).any (·.m == 1)
  late.foldl (fun s k => releaseSlot t k.slot k.cue s)
    (modTroupe s t fun tr => { tr with taken := tr.taken.filter fun k => ! late.contains k })

/-- The commit tick of a SKIPPED step (R266): it is UPDATED at once. -/
def skipStep (t n : Nat) (s : State) : State :=
  let s := modTroupe s t fun tr => modStep tr n fun r =>
    { r with state := Pair.of .skipped, outcome := some false, shard := [], agreed := [], records := [] }
  let s := gauge s t 0x10 1
  let s := dropStep t n s
  let s := releaseHeld t n s
  let s := (troupe s t).graph.foldl (fun s e => freeWindow t e.1 s) s
  let s := match stepOf (troupe s t) n with
    | some r => mirrorCommit t r false s
    | none => s
  let s := modTroupe s t fun tr => { pruneRounds tr with
    written := []
    hostSlots := tr.hostSlots.map fun h => { h with read := none }
    spikeLoss := tr.spikeLoss.drop, spikeNorm := tr.spikeNorm.drop }
  let s := ((troupe s t).graph.map (·.1)).foldl (fun s b => startFallback t n b s) s
  becomeUpdated t n s

/-- Take the commit-tick actions of a decided step; an intermission or a reset that waited for them follows. -/
def applyOutcome (t n : Nat) (s : State) : State :=
  match stepOf (troupe s t) n with
  | none => s
  | some r =>
    let s := if r.outcome == some true then commitStep t n s else skipStep t n s
    resetStep t (if (troupe s t).life == .pending then enterIntermission t s else s)

/-! ### Deciding (R19, R259, R260) -/

/-- A step that this chip has not opened is decided by its peers: it takes its number here too (R23, log entry 40). -/
def ensureStep (t n : Nat) (s : State) : State :=
  if n ≤ (troupe s t).opened then s
  else
    let r := { newStep s t n 1 0 with propHeld := false, digests := [0, 0, 0, 0, 0] }
    modTroupe s t fun tr => { tr with opened := n, steps := tabPut (keptSteps tr n) n r }

/-- A step that is decided while it is still OPEN is CALLED first, at the tick of the decision, though no scale call of
it was issued here: Table 1.1 enters EXCHANGED from CALLED alone, and R18 lets no step pass over a state. The spec gives
a decided OPEN step no row: this is the model's choice (log entry 96). -/
def callFirst (t n : Nat) (s : State) : State :=
  if ! (stepOf (troupe s t) n).any (fun r => r.state.val == .opened) then s
  else
    let live := livePits s
    ledgerStore t n (modTroupe s t fun tr => modStep tr n fun r =>
      { r with state := { r.state with val := .called }, calledTick := some s.house.tick, livePits := live })

/-- A step enters EXCHANGED with its outcome and its commit tick (R19). A result that reaches a step still OPEN takes it
through CALLED at the tick of the decision, with its commit tick at the tick after the launch as for any other: the
model's choice (log entry 96). -/
def decideStep (t n : Nat) (outcome : Bool) (commitTick : Nat) (start : Option (Nat × Nat)) (s : State) : State :=
  let s := callFirst t n (ensureStep t n s)
  let s := modTroupe s t fun tr =>
    let tr := modStep tr n fun r =>
      let r := { r with
        state := Pair.of .exchanged, outcome := some outcome, decideTick := s.house.tick, commitTick := commitTick }
      match start with
      | none => r
      | some (tick, ck) => r.phase 5 fun _ =>
          ({ tick := tick, off := 0, startCk := some ck } : Phase).stop s
    { tr with decided := n, lastCommitted := outcome, lastCommitTick := commitTick % 2 ^ 32 }
  resetStep t s

/-! ### Rounds (R253–R259) -/

/-- The slice of a troupe, if it is bound to one. -/
def sliceFor (s : State) (tr : Troupe) : Option Slice := tr.slice.map (sliceOf s)
/-- The round ports of a troupe. -/
def troupePorts (s : State) (tr : Troupe) : List Nat := ((sliceFor s tr).map (roundPorts s)).getD []

/-- The body of a round's latest CALL frame (Table 10.1): a repeat carries what the round was launched with (R257). -/
def callFields (t : Nat) (r : Round) : List (Nat × Nat × Nat) :=
  [(3, 6, r.step), (9, 2, r.launch % 512 + bitOf r.lastOutcome * 2 ^ 9 + t % 64 * 2 ^ 10),
    (11, 1, bitOf r.curtain + bitOf r.completion * 2), (12, 2, r.epoch.toNat), (14, 1, r.hop),
    (15, 4, r.lastTick)]

/-- Send a round's latest frame on a port; a failed port takes none (R244). -/
def sendCall (t port : Nat) (s : State) : State :=
  match (troupe s t).round with
  | none => s
  | some r =>
    let s := if (portOf s port).failed then s else sendLink port 0x84 0 (callFields t r) s
    modTroupe s t fun tr => { tr with round := tr.round.map fun r => { r with sent := tabPut r.sent port s.house.ck } }

/-- Send a round's latest frame on every round port. -/
def sendCalls (t : Nat) (s : State) : State :=
  match (troupe s t).round with
  | none => s
  | some r => r.ports.foldl (fun s p => sendCall t p s) s

/-- A round has its result (R256, R259). -/
def takeResult (t : Nat) (c m : Bool) (s : State) : State :=
  match (troupe s t).round with
  | none => s
  | some r =>
    let s := modTroupe s t fun tr => { tr with
      round := some { r with result := some (c, m) }, abandoned := 0, abandonTold := false }
    if (c || m) && r.step == roundStep (troupe s t) then
      decideStep t r.step (! c) (r.launch + 1) (some (r.launch, r.startCk)) s
    else s

/-- What a chip has heard for a hop: curtain and completion of each port. -/
def heard (r : Round) (port : Nat) : Option (Bool × Bool) :=
  (r.got.find? fun g => g.1 == port && g.2.1 == r.hop).map fun g => g.2.2

/-- A round goes on as far as the frames held allow (R256); `fuel` bounds the hops. -/
def advanceRound (t : Nat) : Nat → State → State
  | 0, s => s
  | fuel + 1, s =>
    match (troupe s t).round with
    | none => s
    | some r =>
      if r.result.isSome || r.failed || ! r.ports.all (fun p => (heard r p).isSome) then s
      else
        let c := r.curtain || r.ports.any fun p => (heard r p).any (·.1)
        let m := r.completion && r.ports.all fun p => (heard r p).any (·.2)
        if r.hop + 1 < r.len then
          advanceRound t fuel (sendCalls t (modTroupe s t fun tr =>
            { tr with round := some { r with hop := r.hop + 1, curtain := c, completion := m, sent := [] } }))
        else takeResult t c m s

/-- The curtain and completion bits of a round launched at a tick (R254): what was raised and met before the tick; of a
round of a later tick, launched early on its frame, before now. A resetting troupe joins with curtain 1 (R334). -/
def roundBits (s : State) (tr : Troupe) (launch : Nat) : Bool × Bool :=
  let limit := if s.house.tick < launch then s.house.ck else s.house.sceneStart
  match stepOf tr (roundStep tr) with
  | none => (false, false)
  | some r =>
    (r.curtain && (tr.life == .resetting || r.curtainCk.any fun c => decide (c < limit)), completeBefore s tr r limit)

/-- Launch the round of a tick (R253, R256). -/
def launchRound (t launch : Nat) (s : State) : State :=
  let tr := troupe s t
  let bits := roundBits s tr launch
  let sl := sliceFor s tr
  let ports := troupePorts s tr
  let r : Round :=
    { launch := launch, step := roundStep tr, curtain := bits.1, completion := bits.2, hop := 0
      len := (sl.map (roundLength s)).getD 0, epoch := (sl.map (·.epoch)).getD 0, ports := ports, startCk := s.house.ck
      lastOutcome := tr.lastCommitted, lastTick := tr.lastCommitTick }
  let s := modTroupe s t fun tr => { tr with round := some r }
  if ports.isEmpty || r.len = 0 then takeResult t r.curtain r.completion s else sendCalls t s

/-- A round that is not decided by the next tick is abandoned (R258). -/
def endRound (tr : Troupe) : Troupe :=
  match tr.round with
  | none => tr
  | some r => { tr with round := none, abandoned := if r.result.isNone then tr.abandoned + 1 else tr.abandoned }

/-- Whether a chip launches rounds of its own for a troupe: from its first step on, while it is fenced only until its
step in flight is decided (R253, R332). A resetting chip without round ports decides alone (log entry 41). -/
def launches (s : State) (tr : Troupe) : Bool :=
  (tr.rounds && (tr.life != .fenced || (openCalled tr).isSome)) ||
    (tr.life == .resetting && (flight tr).isSome && (troupePorts s tr).isEmpty)

/-- The part of a tick that rounds take (R253, R258): the last one ends, and a new one is launched, unless the frame of
another chip has already launched it. -/
def tickRound (t : Nat) (s : State) : State :=
  let s := modTroupe s t fun tr =>
    let tr := if tr.round.any (fun r => decide (s.house.tick ≤ r.launch)) then tr else endRound tr
    if tr.roundsEnd.any (· ≤ s.house.tick) then { tr with rounds := false, roundsEnd := none } else tr
  let tr := troupe s t
  if launches s tr && tr.round.isNone then launchRound t s.house.tick s else s

/-! ### CALL frames that arrive (R257, R260) -/

/-- The latest tick, at or before now, whose bits [31:0] are given (R260). -/
def tickOf (now low : Nat) : Nat := now - (now + 2 ^ 32 - low % 2 ^ 32) % 2 ^ 32

/-- Adopt the outcome of the round step from a frame for the next one (R260). -/
def adopt (t : Nat) (outcome : Bool) (low : Nat) (s : State) : State :=
  let n := roundStep (troupe s t)
  let s := decideStep t n outcome (tickOf s.house.tick low) none s
  let s := gauge (modTroupe s t fun tr => modStep tr n fun r => { r with adopted := true }) t 0x30 1
  applyOutcome t n s

/-- Whether a table epoch is the active or the draining one of a slice (R257). -/
def epochKnown (sl : Slice) (e : BitVec 16) : Bool := e == sl.epoch || (sl.draining.isSome && e == sl.epoch - 1)

/-- A hop frame of the running round (R256, R257). -/
def takeHop (t port hop : Nat) (c m : Bool) (s : State) : State :=
  match (troupe s t).round with
  | none => s
  | some r =>
    if r.failed || ! r.ports.contains port then s
    else if r.got.any fun g => g.1 == port && g.2.1 == hop then sendCall t port s
    else if r.result.isSome then s
    else
      advanceRound t 64 (modTroupe s t fun tr =>
        { tr with round := some { r with got := (port, hop, c, m) :: r.got } })

/-- The launch tick that a frame's round count names, at or after the round in progress: less than half the count's range
ahead, or the frame is of an earlier round (R257, log entry 77). -/
def frameLaunch (tick : Nat) (tr : Troupe) (count : Nat) : Option Nat :=
  let now := max tick ((tr.round.map (·.launch)).getD tick)
  let d := (count + 512 - now % 512) % 512
  if d < 256 then some (now + d) else none

/-- The round of a frame is in progress: it is launched at once if it has not been, and the one before it ends (R253,
R258). -/
def joinRound (t launch : Nat) (s : State) : State :=
  if (troupe s t).round.any fun r => r.launch == launch then s else launchRound t launch (modTroupe s t endRound)

/-- Judge a CALL frame (R257). -/
def hearCall (port : Nat) (f : List Byte) (s : State) : State :=
  let word := bodyField f 9 2
  let t := word / 2 ^ 10
  let tr := troupe s t
  match sliceFor s tr, frameLaunch s.house.tick tr (word % 512) with
  | some sl, some launch =>
    if tr.life == .absent || ! epochKnown sl (BitVec.ofNat 16 (bodyField f 12 2)) then s
    else
      let step := bodyField f 3 6
      let s := joinRound t launch s
      let s := if step = roundStep (troupe s t) + 1 then
          launchRound t launch (adopt t (bit word 9) (bodyField f 15 4) s)
        else s
      if (troupe s t).round.any fun r => r.step == step then
        takeHop t port (bodyField f 14 1) (bit (bodyField f 11 1) 0) (bit (bodyField f 11 1) 1) s
      else s
  | _, _ => s

/-- CALL_RECEIVE (R253, R256, R257, R260). -/
def execCallReceive (dt port : Nat) (frame : List Byte) (s : State) : Out :=
  .next (arriveOpen .call false dt port frame (hearCall port frame) s)

/-- CALL_RESEND (R257): 2 µs after the latest frame on a port whose next hop frame is still missing. -/
def execCallResend (dt t port : Nat) (s0 : State) : Out :=
  let s := passCk dt s0
  .next (match (troupe s t).round with
    | none => s
    | some r =>
      let due := (tabGet r.sent port).any fun c => decide (c + 3600 ≤ s.house.ck)
      if due && r.ports.contains port && r.result.isNone && ! r.failed && (heard r port).isNone then sendCall t port s
      else s)

/-- ROUND_ABANDON_LIMIT (R258): 16 consecutive ticks. -/
def execRoundAbandonLimit (dt t : Nat) (s0 : State) : Out :=
  let s := passCk dt s0
  let tr := troupe s t
  .next (if tr.abandonTold || decide (tr.abandoned < 16) then s
    else record { sub := .updateSequencer, status := .timeout, who := some t }
      (modTroupe s t fun tr => { tr with abandonTold := true }))

/-- STEP_DEADLINE_MISS (R52). -/
def execStepDeadlineMiss (dt t : Nat) (s0 : State) : Out :=
  let s := passCk dt s0
  let tr := troupe s t
  .next (match lastStep tr with
    | none => s
    | some r =>
      let due := r.calledTick.any fun c => decide (c + r.deadline ≤ s.house.tick)
      if r.state.val != .called || r.missed || ! due || completionOf s tr r then s
      else
        let s := modTroupe s t fun tr => modLast tr fun r => { r with missed := true }
        record { sub := .stageManager, status := .timeout, who := some t } (gauge (curtain (some 10) t s) t 0x18 1))

end Sys2Proof.Machine
end

