-- ==== Sys2Proof/Machine/Troupes.lean ====
section
/-! DEFINITION. The TROUPE_ commands (R58, R59, R173, R315, R317, R334, R337–R340). -/

namespace Sys2Proof.Machine

open Sys2Proof

/-- Whether two regions share a byte. -/
def regionsMeet (a b : BitVec 64 × BitVec 64) : Bool :=
  a.2 != 0 && b.2 != 0 && decide (a.1.toNat < b.1.toNat + b.2.toNat) && decide (b.1.toNat < a.1.toNat + a.2.toNat)

/-- Whether the regions of a new troupe lie in the pits of the build, and clear of every other troupe's (Table 12.7). -/
def regionsOk (s : State) (rs : List (BitVec 64 × BitVec 64)) : Bool :=
  (rs.drop s.house.pits).all (fun r => r.2 == 0) &&
    s.troupes.all fun e => e.2.regions.all fun o => rs.all fun r => ! regionsMeet r o

/-- TROUPE_CREATE (R315, R317): an empty troupe. -/
def execTroupeCreate (p : Post) (flags : BitVec 8) (bases lens : List (BitVec 64)) (s : State) : Out :=
  .next (serve p (.troupeCreate p flags bases lens)
    { house := true
      gate := fun s t => match (troupe s t).life with
        | .absent => none
        | .fenced => some .fenced
        | _ => some .state
      args := flags.toNat < 4 && regionsOk s (bases.zip lens)
      body := fun _ _ t s =>
        done (setTroupe s t { bestEffort := flags.getLsbD 0, adlib := flags.getLsbD 1, regions := bases.zip lens }) } s)

/-- TROUPE_DELETE (R315, R317, R334). -/
def execTroupeDelete (p : Post) (s : State) : Out :=
  .next (serve p (.troupeDelete p)
    { house := true
      gate := fun s t => match (troupe s t).life with
        | .intermission | .fenced => if t = 0 then some .state else none
        | _ => some .state
      body := fun _ _ t s => .defer (beginTroupeReset t s) .delete [] } s)

/-- TROUPE_MODE (R315). -/
def execTroupeMode (p : Post) (flags : BitVec 8) (s : State) : Out :=
  .next (serve p (.troupeMode p flags)
    { gate := quietGate, args := flags.toNat < 2
      body := fun _ _ t s => done (modTroupe s t fun tr => { tr with adlib := flags == 1 }) } s)

/-- TROUPE_CLASS (R43). -/
def execTroupeClass (p : Post) (flags : BitVec 8) (s : State) : Out :=
  .next (serve p (.troupeClass p flags)
    { house := true, gate := quietGate, args := flags.toNat < 2
      body := fun _ _ t s =>
        need ((troupe s t).bookings.isEmpty) .state <|
        done (modTroupe s t fun tr => { tr with bestEffort := flags == 1 }) } s)

/-- The address that this chip has in a troupe (R306). -/
def memberAddr (s : State) (t : Nat) : BlockAddr := ((troupe s t).address).getD (ownAddr s)

/-- Whether a line is a carousel line over a member list (R173). -/
def suitsCarousel (tr : Troupe) (members : List BlockAddr) (l : Nat) : Bool :=
  let ln := lineOf tr l
  l < 512 && ln.carousel && ln.state.val != .closed && ln.members == members

/-- TROUPE_CAROUSEL (R173): one entry, its generation counted; a bucket that names it leaves the playbill unsealed. -/
def execTroupeCarousel (p : Post) (entry count : BitVec 8) (n own : BitVec 16) (lines : List (BitVec 16))
    (members : BitVec 64) (s : State) : Out :=
  .next (serve p (.troupeCarousel p entry count n own lines members)
    { gate := billGate
      args := inRange 1 6 count.toNat && inRange 1 16384 n.toNat && decide (own.toNat < n.toNat)
        && (lines.drop count.toNat).all (· == 0)
      body := fun _ _ t s =>
        let tr := troupe s t
        let raw := (List.range n.toNat).map fun k => BitVec.ofNat 64 (peekWord s (members.toNat + 8 * k) 8)
        let list : List BlockAddr := raw.map fun a => a.setWidth 48
        let ls := (lines.take count.toNat).map (·.toNat)
        need (raw.all addressOk && (list.filter (· == memberAddr s t)).length == 1
            && list[own.toNat]? == some (memberAddr s t) && ls.length == count.toNat && ls.all (suitsCarousel tr list))
          .badArg <|
        done (modTroupe s t fun tr => { tr with
          carousels := tabPut tr.carousels entry.toNat { members := list, own := own.toNat, count := count.toNat, lines := ls }
          generation := (tr.generation + 1) % 2 ^ 32
          sealed := tr.sealed && ! tr.buckets.any fun e => e.2.carousel == entry.toNat }) } s)

/-- TROUPE_INTERMISSION (R24, R58, R337). -/
def execTroupeIntermission (p : Post) (s : State) : Out :=
  .next (serve p (.troupeIntermission p)
    { gate := anyGate
      body := fun issuer _ t s =>
        let tr := troupe s t
        let by_ := if issuer = 0 then 2 else if tr.issuer = 2 then 2 else 1
        if tr.life != .active then
          done (modTroupe s t fun tr => { tr with issuer := if issuer = 0 then 2 else tr.issuer })
        else
          let s := modTroupe s t fun tr => { tr with issuer := by_ }
          if (flight tr).isNone then done (enterIntermission t s)
          else .defer (modTroupe (curtain (some 12) t s) t fun tr => { tr with life := .pending }) .intermission [] } s)

/-- A suspended booking as it comes back (R59). -/
def resumed (s : State) (b : Booking) : Booking :=
  { b with suspended := false, start := max b.start (s.house.tick + 1) }

/-- Whether every suspended booking of a troupe meets R39 at this moment (R59): each is judged beside the others. -/
def resumes (s : State) (t : Nat) : Bool :=
  let back := modTroupe s t fun tr =>
    { tr with bookings := tr.bookings.map fun e => (e.1, if e.2.suspended then resumed s e.2 else e.2) }
  (troupe back t).bookings.all fun e =>
    (e.2.spans s.house.tick).all fun sp => sp.stop != 0 && decide (sp.stop ≤ sp.start) || admits back t e.1 sp

/-- TROUPE_RESUME (R59, R337, R339). -/
def execTroupeResume (p : Post) (s : State) : Out :=
  .next (serve p (.troupeResume p)
    { gate := fun s t => (anyGate s t).orElse fun _ =>
        if (troupe s t).life == .intermission then none else some .state
      body := fun issuer _ t s =>
        need (issuer == 0 || (troupe s t).issuer != 2) .notOwner <|
        need (resumes s t) .overbooked <|
        let s' := modTroupe s t fun tr => { tr with
          life := .active, issuer := 0
          bookings := tr.bookings.map fun e => (e.1, { e.2 with suspended := false }) }
        done (serveHeld t s') } s)

/-- TROUPE_RESET (R334). -/
def execTroupeReset (p : Post) (s : State) : Out :=
  .next (serve p (.troupeReset p)
    { gate := alwaysGate
      body := fun _ _ t s =>
        need ((troupe s t).life != .resetting) .state <| .defer (beginTroupeReset t s) .reset [] } s)

/-- TROUPE_STATE (Table 12.7). -/
def execTroupeState (p : Post) (s : State) : Out :=
  .next (serve p (.troupeState p)
    { gate := alwaysGate
      body := fun _ _ t s =>
        let tr := troupe s t
        doneWith s [res 0 1 tr.life.code, res 1 1 ((tr.fence.map statusCode).getD 0), res 2 1 tr.issuer,
          res 3 1 (bitOf tr.adlib), res 8 8 (Config.cueTable t).toNat, res 16 4 tr.fenceIndex.toNat] } s)

end Sys2Proof.Machine
end

