-- ==== Sys2Proof/Machine/Spare.lean ====
section
/-! DEFINITION. The SPARE_ commands, the copy to an understudy, the stand-in and the trickles (R287, R293–R295, R301–R306,
R310, R393, R397). -/

namespace Sys2Proof.Machine

open Sys2Proof

/-! ### Pairs -/

/-- Whether a block address is that of the house-set partner of a wing port (R287). -/
def wingPartner (s : State) (a : BlockAddr) : Bool :=
  (portOf s 6).expected == some a || (portOf s 7).expected == some a

/-- Whether a line can be the mirror line: an OPEN point line to a wing partner (R287). -/
def mirrorSuits (s : State) (t l : Nat) : Bool :=
  let ln := lineOf (troupe s t) l
  l < 512 && ! ln.carousel && ln.state.val == .opened && ln.peers.head?.any fun p => wingPartner s p.addr

/-- Whether K slots for a partner's owned count still have room (R295). -/
def propFits (s : State) (t k owned : Nat) : Bool :=
  let tr := troupe s t
  ! tr.sealed || roomOk s.house.pits tr tr.graph k owned

/-- The mode of a code (SPARE_PAIR). -/
def modeOf (n : Nat) : MirrorMode := if n = 1 then .replay else if n = 2 then .copy else .none

/-- SPARE_PAIR (R287, R295, R301, R303, R310, R393): a new pair; what was frozen for a lost partner thaws, and a divergence
of the pair before it is over (log entry 84). -/
def execSparePair (p : Post) (line : BitVec 16) (mode flags : BitVec 8) (owned : BitVec 64) (s : State) : Out :=
  .next (serve p (.sparePair p line mode flags owned)
    { gate := quietGate, args := mode.toNat < 3 && flags.toNat < 2
      body := fun _ _ t s =>
        need (mirrorSuits s t line.toNat && propFits s t (troupe s t).propK owned.toNat) .badArg <|
        done (modTroupe s t fun tr => { tr with
          pairLine := line.toNat, pairMode := modeOf mode.toNat, pairTrickle := flags == 1, pairOwned := owned.toNat
          diverged := false, noCheck := false
          mirror := { tr.mirror with frozen := false, standIn := none, standSent := false, diverged := false } }) } s)

/-- SPARE_PROP (R22, R295). -/
def execSpareProp (p : Post) (k n : BitVec 8) (s : State) : Out :=
  .next (serve p (.spareProp p k n)
    { gate := quietGate, args := inRange 2 16 k.toNat && inRange 1 16 n.toNat && decide (n.toNat ≤ k.toNat)
      body := fun _ _ t s =>
        need (propFits s t k.toNat (troupe s t).pairOwned) .badArg <|
        done (modTroupe s t fun tr => { tr with propK := k.toNat, propN := n.toNat }) } s)

/-! ### The copy to the understudy (R302) -/

/-- Mark the carriages of the item queued last as part of a copy. -/
def markCopy (t : Nat) (s : State) : State :=
  modTroupe s t fun tr =>
    let mark (f : OutFrame) : OutFrame := if f.item = tr.opCount then { f with opId := some 0 } else f
    let ln := lineOf tr tr.pairLine
    { tr with sheet := tr.sheet.map mark
              lines := tabPut tr.lines tr.pairLine { ln with waiting := ln.waiting.map mark } }

/-- The owned tensors of a troupe with their graphs, by bucket. -/
def ownedTensors (tr : Troupe) : List (Graph × Nat × Nat × Nat × Bool) :=
  tr.graph.flatMap fun ge => (ge.2.tensors.filter fun e => ownsSome tr ge.2 e).map fun e => (ge.2, e)

/-- The committed state and the held range of a tensor's owned blocks, as one run of bytes: how many blocks, which, their
state, and 32 words of the held range for each (log entry 84). -/
def copyBytes (s : State) (tr : Troupe) (g : Graph) (te : Nat × Nat × Nat × Bool) : List Byte :=
  match tabGet tr.bill te.1 with
  | none => []
  | some e =>
    let blocks := ownedIn tr g te
    leBytes 4 blocks.length ++ (blocks.flatMap (leBytes 4)) ++
      stateBytes (optRec tr te.1) te.2.1 blocks (tabGetD (committed tr) te.1 {}) ++
      (blocks.flatMap fun k => (heldBlock s e g.fclass k).flatMap fun v => leBytes 4 v.toNat)

/-- Send the committed owned state and held range to both mirror areas of the understudy, and the word that ends the
copy. -/
def sendCopy (t : Nat) (s : State) : State :=
  let tr := troupe s t
  let s := (ownedTensors tr).foldl (fun s x =>
    markCopy t (mirrorWrite t tr.epoch (place t kindMirrorArea x.2.1) (mirrorCharge tr) (copyBytes s tr x.1 x.2) s)) s
  markCopy t (mirrorWrite t tr.epoch (place t kindResyncEnd 0) (mirrorCharge tr) (leBytes 8 (tr.epoch % 2 ^ 48)) s)

/-- Whether a deferred command is a SPARE_RESYNC. -/
def Awaits.isResync : Awaits → Bool
  | .resync _ => true
  | _ => false

/-- SPARE_RESYNC (R301, R302). -/
def execSpareResync (p : Post) (s : State) : Out :=
  .next (serve p (.spareResync p)
    { house := true, gate := anyGate
      body := fun _ _ t s =>
        let ln := lineOf (troupe s t) (troupe s t).pairLine
        need ((troupe s t).diverged && ! holdsBy s t Awaits.isResync) .state <|
        .defer (if ln.state.val == .opened then sendCopy t s else s) (.resync ln.epoch) [] } s)

/-- A copy that the mirror line's epoch has overtaken is sent again in the new one. -/
def resyncStep (t : Nat) (s : State) : State :=
  let ln := lineOf (troupe s t) (troupe s t).pairLine
  let late (d : Deferred) : Bool := d.target == t && match d.awaits with
    | .resync e => e != ln.epoch
    | _ => false
  if ln.state.val == .opened && s.deferred.any late then
    sendCopy t { s with deferred := s.deferred.map fun d => if late d then { d with awaits := .resync ln.epoch } else d }
  else s

/-! ### The stand-in (R303) -/

/-- Numbers of the lines that a stand-in keeps for the lost address. -/
def standLines (tr : Troupe) : List Nat := (tr.lines.map (·.1)).filter fun l => 512 ≤ l

/-- Open one of the lost chip's carousel lines as that address. -/
def standLine (t : Nat) (lost : BlockAddr) (l : Nat) (s : State) : State :=
  let ln := lineOf (troupe s t) l
  let own := memberAddr s t
  let peers := (ln.members.filter fun a => a != lost && a != own).map fun a => ({ addr := a } : Peer)
  let new : Line := { state := Pair.of .knocking, carousel := true, epoch := ln.epoch, requested := some (ln.epoch + 1)
                      payload := ln.payload, share := ln.share, members := ln.members, peers := peers, standIn := true }
  let s := modLine s t (l + 512) fun _ => new
  if peers.isEmpty then openEpoch t (l + 512) (ln.epoch + 1) s else knockAll t (l + 512) s

/-- SPARE_STANDIN (R303, R397): the mirror freezes, and the lost chip's carousel lines are knocked. -/
def execSpareStandin (p : Post) (lost : BitVec 64) (s : State) : Out :=
  .next (serve p (.spareStandin p lost)
    { house := true, gate := anyGate, args := addressOk lost
      body := fun _ _ t s =>
        let tr := troupe s t
        let a : BlockAddr := lost.setWidth 48
        need (tr.pairMode != .none && tr.mirror.standIn.isNone
            && (lineOf tr tr.pairLine).peers.head?.any fun q => q.addr == a) .state <|
        let s := modMirror s t fun m => { m with frozen := true, standIn := some a, standSent := false }
        let lines := (tr.lines.filter fun e => decide (e.1 < 512) && e.2.carousel && e.2.members.contains a).map (·.1)
        .defer (lines.foldl (fun s l => standLine t a l s) s) .standIn [] } s)

/-- The mirror's last COMMITTED step, applied if it has not been yet (R303). -/
def standApply (t : Nat) (s : State) : State :=
  modTroupe s t fun tr => match tabGet tr.mirror.halves tr.epoch with
    | some h => if tr.mirror.runningStep < tr.epoch && ! h.skipped then mirrorApply tr tr.epoch h else tr
    | none => tr

/-- The deltas of the lost position's blocks of a bucket, from the mirror. -/
def standDeltas (tr : Troupe) (g : Graph) (pos : Nat) : Tab (QBlk × List F32) :=
  let range := ownedRange pos (g.members tr) g.blocks
  (List.range (range.2 - range.1)).foldl (fun a k =>
    let b := range.1 + k
    match g.tensorAt b with
    | none => a
    | some te => match tabGet tr.mirror.deltas (heldKey te.1 (b - (tensorBlocks te).1)) with
      | none => a
      | some d => tabPut a b d) []

/-- Send the deltas of one bucket to one member as the lost address. -/
def standSend (t b pos : Nat) (deltas : Tab (QBlk × List F32)) (r : Nat) (s : State) : State :=
  let tr := troupe s t
  let g := graphAt tr b
  let c := carouselOf tr g.carousel
  let n := g.members tr
  let dest := (pos + r) % n
  let told := { tr with gather := tabPut tr.gather b { deltas := deltas } }
  let range := ownedRange pos n g.blocks
  ((g.spans range.1 range.2).zipIdx).foldl (fun s e =>
    let item : Item := ⟨⟨b, 14, r, e.1.1.1, e.1.2.1⟩, dest, e.2, e.1.1, e.1.2.1, e.1.2.2.1, e.1.2.2.2⟩
    let l := carouselLine c e.2 + 512
    match (c.members[dest]?).bind (peerIndex (lineOf (troupe s t) l)) with
    | none => s
    | some i => queueCars t l i none (some tr.epoch) (itemCars s t told item (payloadLimit s t l)) s) s

/-- Send the lost chip's deltas of one bucket to every other member, and take them itself (R303, R304). -/
def standBucket (t : Nat) (lost : BlockAddr) (b : Nat) (s : State) : State :=
  let tr := troupe s t
  let g := graphAt tr b
  match (carouselOf tr g.carousel).members.findIdx? (· == lost) with
  | none => s
  | some pos =>
    let deltas := standDeltas tr g pos
    if deltas.isEmpty then s
    else
      let s := (List.range (g.members tr - 1)).foldl (fun s k => standSend t b pos deltas (k + 1) s) s
      if gathering (troupe s t) tr.epoch then deltas.foldl (takeDelta t b) s else s

/-- Remove the lost chip's lines, with all that they hold. -/
def dropStand (t : Nat) (s : State) : State :=
  modTroupe s t fun tr => { tr with
    lines := tr.lines.filter fun e => decide (e.1 < 512), sheet := tr.sheet.filter fun f => decide (f.car.line < 512) }

/-- How far a stand-in has come (R303): its lines open, it sends the deltas, and it closes them once all is
acknowledged. -/
def standStep (t : Nat) (s : State) : State :=
  match (troupe s t).mirror.standIn with
  | none => s
  | some lost =>
    if ! holdsBy s t (· == .standIn) then s
    else
      let tr := troupe s t
      let waits := (standLines tr).any fun l => (lineOf tr l).state.val == .knocking || (lineOf tr l).state.val == .resetting
      if waits then s
      else if ! tr.mirror.standSent then
        let s := standApply t s
        let s := (tr.graph.map (·.1)).foldl (fun s b => standBucket t lost b s) s
        settleGather t (modMirror s t fun m => { m with standSent := true })
      else if (standLines tr).all fun l => (lineOf tr l).state.val != .opened ||
          (lineEmpty s t l && (lineOf tr l).waiting.isEmpty) then
        completeDeferred t (· == .standIn) .done [] (dropStand t s)
      else s

/-! ### Holding, promoting and exporting (R305, R306, R310) -/

/-- SPARE_ENCORE (R305). -/
def execSpareEncore (p : Post) (s : State) : Out :=
  .next (serve p (.spareEncore p)
    { house := true, gate := anyGate
      body := fun _ _ t s => done (modTroupe s t fun tr => { tr with held := true }) } s)

/-- Whether a spare's carousel table holds the lost address at its own position in every entry (R306). -/
def tableHolds (tr : Troupe) (lost : BlockAddr) : Bool :=
  ! tr.carousels.isEmpty && tr.carousels.all fun e => e.2.members[e.2.own]? == some lost

/-- SPARE_PROMOTE (R306, R397): the spare takes the lost address and waits for its encore. -/
def execSparePromote (p : Post) (lost standin donors : BitVec 64) (donorCount : BitVec 16) (s : State) : Out :=
  .next (serve p (.sparePromote p lost standin donors donorCount)
    { house := true, gate := quietGate, args := addressOk lost && addressOk standin
      body := fun _ _ t s =>
        let tr := troupe s t
        need (donorCount.toNat == tr.carousels.length && (readAddresses s donors.toNat donorCount.toNat).all addressOk)
          .badArg <|
        need (tr.pairMode != .none && tr.sealed && tableHolds tr (lost.setWidth 48) && tr.steps.isEmpty
            && tr.promotion.isNone) .state <|
        .defer (modTroupe s t fun tr => { tr with
            address := some (lost.setWidth 48), promotion := some (lost.setWidth 48, standin.setWidth 48)
            encoreDone := false, mirror := { tr.mirror with frozen := false } })
          (.promote (lost.setWidth 48) (standin.setWidth 48)) [] } s)

/-- SPARE_EXPORT (R310). -/
def execSpareExport (p : Post) (dest : BitVec 64) (s : State) : Out :=
  .next (serve p (.spareExport p dest)
    { house := true, gate := anyGate
      body := fun _ _ t s =>
        need (((troupe s t).mirror.standIn).isSome) .state <| .defer s (.spareExport dest) [] } s)

/-- The export of the mirror that a deferred command of troupe t waits for. -/
def spareExportOf (t : Nat) (d : Deferred) : Option (Deferred × BitVec 64) :=
  match d.awaits with
  | .spareExport dest => if d.target == t then some (d, dest) else none
  | _ => none

/-- Write the state of some tensors of a partner's area one after the other, all the blocks that it holds (R310). -/
def exportArea (tr : Troupe) : List (Nat × TState) → Nat → State → State
  | [], _, s => s
  | e :: r, a, s =>
    let o := optRec tr e.1
    let count := (partnerForm tr e.1).2.1
    let blocks := e.2.blocks.map (·.1)
    exportArea tr r (a + stateLength o count blocks) (pokeHbm s a (stateBytes o count blocks e.2))

/-- SPARE_EXPORT_COMPLETE (R310): the lost chip's checked area stands in memory, in ascending tensor id. -/
def execSpareExportComplete (dt t : Nat) (s0 : State) : Out :=
  let s := passCk dt s0
  .next (match s.deferred.findSome? (spareExportOf t) with
    | none => s
    | some (d, dest) =>
      run [.complete d.issuer d.slot .done []] (exportArea (troupe s t) (troupe s t).mirror.checked dest.toNat s))

/-! ### Trickles (R293, R294) -/

/-- Whether the mirror line can take trickle traffic: OPEN, and nothing on it waits to be sent. -/
def trickleFree (tr : Troupe) : Bool :=
  (lineOf tr tr.pairLine).state.val == .opened && (unsentFrames tr tr.pairLine 0).isEmpty

/-- Send one span of the committed optimiser state, then its stamp word (R293). -/
def sendSpan (t tensor k : Nat) (s : State) : State :=
  let tr := troupe s t
  let n := min spanSize ((((tabGet tr.bill tensor).map (·.count)).getD 0) - k * spanSize)
  let bytes := stateSpan (optRec tr tensor) (tabGetD (committed tr) tensor {}) (k * spanSize) n
  mirrorWrite t tr.epoch (place t kindStamp (tensor * 2 ^ 20 + k)) .shaper (leBytes 8 (tr.epoch % 2 ^ 48))
    (mirrorWrite t tr.epoch (place t kindMirrorState tensor + 8 * (k * spanSize)) .shaper bytes s)

/-- The chunks that have a residual: those of G-class buckets, by bucket and chunk (R294). -/
def residualChunks (tr : Troupe) : List ((Nat × Nat × Nat × Bool) × Nat) :=
  tr.graph.flatMap fun e => if e.2.fclass then [] else e.2.chunkList

/-- The carriages of one residual chunk. -/
def residualCars (s : State) (t : Nat) (k : (Nat × Nat × Nat × Bool) × Nat) : List Car :=
  let tr := troupe s t
  let r := residual tr (bankNow tr) (chunkKey k.1.1 k.2)
  let n := chunkLength k.1.2.1 k.1.2.2.2 k.2
  unitCars { mirrorProto s t tr.epoch with coll := true, enc := 6, subject := 11, tensor := k.1.1 }
    (payloadLimit s t tr.pairLine) (fun i => blockPosition k.2 (i / 32))
    ((List.range n).flatMap fun i => leBytes 2 (r.getD i 0).toNat)

/-- The trickles of a tick: the state trickle first, then one residual chunk whole (R293, R294). -/
def trickleStep (t : Nat) (s : State) : State :=
  let tr := troupe s t
  match lastStep tr with
  | none => s
  | some r =>
    if r.mirror == .none || ! trickleFree tr then s
    else
      let spans := stateSpans tr
      match (if r.mirror == .copy && 0 < tr.mirror.stateLeft then spans[tr.mirror.stateAt % max 1 spans.length]? else none) with
      | some (tensor, k) =>
        sendSpan t tensor k (modMirror s t fun m => { m with stateAt := m.stateAt + 1, stateLeft := m.stateLeft - 1 })
      | none =>
        let chunks := residualChunks tr
        match (if r.trickle then chunks[tr.trickleAt % max 1 chunks.length]? else none) with
        | none => s
        | some k =>
          queueCars t tr.pairLine 0 (some .shaper) none (residualCars s t k)
            (modTroupe (useBank t s) t fun tr => { tr with trickleAt := (tr.trickleAt + 1) % max 1 chunks.length })

end Sys2Proof.Machine
end

