-- ==== Sys2Proof/Machine/Encore.lean ====
section
/-! DEFINITION. The encore of a promoted spare (R306–R309, R395, R396). -/

namespace Sys2Proof.Machine

open Sys2Proof

/-- The kind 1 and kind 2 digests of a replayed step (R283, R284). -/
def replayDigests (tr : Troupe) (step : Nat) (shard : Tab (Tab ShardBlock)) (area : Tab TState) :
    BitVec 64 × BitVec 64 :=
  (stepDigest (shardDigests tr step shard) 1, stepDigest (masterDigests tr step area false) 2)

/-- The digest of a kind that a replayed step must show: the lost chip's record, or, if it was never written, the
stand-in's running digests (R307). -/
def expectedDigest (h : Retained) (kind : Nat) : BitVec 64 :=
  match h.lost with
  | some r => if whole r.closing && r.closing.val == h.step % 2 ^ 32 then r.kinds.getD (kind - 1) 0
              else h.running.getD (kind - 1) 0
  | none => h.running.getD (kind - 1) 0

/-- Replay one retained COMMITTED step by R267 and R270. -/
def replayStep (tr : Troupe) (h : Retained) (area : Tab TState) : Tab TState :=
  h.records.foldl (fun a r => tabPut a r.tensor (mirrorState tr h area r)) area

/-- What the replay of some steps ends with: the area, how many steps were replayed, and the first step that differed,
with the kinds that did. -/
structure Replayed where
  area  : Tab TState
  count : Nat := 0
  bad   : Option (Nat × List Nat) := none
  deriving DecidableEq, Repr

/-- Replay one step of the encore, unless one has differed before; a SKIPPED step is passed over (R307). -/
def replayOne (tr : Troupe) (retained : List Retained) (x : Replayed) (step : Nat) : Replayed :=
  if x.bad.isSome then x
  else match retained.find? fun h => h.step == step && ! h.skipped with
    | none => x
    | some h =>
      let area := replayStep tr h x.area
      let d := replayDigests tr step h.shard area
      let bad := (if d.1 == expectedDigest h 1 then [] else [1]) ++ (if d.2 == expectedDigest h 2 then [] else [2])
      { area := area, count := x.count + 1, bad := if bad.isEmpty then none else some (step, bad) }

/-- The encore by replay (R307) or, where the lost chip mirrored by copy, by its running area (R396). -/
def encore (tr : Troupe) (p : Pulled) : Replayed :=
  if p.copy then
    let want : BitVec 64 := match p.retained.find? fun h => h.step == p.decided && ! h.skipped with
      | some h => expectedDigest h 2
      | none => 0
    let have_ : BitVec 64 := if p.lastCommitted = p.decided then (replayDigests tr p.decided [] p.running).2 else 0
    { area := p.running, bad := if p.runningWhole && have_ == want then none else some (p.decided, [2]) }
  else (List.range (p.decided - p.version)).foldl (fun x k => replayOne tr p.retained x (p.version + 1 + k))
    { area := p.checked }

/-- The oldest residual epoch taken: 0 for a chunk without a copy (R308, R395). -/
def oldestResidual (tr : Troupe) (p : Pulled) : Nat :=
  (residualChunks tr).foldl (fun a k => min a (tabGetD p.residuals (chunkKey k.1.1 k.2) (0, [])).1) p.lastCommitted

/-- Whether every residual copy that the spare took is at epoch m_c, as the takeover record then shows (R308): only then does
its run go on as an uninterrupted scripted run would. An older copy is taken all the same; quantisation adds it from step
m + 1 on, and the two runs part there (R309). -/
def residualsMatch (tr : Troupe) (p : Pulled) : Bool :=
  (residualChunks tr).all fun k => (tabGetD p.residuals (chunkKey k.1.1 k.2) (0, [])).1 == p.lastCommitted

/-- The takeover record (R308, Table 11.10): c, m, the steps replayed and the oldest residual epoch (log entry 33). -/
def takeoverBytes (t : Nat) (p : Pulled) (count oldest : Nat) : List Byte :=
  leBytes 8 (p.decided % 2 ^ 48 + t % 64 * 2 ^ 48 + 2 ^ 56) ++ leBytes 8 p.version ++ leBytes 8 p.decided ++
    leBytes 8 count ++ leBytes 8 oldest ++ List.replicate 88 0

/-- Write the takeover record into the ledger ring, as one record. -/
def takeoverRecord (t : Nat) (p : Pulled) (count : Nat) (s : State) : State :=
  let tr := troupe s t
  match tr.ledger with
  | none => s
  | some l =>
    modTroupe (poke l.host s (l.base.toNat + 128 * (tr.ledgerCount % max 1 l.records))
        (takeoverBytes t p count (oldestResidual tr p))) t
      fun tr => { tr with ledgerCount := tr.ledgerCount + 1 }

/-- Write the pulled held copies of one tensor (Table 11.6). -/
def takeHeld (t tensor blk : Nat) (xs : List F32) (s : State) : State :=
  let tr := troupe s t
  match tabGet tr.bill tensor with
  | none => s
  | some e =>
    let n := min 32 (e.count - 32 * blk)
    if (tabGet tr.buckets e.bucket).any (·.fclass) then
      pokeHbm s (e.held.toNat + 128 * blk) ((xs.take n).flatMap fun v => leBytes 4 v.toNat)
    else pokeHbm s (e.held.toNat + 64 * blk) ((xs.take n).flatMap fun v => leBytes 2 (v.toNat / 65536))

/-- A scale history as it is pulled, newest first, with whole words. -/
def pulledHistory (sc : ScaleState) (h : List Nat) : ScaleState := { sc with history := h.map Pair.of }

/-- What the spare holds after a successful encore (R308, R395). -/
def encoreState (tr : Troupe) (p : Pulled) (area : Tab TState) : Troupe :=
  let tr := { tr with
    areaA := area, version := Pair.of false, versionKept := false, versionFound := false, needImport := false, toImport := []
    residA := p.residuals.map fun e => (e.1, e.2.2)
    residB := [], bank := Pair.of false, bankKept := false, bankFound := false
    epoch := p.lastCommitted, opened := p.decided, decided := p.decided, lastCommitted := p.lastCommitted == p.decided
    histograms := p.histograms, diverged := false, encoreDone := true }
  let tr := p.histories.foldl (fun tr e => modScale tr e.1 fun sc => pulledHistory sc e.2) tr
  p.fallback.foldl (fun tr i => setFallback tr i true) tr

/-- The encore ends well: state, held copies, the takeover record, DONE (R308). -/
def encoreOk (t : Nat) (p : Pulled) (x : Replayed) (s : State) : State :=
  let s := takeoverRecord t p x.count s
  let s := modTroupe s t fun tr => encoreState tr p x.area
  let s := p.held.foldl (fun s e => takeHeld t (e.1 / 2 ^ 32) (e.1 % 2 ^ 32) e.2 s) s
  completeDeferred t (fun a => match a with | .promote _ _ => true | _ => false) .done [] s

/-- The encore has found a divergence: one record, the lines CLOSED, DIVERGED (R307, R396). -/
def encoreBad (t : Nat) (bad : Nat × List Nat) (s : State) : State :=
  let s := record { sub := .ledger, status := .diverged, who := some t, step := some bad.1 } s
  let s := modTroupe (dropLines t s) t fun tr => { tr with promotion := none }
  completeDeferred t (fun a => match a with | .promote _ _ => true | _ => false) .diverged [] s

/-- Whether a deferred command is a SPARE_PROMOTE. -/
def Awaits.isPromote : Awaits → Bool
  | .promote _ _ => true
  | _ => false

/-- ENCORE_RUN (R307, R308, R396): the pulled items are the row's operands. -/
def execEncoreRun (dt t : Nat) (pulled : Pulled) (s0 : State) : Out :=
  let s := passCk dt s0
  let tr := troupe s t
  let waits := tr.promotion.isSome && ! tr.encoreDone &&
    holdsBy s t Awaits.isPromote
  .next (if ! waits then s
    else
      let x := encore tr pulled
      match x.bad with
      | some b => encoreBad t b s
      | none => encoreOk t pulled x s)

/-- At the tick after a successful encore, knocks are answered DONE (R308). -/
def encoreStep (t : Nat) (s : State) : State :=
  modTroupe s t fun tr => if tr.encoreDone then { tr with promotion := none, encoreDone := false } else tr

end Sys2Proof.Machine
end

