-- ==== Sys2Proof/Machine/Gauges.lean ====
section
/-! DEFINITION. The GAUGE_ commands (R380–R382, Tables 14.3 to 14.7). -/

namespace Sys2Proof.Machine

open Sys2Proof

/-- What GAUGE_SNAP writes for troupe t: the page as it stood at the last tick (R380). -/
def snapBytes (s : State) (t : Nat) : List Byte :=
  let own := (troupe s t).tickGauges
  let page := gaugeBytes s own s.house.tickGauges t 0 (if t = 0 then 0x2C00 else 0x1800)
  if t = 0 then page ++ leBytes 8 (tabGetD s.house.tickGauges 0x2C00 0) else page

/-- GAUGE_SNAP (R380). -/
def execGaugeSnap (p : Post) (dest : BitVec 64) (s : State) : Out :=
  .next (serve p (.gaugeSnap p dest)
    { gate := alwaysGate, body := fun _ _ t s => done (pokeHbm s dest.toNat (snapBytes s t)) } s)

/-- Clear the groups of a mask in a table of gauges. -/
def clearGroups (mask : Nat) (g : Tab Nat) : Tab Nat := g.filter fun e => ! bit mask (gaugeGroup e.1)

/-- GAUGE_CLEAR (R380): only the house clears the chip-wide groups 8 and 9. -/
def execGaugeClear (p : Post) (groups : BitVec 32) (s : State) : Out :=
  .next (serve p (.gaugeClear p groups)
    { gate := fun s t => if p.issuer != 0 && groups &&& 0x300 != 0 then some .notOwner else anyGate s t
      args := groups &&& ~~~ 0x37F == 0
      body := fun _ _ t s =>
        let s := modTroupe s t fun tr => { tr with gauges := clearGroups groups.toNat tr.gauges }
        done (modHouse s fun h => { h with gauges := clearGroups groups.toNat h.gauges }) } s)

/-- A phase in a phase record: start tick, start offset, duration (Table 14.7); all ones while it runs (R382). -/
def phaseBytes (p : Phase) : List Byte :=
  leBytes 8 p.tick ++ leBytes 4 (low 20 p.off) ++
    leBytes 4 (if p.startCk.isSome && ! p.ended then 0xFFFFFFFF else p.dur)

/-- The phase record of a step (Table 14.7). -/
def phaseRecord (r : StepRec) : List Byte :=
  leBytes 8 (low 48 r.num + bitOf (r.outcome == some false) * 2 ^ 48 + bitOf r.adopted * 2 ^ 49) ++
    leBytes 8 r.openTick ++ ((List.range 9).flatMap fun i => phaseBytes (r.phases.getD i {})) ++ List.replicate 96 0

/-- GAUGE_TIMERS (R382): one of the last 64 opened steps. -/
def execGaugeTimers (p : Post) (step dest : BitVec 64) (s : State) : Out :=
  .next (serve p (.gaugeTimers p step dest)
    { gate := alwaysGate
      body := fun _ _ t s =>
        let tr := troupe s t
        match stepOf tr step.toNat with
        | none => .refuse .state
        | some r =>
          need (decide (step.toNat ≤ tr.opened) && decide (tr.opened < step.toNat + 64)) .state <|
          done (pokeHbm s dest.toNat (phaseRecord r)) } s)

end Sys2Proof.Machine
end

