-- ==== Sys2Proof/Machine/Ports.lean ====
section
/-! DEFINITION. Link states, dim and light, port failure (R230, R244, R246, R248–R252, R261). -/

namespace Sys2Proof.Machine

open Sys2Proof

/-! ### Light and dark -/

/-- The MAC service's relight time, 20 µs (R251). -/
def relightCk : Nat := 20 * Config.ckPerUs
/-- The time after which a loss of signal or a relight fails a port, 200 µs (R244, R251). -/
def failCk : Nat := 200 * Config.ckPerUs

/-- A lit link goes dark (R249, R251). -/
def goDark (port : Nat) (s : State) : State :=
  modPort s port fun q => { q with
    link := .dark, darkSince := some s.house.ck, dim := none, child := false, replyDue := none, tickTx := none
    lossSince := none, idle := 0 }

/-- A dark link starts to relight (R251). -/
def relight (port : Nat) (s : State) : State :=
  if (portOf s port).link == .dark then
    modPort s port fun q => { q with link := .relighting, relightSince := some s.house.ck, woken := false }
  else s

/-- A running retransmit timer that was frozen from ck `from_` on (R251). -/
def thaw (from_ now : Nat) (p : Peer) : Peer :=
  { p with timer := p.timer.map fun c => c + (now - max c from_) }

/-- A line's timers run on where its next hop is a port (R251). -/
def thawLine (s : State) (port from_ t l : Nat) (ln : Line) : Line :=
  let here (p : Peer) : Bool := originRoute s t (routeClass (troupe s t) l) p.addr == .out port
  { ln with peers := ln.peers.map fun p => if here p then thaw from_ s.house.ck p else p }

/-- The timers of lines whose next hop is a port run on from where they froze (R251). -/
def thawLines (port from_ : Nat) (s : State) : State :=
  let lines (e : Nat × Troupe) : Tab Line := e.2.lines.map fun l => (l.1, thawLine s port from_ e.1 l.1 l.2)
  { s with troupes := s.troupes.map fun e => (e.1, { e.2 with lines := lines e }) }

/-- A LIGHT frame (Table 6.11). -/
def lightFields (port phase n tick : Nat) : List (Nat × Nat × Nat) := [(3, 1, phase), (4, 1, port), (5, 2, n), (7, 8, tick)]

/-- A relight is complete: the link is lit, its timers run, and LIGHT request goes out (R251). -/
def lightUp (port : Nat) (s : State) : State :=
  let q := portOf s port
  let s := thawLines port ((q.darkSince.or q.relightSince).getD s.house.ck) s
  let s := modPort (portGauge s port 30 1) port fun q =>
    { q with link := .lit, darkSince := none, relightSince := none, lossSince := none, idle := 0 }
  sendLink port 0x88 0 (lightFields port 0 q.handshake.toNat s.house.tick) s

/-- Whether a relight has lasted its 20 µs. -/
def relit (s : State) (port : Nat) : Bool :=
  (portOf s port).link == .relighting &&
    (portOf s port).relightSince.any fun c => decide (c + relightCk ≤ s.house.ck)

/-- LINK_UP (R230): the PHY lights, or its signal returns. -/
def execLinkUp (dt port : Nat) (s0 : State) : Out :=
  let s := passCk dt s0
  let q := portOf s port
  .next (if q.link == .unlit && ! q.failed then modPort s port fun q => { q with link := .lit, verified := false }
    else if q.link == .lit then modPort s port fun q => { q with lossSince := none }
    else s)

/-- Whether a port has agreed to dim and is within one tick of its dark tick (R249). -/
def dimmingNow (s : State) (q : Port) : Bool :=
  match q.dim with
  | some (_, _, dark, true, _) => decide (dark ≤ s.house.tick + 1) && decide (s.house.tick ≤ dark + 1)
  | _ => false

/-- LINK_SIGNAL_LOSS (R244, R249). -/
def execLinkSignalLoss (dt port : Nat) (s0 : State) : Out :=
  let s := passCk dt s0
  let q := portOf s port
  .next (if q.link != .lit then s
    else if dimmingNow s q then goDark port s
    else modPort s port fun q => { q with lossSince := q.lossSince.or (some s.house.ck) })

/-- LINK_LIT (R251). -/
def execLinkLit (dt port : Nat) (s0 : State) : Out :=
  let s := passCk dt s0
  .next (if relit s port then lightUp port s else s)

/-- LIGHT_RECEIVE (R251): a partner that has lit completes the relight; a request is answered ready. -/
def execLightReceive (dt port : Nat) (frame : List Byte) (s0 : State) : Out :=
  let s := passCk dt s0
  let s := if relit s port then lightUp port s else s
  .next (arrived .light port frame (fun s =>
    if ticksOnly s port || bodyField frame 3 1 != 0 then s
    else sendLink port 0x88 0 (lightFields port 1 (bodyField frame 5 2) (bodyField frame 7 8)) s) s)

/-- LINK_WAKE (R250–R252): a wake signal of either end. -/
def execLinkWake (dt port : Nat) (_fromPartner : Bool) (s0 : State) : Out :=
  let s := passCk dt s0
  let q := portOf s port
  .next (match q.link, q.dim with
    | .dark, _ => relight port s
    | .lit, some (_, _, dark, agreed, _) =>
      if ! pastCommitPoint s dark then declineDim port s
      else if agreed then modPort s port fun q => { q with woken := true }
      else s
    | _, _ => s)

/-! ### The dim handshake (R248–R250) -/

/-- Whether a booking of any troupe lies on a port in the scene that a tick opens. -/
def bookedAt (s : State) (port tick : Nat) : Bool :=
  decide (0 < bytesAt (portSpans s port none) tick)

/-- Whether rounds of any troupe travel over a port (R248). -/
def roundsOver (s : State) (port : Nat) : Bool :=
  s.troupes.any fun e => (e.2.rounds || e.2.round.isSome) && (troupePorts s e.2).contains port

/-- Whether a port is eligible to dim (R248). -/
def dimEligible (s : State) (port : Nat) : Bool :=
  let q := portOf s port
  q.link == .lit && ! q.failed && q.dimDelay != 0 && decide (q.dimDelay ≤ q.idle) && q.transit == 0
    && (portNext s port).2 == 0 && ! bookedAt s port s.house.tick && ! bookedAt s port (s.house.tick + 1)
    && s.house.parent != some port && ! q.child && ! roundsOver s port

/-- A DIM frame (Table 6.11). -/
def dimFields (port phase : Nat) (n : BitVec 16) (dark : Nat) : List (Nat × Nat × Nat) :=
  [(3, 1, phase), (4, 1, port), (5, 2, n.toNat), (7, 8, dark)]
/-- Send a DIM frame: 0 propose, 1 agree, 2 decline, 3 commit. -/
def sendDim (port phase : Nat) (n : BitVec 16) (dark : Nat) (s : State) : State :=
  sendLink port 0x87 0 (dimFields port phase n dark) s

/-- DIM_PROPOSE (R249): a dark tick of at least the current tick + 2, which the spec leaves to the chip (log entry 12). -/
def execDimPropose (dt port : Nat) (s0 : State) : Out :=
  let s := passCk dt s0
  let q := portOf s port
  .next (if ! dimEligible s port || q.dim.isSome then s
    else
      let n := q.handshake + 1
      let dark := s.house.tick + 2 + Config.freeDraw s.house.draws
      let s := modHouse s fun h => { h with draws := h.draws + 1 }
      sendDim port 0 n dark (modPort s port fun q => { q with handshake := n, dim := some (true, n, dark, false, false) }))

/-- Whether this end's own proposal stands against its partner's (R249): the lower block address. -/
def ownStands (s : State) (port : Nat) (src : BlockAddr) : Bool :=
  match (portOf s port).dim with
  | some (true, _, _, false, _) => decide (beNat (leBytes 6 (ownAddr s).toNat) < beNat (leBytes 6 src.toNat))
  | _ => false

/-- A proposal: agree if eligible, else decline (R249). -/
def hearPropose (port : Nat) (src : BlockAddr) (n : BitVec 16) (dark : Nat) (s : State) : State :=
  let q := portOf s port
  if ownStands s port src then s
  else
    let free := match q.dim with
      | none => true
      | some (own, _, _, agreed, _) => own && ! agreed
    if free && dimEligible s port && ! pastCommitPoint s dark then
      sendDim port 1 n dark (modPort s port fun q => { q with handshake := n, dim := some (false, n, dark, true, false) })
    else sendDim port 2 n dark s

/-- A DIM frame by its phase (R249, R250). -/
def hearDim (port : Nat) (f : List Byte) (s : State) : State :=
  let n := BitVec.ofNat 16 (bodyField f 5 2)
  let dark := bodyField f 7 8
  let q := portOf s port
  let mine := q.dim.any fun d => d.2.1 == n
  match bodyField f 3 1 with
  | 0 => hearPropose port (frameSrc f) n dark s
  | 1 => if mine then modPort s port fun q => { q with dim := q.dim.map fun d => (d.1, d.2.1, d.2.2.1, true, d.2.2.2.2) } else s
  | 2 => if mine && q.dim.any (fun d => decide (s.house.tick < d.2.2.1)) then
      modPort s port fun q => { q with dim := none, woken := false } else s
  | 3 => if mine then modPort s port fun q => { q with dim := q.dim.map fun d => (d.1, d.2.1, d.2.2.1, d.2.2.2.1, true) } else s
  | _ => s

/-- A proposal leaves the idle time that it asks about running (R248, R249; log entry 55). -/
def asked (port idle : Nat) (f : List Byte) (s : State) : State :=
  if bodyField f 3 1 = 0 then modPort s port fun q => { q with idle := idle } else s

/-- DIM_RECEIVE (R249, R250). -/
def execDimReceive (dt port : Nat) (frame : List Byte) (s0 : State) : Out :=
  .next (arrive .dim dt port frame (fun s =>
    if ticksOnly s port then s else hearDim port frame (asked port (portOf s0 port).idle frame s)) s0)

/-- DIM_COMMIT_POINT (R249): at tick T − 1 the proposer sends DIM commit. -/
def execDimCommitPoint (dt port : Nat) (s0 : State) : Out :=
  let s := passCk dt s0
  .next (match (portOf s port).dim with
    | some (true, n, dark, true, false) =>
      if ! pastCommitPoint s dark then s
      else sendDim port 3 n dark (modPort s port fun q => { q with dim := some (true, n, dark, true, true) })
    | _ => s)

/-- Whether a frame waits for a port. -/
def framesWait (s : State) (port : Nat) : Bool :=
  let q := portOf s port
  ! q.relay.isEmpty || ! q.overflow.isEmpty || s.troupes.any fun e => ! (sheetFor e.2 port).isEmpty

/-- LINK_DARK (R249, R251): at tick T the link goes dark; a frame that waits, or a wake that came too late to decline,
relights it at once. -/
def execLinkDark (dt port : Nat) (s0 : State) : Out :=
  let s := passCk dt s0
  let q := portOf s port
  .next (match q.dim with
    | some (_, _, dark, true, _) =>
      if q.link != .lit || s.house.tick < dark then s
      else if q.woken || framesWait s port then relight port (goDark port s)
      else goDark port s
    | _ => s)

/-! ### Failure (R244, R258, R261) -/

/-- The neighbour of a round port that fails is not cut, as it is a round port still: every troupe with the port raises
the curtain, and a round that runs over it is abandoned (R258, R261). -/
def failRounds (port : Nat) (s : State) : State :=
  let s := { s with troupes := s.troupes.map fun e =>
    (e.1, { e.2 with round := e.2.round.map fun r => { r with failed := r.failed || r.ports.contains port } }) }
  curtainAll 11 (fun tr => (troupePorts s tr).contains port) s

/-- The deferred port resets of a port end with a status. -/
def endPortReset (port : Nat) (st : Status) (s : State) : State :=
  let ended := s.deferred.filter fun d => d.awaits == .portReset port
  run (ended.map fun d => .complete d.issuer d.slot st []) (modPort s port fun q => { q with resetting := false })

/-- Whether a troupe's understudy partner is out of reach: the peer of its mirror line is the partner of a wing port, and
every such port has failed (R287, R303, log entry 98). -/
def partnerLost (s : State) (tr : Troupe) : Bool :=
  tr.pairMode != .none && (lineOf tr tr.pairLine).peers.head?.any fun p =>
    let wings := [6, 7].filter fun q => (portOf s q).expected == some p.addr
    ! wings.isEmpty && wings.all fun q => (portOf s q).failed

/-- A chip whose partner is lost freezes what it holds of it (R303). -/
def freezeMirrors (s : State) : State :=
  { s with troupes := (s.troupes.map fun e =>
      (e.1, if partnerLost s e.2 then { e.2 with mirror := { e.2.mirror with frozen := true } } else e.2) : Tab Troupe) }

/-- A port fails (R244). -/
def failPort (port : Nat) (s : State) : State :=
  let s := modPort (dropQueues port 21 s) port fun q => { q with
    failed := true, link := .unlit, verified := false, lossSince := none, darkSince := none, relightSince := none
    dim := none, declines := none, woken := false, child := false, replyDue := none, tickTx := none, pauses := []
    pausing := [], pfcDue := [] }
  let s := record { sub := .portComplex, status := .closed, detail := port * 2 ^ 9 } s
  endPortReset port .closed (freezeMirrors (failRounds port s))

/-- PORT_FAIL (R244, R251): 200 µs of loss on a lit port outside a dim handshake, or of a relight. Loss in a handshake does
not count towards them. -/
def execPortFail (dt port : Nat) (s0 : State) : Out :=
  let s := passCk dt s0
  let q := portOf s port
  let since := match q.link with
    | .lit => q.lossSince
    | .relighting => q.relightSince
    | _ => none
  .next (if q.link == .lit && q.dim.isSome then
      modPort s port fun q => { q with lossSince := q.lossSince.map fun _ => s.house.ck }
    else if since.any fun c => decide (c + failCk ≤ s.house.ck) then failPort port s
    else s)

end Sys2Proof.Machine
end

