-- ==== Sys2Proof/Machine/Relay.lean ====
section
/-! DEFINITION. Priority flow control, frames that are dropped, and relayed frames (R4, R167, R229, R231–R233, R236, R240,
R243, R246, R401). -/

namespace Sys2Proof.Machine

open Sys2Proof

/-! ### MAC control frames (R4, R231) -/

/-- PAUSE_FRAME_RECEIVE (R4, R229). -/
def execPauseFrameReceive (dt port : Nat) (frame : List Byte) (s : State) : Out :=
  .next (arrive .pause dt port frame (fun s => portGauge s port 16 1) s)

/-- FOREIGN_FRAME_RECEIVE (R4). -/
def execForeignFrameReceive (dt port : Nat) (frame : List Byte) (s : State) : Out :=
  .next (arrive .foreign dt port frame (fun s => portGauge s port 5 1) s)

/-- The ck that t pause quanta of 0.32 ns last. -/
def quantaCk (t : Nat) : Nat := cdiv (t * 576) 1000

/-- The ck from which a pause that arrives now applies: the next frame boundary, or the start of the pause that it replaces
(Table 6.17). -/
def pauseFrom (q : Port) (now prio : Nat) : Nat :=
  match tabGet q.pauses prio with
  | some e => if now < e.1 then e.2 else max now q.busy
  | none => max now q.busy

/-- One enabled priority of a PFC frame with its time (R231). -/
def takePause (port prio time : Nat) (s : State) : State :=
  if prio < 2 || 4 < prio then portGauge s port 16 1
  else modPort s port fun q => { q with
    pauses := if time = 0 then tabDel q.pauses prio
              else tabPut q.pauses prio (s.house.ck + quantaCk time, pauseFrom q s.house.ck prio) }

/-- PFC_RECEIVE (R231): the enable vector, then eight times of 16 bits, both big-endian. -/
def execPfcReceive (dt port : Nat) (frame : List Byte) (s : State) : Out :=
  .next (arrive .pfc dt port frame (fun s =>
    let off := if frameTagged frame then 20 else 16
    let enable := beNat (slice frame off 2)
    if ticksOnly s port then s
    else ((List.range 8).filter (bit enable)).foldl (fun s k => takePause port k (beNat (slice frame (off + 2 + 2 * k) 2)) s)
      (portGauge s port 27 1)) s)

/-- PAUSE_EXPIRE (R49): the priority's frames resume. -/
def execPauseExpire (dt port prio : Nat) (s0 : State) : Out :=
  let s := passCk dt s0
  .next (if (tabGet (portOf s port).pauses prio).any fun e => decide (e.1 ≤ s.house.ck) then
      modPort s port fun q => { q with pauses := tabDel q.pauses prio }
    else s)

/-! ### Receive buffers and relay overflow (R232, R236) -/

/-- PFC_REPEAT (R232): every 10 µs while the priority holds 1 MiB or more. -/
def execPfcRepeat (dt port prio : Nat) (s0 : State) : Out :=
  let s := passCk dt s0
  let q := portOf s port
  .next (if (tabGet q.pausing prio).any (fun c => decide (c + 10 * Config.ckPerUs ≤ s.house.ck))
        && decide (2 ^ 20 ≤ occupancy q prio) then pausePartner port prio s
    else s)

/-- Bytes of a priority in a list of relayed frames. -/
def relayBytes (fs : List (List Byte × Nat × Nat × BitVec 16)) (prio : Nat) : Nat :=
  ((fs.filter fun r => r.2.1 == prio).map fun r => r.1.length).sum
/-- Bytes in a list of relayed frames. -/
def allBytes (fs : List (List Byte × Nat × Nat × BitVec 16)) : Nat := (fs.map fun r => r.1.length).sum

/-- Whether the output queue of a priority takes a frame (R236): there is room in its 1 MiB, and no frame of the priority
waits in the overflow area. -/
def queueTakes (q : Port) (f : List Byte) (prio : Nat) : Bool :=
  decide (relayBytes q.relay prio + f.length ≤ 2 ^ 20) && q.overflow.all (fun r => r.2.1 != prio)
/-- Whether the 64 MiB overflow area takes a frame. -/
def overflowTakes (q : Port) (f : List Byte) : Bool := decide (allBytes q.overflow + f.length ≤ 2 ^ 26)

/-- The record of a full overflow area, one per port and tick (R236). -/
def overflowRecord (port : Nat) (s : State) : State :=
  if s.log.overflowSeen.contains port then suppress s
  else record { sub := .portComplex, status := .overbooked }
    { s with log := { s.log with overflowSeen := port :: s.log.overflowSeen } }

/-- The pit whose stack holds a port's relay overflow area (log entry 68). -/
def overflowPit (s : State) (port : Nat) : Nat := Config.pitAt (place 0 kindOverflow port) % max 1 s.house.pits

/-- Put a frame into a port's overflow area, within the pit's share (R236). -/
def overflowIn (out : Nat) (r : List Byte × Nat × Nat × BitVec 16) (s : State) : State :=
  spendShare (overflowPit s out) r.1.length
    (modPort (portGauge s out 25 1) out fun q => { q with overflow := q.overflow ++ [r] })

/-- Place a relayed frame for its output port (R236, R243): one that finds the overflow area full stays in the receive
buffer of the port of its arrival (R232). -/
def placeRelayed (arrival out prio rec_ : Nat) (epoch : BitVec 16) (f : List Byte) (s : State) : State :=
  let q := portOf s out
  if queueTakes q f prio then modPort s out fun q => { q with relay := q.relay ++ [(f, prio, rec_, epoch)] }
  else if overflowTakes q f then overflowIn out (f, prio, rec_, epoch) s
  else bufferFrame arrival (out, f, prio, rec_, epoch) (overflowRecord out s)

/-- The first frame of the overflow area that its output queue has room for, each priority in arrival order. -/
def nextOverflow (q : Port) : Option (List Byte × Nat × Nat × BitVec 16) :=
  q.overflow.find? fun r =>
    (q.overflow.find? fun k => k.2.1 == r.2.1) == some r && decide (relayBytes q.relay r.2.1 + r.1.length ≤ 2 ^ 20)

/-- Move frames on from a port's overflow area into its queues. -/
def drainOverflow : Nat → Port → Port
  | 0, q => q
  | n + 1, q => match nextOverflow q with
    | none => q
    | some r => drainOverflow n { q with overflow := q.overflow.erase r, relay := q.relay ++ [r] }

/-- Move the frames that wait in a receive buffer for an output port into its overflow area, as far as there is room. -/
def drainBuffer (out arrival : Nat) : Nat → State → State
  | 0, s => s
  | n + 1, s =>
    match (portOf s arrival).rx.find? fun r => r.1 == out with
    | none => s
    | some r =>
      if ! overflowTakes (portOf s out) r.2.1 then s
      else
        drainBuffer out arrival n (overflowIn out r.2 (unbuffer arrival r s))

/-- A relayed frame has left a port: what waits behind it moves up, what leaves the overflow area within the pit's share. -/
def drainPort (out : Nat) (s : State) : State :=
  let held := allBytes (portOf s out).overflow
  let s := modPort s out fun q => drainOverflow q.overflow.length q
  let s := spendShare (overflowPit s out) (held - allBytes (portOf s out).overflow) s
  (s.ports.map fun e => (e.1, e.2.rx.length)).foldl (fun s e => drainBuffer out e.1 e.2 s) s

/-! ### Forwarding (R167, R240, R243) -/

/-- Whether a frame that passes is a control frame. -/
def passesControl (f : List Byte) : Bool := (controlKind (frameType f)).isSome

/-- The table epoch that a frame is matched by: carriages and knocks carry one; other control frames take the active bank
(R243). -/
def frameTableEpoch (f : List Byte) : Option (BitVec 16) :=
  if ! passesControl f then some (BitVec.ofNat 16 (bodyField f 18 2))
  else if frameType f = 0x85 || frameType f = 0x86 then some (BitVec.ofNat 16 (bodyField f 7 2))
  else none

/-- The bank of a slice that routes frames of a table epoch, and that epoch (R243). -/
def bankFor (sl : Slice) (e : Option (BitVec 16)) : Option (Bool × BitVec 16) :=
  match e with
  | none => some (sl.active, sl.epoch)
  | some e =>
    if e == sl.epoch then some (sl.active, e)
    else if sl.draining.isSome && e == sl.epoch - 1 then some (! sl.active, e)
    else none

/-- Whether an address can be routed: a block address of this pod within the index of R241's tables. -/
def routable (s : State) (a : BlockAddr) : Bool :=
  isBlockAddr a && podOf a == s.house.podNumber && (coordOf a).x < 32 && (coordOf a).y < 32 && (coordOf a).z < 16

/-- Forward a frame that arrived on a port (R167, R240). -/
def forward (port : Nat) (f : List Byte) (s : State) : State :=
  let dst := frameDst f
  match (troupe s (bodyField f 2 1 % 64)).slice with
  | none => portGauge s port 7 1
  | some r =>
    match bankFor (sliceOf s r) (frameTableEpoch f) with
    | none => portGauge s port 20 1
    | some (bank, epoch) =>
      let key := entryKey (destIndex (coordOf dst)) (6 + port)
      if ! routable s dst then portGauge s port 7 1
      else match judgeEntry s (bankEntry (sliceOf s r) bank key) port with
        | .out p => placeRelayed port p (framePcp f) r epoch f s
        | .drop p k => portGauge s p k 1
        | .broken p => brokenRoute r bank key p s

/-- FRAME_RELAY (R167). A closed house drops carriages and ignores ACK, NAK and PROBE frames (R246). -/
def execFrameRelay (dt port : Nat) (frame : List Byte) (s : State) : Out :=
  .next (arrive .passing dt port frame (fun s =>
    let knock := frameType frame = 0x85 || frameType frame = 0x86
    if ticksOnly s port then s
    else if ! s.house.doorsOpen && ! passesControl frame then portGauge s port 22 1
    else if ! s.house.doorsOpen && ! knock then s
    else forward port frame s) s)

/-! ### Draining banks (R243, R401) -/

/-- The control frames in a port's queue that were matched under an epoch of a slice record. -/
def controlUnder (q : Port) (record : Nat) (epoch : BitVec 16) : Nat :=
  (q.matched.filter fun m => q.control.contains m.1 && m.2.1 == record && m.2.2 == epoch).length

/-- The drain count of a slice record: frames in the chip's queues and overflow areas that were matched under its draining
bank (R243). -/
def drainCount (s : State) (record : Nat) : Nat :=
  let epoch := (sliceOf s record).epoch - 1
  let under (r : List Byte × Nat × Nat × BitVec 16) : Bool := r.2.2.1 == record && r.2.2.2 == epoch
  let ofPort (q : Port) : Nat :=
    ((q.relay ++ q.overflow ++ q.rx.map (·.2)).filter under).length + controlUnder q record epoch
  (s.ports.map fun e => ofPort e.2).sum +
    (s.troupes.map fun e => if e.2.slice == some record then
      (e.2.sheet.filter fun f => f.car.tableEpoch == epoch).length else 0).sum

/-- BANK_DRAIN_RELEASE (R243, R401): 16 ticks after the switch, once the drain count is 0. -/
def execBankDrainRelease (dt record : Nat) (s0 : State) : Out :=
  let s := passCk dt s0
  .next (if (sliceOf s record).draining.any (fun t => decide (t + 16 ≤ s.house.tick)) && drainCount s record = 0 then
      modSlice s record fun sl => { sl with draining := none }
    else s)

end Sys2Proof.Machine
end

