-- ==== Sys2Proof/Machine/Send.lean ====
section
/-! DEFINITION. What a port sends next, and how a frame leaves (R40–R51, R54, R169, R212, R215, R224, R232, R236, R237,
R245). -/

namespace Sys2Proof.Machine

open Sys2Proof

/-! ### The wire -/

/-- The ck that a frame of some wire bytes lasts: 0.005 ns a byte. -/
def frameCk (wire : Nat) : Nat := cdiv (wire * 9) 1000

/-- Put a frame on the wire of a port. -/
def putOnWire (port : Nat) (f : List Byte) (s : State) : State :=
  portGauge (modPort s port fun q => { q with tx := q.tx ++ [f], busy := s.house.ck + frameCk (frameWire f) }) port 1 1

/-- The time after this tick in 1/16 ck. -/
def sinceTick16 (s : State) : Nat := 16 * (s.house.ck - s.house.sceneStart) - s.house.sceneFrac

/-- The whole ck after this tick. -/
def sinceTick (s : State) : Nat := sinceTick16 s / 16

/-- A TICK frame that starts now (R245, Table 6.11): the child bit on the parent port, the reply bit on a child port. -/
def tickFrame (s : State) (port : Nat) (reply : Bool) : List Byte :=
  let next := s.house.pendingPeriod.getD (0, 0)
  controlLink s 0x89 (bitOf reply * 64 + bitOf (! reply && s.house.parent == some port) * 128)
    [(3, 8, s.house.tick), (11, 4, sinceTick s), (15, 2, s.house.period), (17, 2, next.1), (19, 2, next.2 % 2 ^ 16)]

/-- Whether a frame would be off the wire when a reply to a child is due (R245). -/
def clearOfReply (s : State) (port wire : Nat) : Bool :=
  (portOf s port).replyDue.all fun a => decide (s.house.ck + frameCk wire ≤ a + 2048)

/-- Whether a frame of a priority may start: its priority is not paused, and it ends before every running pause is due to
expire (R49). -/
def mayStart (s : State) (port prio wire : Nat) : Bool :=
  let q := portOf s port
  clearOfReply s port wire && (prio == 6 || (pauseLeft q s.house.ck prio == 0 &&
    q.pauses.all fun e => decide (e.2.1 ≤ s.house.ck) || decide (s.house.ck + frameCk wire ≤ e.2.1)))

/-! ### Which carriage of a troupe may go (R45, R46, R212, R224) -/

/-- Wire bytes outstanding towards a peer. -/
def outstanding (p : Peer) : Nat := (p.out.map fun e => e.1.car.wire).sum

/-- The cap of a line's share of the area: whole frames of 8,314 B, at least one; none for a share of 0 (R212). -/
def shareCap (tr : Troupe) (ln : Line) : Option Nat :=
  if ln.share = 0 then none else some (max 8314 (tr.area * 2 ^ 20 * ln.share / 100 / 8314 * 8314))

/-- Whether the retransmit area has room for a new carriage (R212). -/
def areaRoom (tr : Troupe) (f : OutFrame) : Bool :=
  let ln := lineOf tr f.car.line
  let ofLine (l : Line) : Nat := (l.peers.map outstanding).sum
  (ln.peers[f.peer]?).any (fun p => decide (p.out.length < 4096))
    && (shareCap tr ln).all (fun c => decide (ofLine ln + f.car.wire ≤ c))
    && decide ((tr.lines.map fun e => ofLine e.2).sum + f.car.wire ≤ tr.area * 2 ^ 20)

/-- Whether the window lets a new carriage start (R224). -/
def windowOpen (s : State) (tr : Troupe) (f : OutFrame) : Bool :=
  ! governed s tr f || ((lineOf tr f.car.line).peers[f.peer]?).any fun p =>
    p.out.isEmpty || decide (outstanding p + f.car.wire ≤ p.window)

/-- The ring of a line operation's frame. -/
def frameRing (tr : Troupe) (f : OutFrame) : Option Nat :=
  f.opId.bind fun i => ((lineOf tr f.car.line).ops.find? fun o => o.id == i).map (·.ring)

/-- Whether a frame is next on its line towards its peer, with nothing to resend, and next of its ring (R215, R327). -/
def frameNext (tr : Troupe) (f : OutFrame) : Bool :=
  (tr.sheet.find? fun g => g.car.line == f.car.line && g.peer == f.peer).any f.same
    && ((lineOf tr f.car.line).peers[f.peer]?).any (fun p => p.goBack.isEmpty)
    && ((frameRing tr f).all fun r => (tr.sheet.find? fun g => g.port == f.port && frameRing tr g == some r).any f.same)

/-- Whether a booking has bytes left for a frame (R45, R48). -/
def bookingHas (tr : Troupe) (f : OutFrame) : Bool :=
  match f.drawn with
  | some (.booking b) => (tabGet tr.bookings b).any fun k =>
      ! k.suspended && ! f.stranded && decide (f.car.wire ≤ k.left)
  | _ => false

/-- The port whose shaper a best-effort frame passes: its ring's, else the one where it leaves (R43). -/
def shaperPort (f : OutFrame) (port : Nat) : Nat :=
  match f.drawn with
  | some (.shaperOn p) => p
  | _ => port

/-- Whether the shaper lets a new best-effort item start (R54). -/
def shaperLets (s : State) (tr : Troupe) (port : Nat) (f : OutFrame) : Bool :=
  f.startedBE || decide (0 ≤ (refill (shaperOf tr (shaperPort f port)) s.house.ck).balance)

/-- Whether the line of a frame is OPEN, or CLOSING with work left (R198). -/
def lineOpen (tr : Troupe) (f : OutFrame) : Bool :=
  let st := (lineOf tr f.car.line).state.val
  st == .opened || st == .closing

/-- Whether a new carriage can be sent now. -/
def sendable (s : State) (port : Nat) (tr : Troupe) (f : OutFrame) : Bool :=
  lineOpen tr f && mayStart s port f.car.cls.pcp f.car.wire && frameNext tr f && areaRoom tr f && windowOpen s tr f
    && (if f.booked then bookingHas tr f else shaperLets s tr port f)

/-- The port on which a carriage is resent: the one that its routing entry of now names (R169, R240). -/
def resendPort (s : State) (t : Nat) (f : OutFrame) : Nat := framePort s t f

/-- The next carriage to resend of each peer of each line: line, peer, carriage (R215). -/
def resends (tr : Troupe) : List (Nat × Nat × OutFrame) :=
  tr.lines.flatMap fun e =>
    if e.2.state.val == .opened || e.2.state.val == .closing then
      e.2.peers.zipIdx.filterMap fun p =>
        (p.1.goBack.head?.bind fun q => (p.1.out.find? fun o => o.1.car.seq == q)).map fun o => (e.1, p.2, o.1)
    else []

/-- The carriages that a troupe may resend on a port, each with its charge there (R51, R195). -/
def resendsOn (s : State) (t : Nat) (tr : Troupe) (port : Nat) : List (Nat × Nat × OutFrame) :=
  ((resends tr).map fun e => (e.1, e.2.1, rerouted s t e.2.2)).filter fun e => e.2.2.port == some port

/-- What a port may send next. -/
inductive Pick where
  | pfc (prio time : Nat)
  | decline
  | control (f : List Byte)
  | relayed (r : List Byte × Nat × Nat × BitVec 16) (above : Bool)
  | fresh (t : Nat) (f : OutFrame)
  | again (t l i : Nat) (f : OutFrame)
  deriving DecidableEq, Repr

/-- Whether a frame belongs to the collective order of R46: the traffic of Table 7.2. What the mirror line carries keeps
its own order, as line operations do. -/
def OutFrame.inOrder (f : OutFrame) : Bool := f.car.coll && f.car.subject != 10 && f.car.subject != 11

/-- The next frame of a troupe's collective order on a port in scripted mode (R46): the earliest dispatch item on the cue
sheet, unless an earlier one still waits for its line or for room on the sheet. -/
def orderHead (s : State) (port t : Nat) (tr : Troupe) : Option OutFrame :=
  let fs := (sheetFor tr port).filter OutFrame.inOrder
  let first := fs.find? fun f => fs.all fun g => decide (f.item ≤ g.item)
  first.filter fun f => tr.lines.all fun e => e.2.waiting.all fun g =>
    ! g.inOrder || decide (f.item ≤ g.item) || framePort s t g != port

/-- The next new carriage of a troupe, booked or best-effort, of carry-over or not: in scripted mode the first of the
collective order or none of them, then the first other frame that can go (R46). -/
def freshPick (s : State) (port t : Nat) (tr : Troupe) (booked carry : Bool) : Option OutFrame :=
  let ok (f : OutFrame) : Bool := f.booked == booked && f.carry == carry && sendable s port tr f
  let fs := sheetFor tr port
  let first := if scripted s tr then (orderHead s port t tr).filter ok else fs.find? fun f => f.inOrder && ok f
  first.orElse fun _ => fs.find? fun f => ! f.inOrder && ok f

/-- What a troupe sends in its turn, booked or best-effort: carry-over, then what is resent, then what is new (R45). A
carried frame of a line operation goes before a new frame of the collective order (R45 and R46 pull apart there; DESIGN
CHOICE, log entry 103). -/
def troupePick (s : State) (port t : Nat) (tr : Troupe) (booked : Bool) : Option Pick :=
  let resent := (resendsOn s t tr port).find? fun e => e.2.2.booked == booked
    && mayStart s port e.2.2.car.cls.pcp e.2.2.car.wire && (! booked || bookingHas tr e.2.2)
  ((freshPick s port t tr booked true).map (Pick.fresh t)).orElse fun _ =>
    (resent.map fun e => .again t e.1 e.2.1 e.2.2).orElse fun _ =>
      (freshPick s port t tr booked false).map (Pick.fresh t)

/-- What every troupe would send in a turn on a port. -/
def turns (s : State) (port : Nat) (booked : Bool) : List (Nat × Pick) :=
  s.troupes.filterMap fun e => (troupePick s port e.1 e.2 booked).map fun p => (e.1, p)

/-! ### The order of R44 -/

/-- Whether a relayed frame is the first of its priority and may start. -/
def relayReady (s : State) (port : Nat) (r : List Byte × Nat × Nat × BitVec 16) : Bool :=
  let q := portOf s port
  (q.relay.find? fun k => k.2.1 == r.2.1) == some r && mayStart s port r.2.1 (frameWire r.1)

/-- The next relayed carriage, within or beyond the transit reserve of the scene (R237). -/
def relayPick (s : State) (port : Nat) (above : Bool) : Option Pick :=
  let q := portOf s port
  (q.relay.find? fun r => r.2.1 != 6 && relayReady s port r &&
    (above || decide (q.relayed + frameWire r.1 ≤ q.transit))).map fun r => .relayed r above

/-- A round of booked frames (R44, R237): the relayed turn, then the troupes in ascending number. -/
def bookedPick (s : State) (port : Nat) : Option Pick :=
  let q := portOf s port
  let all := turns s port true
  let rest := if q.relayTurn then all else all.filter fun e => decide (q.turn < e.1)
  (rest.head?.map (·.2)).orElse fun _ => (relayPick s port false).orElse fun _ => all.head?.map (·.2)

/-- The wire bytes of a carriage that a pick names. -/
def Pick.wire : Pick → Nat
  | .fresh _ f | .again _ _ _ f => f.car.wire
  | _ => 0
/-- The troupe whose carriage a pick names. -/
def Pick.owner : Pick → Option Nat
  | .fresh t _ | .again t _ _ _ => some t
  | _ => none

/-- The deficit of a troupe on a port. -/
def deficit (q : Port) (t : Nat) : Nat := tabGetD q.deficits t 0

/-- Best-effort frames by deficit round-robin (R47): the troupe whose turn it is goes on while its deficit lasts. -/
def bestPick (s : State) (port : Nat) : Option Pick :=
  let q := portOf s port
  let all := turns s port false
  let now := all.find? fun e => e.1 == q.bestTurn && decide (e.2.wire ≤ deficit q e.1)
  let after := all.filter fun e => decide (q.bestTurn < e.1)
  ((now.orElse fun _ => after.head?).orElse fun _ => all.head?).map (·.2)

/-- Whether a control frame belongs to the link itself and leaves a dim handshake alone. -/
def linkFrame (f : List Byte) : Bool := 0x87 ≤ frameType f && frameType f ≤ 0x89

/-- The next control frame, own ones first (R44); `only` names those that may go. -/
def controlPick (s : State) (port : Nat) (only : List Byte → Bool) : Option Pick :=
  let q := portOf s port
  (((q.control.find? only).filter fun _ => clearOfReply s port 84).map Pick.control).orElse fun _ =>
    (q.relay.find? fun r => r.2.1 == 6 && relayReady s port r && only r.1).map fun r => .relayed r (decide (q.transit < q.relayed + frameWire r.1))

/-- What a lit port sends next (R44, R232). -/
def nextPick (s : State) (port : Nat) : Option Pick :=
  let q := portOf s port
  let urgent : Option Pick := match q.pfcDue with
    | e :: _ => if clearOfReply s port 84 then some (.pfc e.1 e.2) else none
    | [] => if q.declines.any (fun d => decide (d.2.1 ≤ s.house.ck)) && clearOfReply s port 84 then some .decline else none
  (((urgent.orElse fun _ => controlPick s port fun _ => true).orElse fun _ => bookedPick s port).orElse fun _ =>
    relayPick s port true).orElse fun _ => bestPick s port

/-! ### Leaving -/

/-- The timing fields of a carriage at its transmission (R156, R169); a retransmission carries RTX and the table epoch of
now. -/
def stamp (s : State) (t : Nat) (f : OutFrame) (again : Bool) : Car :=
  let e := ((lineOf (troupe s t) f.car.line).peers[f.peer]?.map (echoFields s.house.ck)).getD (0, 0, false)
  { f.car with
    timestamp := BitVec.ofNat 32 s.house.ck, echo := e.2.2, echoTs := BitVec.ofNat 32 e.1, hold := BitVec.ofNat 16 e.2.1
    rtx := again, tableEpoch := if again then tableEpoch s t else f.car.tableEpoch }

/-- Send a carriage of a troupe on a port. -/
def sendCar (port t : Nat) (f : OutFrame) (again : Bool) (s : State) : State :=
  putOnWire port (carFrame (stamp s t f again) f.dst (lineAddr s t f.car.line) s.house.vid) s

/-- The routing entry that a frame was matched to as it entered the cue sheet (R243): the bank of its table epoch. -/
def enteredRoute (s : State) (t port : Nat) (f : OutFrame) : Route × Option (Nat × Bool × Nat) :=
  match (troupe s t).slice with
  | none => (.drop port 7, none)
  | some r =>
    let sl := sliceOf s r
    let key := entryKey (destIndex (coordOf f.dst)) f.cls
    match bankFor sl (some f.car.tableEpoch) with
    | none => (.out port, none)
    | some (bank, _) => (judgeEntry s (bankEntry sl bank key) 0, some (r, bank, key))

/-- Count a frame that its routing entry drops (R240). -/
def dropRouted (e : Route × Option (Nat × Bool × Nat)) (s : State) : State :=
  match e.1, e.2 with
  | .drop p k, _ => portGauge s p k 1
  | .broken p, some (r, bank, key) => brokenRoute r bank key p s
  | .broken p, none => portGauge s p 7 1
  | .out _, _ => s

/-- The frames of a best-effort item are charged as one when the first of them starts (R54). -/
def markStarted (f : OutFrame) (tr : Troupe) : Troupe :=
  let mark (g : OutFrame) : OutFrame := if g.entry == f.entry then { g with startedBE := true } else g
  let line (l : Line) : Line := { l with waiting := l.waiting.map mark }
  { tr with sheet := tr.sheet.map mark, lines := (tr.lines.map fun e => (e.1, line e.2) : Tab Line) }

/-- Charge wire bytes to what a frame draws on, and count them (R43, R51, R54, Table 14.3). -/
def chargeFrame (port t : Nat) (f : OutFrame) (shaper : Nat) (s : State) : State :=
  match f.drawn with
  | some (.booking b) =>
    troupePortGauge (modTroupe s t fun tr =>
      { tr with bookings := tabMod tr.bookings b fun k => { k with left := k.left - f.car.wire } }) t port 0 f.car.wire
  | _ => troupePortGauge (if shaper = 0 then s else chargeShaper t (shaperPort f port) shaper s) t port 0x08 f.car.wire

/-- The phases that start with the sending of a carriage of a step (Table 14.6). -/
def sentPhases (f : OutFrame) (s : State) (tr : Troupe) : Troupe :=
  match f.step with
  | none => tr
  | some n =>
    if ! f.car.coll then tr
    else if f.car.subject = 10 then modStep tr n fun r => r.phase 7 fun p => p.start s
    else if f.car.subject = 3 || f.car.subject = 6 || f.car.subject = 11 then tr
    else modStep tr n fun r => r.phase 3 fun p => p.start s

/-- Send a new carriage, or lose it at its routing entry. -/
def sendFresh (port t : Nat) (f : OutFrame) (s : State) : State :=
  let e := enteredRoute s t port f
  match e.1 with
  | .out _ =>
    let s := chargeFrame port t f (if f.startedBE then 0 else f.itemWire) s
    let s := if f.booked then s else modTroupe s t (markStarted f)
    launched t f (sendCar port t f false (modTroupe s t (sentPhases f s)))
  | _ => launched t f (dropRouted e s)

/-- A carriage has been resent: it is off its peer's list, and its time of sending is now (R225). -/
def resentNow (now : Nat) (f : OutFrame) (p : Peer) : Peer :=
  { p with goBack := p.goBack.drop 1, out := p.out.map fun o => if o.1.same f then (o.1, now) else o }

/-- Resend a carriage (R51, R54, R169), or lose it at its routing entry. -/
def sendAgain (port t l i : Nat) (f : OutFrame) (s : State) : State :=
  let tr := troupe s t
  let key := entryKey (destIndex (coordOf f.dst)) f.cls
  let after (s : State) : State := modPeer s t l i (resentNow s.house.ck f)
  match originRoute s t f.cls f.dst with
  | .out _ =>
    let s := troupePortGauge (chargeFrame port t f f.car.wire s) t port 0x10 f.car.wire
    after (sendCar port t f true s)
  | r => after (dropRouted (r, tr.slice.map fun k => (k, (sliceOf s k).active, key)) s)

/-- A relayed frame leaves (R236, R237). -/
def sendRelayed (port : Nat) (r : List Byte × Nat × Nat × BitVec 16) (above : Bool) (s : State) : State :=
  let wire := frameWire r.1
  let s := portGauge s port 23 wire
  let s := if above then portGauge s port 24 wire else s
  drainPort port (putOnWire port r.1 (modPort s port fun q =>
    { q with relay := q.relay.erase r, relayed := q.relayed + wire }))

/-- A control frame leaves: a TICK frame is made as it starts, and its time is kept on the parent port (R245). -/
def sendOwn (port : Nat) (f : List Byte) (s : State) : State :=
  let s := modPort s port fun q => { q with
    control := q.control.erase f, matched := q.matched.eraseP fun m => m.1 == f }
  if frameType f = 0x89 then
    putOnWire port (tickFrame s port false) (modPort s port fun q => { q with tickTx := some (sinceTick16 s) })
  else putOnWire port f s

/-- One of the three DIM declines (R250). -/
def sendDecline (port : Nat) (s : State) : State :=
  match (portOf s port).declines with
  | none => s
  | some (left, _, n, dark) =>
    let next := if left ≤ 1 then none else some (left - 1, s.house.ck + 2 * Config.ckPerUs, n, dark)
    putOnWire port (controlLink s 0x87 0 (dimFields port 2 n dark)) (modPort s port fun q => { q with declines := next })

/-- Whether a troupe has best-effort frames for a port. -/
def bestWaits (s : State) (port t : Nat) : Bool := (sheetFor (troupe s t) port).any fun f => ! f.booked

/-- The deficits once a troupe sends best-effort wire bytes (R47): a new turn brings it a quantum of 8,314 B, and a troupe
with nothing left to send keeps none. -/
def spendDeficit (s : State) (port : Nat) (q : Port) (t wire : Nat) : Tab Nat :=
  let goesOn := q.bestTurn = t && decide (wire ≤ deficit q t)
  let budget := deficit q t + (if goesOn then 0 else 8314)
  tabPut (q.deficits.filter fun e => bestWaits s port e.1) t (budget - wire)

/-- The turns of R44, R47 and R237 after a pick. -/
def takeTurn (port : Nat) (p : Pick) (s : State) : State :=
  match p with
  | .relayed r above => if above || r.2.1 = 6 then s else modPort s port fun q => { q with relayTurn := true }
  | .fresh t f | .again t _ _ f =>
    if f.booked then modPort s port fun q => { q with turn := t, relayTurn := false }
    else modPort s port fun q => { q with bestTurn := t, deficits := spendDeficit s port q t f.car.wire }
  | _ => s

/-- Carry out a pick. A carriage of a line with a broken word is not sent: the line faults (R202). -/
def perform (port : Nat) (p : Pick) (s : State) : State :=
  let s := takeTurn port p s
  match p with
  | .pfc prio time =>
    putOnWire port (pfcFrame (ownAddr s) [(prio, time)])
      (modPort (portGauge s port 26 1) port fun q => { q with pfcDue := q.pfcDue.drop 1 })
  | .decline => sendDecline port s
  | .control f => sendOwn port f s
  | .relayed r above => sendRelayed port r above s
  | .fresh t f =>
    if lineBroken (lineOf (troupe s t) f.car.line) then checkLine t f.car.line s else sendFresh port t f s
  | .again t l i f => if lineBroken (lineOf (troupe s t) l) then checkLine t l s else sendAgain port t l i f s

/-- Whether a pick leaves a dim handshake alone. -/
def Pick.ofLink : Pick → Bool
  | .control f => linkFrame f
  | .decline => true
  | _ => false
/-- Whether a pick leaves the port's idle time running: a TICK frame, or a DIM propose, whose answer ends it (log entry
55). -/
def Pick.idles : Pick → Bool
  | .control f => frameType f == 0x89 || (frameType f == 0x87 && bodyField f 3 1 == 0)
  | _ => false

/-- Send a pick: any other frame ends the port's idle time (R248). -/
def sendPick (port : Nat) (p : Pick) (s : State) : State :=
  perform port p (if p.idles then s else modPort s port fun q => { q with idle := 0 })

/-- A failed port sends nothing but TICK frames once it is relit; what is queued for it is lost (R244). -/
def failedSend (port : Nat) (s : State) : State :=
  let n := (s.troupes.map fun e => (sheetFor e.2 port).length).sum
  let tick := if (portOf s port).link == .lit then controlPick s port fun f => frameType f == 0x89 else none
  let lost := s.troupes.findSome? fun e =>
    ((resends e.2).find? fun r => resendPort s e.1 r.2.2 == port).map fun r => (e.1, r)
  match tick, lost with
  | some p, _ => sendPick port p s
  | none, some (t, l, i, f) => sendAgain port t l i f s
  | none, none => if n = 0 then s else portGauge (loseSheet port s) port 21 n

/-- What a lit port sends, a dim handshake considered (R249, R250): before its dark commit point a frame that is ready
declines it; after that point, once it is agreed, frames are held. -/
def litSend (port : Nat) (s : State) : State :=
  let only (f : List Byte) : Bool := if ticksOnly s port then frameType f == 0x89 else linkFrame f
  if ticksOnly s port then
    match controlPick s port only with
    | some p => sendPick port p s
    | none => s
  else match (portOf s port).dim, nextPick s port with
    | _, none => s
    | none, some p => sendPick port p s
    | some (_, _, dark, agreed, _), some p =>
      if p.ofLink then sendPick port p s
      else if ! pastCommitPoint s dark then sendPick port .decline (declineDim port s)
      else if ! agreed then sendPick port p s
      else match controlPick s port only with
        | some k => sendPick port k s
        | none => s

/-- FRAME_SEND (R44–R51): at a frame boundary of a port. -/
def execFrameSend (dt port : Nat) (s0 : State) : Out :=
  let s := passCk dt s0
  let q := portOf s port
  .next (if s.house.ck < q.busy then s
    else if q.failed then failedSend port s
    else if q.link != .lit then s
    else litSend port s)

/-- TICK_REPLY (R245): exactly 2,048 ck after the first byte of the child's frame. -/
def execTickReply (dt port : Nat) (s0 : State) : Out :=
  let s := passCk dt s0
  let q := portOf s port
  .next (if q.link == .lit && q.child && q.replyDue.any (fun a => decide (a + 2048 ≤ s.house.ck)) then
      putOnWire port (tickFrame s port true) (modPort s port fun q => { q with replyDue := none })
    else s)

end Sys2Proof.Machine
end

