-- ==== Sys2Proof/Machine/Tick.lean ====
section
/-! DEFINITION. The pod tick and the TICK frames that align it (R34–R37, R41, R42, R48, R50, R57, R214, R243, R245, R246,
R374, R377, R380, Table 13.3). -/

namespace Sys2Proof.Machine

open Sys2Proof

/-! ### TICK frames that arrive (R245, R246) -/

/-- A round trip of 2.0 µs, in 1/16 ck (R246). -/
def tripLimit : Nat := 57600

/-- The four conditions of R246, as far as they are known: a port on which no reply arrives measures no round trip. -/
def verifies (s : State) (port : Nat) : Bool :=
  let q := portOf s port
  match q.partner, expectedPartner s port with
  | some (src, vid, period), some want =>
    src == want && podOf src == s.house.podNumber && vid == s.house.vid && period == s.house.period
      && q.roundTrip.all fun d => decide (d ≤ tripLimit)
  | _, _ => false

/-- A port fails verification (R246). -/
def miswire (port : Nat) (s : State) : State :=
  let s := modPort s port fun q => { q with miswired := true, verified := false }
  endPortReset port .badArg (record { sub := .portComplex, status := .badArg, detail := port * 2 ^ 9 } s)

/-- A port passes verification; one that had failed and is relit is whole again (R244, R246). -/
def verify (port : Nat) (s : State) : State :=
  endPortReset port .done (modPort s port fun q => { q with verified := true, failed := false })

/-- Judge a port once what R246 asks is known: the pod is set, a wing port has its partner, and the parent port has
measured its round trip, which a partner of another VID and a port of an axis of length 1 need not have (R402). While the house is closed a verified port may still turn out too long. -/
def judgePort (port : Nat) (s : State) : State :=
  let q := portOf s port
  let stranger := q.partner.any fun e => e.2.1 != s.house.vid
  let known := s.house.podSet && (port < 6 || q.expected.isSome) &&
    (s.house.parent != some port || q.roundTrip.isSome || stranger || loneAxis s port)
  if q.miswired || ! known then s
  else if ! q.verified then (if verifies s port then verify port s else miswire port s)
  else if ! s.house.doorsOpen && q.roundTrip.any (fun d => decide (tripLimit < d)) then miswire port s
  else s

/-- Half of an integer, rounded half to even. -/
def halfEven (x : Int) : Int :=
  let k := x.fdiv 2
  if x.emod 2 = 0 || k.emod 2 = 0 then k else k + 1

/-- An integer held between −n and n. -/
def clampTo (n : Nat) (x : Int) : Int := max (- Int.ofNat n) (min (Int.ofNat n) x)

/-- A reply measures the link and the offset, and corrects the next scene (R245): rx is the time of arrival after the own
tick, in 1/16 ck. -/
def takeReply (port : Nat) (rx : Int) (counter since : Nat) (s : State) : State :=
  match (portOf s port).tickTx with
  | none => s
  | some tx =>
    let twice : Int := rx - Int.ofNat tx - 2048 * 16
    let theta : Int := rx - twice.tdiv 2 - Int.ofNat (16 * since)
    let apart : Int := (Int.ofNat counter - Int.ofNat s.house.tick) * Int.ofNat (s.house.period * 28800)
    modHouse (modPort s port fun q => { q with roundTrip := some twice.toNat }) fun h => { h with
      correction := clampTo 1024 (halfEven theta), theta := some (if h.doorsOpen then theta - apart else theta) }

/-- While the house is closed a child takes its parent's counter at its next tick (R245). -/
def takeParent (counter : Nat) (h : House) : House :=
  if h.doorsOpen then h
  else if counter = h.tick then { h with tookCounter := true, takeCounter := none }
  else { h with takeCounter := some (counter + 1) }

/-- What a TICK frame does (R37, R245, R246); `sub` is its arrival beyond the ck, in 1/16 ck. -/
def hearTick (port : Nat) (f : List Byte) (sub : Nat) (s : State) : State :=
  let counter := bodyField f 3 8
  let period := bodyField f 15 2
  let rx := Int.ofNat (16 * (s.house.ck - s.house.sceneStart) + sub) - Int.ofNat s.house.sceneFrac
  let s := modPort s port fun q => { q with partner := some (frameSrc f, frameVid f, period) }
  let s := if bit (bodyField f 2 1) 7 then
      modPort s port fun q => { q with
        child := true, replyDue := some s.house.ck, control := q.control.filter fun f => frameType f != 0x89 }
    else s
  let s := if s.house.parent = some port then modHouse s (takeParent counter) else s
  let s := if s.house.parent = some port && bit (bodyField f 2 1) 6 then takeReply port rx counter (bodyField f 11 4) s
    else s
  let s := judgePort port s
  if s.house.doorsOpen && (portOf s port).verified && counter = s.house.tick && period != s.house.period then
    modHouse s fun h => { h with periodClash := true }
  else s

/-- A TICK frame of another VID arrives on a port that is not verified: check 3 drops it, and what it tells of the partner
is read all the same (R246, log entry 66). -/
def strangeTick (s : State) (port : Nat) (f : List Byte) : Bool :=
  receives s port && checkFrame s f == .vlan && frameType f == 0x89 && ! (portOf s port).verified

/-- The port learns its partner from such a frame, and fails verification on it (R246). -/
def hearStranger (port : Nat) (f : List Byte) (s : State) : State :=
  judgePort port (modPort s port fun q => { q with partner := some (frameSrc f, frameVid f, bodyField f 15 2) })

/-- TICK_RECEIVE (R245, R246). -/
def execTickReceive (dt port : Nat) (frame : List Byte) (sub : Nat) (s0 : State) : Out :=
  let s := arrive .tick dt port frame (hearTick port frame sub) s0
  .next (if strangeTick (passCk dt s0) port frame then hearStranger port frame s else s)

/-! ### The end of a scene (R48, R50, R57) -/

/-- Wire bytes of the frames that draw on a booking and have not been sent (R48). -/
def unsentBooked (tr : Troupe) (b : Nat) : Nat :=
  ((tr.sheet.filter fun f => f.drawn == some (.booking b)).map fun f => f.car.wire).sum

/-- The sums that one booking adds to the gauges of its port (R48, R50). -/
def bookScene (t : Nat) (tr : Troupe) (s : State) (e : Nat × Booking) : State :=
  troupePortGauge (troupePortGauge s t e.2.port 0x18 (unsentBooked tr e.1)) t e.2.port 0x20 (ckNs e.2.paused)

/-- Whether a troupe has best-effort work ready for a port (R57). -/
def bestReady (s : State) (t : Nat) (tr : Troupe) (port : Nat) : Bool :=
  (sheetFor tr port).any (fun f => ! f.booked) ||
    (resendsOn s t tr port).any fun e => ! e.2.2.booked

/-- The gauges of group 6 as a tick rewrites them (Table 14.3). -/
def bookingGauges (tr : Troupe) : Tab Nat :=
  tr.bookings.foldl (fun g e =>
    gaugePlus (gaugePlus g (0x800 + 16 * e.1) (ckNs e.2.paused)) (0x808 + 16 * e.1) (unsentBooked tr e.1))
    (tr.gauges.filter fun e => gaugeGroup e.1 != 6)

/-- A troupe's unsent booked frames become carry-over, and its group 6 is rewritten. -/
def carryScene (tr : Troupe) : Troupe :=
  { tr with
    bookings := tr.bookings.map fun e => (e.1, { e.2 with carried := unsentBooked tr e.1 })
    sheet := tr.sheet.map fun f => if f.booked then { f with carry := true } else f
    gauges := bookingGauges tr }

/-- The end of a scene for troupe t: the records that it leaves (R89), its carry-over and its gauges. -/
def closeScene (t : Nat) (s : State) : State :=
  let s := closeElements t s
  let tr := troupe s t
  let s := tr.bookings.foldl (bookScene t tr) s
  let s := (List.range 8).foldl (fun s p => if bestReady s t tr p then troupePortGauge s t p 0x28 1 else s) s
  modTroupe s t carryScene

/-! ### The tick of the house -/

/-- The drift counts of R37 from the offset measured in the scene: ±1 µs is 28,800 and ±40 ns is 1,152 sixteenths of a
ck. A scene without a reply leaves the counts. -/
def countDrift (h : House) : House :=
  match h.theta with
  | none => h
  | some x =>
    { h with
      theta := none
      ticksOut := if 28800 < x.natAbs then h.ticksOut + 1 else 0
      ticksIn := if x.natAbs ≤ 1152 then h.ticksIn + 1 else 0 }

/-- From the ck of this tick to the next tick, in 1/16 ck: the period, the correction, and this tick's place beyond its ck
(R245). -/
def length16 (period : Nat) (h : House) : Int := Int.ofNat (period * 28800 + h.sceneRest) + h.correction

/-- The counter, the scene, and the house settings that take effect at a tick. -/
def tickHouse (h0 : House) : House :=
  let h := countDrift h0
  let n := h.takeCounter.getD (h.tick + 1)
  let due := h.pendingPeriod.filter fun e => decide (e.2 ≤ n)
  let period := (due.map (·.1)).getD h.period
  let parent := h.pendingParent.getD h.parent
  let test := h.pendingTest.getD (h.rehearsal, h.slack)
  { h with
    tick := n, tookCounter := (h.tookCounter || h.takeCounter.isSome) && parent == h.parent, takeCounter := none
    period := period, pendingPeriod := if due.isSome then none else h.pendingPeriod
    sceneStart := h.ck, sceneFrac := h.sceneRest
    sceneLength := (length16 period h / 16).toNat, sceneRest := (length16 period h % 16).toNat, correction := 0
    parent := parent, pendingParent := none
    pitShare := h.pendingShare.getD h.pitShare, pendingShare := none
    rehearsal := test.1, slack := test.2, pendingTest := none
    silentTicks := if h.fwUp && h.servedInTick = 0 then h.silentTicks + 1 else 0
    servedInTick := 0, knocksInTick := 0 }

/-- The PC registers of the house page whose stored pair is broken, by offset. -/
def brokenHouse (l : ErrorLog) : List Nat :=
  (if pcWhole l.read then [] else [0x30]) ++ if pcWhole l.cue then [] else [0x40]

/-- The prompter finds the broken PC registers of the house page: one record each until the house writes them again
(R351, Table 13.3). -/
def judgeHouse (s : State) : State :=
  let fresh := (brokenHouse s.log).filter fun o => ! s.log.pcFound.contains o
  fresh.foldl (fun s o => record { sub := .prompter, status := .integrity, address := o } s)
    { s with log := { s.log with pcFound := fresh ++ s.log.pcFound } }

/-- Where a record stands among those of its ck: subsystem id, pit or port number, troupe (R360, Table 13.10). -/
def ErrRec.rank (r : ErrRec) : Nat :=
  let unit := match r.sub with
    | .pits => bits r.detail.toNat 0 3
    | .coachbuilder | .portComplex => bits r.detail.toNat 9 3
    | _ => 0
  (subsystemId r.sub * 8 + unit) * 64 + r.troupe

/-- Insert a record among ranked ones, after those of its rank. -/
def insertRecord (r : ErrRec) : List ErrRec → List ErrRec
  | [] => [r]
  | x :: rest => if r.rank < x.rank then r :: x :: rest else x :: insertRecord r rest

/-- The records of the log from an index on, in the order of their indices. -/
def recordsFrom (from_ : BitVec 32) (l : ErrorLog) : List ErrRec :=
  (List.range (l.write - from_).toNat).filterMap fun k => tabGet l.records ((from_ + BitVec.ofNat 32 k).toNat % 256)

/-- The page of a troupe after the records of a ck have taken their order: its latest record and its fencing record. -/
def reindexed (t : Nat) (new : List (ErrRec × ErrRec)) (tr : Troupe) : Troupe :=
  { tr with
    lastError := ((new.filter fun e => ! e.2.chipWide && e.2.troupe == t).getLast?.map (·.2)).or tr.lastError
    fenceIndex := ((new.find? fun e => e.1.index == tr.fenceIndex && e.1.troupe == t && tr.fence.isSome).map (·.2.index)).getD
      tr.fenceIndex }

/-- The records of a tick's own ck, from an index on, take their indices by subsystem, pit or port, and troupe (R360, log
entry 56). -/
def orderRecords (from_ : BitVec 32) (s : State) : State :=
  let sorted := (recordsFrom from_ s.log).foldl (fun a r => insertRecord r a) []
  let new := sorted.zipIdx.map fun e => (e.1, { e.1 with index := from_ + BitVec.ofNat 32 e.2 })
  { s with
    log := { s.log with records := new.foldl (fun t e => tabPut t (e.2.index.toNat % 256) e.2) s.log.records }
    troupes := (s.troupes.map fun e => (e.1, reindexed e.1 new e.2) : Tab Troupe) }

/-- The limits of a tick on records start anew (R166, R236, R347, R360, R399). -/
def tickLog (l : ErrorLog) : ErrorLog :=
  { l with inTick := 0, accessSeen := [], portSeen := [], placeSeen := [], overflowSeen := [] }

/-- A unit at a tick (R374, R377): dark, or clear again. -/
def tickUnit (r : UnitRec) : UnitRec :=
  { r with
    dark := r.fused || r.stopping || (r.dark && ! r.clearing)
    stopping := false, clearing := false, failed := false, spent := 0 }

/-- Whether both packers are dark. -/
def packersDark (s : State) : Bool := unitDark s 22 && unitDark s 23

/-- The units at a tick: what has failed goes dark with its record, a return that passed completes, and two dark packers
give one record (R372, R375, R377). -/
def tickUnits (s0 : State) : State :=
  let failed := (s0.house.units.filter fun e => e.2.failed).map (·.1)
  let passed := (s0.house.units.filter fun e => e.2.clearing && e.2.testing == some true).map (·.1)
  let s := modHouse s0 fun h => { h with units := (h.units.map fun e => (e.1, tickUnit e.2) : Tab UnitRec) }
  let s := failed.foldl (fun s u => failureTold u s) s
  let s := passed.foldl (fun s u => endTest u true s) s
  if packersDark s && ! packersDark s0 then record { sub := .coachbuilder, status := .closed } s else s

/-- The deferred HOUSE_PIT_RESETs complete (R144). -/
def endPitResets (s : State) : State :=
  let ended := s.deferred.filter fun d => match d.awaits with
    | .pitReset _ => true
    | _ => false
  run (ended.map fun d => .complete d.issuer d.slot .done []) s

/-- The gauges as they stand at the tick (R380). -/
def snapGauges (s : State) : State :=
  let tabs : Tab Troupe := s.troupes.map fun e => (e.1, { e.2 with tickGauges := e.2.gauges })
  { s with troupes := tabs, house := { s.house with tickGauges := tabPut s.house.gauges 0x2C00 (unitStatus s) } }

/-- A port at a tick: settings that pend, counts of the tick, and a dim handshake that ran out un-agreed (R249). The spec
does not say whether the rounds of R44 and R47 start anew with a scene: the model carries `turn`, `bestTurn` and the
deficits over from scene to scene (log entry 102). -/
def tickPort (tick : Nat) (q : Port) : Port :=
  let set := q.pendingSet.getD (q.ceiling, q.transit, q.dimDelay)
  { q with
    ceiling := set.1, transit := set.2.1, dimDelay := set.2.2, pendingSet := none
    dropped := 0, relayed := 0, idle := q.idle + 1, tickTx := none
    dim := q.dim.filter fun d => d.2.2.2.1 || decide (tick ≤ d.2.2.1) }

/-- The ports at a tick: a dark one counts the tick (Table 14.4), and a lit one that is no child port has its TICK frame
ready before every other frame (R245). -/
def tickPorts (s : State) : State :=
  let s := (s.ports.filter fun e => e.2.link == .dark).foldl (fun s e => portGauge s e.1 29 1) s
  let ready (e : Nat × Port) : Port :=
    let q := tickPort s.house.tick e.2
    if q.link == .lit && ! q.child then
      { q with control := tickFrame s e.1 false :: q.control.filter fun f => frameType f != 0x89 }
    else q
  { s with ports := (s.ports.map fun e => (e.1, ready e) : Tab Port) }

/-- The switch of a slice's banks at its tick (R242, R243). -/
def tickSlice (tick : Nat) (sl : Slice) : Slice :=
  match sl.commit with
  | none => sl
  | some (epoch, margin, mask, at_) =>
    if tick < at_ then sl
    else { sl with active := ! sl.active, epoch := epoch, margin := margin, mask := mask, commit := none
                   draining := some tick }

/-- Every slice record at a tick. -/
def tickSlices (s : State) : State :=
  { s with slices := (s.slices.map fun e => (e.1, tickSlice s.house.tick e.2) : Tab Slice) }

/-! ### The tick of a troupe -/

/-- A change of a booking that has been served takes effect (R41). -/
def Booking.changeTo (b : Booking) (c : BookChange) : Booking :=
  { b with port := c.port, cls := c.cls, bytes := Pair.of c.bytes, start := c.start, stop := c.stop, broken := false }

/-- A booking as the scene of a tick opens: every change that is due, in its order (R41, R42, R58). -/
def openBooking (tick : Nat) (b0 : Booking) : Booking :=
  let b := { (b0.changes.filter fun c => decide (c.at_ ≤ tick)).foldl Booking.changeTo b0 with
    changes := b0.changes.filter fun c => decide (tick < c.at_) }
  let serves := decide (b.start ≤ tick) && (b.stop == 0 || decide (tick < b.stop))
  { b with left := if serves && ! b.suspended && whole b.bytes then b.bytes.val else 0, paused := 0 }

/-- One record of a broken word of the stage manager (R42, Table 13.3). -/
def stageRecord (t kind index : Nat) (s : State) : State :=
  record { sub := .stageManager, status := .integrity, who := some t, address := place t kind index } s

/-- The scene of a tick opens for troupe t's bookings, and for the carry-over that draws on them (R48); a broken booking is
recorded once (R42). -/
def openScene (t : Nat) (s : State) : State :=
  let s := modTroupe s t fun tr =>
    let new : Troupe := { tr with bookings := (tr.bookings.map fun (e : Nat × Booking) => (e.1, openBooking s.house.tick e.2) : Tab Booking) }
    { new with sheet := tr.sheet.map (rebook tr new) }
  let found := ((troupe s t).bookings.filter fun e => ! whole e.2.bytes && ! e.2.broken).map (·.1)
  found.foldl (fun s b => stageRecord t kindBooking b
    (modTroupe s t fun tr => { tr with bookings := tabMod tr.bookings b fun k => { k with broken := true } })) s

/-- The broken grant and shaper words of a troupe: kind and port. -/
def brokenStage (tr : Troupe) : List (Nat × Nat) :=
  ((tr.grants.filter fun e => ! whole e.2).map fun e => (kindGrant, e.1)) ++
    (tr.shapers.filter fun e => ! e.2.isWhole).map fun e => (kindShaper, e.1)

/-- A shaper at a tick that finds it broken: refilled up to the tick, and without a rate from there on (Table 13.3). -/
def judgeShaper (now : Nat) (sh : Shaper) : Shaper :=
  if sh.isWhole || sh.found then sh else { refill sh now with found := true }

/-- The stage manager finds broken grant and shaper words (Table 13.3): one record each until they are rewritten. -/
def judgeStage (t : Nat) (s : State) : State :=
  let found := brokenStage (troupe s t)
  let fresh := found.filter fun w => ! (troupe s t).brokenWords.contains w
  fresh.foldl (fun s w => stageRecord t w.1 w.2 s) (modTroupe s t fun tr =>
    { tr with shapers := (tr.shapers.map fun e => (e.1, judgeShaper s.house.ck e.2) : Tab Shaper), brokenWords := found ++ tr.brokenWords.filter fun w =>
        w.1 == kindOpt && (brokenParams tr w.2).any fun b => b == w })

/-- The update sequencer finds a broken step state word: the troupe is fenced (Table 13.3). -/
def judgeTroupe (t : Nat) (s : State) : State :=
  if ! takesRings (troupe s t) then s
  else match (lastStep (troupe s t)).filter fun r => ! whole r.state with
    | none => s
    | some r => fault { sub := .updateSequencer, status := .integrity, who := some t
                        address := place t kindStep r.num } (some 1) s

/-- The steps whose commit tick has come (R19, R259). -/
def dueSteps (tick : Nat) (tr : Troupe) : List Nat :=
  (tr.steps.filter fun e => e.2.state.val == .exchanged && decide (e.2.commitTick ≤ tick)).map (·.1)

/-- The acknowledgements of a tick (R214). -/
def tickAcks (t : Nat) (s : State) : State :=
  let due : List (Nat × Nat) := (troupe s t).lines.flatMap fun e =>
    if e.2.state.val == .opened || e.2.state.val == .closing then
      (e.2.peers.zipIdx.filter fun p => p.1.unacked != 0).map fun p => (e.1, p.2)
    else []
  due.foldl (fun s k => sendAck t k.1 k.2 s) s

/-- What waited in a troupe's buckets for a unit that the tick brings back goes on (R370, R375). -/
def settleAll (t : Nat) (s : State) : State :=
  (troupe s t).graph.foldl (fun s e => settleFallback t e.1 s) s

/-- The tick of troupe t: the understudy's flip and the commit-tick actions, what waited for them, its scene, its cue
sheet, its acknowledgements and its round. -/
def tickTroupe (t : Nat) (s : State) : State :=
  let s := settleAll t (flipDue t s)
  let s := (dueSteps s.house.tick (troupe s t)).foldl (fun s n => applyOutcome t n s) s
  let s := serveHeld t (checkTroupe t (settleResync t (resetStep t s)))
  let s := judgeTroupe t (judgeStage t (openScene t s))
  tickRound t (tickAcks t (trickleStep t (standStep t (resyncStep t (encoreStep t (enterAll t s))))))

/-! ### TICK -/

/-- Let the scene run out: the tick lies one scene after the last (R34, R245). -/
def runOut (s : State) : State := passCk (s.house.sceneStart + s.house.sceneLength - s.house.ck) s

/-- Do something for every troupe in ascending number. -/
def eachTroupe (f : Nat → State → State) (s : State) : State := (troupeNumbers s).foldl (fun s t => f t s) s

/-- The tick of a block that is not being reset. -/
def tickBlock (s : State) : State :=
  let s := eachTroupe closeScene s
  let from_ := s.log.write
  let s := { s with house := tickHouse s.house, log := tickLog s.log }
  let s := snapGauges (tickUnits (judgeHouse s))
  orderRecords from_ (eachTroupe tickTroupe (endPitResets (tickPorts (tickSlices s))))

/-- TICK (R34): the end of one scene and the start of the next; a house reset takes effect in its place (R336). -/
def execTick (s0 : State) : Out :=
  let s := runOut s0
  .next (if s.house.resetDue then resetBlock false s else tickBlock s)

end Sys2Proof.Machine
end

