-- ==== Sys2Proof/Machine/Window.lean ====
section
/-! DEFINITION. The register window: the checks of Table 13.2, doorbells, the error log's pointers and the complement
check (R319, R320, R326, R342–R348, R353–R357, R362). -/

namespace Sys2Proof.Machine

open Sys2Proof

/-- Where an offset lies (Table 13.1): the region, and the offset in it. -/
inductive Place where
  | reserved | hole
  | house (off : Nat) | log (off : Nat) | check (off : Nat)
  | page (t off : Nat) | gauges (t off : Nat)
  deriving DecidableEq, Repr

/-- The region of a window offset. -/
def placeOf (off : Nat) : Place :=
  if off < 0x10000 then .house off
  else if off < 0x14000 then .log (off - 0x10000)
  else if off < 0x14020 then .check (off - 0x14000)
  else if off < 0x20000 then .hole
  else if off < 0x100000 then .reserved
  else if off < 0x200000 then .page ((off - 0x100000) / 0x4000) (off % 0x4000)
  else if off < 0x300000 then .gauges ((off - 0x200000) / 0x4000) (off % 0x4000)
  else .reserved

/-- The subsystem that records a refused access (Table 13.1). -/
def Place.sub : Place → Subsystem
  | .check _ => .ledger
  | .gauges _ _ => .rehearsal
  | .page _ off => if off / 8 * 8 = 0x2008 then .callDesk else .prompter
  | _ => .prompter

/-- Whether a tag may reach a region (R344). -/
def mayReach (tag : Nat) : Place → Bool
  | .page t _ | .gauges t _ => tag == 0 || t == tag
  | _ => tag == 0

/-- The register that an access names, as it reads; none at a reserved offset and outside the registers. -/
def registerWord (s : State) : Place → Option Nat
  | .house off => houseWord s (off / 8 * 8)
  | .check off => checkWord s (off / 8 * 8)
  | .page t off => troupeWord s t (off / 8 * 8)
  | _ => none

/-- Whether the register is paired-complement (Tables 13.5, 13.7, 13.11). -/
def Place.pc : Place → Bool
  | .house off => off / 8 * 8 == 0x30 || off / 8 * 8 == 0x40
  | .check off => off / 8 * 8 == 0x08
  | .page _ off => off / 8 * 8 == 0x2000 || off / 8 * 8 == 0x2008
  | _ => false

/-- Whether software may write the register. -/
def Place.writable : Place → Bool
  | .check off => off / 8 * 8 == 0x00 || off / 8 * 8 == 0x08
  | p => p.pc

/-- The reserved bits of a writable register's value. -/
def Place.reservedBits : Place → BitVec 64
  | .house off => if off / 8 * 8 = 0x40 then 0xFFFF7C00 else 0
  | .check off => if off / 8 * 8 = 0x08 then 0xFFE00000 else 7
  | .page _ off => if off / 8 * 8 = 0x2008 then 0xE0000000 else 0
  | _ => 0

/-- An access of natural size and alignment. -/
def isNatural (a : Access) : Bool := [1, 2, 4, 8].contains a.size && a.offset % a.size == 0
/-- A burst: 16 to 64 B of whole 8-B words from an 8-B boundary (R345). -/
def isBurst (a : Access) : Bool := inRange 16 64 a.size && a.size % 8 == 0 && a.offset % 8 == 0
/-- Whether an access stays within a unit of n bytes. -/
def staysIn (a : Access) (n : Nat) : Bool := a.offset / n == (a.offset + a.size - 1) / n

/-- A refusal: the fabric response, its status, and whether it is recorded. -/
structure Denial where
  reply    : Reply
  status   : Status
  recorded : Bool := true
  deriving DecidableEq, Repr

/-- Refused, with a record. -/
def denied (st : Status) : Option Denial := some { reply := .refused, status := st }

/-- Check 3: size and alignment (R345). -/
def sizeDenial (s : State) (a : Access) (write : Bool) (p : Place) : Option Denial :=
  match p with
  | .log _ => if isNatural a || (isBurst a && staysIn a 64) then none else denied .badArg
  | .gauges _ _ => if isNatural a || (isBurst a && staysIn a 0x4000) then none else denied .badArg
  | .page _ off =>
    if off < 0x2000 then (if isNatural a || (isBurst a && staysIn a 256) then none else denied .badArg)
    else if ! isNatural a then denied .badArg
    else if write && a.size != 8 && (registerWord s p).isSome then denied (if p.pc then .refusedPc else .badArg)
    else none
  | _ =>
    if ! isNatural a then denied .badArg
    else if write && a.size != 8 && (registerWord s p).isSome then denied (if p.pc then .refusedPc else .badArg)
    else none

/-- Check 4: a write to what is read only. -/
def accessDenial (s : State) (p : Place) : Option Denial :=
  match p with
  | .log _ | .gauges _ _ => denied .badArg
  | _ => if (registerWord s p).isSome && ! p.writable then denied .badArg else none

/-- A write to a doorbell of an ABSENT troupe, of any size (R353). -/
def absentDenial (s : State) (p : Place) : Option Denial :=
  match p with
  | .page t _ =>
    if p.pc && (troupe s t).life == .absent then some { reply := .refused, status := .state, recorded := false } else none
  | _ => none

/-- Check 5: doorbells before Nimlia is up or while it is stalled; a scan that runs. -/
def stateDenial (s : State) (p : Place) : Option Denial :=
  match p with
  | .page _ off =>
    if ! p.pc then none
    else if ! s.house.fwUp || (s.house.stalled && off / 8 * 8 == 0x2000) then
      some { reply := .refused, status := .state, recorded := false }
    else none
  | .check off => if off / 8 * 8 == 0x08 && s.check.busy then denied .state else none
  | _ => none

/-- The 64-bit value of a write. -/
def wordOf (a : Access) : BitVec 64 := BitVec.ofNat 64 (field a.data 0 8)

/-- Check 6: complement and reserved bits. -/
def valueDenial (a : Access) (p : Place) : Option Denial :=
  if p.pc && ! pcWhole (wordOf a) then denied .refusedPc
  else if p.writable && wordOf a &&& p.reservedBits != 0 then denied .badArg
  else none

/-- The first of checks 1 to 6 that fails (Table 13.2). -/
def denial (s : State) (a : Access) (write : Bool) : Option Denial :=
  let p := placeOf a.offset
  if p = .reserved then some { reply := .noTarget, status := .noTarget }
  else if ! mayReach a.tag p then denied .notOwner
  else
    (if write then absentDenial s p else none).orElse fun _ => (sizeDenial s a write p).orElse fun _ =>
      if ! write then none
      else (accessDenial s p).orElse fun _ => (stateDenial s p).orElse fun _ => valueDenial a p

/-- The fabric response to the last access (R348). -/
def respond (r : Reply) (data : List Byte) (s : State) : State := modHouse s fun h => { h with reply := some (r, data) }

/-- Set RING_STATUS after a refused ring-doorbell write (R356). -/
def ringRefused (t ring : Nat) (st : Status) (s : State) : State :=
  modTroupe s t fun tr => { tr with ringStatus := (some st, ring, capAt 0xFFFFFFFF (tr.ringStatus.2.2 + 1)) }

/-- The ring that a refused ring-doorbell write names: that of an 8-B write whose halves complement (R356). -/
def namedRing (a : Access) : Nat :=
  if a.size = 8 && pcWhole (wordOf a) then bits (field a.data 0 8) 17 12 else 0xFFF

/-- One record of a refused access, at most one per tag and status in a tick (R347). -/
def accessRecord (r : Rec) (s : State) : State :=
  let key := (r.who.getD 0, r.status)
  if s.log.accessSeen.contains key then suppress s
  else record r { s with log := { s.log with accessSeen := key :: s.log.accessSeen } }

/-- The record of a refused access (R347, R359). -/
def accessRec (a : Access) (write : Bool) (st : Status) : Rec :=
  { sub := (placeOf a.offset).sub, status := st, who := some a.tag, address := a.offset
    detail := a.size % 16 + bitOf write * 16 + a.tag % 64 * 32 }

/-- Refuse an access: nothing changes but its record, its gauge and RING_STATUS. -/
def refuseAccess (a : Access) (write : Bool) (d : Denial) (s : State) : State :=
  let s := gauge s a.tag 0x520 1
  let s := if d.recorded then accessRecord (accessRec a write d.status) s else s
  let s := match placeOf a.offset with
    | .page t off =>
      if write && d.recorded && d.status != .notOwner && off / 8 * 8 == 0x2008 then
        ringRefused t (namedRing a) d.status s
      else s
    | _ => s
  respond d.reply [] s

/-- A write that checks 1 to 6 judge: what `k` does if they pass. -/
def judged (a : Access) (k : State → State) (s : State) : State :=
  match denial s a true with
  | some d => refuseAccess a true d s
  | none => k s

/-- Whether a write is aimed at an 8-B register of a troupe page. -/
def aimsAt (a : Access) (off : Nat) : Option Nat :=
  match placeOf a.offset with
  | .page t o => if o / 8 * 8 = off then some t else none
  | _ => none

/-! ### CALL_DOORBELL (R319, R320, R354) -/

/-- Post one slot: it arrives in this tick with its bytes 0–191 copied; one not completed is ignored as busy. -/
def postSlot (t slot : Nat) (s : State) : State :=
  let tr := troupe s t
  if (tabGet tr.posted slot).isSome then gauge s t 0x510 1
  else
    let image := memRead tr.board (256 * slot) 192
    modTroupe s t fun tr => { tr with posted := tabPut tr.posted slot { image := image, arrived := s.house.tick } }

/-- CALL_DOORBELL. -/
def execCallDoorbell (a : Access) (s0 : State) : Out :=
  let s := passCk a.dt s0
  .next (match aimsAt a 0x2000 with
    | none => s
    | some t => judged a (fun s =>
        respond .done [] (((List.range 32).filter fun k => (wordOf a).getLsbD k).foldl (fun s k => postSlot t k s) s)) s)

/-! ### RING_DOORBELL (R326, R355, R356) -/

/-- The full tail that 17 bits name (R355). -/
def fullTail (t0 : BitVec 32) (low : Nat) : BitVec 32 :=
  t0 + BitVec.ofNat 32 ((low + 2 ^ 17 - t0.toNat % 2 ^ 17) % 2 ^ 17)

/-- A ring doorbell that its own rule refuses: gauge, RING_STATUS, response. -/
def ringDenied (a : Access) (t ring : Nat) (r : Reply) (st : Status) (s : State) : State :=
  respond r [] (ringRefused t ring st (gauge s a.tag 0x520 1))

/-- Judge a new tail against its ring (R326). -/
def ringWrite (a : Access) (t : Nat) (s : State) : State :=
  let ring := bits (pcVal (wordOf a)) 17 12
  match tabGet (troupe s t).rings ring with
  | none =>
    ringDenied a t ring .noTarget .noTarget
      (accessRecord { sub := .callDesk, status := .noTarget, who := some a.tag, address := a.offset, detail := ring } s)
  | some r =>
    let tail := fullTail r.tail.val (bits (pcVal (wordOf a)) 0 17)
    let rec_ (st : Status) : Rec :=
      { sub := .callDesk, status := st, who := some t, address := a.offset, detail := ring + tail.toNat * 2 ^ 16 }
    if ! (whole r.head && whole r.tail) then ringDenied a t ring .refused .integrity (fault (rec_ .integrity) none s)
    else if r.depth < (tail - r.tail.val).toNat then ringDenied a t ring .refused .ringFull (fault (rec_ .ringFull) none s)
    else if r.depth < (tail - r.head.val).toNat then ringDenied a t ring .refused .ringFull (gauge s t 0x518 1)
    else respond .done [] (modTroupe s t fun tr => { tr with rings := tabPut tr.rings ring { r with tail := Pair.of tail } })

/-- RING_DOORBELL. -/
def execRingDoorbell (a : Access) (s0 : State) : Out :=
  let s := passCk a.dt s0
  .next (match aimsAt a 0x2008 with
    | none => s
    | some t => judged a (ringWrite a t) s)

/-! ### ERR_READ, the check window and the other registers (R346, R357, R362) -/

/-- ERR_READ (R357): from the current ERR_READ to ERR_WRITE, modulo 2^32. -/
def execErrRead (a : Access) (s0 : State) : Out :=
  let s := passCk a.dt s0
  .next (if placeOf (a.offset / 8 * 8) != .house 0x30 then s
    else judged a (fun s =>
      let rd := errReadVal s.log
      if s.log.write - rd < BitVec.ofNat 32 (pcVal (wordOf a)) - rd then
        refuseAccess a true { reply := .refused, status := .badArg } s
      else respond .done [] { s with log := { s.log with read := wordOf a, pcFound := s.log.pcFound.erase 0x30 } }) s)

/-- CHK_CTRL (R362): start a scan of COUNT words. -/
def execChkCtrl (a : Access) (s0 : State) : Out :=
  let s := passCk a.dt s0
  .next (if placeOf (a.offset / 8 * 8) != .check 0x08 then s
    else judged a (fun s =>
      if ! inRange 1 (2 ^ 20) (pcVal (wordOf a)) then refuseAccess a true { reply := .refused, status := .badArg } s
      else respond .done [] { s with check := { s.check with ctrl := wordOf a, busy := true, finished := false } }) s)

/-- The addresses of the words of a scan. -/
def scanned (s : State) : List Nat :=
  (List.range (pcVal s.check.ctrl % 2 ^ 21)).map fun k => (s.check.base.toNat + 8 * k) % 2 ^ 64

/-- The addresses of the broken words of a scan, which finds the engine's own pairs too (R328, R362). -/
def brokenWords (s : State) : List Nat := (scanned s).filter fun a => ! pcWhole (BitVec.ofNat 64 (leNat (hbmRead s a 8)))

/-- CHECK_SCAN_END (R362): every word is read in the share of the pit that holds it. -/
def execCheckScanEnd (dt : Nat) (s0 : State) : Out :=
  let s := passCk dt s0
  .next (if ! s.check.busy then s
    else
      let bad := brokenWords s
      let s := (scanned s).foldl (fun s a => spendShare (Config.pitAt a % max 1 s.house.pits) 8 s) s
      let s := { s with check := { s.check with
        busy := false, finished := true, broken := bad.length, first := BitVec.ofNat 64 (bad.headD 0) } }
      match bad with
      | [] => s
      | a :: _ => record { sub := .ledger, status := .integrity, address := a, detail := bad.length } s)

/-- Whether a row of its own takes a write to this place. -/
def ownRow (p : Place) : Bool :=
  match p with
  | .house off => off / 8 * 8 == 0x30
  | .check off => off / 8 * 8 == 0x08
  | .page _ off => off / 8 * 8 == 0x2000 || off / 8 * 8 == 0x2008
  | _ => false

/-- What a write that passed does to a slot, ERR_CUE or CHK_BASE; at a reserved offset it is ignored (R345). -/
def plainWrite (a : Access) (s : State) : State :=
  match placeOf a.offset with
  | .page t off =>
    if off < 0x2000 then modTroupe s t fun tr => { tr with board := memWrite tr.board off (slice a.data 0 a.size) } else s
  | .house off => if off / 8 * 8 = 0x40 then
      { s with log := { s.log with cue := wordOf a, pcFound := s.log.pcFound.erase 0x40 } } else s
  | .check off => if off / 8 * 8 = 0x00 then { s with check := { s.check with base := wordOf a } } else s
  | _ => s

/-- REGISTER_WRITE (R346). -/
def execRegisterWrite (a : Access) (s0 : State) : Out :=
  let s := passCk a.dt s0
  .next (if ownRow (placeOf a.offset) then s
    else judged a (fun s => respond .done [] (plainWrite a s)) s)

/-- The bytes that a read returns; 0 at a reserved offset (R345). -/
def readBytes (s : State) (a : Access) : List Byte :=
  match placeOf a.offset with
  | .log off => logBytes s off a.size
  | .gauges t off => gaugeBytes s (troupe s t).gauges s.house.gauges t off a.size
  | .page t off =>
    if off < 0x2000 then memRead (troupe s t).board off a.size
    else slice (leBytes 8 ((registerWord s (.page t off)).getD 0)) (off % 8) a.size
  | p => slice (leBytes 8 ((registerWord s p).getD 0)) (a.offset % 8) a.size

/-- WINDOW_ACCESS_REFUSED (R347): a read, judged by checks 1 to 3; one that passes returns its bytes. -/
def execWindowAccessRefused (a : Access) (s0 : State) : Out :=
  let s := passCk a.dt s0
  .next (match denial s a false with
    | some d => refuseAccess a false d s
    | none => respond .done (readBytes s a) s)

end Sys2Proof.Machine
end

