-- ==== Sys2Proof/Machine/Dispatch.lean ====
section
/-! DEFINITION. What each command does: one arm per constructor of Instr, one call of its meaning. -/

namespace Sys2Proof.Machine

open Sys2Proof

def exec (i : Instr) (s : State) : Host.Outcome State Fault Refusal :=
  match i with
  | .houseTickSet p period effective => Sys2Proof.Machine.execHouseTickSet p period effective s
  | .houseTickTree p parent => Sys2Proof.Machine.execHouseTickTree p parent s
  | .housePodSet p pod lx ly lz vid => Sys2Proof.Machine.execHousePodSet p pod lx ly lz vid s
  | .houseWingSet p port partner => Sys2Proof.Machine.execHouseWingSet p port partner s
  | .housePortSet p port ceiling transit dimDelay => Sys2Proof.Machine.execHousePortSet p port ceiling transit dimDelay s
  | .houseShaperSet p port rate cap => Sys2Proof.Machine.execHouseShaperSet p port rate cap s
  | .houseGrant p port grant => Sys2Proof.Machine.execHouseGrant p port grant s
  | .housePitShare p percent => Sys2Proof.Machine.execHousePitShare p percent s
  | .houseSliceSet p record x0 y0 z0 ex ey ez => Sys2Proof.Machine.execHouseSliceSet p record x0 y0 z0 ex ey ez s
  | .houseRouteFill p record => Sys2Proof.Machine.execHouseRouteFill p record s
  | .houseRouteSet p record count items => Sys2Proof.Machine.execHouseRouteSet p record count items s
  | .houseRouteCommit p record epoch margin mask effective => Sys2Proof.Machine.execHouseRouteCommit p record epoch margin mask effective s
  | .houseBind p first count => Sys2Proof.Machine.execHouseBind p first count s
  | .houseDispatch p flags => Sys2Proof.Machine.execHouseDispatch p flags s
  | .housePortReset p port => Sys2Proof.Machine.execHousePortReset p port s
  | .housePitReset p pit => Sys2Proof.Machine.execHousePitReset p pit s
  | .houseReset p => Sys2Proof.Machine.execHouseReset p s
  | .troupeCreate p flags bases lens => Sys2Proof.Machine.execTroupeCreate p flags bases lens s
  | .troupeDelete p => Sys2Proof.Machine.execTroupeDelete p s
  | .troupeMode p flags => Sys2Proof.Machine.execTroupeMode p flags s
  | .troupeClass p flags => Sys2Proof.Machine.execTroupeClass p flags s
  | .troupeCarousel p entry count n own lines members => Sys2Proof.Machine.execTroupeCarousel p entry count n own lines members s
  | .troupeIntermission p => Sys2Proof.Machine.execTroupeIntermission p s
  | .troupeResume p => Sys2Proof.Machine.execTroupeResume p s
  | .troupeReset p => Sys2Proof.Machine.execTroupeReset p s
  | .troupeState p => Sys2Proof.Machine.execTroupeState p s
  | .billAdd p count entries => Sys2Proof.Machine.execBillAdd p count entries s
  | .billSet p count entries => Sys2Proof.Machine.execBillSet p count entries s
  | .billRemove p count ids => Sys2Proof.Machine.execBillRemove p count ids s
  | .billRead p tensor => Sys2Proof.Machine.execBillRead p tensor s
  | .billBucket p bucket cls selection carousel flags => Sys2Proof.Machine.execBillBucket p bucket cls selection carousel flags s
  | .billArena p arena slots base => Sys2Proof.Machine.execBillArena p arena slots base s
  | .billSeal p => Sys2Proof.Machine.execBillSeal p s
  | .sealComplete dt t => Sys2Proof.Machine.execSealComplete dt t s
  | .billSieve p bucket density crossover effective => Sys2Proof.Machine.execBillSieve p bucket density crossover effective s
  | .billScale p tensor headroom length returnCount effective => Sys2Proof.Machine.execBillScale p tensor headroom length returnCount effective s
  | .bookSet p booking port cls bytes start stop => Sys2Proof.Machine.execBookSet p booking port cls bytes start stop s
  | .bookClear p booking => Sys2Proof.Machine.execBookClear p booking s
  | .bookRead p booking => Sys2Proof.Machine.execBookRead p booking s
  | .lineOpen p line flags n peer remoteBase remoteLen localBase localLen payload share => Sys2Proof.Machine.execLineOpen p line flags n peer remoteBase remoteLen localBase localLen payload share s
  | .lineSet p line mask peer remoteBase remoteLen localBase localLen payload share => Sys2Proof.Machine.execLineSet p line mask peer remoteBase remoteLen localBase localLen payload share s
  | .lineReset p line => Sys2Proof.Machine.execLineReset p line s
  | .lineClose p line => Sys2Proof.Machine.execLineClose p line s
  | .lineState p line dest => Sys2Proof.Machine.execLineState p line dest s
  | .lineArea p mib => Sys2Proof.Machine.execLineArea p mib s
  | .ringCreate p ring kind depth binding port booking base spaceCue => Sys2Proof.Machine.execRingCreate p ring kind depth binding port booking base spaceCue s
  | .ringDelete p ring => Sys2Proof.Machine.execRingDelete p ring s
  | .ringState p ring => Sys2Proof.Machine.execRingState p ring s
  | .cueCreate p cue initial => Sys2Proof.Machine.execCueCreate p cue initial s
  | .cueDelete p cue => Sys2Proof.Machine.execCueDelete p cue s
  | .cueAdd p cue increment => Sys2Proof.Machine.execCueAdd p cue increment s
  | .cueWait p cue threshold timeout notify => Sys2Proof.Machine.execCueWait p cue threshold timeout notify s
  | .cueRead p cue => Sys2Proof.Machine.execCueRead p cue s
  | .stepOpen p m bookings => Sys2Proof.Machine.execStepOpen p m bookings s
  | .stepAbort p => Sys2Proof.Machine.execStepAbort p s
  | .stepSeed p seed => Sys2Proof.Machine.execStepSeed p seed s
  | .stepLoss p loss => Sys2Proof.Machine.execStepLoss p loss s
  | .stepState p => Sys2Proof.Machine.execStepState p s
  | .stepDeadline p ticks => Sys2Proof.Machine.execStepDeadline p ticks s
  | .stepLedger p flags records base extBase extLen capBase capLen => Sys2Proof.Machine.execStepLedger p flags records base extBase extLen capBase capLen s
  | .optSet p tensor rule nesterov eta lam beta1 beta2 eps d clip effective => Sys2Proof.Machine.execOptSet p tensor rule nesterov eta lam beta1 beta2 eps d clip effective s
  | .optTroupe p gamma lag effective => Sys2Proof.Machine.execOptTroupe p gamma lag effective s
  | .optHost p base slotLen => Sys2Proof.Machine.execOptHost p base slotLen s
  | .optSpike p detector armed k ratio warmup => Sys2Proof.Machine.execOptSpike p detector armed k ratio warmup s
  | .optExport p count ids dest => Sys2Proof.Machine.execOptExport p count ids dest s
  | .optImport p count ids source => Sys2Proof.Machine.execOptImport p count ids source s
  | .sparePair p line mode flags owned => Sys2Proof.Machine.execSparePair p line mode flags owned s
  | .spareProp p k n => Sys2Proof.Machine.execSpareProp p k n s
  | .spareResync p => Sys2Proof.Machine.execSpareResync p s
  | .spareStandin p lost => Sys2Proof.Machine.execSpareStandin p lost s
  | .spareEncore p => Sys2Proof.Machine.execSpareEncore p s
  | .sparePromote p lost standin donors donorCount => Sys2Proof.Machine.execSparePromote p lost standin donors donorCount s
  | .spareExport p dest => Sys2Proof.Machine.execSpareExport p dest s
  | .testSet p flags slack => Sys2Proof.Machine.execTestSet p flags slack s
  | .testRun p sub unit => Sys2Proof.Machine.execTestRun p sub unit s
  | .testDarken p sub unit => Sys2Proof.Machine.execTestDarken p sub unit s
  | .testReturn p sub unit => Sys2Proof.Machine.execTestReturn p sub unit s
  | .gaugeSnap p dest => Sys2Proof.Machine.execGaugeSnap p dest s
  | .gaugeClear p groups => Sys2Proof.Machine.execGaugeClear p groups s
  | .gaugeTimers p step dest => Sys2Proof.Machine.execGaugeTimers p step dest s
  | .spillSet p pitBase pitLen hostBase hostLen => Sys2Proof.Machine.execSpillSet p pitBase pitLen hostBase hostLen s
  | .spillDrain p => Sys2Proof.Machine.execSpillDrain p s
  | .ringDoorbell a => Sys2Proof.Machine.execRingDoorbell a s
  | .errRead a => Sys2Proof.Machine.execErrRead a s
  | .chkCtrl a => Sys2Proof.Machine.execChkCtrl a s
  | .checkScanEnd dt => Sys2Proof.Machine.execCheckScanEnd dt s
  | .registerWrite a => Sys2Proof.Machine.execRegisterWrite a s
  | .windowAccessRefused a => Sys2Proof.Machine.execWindowAccessRefused a s
  | .emit dt core desc => Sys2Proof.Machine.execEmit dt core desc s
  | .emitTake dt => Sys2Proof.Machine.execEmitTake dt s
  | .chunkRead dt t => Sys2Proof.Machine.execChunkRead dt t s
  | .chunkAccumulate dt t tensor chunk => Sys2Proof.Machine.execChunkAccumulate dt t tensor chunk s
  | .pitWindowOpen dt pit => Sys2Proof.Machine.execPitWindowOpen dt pit s
  | .quantPassStart dt t bucket => Sys2Proof.Machine.execQuantPassStart dt t bucket s
  | .quantPassEnd dt t bucket => Sys2Proof.Machine.execQuantPassEnd dt t bucket s
  | .bandCut dt t bucket => Sys2Proof.Machine.execBandCut dt t bucket s
  | .bandReread dt t bucket => Sys2Proof.Machine.execBandReread dt t bucket s
  | .packItem dt t pick => Sys2Proof.Machine.execPackItem dt t pick s
  | .frameSend dt port => Sys2Proof.Machine.execFrameSend dt port s
  | .writeReceive dt port frame => Sys2Proof.Machine.execWriteReceive dt port frame s
  | .reduceWriteReceive dt port frame => Sys2Proof.Machine.execReduceWriteReceive dt port frame s
  | .readRequestReceive dt port frame => Sys2Proof.Machine.execReadRequestReceive dt port frame s
  | .readResponseReceive dt port frame => Sys2Proof.Machine.execReadResponseReceive dt port frame s
  | .fenceCarriageReceive dt port frame => Sys2Proof.Machine.execFenceCarriageReceive dt port frame s
  | .collectiveCarriageReceive dt port frame => Sys2Proof.Machine.execCollectiveCarriageReceive dt port frame s
  | .deltaCarriageReceive dt port frame => Sys2Proof.Machine.execDeltaCarriageReceive dt port frame s
  | .mirrorCarriageReceive dt port frame => Sys2Proof.Machine.execMirrorCarriageReceive dt port frame s
  | .residualTrickleReceive dt port frame => Sys2Proof.Machine.execResidualTrickleReceive dt port frame s
  | .ackReceive dt port frame => Sys2Proof.Machine.execAckReceive dt port frame s
  | .nakReceive dt port frame => Sys2Proof.Machine.execNakReceive dt port frame s
  | .probeReceive dt port frame => Sys2Proof.Machine.execProbeReceive dt port frame s
  | .probeEchoReceive dt port frame => Sys2Proof.Machine.execProbeEchoReceive dt port frame s
  | .callReceive dt port frame => Sys2Proof.Machine.execCallReceive dt port frame s
  | .knockReceive dt port frame => Sys2Proof.Machine.execKnockReceive dt port frame s
  | .knockAnswerReceive dt port frame => Sys2Proof.Machine.execKnockAnswerReceive dt port frame s
  | .dimReceive dt port frame => Sys2Proof.Machine.execDimReceive dt port frame s
  | .lightReceive dt port frame => Sys2Proof.Machine.execLightReceive dt port frame s
  | .tickReceive dt port frame sub => Sys2Proof.Machine.execTickReceive dt port frame sub s
  | .pfcReceive dt port frame => Sys2Proof.Machine.execPfcReceive dt port frame s
  | .pauseFrameReceive dt port frame => Sys2Proof.Machine.execPauseFrameReceive dt port frame s
  | .foreignFrameReceive dt port frame => Sys2Proof.Machine.execForeignFrameReceive dt port frame s
  | .frameRelay dt port frame => Sys2Proof.Machine.execFrameRelay dt port frame s
  | .pauseExpire dt port prio => Sys2Proof.Machine.execPauseExpire dt port prio s
  | .pfcRepeat dt port prio => Sys2Proof.Machine.execPfcRepeat dt port prio s
  | .tick => Sys2Proof.Machine.execTick s
  | .stepDeadlineMiss dt t => Sys2Proof.Machine.execStepDeadlineMiss dt t s
  | .roundAbandonLimit dt t => Sys2Proof.Machine.execRoundAbandonLimit dt t s
  | .adriftEnter dt => Sys2Proof.Machine.execAdriftEnter dt s
  | .adriftClear dt => Sys2Proof.Machine.execAdriftClear dt s
  | .tickReply dt port => Sys2Proof.Machine.execTickReply dt port s
  | .retransmitTimerExpiry dt t line peer => Sys2Proof.Machine.execRetransmitTimerExpiry dt t line peer s
  | .knockTimerExpiry dt t line peer => Sys2Proof.Machine.execKnockTimerExpiry dt t line peer s
  | .knockRetry dt t line peer => Sys2Proof.Machine.execKnockRetry dt t line peer s
  | .firstKnock dt t line peer => Sys2Proof.Machine.execFirstKnock dt t line peer s
  | .probeSend dt t line peer => Sys2Proof.Machine.execProbeSend dt t line peer s
  | .callResend dt t port => Sys2Proof.Machine.execCallResend dt t port s
  | .cueWaitTimeout dt issuer slot => Sys2Proof.Machine.execCueWaitTimeout dt issuer slot s
  | .sieveCallTimeout dt t => Sys2Proof.Machine.execSieveCallTimeout dt t s
  | .bankDrainRelease dt record => Sys2Proof.Machine.execBankDrainRelease dt record s
  | .prompterStall dt => Sys2Proof.Machine.execPrompterStall dt s
  | .linkSignalLoss dt port => Sys2Proof.Machine.execLinkSignalLoss dt port s
  | .portFail dt port => Sys2Proof.Machine.execPortFail dt port s
  | .linkUp dt port => Sys2Proof.Machine.execLinkUp dt port s
  | .dimPropose dt port => Sys2Proof.Machine.execDimPropose dt port s
  | .dimCommitPoint dt port => Sys2Proof.Machine.execDimCommitPoint dt port s
  | .linkDark dt port => Sys2Proof.Machine.execLinkDark dt port s
  | .linkWake dt port fromPartner => Sys2Proof.Machine.execLinkWake dt port fromPartner s
  | .linkLit dt port => Sys2Proof.Machine.execLinkLit dt port s
  | .lineDescriptorTake dt t => Sys2Proof.Machine.execLineDescriptorTake dt t s
  | .sieveCallTake dt t => Sys2Proof.Machine.execSieveCallTake dt t s
  | .sieveCallComplete dt t => Sys2Proof.Machine.execSieveCallComplete dt t s
  | .spillCallTake dt t => Sys2Proof.Machine.execSpillCallTake dt t s
  | .spillCallComplete dt t => Sys2Proof.Machine.execSpillCallComplete dt t s
  | .updateIssue dt t => Sys2Proof.Machine.execUpdateIssue dt t s
  | .updateComplete dt t => Sys2Proof.Machine.execUpdateComplete dt t s
  | .delayedDoneRead dt t => Sys2Proof.Machine.execDelayedDoneRead dt t s
  | .verdictCompare dt t step => Sys2Proof.Machine.execVerdictCompare dt t step s
  | .verdictArrive dt t word => Sys2Proof.Machine.execVerdictArrive dt t word s
  | .encoreRun dt t pulled => Sys2Proof.Machine.execEncoreRun dt t pulled s
  | .rehearsalSlice dt unit vector found => Sys2Proof.Machine.execRehearsalSlice dt unit vector found s
  | .rehearsalComplete dt unit pass => Sys2Proof.Machine.execRehearsalComplete dt unit pass s
  | .resetRelease dt failed => Sys2Proof.Machine.execResetRelease dt failed s
  | .nimliaUp dt => Sys2Proof.Machine.execNimliaUp dt s
  | .doorsOpen dt => Sys2Proof.Machine.execDoorsOpen dt s
  | .doorsTimeout dt => Sys2Proof.Machine.execDoorsTimeout dt s
  | .chipReset dt chip => Sys2Proof.Machine.execChipReset dt chip s
  | .callDoorbell a => Sys2Proof.Machine.execCallDoorbell a s
  | .optExportComplete dt t => Sys2Proof.Machine.execOptExportComplete dt t s
  | .optImportComplete dt t => Sys2Proof.Machine.execOptImportComplete dt t s
  | .spareExportComplete dt t => Sys2Proof.Machine.execSpareExportComplete dt t s
  | .captureComplete dt t step => Sys2Proof.Machine.execCaptureComplete dt t step s

end Sys2Proof.Machine
end

