-- ==== Sys2Proof/Safety.lean ====
section
/-! DEFINITION. What counts as a safe state of the block, and the conditions under which a command is served: the words
in which the statements are written. -/

namespace Sys2Proof.Machine

open Sys2Proof

/-- Every memory of the block is in its canonical form. -/
def memoriesWf (s : State) : Bool :=
  Memory.wf s.hbm && Memory.wf s.scratch && Memory.wf s.host && s.troupes.all fun e => Memory.wf e.2.board

/-- Nimlia serves the command of slot `p` now (R323), the slot's copied bytes `q` spell the command `i`, and it passes
checks 1 to 5 of R321 as far as they do not ask about the arguments' values: a whole post word, the issuer's right to the
target (`house`: an H of Table 12.7), the column Served (`gate`), reserved bytes 0 and an existing completion cue. -/
abbrev Ready (house : Bool) (gate : State → Nat → Option Status) (i : Instr) (p : Post) (q : Posted) (s : State) :
    Prop :=
  servable p (passCk p.dt s) = some q ∧ imageWhole q.image = true ∧ spells i q.image = true ∧
    reservedClear i q.image = true ∧ targetOk i (imageTarget q.image) = true ∧
    (imageCue q.image).all (cueExists (troupe (begun p s) p.issuer)) = true ∧
    (p.issuer = 0 ∨ (imageTarget q.image = p.issuer ∧ house = false)) ∧
    gate (begun p s) (imageTarget q.image) = none

/-- A troupe but for what completions, signals, records and fences change (R322, R329, R332, R361): its board and
posted commands, its cues, its error registers, its life and fence, the holds of a BILL_SEAL and a SPARE_PROMOTE that a
fence ends (R324), the curtain of its step, its gauges. -/
def Troupe.own (tr : Troupe) : Troupe :=
  { tr with board := [], posted := [], cues := [], lastError := none, errors := 0, life := .active, prior := .active,
            fence := none, fenceIndex := 0, sealing := false, promotion := none, work := [], steps := [], gauges := [] }

/-- A byte of a troupe's step ledger in host memory or in HBM: of its ring of records or of its extension area (R312). -/
def inLedger (host : Bool) (s : State) (a : Nat) : Prop :=
  ∃ u p, (troupe s u).ledger = some p ∧ p.host = host ∧
    ((∃ k < 128 * max 1 p.records, a = (p.base.toNat + k) % 2 ^ 64) ∨
      ∃ k < p.extLen.toNat, a = (p.extBase.toNat + k) % 2 ^ 64)

/-- Two states between which only completions, signals, records and fences have been carried out: the house, the
check window, the ports, the slice records, the scratchpad, the queue, every troupe's own fields and host memory outside
the step ledgers are the same (a step that a fence makes CALLED writes its ledger record: R312). -/
structure Calm (s t : State) : Prop where
  house : t.house = s.house
  check : t.check = s.check
  ports : t.ports = s.ports
  slices : t.slices = s.slices
  scratch : t.scratch = s.scratch
  host : ∀ a, ¬ inLedger true s a → memByte t.host a = memByte s.host a
  pending : t.pending = s.pending
  own : ∀ u, (troupe t u).own = (troupe s u).own

/-- What every step keeps: the memories keep their canonical form, at most 256 records are written in a tick (R360), and
at most 256 records lie between ERR_READ and ERR_WRITE (R357). -/
structure Sound (s : State) : Prop where
  memories : memoriesWf s = true
  inTick : s.log.inTick ≤ 256
  kept : (s.log.write - errReadVal s.log).toNat ≤ 256

/-- Two states of which the second has the first one's queue and is sound if the first one is. -/
structure Keeps (s t : State) : Prop where
  pending : t.pending = s.pending
  sound : Sound s → Sound t

/-- What only commands of the house configure about the chip. -/
abbrev House.plan (h : House) : Nat × Coord × BitVec 16 × Coord × BitVec 12 × Bool :=
  (h.pits, h.coord, h.podNumber, h.dims, h.vid, h.podSet)

/-- A troupe but for everything that runs: what only its commands and the house's configure. -/
abbrev Troupe.plan (tr : Troupe) : Troupe :=
  { bestEffort := tr.bestEffort, regions := tr.regions, arenas := tr.arenas, area := tr.area, slice := tr.slice
    carousels := tr.carousels, buckets := tr.buckets, grants := tr.grants, hostRing := tr.hostRing
    pairLine := tr.pairLine, pairMode := tr.pairMode, pairTrickle := tr.pairTrickle, pairOwned := tr.pairOwned
    propK := tr.propK, propN := tr.propN, spillRegions := tr.spillRegions, ledger := tr.ledger, seed := tr.seed
    deadline := tr.deadline }

/-- The tables that commands have given a slice record. -/
abbrev Slice.plan (sl : Slice) : Slice := { shape := sl.shape, bank0 := sl.bank0, bank1 := sl.bank1 }

/-- Two states between which nothing that commands configure has changed, the check window and the scratchpad are the
same, and troupes have been deleted at most; the troupes that `but` names are left out. -/
structure Steady (but : Nat → Bool) (s t : State) : Prop where
  house : t.house.plan = s.house.plan
  check : t.check = s.check
  scratch : t.scratch = s.scratch
  slices : ∀ r, (sliceOf t r).plan = (sliceOf s r).plan
  troupes : ∀ u tr, but u = false → tabGet t.troupes u = some tr →
    ∃ old, tabGet s.troupes u = some old ∧ tr.plan = old.plan

/-- The block once a frame of a kind that passed the checks of Table 6.12 has been counted on its port. -/
abbrev counted (kind : Kind) (dt port : Nat) (s : State) : State := received port (.ok kind) (passCk dt s)

/-- A frame of a kind arrives on a lit port and passes the checks of Table 6.12. -/
abbrev Heard (kind : Kind) (dt port : Nat) (f : List Byte) (s : State) : Prop :=
  receives (passCk dt s) port = true ∧ checkFrame (passCk dt s) f = .ok kind

/-- The same where the house is open and the port carries more than TICK frames (R246). -/
abbrev HeardOpen (kind : Kind) (dt port : Nat) (f : List Byte) (s : State) : Prop :=
  Heard kind dt port f s ∧ s.house.doorsOpen = true ∧ ticksOnly s port = false

/-- A control frame that matches a line without a broken word (R199, R202). -/
abbrev Controls (kind : Kind) (dt port : Nat) (f : List Byte) (t l i : Nat) (s : State) : Prop :=
  HeardOpen kind dt port f s ∧ matchControl (counted kind dt port s) f = some (t, l, i) ∧
    lineBroken (lineOf (troupe s t) l) = false

/-- The kind, the time, the port and the bytes of a carriage that a row hears. -/
def carriageRow : Instr → Option (Kind × Nat × Nat × List Byte)
  | .writeReceive dt port f => some (.write, dt, port, f)
  | .reduceWriteReceive dt port f => some (.reduceWrite, dt, port, f)
  | .readRequestReceive dt port f => some (.readRequest, dt, port, f)
  | .readResponseReceive dt port f => some (.readResponse, dt, port, f)
  | .fenceCarriageReceive dt port f => some (.fence, dt, port, f)
  | .collectiveCarriageReceive dt port f => some (.collective, dt, port, f)
  | .deltaCarriageReceive dt port f => some (.delta, dt, port, f)
  | .mirrorCarriageReceive dt port f => some (.mirror, dt, port, f)
  | .residualTrickleReceive dt port f => some (.trickle, dt, port, f)
  | _ => none

/-- The block once the times and the acknowledgement of a carriage have been taken (R214, R225). -/
abbrev timed (kind : Kind) (dt port : Nat) (f : List Byte) (l i : Nat) (s : State) : State :=
  takeTimes (readCar f).troupe l i (readCar f) (counted kind dt port s)

/-- A carriage arrives in sequence for peer i of an OPEN or CLOSING line l without a broken word (R199, Table 8.5), on a
port whose buffer holds no earlier frame of its priority, and the pit share it needs is left (R139, R233). -/
abbrev InSequence (kind : Kind) (dt port : Nat) (f : List Byte) (l i : Nat) (s : State) : Prop :=
  let ln := lineOf (troupe s (readCar f).troupe) l
  HeardOpen kind dt port f s ∧ matchLine (counted kind dt port s) f (readCar f) = some (l, i) ∧ lineBroken ln = false ∧
    (ln.state.val = .opened ∨ ln.state.val = .closing) ∧ (readCar f).lineEpoch = ln.epoch ∧
    (∃ p, peerOf (timed kind dt port f l i s) (readCar f).troupe l i = some p ∧ p.expected.val = (readCar f).seq) ∧
    heldHere (counted kind dt port s) port (framePcp f) = false ∧ shareWaits (counted kind dt port s) f = false

/-- The troupe that a copied command names. -/
abbrev Posted.target (q : Posted) : Nat := imageTarget q.image

/-- The commands that only the house may give: every HOUSE_ command and those that Table 12.7 marks H. -/
def houseOnly (i : Instr) : Bool :=
  opcode i / 256 == 1 ||
    [0x0201, 0x0202, 0x0204, 0x0A03, 0x0A04, 0x0A05, 0x0A06, 0x0A07, 0x0B01, 0x0B02, 0x0B03, 0x0B04].contains (opcode i)

/-- Check 3 of R321: the house, or the target's own troupe with a command that is not the house's; only the house clears
chip-wide gauges (R380). -/
def mayAct (issuer target : Nat) (i : Instr) : Bool :=
  issuer == 0 || (target == issuer && ! houseOnly i &&
    match i with
    | .gaugeClear _ groups => groups &&& 0x300 == 0
    | _ => true)

/-- Check 4 of R321: the column Served of Table 12.7. -/
def gateOf : Instr → State → Nat → Option Status
  | .houseTickSet .. | .houseTickTree .. | .houseWingSet .. | .housePortSet .. | .housePitShare .. | .houseRouteFill ..
  | .houseRouteSet .. | .houseRouteCommit .. | .housePortReset .. | .housePitReset .. | .houseReset .. => houseGate
  | .housePodSet .. => fun s _ => if s.house.doorsOpen then some .state else none
  | .houseDispatch .. => fun s _ => if s.troupes.all (fun e => (flight e.2).isNone) then none else some .state
  | .houseSliceSet .. => fun s t =>
    (alwaysGate s t).orElse fun _ => if quiet (troupe s t) then none else some .state
  | .houseShaperSet .. | .houseGrant .. | .houseBind .. | .billRead .. | .bookRead .. | .lineState .. | .ringState ..
  | .cueRead .. | .stepState .. | .troupeReset .. | .troupeState .. | .gaugeSnap .. | .gaugeTimers .. => alwaysGate
  | .troupeCreate .. => fun s t =>
    match (troupe s t).life with
    | .absent => none
    | .fenced => some .fenced
    | _ => some .state
  | .troupeDelete .. => fun s t =>
    match (troupe s t).life with
    | .intermission | .fenced => if t = 0 then some .state else none
    | _ => some .state
  | .troupeResume .. => fun s t =>
    (anyGate s t).orElse fun _ => if (troupe s t).life == .intermission then none else some .state
  | .billAdd .. | .billSet .. | .billRemove .. | .billBucket .. | .billArena .. | .billSeal .. | .troupeCarousel .. =>
    billGate
  | .troupeMode .. | .troupeClass .. | .stepLedger .. | .optHost .. | .optImport .. | .sparePair .. | .spareProp ..
  | .sparePromote .. => quietGate
  | _ => anyGate

/-- The access of a row that writes the window, and whether it is aimed at what that row takes. -/
def writeOf : Instr → Option (Access × Bool)
  | .callDoorbell a => some (a, (aimsAt a 0x2000).isSome)
  | .ringDoorbell a => some (a, (aimsAt a 0x2008).isSome)
  | .errRead a => some (a, placeOf (a.offset / 8 * 8) == .house 0x30)
  | .chkCtrl a => some (a, placeOf (a.offset / 8 * 8) == .check 0x08)
  | .registerWrite a => some (a, ! ownRow (placeOf a.offset))
  | _ => none

/-- The time, the port and the bytes of a frame that a row hears. -/
def frameOf : Instr → Option (Nat × Nat × List Byte)
  | .writeReceive dt port f | .reduceWriteReceive dt port f | .readRequestReceive dt port f
  | .readResponseReceive dt port f | .fenceCarriageReceive dt port f | .collectiveCarriageReceive dt port f
  | .deltaCarriageReceive dt port f | .mirrorCarriageReceive dt port f | .residualTrickleReceive dt port f
  | .ackReceive dt port f | .nakReceive dt port f | .probeReceive dt port f | .probeEchoReceive dt port f
  | .callReceive dt port f | .knockReceive dt port f | .knockAnswerReceive dt port f | .dimReceive dt port f
  | .lightReceive dt port f | .tickReceive dt port f _ | .pfcReceive dt port f | .pauseFrameReceive dt port f
  | .foreignFrameReceive dt port f | .frameRelay dt port f => some (dt, port, f)
  | _ => none

/-- A TICK frame of another VID, which tells an unverified port of its partner (R246). -/
def stranger (i : Instr) (port : Nat) (f : List Byte) (s : State) : Bool :=
  match i with
  | .tickReceive .. => strangeTick s port f
  | _ => false

/-- The block when a row's frame arrives: a LIGHT frame of the partner ends the relighting of a link (R252). -/
def arriving (i : Instr) (dt port : Nat) (s : State) : State :=
  match i with
  | .lightReceive .. => if relit (passCk dt s) port then lightUp port (passCk dt s) else passCk dt s
  | _ => passCk dt s

/-- The bytes that a pending CUE_WAIT has asked to be written (R330). -/
def notified (s : State) (a : Nat) : Prop :=
  ∃ e ∈ s.troupes, ∃ c ∈ e.2.cues, ∃ w ∈ c.2.waits, w.notify ≠ 0 ∧ ∃ k < 8, a = (w.notify.toNat + k) % 2 ^ 64

/-- The bytes that a list of actions stores itself. -/
def storedBy (as : List Act) (a : Nat) : Prop :=
  ∃ b bs, Act.store b bs ∈ as ∧ ∃ k < bs.length, a = (b + k) % 2 ^ 64

end Sys2Proof.Machine
end

