-- ==== Sys2Proof/Certificates/Slice0/Obligations.lean ====
section
/-! DEFINITION. The statements about the block, for the provers. -/

open Sys2Proof Sys2Proof.Machine

/-- The clock, pod and dispatch commands of the house take effect (R35, R139, R228, R245, R246, R315, R336): from a ready
slot and with operands in range, each completes DONE and leaves exactly the setting that its rule names. -/
def Obligations.HouseSettingsComplete : Prop :=
  (∀ p q s period effective, Ready true houseGate (.houseTickSet p period effective) p q s →
    25 ≤ period.toNat → period.toNat ≤ 400 → s.house.tick + 64 ≤ effective.toNat →
    (∀ k < 8, peakIn (portSpans (begun p s) k none) ⟨k, 0, effective.toNat, 0⟩ ≤
      admissionLimit (portNext (begun p s) k).1 period.toNat) →
    exec (.houseTickSet p period effective) s = .next (completed p .done [] [] []
      (modHouse (begun p s) fun h => { h with pendingPeriod := some (period.toNat, effective.toNat) }))) ∧
  (∀ p q s parent, Ready true houseGate (.houseTickTree p parent) p q s → (parent.toNat < 8 ∨ parent = 0xFF) →
    exec (.houseTickTree p parent) s = .next (completed p .done [] [] []
      (modHouse (begun p s) fun h =>
        { h with pendingParent := some (if parent = 0xFF then none else some parent.toNat) }))) ∧
  (∀ p q s pod lx ly lz vid, Ready true houseGate (.housePodSet p pod lx ly lz vid) p q s →
    s.house.doorsOpen = false → 1 ≤ lx.toNat → lx.toNat ≤ 32 → 1 ≤ ly.toNat → ly.toNat ≤ 32 → 1 ≤ lz.toNat →
    lz.toNat ≤ 16 → vid.toNat < 4096 →
    exec (.housePodSet p pod lx ly lz vid) s = .next (completed p .done [] [] []
      (modHouse (begun p s) fun h =>
        { h with podNumber := pod.toNat, dims := ⟨lx.toNat, ly.toNat, lz.toNat⟩, vid := vid.toNat, podSet := true }))) ∧
  (∀ p q s percent, Ready true houseGate (.housePitShare p percent) p q s → 10 ≤ percent.toNat → percent.toNat ≤ 92 →
    exec (.housePitShare p percent) s = .next (completed p .done [] [] []
      (modHouse (begun p s) fun h => { h with pendingShare := some percent.toNat }))) ∧
  (∀ p q s flags, Ready true houseGate (.houseDispatch p flags) p q s → flags.toNat < 2 →
    (∀ e ∈ (begun p s).troupes, flight e.2 = none) →
    exec (.houseDispatch p flags) s = .next (completed p .done [] [] []
      (modHouse (begun p s) fun h => { h with adlib := flags.getLsbD 0 }))) ∧
  (∀ p q s, Ready true houseGate (.houseReset p) p q s →
    exec (.houseReset p) s = .next (completed p .done [] [] []
      (modHouse (begun p s) fun h => { h with resetDue := true }))) ∧
  (∀ p q s first count, Ready true alwaysGate (.houseBind p first count) p q s → 1 ≤ count.toNat →
    first.toNat + count.toNat ≤ 65536 →
    exec (.houseBind p first count) s = .next (completed p .done [] [] []
      (modHouse (begun p s) fun h => { h with cores := (first.toNat, count.toNat, q.target) :: h.cores })))

/-- The port and pit commands of the house take effect (R39, R40, R56, R144, R228, R244, R246, R374, R377): ceilings and
reserves that admitted bookings fit at the present tick period and at one that waits to take effect, a shaper whose debt is
kept, a grant never below what is admitted, a port reset that drops the queues and relights the link before it completes,
and a pit reset that raises the curtain of every step with a chunk on the pit, abandons the pit's work, darkens its lanes at
once and ends a return rehearsal of them that runs with fail. -/
def Obligations.HousePortAndPitCommandsComplete : Prop :=
  (∀ p q s port partner, Ready true houseGate (.houseWingSet p port partner) p q s → 6 ≤ port.toNat → port.toNat ≤ 7 →
    partner.toNat < 2 ^ 48 → partner.toNat % 256 = 2 →
    exec (.houseWingSet p port partner) s = .next (completed p .done [] [] []
      (modPort (begun p s) port.toNat fun k =>
        { k with expected := some (partner.setWidth 48), verified := false, miswired := false }))) ∧
  (∀ p q s port ceiling transit dimDelay, Ready true houseGate (.housePortSet p port ceiling transit dimDelay) p q s →
    port.toNat < 8 → 50 ≤ ceiling.toNat → ceiling.toNat ≤ 100 →
    withinLimit (begun p s) ceiling.toNat transit.toNat (portSpans (begun p s) port.toNat none)
      ⟨port.toNat, 0, s.house.tick + 1, 0⟩ = true →
    exec (.housePortSet p port ceiling transit dimDelay) s = .next (completed p .done [] [] []
      (modPort (begun p s) port.toNat fun k =>
        { k with pendingSet := some (ceiling.toNat, transit.toNat, dimDelay.toNat) }))) ∧
  (∀ p q s port rate cap, Ready true alwaysGate (.houseShaperSet p port rate cap) p q s → port.toNat < 8 →
    rate.toNat ≤ 200000 → 8314 ≤ cap.toNat → cap.toNat ≤ 67108864 →
    exec (.houseShaperSet p port rate cap) s = .next (completed p .done [] [] []
      (modTroupe (begun p s) q.target fun tr =>
        let sh := refill (shaperOf tr port.toNat) (s.house.ck + p.dt)
        { tr with shapers := tabPut tr.shapers port.toNat { sh with
            rate := ⟨rate.toNat, 0⟩, cap := ⟨cap.toNat, 0⟩, found := false
            balance := min sh.balance (cap.toNat * 1800 : Nat) } }))) ∧
  (∀ p q s port grant, Ready true alwaysGate (.houseGrant p port grant) p q s → port.toNat < 8 →
    troupeAdmitted (begun p s) (troupe (begun p s) q.target) port.toNat ≤ grant.toNat →
    grant.toNat ≤ admissionLimit (portNext (begun p s) port.toNat).1 s.house.period →
    exec (.houseGrant p port grant) s = .next (completed p .done [] [] []
      (modTroupe (begun p s) q.target fun tr =>
        { tr with grants := tabPut tr.grants port.toNat ⟨grant.toNat, 0⟩ }))) ∧
  (∀ p q s port, Ready true houseGate (.housePortReset p port) p q s → port.toNat < 8 →
    exec (.housePortReset p port) s = .next (heldBack p q.target q (.portReset port.toNat) []
      (modPort (dropQueues port.toNat 21 (begun p s)) port.toNat fun k =>
        { k with link := .relighting, relightSince := some (s.house.ck + p.dt), darkSince := none, resetting := true
                 lossSince := none, verified := false, miswired := false, roundTrip := none, dim := none
                 declines := none, woken := false, pauses := [], pausing := [], pfcDue := [], child := false
                 replyDue := none, tickTx := none }))) ∧
  (∀ p q s pit, Ready true houseGate (.housePitReset p pit) p q s → pit.toNat < s.house.pits →
      let s1 := curtainAll 9 (fun tr => graphOnPit (begun p s) tr pit.toNat) (begun p s)
      exec (.housePitReset p pit) s = .next (heldBack p q.target q (.pitReset pit.toNat)
        ((s.deferred.filter fun d => d.awaits == .testReturn pit.toNat).map fun d =>
          .complete d.issuer d.slot .done [(0, [0])])
        (modUnit { s1 with troupes := s1.troupes.map fun e => (e.1, abandonPit s1 pit.toNat e.2) } pit.toNat fun r =>
          { r with dark := true, stopping := true, testing := none, resetting := true })))

/-- The slice and routing commands of the house take effect (R238, R241, R242, R401). -/
def Obligations.HouseRoutingComplete : Prop :=
  (∀ p q s record x0 y0 z0 ex ey ez,
    Ready true (fun s t => (alwaysGate s t).orElse fun _ => if quiet (troupe s t) then none else some .state)
      (.houseSliceSet p record x0 y0 z0 ex ey ez) p q s →
    let o : Coord := ⟨x0.toNat, y0.toNat, z0.toNat⟩
    let e : Coord := ⟨ex.toNat, ey.toNat, ez.toNat⟩
    record.toNat < 8 →
    (∀ a < 3, 1 ≤ e.on a ∧ e.on a ≤ s.house.dims.on a ∧ o.on a < s.house.dims.on a) →
    inSlice (begun p s) (o, e) s.house.coord = true → diameter (begun p s) e ≤ 63 →
    ((sliceOf s record.toNat).shape = some (o, e) →
      exec (.houseSliceSet p record x0 y0 z0 ex ey ez) s = .next (completed p .done [] [] []
        (modTroupe (begun p s) q.target fun tr => { tr with slice := some record.toNat }))) ∧
    ((sliceOf s record.toNat).shape ≠ some (o, e) → (sliceOf s record.toNat).commit = none →
      (sliceOf s record.toNat).draining = none →
      (∀ k ∈ (begun p s).troupes, k.1 = q.target ∨ k.2.slice ≠ some record.toNat) →
      exec (.houseSliceSet p record x0 y0 z0 ex ey ez) s = .next (completed p .done [] [] []
        (modTroupe (modSlice (begun p s) record.toNat fun sl =>
            { sl with shape := some (o, e), bank0 := [], bank1 := [], epoch := 0, margin := 0, mask := 0, found := [] })
          q.target fun tr => { tr with slice := some record.toNat })))) ∧
  (∀ p q s record, Ready true houseGate (.houseRouteFill p record) p q s → record.toNat < 8 →
    stagedFree (sliceOf s record.toNat) = true →
    exec (.houseRouteFill p record) s = .next (completed p .done [] [] []
      (modSlice (begun p s) record.toNat (fillRoutes (begun p s))))) ∧
  (∀ p q s record count items es, Ready true houseGate (.houseRouteSet p record count items) p q s →
    record.toNat < 8 → 1 ≤ count.toNat → count.toNat ≤ 65536 → stagedFree (sliceOf s record.toNat) = true →
    routeItems (begun p s) count.toNat items.toNat = .ok es →
    exec (.houseRouteSet p record count items) s = .next (completed p .done [] [] []
      (modSlice (begun p s) record.toNat fun sl => es.foldl (fun sl e => putStaged sl e.1 ⟨e.2, 0⟩) sl))) ∧
  (∀ p q s record epoch margin mask effective,
    Ready true houseGate (.houseRouteCommit p record epoch margin mask effective) p q s →
    record.toNat < 8 → margin.toNat ≤ 8 → mask &&& 0x3F = 0 → s.house.tick + 4 ≤ effective.toNat →
    (sliceOf s record.toNat).draining = none → (sliceOf s record.toNat).commit = none →
    epoch = (sliceOf s record.toNat).epoch + 1 →
    (∀ e ∈ bankOf (sliceOf s record.toNat) (! (sliceOf s record.toNat).active),
      whole e.2 = true → entryValid e.2.val = true → entryLocal e.2.val = true ∨ entryCut e.2.val = true ∨
        portUsable (begun p s) (entryPort e.2.val) = true) →
    (((sliceOf s record.toNat).shape.map fun sh => diameter (begun p s) sh.2).getD 0) + margin.toNat ≤ 63 →
    exec (.houseRouteCommit p record epoch margin mask effective) s = .next (completed p .done [] [] []
      (modSlice (begun p s) record.toNat fun sl =>
        { sl with commit := some (epoch, margin.toNat, mask, effective.toNat) })))
/-- The BOOK_ commands take effect (R39, R41, R338, R340): a new booking is listed, a change of one that is not suspended
waits for its tick behind the changes due before it, a booking that nothing names is removed, and a read returns the booking's parameters. -/
def Obligations.BookCommandsComplete : Prop :=
  (∀ p q s booking port cls bytes start stop c, Ready false anyGate (.bookSet p booking port cls bytes start stop) p q s →
    port.toNat < 8 → classArg cls = some c → (stop = 0 ∨ start.toNat < stop.toNat) →
    (troupe s q.target).life ≠ .intermission → (portOf s port.toNat).link ≠ .dark →
    tabGet (troupe (begun p s) q.target).bookings booking.toNat = none →
    let change : BookChange :=
      ⟨port.toNat, c, bytes.toNat, start.toNat, stop.toNat, max (s.house.tick + 1) start.toNat⟩
    admits (begun p s) q.target booking.toNat (spanAmong change []) = true →
    exec (.bookSet p booking port cls bytes start stop) s = .next (completed p .done [] [] []
      (declineDim port.toNat (modTroupe (begun p s) q.target fun tr =>
        { tr with
          bookings := tabPut tr.bookings booking.toNat
            { port := port.toNat, cls := c, bytes := ⟨bytes.toNat, 0⟩, start := start.toNat, stop := stop.toNat } })))) ∧
  (∀ p q s booking port cls bytes start stop c o,
    Ready false anyGate (.bookSet p booking port cls bytes start stop) p q s →
    port.toNat < 8 → classArg cls = some c → (stop = 0 ∨ start.toNat < stop.toNat) →
    (troupe s q.target).life ≠ .intermission → (portOf s port.toNat).link ≠ .dark →
    tabGet (troupe (begun p s) q.target).bookings booking.toNat = some o → o.suspended = false →
    let change : BookChange :=
      ⟨port.toNat, c, bytes.toNat, start.toNat, stop.toNat, max (s.house.tick + 1) start.toNat⟩
    admits (begun p s) q.target booking.toNat (spanAmong change o.changes) = true →
    exec (.bookSet p booking port cls bytes start stop) s = .next (completed p .done [] [] []
      (declineDim port.toNat (modTroupe (begun p s) q.target fun tr =>
        { tr with
          bookings := tabPut tr.bookings booking.toNat { o with changes := insertChange change o.changes } })))) ∧
  (∀ p q s booking, Ready false anyGate (.bookClear p booking) p q s →
    (tabGet (troupe (begun p s) q.target).bookings booking.toNat).isSome = true →
    ringBound (troupe (begun p s) q.target) booking.toNat = false →
    stepNames (troupe (begun p s) q.target) booking.toNat = false →
    exec (.bookClear p booking) s = .next (completed p .done [] [] []
      (modTroupe (begun p s) q.target fun tr => { tr with bookings := tabDel tr.bookings booking.toNat }))) ∧
  (∀ p q s booking b, Ready false alwaysGate (.bookRead p booking) p q s →
    tabGet (troupe (begun p s) q.target).bookings booking.toNat = some b →
    exec (.bookRead p booking) s = .next (completed p .done
      [(0, leBytes 1 booking.toNat), (1, leBytes 1 b.port), (2, leBytes 1 b.cls.code), (3, leBytes 1 (bitOf b.suspended)),
       (4, leBytes 4 b.bytes.val), (8, leBytes 8 b.start), (16, leBytes 8 b.stop), (24, leBytes 8 b.carried)] [] []
      (begun p s)))

/-- The gauge and spill commands take effect (R340, R380, R382, Table 14.7): a snapshot and a phase record are written at
their HBM address and nowhere else, the groups of a mask are cleared, and a drain with no call taken completes at once. -/
def Obligations.GaugeAndSpillCommandsComplete : Prop :=
  (∀ p q s dest, Ready false alwaysGate (.gaugeSnap p dest) p q s →
    exec (.gaugeSnap p dest) s = .next (completed p .done [] [] []
      (pokeHbm (begun p s) dest.toNat (snapBytes (begun p s) q.target)))) ∧
  (∀ p q s groups, Ready false anyGate (.gaugeClear p groups) p q s → groups &&& ~~~ 0x37F = 0 →
    (p.issuer = 0 ∨ groups &&& 0x300 = 0) →
    exec (.gaugeClear p groups) s = .next (completed p .done [] [] []
      (modHouse (modTroupe (begun p s) q.target fun tr => { tr with gauges := clearGroups groups.toNat tr.gauges })
        fun h => { h with gauges := clearGroups groups.toNat h.gauges }))) ∧
  (∀ p q s step dest r, Ready false alwaysGate (.gaugeTimers p step dest) p q s →
    stepOf (troupe (begun p s) q.target) step.toNat = some r →
    step.toNat ≤ (troupe s q.target).opened → (troupe s q.target).opened < step.toNat + 64 →
    exec (.gaugeTimers p step dest) s = .next (completed p .done [] [] []
      (pokeHbm (begun p s) dest.toNat (phaseRecord r)))) ∧
  (∀ p q s pitBase pitLen hostBase hostLen, Ready false anyGate (.spillSet p pitBase pitLen hostBase hostLen) p q s →
    (troupe s q.target).spills = [] →
    exec (.spillSet p pitBase pitLen hostBase hostLen) s = .next (completed p .done [] [] []
      (modTroupe (begun p s) q.target fun tr =>
        { tr with spillRegions := (pitBase, pitLen, hostBase, hostLen) }))) ∧
  (∀ p q s, Ready false anyGate (.spillDrain p) p q s → (troupe s q.target).spills = [] →
    exec (.spillDrain p) s = .next (completed p .done [] [] [] (begun p s)))

/-- The rehearsal commands take effect (R371, R373, R374, R377): settings from the next tick, a rehearsal and a return
that wait for their result, a unit that takes no new work. -/
def Obligations.TestCommandsComplete : Prop :=
  (∀ p q s flags slack, Ready true anyGate (.testSet p flags slack) p q s → flags.toNat < 2 → 1 ≤ slack.toNat →
    slack.toNat ≤ 50 →
    exec (.testSet p flags slack) s = .next (completed p .done [] [] []
      (modHouse (begun p s) fun h => { h with pendingTest := some (flags.getLsbD 0, slack.toNat) }))) ∧
  (∀ p q s sub unit u, Ready true anyGate (.testRun p sub unit) p q s →
    unitNumber (begun p s) sub.toNat unit.toNat = some u → underTest (unitOf (begun p s) u) = false →
    exec (.testRun p sub unit) s = .next (heldBack p q.target q (.testRun u) []
      (modUnit (begun p s) u fun r => { r with testing := some false }))) ∧
  (∀ p q s sub unit u, Ready true anyGate (.testDarken p sub unit) p q s →
    unitNumber (begun p s) sub.toNat unit.toNat = some u →
    exec (.testDarken p sub unit) s = .next (completed p .done [] [] []
      (modUnit (begun p s) u fun r => { r with stopping := true }))) ∧
  (∀ p q s sub unit u, Ready true anyGate (.testReturn p sub unit) p q s →
    unitNumber (begun p s) sub.toNat unit.toNat = some u → (unitOf (begun p s) u).dark = true →
    (unitOf (begun p s) u).fused = false → underTest (unitOf (begun p s) u) = false →
    exec (.testReturn p sub unit) s = .next (heldBack p q.target q (.testReturn u) []
      (modUnit (begun p s) u fun r => { r with testing := some true })))

/-- The commands that make and mark a troupe take effect (R43, R173, R315, R317, R340): a new troupe is empty with its
regions, mode and class are set in the quiet condition, a carousel entry is written and its generation counted, and a
read returns the troupe's state. -/
def Obligations.TroupeRecordsComplete : Prop :=
  (∀ p q s flags bases lens,
    Ready true (gateOf (.troupeCreate p flags bases lens)) (.troupeCreate p flags bases lens) p q s →
    flags.toNat < 4 → regionsOk s (bases.zip lens) = true →
    exec (.troupeCreate p flags bases lens) s = .next (completed p .done [] [] []
      (setTroupe (begun p s) q.target
        { bestEffort := flags.getLsbD 0, adlib := flags.getLsbD 1, regions := bases.zip lens }))) ∧
  (∀ p q s flags, Ready false quietGate (.troupeMode p flags) p q s → flags.toNat < 2 →
    exec (.troupeMode p flags) s = .next (completed p .done [] [] []
      (modTroupe (begun p s) q.target fun tr => { tr with adlib := flags == 1 }))) ∧
  (∀ p q s flags, Ready true quietGate (.troupeClass p flags) p q s → flags.toNat < 2 →
    (troupe (begun p s) q.target).bookings = [] →
    exec (.troupeClass p flags) s = .next (completed p .done [] [] []
      (modTroupe (begun p s) q.target fun tr => { tr with bestEffort := flags == 1 }))) ∧
  (∀ p q s entry count n own lines members,
    Ready false billGate (.troupeCarousel p entry count n own lines members) p q s →
    1 ≤ count.toNat → count.toNat ≤ 6 → 1 ≤ n.toNat → n.toNat ≤ 16384 → own.toNat < n.toNat →
    (∀ l ∈ lines.drop count.toNat, l = 0) → count.toNat ≤ lines.length →
    let raw := (List.range n.toNat).map fun k => BitVec.ofNat 64 (peekWord s (members.toNat + 8 * k) 8)
    let list : List BlockAddr := raw.map fun a => a.setWidth 48
    let ls := (lines.take count.toNat).map (·.toNat)
    (∀ a ∈ raw, addressOk a = true) → (list.filter (· == memberAddr (begun p s) q.target)).length = 1 →
    list[own.toNat]? = some (memberAddr (begun p s) q.target) →
    (∀ l ∈ ls, suitsCarousel (troupe (begun p s) q.target) list l = true) →
    exec (.troupeCarousel p entry count n own lines members) s = .next (completed p .done [] [] []
      (modTroupe (begun p s) q.target fun tr => { tr with
        carousels := tabPut tr.carousels entry.toNat { members := list, own := own.toNat, count := count.toNat, lines := ls }
        generation := (tr.generation + 1) % 2 ^ 32
        sealed := tr.sealed && ! tr.buckets.any fun e => e.2.carousel == entry.toNat }))) ∧
  (∀ p q s, Ready false alwaysGate (.troupeState p) p q s →
    let tr := troupe s q.target
    exec (.troupeState p) s = .next (completed p .done
      [(0, leBytes 1 tr.life.code), (1, leBytes 1 ((tr.fence.map statusCode).getD 0)), (2, leBytes 1 tr.issuer),
       (3, leBytes 1 (bitOf tr.adlib)), (8, leBytes 8 (Config.cueTable q.target).toNat),
       (16, leBytes 4 tr.fenceIndex.toNat)] [] [] (begun p s)))

/-- The commands that move a troupe between its states take effect (R24, R58, R59, R315, R334, R337): an intermission at
once where no step is in flight and otherwise when the step is decided, a resumption whose bookings all fit, a reset and
a deletion that complete when the reset has done its work. -/
def Obligations.TroupeStatesComplete : Prop :=
  (∀ p q s, Ready false anyGate (.troupeIntermission p) p q s → (troupe s q.target).life = .active →
    flight (troupe (begun p s) q.target) = none →
    exec (.troupeIntermission p) s = .next (completed p .done [] [] []
      (enterIntermission q.target (modTroupe (begun p s) q.target fun tr =>
        { tr with issuer := if p.issuer = 0 then 2 else if tr.issuer = 2 then 2 else 1 })))) ∧
  (∀ p q s r, Ready false anyGate (.troupeIntermission p) p q s → (troupe s q.target).life = .active →
    flight (troupe (begun p s) q.target) = some r →
    exec (.troupeIntermission p) s = .next (heldBack p q.target q .intermission []
      (modTroupe (curtain (some 12) q.target (modTroupe (begun p s) q.target fun tr =>
          { tr with issuer := if p.issuer = 0 then 2 else if tr.issuer = 2 then 2 else 1 }))
        q.target fun tr => { tr with life := .pending }))) ∧
  (∀ p q s, Ready false anyGate (.troupeResume p) p q s → (troupe s q.target).life = .intermission →
    (p.issuer = 0 ∨ (troupe s q.target).issuer ≠ 2) → resumes (begun p s) q.target = true →
    exec (.troupeResume p) s = .next (completed p .done [] [] []
      (serveHeld q.target (modTroupe (begun p s) q.target fun tr => { tr with
        life := .active, issuer := 0
        bookings := tr.bookings.map fun e => (e.1, { e.2 with suspended := false }) })))) ∧
  (∀ p q s, Ready false alwaysGate (.troupeReset p) p q s → (troupe s q.target).life ≠ .resetting →
    exec (.troupeReset p) s = .next (heldBack p q.target q .reset [] (beginTroupeReset q.target (begun p s)))) ∧
  (∀ p q s, Ready true alwaysGate (.troupeDelete p) p q s → q.target ≠ 0 →
    ((troupe s q.target).life = .intermission ∨ (troupe s q.target).life = .fenced) →
    exec (.troupeDelete p) s = .next (heldBack p q.target q .delete [] (beginTroupeReset q.target (begun p s))))

/-- The playbill commands that add, change and remove entries take effect, all or none (R61, R64, R67, R135, R390), and
leave the playbill unsealed. -/
def Obligations.BillEntriesComplete : Prop :=
  (∀ p q s count entries es, Ready false billGate (.billAdd p count entries) p q s →
    1 ≤ count.toNat → count.toNat ≤ 4096 →
    readEntries (begun p s) q.target entries.toNat count.toNat = some es →
    let bill := es.foldl (fun b e => tabPut b e.tensor e) (troupe s q.target).bill
    (es.map (·.tensor)).Nodup → (∀ e ∈ es, tabGet (troupe s q.target).bill e.tensor = none) →
    poolUsed (begun p s) + es.length ≤ 4194304 → bill.length ≤ 1048576 → heldElements bill ≤ 2 ^ 36 →
    exec (.billAdd p count entries) s = .next (completed p .done [] [] []
      (modTroupe (begun p s) q.target fun tr => es.foldl (fun tr e => { tr with scale := clearScale tr e.tensor })
        { tr with bill := bill, sealed := false }))) ∧
  (∀ p q s count entries es, Ready false billGate (.billSet p count entries) p q s →
    1 ≤ count.toNat → count.toNat ≤ 4096 →
    readEntries (begun p s) q.target entries.toNat count.toNat = some es →
    (∀ e ∈ es, (tabGet (troupe s q.target).bill e.tensor).any (fun o =>
      o.count == e.count && o.bf16 == e.bf16 && o.bucket == e.bucket) = true) →
    ((∀ e ∈ es, (tabGet (troupe s q.target).bill e.tensor).any (fun o => o.delayed != e.delayed) = false) ∨
      (troupe s q.target).hostSlots = []) →
    exec (.billSet p count entries) s = .next (completed p .done [] [] []
      (modTroupe (begun p s) q.target fun tr => es.foldl setEntry { tr with sealed := false }))) ∧
  (∀ p q s count ids, Ready false billGate (.billRemove p count ids) p q s → 1 ≤ count.toNat → count.toNat ≤ 4096 →
    let list := (List.range count.toNat).map fun k => peekWord s (ids.toNat + 4 * k) 4
    list.Nodup → (∀ i ∈ list, (tabGet (troupe s q.target).bill i).isSome = true) →
    exec (.billRemove p count ids) s = .next (completed p .done [] [] []
      (modTroupe (begun p s) q.target fun tr => list.foldl dropTensor { tr with sealed := false }))) ∧
  (∀ p q s tensor e, Ready false alwaysGate (.billRead p tensor) p q s →
    tabGet (troupe s q.target).bill tensor.toNat = some e →
    exec (.billRead p tensor) s = .next (completed p .done [(0, entryBytes q.target e)] [] [] (begun p s)))

/-- The playbill's records take effect (R68, R72, R96, R129): buckets and arenas are put or removed, and a sieve or scale
record waits beside the current one for its step. -/
def Obligations.BillRecordsComplete : Prop :=
  (∀ p q s bucket cls selection carousel flags,
    Ready false billGate (.billBucket p bucket cls selection carousel flags) p q s →
    cls.toNat < 2 → selection.toNat < 3 →
    (flags = 0 → exec (.billBucket p bucket cls selection carousel flags) s = .next (completed p .done [] [] []
      (modTroupe (begun p s) q.target fun tr => { tr with
        buckets := tabPut tr.buckets bucket.toNat
          { fclass := cls == 1, selection := selection.toNat, carousel := carousel.toNat }
        sealed := false }))) ∧
    (flags = 1 → (tabGet (troupe s q.target).buckets bucket.toNat).isSome = true →
      exec (.billBucket p bucket cls selection carousel flags) s = .next (completed p .done [] [] []
        (modTroupe (begun p s) q.target fun tr => { tr with
          buckets := tabDel tr.buckets bucket.toNat, sieve := tabDel tr.sieve bucket.toNat, sealed := false })))) ∧
  (∀ p q s bucket density crossover effective k,
    Ready false anyGate (.billSieve p bucket density crossover effective) p q s →
    1 ≤ density.toNat → density.toNat ≤ 65536 → crossover.toNat ≤ 65536 →
    tabGet (troupe s q.target).buckets bucket.toNat = some k → k.fclass = false →
    (troupe s q.target).opened < effective.toNat →
    exec (.billSieve p bucket density crossover effective) s = .next (completed p .done [] [] []
      (modTroupe (begun p s) q.target fun tr => { tr with
        sieve := tabPut tr.sieve bucket.toNat ((tabGetD (troupe s q.target).sieve bucket.toNat ({}, none)).1,
          some ({ density := density.toNat, crossover := crossover.toNat }, effective.toNat)) }))) ∧
  (∀ p q s tensor headroom length returnCount effective e,
    Ready false anyGate (.billScale p tensor headroom length returnCount effective) p q s →
    headroom.toNat < 8 → 1 ≤ length.toNat → length.toNat ≤ 64 → returnCount.toNat ≤ 1024 →
    tabGet (troupe s q.target).bill tensor.toNat = some e →
    (tabGet (troupe s q.target).buckets e.bucket).any (·.fclass) = false →
    (troupe s q.target).opened < effective.toNat →
    exec (.billScale p tensor headroom length returnCount effective) s = .next (completed p .done [] [] []
      (modTroupe (begun p s) q.target fun tr => { tr with
        scale := tabPut tr.scale tensor.toNat { tabGetD (troupe s q.target).scale tensor.toNat {} with
          pending := some ({ headroom := headroom.toNat, length := length.toNat, returns := returnCount.toNat },
            effective.toNat) } })))

/-- An arena is declared or resized where it meets no other and gives up no slot in use, and removed where none of its
slots is in use (R72). -/
def Obligations.BillArenaComplete : Prop :=
  ∀ p q s arena slots base, Ready false billGate (.billArena p arena slots base) p q s → arena.toNat < 16 →
    let new : Arena := { base := base, slots := slots.toNat }
    let gone := ((tabGet (troupe s q.target).arenas arena.toNat).map arenaSlots |>.getD []).filter fun a =>
      ! (arenaSlots new).contains a
    (∀ a ∈ gone, a ∉ (troupe s q.target).slots) →
    (slots = 0 → exec (.billArena p arena slots base) s = .next (completed p .done [] [] []
      (modTroupe (begun p s) q.target fun tr => { tr with arenas := tabDel tr.arenas arena.toNat }))) ∧
    (slots ≠ 0 → slots.toNat ≤ 4096 → base.toNat % 65536 = 0 → base.toNat + 65536 * slots.toNat ≤ 2 ^ 48 →
      (∀ e ∈ s.troupes, ∀ a ∈ e.2.arenas, (e.1 = q.target ∧ a.1 = arena.toNat) ∨ arenasMeet new a.2 = false) →
      exec (.billArena p arena slots base) s = .next (completed p .done [] [] []
        (modTroupe (begun p s) q.target fun tr => { tr with arenas := tabPut tr.arenas arena.toNat new })))

/-- Sealing takes effect (R65, R66, R69, R95): BILL_SEAL starts the build where the conditions hold and completes with
the seal number when the build ends; the sealed playbill is the graph of its entries. -/
def Obligations.BillSealComplete : Prop :=
  (∀ p q s, Ready false billGate (.billSeal p) p q s →
    sealOk s.house.pits (troupe (begun p s) q.target) = true →
    exec (.billSeal p) s = .next (heldBack p q.target q .sealEnd []
      (modTroupe (begun p s) q.target fun tr => { tr with sealing := true }))) ∧
  (∀ dt t s, (troupe s t).sealing = true → (∀ e ∈ (troupe s t).bill, e.2.ident = 0) →
    let tr := troupe (passCk dt s) t
    exec (.sealComplete dt t) s = .next (completeDeferred t (· == .sealEnd) .done
      [(0, leBytes 4 ((tr.sealNumber + 1) % 2 ^ 32))]
      (setTroupe (passCk dt s) t { tr with
        graph := buildGraph tr, sealed := true, sealing := false, sealNumber := (tr.sealNumber + 1) % 2 ^ 32
        billBroken := false
        bill := tr.bill.map fun e => (e.1, { e.2 with
          offset := tabGetD ((buildGraph tr).flatMap fun e => e.2.tensors.map fun k => (k.1, k.2.2.1)) e.1 e.2.offset })
        histograms := tr.histograms.filter fun h =>
          match tabGet tr.graph h.1, tabGet (buildGraph tr) h.1 with
          | some o, some n => sameBucket o n
          | _, _ => false })))

/-- The commands that open, reset and close a line take effect (R198, R218, R400, Table 8.7): LINE_OPEN on a CLOSED line
writes the entry, asks for the stored epoch + 1 and knocks (a carousel line's knocks wait for their turn; one with no
other member is OPEN at once), LINE_RESET begins the new epoch, and LINE_CLOSE completes at once unless the line is OPEN
with work left. -/
def Obligations.LineLifeCommandsComplete : Prop :=
  (∀ p q s line n peer remoteBase remoteLen localBase localLen payload share,
    Ready false anyGate (.lineOpen p line 0 n peer remoteBase remoteLen localBase localLen payload share) p q s →
    line.toNat < 512 → 1 ≤ payload.toNat → payload.toNat ≤ 32 → share.toNat ≤ 100 → n = 0 → addressOk peer = true →
    remoteLen.toNat ≤ 2 ^ 40 → localLen.toNat ≤ 2 ^ 40 →
    let ln := lineOf (troupe s q.target) line.toNat
    ln.state.val = .closed → lineHeld s q.target line.toNat = false →
    exec (.lineOpen p line 0 n peer remoteBase remoteLen localBase localLen payload share) s = .next
      (heldBack p q.target q (.line line.toNat) [] (sendKnock q.target line.toNat 0 0
        (modLine (begun p s) q.target line.toNat fun _ => { ln with
          state := ⟨.knocking, 0⟩, carousel := false, requested := some (ln.epoch + 1)
          remoteBase := remoteBase, remoteLen := remoteLen.toNat, localBase := localBase, localLen := localLen.toNat
          payload := payload.toNat, share := share.toNat, standIn := false
          peers := [{ addr := peer.setWidth 48 }], members := [], ops := [] })))) ∧
  (∀ p q s line n peer remoteBase remoteLen localBase localLen payload share,
    Ready false anyGate (.lineOpen p line 1 n peer remoteBase remoteLen localBase localLen payload share) p q s →
    line.toNat < 512 → 1 ≤ payload.toNat → payload.toNat ≤ 32 → share.toNat ≤ 100 → 1 ≤ n.toNat → n.toNat ≤ 16384 →
    let ln := lineOf (troupe s q.target) line.toNat
    let members := (readAddresses s peer.toNat n.toNat).map fun a => (a.setWidth 48 : BlockAddr)
    let others := members.filter (· != myAddr (begun p s) q.target)
    membersOk (myAddr (begun p s) q.target) (readAddresses s peer.toNat n.toNat) = true →
    ln.state.val = .closed → lineHeld s q.target line.toNat = false →
    let s' := modLine (begun p s) q.target line.toNat fun _ => { ln with
      state := ⟨.knocking, 0⟩, carousel := true, requested := some (ln.epoch + 1)
      remoteBase := 0, remoteLen := 0, localBase := 0, localLen := 0
      payload := payload.toNat, share := share.toNat, standIn := false
      peers := others.map fun a => { addr := a, firstDue := true }, members := members, ops := [] }
    exec (.lineOpen p line 1 n peer remoteBase remoteLen localBase localLen payload share) s = .next
      (if others = [] then completed p .done [] [] [] (openEpoch q.target line.toNat (ln.epoch + 1) s')
       else heldBack p q.target q (.line line.toNat) [] s')) ∧
  (∀ p q s line, Ready false anyGate (.lineReset p line) p q s → line.toNat < 512 →
    let ln := lineOf (troupe s q.target) line.toNat
    (ln.state.val = .opened ∨ ln.state.val = .faulted) → lineHeld s q.target line.toNat = false →
    exec (.lineReset p line) s = .next
      (if ln.peers = [] then completed p .done [] [] []
          (openEpoch q.target line.toNat (ln.epoch + 1) (resetCurtain q.target line.toNat (begun p s)))
       else heldBack p q.target q (.line line.toNat) [] (beginReset q.target line.toNat (begun p s)))) ∧
  (∀ p q s line, Ready false anyGate (.lineClose p line) p q s → line.toNat < 512 →
    let ln := lineOf (troupe s q.target) line.toNat
    let ended := endLineCommands s q.target line.toNat .closed
    (ln.state.val = .closed → exec (.lineClose p line) s = .next (completed p .done [] [] [] (begun p s))) ∧
    (ln.state.val = .opened → lineEmpty (begun p s) q.target line.toNat = true →
      exec (.lineClose p line) s = .next (completed p .done [] ended []
        (closeLine q.target line.toNat .closed (begun p s)))) ∧
    (ln.state.val = .opened → lineEmpty (begun p s) q.target line.toNat = false →
      exec (.lineClose p line) s = .next (heldBack p q.target q (.lineClose line.toNat) ended
        (modLine (begun p s) q.target line.toNat fun ln => { ln with state := ⟨.closing, 0⟩ }))) ∧
    (ln.state.val = .faulted → exec (.lineClose p line) s = .next (completed p .done []
      (ended ++ (s.deferred.filter fun d => d.target == q.target && d.awaits == .lineClose line.toNat).map fun d =>
        .complete d.issuer d.slot .done []) []
      (closeLine q.target line.toNat .closed (begun p s)))))

/-- The commands that set and read a line take effect (R199, R212, R226, Table 8.1): the fields a mask names as a new entry
version, the area's size, and the line's state, epoch and sequences with, at a non-zero address, the whole entry. -/
def Obligations.LineSettingsComplete : Prop :=
  (∀ p q s line mask peer remoteBase remoteLen localBase localLen payload share,
    Ready false anyGate (.lineSet p line mask peer remoteBase remoteLen localBase localLen payload share) p q s →
    line.toNat < 512 → mask.toNat < 16 → (mask.getLsbD 0 = true → 1 ≤ payload.toNat ∧ payload.toNat ≤ 32) →
    (mask.getLsbD 3 = true → share.toNat ≤ 100) → (mask.getLsbD 1 = true → remoteLen.toNat ≤ 2 ^ 40) →
    (mask.getLsbD 2 = true → localLen.toNat ≤ 2 ^ 40) →
    let ln := lineOf (troupe s q.target) line.toNat
    ln.state.val = .opened → lineHeld s q.target line.toNat = false → peer = 0 → (∀ o ∈ ln.ops, o.version = ln.version) →
    exec (.lineSet p line mask peer remoteBase remoteLen localBase localLen payload share) s = .next
      (completed p .done [] [] [] (modLine (begun p s) q.target line.toNat fun ln => { ln with
        payload := if mask.getLsbD 0 then payload.toNat else ln.payload
        remoteBase := if mask.getLsbD 1 then remoteBase else ln.remoteBase
        remoteLen := if mask.getLsbD 1 then remoteLen.toNat else ln.remoteLen
        localBase := if mask.getLsbD 2 then localBase else ln.localBase
        localLen := if mask.getLsbD 2 then localLen.toNat else ln.localLen
        share := if mask.getLsbD 3 then share.toNat else ln.share
        version := (ln.version + 1) % 65536 }))) ∧
  (∀ p q s line dest, Ready false alwaysGate (.lineState p line dest) p q s → line.toNat < 512 →
    let ln := lineOf (troupe s q.target) line.toNat
    let k := if ln.carousel then ({ addr := 0 } : Peer) else ln.peers.headD { addr := 0 }
    exec (.lineState p line dest) s = .next (completed p .done
      [(0, leBytes 1 ln.state.val.code), (2, leBytes 2 ln.epoch.toNat), (4, leBytes 4 k.next.val.toNat),
       (8, leBytes 4 k.oldest.val.toNat), (12, leBytes 4 k.expected.val.toNat)] [] []
      (if dest = 0 then begun p s else pokeHbm (begun p s) dest.toNat (lineEntry q.target line.toNat ln)))) ∧
  (∀ p q s mib, Ready false anyGate (.lineArea p mib) p q s → 16 ≤ mib.toNat → mib.toNat ≤ 4096 →
    exec (.lineArea p mib) s = .next (completed p .done [] [] []
      (modTroupe (begun p s) q.target fun tr => { tr with area := mib.toNat })))

/-- The ring commands take effect (R325, Table 12.5). -/
def Obligations.RingCommandsComplete : Prop :=
  (∀ p q s ring kind depth binding port booking base spaceCue,
    Ready false anyGate (.ringCreate p ring kind depth binding port booking base spaceCue) p q s →
    ring.toNat < 4096 → 1 ≤ kind.toNat → kind.toNat ≤ 3 → 6 ≤ depth.toNat → depth.toNat ≤ 16 → binding.toNat < 3 →
    port.toNat < 8 → base.toNat % 4096 = 0 →
    (kind = 3 ∧ binding = 0 ∨ kind ≠ 3 ∧ binding = 2 ∨ kind ≠ 3 ∧ binding = 1 ∧ (troupe s q.target).bestEffort = false ∧
      (tabGet (troupe (begun p s) q.target).bookings booking.toNat).isSome = true) →
    cueFieldOk (troupe (begun p s) q.target) spaceCue = true →
    tabGet (troupe s q.target).rings ring.toNat = none →
    exec (.ringCreate p ring kind depth binding port booking base spaceCue) s = .next (completed p .done [] [] []
      (modTroupe (begun p s) q.target fun tr => { tr with
        rings := tabPut tr.rings ring.toNat
          { kind := kind.toNat, depth := 2 ^ depth.toNat, binding := binding.toNat, port := port.toNat
            booking := booking.toNat, base := base, spaceCue := spaceCue } }))) ∧
  (∀ p q s ring r, Ready false anyGate (.ringDelete p ring) p q s → ring.toNat < 4096 →
    tabGet (troupe s q.target).rings ring.toNat = some r → r.tail.val = r.head.val → r.inFlight = 0 →
    exec (.ringDelete p ring) s = .next (completed p .done [] [] []
      (modTroupe (begun p s) q.target fun tr => { tr with rings := tabDel tr.rings ring.toNat }))) ∧
  (∀ p q s ring r, Ready false alwaysGate (.ringState p ring) p q s → ring.toNat < 4096 →
    tabGet (troupe s q.target).rings ring.toNat = some r →
    exec (.ringState p ring) s = .next (completed p .done [(0, ringRecord r)] [] [] (begun p s)))

/-- The cue commands take effect (R328–R331): creation at a value, deletion of a cue that nothing names, an add that
releases the waits it reaches and, where it saturates, fences the troupe after the completion; a wait that is reached at
once or joins the cue's waits; a read. -/
def Obligations.CueCommandsComplete : Prop :=
  (∀ p q s cue initial, Ready false anyGate (.cueCreate p cue initial) p q s → cue.toNat < 1024 →
    tabGet (troupe s q.target).cues cue.toNat = none →
    exec (.cueCreate p cue initial) s = .next (completed p .done [] [] []
      (modTroupe (begun p s) q.target fun tr => { tr with cues := tabPut tr.cues cue.toNat { value := initial } }))) ∧
  (∀ p q s cue, Ready false anyGate (.cueDelete p cue) p q s → cue.toNat < 1024 →
    (tabGet (troupe s q.target).cues cue.toNat).isSome = true → cueNamed (begun p s) q.target cue.toNat = false →
    exec (.cueDelete p cue) s = .next (completed p .done [] [] []
      (modTroupe (begun p s) q.target fun tr => { tr with cues := tabDel tr.cues cue.toNat }))) ∧
  (∀ p q s cue increment c, Ready false anyGate (.cueAdd p cue increment) p q s → cue.toNat < 1024 →
    1 ≤ increment.toNat → increment.toNat ≤ 2 ^ 32 → tabGet (troupe s q.target).cues cue.toNat = some c →
    c.flawLo = 0 → c.flawHi = 0 →
    let sum := c.value.toNat + increment.toNat
    let v := BitVec.ofNat 64 (min (2 ^ 64 - 1) sum)
    exec (.cueAdd p cue increment) s = .next (completed p (if sum < 2 ^ 64 then .done else .saturated) []
      ((sortWaits (c.waits.filter fun w => decide (w.threshold ≤ v))).flatMap (endWait .done v))
      (if sum < 2 ^ 64 then [] else [.fault (cueMisuse q.target cue.toNat c .saturated) none])
      (modTroupe (begun p s) q.target fun tr => { tr with
        cues := tabPut tr.cues cue.toNat
          { c with value := v, waits := c.waits.filter fun w => ! decide (w.threshold ≤ v) } }))) ∧
  (∀ p q s cue threshold timeout notify c, Ready false anyGate (.cueWait p cue threshold timeout notify) p q s →
    cue.toNat < 1024 → tabGet (troupe s q.target).cues cue.toNat = some c → c.flawLo = 0 → c.flawHi = 0 →
    (threshold ≤ c.value → exec (.cueWait p cue threshold timeout notify) s = .next (completed p .done []
      (if notify = 0 then [] else [.store notify.toNat (leBytes 8 c.value.toNat)]) [] (begun p s))) ∧
    (c.value < threshold → c.waits.length < 8 →
      exec (.cueWait p cue threshold timeout notify) s = .next (heldBack p q.target q (.cueWait cue.toNat) []
        (modTroupe (begun p s) q.target fun tr => { tr with
          cues := tabPut tr.cues cue.toNat { c with
            waits := c.waits ++ [{ issuer := p.issuer, slot := p.slot, threshold := threshold, notify := notify
                                   expires := if timeout = 0 then none else some (s.house.tick + timeout.toNat) }] } })))) ∧
  (∀ p q s cue c, Ready false alwaysGate (.cueRead p cue) p q s → cue.toNat < 1024 →
    tabGet (troupe s q.target).cues cue.toNat = some c → c.flawLo = 0 → c.flawHi = 0 →
    exec (.cueRead p cue) s = .next (completed p .done [(0, leBytes 8 c.value.toNat)] [] [] (begun p s)))

/-- The step commands take effect (R21, R24, R52, R137, R279, R312, R340): a step opens where nothing refuses or holds it
and is held in intermission, an abort raises the curtain, the seed, deadline and ledger are set, a loss sample is stored
once, and a read returns the step's state. -/
def Obligations.StepCommandsComplete : Prop :=
  (∀ p q s m bookings, Ready false anyGate (.stepOpen p m bookings) p q s → 1 ≤ m.toNat → m.toNat ≤ 256 →
    (troupe s q.target).life ≠ .intermission → (troupe s q.target).held = false →
    openRefusal (begun p s) q.target m.toNat bookings = none → heldOpen s q.target = none →
    let s' := openStep q.target m.toNat bookings (begun p s)
    exec (.stepOpen p m bookings) s = .next (completed p .done (openResults s' q.target) [] [] s')) ∧
  (∀ p q s m bookings, Ready false anyGate (.stepOpen p m bookings) p q s → 1 ≤ m.toNat → m.toNat ≤ 256 →
    (troupe s q.target).life = .intermission → heldOpen s q.target = none →
    exec (.stepOpen p m bookings) s = .next
      (heldBack p q.target q (.stepOpen m.toNat bookings) [] (begun p s))) ∧
  (∀ p q s, Ready false anyGate (.stepAbort p) p q s → (flight (troupe s q.target)).isSome = true →
    exec (.stepAbort p) s = .next (completed p .done [] [] [] (curtain (some 12) q.target (begun p s)))) ∧
  (∀ p q s seed, Ready false anyGate (.stepSeed p seed) p q s →
    exec (.stepSeed p seed) s = .next (completed p .done [] [] []
      (modTroupe (begun p s) q.target fun tr => { tr with seed := seed }))) ∧
  (∀ p q s loss r, Ready false anyGate (.stepLoss p loss) p q s → openCalled (troupe s q.target) = some r →
    r.loss = none →
    exec (.stepLoss p loss) s = .next (completed p .done [] [] []
      (noteComplete q.target (judgeSpike q.target ((troupe s q.target).spikeLoss.take loss) loss
        (modTroupe (begun p s) q.target fun tr => { modLast tr (fun r => { r with loss := some loss }) with
          spikeLoss := tr.spikeLoss.take loss }))))) ∧
  (∀ p q s, Ready false alwaysGate (.stepState p) p q s →
    let tr := troupe (begun p s) q.target
    let mode := effectiveMode (begun p s) tr
    exec (.stepState p) s = .next (completed p .done
      [(0, leBytes 8 tr.opened), (8, leBytes 1 (((lastStep tr).map fun r => r.state.val.code).getD 0)),
       (16, leBytes 8 tr.epoch), (24, leBytes 8 tr.epoch),
       (32, leBytes 8 (((tr.steps.find? fun e => e.2.state.val != .retired).map (·.1)).getD 0)),
       (40, leBytes 1 mode.code), (41, leBytes 1 (bitOf (tr.pairTrickle && mode != .none)))] [] [] (begun p s))) ∧
  (∀ p q s ticks, Ready false anyGate (.stepDeadline p ticks) p q s → 2 ≤ ticks.toNat → ticks.toNat ≤ 1048575 →
    exec (.stepDeadline p ticks) s = .next (completed p .done [] [] []
      (modTroupe (begun p s) q.target fun tr => { tr with deadline := ticks.toNat }))) ∧
  (∀ p q s flags records base extBase extLen capBase capLen,
    Ready false quietGate (.stepLedger p flags records base extBase extLen capBase capLen) p q s →
    flags.toNat < 4 → 1024 ≤ records.toNat → records.toNat ≤ 16777216 →
    exec (.stepLedger p flags records base extBase extLen capBase capLen) s = .next (completed p .done [] [] []
      (modTroupe (begun p s) q.target fun tr => { tr with
        ledger := some ⟨flags.getLsbD 0, flags.getLsbD 1, records.toNat, base, extBase, extLen, capBase, capLen⟩
        ledgerCount := 0, ledgerExt := 0
        steps := tr.steps.map fun e => (e.1, { e.2 with ledgerAt := none }) })))

/-- The optimiser commands take effect (R268, R276, R278, R280): records that wait for their step, the host ring, a
detector's setting, and an export and an import that complete when the memory has been written and read. -/
def Obligations.OptCommandsComplete : Prop :=
  (∀ p q s tensor rule nesterov eta lam beta1 beta2 eps d clip effective,
    Ready false anyGate (.optSet p tensor rule nesterov eta lam beta1 beta2 eps d clip effective) p q s →
    rule.toNat < 6 → nesterov.toNat < 2 → nonNegative eta = true → nonNegative lam = true → belowOne beta1 = true →
    belowOne beta2 = true → positive eps = true → positive d = true → nonNegative clip = true →
    (tabGet (troupe s q.target).bill tensor.toNat).isSome = true → (troupe s q.target).opened < effective.toNat →
    exec (.optSet p tensor rule nesterov eta lam beta1 beta2 eps d clip effective) s = .next (completed p .done [] [] []
      (modTroupe (begun p s) q.target fun tr => { tr with
        opt := tabPut tr.opt tensor.toNat (optRec tr tensor.toNat, some
          ({ rule := rule.toNat, nesterov := nesterov == 1, etaWord := ⟨eta, 0⟩, lamWord := ⟨lam, 0⟩
             beta1Word := ⟨beta1, 0⟩, beta2Word := ⟨beta2, 0⟩, epsWord := ⟨eps, 0⟩, dWord := ⟨d, 0⟩
             clipWord := ⟨clip, 0⟩ }, effective.toNat)) }))) ∧
  (∀ p q s gamma lag effective, Ready false anyGate (.optTroupe p gamma lag effective) p q s →
    (troupe s q.target).opened < effective.toNat →
    (lag.toNat = (troupe s q.target).lag ∨ (troupe s q.target).hostSlots = []) →
    exec (.optTroupe p gamma lag effective) s = .next (completed p .done [] [] []
      (modTroupe (begun p s) q.target fun tr => { tr with pendingOpt := some (gamma, lag.toNat, effective.toNat) }))) ∧
  (∀ p q s base slotLen, Ready false quietGate (.optHost p base slotLen) p q s →
    exec (.optHost p base slotLen) s = .next (completed p .done [] [] []
      (modTroupe (begun p s) q.target fun tr => { tr with hostRing := (base, slotLen) }))) ∧
  (∀ p q s detector armed k ratio warmup, Ready false anyGate (.optSpike p detector armed k ratio warmup) p q s →
    detector.toNat < 2 → armed.toNat < 2 → 1 ≤ k.toNat → k.toNat ≤ 10 → f32Nan ratio = false →
    f32Lt f32One ratio = true →
    exec (.optSpike p detector armed k ratio warmup) s = .next (completed p .done [] [] []
      (modTroupe (begun p s) q.target fun tr => { tr with
        pendingSpike := tr.pendingSpike ++ [(detector.toNat, armed == 1, k.toNat, ratio, warmup.toNat)] }))) ∧
  (∀ p q s count ids dest, Ready false anyGate (.optExport p count ids dest) p q s → 1 ≤ count.toNat →
    exportable (troupe (begun p s) q.target) (idList s ids.toNat count.toNat) = true →
    exec (.optExport p count ids dest) s = .next
      (heldBack p q.target q (.optExport (idList s ids.toNat count.toNat) dest) [] (begun p s))) ∧
  (∀ p q s count ids source, Ready false quietGate (.optImport p count ids source) p q s → 1 ≤ count.toNat →
    exportable (troupe (begun p s) q.target) (idList s ids.toNat count.toNat) = true →
    exec (.optImport p count ids source) s = .next
      (heldBack p q.target q (.optImport (idList s ids.toNat count.toNat) source) [] (begun p s)))

/-- The understudy commands take effect (R287, R295, R302, R303, R305, R306, R310): a pair and its prop room are set, a
resync copies what an OPEN mirror line can carry, a stand-in freezes the mirror and knocks for the lost address, an encore
holds STEP_OPEN, a promotion takes the lost address, an export of the mirror waits for its writing. -/
def Obligations.SpareCommandsComplete : Prop :=
  (∀ p q s line mode flags owned, Ready false quietGate (.sparePair p line mode flags owned) p q s →
    mode.toNat < 3 → flags.toNat < 2 → mirrorSuits (begun p s) q.target line.toNat = true →
    propFits (begun p s) q.target (troupe s q.target).propK owned.toNat = true →
    exec (.sparePair p line mode flags owned) s = .next (completed p .done [] [] []
      (modTroupe (begun p s) q.target fun tr => { tr with
        pairLine := line.toNat, pairMode := modeOf mode.toNat, pairTrickle := flags == 1, pairOwned := owned.toNat
        diverged := false, noCheck := false
        mirror := { tr.mirror with frozen := false, standIn := none, standSent := false, diverged := false } }))) ∧
  (∀ p q s k n, Ready false quietGate (.spareProp p k n) p q s → 2 ≤ k.toNat → k.toNat ≤ 16 → 1 ≤ n.toNat →
    n.toNat ≤ k.toNat → propFits (begun p s) q.target k.toNat (troupe s q.target).pairOwned = true →
    exec (.spareProp p k n) s = .next (completed p .done [] [] []
      (modTroupe (begun p s) q.target fun tr => { tr with propK := k.toNat, propN := n.toNat }))) ∧
  (∀ p q s, Ready true anyGate (.spareResync p) p q s → (troupe s q.target).diverged = true →
    holdsBy s q.target Awaits.isResync = false →
    let ln := lineOf (troupe s q.target) (troupe s q.target).pairLine
    exec (.spareResync p) s = .next (heldBack p q.target q (.resync ln.epoch) []
      (if ln.state.val = .opened then sendCopy q.target (begun p s) else begun p s))) ∧
  (∀ p q s lost, Ready true anyGate (.spareStandin p lost) p q s → addressOk lost = true →
    (troupe s q.target).pairMode ≠ .none → (troupe s q.target).mirror.standIn = none →
    (lineOf (troupe s q.target) (troupe s q.target).pairLine).peers.head?.any (fun k => k.addr == lost.setWidth 48) =
      true →
    exec (.spareStandin p lost) s = .next (heldBack p q.target q .standIn []
      ((((troupe s q.target).lines.filter fun e =>
          decide (e.1 < 512) && e.2.carousel && e.2.members.contains (lost.setWidth 48)).map (·.1)).foldl
        (fun s l => standLine q.target (lost.setWidth 48) l s)
        (modMirror (begun p s) q.target fun m =>
          { m with frozen := true, standIn := some (lost.setWidth 48), standSent := false })))) ∧
  (∀ p q s, Ready true anyGate (.spareEncore p) p q s →
    exec (.spareEncore p) s = .next (completed p .done [] [] []
      (modTroupe (begun p s) q.target fun tr => { tr with held := true }))) ∧
  (∀ p q s lost standin donors donorCount, Ready true quietGate (.sparePromote p lost standin donors donorCount) p q s →
    addressOk lost = true → addressOk standin = true →
    donorCount.toNat = (troupe s q.target).carousels.length →
    (∀ a ∈ readAddresses s donors.toNat donorCount.toNat, addressOk a = true) →
    (troupe s q.target).pairMode ≠ .none → (troupe s q.target).sealed = true →
    tableHolds (troupe (begun p s) q.target) (lost.setWidth 48) = true → (troupe s q.target).steps = [] →
    (troupe s q.target).promotion = none →
    exec (.sparePromote p lost standin donors donorCount) s = .next
      (heldBack p q.target q (.promote (lost.setWidth 48) (standin.setWidth 48)) []
        (modTroupe (begun p s) q.target fun tr => { tr with
          address := some (lost.setWidth 48), promotion := some (lost.setWidth 48, standin.setWidth 48)
          encoreDone := false, mirror := { tr.mirror with frozen := false } }))) ∧
  (∀ p q s dest, Ready true anyGate (.spareExport p dest) p q s →
    ((troupe s q.target).mirror.standIn).isSome = true →
    exec (.spareExport p dest) s = .next (heldBack p q.target q (.spareExport dest) [] (begun p s)))

/-- The ends of the exports and of an import complete their command (R280, R310, R390): the states stand in memory one
after the other, an import's states are the committed version, and STEP_OPEN may be served again once no owned tensor is
left to import. -/
def Obligations.ExportEndsComplete : Prop :=
  (∀ dt t s d ids dest, s.deferred.findSome? (exportOf t) = some (d, ids, dest) →
    let s' := useVersion t (passCk dt s)
    exec (.optExportComplete dt t) s = .next (run [.complete d.issuer d.slot .done []]
      (exportAll (troupe s' t) ids dest.toNat s'))) ∧
  (∀ dt t s d dest, s.deferred.findSome? (spareExportOf t) = some (d, dest) →
    let s1 := passCk dt s
    exec (.spareExportComplete dt t) s = .next (run [.complete d.issuer d.slot .done []]
      (exportArea (troupe s1 t) (troupe s t).mirror.checked dest.toNat s1))) ∧
  (∀ dt t s d ids source, s.deferred.findSome? (importOf t) = some (d, ids, source) →
    let s1 := passCk dt s
    let new := (importPlaces (troupe s1 t) ids source.toNat).map fun e => (e.1, imported s1 (troupe s1 t) e)
    exec (.optImportComplete dt t) s = .next (run [.complete d.issuer d.slot .done []]
      (modTroupe s1 t fun tr =>
        let tr := setCommitted tr (new.foldl (fun a e => tabPut a e.1 e.2) (committed tr))
        let left := tr.toImport.filter fun i => ! ids.contains i
        { tr with toImport := left, needImport := tr.needImport && ! left.isEmpty
                  tierChanged := tr.tierChanged.filter fun i => ! ids.contains i })))

/-- Writes to the window that pass the checks of Table 13.2 take effect (R319, R320, R326, R346, R355, R357, R362): a ring
doorbell sets the tail, a call doorbell posts the slots of its mask, ERR_READ releases records, CHK_CTRL starts a scan,
and a plain write reaches its slot bytes, ERR_CUE or CHK_BASE. -/
def Obligations.WindowWritesComplete : Prop :=
  (∀ a s t r, let s1 := passCk a.dt s
    aimsAt a 0x2008 = some t → denial s1 a true = none →
    let ring := bits (pcVal (wordOf a)) 17 12
    tabGet (troupe s t).rings ring = some r → r.head.flaw = 0 → r.tail.flaw = 0 →
    let tail := fullTail r.tail.val (bits (pcVal (wordOf a)) 0 17)
    (tail - r.tail.val).toNat ≤ r.depth → (tail - r.head.val).toNat ≤ r.depth →
    exec (.ringDoorbell a) s = .next (respond .done [] (modTroupe s1 t fun tr =>
      { tr with rings := tabPut tr.rings ring { r with tail := ⟨tail, 0⟩ } }))) ∧
  (∀ a s t, let s1 := passCk a.dt s
    aimsAt a 0x2000 = some t → denial s1 a true = none →
    exec (.callDoorbell a) s = .next (respond .done []
      (((List.range 32).filter fun k => (wordOf a).getLsbD k).foldl (fun s k => postSlot t k s) s1))) ∧
  (∀ a s, let s1 := passCk a.dt s
    placeOf (a.offset / 8 * 8) = .house 0x30 → denial s1 a true = none →
    BitVec.ofNat 32 (pcVal (wordOf a)) - errReadVal s.log ≤ s.log.write - errReadVal s.log →
    exec (.errRead a) s = .next (respond .done [] { s1 with
      log := { s.log with read := wordOf a, pcFound := s.log.pcFound.erase 0x30 } })) ∧
  (∀ a s, let s1 := passCk a.dt s
    placeOf (a.offset / 8 * 8) = .check 0x08 → denial s1 a true = none → 1 ≤ pcVal (wordOf a) →
    pcVal (wordOf a) ≤ 2 ^ 20 →
    exec (.chkCtrl a) s = .next (respond .done []
      { s1 with check := { s.check with ctrl := wordOf a, busy := true, finished := false } })) ∧
  (∀ a s, let s1 := passCk a.dt s
    denial s1 a true = none →
    (∀ t off, placeOf a.offset = .page t off → off < 0x2000 →
      exec (.registerWrite a) s = .next (respond .done [] (modTroupe s1 t fun tr =>
        { tr with board := memWrite tr.board off (slice a.data 0 a.size) }))) ∧
    (placeOf a.offset = .house 0x40 →
      exec (.registerWrite a) s = .next (respond .done [] { s1 with log := { s.log with cue := wordOf a } })) ∧
    (placeOf a.offset = .check 0 →
      exec (.registerWrite a) s = .next (respond .done [] { s1 with check := { s.check with base := wordOf a } })))

/-- A refused access changes nothing but its gauge, its one record per tag and status in a tick, and RING_STATUS
(R347, R356); a scan's end and a read that passes answer as Table 13.11 and R345 say. -/
def Obligations.WindowReadsAndScansComplete : Prop :=
  (∀ a s d, denial (passCk a.dt s) a false = some d →
    d.recorded = true → s.log.accessSeen.contains (a.tag, d.status) = false →
    exec (.windowAccessRefused a) s = .next (respond d.reply []
      (record (accessRec a false d.status)
        { gauge (passCk a.dt s) a.tag 0x520 1 with
          log := { s.log with accessSeen := (a.tag, d.status) :: s.log.accessSeen } }))) ∧
  (∀ a s d, denial (passCk a.dt s) a false = some d → d.recorded = true →
    s.log.accessSeen.contains (a.tag, d.status) = true →
    exec (.windowAccessRefused a) s = .next (respond d.reply [] (suppress (gauge (passCk a.dt s) a.tag 0x520 1)))) ∧
  (∀ a s, denial (passCk a.dt s) a false = none →
    exec (.windowAccessRefused a) s = .next (respond .done (readBytes (passCk a.dt s) a) (passCk a.dt s))) ∧
  (∀ dt s, s.check.busy = true → brokenWords s = [] →
    let s1 := (scanned s).foldl (fun s a => spendShare (Config.pitAt a % max 1 s.house.pits) 8 s) (passCk dt s)
    exec (.checkScanEnd dt) s = .next { s1 with
      check := { s.check with busy := false, finished := true, broken := 0, first := 0 } }) ∧
  (∀ dt s a bad, s.check.busy = true → brokenWords s = a :: bad →
    let s1 := (scanned s).foldl (fun s a => spendShare (Config.pitAt a % max 1 s.house.pits) 8 s) (passCk dt s)
    exec (.checkScanEnd dt) s = .next (record { sub := .ledger, status := .integrity, address := a, detail := bad.length + 1 }
      { s1 with
        check := { s.check with
          busy := false, finished := true, broken := bad.length + 1, first := BitVec.ofNat 64 a } }))

/-- Reset and bring-up take effect (R336, R376, R384, R385, Table 14.9): a reset puts every register but straps, fuses and
links at its reset value and keeps memory and the queue, a release darkens the units that failed, Nimlia comes up after
the rehearsal and opens the doors when the block is ready, and the late doors are recorded once. -/
def Obligations.BringUpComplete : Prop :=
  (∀ dt s, exec (.chipReset dt true) s = .next { s with
      house := { pits := s.house.pits, coord := s.house.coord, lfsr := laneSeeds (256 * (s.house.pits + 1)) 0, draws := s.house.draws
                 units := s.house.units.map fun e => (e.1, ({} : UnitRec)) }
      log := {}, check := {}, troupes := [(0, {})], slices := [], deferred := []
      ports := s.ports.map fun e => (e.1, { ({} : Port) with tx := e.2.tx }) }) ∧
  (∀ dt s, exec (.chipReset dt false) s = .next { s with
      house := { pits := s.house.pits, coord := s.house.coord, lfsr := laneSeeds (256 * (s.house.pits + 1)) 0, draws := s.house.draws
                 units := s.house.units.map fun e => (e.1, { ({} : UnitRec) with fused := e.2.fused, dark := e.2.fused }) }
      log := {}, check := {}, troupes := [(0, {})], slices := [], deferred := []
      ports := s.ports.map fun e =>
        (e.1, { ({} : Port) with link := if e.2.link = .lit then .lit else .unlit, tx := e.2.tx }) }) ∧
  (∀ dt s failed, s.house.released = false →
    exec (.resetRelease dt failed) s = .next
      ((failed.eraseDups.filter fun u => unitExists s.house.pits u && ! (unitOf s u).fused).foldl (fun s u => failUnit u s)
        (modHouse (passCk dt s) fun h => { h with released := true, releaseCk := h.ck, rehearsed := true }))) ∧
  (∀ dt s, s.house.released = true → s.house.rehearsed = true → s.house.fwUp = false →
    exec (.nimliaUp dt) s = .next (modHouse (passCk dt s) fun h => { h with fwUp := true, silentTicks := 0 })) ∧
  (∀ dt s, s.house.fwUp = true → s.house.doorsOpen = false → doorsReady s = true →
    exec (.doorsOpen dt) s = .next (modHouse (passCk dt s) fun h => { h with doorsOpen := true, takeCounter := none })) ∧
  (∀ dt s, s.house.fwUp = true → s.house.doorsOpen = false → s.house.doorsRecord = false →
    s.house.releaseCk + 720000000 ≤ s.house.ck + dt →
    exec (.doorsTimeout dt) s = .next (record { sub := .prompter, status := .timeout }
      (modHouse (passCk dt s) fun h => { h with doorsRecord := true })))

/-- Adrift and stalled (R37, R365): entered with one record, and adrift left after 16 ticks within ±40 ns. -/
def Obligations.AdriftAndStallComplete : Prop :=
  (∀ dt s, s.house.adrift = false → 16 ≤ s.house.ticksOut ∨ s.house.periodClash = true →
    exec (.adriftEnter dt) s = .next (record { sub := .portComplex, status := .timeout }
      (modHouse (passCk dt s) fun h => { h with adrift := true, ticksIn := 0 }))) ∧
  (∀ dt s, s.house.adrift = true → 16 ≤ s.house.ticksIn →
    exec (.adriftClear dt) s = .next (modHouse (passCk dt s) fun h =>
      { h with adrift := false, periodClash := false, alignedCk := some (s.house.ck + dt) })) ∧
  (∀ dt s, s.house.fwUp = true → s.house.stalled = false → 64 ≤ s.house.silentTicks →
    exec (.prompterStall dt) s = .next (record { sub := .prompter, status := .timeout }
      (modHouse (passCk dt s) fun h => { h with stalled := true })))

/-- Rehearsal takes effect (R370, R372, R373, R377): a right slice counts, a wrong one is remembered and the vector's
second wrong result fails the unit, and a full rehearsal that passes ends its command or clears the unit at the next
tick. -/
def Obligations.RehearsalComplete : Prop :=
  (∀ dt unit vector s, mayRehearse (passCk dt s) unit = true →
    (unitOf s unit).skippedVectors.contains vector = false → (unitOf s unit).suspect = none →
    exec (.rehearsalSlice dt unit vector .right) s = .next
      (unitGauge (modUnit (modUnit (passCk dt s) unit fun r => { r with spent := r.spent + 256 }) unit fun r =>
        { r with suspect := none }) unit 0) ∧
    exec (.rehearsalSlice dt unit vector .wrong) s = .next
      (modUnit (unitGauge (modUnit (passCk dt s) unit fun r => { r with spent := r.spent + 256 }) unit 0) unit fun r =>
        { r with suspect := some vector })) ∧
  (∀ dt unit vector s, mayRehearse (passCk dt s) unit = true →
    (unitOf s unit).skippedVectors.contains vector = false → (unitOf s unit).suspect = some vector →
    exec (.rehearsalSlice dt unit vector .wrong) s = .next
      (failUnit unit (unitGauge (modUnit (passCk dt s) unit fun r => { r with spent := r.spent + 256 }) unit 0))) ∧
  (∀ dt unit s, (unitOf s unit).resetting = true →
    exec (.rehearsalComplete dt unit true) s = .next (modUnit (passCk dt s) unit fun r =>
      { r with resetting := false, clearing := true, stopping := false })) ∧
  (∀ dt unit s, (unitOf s unit).resetting = false → (unitOf s unit).testing = some true →
    exec (.rehearsalComplete dt unit true) s = .next (modUnit (passCk dt s) unit fun r => { r with clearing := true }) ∧
    exec (.rehearsalComplete dt unit false) s = .next (endTest unit false (failureRecord unit (passCk dt s)))) ∧
  (∀ dt unit s, (unitOf s unit).resetting = false → (unitOf s unit).testing = some false →
    exec (.rehearsalComplete dt unit true) s = .next (endTest unit true (passCk dt s)))

/-- Emits, chunks and metering take effect (R72, R75, R76, R80, R84, R139, Table 3.4): a descriptor joins its troupe's
queue or stalls its core, the head that matches the open step is taken with its slot held, a finite chunk of a step of
several micro-batches is read and its slot released, a micro-batch that does not complete its chunk is added, and a
window gives its pit the whole allowance but for what earlier work overdrew, and the frames that wait for it go on. -/
def Obligations.IntakeComplete : Prop :=
  (∀ dt core desc s, let s1 := passCk dt s
    let t := coreTroupe s.house core
    (troupe s t).life ≠ .absent → (∀ e ∈ s.house.stalledEmits, e.1 ≠ core) →
    exec (.emit dt core desc) s = .next
      (if (troupe s t).queue.length < 512 then
        modTroupe s1 t fun tr => { tr with queue := tr.queue ++ [stamped t desc] }
       else modHouse s1 fun h => { h with stalledEmits := h.stalledEmits ++ [(core, t, stamped t desc)] })) ∧
  (∀ dt s t d rest r, let s1 := passCk dt s
    (inletOrder s1).find? (headReady s1) = some t → (troupe s t).queue = d :: rest →
    tagJudge (troupe s1 t) (field d 12 2) = .taken → openCalled (troupe s1 t) = some r →
    descStatus (troupe s1 t) r d = none →
    exec (.emitTake dt) s = .next (takeEmit t r d (modHouse (popQueue t s1) fun h => { h with inletTurn := t }))) ∧
  (∀ dt t s k e r, let s1 := passCk dt s
    ((troupe s t).taken.find? fun k => ! k.read && hasShare s1 (homePit s.house.pits k.tensor k.chunk)) = some k →
    ((graphOfTensor (troupe s1 t) k.tensor).bind fun g => g.tensor k.tensor) = some e →
    let data := slotElements s1 k.slot (chunkLength e.2.1 e.2.2.2 k.chunk) e.2.2.2
    (∀ x ∈ data, f32Finite x = true) → stepOf (troupe s t) k.step = some r → r.m ≠ 1 →
    exec (.chunkRead dt t) s = .next (releaseSlot t k.slot k.cue (modTroupe s1 t fun tr => { tr with
      taken := tr.taken.map fun j => if j == k then { k with read := true, data := data } else j }))) ∧
  (∀ dt t tensor chunk s k r, let s1 := passCk dt s
    let pit := homePit s.house.pits tensor chunk
    ((troupe s t).taken.find? fun k => k.read && k.tensor == tensor && k.chunk == chunk) = some k →
    hasShare s1 pit = true → pitWaits s1 pit = false → flight (troupe s t) = some r → r.num = k.step →
    let c := tabGetD (troupe s t).chunks (chunkKey tensor chunk) {}
    (∀ x ∈ accumulate c k.data, f32Finite x = true) → c.added + 1 ≠ r.m →
    exec (.chunkAccumulate dt t tensor chunk) s = .next
      (modTroupe (spendShare pit (addBytes (c.added == 0) false k.data.length)
          (modTroupe s1 t fun tr => { tr with taken := tr.taken.erase k })) t fun tr => { tr with
        chunks := tabPut tr.chunks (chunkKey tensor chunk)
          { c with acc := accumulate c k.data, added := c.added + 1 } })) ∧
  (∀ dt pit s, pit < s.house.pits →
    let s1 := modHouse (passCk dt s) fun h => { h with
      allowance := tabPut h.allowance pit (s.house.pitShare * 20000 - tabGetD h.owed pit 0)
      owed := tabPut h.owed pit (tabGetD h.owed pit 0 - s.house.pitShare * 20000) }
    exec (.pitWindowOpen dt pit) s = .next ((s1.ports.map (·.1)).foldl (fun s port =>
      [2, 3, 4].foldl (fun s prio => drainHere port prio (portOf s port).rx.length s) s) s1))

/-- Quantisation and packing take effect (R97–R102, R126–R128, R168, R177, R178): a pass that may start, over whole entries
and a whole residual bank word, takes its choice and, if sparse, a free band buffer; a pass that ends, with whole scale
words, leaves its blocks, its residuals, its histogram and history bytes, and cuts at once, by a band cut or by re-reads; a
band is cut at its quota-th largest key and a re-read narrows it by one radix level, each once the pit share lets it; and
the first open item, or in ad-lib mode any ready one, is packed for its member on a carousel of its own or another. -/
def Obligations.QuantisationComplete : Prop :=
  (∀ dt t b s, let s1 := passCk dt s
    let tr := troupe s1 t
    passReady s1 t b = true → tr.bank.flaw = 0 →
    (∀ e ∈ (graphAt tr b).tensors, ∀ x, tabGet tr.bill e.1 = some x → x.ident = 0) →
    let c := bucketChoice tr b
    exec (.quantPassStart dt t b) s = .next
      (modWork (modTroupe s1 t fun tr => modLast tr fun r => r.phase 2 fun p => p.start s1) t b fun w =>
        { w with pass := .running, choice := some c, buffer := if c.sparse then freeBuffer tr else none })) ∧
  (∀ dt t b s r c, let s1 := passCk dt s
    let tr := troupe s1 t
    let g := graphAt tr b
    let w := workOf tr b
    openCalled tr = some r → w.pass = .running → r.num = tr.workStep → w.choice = some c →
    (∀ k < cdiv g.blocks 4, (tabGetD w.words k ⟨0, 0⟩).flaw = 0) →
    let vals := bucketValues s1 tr g
    let all := vals.flatMap id
    let out := (passOrder tr g).foldl (fun o k => passBlock tr g w c r k (vals.getD k []) o) (({} : PassOut), s1.house)
    let hist := (List.range bins).map fun j => (all.filter fun v => magBin v == j).length / 2 ^ histShift g.padded
    let bytes := (g.tensors.filter fun e => usesHistory tr e.1).map fun e =>
      ((List.range (tensorBlocks e).2).map fun k => w.locals.getD ((tensorBlocks e).1 + k) 0).foldl max 0
    let s2 := modWork (modTroupe (spendPass (r.m == 1) out.1.quant g.chunkList { s1 with house := out.2 }) t fun tr =>
        g.chunkList.foldl (fun tr k => storeChunk tr out.1.res k) tr) t b fun w => { w with
      quant := out.1.quant, band := out.1.band, hist := hist
      histVec := w.histVec.give (g.own tr) (hist.map Int.ofNat)
      byteVec := w.byteVec.give (g.own tr) (bytes.map Int.ofNat) }
    let quota := localQuota g.padded (sieveRec tr b).density - (all.filter fun v => c.edge < magBin v).length
    let size := out.1.band.length
    let s3 := spendShare (bufferPit s2.house.pits w.buffer) (8 * size) s2
    let lo := c.edge * 2 ^ 51
    let hi := (c.edge + 1) * 2 ^ 51
    exec (.quantPassEnd dt t b) s = .next
      (if c.sparse = false then endPass t b 0 s2
       else if c.banded = false then endPass t b (2 ^ 51) s2
       else if 2 ^ 20 < size then modWork s2 t b fun w => { w with pass := .reread, cut := some (lo, hi, quota, 1) }
       else if quota = 0 then endPass t b hi s3
       else if size ≤ quota then endPass t b lo s3
       else modWork s3 t b fun w => { w with pass := .band, cut := some (lo, hi, quota, 1) })) ∧
  (∀ dt t b s cut, let s1 := passCk dt s
    let w := workOf (troupe s1 t) b
    let pit := bufferPit s1.house.pits w.buffer
    w.pass = .band → w.cut = some cut → hasShare s1 pit = true →
    exec (.bandCut dt t b) s = .next (endPass t b ((bandKeys w.band cut.1 cut.2.1).getD (cut.2.2.1 - 1) 0)
      (spendShare pit (cutBytes (if liveNetworks s1 = 0 then 1 else 1024) w.band 6 cut) s1))) ∧
  (∀ dt t b s cut, let s1 := passCk dt s
    let tr := troupe s1 t
    let w := workOf tr b
    let ks := (graphAt tr b).chunkList
    w.pass = .reread → w.cut = some cut → pitsReady s1 ks = true →
    let s2 := gauge (spendChunks (passBytes ((lastStep tr).any (·.m == 1))) ks s1) t 0x118 1
    let next := radixLevel w.band cut
    let left := (bandKeys w.band next.1 next.2.1).length
    exec (.bandReread dt t b) s = .next
      (if cut.2.2.1 = 0 then endPass t b cut.2.1 s2
       else if cut.2.2.2 = 1 ∧ w.band.length ≤ cut.2.2.1 then endPass t b cut.1 s2
       else if left ≤ 2 ^ 20 then modWork (spendShare (bufferPit s2.house.pits w.buffer) (8 * left) s2) t b fun w =>
         { w with cut := some next, pass := .band }
       else modWork s2 t b fun w => { w with cut := some next })) ∧
  (∀ dt t pick s i rest, let s1 := passCk dt s
    packerWaits s1 = false → stepScripted (troupe s1 t) = true → openItems (troupe s1 t) = i :: rest →
    itemReady (troupe s1 t) i = true →
    exec (.packItem dt t pick) s = .next (packItem t i 0 s1)) ∧
  (∀ dt t pick s i, let s1 := passCk dt s
    let ready := (openItems (troupe s1 t)).filter (itemReady (troupe s1 t))
    packerWaits s1 = false → stepScripted (troupe s1 t) = false → ready[pick % max 1 ready.length]? = some i →
    exec (.packItem dt t pick) s = .next (packItem t i (pick / max 1 ready.length) s1)) ∧
  (∀ t i k s, let tr := troupe s t
    let s1 := modTroupe s t fun tr => { tr with packed := i.key :: tr.packed }
    packItem t i k s = sendMember t (carouselOf tr (graphAt tr i.key.bucket).carousel) (i.nth + k) i.dest none
      (some (itemOf tr i.key)) (itemCars s1 t tr i) s1)

/-- Sieve calls take effect (R110, R112–R116, Table 4.8): the first ring with a call is taken, a local call leaves its
unique keys, counts and inverse, then its record, then its cue, and a carousel call without every return after 4,096
ticks ends with TIMEOUT. -/
def Obligations.SieveCallsComplete : Prop :=
  (∀ dt t s n r, let s1 := passCk dt s
    sieveWaits (troupe s1 t) = true → (∀ e ∈ s1.troupes, e.1 < t → sieveWaits e.2 = false) →
    ((troupe s t).rings.find? fun e => ringReady 2 e.2) = some (n, r) → ringWhole r = true →
    let c := readSieve s1 t n (headDescriptor s1 r)
    c.2 = true → c.1.kind = 1 → c.1.bound = false → liveNetworks (takeDescriptor t n s1) ≠ 0 →
    exec (.sieveCallTake dt t) s = .next
      (modTroupe (takeDescriptor t n s1) t fun tr => { tr with sieveCalls := c.1 :: tr.sieveCalls })) ∧
  (∀ dt t s c, let s1 := passCk dt s
    activeCall (troupe s t) = some c → c.kind = 1 →
    exec (.sieveCallComplete dt t) s = .next (endDescriptor t c.ring c.compl.toNat
      (callRecord .done (uniqueCounts (callKeys s1 c)).length 0 0) c.cue (dropCall (localCall c s1) t c))) ∧
  (∀ dt t s c, let s1 := passCk dt s
    activeCall (troupe s t) = some c → c.kind = 2 → c.issued + 4096 ≤ s.house.tick → c.status = none →
    (List.range (carouselOf (troupe s t) c.carousel).members.length).all c.returned.contains = false →
    exec (.sieveCallTimeout dt t) s = .next (callCurtain t c (endDescriptor t c.ring c.compl.toNat
      (callRecord .timeout 0 0 0) c.cue (dropCall s1 t c))))

/-- Line and spill descriptors take effect (R57, R139, R145–R149, R203, R327, Table 5.9): the next ring in turn that its
booking or shaper carries, with a descriptor whose line is not CLOSING, is taken; the lowest troupe's spill call is taken
where no quantisation pass waits on its pit, and then stores or restores its elements and writes its record. -/
def Obligations.DescriptorsComplete : Prop :=
  (∀ dt t s n r, let s1 := passCk dt s
    takesRings (troupe s1 t) = true →
    (ringOrder (troupe s1 t)).find? (lineRingReady s1 (troupe s1 t)) = some (n, r) →
    ringWhole r = true →
    exec (.lineDescriptorTake dt t) s = .next (takeLine t n r s1)) ∧
  (∀ dt t s n r, let s1 := passCk dt s
    spillGoes s1 (troupe s1 t) = true → (∀ e ∈ s1.troupes, e.1 < t → spillGoes s1 e.2 = false) →
    spillRing (troupe s1 t) = some (n, r) → ringWhole r = true →
    let c := readSpill n (headDescriptor s1 r)
    let s2 := takeDescriptor t n s1
    c.2 = true → descCueOk (troupe s2 t) c.1.cue.toNat = true → spillInside (troupe s2 t) c.1 = true →
    exec (.spillCallTake dt t) s = .next (modTroupe s2 t fun tr => { tr with spills := [c.1] })) ∧
  (∀ dt t s c rest, let s0 := modTroupe (passCk dt s) t fun tr => { tr with spills := rest }
    (troupe s t).spills = c :: rest →
    let n := storedBytes c.format c.count
    let s1 := if c.host then s0 else spendShare (spillPit s0 c) n s0
    (c.restore = true →
      exec (.spillCallComplete dt t) s = .next (spillDrained t (endDescriptor t c.ring c.compl.toNat
        (callRecord .done (n % 2 ^ 32) 0 (n / 2 ^ 32)) c.cue
        { s1 with
          scratch := memWrite s.scratch c.scratch.toNat (spillBack c (peek c.host s c.store.toNat n)) }))) ∧
    (c.restore = false → c.digest = false → (∀ v ∈ (spillSource s c).1, f32Finite v = true) →
      exec (.spillCallComplete dt t) s = .next (spillDrained t (endDescriptor t c.ring c.compl.toNat
        (callRecord .done (n % 2 ^ 32) 0 (n / 2 ^ 32)) c.cue
        (poke c.host s1 c.store.toNat (spillOut c (spillSource s c)))))))

/-- The updates and the mirror's events take effect (R270, R272, R276, R298–R301, R304, R306, R313): a command is issued
for open blocks of the next tensor that is ready, with what the sequencer finds broken recorded once, its results enter the pending version with their deltas, host results that have been
written are marked as read, verdicts are sent and taken, an encore that finds nothing bad ends the promotion, a capture
is copied and its slot released. -/
def Obligations.UpdatesAndMirrorComplete : Prop :=
  (∀ dt t s r b e, let s1 := passCk dt s
    let tr := troupe s1 t
    let s2 (e : Nat × Nat × Nat × Bool) := useEntry .updateSequencer t e.1 (useParams t e.1 (useVersion t s1))
    lastStep tr = some r → nextUpdate s1 t = some (b, e) → r.state.val = .called → s.house.updates.length < 32 →
    exec (.updateIssue dt t) s = .next (modTroupe (modHouse (s2 e) fun h => { h with updates := h.updates ++
        [⟨t, e.1, commandBlocks s.house.pits e (openBlocks s1 t (graphAt tr b) e), r.num⟩] }) t fun tr' =>
      modLast tr' fun r => r.phase 4 fun p => p.start (s2 e))) ∧
  (∀ dt t s u rest g te r, let s1 := passCk dt s
    let tr := troupe s1 t
    s.house.updates = u :: rest → u.troupe = t → graphOfTensor tr u.tensor = some g → g.tensor u.tensor = some te →
    stepOf tr u.step = some r → inFlight r = true → r.mirror ≠ .copy →
    let new := updateTensor tr g.bucket te u.blocks
    (∀ k ∈ u.blocks, blkFinite (blockOf new k) = true) →
    let s2 := formDeltas t g.bucket te u.blocks
      (modTroupe (spendDigest s.house.pits te u.blocks (modHouse s1 fun h => { h with updates := rest })) t fun tr' =>
        { setPending tr' (tabPut (pendingArea tr') u.tensor new) with
          written := tr'.written ++ u.blocks.map fun k => (u.tensor, k) })
    exec (.updateComplete dt t) s = .next (noteComplete t (modTroupe s2 t fun tr' =>
      if promptWritten tr' then modLast tr' fun r => r.phase 4 fun p => p.stop s2 else tr'))) ∧
  (∀ dt t s r, let s1 := passCk dt s
    let due := dueSlots (troupe s1 t) r.num
    let fresh := due.filter fun h => h.read.isNone && doneWritten s1 (troupe s1 t) h.step
    let s2 := modTroupe s1 t fun tr => { tr with
      hostSlots := tr.hostSlots.map fun h => if fresh.contains h then { h with read := some r.num } else h }
    let due2 := dueSlots (troupe s2 t) r.num
    lastStep (troupe s1 t) = some r → r.state.val = .called → fresh ≠ [] →
    exec (.delayedDoneRead dt t) s = .next (if due2.all (·.read.isSome) then
        noteComplete t (takeMasters t r.num (delayedOwned (troupe s2 t))
          (leNat (peek true s2 (hostSlotAt (troupe s2 t) (due2.foldl (fun a h => max a h.step) 0) + 32) 8)) (useVersion t s2))
      else s2)) ∧
  (∀ dt t step s r h, let s1 := passCk dt s
    let tr := troupe s1 t
    digestWritten tr step = some r → tabGet tr.mirror.halves step = some h → step % max 1 tr.propN = 0 →
    h.running ≠ [] → tr.mirror.passed = none → tr.mirror.diverged = false → badKinds r h.running = [] →
    exec (.verdictCompare dt t step) s = .next (modMirror
      (mirrorWrite t step (place t kindVerdict 0) (mirrorCharge tr) (leBytes 8 (pcWord (verdictValue step [])).toNat) s1)
      t fun m => { m with passed := some (step, s.house.tick) })) ∧
  (∀ dt t s pulled, let s1 := passCk dt s
    (troupe s t).promotion.isSome = true → (troupe s t).encoreDone = false →
    holdsBy s t Awaits.isPromote = true → (encore (troupe s1 t) pulled).bad = none →
    exec (.encoreRun dt t pulled) s = .next (encoreOk t pulled (encore (troupe s1 t) pulled) s1)) ∧
  (∀ dt t step s p r, (troupe s t).ledger = some p → stepOf (troupe s t) step = some r → r.capturing = true →
    (halfBytes r).length ≤ p.capLen.toNat →
    exec (.captureComplete dt t step) s = .next (modTroupe (pokeHost (passCk dt s)
        (p.capBase.toNat + step % max 1 (p.capLen.toNat / max 1 (halfBytes r).length) * (halfBytes r).length)
        (halfBytes r)) t fun tr => modStep tr step releaseHalf))

/-- A carriage in sequence on a matching line is applied and accepted (R180, R191, R199, R207, R209, R210, R221, R275,
R291, R294): a WRITE writes its content, a REDUCE_WRITE reduces, a READ_REQUEST is answered with READ_RESPONSE carriages
charged to the shaper, a READ_RESPONSE writes at the requester's address, a fence carriage applies nothing, and the
carriages of collectives, deltas, mirrors and trickles go to the tally, the gather, the mirror and the residuals. A carriage
whose pit has no share left, or that comes behind one that waits, stays in the port's receive buffer (R139, R233). -/
def Obligations.CarriagesComplete : Prop :=
  (∀ dt port f l i s, InSequence .write dt port f l i s →
    let c := readCar f
    let s1 := timed .write dt port f l i s
    mirrorLine (troupe s1 c.troupe) l = false → inWindow (lineOf (troupe s1 c.troupe) l) c = true →
    exec (.writeReceive dt port f) s = .next (accepted c.troupe l i c
      (pokeHbm s1 c.target.toNat (c.payload.take (contentBytes c))))) ∧
  (∀ dt port f l i s, InSequence .reduceWrite dt port f l i s →
    let c := readCar f
    let s1 := timed .reduceWrite dt port f l i s
    inWindow (lineOf (troupe s1 c.troupe) l) c = true →
    exec (.reduceWriteReceive dt port f) s = .next (accepted c.troupe l i c (reduceInto c.troupe c s1))) ∧
  (∀ dt port f l i s, InSequence .readRequest dt port f l i s →
    let c := readCar f
    let s1 := timed .readRequest dt port f l i s
    inWindow (lineOf (troupe s1 c.troupe) l) c = true →
    exec (.readRequestReceive dt port f) s = .next (accepted c.troupe l i c
      (queueCars c.troupe l i (some .shaper) none
        (rawCars { type := 4, cls := .d, enc := 0, op := 0, troupe := c.troupe, line := l, step := c.step, count := 0
                   scripted := scripted s1 (troupe s1 c.troupe), payload := [] }
          (payloadLimit s1 c.troupe l) c.target.toNat (hbmRead s1 (carSpan c).1 (carSpan c).2)) s1))) ∧
  (∀ dt port f l i s, InSequence .readResponse dt port f l i s →
    let c := readCar f
    let s1 := timed .readResponse dt port f l i s
    inWindow (lineOf (troupe s1 c.troupe) l) c = true →
    ((lineOf (troupe s1 c.troupe) l).ops.find? fun o => o.kind == 2 && decide (o.got < o.bytes)) = none →
    exec (.readResponseReceive dt port f) s = .next (accepted c.troupe l i c
      (pokeHbm s1 c.target.toNat (c.payload.take c.count)))) ∧
  (∀ dt port f l i s, InSequence .fence dt port f l i s →
    exec (.fenceCarriageReceive dt port f) s = .next
      (accepted (readCar f).troupe l i (readCar f) (timed .fence dt port f l i s))) ∧
  (∀ dt port f l i s, InSequence .collective dt port f l i s →
    exec (.collectiveCarriageReceive dt port f) s = .next (accepted (readCar f).troupe l i (readCar f)
      (takeCollective (readCar f).troupe l (frameSrc f) (readCar f) (timed .collective dt port f l i s)))) ∧
  (∀ dt port f l i s, InSequence .delta dt port f l i s →
    let c := readCar f
    let s1 := timed .delta dt port f l i s
    let tr := troupe s1 c.troupe
    c.step < tr.opened + 2 → c.step ≤ tr.decided → gathering tr c.step = true →
    ∀ g te base, placed tr c = some (g, te, base) →
    exec (.deltaCarriageReceive dt port f) s = .next (accepted c.troupe l i c (settleGather c.troupe
      ((allDeltas tr g te c base).foldl (takeDelta c.troupe g.bucket) s1)))) ∧
  (∀ dt port f l i s, InSequence .mirror dt port f l i s →
    exec (.mirrorCarriageReceive dt port f) s = .next (accepted (readCar f).troupe l i (readCar f)
      (takeMirror (readCar f).troupe (readCar f) (timed .mirror dt port f l i s)))) ∧
  (∀ dt port f l i s, InSequence .trickle dt port f l i s →
    exec (.residualTrickleReceive dt port f) s = .next (accepted (readCar f).troupe l i (readCar f)
      (takeTrickle (readCar f).troupe (readCar f) (timed .trickle dt port f l i s)))) ∧
  (∀ i k a dt port f s, carriageRow i = some (k, dt, port, f) → appliesOf k = some a → HeardOpen k dt port f s →
    let s1 := counted k dt port s
    (heldHere s1 port (framePcp f) = true ∨ shareWaits s1 f = true →
      exec i s = .next (bufferFrame port (8, f, framePcp f, 64, 0) s1)) ∧
    (heldHere s1 port (framePcp f) = false → shareWaits s1 f = false → exec i s = .next (deliver a port f s1)))

/-- The control frames of Lines take effect (R214, R215, R218, R225, Table 6.11, Table 8.7): an ACK of the current epoch
acknowledges all before its sequence, a NAK goes back, resets or closes its line, a PROBE is echoed with its timestamp, an
echo of the last probe gives a sample, and a knock answer lends its epoch or sets the time of the next knock. -/
def Obligations.LineControlFramesComplete : Prop :=
  (∀ dt port f t l i s, Controls .ack dt port f t l i s →
    takesAcks (lineOf (troupe s t) l) = true → frameEpoch f = (lineOf (troupe s t) l).epoch →
    exec (.ackReceive dt port f) s = .next
      (acknowledge t l i (BitVec.ofNat 32 (bodyField f 7 4) + 1) f (counted .ack dt port s))) ∧
  (∀ dt port f t l i s, Controls .nak dt port f t l i s →
    let ln := lineOf (troupe s t) l
    let s1 := counted .nak dt port s
    (bits (bodyField f 17 1) 1 2 = 0 → takesAcks ln = true → frameEpoch f = ln.epoch →
      exec (.nakReceive dt port f) s = .next (nakGap t l i f s1)) ∧
    (bits (bodyField f 17 1) 1 2 = 1 → ln.state.val = .opened → frameEpoch f ≠ ln.epoch →
      exec (.nakReceive dt port f) s = .next (beginReset t l s1)) ∧
    (bits (bodyField f 17 1) 1 2 = 2 → ln.state.val = .opened ∨ ln.state.val = .closing →
      exec (.nakReceive dt port f) s = .next (shutLine t l s1))) ∧
  (∀ dt port f t l i s p, Controls .probe dt port f t l i s → peerOf s t l i = some p →
    let s1 := counted .probe dt port s
    exec (.probeReceive dt port f) s = .next (sendControl t (routeClass (troupe s1 t) l) p.addr
      (controlTo s1 0x83 t l
        [(5, 2, bodyField f 5 2), (7, 4, bodyField f 7 4), (11, 4, bodyField f 11 4)] p.addr) s1)) ∧
  (∀ dt port f t l i s p, Controls .probeEcho dt port f t l i s → peerOf s t l i = some p →
    frameEpoch f = (lineOf (troupe s t) l).epoch → p.probe.toNat = bodyField f 7 4 →
    let s1 := counted .probeEcho dt port s
    exec (.probeEchoReceive dt port f) s = .next (sampleRtt t l i
      (rttOf s1.house.ck (BitVec.ofNat 32 (bodyField f 11 4)) (bodyField f 15 2)) 0 s1)) ∧
  (∀ dt port f t l i s p, Controls .knockAnswer dt port f t l i s → peerOf s t l i = some p → p.granted = none →
    let ln := lineOf (troupe s t) l
    let s1 := counted .knockAnswer dt port s
    ln.state.val = .knocking ∨ ln.state.val = .resetting →
    (bodyField f 11 1 = statusCode .done → frameEpoch f = ln.requested.getD 0 → ln.peers.length = 1 →
      exec (.knockAnswerReceive dt port f) s = .next (openEpoch t l (frameEpoch f)
        (modPeer s1 t l i fun p =>
          { p with granted := some (frameEpoch f), knockTimer := none, knockStage := 0, retryAt := none }))) ∧
    (bodyField f 11 1 = statusCode .closed →
      exec (.knockAnswerReceive dt port f) s = .next (gauge (modPeer s1 t l i fun p => { p with
        knockTimer := none, knockStage := 0
        retryAt := some (s.house.tick + max 1 (bodyField f 12 2)) }) t 0x410 1)))

/-- A knock is answered (R218, R246, Table 8.7): CLOSED with a retry-after by a closed house and by a CLOSED line, DONE
with the current epoch, after the final acknowledgement, by an OPEN line whose epoch is not earlier. -/
def Obligations.KnocksAnswered : Prop :=
  ∀ dt port f s, Heard .knock dt port f s → ticksOnly s port = false →
    let s1 := counted .knock dt port s
    let t := bodyField f 2 1 % 64
    let l := lineNumber s1 t (bodyField f 3 2 % 512) f
    let ln := lineOf (troupe s t) l
    (s.house.doorsOpen = false →
      exec (.knockReceive dt port f) s = .next (answerKnock port t l f 0 .closed (closedRetry s1) s1)) ∧
    (s.house.doorsOpen = true → lineBroken ln = false → ln.state.val = .closed →
      exec (.knockReceive dt port f) s = .next (refuseKnock port t l f s1)) ∧
    (s.house.doorsOpen = true → lineBroken ln = false → ln.state.val = .opened → (troupe s t).promotion = none →
      ∀ i p, peerIndex ln (frameSrc f) = some i → peerOf s t l i = some p → p.answered = none →
      epochLater ln.epoch (frameEpoch f) = false →
      exec (.knockReceive dt port f) s = .next (grant port t l i f ln.epoch (sendFinal t l i s1)))

/-- The frames of a link take effect (R4, R229, R231, R245, R249, R251): a DIM proposal that the port is eligible for is
agreed and any other declined (the proposal itself leaves the idle time running: log entry 55), a LIGHT request is answered ready, a PFC frame pauses or resumes each priority it enables,
PAUSE and foreign frames are counted, and a TICK frame tells its partner and, with the child bit, is to be replied to. -/
def Obligations.LinkFramesComplete : Prop :=
  (∀ dt port f s, Heard .dim dt port f s → ticksOnly s port = false → bodyField f 3 1 = 0 → (portOf s port).dim = none →
    let s1 := modPort (counted .dim dt port s) port fun q => { q with idle := (portOf s port).idle }
    let n := BitVec.ofNat 16 (bodyField f 5 2)
    let dark := bodyField f 7 8
    (dimEligible s1 port = true → s.house.tick + 1 < dark →
      exec (.dimReceive dt port f) s = .next (sendDim port 1 n dark
        (modPort s1 port fun q => { q with handshake := n, dim := some (false, n, dark, true, false) }))) ∧
    (dimEligible s1 port = false → exec (.dimReceive dt port f) s = .next (sendDim port 2 n dark s1))) ∧
  (∀ dt port f s, Heard .light dt port f s → ticksOnly s port = false → bodyField f 3 1 = 0 →
    exec (.lightReceive dt port f) s = .next (sendLink port 0x88 0
      (lightFields port 1 (bodyField f 5 2) (bodyField f 7 8)) (counted .light dt port s))) ∧
  (∀ dt port f s, Heard .pfc dt port f s → ticksOnly s port = false →
    let off := if frameTagged f then 20 else 16
    exec (.pfcReceive dt port f) s = .next (((List.range 8).filter (bit (beNat (slice f off 2)))).foldl
      (fun s k => takePause port k (beNat (slice f (off + 2 + 2 * k) 2)) s)
      (portGauge (counted .pfc dt port s) port 27 1))) ∧
  (∀ dt port f s, Heard .pause dt port f s →
    exec (.pauseFrameReceive dt port f) s = .next (portGauge (counted .pause dt port s) port 16 1)) ∧
  (∀ dt port f s, Heard .foreign dt port f s →
    exec (.foreignFrameReceive dt port f) s = .next (portGauge (counted .foreign dt port s) port 5 1)) ∧
  (∀ dt port f sub s, Heard .tick dt port f s → s.house.parent ≠ some port → s.house.doorsOpen = true →
    (portOf s port).verified = true → bodyField f 15 2 = s.house.period →
    let s1 := modPort (counted .tick dt port s) port fun q =>
      { q with partner := some (frameSrc f, frameVid f, bodyField f 15 2) }
    exec (.tickReceive dt port f sub) s = .next (if bit (bodyField f 2 1) 7 then
        modPort s1 port fun q => { q with
          child := true, replyDue := some (passCk dt s).house.ck, control := q.control.filter fun f => frameType f != 0x89 }
      else s1))

/-- A frame that passes is placed for the port that its entry names (R167, R236, R240, R243), and a hop frame of this
tick's round goes into it (R256, R257). -/
def Obligations.RelayAndCallComplete : Prop :=
  (∀ dt port f s r bank epoch out, HeardOpen .passing dt port f s →
    let s1 := counted .passing dt port s
    (troupe s (bodyField f 2 1 % 64)).slice = some r → bankFor (sliceOf s r) (frameTableEpoch f) = some (bank, epoch) →
    routable s (frameDst f) = true →
    judgeEntry s1 (bankEntry (sliceOf s r) bank (entryKey (destIndex (coordOf (frameDst f))) (6 + port))) port = .out out →
    exec (.frameRelay dt port f) s = .next (placeRelayed port out (framePcp f) r epoch f s1)) ∧
  (∀ dt port f s sl r, HeardOpen .call dt port f s →
    let s1 := counted .call dt port s
    let t := bodyField f 9 2 / 2 ^ 10
    sliceFor s (troupe s t) = some sl → (troupe s t).life ≠ .absent →
    epochKnown sl (BitVec.ofNat 16 (bodyField f 12 2)) = true → bodyField f 9 2 % 512 = s.house.tick % 512 →
    (troupe s t).round = some r → r.launch = s.house.tick → r.step = bodyField f 3 6 →
    bodyField f 3 6 ≠ roundStep (troupe s t) + 1 →
    exec (.callReceive dt port f) s = .next
      (takeHop t port (bodyField f 14 1) (bit (bodyField f 11 1) 0) (bit (bodyField f 11 1) 1) s1))

/-- The timers of Lines act (R216, R218, R225, R247, Table 8.6): a retransmission goes back with the next stage or, after
the last, faults the line; knocks are sent again by their timer, after their retry-after and in rotation order; a governed
line without a sample for 32 µs sends a PROBE. -/
def Obligations.LineTimersComplete : Prop :=
  (∀ dt t line peer s p c, let s1 := passCk dt s
    let ln := lineOf (troupe s t) line
    lineBroken ln = false → ln.state.val = .opened ∨ ln.state.val = .closing → ln.peers[peer]? = some p →
    p.timer = some c → c + stageCk p.stage ≤ s.house.ck + dt → p.out ≠ [] → frozenHop s1 t line p = false →
    (p.stage < 5 → exec (.retransmitTimerExpiry dt t line peer) s = .next
      (modPeer (goBackFrom t line peer p.oldest.val (gauge s1 t 0x420 1)) t line peer fun p =>
        { p with stage := p.stage + 1, timer := some (s.house.ck + dt) })) ∧
    (5 ≤ p.stage → exec (.retransmitTimerExpiry dt t line peer) s = .next
      (faultLine t line (lineRec t line .timeout 0) (gauge s1 t 0x420 1)))) ∧
  (∀ dt t line peer s p c, let s1 := passCk dt s
    let ln := lineOf (troupe s t) line
    lineBroken ln = false → knocks ln peer = some p → p.knockTimer = some c →
    c + stageCk p.knockStage ≤ s.house.ck + dt →
    (p.knockStage < 5 → exec (.knockTimerExpiry dt t line peer) s = .next
      (sendKnock t line peer (p.knockStage + 1) s1)) ∧
    (5 ≤ p.knockStage → ln.state.val ≠ .resetting → exec (.knockTimerExpiry dt t line peer) s = .next
      (faultLine t line (lineRec t line .timeout 0) s1))) ∧
  (∀ dt t line peer s p n, let ln := lineOf (troupe s t) line
    lineBroken ln = false → knocks ln peer = some p → p.retryAt = some n → n ≤ s.house.tick →
    exec (.knockRetry dt t line peer) s = .next (sendKnock t line peer 0 (passCk dt s))) ∧
  (∀ dt t line peer s p, let ln := lineOf (troupe s t) line
    lineBroken ln = false → knocks ln peer = some p → s.house.doorsOpen = true → s.house.knocksInTick < 64 →
    ((rotation (lineAddr s t line) ln).find? fun i => (ln.peers[i]?).any (·.firstDue)) = some peer →
    exec (.firstKnock dt t line peer) s = .next (sendKnock t line peer 0
      (modHouse (passCk dt s) fun h => { h with knocksInTick := h.knocksInTick + 1 }))) ∧
  (∀ dt t line peer s p, let s1 := passCk dt s
    let ln := lineOf (troupe s t) line
    lineBroken ln = false → ln.state.val = .opened → ln.peers[peer]? = some p →
    (∀ c, p.sampledAt = some c ∨ p.probedAt = some c → c + 57600 ≤ s.house.ck + dt) →
    (unsentFrames (troupe s t) line peer).any (governed s1 (troupe s t)) = true →
    let s2 := modPeer s1 t line peer fun p => { p with probe := p.probe + 1, probedAt := some s1.house.ck }
    exec (.probeSend dt t line peer) s = .next (sendControl t (routeClass (troupe s t) line) p.addr
      (controlTo s1 0x82 t line
        [(5, 2, ln.epoch.toNat), (7, 4, (p.probe + 1).toNat), (11, 4, s1.house.ck % 2 ^ 32)] p.addr) s2))

/-- Rounds, steps and waits have their times (R52, R243, R257, R258, R299, R330): a hop is resent after 2 µs, 16 abandoned
rounds give one record, a CALLED step past its deadline raises the curtain, a CUE_WAIT ends with TIMEOUT, a drained bank
is released after 16 ticks, and an equal verdict is kept for the next tick. -/
def Obligations.RoundsAndWaitsComplete : Prop :=
  (∀ dt t port s r c, let s1 := passCk dt s
    (troupe s t).round = some r → tabGet r.sent port = some c → c + 3600 ≤ s.house.ck + dt → port ∈ r.ports →
    r.result = none → r.failed = false → heard r port = none →
    exec (.callResend dt t port) s = .next (sendCall t port s1)) ∧
  (∀ dt t s, (troupe s t).abandonTold = false → 16 ≤ (troupe s t).abandoned →
    exec (.roundAbandonLimit dt t) s = .next (record { sub := .updateSequencer, status := .timeout, who := some t }
      (modTroupe (passCk dt s) t fun tr => { tr with abandonTold := true }))) ∧
  (∀ dt t s r c, let s1 := passCk dt s
    lastStep (troupe s t) = some r → r.state.val = .called → r.missed = false → r.calledTick = some c →
    c + r.deadline ≤ s.house.tick → completionOf s1 (troupe s t) r = false →
    exec (.stepDeadlineMiss dt t) s = .next (record { sub := .stageManager, status := .timeout, who := some t }
      (gauge (curtain (some 10) t (modTroupe s1 t fun tr => modLast tr fun r => { r with missed := true })) t 0x18 1))) ∧
  (∀ dt issuer slot s d c q w n,
    (s.deferred.find? fun d => d.issuer == issuer && d.slot == slot) = some d → d.awaits = .cueWait c →
    tabGet (troupe s d.target).cues c = some q → w ∈ q.waits → w.issuer = issuer → w.slot = slot →
    w.expires = some n → n ≤ s.house.tick → (∀ v ∈ q.waits, v.issuer = issuer → v.slot = slot → v = w) →
    exec (.cueWaitTimeout dt issuer slot) s = .next (run (endWait .timeout q.value w)
      (modTroupe (passCk dt s) d.target fun tr => { tr with
        cues := tabPut tr.cues c
          { q with waits := q.waits.filter fun v => ! (v.issuer == issuer && v.slot == slot) } }))) ∧
  (∀ dt k s at_, (sliceOf s k).draining = some at_ → at_ + 16 ≤ s.house.tick → drainCount s k = 0 →
    exec (.bankDrainRelease dt k) s = .next (modSlice (passCk dt s) k fun sl => { sl with draining := none })) ∧
  (∀ dt t word s e, pcWhole word = true →
    ((troupe s t).steps.find? fun e => e.1 % 2 ^ 24 == pcVal word % 2 ^ 24 && e.2.state.val == .updated &&
      e.1 % max 1 (troupe s t).propN == 0) = some e →
    (troupe s t).noCheck = false →
    (bit (pcVal word) 24 = true → exec (.verdictArrive dt t word) s = .next
      (modTroupe (passCk dt s) t fun tr => modStep tr e.1 fun r => { r with verdict := some s.house.tick })) ∧
    (bit (pcVal word) 24 = false → exec (.verdictArrive dt t word) s = .next
      (diverge true t e.1 (bits (pcVal word) 25 3) (passCk dt s))))

/-- Links go dark and light (R230, R244, R248–R252): an unlit link that has not failed lights, a signal that goes is
timed and fails the port after 200 µs outside a dim handshake, an eligible port proposes to dim, commits a tick before its dark tick and goes dark
at it, a wake relights a dark link, and 20 µs later it is lit, with LIGHT sent. -/
def Obligations.LinkStatesComplete : Prop :=
  (∀ dt port s, (portOf s port).link = .unlit → (portOf s port).failed = false →
    exec (.linkUp dt port) s = .next (modPort (passCk dt s) port fun q => { q with link := .lit, verified := false })) ∧
  (∀ dt port s, (portOf s port).link = .lit → (portOf s port).dim = none → (portOf s port).lossSince = none →
    exec (.linkSignalLoss dt port) s = .next
      (modPort (passCk dt s) port fun q => { q with lossSince := q.lossSince.or (some (s.house.ck + dt)) })) ∧
  (∀ dt port s c, (portOf s port).link = .lit → (portOf s port).dim = none → (portOf s port).lossSince = some c →
    c + 200 * Config.ckPerUs ≤ s.house.ck + dt →
    exec (.portFail dt port) s = .next (failPort port (passCk dt s))) ∧
  (∀ dt port s, (portOf s port).link = .lit → (portOf s port).dim.isSome = true →
    exec (.portFail dt port) s = .next (modPort (passCk dt s) port fun q =>
      { q with lossSince := q.lossSince.map fun _ => s.house.ck + dt })) ∧
  (∀ dt port s, let s1 := passCk dt s
    dimEligible s1 port = true → (portOf s port).dim = none →
    let n := (portOf s port).handshake + 1
    let dark := s.house.tick + 2 + Config.freeDraw s.house.draws
    exec (.dimPropose dt port) s = .next (sendDim port 0 n dark
      (modPort (modHouse s1 fun h => { h with draws := h.draws + 1 }) port fun q =>
        { q with handshake := n, dim := some (true, n, dark, false, false) }))) ∧
  (∀ dt port s n dark, (portOf s port).dim = some (true, n, dark, true, false) → dark ≤ s.house.tick + 1 →
    exec (.dimCommitPoint dt port) s = .next (sendDim port 3 n dark
      (modPort (passCk dt s) port fun q => { q with dim := some (true, n, dark, true, true) }))) ∧
  (∀ dt port s own n dark sent, let s1 := passCk dt s
    (portOf s port).dim = some (own, n, dark, true, sent) → (portOf s port).link = .lit → dark ≤ s.house.tick →
    (portOf s port).woken = false → framesWait s1 port = false →
    exec (.linkDark dt port) s = .next (goDark port s1)) ∧
  (∀ dt port b s, (portOf s port).link = .dark →
    exec (.linkWake dt port b) s = .next (modPort (passCk dt s) port fun q =>
      { q with link := .relighting, relightSince := some (passCk dt s).house.ck, woken := false })) ∧
  (∀ dt port s c, (portOf s port).link = .relighting → (portOf s port).relightSince = some c →
    c + 20 * Config.ckPerUs ≤ s.house.ck + dt →
    exec (.linkLit dt port) s = .next (lightUp port (passCk dt s)))

/-- Sending takes effect (R44, R49, R231, R232, R245): a free lit port without a dim handshake sends what comes first, a
reply to a child leaves 2,048 ck after its frame, a pause that has run out ends, and PFC is repeated every 10 µs. -/
def Obligations.SendingComplete : Prop :=
  (∀ dt port s pick, let s1 := passCk dt s
    (portOf s port).busy ≤ s.house.ck + dt → (portOf s port).link = .lit → (portOf s port).failed = false →
    ticksOnly s port = false → (portOf s port).dim = none → nextPick s1 port = some pick →
    exec (.frameSend dt port) s = .next (sendPick port pick s1)) ∧
  (∀ dt port s c, let s1 := passCk dt s
    (portOf s port).link = .lit → (portOf s port).child = true → (portOf s port).replyDue = some c →
    c + 2048 ≤ s.house.ck + dt →
    exec (.tickReply dt port) s = .next (putOnWire port (tickFrame s1 port true)
      (modPort s1 port fun q => { q with replyDue := none }))) ∧
  (∀ dt port prio s e, tabGet (portOf s port).pauses prio = some e → e.1 ≤ s.house.ck + dt →
    exec (.pauseExpire dt port prio) s = .next
      (modPort (passCk dt s) port fun q => { q with pauses := tabDel q.pauses prio })) ∧
  (∀ dt port prio s c, tabGet (portOf s port).pausing prio = some c → c + 10 * Config.ckPerUs ≤ s.house.ck + dt →
    2 ^ 20 ≤ occupancy (portOf s port) prio →
    exec (.pfcRepeat dt port prio) s = .next (modPort (passCk dt s) port fun q => { q with
      pausing := tabPut q.pausing prio (passCk dt s).house.ck
      pfcDue := q.pfcDue.filter (·.1 != prio) ++ [(prio, 65535)] }))

/-- A tick ends the scene and starts the next (R34, R37, R245, R336, R360, R380): every troupe's scene closes, its ck is the
end of the scene that ran, the counter is one more unless the parent's is taken, settings that pend take effect and the
tick's counts start anew, the units, the slices and the ports have their tick, pit resets end, then every troupe has its
tick in ascending order, and the records of the tick are put in the order of R360; a house reset that is due takes its
place. -/
def Obligations.TickCompletes : Prop :=
  (∀ s, s.house.resetDue = true → exec .tick s = .next (resetBlock false (runOut s))) ∧
  (∀ s, s.house.resetDue = false →
    let s1 := eachTroupe closeScene (runOut s)
    let h := tickHouse s1.house
    exec .tick s = .next (orderRecords s1.log.write (eachTroupe tickTroupe (endPitResets (tickPorts (tickSlices (snapGauges
      (tickUnits (judgeHouse { s1 with house := h, log := tickLog s1.log }))))))))) ∧
  (∀ s, let h0 := (eachTroupe closeScene (runOut s)).house
    let h := tickHouse h0
    h0 = (runOut s).house ∧
    (s.house.ck ≤ s.house.sceneStart + s.house.sceneLength → h.ck = s.house.sceneStart + s.house.sceneLength) ∧
    h.sceneStart = h.ck ∧ h.tick = s.house.takeCounter.getD (s.house.tick + 1) ∧ h.takeCounter = none ∧
    h.period = (if s.house.pendingPeriod.any (fun e => decide (e.2 ≤ h.tick)) then
      (s.house.pendingPeriod.map (·.1)).getD s.house.period else s.house.period) ∧
    h.pitShare = s.house.pendingShare.getD s.house.pitShare ∧ h.pendingShare = none ∧
    h.parent = s.house.pendingParent.getD s.house.parent ∧ h.pendingParent = none ∧
    (h.rehearsal, h.slack) = s.house.pendingTest.getD (s.house.rehearsal, s.house.slack) ∧ h.pendingTest = none ∧
    h.knocksInTick = 0 ∧ h.servedInTick = 0)

/-- A step takes the command at the front of the queue, first in, first out, and is `exec` of it on the block with the
queue's rest. On an empty queue the block idles, which is the model's own choice (log entry 1). -/
def Obligations.StepServesFront : Prop :=
  (∀ c rest s, s.pending = c :: rest → step s = exec c { s with pending := rest }) ∧
  (∀ s, s.pending = [] → step s = .next s)

/-- The model's own choice (log entry 23): every command is answered by a next state in every state of the block, whether
its conditions hold or not, and leaves the queue as it is. -/
def Obligations.EveryCommandAnswers : Prop :=
  ∀ c s, ∃ t, exec c s = .next t ∧ t.pending = s.pending

/-- Reset leaves what Tables 13.4 to 13.8, 12.2 and 14.3 give: tick 0, the house closed, Nimlia not up, an empty log with
ERR_READ 0 and its halves whole, no scan, troupe 0 ACTIVE and alone, no gauge, no slice, no command waiting. -/
def Obligations.ResetLeaves : Prop :=
  State.reset.house.tick = 0 ∧ State.reset.house.doorsOpen = false ∧ State.reset.house.fwUp = false ∧
    State.reset.house.period = 100 ∧ State.reset.house.gauges = [] ∧
    State.reset.log.write = 0 ∧ State.reset.log.overwritten = 0 ∧ State.reset.log.suppressed = 0 ∧
    pcWhole State.reset.log.read = true ∧ pcVal State.reset.log.read = 0 ∧
    pcWhole State.reset.log.cue = true ∧ pcVal State.reset.log.cue = 0 ∧
    State.reset.check.base = 0 ∧ State.reset.check.busy = false ∧ State.reset.check.finished = false ∧
    (∀ t, (troupe State.reset t).life = if t = 0 then .active else .absent) ∧
    (∀ t, (troupe State.reset t).gauges = []) ∧
    State.reset.slices = [] ∧ State.reset.deferred = [] ∧ State.reset.pending = []

/-- The block after reset is sound. -/
def Obligations.ResetSound : Prop :=
  Sound State.reset

/-- Soundness is an invariant: whatever command a step takes, the memories stay in canonical form, no more than 256
records are written in a tick, and never more than 256 records lie between ERR_READ and ERR_WRITE. -/
def Obligations.StepKeepsSound : Prop :=
  ∀ s t, Sound s → step s = .next t → Sound t

/-- A slot's bytes say what they mean: the image written for a well-formed command from Tables 12.3 and 12.7 has a whole
post word and cleared reserved bytes, names its target, tag and cue, spells the command, and spells no other one. -/
def Obligations.SlotSpellsOne : Prop :=
  ∀ i p target tag cue, post i = some p → i.wf = true → target < 64 → tag < 1024 → cue < 1024 →
    let image := slotImage i target tag (cue + 2 ^ 15)
    imageWhole image = true ∧ imageOpcode image = opcode i ∧ opcodes.contains (opcode i) = true ∧
      imageTarget image = target ∧ imageTag image = tag ∧ imageCue image = some cue ∧
      reservedClear i image = true ∧ spells i image = true ∧
      ∀ j, post j = some p → j.wf = true → spells j image = true → j = i

/-- Nimlia checks in the order of R321, and the first failure decides the status: a broken post word with one record of
subsystem 0x1 and the slot's address, an undefined opcode, an issuer that may not act, the column Served, then reserved
bytes and a cue that does not exist. A refused command changes nothing but its slot and its gauges. -/
def Obligations.RefusalsInOrder : Prop :=
  ∀ i p q s, post i = some p → servable p (passCk p.dt s) = some q →
    (imageWhole q.image = false →
      exec i s = .next (refusedWith p .refusedPc (record
        { sub := .prompter, status := .refusedPc, who := some p.issuer, address := slotAddress p.issuer p.slot }
        (begun p s)))) ∧
    (imageWhole q.image = true → opcodes.contains (imageOpcode q.image) = false →
      exec i s = .next (refusedWith p .unsupported (begun p s))) ∧
    (imageWhole q.image = true → spells i q.image = true →
      (mayAct p.issuer q.target i = false → exec i s = .next (refusedWith p .notOwner (begun p s))) ∧
      (mayAct p.issuer q.target i = true →
        (∀ st, gateOf i (begun p s) q.target = some st → exec i s = .next (refusedWith p st (begun p s))) ∧
        (gateOf i (begun p s) q.target = none →
          (reservedClear i q.image = false → exec i s = .next (refusedWith p .badArg (begun p s))) ∧
          (targetOk i q.target = false → exec i s = .next (refusedWith p .badArg (begun p s))) ∧
          (∀ c, imageCue q.image = some c → cueExists (troupe (begun p s) p.issuer) c = false →
            exec i s = .next (refusedWith p .badArg (begun p s))))))

/-- House order decides who is served (R323): at most one slot is next, the one that no other waiting
command comes before; a slot that one comes before, by tick of arrival, then troupe, then slot, is not served, nor is any once 40 commands per µs of the tick period have been,
nor before Nimlia is up, nor while it is stalled. -/
def Obligations.HouseOrder : Prop :=
  (∀ p p' s q q', servable p s = some q → servable p' s = some q' → p.issuer = p'.issuer ∧ p.slot = p'.slot) ∧
  (∀ i p s q, post i = some p → tabGet (troupe (passCk p.dt s) p.issuer).posted p.slot = some q →
    (s.house.fwUp = false ∨ s.house.stalled = true ∨ 40 * s.house.period ≤ s.house.servedInTick ∨
      ∃ k ∈ waiting (passCk p.dt s), houseBefore k (q.arrived, p.issuer, p.slot) = true) →
    exec i s = .next (passCk p.dt s)) ∧
  (∀ p s q, tabGet (troupe s p.issuer).posted p.slot = some q → q.served = false → s.house.fwUp = true →
    s.house.stalled = false → s.house.servedInTick < 40 * s.house.period →
    (∀ k ∈ waiting s, houseBefore k (q.arrived, p.issuer, p.slot) = false) → servable p s = some q) ∧
  (∀ p s, (begun p s).house.servedInTick = s.house.servedInTick + 1)

/-- A completion writes the results, then the completion word with Complete set and the tag echoed; the slot is free
again, its deferred entry is gone, and its cue is to be signalled once, if it is enabled (R322). A served command whose
completion waits has Deferred set and Complete clear. -/
def Obligations.CompletionsWritten : Prop :=
  (∀ issuer slot st off bs s q, slot < 32 → tabGet (troupe s issuer).posted slot = some q →
    off + bs.length ≤ 64 → Memory.wf (troupe s issuer).board = true →
    let r := completeSlot issuer slot st [(off, bs)] s
    r.2 = ((imageCue q.image).toList.map fun c => Act.signal issuer c) ∧
    tabGet (troupe r.1 issuer).posted slot = none ∧
    (∀ d ∈ r.1.deferred, ¬ (d.issuer = issuer ∧ d.slot = slot)) ∧
    leNat (memRead (troupe r.1 issuer).board (256 * slot + 8) 8) =
      (pcWord (statusCode st + 2 ^ 8 + imageTag q.image * 2 ^ 10)).toNat ∧
    memRead (troupe r.1 issuer).board (256 * slot + 192 + off) bs.length = bs ∧
    (∀ a < 0x2000, (a < 256 * slot + 8 ∨ 256 * slot + 16 ≤ a) →
      (a < 256 * slot + 192 + off ∨ 256 * slot + 192 + off + bs.length ≤ a) →
      memByte (troupe r.1 issuer).board a = memByte (troupe s issuer).board a)) ∧
  (∀ p target q aw s, p.slot < 32 → tabGet (troupe s p.issuer).posted p.slot = some q → s.house.tick < 2 ^ 64 →
    Memory.wf (troupe s p.issuer).board = true →
    let t := heldBack p target q aw [] s
    leNat (memRead (troupe t p.issuer).board (256 * p.slot + 8) 8) =
      (pcWord (2 ^ 9 + imageTag q.image * 2 ^ 10)).toNat ∧
    leNat (memRead (troupe t p.issuer).board (256 * p.slot + 24) 8) = s.house.tick ∧
    tabGet (troupe t p.issuer).posted p.slot = some { q with served := true } ∧
    t.deferred = s.deferred ++ [⟨p.issuer, p.slot, target, aw⟩])

/-- Records (R357, R360, R361): a record takes the index ERR_WRITE and its place modulo 256, is copied to the page of the
troupe it names, and overwrites the oldest one where 256 are kept; after 256 in a tick it is only counted. ERR_READ takes
a value from the current one to ERR_WRITE and refuses any other with BAD_ARG. -/
def Obligations.RecordsKept : Prop :=
  (∀ r s, s.log.inTick < 256 →
    let t := writeRecord r s
    t.log.write = s.log.write + 1 ∧ t.log.inTick = s.log.inTick + 1 ∧ t.log.suppressed = s.log.suppressed ∧
    tabGet t.log.records (s.log.write.toNat % 256) = some (r.stored s) ∧ (r.stored s).index = s.log.write ∧
    (r.stored s).tick = s.house.tick ∧
    (∀ k, k ≠ s.log.write.toNat % 256 → tabGet t.log.records k = tabGet s.log.records k) ∧
    (if s.log.write - errReadVal s.log = 256 then
      errReadVal t.log = errReadVal s.log + 1 ∧ t.log.overwritten = min 0xFFFFFFFF (s.log.overwritten + 1)
     else t.log.read = s.log.read ∧ t.log.overwritten = s.log.overwritten) ∧
    (∀ u, r.who = some u → (troupe s u).life ≠ .absent →
      (troupe t u).lastError = some (r.stored s) ∧ (troupe t u).errors = min 0xFFFFFFFF ((troupe s u).errors + 1)) ∧
    (∀ u, r.who ≠ some u → troupe t u = troupe s u)) ∧
  (∀ r s, 256 ≤ s.log.inTick → writeRecord r s = suppress s ∧
    (suppress s).log.suppressed = min 0xFFFFFFFF (s.log.suppressed + 1)) ∧
  (∀ (a : Access) s, let s1 := passCk a.dt s
    placeOf (a.offset / 8 * 8) = .house 0x30 → denial s1 a true = none →
    s.log.write - errReadVal s.log < BitVec.ofNat 32 (pcVal (wordOf a)) - errReadVal s.log →
    exec (.errRead a) s = .next (refuseAccess a true { reply := .refused, status := .badArg } s1))

/-- Cues (R329, R330): an add moves a whole cue's counter up by its amount, never past 2^64 − 1, and says when it would
have passed it; the waits it reaches end with DONE, and those it does not stay; they complete in ascending threshold, and
equal thresholds in their order of service. A broken cue takes no add. -/
def Obligations.CuesCount : Prop :=
  (∀ t c n s cue, tabGet (troupe s t).cues c = some cue → cue.isWhole = true →
    let r := cueAdd t c n s
    let v := min (2 ^ 64 - 1) (cue.value.toNat + n)
    ∃ new, tabGet (troupe r.1 t).cues c = some new ∧ new.value.toNat = v ∧
      new.waits = cue.waits.filter (fun w => decide (v < w.threshold.toNat)) ∧
      r.2.1 = (sortWaits (cue.waits.filter fun w => decide (w.threshold.toNat ≤ v))).flatMap
        (endWait .done new.value) ∧
      (r.2.2 = if 2 ^ 64 ≤ cue.value.toNat + n then some .saturated else none)) ∧
  (∀ t c n s cue, tabGet (troupe s t).cues c = some cue → cue.isWhole = false →
    cueAdd t c n s = (s, [], some .integrity)) ∧
  (∀ ws : List Wait, (sortWaits ws).Perm ws ∧ (sortWaits ws).Pairwise (fun a b => a.threshold ≤ b.threshold) ∧
    ∀ k, (sortWaits ws).filter (fun w => w.threshold == k) = ws.filter (fun w => w.threshold == k))

/-- A fence (R332) makes an ACTIVE, PENDING or INTERMISSION troupe FENCED with its status and record, raises the curtain
of its OPEN or CALLED step and leaves an EXCHANGED one, ends the deferred commands of the troupe but its reset and
deletion with FENCED, and leaves every other troupe, its bookings and its rings as they were, and HBM outside the step
ledgers (R312). -/
def Obligations.FenceActs : Prop :=
  ∀ t st ix row s, let tr := troupe s t
    let r := fenceTroupe t st ix row s
    ((tr.life = .active ∨ tr.life = .pending ∨ tr.life = .intermission) →
      (troupe r.1 t).life = .fenced ∧ (troupe r.1 t).prior = tr.life ∧ (troupe r.1 t).fence = some st ∧
      (troupe r.1 t).fenceIndex = ix ∧ (troupe r.1 t).bookings = tr.bookings ∧ (troupe r.1 t).rings = tr.rings ∧
      (∀ o, openCalled tr = some o → (openCalled (troupe r.1 t)).any (·.curtain) = true) ∧
      (openCalled tr = none → (troupe r.1 t).steps = tr.steps) ∧
      (∀ c cue, tabGet (troupe r.1 t).cues c = some cue → cue.waits = []) ∧
      r.2 = (s.deferred.filter fun d => d.target == t && d.awaits.fenceEnds).map
        (fun d => .complete d.issuer d.slot .fenced [])) ∧
    ((tr.life = .fenced ∨ tr.life = .resetting ∨ tr.life = .absent) → r = (s, [])) ∧
    (∀ u, u ≠ t → troupe r.1 u = troupe s u) ∧
    (∀ a, ¬ inLedger false s a → memByte r.1.hbm a = memByte s.hbm a) ∧ r.1.log = s.log ∧ r.1.house = s.house

/-- Accesses are judged by the checks of Table 13.2 in their order (R344, R346): a reserved range, the tag, the doorbell of a troupe that does not exist (R353), the size, what is read only, the doorbell or scan that cannot be taken, the value. A write that a check refuses, of whichever row, has
its refusal and nothing else. -/
def Obligations.AccessesJudged : Prop :=
  (∀ s (a : Access) w, placeOf a.offset = .reserved → denial s a w = some { reply := .noTarget, status := .noTarget }) ∧
  (∀ s (a : Access) w, placeOf a.offset ≠ .reserved → mayReach a.tag (placeOf a.offset) = false →
    denial s a w = some { reply := .refused, status := .notOwner }) ∧
  (∀ s (a : Access) d, placeOf a.offset ≠ .reserved → mayReach a.tag (placeOf a.offset) = true →
    absentDenial s (placeOf a.offset) = some d → denial s a true = some d) ∧
  (∀ s (a : Access) w d, placeOf a.offset ≠ .reserved → mayReach a.tag (placeOf a.offset) = true →
    (w = true → absentDenial s (placeOf a.offset) = none) →
    sizeDenial s a w (placeOf a.offset) = some d → denial s a w = some d) ∧
  (∀ (a : Access) t off, placeOf a.offset = .page t off ∨ placeOf a.offset = .gauges t off →
    mayReach a.tag (placeOf a.offset) = (a.tag == 0 || t == a.tag)) ∧
  (∀ i (a : Access) s d, writeOf i = some (a, true) → denial (passCk a.dt s) a true = some d →
    exec i s = .next (refuseAccess a true d (passCk a.dt s))) ∧
  (∀ i (a : Access) s, writeOf i = some (a, false) → exec i s = .next (passCk a.dt s))

/-- The ring doorbell's own rule (R326, R355, R356): the tail is rebuilt as the one within 2^17 of the old tail, and a
tail equal to the old one modulo 2^17 advances nothing and is taken; a ring that does not exist is answered no-target with a record, a broken pair and an overflow fence the troupe with a record, and
RING_FULL has neither; each sets RING_STATUS and leaves the tail. -/
def Obligations.RingDoorbellsRefused : Prop :=
  (∀ t0 low, low < 2 ^ 17 → (fullTail t0 low).toNat % 2 ^ 17 = low ∧ (fullTail t0 low - t0).toNat < 2 ^ 17) ∧
  (∀ t0, fullTail t0 (t0.toNat % 2 ^ 17) = t0) ∧
  (∀ (a : Access) s t, let s1 := passCk a.dt s
    let ring := bits (pcVal (wordOf a)) 17 12
    aimsAt a 0x2008 = some t → denial s1 a true = none →
    (tabGet (troupe s t).rings ring = none →
      exec (.ringDoorbell a) s = .next (ringDenied a t ring .noTarget .noTarget (accessRecord
        { sub := .callDesk, status := .noTarget, who := some a.tag, address := a.offset, detail := ring } s1))) ∧
    ∀ r, tabGet (troupe s t).rings ring = some r →
      let tail := fullTail r.tail.val (bits (pcVal (wordOf a)) 0 17)
      let told (st : Status) : Rec :=
        { sub := .callDesk, status := st, who := some t, address := a.offset, detail := ring + tail.toNat * 2 ^ 16 }
      (r.head.flaw ≠ 0 ∨ r.tail.flaw ≠ 0 →
        exec (.ringDoorbell a) s = .next
          (ringDenied a t ring .refused .integrity (fault (told .integrity) none s1))) ∧
      (r.head.flaw = 0 → r.tail.flaw = 0 → bits (pcVal (wordOf a)) 0 17 = r.tail.val.toNat % 2 ^ 17 →
        (r.tail.val - r.head.val).toNat ≤ r.depth →
        exec (.ringDoorbell a) s = .next (respond .done [] (modTroupe s1 t fun tr =>
          { tr with rings := tabPut tr.rings ring r }))) ∧
      (r.head.flaw = 0 → r.tail.flaw = 0 → r.depth < (tail - r.tail.val).toNat →
        exec (.ringDoorbell a) s = .next
          (ringDenied a t ring .refused .ringFull (fault (told .ringFull) none s1))) ∧
      (r.head.flaw = 0 → r.tail.flaw = 0 → (tail - r.tail.val).toNat ≤ r.depth → r.depth < (tail - r.head.val).toNat →
        exec (.ringDoorbell a) s = .next (ringDenied a t ring .refused .ringFull (gauge s1 t 0x518 1))))

/-- A call doorbell (R319, R320) posts each slot that it names and that is free: it arrives at this tick with its bytes 0
to 191 copied, and no slot's board changes; a slot whose last command has not completed, and one that the doorbell does not
name, stay as they are. -/
def Obligations.DoorbellsPost : Prop :=
  ∀ (a : Access) s t fin, let s1 := passCk a.dt s
    aimsAt a 0x2000 = some t → denial s1 a true = none → exec (.callDoorbell a) s = .next fin →
    (troupe fin t).board = (troupe s t).board ∧
    ∀ k < 32,
      ((wordOf a).getLsbD k = true → tabGet (troupe s t).posted k = none → (troupe s t).life ≠ .absent →
        tabGet (troupe fin t).posted k = some
          { image := memRead (troupe s t).board (256 * k) 192, arrived := s.house.tick }) ∧
      ((wordOf a).getLsbD k = false ∨ tabGet (troupe s t).posted k ≠ none →
        tabGet (troupe fin t).posted k = tabGet (troupe s t).posted k)

/-- A frame that fails a check of Table 6.12 is dropped and counted, whichever row hears it (R166, R235, R246): checks 1 to
4 by a port counter each (a TICK frame of another VID still tells an unverified port of its partner: log entry 66), checks 5 to 12 by theirs with at most one record per port and tick. A port whose link is not lit
receives nothing, and a frame of another kind has no effect on a row, which is the model's own choice (log entry 23). -/
def Obligations.FramesDropped : Prop :=
  ∀ i dt port f s, frameOf i = some (dt, port, f) →
    let s1 := arriving i dt port s
    let got (k : Checked) := received port k s1
    (receives s1 port = false → exec i s = .next s1) ∧
    (receives s1 port = true →
      (checkFrame s1 f = .runt → exec i s = .next (dropAtOne port 2 (got .runt))) ∧
      (checkFrame s1 f = .oversize → exec i s = .next (dropAtOne port 3 (got .oversize))) ∧
      (checkFrame s1 f = .fcs → exec i s = .next (dropAtOne port 4 (got .fcs))) ∧
      (checkFrame s1 f = .vlan → exec i s = .next (if stranger i port f s1 then
        hearStranger port f (portGauge (got .vlan) port 6 1) else portGauge (got .vlan) port 6 1)) ∧
      (checkFrame s1 f = .misaddressed → exec i s = .next (portGauge (got .misaddressed) port 7 1)) ∧
      (∀ k, checkFrame s1 f = .malformed k → exec i s = .next (dropMalformed port k f (got (.malformed k)))))

/-- Quantising (R122, R127, R309, R311): an infinite value gives 0 and a residual of +0.0, scale byte 0xFF counts as 254, q
lies from −127 to 127, a value within ±127 units is rounded to the nearest unit with ties to the even one, and a residual
is never infinite. In scripted mode the pass over a block reads nothing of the house and changes nothing of it: no tick,
lane, dark unit or pit enters a value, and a digest does not depend on the order of its parts. After a takeover the residuals are the pulled copies, of whatever epoch; the record tells that
all are at epoch m_c. -/
def Obligations.ElementsQuantised : Prop :=
  (∀ v e r, f32Inf v = true → quantise v e r = (0, 0)) ∧
  (∀ v r, quantise v 255 r = quantise v 254 r) ∧
  (∀ v e r, -127 ≤ (quantise v e r).1 ∧ (quantise v e r).1 ≤ 127) ∧
  (∀ v e, f32Finite v = true → e ≤ 254 →
    let k := (f32Dy v).exp + (133 - Int.ofNat e)
    let num := (f32Dy v).num * 2 ^ k.toNat
    let den : Int := 2 ^ (-k).toNat
    let q := (quantise v e none).1
    num.natAbs ≤ 127 * den.natAbs → 2 * (num - q * den).natAbs ≤ den.natAbs ∧
      (2 * (num - q * den).natAbs = den.natAbs → q % 2 = 0)) ∧
  (∀ v e r, (quantise v e r).2.toNat % 2 ^ 15 ≤ 0x7F7F) ∧
  (∀ tr g w c r blk vs o h h', r.adlib = false →
    (passBlock tr g w c r blk vs (o, h)).1 = (passBlock tr g w c r blk vs (o, h')).1 ∧
    (passBlock tr g w c r blk vs (o, h)).2 = h) ∧
  (∀ ds es : List (Nat × Nat × BitVec 64), ds.Perm es → ∀ k, stepDigest ds k = stepDigest es k) ∧
  (∀ tr p area k, residual (encoreState tr p area) false k = ((tabGet p.residuals k).map (·.2)).getD [] ∧
    bankNow (encoreState tr p area) = false) ∧
  (∀ tr p, (∀ e ∈ p.residuals, e.2.1 ≤ p.lastCommitted) →
    (residualsMatch tr p = true ↔ oldestResidual tr p = p.lastCommitted))

/-- The frame of a service: completing, refusing or holding back a command, with whatever completions, signals, records
and fences follow from it, changes no port, no slice, no house setting, not the scratchpad, not the queue, of host memory
at most the step ledgers, and of a troupe only its board and posted commands, cues, error registers, life and fence, the
holds that a fence ends, the curtain of its step and its gauges. In HBM it changes at most the bytes that its own actions
store, those that a pending CUE_WAIT asked for and those of the step ledgers (R312). -/
def Obligations.ServiceFrame : Prop :=
  (∀ p st res before after s, Calm s (completed p st res before after s) ∧
    ∀ a, ¬ storedBy (before ++ after) a → ¬ notified s a → ¬ inLedger false s a →
      memByte (completed p st res before after s).hbm a = memByte s.hbm a) ∧
  (∀ p st s, Calm s (refusedWith p st s) ∧
    ∀ a, ¬ notified s a → ¬ inLedger false s a → memByte (refusedWith p st s).hbm a = memByte s.hbm a) ∧
  (∀ p t q aw before s, Calm s (heldBack p t q aw before s) ∧
    ∀ a, ¬ storedBy before a → ¬ notified s a → ¬ inLedger false s a →
      memByte (heldBack p t q aw before s).hbm a = memByte s.hbm a) ∧
  (∀ p s, (begun p s).hbm = s.hbm ∧ (begun p s).host = s.host ∧ (begun p s).scratch = s.scratch ∧
    (begun p s).pending = s.pending ∧ (begun p s).house.plan = s.house.plan ∧
    ∀ t, (troupe (begun p s) t).plan = (troupe s t).plan)

/-- The frame of the call-board commands but for the four that set the pod and the routing: nothing that commands
configure changes outside the troupe that the slot names as its target. -/
def Obligations.CommandsKeepOthers : Prop :=
  ∀ i p q s t, post i = some p → servable p (passCk p.dt s) = some q →
    [0x0103, 0x0109, 0x010A, 0x010B].contains (opcode i) = false → exec i s = .next t →
    Steady (fun u => u == q.target) s t

/-- The frame of the events: whatever happens at the ports, the timers, the consumers and the engine's own units, nothing
that commands configure changes, but for a tick and a reset, which let pending settings take effect, and the window's
writes, a scan's end and a restoring spill call, which have the check window and the scratchpad to change. -/
def Obligations.EventsKeepSettings : Prop :=
  ∀ i s t, post i = none →
    (match i with
      | .tick | .chipReset .. | .chkCtrl _ | .checkScanEnd _ | .registerWrite _ | .spillCallComplete .. => False
      | _ => True) →
    exec i s = .next t → Steady (fun _ => false) s t
end

