-- ==== Sys2Proof/Laws/Memory.lean ====
section
/-! SUPPORT. Memory: every operation keeps the canonical form, a read after a write gives the value written, and a write
leaves every other byte alone. -/

namespace Sys2Proof.Machine

open Sys2Proof

theorem memWfFrom_mono {lo lo' : Nat} (h : lo' ≤ lo) {m : List Host.Cell} (hm : memWfFrom lo m = true) :
    memWfFrom lo' m = true := by
  cases m with
  | nil => rfl
  | cons e r =>
    simp only [memWfFrom, Bool.and_eq_true, decide_eq_true_eq] at hm ⊢
    exact ⟨⟨le_trans h hm.1.1, hm.1.2⟩, hm.2⟩

/-- A byte below a canonical memory reads 0. -/
theorem memByte_below {lo k : Nat} (hk : k < lo) : ∀ {m : List Host.Cell}, memWfFrom lo m = true → memByte m k = 0
  | [], _ => rfl
  | (a, b) :: r, hm => by
    simp only [memWfFrom, Bool.and_eq_true, decide_eq_true_eq] at hm
    rw [memByte, if_neg (by omega)]
    exact memByte_below (by omega) hm.2

theorem memPut_wfFrom (k : Nat) (v : Byte) : ∀ {m : List Host.Cell} {lo : Nat}, lo ≤ k → memWfFrom lo m = true →
    memWfFrom lo (memPut m k v) = true
  | [], lo, hk, _ => by
    simp only [memPut]; split
    · rfl
    · simp_all [memWfFrom]
  | (a, b) :: r, lo, hk, hm => by
    simp only [memWfFrom, Bool.and_eq_true, decide_eq_true_eq] at hm
    simp only [memPut]
    split
    · split
      · simp only [memWfFrom, Bool.and_eq_true, decide_eq_true_eq]; exact hm
      · rename_i h1 h2
        simp only [memWfFrom, Bool.and_eq_true, decide_eq_true_eq, bne_iff_ne]
        exact ⟨⟨hk, h2⟩, ⟨by omega, by simpa using hm.1.2⟩, hm.2⟩
    · split
      · split
        · exact memWfFrom_mono (by omega) hm.2
        · rename_i h1 h2 h3
          subst h2
          simp only [memWfFrom, Bool.and_eq_true, decide_eq_true_eq, bne_iff_ne]
          exact ⟨⟨hk, h3⟩, hm.2⟩
      · simp only [memWfFrom, Bool.and_eq_true, decide_eq_true_eq]
        exact ⟨hm.1, memPut_wfFrom k v (by omega) hm.2⟩

/-- Writing a byte keeps the canonical form. -/
theorem memPut_wf {m : List Host.Cell} (k : Nat) (v : Byte) (h : Memory.wf m = true) : Memory.wf (memPut m k v) = true :=
  memPut_wfFrom k v (Nat.zero_le _) h

/-- Writing a run of bytes keeps the canonical form. -/
theorem memWrite_wf : ∀ (bs : List Byte) {m : List Host.Cell} (a : Nat), Memory.wf m = true →
    Memory.wf (memWrite m a bs) = true
  | [], _, _, h => h
  | b :: r, _, a, h => memWrite_wf r (a + 1) (memPut_wf _ b h)

/-- A read after a write of one byte. -/
theorem memByte_memPut_from (k j : Nat) (v : Byte) : ∀ {m : List Host.Cell} {lo : Nat}, memWfFrom lo m = true →
    memByte (memPut m k v) j = if k = j then v else memByte m j
  | [], lo, _ => by
    simp only [memPut]; split
    · rename_i h; subst h; simp [memByte]
    · simp [memByte]
  | (a, b) :: r, lo, hm => by
    simp only [memWfFrom, Bool.and_eq_true, decide_eq_true_eq] at hm
    have below : ∀ j, j ≤ a → memByte r j = 0 := fun j h => memByte_below (by omega) hm.2
    simp only [memPut]
    split
    · rename_i h1
      split
      · rename_i h2; subst h2
        by_cases e : k = j
        · subst e; rw [if_pos rfl, memByte, if_neg (by omega)]; exact below _ (by omega)
        · rw [if_neg e]
      · simp only [memByte]
    · split
      · rename_i h1 h2; subst h2
        split
        · rename_i h3; subst h3
          by_cases e : k = j
          · subst e; rw [if_pos rfl]; exact below _ (le_refl _)
          · simp [memByte, e]
        · simp only [memByte]; by_cases e : k = j <;> simp [e]
      · rename_i h1 h2
        simp only [memByte, memByte_memPut_from k j v hm.2]
        split
        · rename_i e; subst e; rw [if_neg h2]
        · rfl

/-- A read after a write of one byte gives that byte at its address and the old byte elsewhere. -/
theorem memByte_memPut {m : List Host.Cell} (h : Memory.wf m = true) (k j : Nat) (v : Byte) :
    memByte (memPut m k v) j = if k = j then v else memByte m j := memByte_memPut_from k j v h

/-- A byte written leaves every other byte alone, whatever the order of the listed addresses. -/
theorem memByte_memPut_off (k j : Nat) (v : Byte) (hj : k ≠ j) : ∀ (m : List Host.Cell),
    memByte (memPut m k v) j = memByte m j
  | [] => by simp only [memPut]; split <;> simp [memByte, hj]
  | (a, b) :: r => by
    simp only [memPut]
    split
    · split
      · rfl
      · simp [memByte, hj]
    · split
      · rename_i h; subst h; split <;> simp [memByte, hj]
      · simp only [memByte, memByte_memPut_off k j v hj r]

/-- A write leaves every byte outside its run alone, whatever the order of the listed addresses. -/
theorem memByte_memWrite_off : ∀ (bs : List Byte) (m : List Host.Cell) (a j : Nat),
    (∀ i, i < bs.length → j ≠ (a + i) % 2 ^ 64) → memByte (memWrite m a bs) j = memByte m j
  | [], _, _, _, _ => rfl
  | b :: r, m, a, j, ho => by
    rw [memWrite, memByte_memWrite_off r _ (a + 1) j, memByte_memPut_off]
    · exact fun e => ho 0 (by simp) (by simpa using e.symm)
    · intro i hi
      have := ho (i + 1) (by simp; omega)
      rwa [show a + 1 + i = a + (i + 1) by omega]

/-- A write leaves every byte outside its run alone. -/
theorem memByte_memWrite_other : ∀ (bs : List Byte) {m : List Host.Cell} (a j : Nat), Memory.wf m = true →
    (∀ i, i < bs.length → (a + i) % 2 ^ 64 ≠ j) → memByte (memWrite m a bs) j = memByte m j
  | [], _, _, _, _, _ => rfl
  | b :: r, m, a, j, h, ho => by
    rw [memWrite, memByte_memWrite_other r (a + 1) j (memPut_wf _ _ h), memByte_memPut h, if_neg]
    · exact ho 0 (by simp)
    · intro i hi
      have := ho (i + 1) (by simp; omega)
      rwa [show a + 1 + i = a + (i + 1) by omega]

/-- A read after a write gives the byte written, where the run does not come round to it. -/
theorem memByte_memWrite_same : ∀ (bs : List Byte) {m : List Host.Cell} (a i : Nat) (hi : i < bs.length),
    Memory.wf m = true → bs.length ≤ 2 ^ 64 → memByte (memWrite m a bs) ((a + i) % 2 ^ 64) = bs[i]
  | b :: r, m, a, 0, _, h, hl => by
    rw [memWrite, memByte_memWrite_other r _ _ (memPut_wf _ _ h), memByte_memPut h]
    · simp
    · intro i hi
      simp only [List.length_cons] at hl
      omega
  | b :: r, m, a, i + 1, hi, h, hl => by
    rw [memWrite, show a + (i + 1) = a + 1 + i by omega,
      memByte_memWrite_same r (a + 1) i (by simpa using hi) (memPut_wf _ _ h) (by simp at hl; omega)]
    rfl

/-- A run of bytes reads back as written. -/
theorem memRead_memWrite {m : List Host.Cell} (h : Memory.wf m = true) (a : Nat) (bs : List Byte)
    (hl : bs.length ≤ 2 ^ 64) : memRead (memWrite m a bs) a bs.length = bs := by
  apply List.ext_getElem
  · simp [memRead]
  · intro i h1 h2
    simp only [memRead, List.getElem_map, List.getElem_range]
    exact memByte_memWrite_same bs a i h2 h hl

/-- A read apart from a write is unchanged. -/
theorem memRead_memWrite_other {m : List Host.Cell} (h : Memory.wf m = true) (a c n : Nat) (bs : List Byte)
    (ho : ∀ i k, i < bs.length → k < n → (a + i) % 2 ^ 64 ≠ (c + k) % 2 ^ 64) :
    memRead (memWrite m a bs) c n = memRead m c n := by
  unfold memRead
  apply List.map_congr_left
  intro k hk
  exact memByte_memWrite_other bs a _ h fun i hi => ho i k hi (by simpa using hk)

end Sys2Proof.Machine
end

