-- ==== Sys2Proof/Laws/State.lean ====
section
/-! SUPPORT. What each named update of the state leaves alone and what it writes: one lemma per field per update. -/

namespace Sys2Proof.Machine

open Sys2Proof

/-! ### setTroupe -/

@[simp] theorem setTroupe_house (s : State) (t : Nat) (tr : Troupe) : (setTroupe s t tr).house = s.house := rfl
@[simp] theorem setTroupe_log (s : State) (t : Nat) (tr : Troupe) : (setTroupe s t tr).log = s.log := rfl
@[simp] theorem setTroupe_check (s : State) (t : Nat) (tr : Troupe) : (setTroupe s t tr).check = s.check := rfl
@[simp] theorem setTroupe_troupes (s : State) (t : Nat) (tr : Troupe) : (setTroupe s t tr).troupes = tabPut s.troupes t tr := rfl
@[simp] theorem setTroupe_ports (s : State) (t : Nat) (tr : Troupe) : (setTroupe s t tr).ports = s.ports := rfl
@[simp] theorem setTroupe_slices (s : State) (t : Nat) (tr : Troupe) : (setTroupe s t tr).slices = s.slices := rfl
@[simp] theorem setTroupe_deferred (s : State) (t : Nat) (tr : Troupe) : (setTroupe s t tr).deferred = s.deferred := rfl
@[simp] theorem setTroupe_hbm (s : State) (t : Nat) (tr : Troupe) : (setTroupe s t tr).hbm = s.hbm := rfl
@[simp] theorem setTroupe_scratch (s : State) (t : Nat) (tr : Troupe) : (setTroupe s t tr).scratch = s.scratch := rfl
@[simp] theorem setTroupe_host (s : State) (t : Nat) (tr : Troupe) : (setTroupe s t tr).host = s.host := rfl
@[simp] theorem setTroupe_pending (s : State) (t : Nat) (tr : Troupe) : (setTroupe s t tr).pending = s.pending := rfl

/-! ### modTroupe -/

@[simp] theorem modTroupe_house (s : State) (t : Nat) (f : Troupe → Troupe) : (modTroupe s t f).house = s.house := rfl
@[simp] theorem modTroupe_log (s : State) (t : Nat) (f : Troupe → Troupe) : (modTroupe s t f).log = s.log := rfl
@[simp] theorem modTroupe_check (s : State) (t : Nat) (f : Troupe → Troupe) : (modTroupe s t f).check = s.check := rfl
@[simp] theorem modTroupe_troupes (s : State) (t : Nat) (f : Troupe → Troupe) : (modTroupe s t f).troupes = tabMod s.troupes t f := rfl
@[simp] theorem modTroupe_ports (s : State) (t : Nat) (f : Troupe → Troupe) : (modTroupe s t f).ports = s.ports := rfl
@[simp] theorem modTroupe_slices (s : State) (t : Nat) (f : Troupe → Troupe) : (modTroupe s t f).slices = s.slices := rfl
@[simp] theorem modTroupe_deferred (s : State) (t : Nat) (f : Troupe → Troupe) : (modTroupe s t f).deferred = s.deferred := rfl
@[simp] theorem modTroupe_hbm (s : State) (t : Nat) (f : Troupe → Troupe) : (modTroupe s t f).hbm = s.hbm := rfl
@[simp] theorem modTroupe_scratch (s : State) (t : Nat) (f : Troupe → Troupe) : (modTroupe s t f).scratch = s.scratch := rfl
@[simp] theorem modTroupe_host (s : State) (t : Nat) (f : Troupe → Troupe) : (modTroupe s t f).host = s.host := rfl
@[simp] theorem modTroupe_pending (s : State) (t : Nat) (f : Troupe → Troupe) : (modTroupe s t f).pending = s.pending := rfl

/-! ### modHouse -/

@[simp] theorem modHouse_house (s : State) (f : House → House) : (modHouse s f).house = f s.house := rfl
@[simp] theorem modHouse_log (s : State) (f : House → House) : (modHouse s f).log = s.log := rfl
@[simp] theorem modHouse_check (s : State) (f : House → House) : (modHouse s f).check = s.check := rfl
@[simp] theorem modHouse_troupes (s : State) (f : House → House) : (modHouse s f).troupes = s.troupes := rfl
@[simp] theorem modHouse_ports (s : State) (f : House → House) : (modHouse s f).ports = s.ports := rfl
@[simp] theorem modHouse_slices (s : State) (f : House → House) : (modHouse s f).slices = s.slices := rfl
@[simp] theorem modHouse_deferred (s : State) (f : House → House) : (modHouse s f).deferred = s.deferred := rfl
@[simp] theorem modHouse_hbm (s : State) (f : House → House) : (modHouse s f).hbm = s.hbm := rfl
@[simp] theorem modHouse_scratch (s : State) (f : House → House) : (modHouse s f).scratch = s.scratch := rfl
@[simp] theorem modHouse_host (s : State) (f : House → House) : (modHouse s f).host = s.host := rfl
@[simp] theorem modHouse_pending (s : State) (f : House → House) : (modHouse s f).pending = s.pending := rfl

/-! ### modPort -/

@[simp] theorem modPort_house (s : State) (p : Nat) (f : Port → Port) : (modPort s p f).house = s.house := rfl
@[simp] theorem modPort_log (s : State) (p : Nat) (f : Port → Port) : (modPort s p f).log = s.log := rfl
@[simp] theorem modPort_check (s : State) (p : Nat) (f : Port → Port) : (modPort s p f).check = s.check := rfl
@[simp] theorem modPort_troupes (s : State) (p : Nat) (f : Port → Port) : (modPort s p f).troupes = s.troupes := rfl
@[simp] theorem modPort_ports (s : State) (p : Nat) (f : Port → Port) : (modPort s p f).ports = tabPut s.ports p (f (portOf s p)) := rfl
@[simp] theorem modPort_slices (s : State) (p : Nat) (f : Port → Port) : (modPort s p f).slices = s.slices := rfl
@[simp] theorem modPort_deferred (s : State) (p : Nat) (f : Port → Port) : (modPort s p f).deferred = s.deferred := rfl
@[simp] theorem modPort_hbm (s : State) (p : Nat) (f : Port → Port) : (modPort s p f).hbm = s.hbm := rfl
@[simp] theorem modPort_scratch (s : State) (p : Nat) (f : Port → Port) : (modPort s p f).scratch = s.scratch := rfl
@[simp] theorem modPort_host (s : State) (p : Nat) (f : Port → Port) : (modPort s p f).host = s.host := rfl
@[simp] theorem modPort_pending (s : State) (p : Nat) (f : Port → Port) : (modPort s p f).pending = s.pending := rfl

/-! ### modSlice -/

@[simp] theorem modSlice_house (s : State) (r : Nat) (f : Slice → Slice) : (modSlice s r f).house = s.house := rfl
@[simp] theorem modSlice_log (s : State) (r : Nat) (f : Slice → Slice) : (modSlice s r f).log = s.log := rfl
@[simp] theorem modSlice_check (s : State) (r : Nat) (f : Slice → Slice) : (modSlice s r f).check = s.check := rfl
@[simp] theorem modSlice_troupes (s : State) (r : Nat) (f : Slice → Slice) : (modSlice s r f).troupes = s.troupes := rfl
@[simp] theorem modSlice_ports (s : State) (r : Nat) (f : Slice → Slice) : (modSlice s r f).ports = s.ports := rfl
@[simp] theorem modSlice_slices (s : State) (r : Nat) (f : Slice → Slice) : (modSlice s r f).slices = tabPut s.slices r (f (sliceOf s r)) := rfl
@[simp] theorem modSlice_deferred (s : State) (r : Nat) (f : Slice → Slice) : (modSlice s r f).deferred = s.deferred := rfl
@[simp] theorem modSlice_hbm (s : State) (r : Nat) (f : Slice → Slice) : (modSlice s r f).hbm = s.hbm := rfl
@[simp] theorem modSlice_scratch (s : State) (r : Nat) (f : Slice → Slice) : (modSlice s r f).scratch = s.scratch := rfl
@[simp] theorem modSlice_host (s : State) (r : Nat) (f : Slice → Slice) : (modSlice s r f).host = s.host := rfl
@[simp] theorem modSlice_pending (s : State) (r : Nat) (f : Slice → Slice) : (modSlice s r f).pending = s.pending := rfl

/-! ### pokeHbm -/

@[simp] theorem pokeHbm_house (s : State) (a : Nat) (bs : List Byte) : (pokeHbm s a bs).house = s.house := rfl
@[simp] theorem pokeHbm_log (s : State) (a : Nat) (bs : List Byte) : (pokeHbm s a bs).log = s.log := rfl
@[simp] theorem pokeHbm_check (s : State) (a : Nat) (bs : List Byte) : (pokeHbm s a bs).check = s.check := rfl
@[simp] theorem pokeHbm_troupes (s : State) (a : Nat) (bs : List Byte) : (pokeHbm s a bs).troupes = s.troupes := rfl
@[simp] theorem pokeHbm_ports (s : State) (a : Nat) (bs : List Byte) : (pokeHbm s a bs).ports = s.ports := rfl
@[simp] theorem pokeHbm_slices (s : State) (a : Nat) (bs : List Byte) : (pokeHbm s a bs).slices = s.slices := rfl
@[simp] theorem pokeHbm_deferred (s : State) (a : Nat) (bs : List Byte) : (pokeHbm s a bs).deferred = s.deferred := rfl
@[simp] theorem pokeHbm_hbm (s : State) (a : Nat) (bs : List Byte) : (pokeHbm s a bs).hbm = memWrite s.hbm a bs := rfl
@[simp] theorem pokeHbm_scratch (s : State) (a : Nat) (bs : List Byte) : (pokeHbm s a bs).scratch = s.scratch := rfl
@[simp] theorem pokeHbm_host (s : State) (a : Nat) (bs : List Byte) : (pokeHbm s a bs).host = s.host := rfl
@[simp] theorem pokeHbm_pending (s : State) (a : Nat) (bs : List Byte) : (pokeHbm s a bs).pending = s.pending := rfl

/-! ### pokeHost -/

@[simp] theorem pokeHost_house (s : State) (a : Nat) (bs : List Byte) : (pokeHost s a bs).house = s.house := rfl
@[simp] theorem pokeHost_log (s : State) (a : Nat) (bs : List Byte) : (pokeHost s a bs).log = s.log := rfl
@[simp] theorem pokeHost_check (s : State) (a : Nat) (bs : List Byte) : (pokeHost s a bs).check = s.check := rfl
@[simp] theorem pokeHost_troupes (s : State) (a : Nat) (bs : List Byte) : (pokeHost s a bs).troupes = s.troupes := rfl
@[simp] theorem pokeHost_ports (s : State) (a : Nat) (bs : List Byte) : (pokeHost s a bs).ports = s.ports := rfl
@[simp] theorem pokeHost_slices (s : State) (a : Nat) (bs : List Byte) : (pokeHost s a bs).slices = s.slices := rfl
@[simp] theorem pokeHost_deferred (s : State) (a : Nat) (bs : List Byte) : (pokeHost s a bs).deferred = s.deferred := rfl
@[simp] theorem pokeHost_hbm (s : State) (a : Nat) (bs : List Byte) : (pokeHost s a bs).hbm = s.hbm := rfl
@[simp] theorem pokeHost_scratch (s : State) (a : Nat) (bs : List Byte) : (pokeHost s a bs).scratch = s.scratch := rfl
@[simp] theorem pokeHost_host (s : State) (a : Nat) (bs : List Byte) : (pokeHost s a bs).host = memWrite s.host a bs := rfl
@[simp] theorem pokeHost_pending (s : State) (a : Nat) (bs : List Byte) : (pokeHost s a bs).pending = s.pending := rfl

/-! ### gauge -/

@[simp] theorem gauge_house (s : State) (t off n : Nat) : (gauge s t off n).house = s.house := rfl
@[simp] theorem gauge_log (s : State) (t off n : Nat) : (gauge s t off n).log = s.log := rfl
@[simp] theorem gauge_check (s : State) (t off n : Nat) : (gauge s t off n).check = s.check := rfl
@[simp] theorem gauge_ports (s : State) (t off n : Nat) : (gauge s t off n).ports = s.ports := rfl
@[simp] theorem gauge_slices (s : State) (t off n : Nat) : (gauge s t off n).slices = s.slices := rfl
@[simp] theorem gauge_deferred (s : State) (t off n : Nat) : (gauge s t off n).deferred = s.deferred := rfl
@[simp] theorem gauge_hbm (s : State) (t off n : Nat) : (gauge s t off n).hbm = s.hbm := rfl
@[simp] theorem gauge_scratch (s : State) (t off n : Nat) : (gauge s t off n).scratch = s.scratch := rfl
@[simp] theorem gauge_host (s : State) (t off n : Nat) : (gauge s t off n).host = s.host := rfl
@[simp] theorem gauge_pending (s : State) (t off n : Nat) : (gauge s t off n).pending = s.pending := rfl

/-! ### houseGauge -/

@[simp] theorem houseGauge_log (s : State) (off n : Nat) : (houseGauge s off n).log = s.log := rfl
@[simp] theorem houseGauge_check (s : State) (off n : Nat) : (houseGauge s off n).check = s.check := rfl
@[simp] theorem houseGauge_troupes (s : State) (off n : Nat) : (houseGauge s off n).troupes = s.troupes := rfl
@[simp] theorem houseGauge_ports (s : State) (off n : Nat) : (houseGauge s off n).ports = s.ports := rfl
@[simp] theorem houseGauge_slices (s : State) (off n : Nat) : (houseGauge s off n).slices = s.slices := rfl
@[simp] theorem houseGauge_deferred (s : State) (off n : Nat) : (houseGauge s off n).deferred = s.deferred := rfl
@[simp] theorem houseGauge_hbm (s : State) (off n : Nat) : (houseGauge s off n).hbm = s.hbm := rfl
@[simp] theorem houseGauge_scratch (s : State) (off n : Nat) : (houseGauge s off n).scratch = s.scratch := rfl
@[simp] theorem houseGauge_host (s : State) (off n : Nat) : (houseGauge s off n).host = s.host := rfl
@[simp] theorem houseGauge_pending (s : State) (off n : Nat) : (houseGauge s off n).pending = s.pending := rfl

/-! ### portGauge -/

@[simp] theorem portGauge_log (s : State) (p k n : Nat) : (portGauge s p k n).log = s.log := rfl
@[simp] theorem portGauge_check (s : State) (p k n : Nat) : (portGauge s p k n).check = s.check := rfl
@[simp] theorem portGauge_troupes (s : State) (p k n : Nat) : (portGauge s p k n).troupes = s.troupes := rfl
@[simp] theorem portGauge_ports (s : State) (p k n : Nat) : (portGauge s p k n).ports = s.ports := rfl
@[simp] theorem portGauge_slices (s : State) (p k n : Nat) : (portGauge s p k n).slices = s.slices := rfl
@[simp] theorem portGauge_deferred (s : State) (p k n : Nat) : (portGauge s p k n).deferred = s.deferred := rfl
@[simp] theorem portGauge_hbm (s : State) (p k n : Nat) : (portGauge s p k n).hbm = s.hbm := rfl
@[simp] theorem portGauge_scratch (s : State) (p k n : Nat) : (portGauge s p k n).scratch = s.scratch := rfl
@[simp] theorem portGauge_host (s : State) (p k n : Nat) : (portGauge s p k n).host = s.host := rfl
@[simp] theorem portGauge_pending (s : State) (p k n : Nat) : (portGauge s p k n).pending = s.pending := rfl

/-! ### troupePortGauge -/

@[simp] theorem troupePortGauge_house (s : State) (t p off n : Nat) : (troupePortGauge s t p off n).house = s.house := rfl
@[simp] theorem troupePortGauge_log (s : State) (t p off n : Nat) : (troupePortGauge s t p off n).log = s.log := rfl
@[simp] theorem troupePortGauge_check (s : State) (t p off n : Nat) : (troupePortGauge s t p off n).check = s.check := rfl
@[simp] theorem troupePortGauge_ports (s : State) (t p off n : Nat) : (troupePortGauge s t p off n).ports = s.ports := rfl
@[simp] theorem troupePortGauge_slices (s : State) (t p off n : Nat) : (troupePortGauge s t p off n).slices = s.slices := rfl
@[simp] theorem troupePortGauge_deferred (s : State) (t p off n : Nat) : (troupePortGauge s t p off n).deferred = s.deferred := rfl
@[simp] theorem troupePortGauge_hbm (s : State) (t p off n : Nat) : (troupePortGauge s t p off n).hbm = s.hbm := rfl
@[simp] theorem troupePortGauge_scratch (s : State) (t p off n : Nat) : (troupePortGauge s t p off n).scratch = s.scratch := rfl
@[simp] theorem troupePortGauge_host (s : State) (t p off n : Nat) : (troupePortGauge s t p off n).host = s.host := rfl
@[simp] theorem troupePortGauge_pending (s : State) (t p off n : Nat) : (troupePortGauge s t p off n).pending = s.pending := rfl

/-! ### boardWrite -/

@[simp] theorem boardWrite_house (s : State) (t slot off : Nat) (bs : List Byte) : (boardWrite s t slot off bs).house = s.house := rfl
@[simp] theorem boardWrite_log (s : State) (t slot off : Nat) (bs : List Byte) : (boardWrite s t slot off bs).log = s.log := rfl
@[simp] theorem boardWrite_check (s : State) (t slot off : Nat) (bs : List Byte) : (boardWrite s t slot off bs).check = s.check := rfl
@[simp] theorem boardWrite_ports (s : State) (t slot off : Nat) (bs : List Byte) : (boardWrite s t slot off bs).ports = s.ports := rfl
@[simp] theorem boardWrite_slices (s : State) (t slot off : Nat) (bs : List Byte) : (boardWrite s t slot off bs).slices = s.slices := rfl
@[simp] theorem boardWrite_deferred (s : State) (t slot off : Nat) (bs : List Byte) : (boardWrite s t slot off bs).deferred = s.deferred := rfl
@[simp] theorem boardWrite_hbm (s : State) (t slot off : Nat) (bs : List Byte) : (boardWrite s t slot off bs).hbm = s.hbm := rfl
@[simp] theorem boardWrite_scratch (s : State) (t slot off : Nat) (bs : List Byte) : (boardWrite s t slot off bs).scratch = s.scratch := rfl
@[simp] theorem boardWrite_host (s : State) (t slot off : Nat) (bs : List Byte) : (boardWrite s t slot off bs).host = s.host := rfl
@[simp] theorem boardWrite_pending (s : State) (t slot off : Nat) (bs : List Byte) : (boardWrite s t slot off bs).pending = s.pending := rfl

/-! ### suppress -/

@[simp] theorem suppress_house (s : State) : (suppress s).house = s.house := rfl
@[simp] theorem suppress_check (s : State) : (suppress s).check = s.check := rfl
@[simp] theorem suppress_troupes (s : State) : (suppress s).troupes = s.troupes := rfl
@[simp] theorem suppress_ports (s : State) : (suppress s).ports = s.ports := rfl
@[simp] theorem suppress_slices (s : State) : (suppress s).slices = s.slices := rfl
@[simp] theorem suppress_deferred (s : State) : (suppress s).deferred = s.deferred := rfl
@[simp] theorem suppress_hbm (s : State) : (suppress s).hbm = s.hbm := rfl
@[simp] theorem suppress_scratch (s : State) : (suppress s).scratch = s.scratch := rfl
@[simp] theorem suppress_host (s : State) : (suppress s).host = s.host := rfl
@[simp] theorem suppress_pending (s : State) : (suppress s).pending = s.pending := rfl

end Sys2Proof.Machine
end

