-- ==== Sys2Proof/Laws/Tab.lean ====
section
/-! SUPPORT. Finite tables: what reading after a change answers; troupes, ports and slice records after an update. -/

namespace Sys2Proof.Machine

open Sys2Proof

variable {α β : Type}

@[simp] theorem tabGet_nil (k : Nat) : tabGet ([] : Tab α) k = none := rfl

theorem tabGet_tabPut (t : Tab α) (k j : Nat) (v : α) :
    tabGet (tabPut t k v) j = if k = j then some v else tabGet t j := by
  induction t with
  | nil => simp [tabPut, tabGet]
  | cons e r ih =>
    obtain ⟨i, w⟩ := e
    simp only [tabPut]
    split
    · rename_i h; subst h; simp only [tabGet]; split <;> rfl
    · split
      · simp only [tabGet]
      · simp only [tabGet, ih]
        split
        · rename_i h1 h2 h3; subst h3; rw [if_neg (fun h => h1 h.symm)]
        · rfl

@[simp] theorem tabGet_tabPut_same (t : Tab α) (k : Nat) (v : α) : tabGet (tabPut t k v) k = some v := by
  simp [tabGet_tabPut]

theorem tabGet_tabPut_other (t : Tab α) {k j : Nat} (h : k ≠ j) (v : α) : tabGet (tabPut t k v) j = tabGet t j := by
  simp [tabGet_tabPut, h]

theorem tabGet_tabDel (t : Tab α) (k j : Nat) : tabGet (tabDel t k) j = if k = j then none else tabGet t j := by
  induction t with
  | nil => simp [tabDel]
  | cons e r ih =>
    obtain ⟨i, w⟩ := e
    simp only [tabDel, List.filter_cons] at ih ⊢
    by_cases hi : i = k
    · subst hi; simp only [bne_self_eq_false, Bool.false_eq_true, if_false, ih, tabGet]
      split <;> rfl
    · simp only [bne_iff_ne, ne_eq, hi, not_false_eq_true, if_true, tabGet, ih]
      split
      · rename_i h; subst h; rw [if_neg (fun h => hi h.symm)]
      · rfl

@[simp] theorem tabGet_tabDel_same (t : Tab α) (k : Nat) : tabGet (tabDel t k) k = none := by
  simp [tabGet_tabDel]

theorem tabGet_tabDel_other (t : Tab α) {k j : Nat} (h : k ≠ j) : tabGet (tabDel t k) j = tabGet t j := by
  simp [tabGet_tabDel, h]

theorem tabGet_tabMod (t : Tab α) (k j : Nat) (f : α → α) :
    tabGet (tabMod t k f) j = if k = j then (tabGet t j).map f else tabGet t j := by
  unfold tabMod
  cases h : tabGet t k with
  | none => by_cases e : k = j
            · subst e; simp [h]
            · simp [e]
  | some v => rw [tabGet_tabPut]; split
              · rename_i e; subst e; simp [h]
              · rfl

@[simp] theorem tabGet_tabMod_same (t : Tab α) (k : Nat) (f : α → α) :
    tabGet (tabMod t k f) k = (tabGet t k).map f := by simp [tabGet_tabMod]

theorem tabGet_tabMod_other (t : Tab α) {k j : Nat} (h : k ≠ j) (f : α → α) :
    tabGet (tabMod t k f) j = tabGet t j := by simp [tabGet_tabMod, h]

/-- Reading a table whose values were changed one by one. -/
theorem tabGet_map (t : Tab α) (k : Nat) (f : Nat → α → β) :
    tabGet (t.map fun e => (e.1, f e.1 e.2)) k = (tabGet t k).map (f k) := by
  induction t with
  | nil => rfl
  | cons e r ih =>
    obtain ⟨i, w⟩ := e
    simp only [List.map_cons, tabGet, ih]
    split
    · rename_i h; subst h; rfl
    · rfl

/-! ### Troupes, ports, slice records -/

theorem troupe_modTroupe (s : State) (t u : Nat) (f : Troupe → Troupe) :
    troupe (modTroupe s t f) u =
      if t = u then ((tabGet s.troupes t).map f).getD absentTroupe else troupe s u := by
  simp only [troupe, tabGetD, modTroupe, tabGet_tabMod]
  split
  · rename_i h; subst h; rfl
  · rfl

theorem troupe_modTroupe_other (s : State) {t u : Nat} (h : t ≠ u) (f : Troupe → Troupe) :
    troupe (modTroupe s t f) u = troupe s u := by rw [troupe_modTroupe, if_neg h]

/-- A property of the troupe that the change and the absent troupe share. -/
theorem troupe_modTroupe_of {γ : Type} (s : State) (t u : Nat) (f : Troupe → Troupe) (g : Troupe → γ)
    (h : ∀ tr, g (f tr) = g tr) : g (troupe (modTroupe s t f) u) = g (troupe s u) := by
  rw [troupe_modTroupe]
  split
  · rename_i e; subst e
    simp only [troupe, tabGetD]
    cases tabGet s.troupes t with
    | none => rfl
    | some tr => exact h tr
  · rfl

/-- A troupe that is listed is changed. -/
theorem troupe_modTroupe_same {s : State} {t : Nat} (h : (tabGet s.troupes t).isSome = true) (f : Troupe → Troupe) :
    troupe (modTroupe s t f) t = f (troupe s t) := by
  rw [troupe_modTroupe, if_pos rfl]
  simp only [troupe, tabGetD]
  cases e : tabGet s.troupes t with
  | none => rw [e] at h; simp at h
  | some tr => rfl

@[simp] theorem troupe_modHouse (s : State) (f : House → House) (t : Nat) : troupe (modHouse s f) t = troupe s t := rfl
@[simp] theorem troupe_modPort (s : State) (p : Nat) (f : Port → Port) (t : Nat) :
    troupe (modPort s p f) t = troupe s t := rfl
@[simp] theorem troupe_modSlice (s : State) (r : Nat) (f : Slice → Slice) (t : Nat) :
    troupe (modSlice s r f) t = troupe s t := rfl
@[simp] theorem troupe_pokeHbm (s : State) (a : Nat) (bs : List Byte) (t : Nat) :
    troupe (pokeHbm s a bs) t = troupe s t := rfl
@[simp] theorem troupe_pokeHost (s : State) (a : Nat) (bs : List Byte) (t : Nat) :
    troupe (pokeHost s a bs) t = troupe s t := rfl
@[simp] theorem portOf_modTroupe (s : State) (t : Nat) (f : Troupe → Troupe) (p : Nat) :
    portOf (modTroupe s t f) p = portOf s p := rfl
@[simp] theorem portOf_modHouse (s : State) (f : House → House) (p : Nat) : portOf (modHouse s f) p = portOf s p := rfl
@[simp] theorem portOf_modSlice (s : State) (r : Nat) (f : Slice → Slice) (p : Nat) :
    portOf (modSlice s r f) p = portOf s p := rfl
@[simp] theorem sliceOf_modTroupe (s : State) (t : Nat) (f : Troupe → Troupe) (r : Nat) :
    sliceOf (modTroupe s t f) r = sliceOf s r := rfl
@[simp] theorem sliceOf_modHouse (s : State) (f : House → House) (r : Nat) : sliceOf (modHouse s f) r = sliceOf s r := rfl
@[simp] theorem sliceOf_modPort (s : State) (p : Nat) (f : Port → Port) (r : Nat) :
    sliceOf (modPort s p f) r = sliceOf s r := rfl
@[simp] theorem troupe_setTroupe_same (s : State) (t : Nat) (tr : Troupe) : troupe (setTroupe s t tr) t = tr := by
  simp [troupe, setTroupe, tabGetD]
theorem troupe_setTroupe_other (s : State) {t u : Nat} (h : t ≠ u) (tr : Troupe) :
    troupe (setTroupe s t tr) u = troupe s u := by
  simp [troupe, setTroupe, tabGetD, tabGet_tabPut, h]
@[simp] theorem portOf_modPort_same (s : State) (p : Nat) (f : Port → Port) :
    portOf (modPort s p f) p = f (portOf s p) := by simp [portOf, modPort, tabGetD]
theorem portOf_modPort_other (s : State) {p q : Nat} (h : p ≠ q) (f : Port → Port) :
    portOf (modPort s p f) q = portOf s q := by simp [portOf, modPort, tabGetD, tabGet_tabPut, h]
@[simp] theorem sliceOf_modSlice_same (s : State) (r : Nat) (f : Slice → Slice) :
    sliceOf (modSlice s r f) r = f (sliceOf s r) := by simp [sliceOf, modSlice, tabGetD]
theorem sliceOf_modSlice_other (s : State) {r k : Nat} (h : r ≠ k) (f : Slice → Slice) :
    sliceOf (modSlice s r f) k = sliceOf s k := by simp [sliceOf, modSlice, tabGetD, tabGet_tabPut, h]

end Sys2Proof.Machine
end

