-- ==== Sys2Proof/Laws/Run.lean ====
section
/-! SUPPORT. What completions, signals, records and fences leave alone. -/

namespace Sys2Proof.Machine

open Sys2Proof

theorem Calm.refl (s : State) : Calm s s := ⟨rfl, rfl, rfl, rfl, rfl, fun _ _ => rfl, rfl, fun _ => rfl⟩

/-- Where no troupe's own fields change, the step ledgers lie where they lay. -/
theorem inLedger_of_own {s t : State} (h : ∀ u, (troupe t u).own = (troupe s u).own) {host : Bool} {a : Nat}
    (k : inLedger host t a) : inLedger host s a := by
  obtain ⟨u, p, hp, r⟩ := k
  exact ⟨u, p, by rw [← hp]; exact (congrArg Troupe.ledger (h u)).symm, r⟩

theorem Calm.trans {a b c : State} (h : Calm a b) (k : Calm b c) : Calm a c :=
  ⟨k.house.trans h.house, k.check.trans h.check, k.ports.trans h.ports, k.slices.trans h.slices,
   k.scratch.trans h.scratch,
   fun x hx => (k.host x fun i => hx (inLedger_of_own h.own i)).trans (h.host x hx),
   k.pending.trans h.pending, fun u => (k.own u).trans (h.own u)⟩

/-- A change of a troupe outside its own fields is calm. -/
theorem Calm.modTroupe {a s : State} (h : Calm a s) (t : Nat) (f : Troupe → Troupe)
    (hf : ∀ tr, (f tr).own = tr.own) : Calm a (modTroupe s t f) :=
  h.trans ⟨rfl, rfl, rfl, rfl, rfl, fun _ _ => rfl, rfl, fun u => troupe_modTroupe_of s t u f Troupe.own hf⟩

theorem Calm.log {a s : State} (h : Calm a s) (l : ErrorLog) : Calm a { s with log := l } :=
  h.trans ⟨rfl, rfl, rfl, rfl, rfl, fun _ _ => rfl, rfl, fun _ => rfl⟩

theorem Calm.deferred {a s : State} (h : Calm a s) (d : List Deferred) : Calm a { s with deferred := d } :=
  h.trans ⟨rfl, rfl, rfl, rfl, rfl, fun _ _ => rfl, rfl, fun _ => rfl⟩

theorem Calm.pokeHbm {a s : State} (h : Calm a s) (k : Nat) (bs : List Byte) : Calm a (pokeHbm s k bs) :=
  h.trans ⟨rfl, rfl, rfl, rfl, rfl, fun _ _ => rfl, rfl, fun _ => rfl⟩

theorem Calm.gauge {a s : State} (h : Calm a s) (t off n : Nat) : Calm a (gauge s t off n) :=
  h.modTroupe _ _ fun _ => rfl

theorem Calm.boardWrite {a s : State} (h : Calm a s) (t slot off : Nat) (bs : List Byte) :
    Calm a (boardWrite s t slot off bs) := h.modTroupe _ _ fun _ => rfl

theorem Calm.copyRecord {a s : State} (h : Calm a s) (r : Rec) (e : ErrRec) : Calm a (copyRecord r e s) := by
  unfold Sys2Proof.Machine.copyRecord; split
  · exact h
  · exact h.modTroupe _ _ fun _ => rfl

theorem Calm.suppress {a s : State} (h : Calm a s) : Calm a (suppress s) := h.log _

theorem Calm.writeRecord {a s : State} (h : Calm a s) (r : Rec) : Calm a (writeRecord r s) := by
  unfold Sys2Proof.Machine.writeRecord; split
  · exact (h.log _).copyRecord _ _
  · exact h.suppress

/-- A write to a troupe's ledger is calm: in host memory it changes ledger bytes only. -/
theorem Calm.pokeLedger {a s : State} (h : Calm a s) (host : Bool) (k : Nat) (bs : List Byte)
    (hl : ∀ i, i < bs.length → inLedger host a ((k + i) % 2 ^ 64)) : Calm a (poke host s k bs) := by
  unfold poke
  split
  · rename_i e
    refine ⟨h.house, h.check, h.ports, h.slices, h.scratch, fun x hx => ?_, h.pending, h.own⟩
    rw [← h.host x hx]
    exact memByte_memWrite_off bs s.host k x fun i hi e' => hx (e' ▸ e ▸ hl i hi)
  · exact h.pokeHbm _ _

theorem ledgerBytes_length (t : Nat) (r : StepRec) : (ledgerBytes t r).length = 128 := by
  simp [ledgerBytes, leBytes]

theorem Calm.ledgerStore {a s : State} (h : Calm a s) (t n : Nat) : Calm a (ledgerStore t n s) := by
  unfold Sys2Proof.Machine.ledgerStore
  dsimp only
  split
  · rename_i p r hp hr
    have own : (troupe a t).ledger = some p := by
      rw [← hp]; exact (congrArg Troupe.ledger (h.own t)).symm
    have h1 : ∀ i, Calm a (poke p.host s (p.base.toNat + 128 * (i % max 1 p.records)) (ledgerBytes t r)) := fun i => by
      refine h.pokeLedger _ _ _ fun j hj => ⟨t, p, own, rfl, .inl ⟨128 * (i % max 1 p.records) + j, ?_, by
        rw [Nat.add_assoc]⟩⟩
      rw [ledgerBytes_length] at hj
      have : i % max 1 p.records < max 1 p.records := Nat.mod_lt _ (by omega)
      omega
    split
    · exact h
    · split
      · exact h
      · split
        · exact h1 _
        · refine (h1 _).pokeLedger _ _ _ fun j hj => ⟨t, p, own, rfl, .inr ⟨r.extAt + j, ?_, by rw [Nat.add_assoc]⟩⟩
          rw [List.length_take] at hj
          omega
  · exact h

theorem Calm.countCause {a s : State} (h : Calm a s) (row : Option Nat) (fresh : Bool) (t : Nat) :
    Calm a (countCause row fresh t s) := by
  unfold Sys2Proof.Machine.countCause; split
  · exact h.gauge _ _ _
  · exact h

theorem Calm.curtain {a s : State} (h : Calm a s) (row : Option Nat) (t : Nat) : Calm a (curtain row t s) := by
  unfold Sys2Proof.Machine.curtain; split
  · exact h
  · have k := fun fresh opened s1 => (h.countCause row fresh t).modTroupe t (·.fall row fresh opened s1) fun _ => rfl
    dsimp only
    split
    · exact (k _ _ _).ledgerStore _ _
    · exact k _ _ _

theorem Calm.markServed {a s : State} (h : Calm a s) (p : Post) : Calm a (markServed p s) :=
  h.modTroupe _ _ fun _ => rfl

theorem Calm.completeSlot {a s : State} (h : Calm a s) (i k : Nat) (st : Status) (res : List (Nat × List Byte)) :
    Calm a (completeSlot i k st res s).1 := by
  unfold Sys2Proof.Machine.completeSlot; split
  · exact h
  · have fold : ∀ (l : List (Nat × List Byte)) (s : State), Calm a s →
        Calm a (l.foldl (fun s e => Machine.boardWrite s i k (192 + e.1) e.2) s) := by
      intro l
      induction l with
      | nil => intro s h; exact h
      | cons e r ih => intro s h; exact ih _ (h.boardWrite _ _ _ _)
    exact Calm.deferred (Calm.modTroupe ((fold res s h).boardWrite _ _ _ _) _ _ (by intro; rfl)) _

theorem Calm.cueAdd {a s : State} (h : Calm a s) (t c n : Nat) : Calm a (cueAdd t c n s).1 := by
  unfold Sys2Proof.Machine.cueAdd; split
  · exact h
  · split
    · exact h
    · exact h.modTroupe _ _ fun _ => rfl

theorem Calm.fenceTroupe {a s : State} (h : Calm a s) (t : Nat) (st : Status) (ix : BitVec 32) (row : Option Nat) :
    Calm a (fenceTroupe t st ix row s).1 := by
  unfold Sys2Proof.Machine.fenceTroupe
  split <;> first | exact (h.curtain _ _).modTroupe _ _ fun _ => rfl | exact h

theorem Calm.act {a s : State} (h : Calm a s) (x : Act) : Calm a (act x s).1 := by
  cases x with
  | complete i k st res => exact h.completeSlot ..
  | store k bs => exact h.pokeHbm ..
  | signal t c => exact h.cueAdd ..
  | record r => exact h.writeRecord ..
  | fault r row => exact h.writeRecord ..
  | fence t st ix row => exact h.fenceTroupe ..

theorem Calm.runActs {a : State} : ∀ (n : Nat) (xs : List Act) {s : State}, Calm a s → Calm a (runActs n xs s)
  | 0, _, _, h => h
  | _ + 1, [], _, h => h
  | n + 1, x :: _, _, h => Calm.runActs n _ (h.act x)

theorem Calm.run {a s : State} (h : Calm a s) (xs : List Act) : Calm a (run xs s) := Calm.runActs _ _ h

theorem Calm.record {a s : State} (h : Calm a s) (r : Rec) : Calm a (record r s) := h.run _
theorem Calm.fault {a s : State} (h : Calm a s) (r : Rec) (row : Option Nat) : Calm a (fault r row s) := h.run _
theorem Calm.signal {a s : State} (h : Calm a s) (t c : Nat) : Calm a (signal t c s) := h.run _
theorem Calm.signalField {a s : State} (h : Calm a s) (t : Nat) (w : BitVec 16) : Calm a (signalField t w s) := by
  unfold Sys2Proof.Machine.signalField; split
  · exact h.signal _ _
  · exact h
theorem Calm.completeDeferred {a s : State} (h : Calm a s) (t : Nat) (which : Awaits → Bool) (st : Status)
    (res : List (Nat × List Byte)) : Calm a (completeDeferred t which st res s) := h.run _

theorem Calm.completed {a s : State} (h : Calm a s) (p : Post) (st : Status) (rs : List (Nat × List Byte))
    (b f : List Act) : Calm a (completed p st rs b f s) := (h.markServed p).run _
theorem Calm.refusedWith {a s : State} (h : Calm a s) (p : Post) (st : Status) : Calm a (refusedWith p st s) :=
  ((h.markServed p).gauge _ _ _).run _
theorem Calm.heldBack {a s : State} (h : Calm a s) (p : Post) (t : Nat) (q : Posted) (aw : Awaits) (b : List Act) :
    Calm a (heldBack p t q aw b s) := (((h.markServed p).boardWrite _ _ _ _).deferred _).run _

/-- Every field of a troupe outside the ones that `Troupe.own` blanks is the same after a calm change. -/
theorem Calm.field {a s : State} (h : Calm a s) {γ : Type} (g : Troupe → γ) (hg : ∀ tr, g tr.own = g tr) (u : Nat) :
    g (troupe s u) = g (troupe a u) := by rw [← hg, h.own, hg]

end Sys2Proof.Machine
end

