-- ==== Sys2Proof/Laws/Begun.lean ====
section
/-! SUPPORT. What the passing of ck and the taking of a command leave alone (R50, R323). -/

namespace Sys2Proof.Machine

open Sys2Proof

theorem foldl_portGauge (l : Tab Port) (f : State → Nat × Port → Nat) : ∀ s : State,
    (l.foldl (fun s e => portGauge s e.1 28 (f s e)) s) =
      { s with house := { s.house with gauges := (l.foldl (fun s e => portGauge s e.1 28 (f s e)) s).house.gauges } } := by
  induction l with
  | nil => intro s; rfl
  | cons e r ih => intro s; rw [List.foldl_cons, ih]; rfl

/-- `passCk` changes the ck counter, the paused gauges of the ports and the paused time of the bookings, nothing else. -/
theorem passCk_eq (d : Nat) (s : State) : passCk d s =
    { s with house := { s.house with gauges := (passCk d s).house.gauges, ck := s.house.ck + d },
             troupes := (passCk d s).troupes } := by
  by_cases h : d = 0
  · subst h; rfl
  · simp only [passCk, if_neg h]
    rw [foldl_portGauge _ (fun s e => ckNs (s.house.ck + e.2.pauses.foldl (fun a q => max a (min d (q.2.1 - s.house.ck))) 0) - ckNs s.house.ck)]

theorem passCk_house (d : Nat) (s : State) : (passCk d s).house =
    { s.house with gauges := (passCk d s).house.gauges, ck := s.house.ck + d } := by
  conv => lhs; rw [passCk_eq]

@[simp] theorem passCk_log (d : Nat) (s : State) : (passCk d s).log = s.log := by rw [passCk_eq]
@[simp] theorem passCk_check (d : Nat) (s : State) : (passCk d s).check = s.check := by rw [passCk_eq]
@[simp] theorem passCk_ports (d : Nat) (s : State) : (passCk d s).ports = s.ports := by rw [passCk_eq]
@[simp] theorem passCk_slices (d : Nat) (s : State) : (passCk d s).slices = s.slices := by rw [passCk_eq]
@[simp] theorem passCk_deferred (d : Nat) (s : State) : (passCk d s).deferred = s.deferred := by rw [passCk_eq]
@[simp] theorem passCk_hbm (d : Nat) (s : State) : (passCk d s).hbm = s.hbm := by rw [passCk_eq]
@[simp] theorem passCk_scratch (d : Nat) (s : State) : (passCk d s).scratch = s.scratch := by rw [passCk_eq]
@[simp] theorem passCk_host (d : Nat) (s : State) : (passCk d s).host = s.host := by rw [passCk_eq]
@[simp] theorem passCk_pending (d : Nat) (s : State) : (passCk d s).pending = s.pending := by rw [passCk_eq]
@[simp] theorem passCk_tick (d : Nat) (s : State) : (passCk d s).house.tick = s.house.tick := by rw [passCk_house]
@[simp] theorem passCk_ck (d : Nat) (s : State) : (passCk d s).house.ck = s.house.ck + d := by rw [passCk_house]
@[simp] theorem passCk_zero (s : State) : passCk 0 s = s := rfl

/-- A troupe field that the paused time of a booking is no part of. -/
theorem troupe_passCk {γ : Type} (d : Nat) (s : State) (u : Nat) (g : Troupe → γ)
    (hg : ∀ tr b, g { tr with bookings := b } = g tr) : g (troupe (passCk d s) u) = g (troupe s u) := by
  unfold passCk; split
  · rfl
  · simp only [troupe, tabGetD]
    split
    · rfl
    · have m := tabGet_map s.troupes u fun _ tr => accountPaused d s tr
      rw [m]
      cases tabGet s.troupes u with
      | none => rfl
      | some tr => exact hg _ _

/-- Taking a command changes the ck counter, the paused gauges and times, and the two counts of served commands. -/
theorem begun_house (p : Post) (s : State) : (begun p s).house =
    { s.house with gauges := (begun p s).house.gauges, ck := s.house.ck + p.dt,
                   servedInTick := s.house.servedInTick + 1 } := by
  simp only [begun, gauge_house, modHouse_house]; conv => lhs; rw [passCk_house]

@[simp] theorem begun_log (p : Post) (s : State) : (begun p s).log = s.log := passCk_log _ _
@[simp] theorem begun_check (p : Post) (s : State) : (begun p s).check = s.check := passCk_check _ _
@[simp] theorem begun_ports (p : Post) (s : State) : (begun p s).ports = s.ports := passCk_ports _ _
@[simp] theorem begun_slices (p : Post) (s : State) : (begun p s).slices = s.slices := passCk_slices _ _
@[simp] theorem begun_deferred (p : Post) (s : State) : (begun p s).deferred = s.deferred := passCk_deferred _ _
@[simp] theorem begun_hbm (p : Post) (s : State) : (begun p s).hbm = s.hbm := passCk_hbm _ _
@[simp] theorem begun_scratch (p : Post) (s : State) : (begun p s).scratch = s.scratch := passCk_scratch _ _
@[simp] theorem begun_host (p : Post) (s : State) : (begun p s).host = s.host := passCk_host _ _
@[simp] theorem begun_pending (p : Post) (s : State) : (begun p s).pending = s.pending := passCk_pending _ _
@[simp] theorem passCk_house_pits (d : Nat) (s : State) : (passCk d s).house.pits = s.house.pits := by rw [passCk_house]
@[simp] theorem passCk_house_coord (d : Nat) (s : State) : (passCk d s).house.coord = s.house.coord := by rw [passCk_house]
@[simp] theorem passCk_house_podNumber (d : Nat) (s : State) : (passCk d s).house.podNumber = s.house.podNumber := by rw [passCk_house]
@[simp] theorem passCk_house_dims (d : Nat) (s : State) : (passCk d s).house.dims = s.house.dims := by rw [passCk_house]
@[simp] theorem passCk_house_vid (d : Nat) (s : State) : (passCk d s).house.vid = s.house.vid := by rw [passCk_house]
@[simp] theorem passCk_house_podSet (d : Nat) (s : State) : (passCk d s).house.podSet = s.house.podSet := by rw [passCk_house]
@[simp] theorem passCk_house_sceneStart (d : Nat) (s : State) : (passCk d s).house.sceneStart = s.house.sceneStart := by rw [passCk_house]
@[simp] theorem passCk_house_sceneLength (d : Nat) (s : State) : (passCk d s).house.sceneLength = s.house.sceneLength := by rw [passCk_house]
@[simp] theorem passCk_house_correction (d : Nat) (s : State) : (passCk d s).house.correction = s.house.correction := by rw [passCk_house]
@[simp] theorem passCk_house_period (d : Nat) (s : State) : (passCk d s).house.period = s.house.period := by rw [passCk_house]
@[simp] theorem passCk_house_pendingPeriod (d : Nat) (s : State) : (passCk d s).house.pendingPeriod = s.house.pendingPeriod := by rw [passCk_house]
@[simp] theorem passCk_house_parent (d : Nat) (s : State) : (passCk d s).house.parent = s.house.parent := by rw [passCk_house]
@[simp] theorem passCk_house_pendingParent (d : Nat) (s : State) : (passCk d s).house.pendingParent = s.house.pendingParent := by rw [passCk_house]
@[simp] theorem passCk_house_tookCounter (d : Nat) (s : State) : (passCk d s).house.tookCounter = s.house.tookCounter := by rw [passCk_house]
@[simp] theorem passCk_house_takeCounter (d : Nat) (s : State) : (passCk d s).house.takeCounter = s.house.takeCounter := by rw [passCk_house]
@[simp] theorem passCk_house_theta (d : Nat) (s : State) : (passCk d s).house.theta = s.house.theta := by rw [passCk_house]
@[simp] theorem passCk_house_ticksOut (d : Nat) (s : State) : (passCk d s).house.ticksOut = s.house.ticksOut := by rw [passCk_house]
@[simp] theorem passCk_house_ticksIn (d : Nat) (s : State) : (passCk d s).house.ticksIn = s.house.ticksIn := by rw [passCk_house]
@[simp] theorem passCk_house_periodClash (d : Nat) (s : State) : (passCk d s).house.periodClash = s.house.periodClash := by rw [passCk_house]
@[simp] theorem passCk_house_fwUp (d : Nat) (s : State) : (passCk d s).house.fwUp = s.house.fwUp := by rw [passCk_house]
@[simp] theorem passCk_house_doorsOpen (d : Nat) (s : State) : (passCk d s).house.doorsOpen = s.house.doorsOpen := by rw [passCk_house]
@[simp] theorem passCk_house_adrift (d : Nat) (s : State) : (passCk d s).house.adrift = s.house.adrift := by rw [passCk_house]
@[simp] theorem passCk_house_stalled (d : Nat) (s : State) : (passCk d s).house.stalled = s.house.stalled := by rw [passCk_house]
@[simp] theorem passCk_house_silentTicks (d : Nat) (s : State) : (passCk d s).house.silentTicks = s.house.silentTicks := by rw [passCk_house]
@[simp] theorem passCk_house_rehearsed (d : Nat) (s : State) : (passCk d s).house.rehearsed = s.house.rehearsed := by rw [passCk_house]
@[simp] theorem passCk_house_released (d : Nat) (s : State) : (passCk d s).house.released = s.house.released := by rw [passCk_house]
@[simp] theorem passCk_house_releaseCk (d : Nat) (s : State) : (passCk d s).house.releaseCk = s.house.releaseCk := by rw [passCk_house]
@[simp] theorem passCk_house_doorsRecord (d : Nat) (s : State) : (passCk d s).house.doorsRecord = s.house.doorsRecord := by rw [passCk_house]
@[simp] theorem passCk_house_adlib (d : Nat) (s : State) : (passCk d s).house.adlib = s.house.adlib := by rw [passCk_house]
@[simp] theorem passCk_house_pitShare (d : Nat) (s : State) : (passCk d s).house.pitShare = s.house.pitShare := by rw [passCk_house]
@[simp] theorem passCk_house_pendingShare (d : Nat) (s : State) : (passCk d s).house.pendingShare = s.house.pendingShare := by rw [passCk_house]
@[simp] theorem passCk_house_allowance (d : Nat) (s : State) : (passCk d s).house.allowance = s.house.allowance := by rw [passCk_house]
@[simp] theorem passCk_house_rehearsal (d : Nat) (s : State) : (passCk d s).house.rehearsal = s.house.rehearsal := by rw [passCk_house]
@[simp] theorem passCk_house_slack (d : Nat) (s : State) : (passCk d s).house.slack = s.house.slack := by rw [passCk_house]
@[simp] theorem passCk_house_pendingTest (d : Nat) (s : State) : (passCk d s).house.pendingTest = s.house.pendingTest := by rw [passCk_house]
@[simp] theorem passCk_house_units (d : Nat) (s : State) : (passCk d s).house.units = s.house.units := by rw [passCk_house]
@[simp] theorem passCk_house_updates (d : Nat) (s : State) : (passCk d s).house.updates = s.house.updates := by rw [passCk_house]
@[simp] theorem passCk_house_owed (d : Nat) (s : State) : (passCk d s).house.owed = s.house.owed := by rw [passCk_house]
@[simp] theorem passCk_house_alignedCk (d : Nat) (s : State) : (passCk d s).house.alignedCk = s.house.alignedCk := by rw [passCk_house]
@[simp] theorem passCk_house_sceneRest (d : Nat) (s : State) : (passCk d s).house.sceneRest = s.house.sceneRest := by rw [passCk_house]
@[simp] theorem passCk_house_sceneFrac (d : Nat) (s : State) : (passCk d s).house.sceneFrac = s.house.sceneFrac := by rw [passCk_house]
@[simp] theorem passCk_house_cores (d : Nat) (s : State) : (passCk d s).house.cores = s.house.cores := by rw [passCk_house]
@[simp] theorem passCk_house_stalledEmits (d : Nat) (s : State) : (passCk d s).house.stalledEmits = s.house.stalledEmits := by rw [passCk_house]
@[simp] theorem passCk_house_inletTurn (d : Nat) (s : State) : (passCk d s).house.inletTurn = s.house.inletTurn := by rw [passCk_house]
@[simp] theorem passCk_house_tallySlots (d : Nat) (s : State) : (passCk d s).house.tallySlots = s.house.tallySlots := by rw [passCk_house]
@[simp] theorem passCk_house_lfsr (d : Nat) (s : State) : (passCk d s).house.lfsr = s.house.lfsr := by rw [passCk_house]
@[simp] theorem passCk_house_knocksInTick (d : Nat) (s : State) : (passCk d s).house.knocksInTick = s.house.knocksInTick := by rw [passCk_house]
@[simp] theorem passCk_house_servedInTick (d : Nat) (s : State) :
    (passCk d s).house.servedInTick = s.house.servedInTick := by rw [passCk_house]
@[simp] theorem passCk_house_resetDue (d : Nat) (s : State) : (passCk d s).house.resetDue = s.house.resetDue := by rw [passCk_house]
@[simp] theorem passCk_house_tickGauges (d : Nat) (s : State) : (passCk d s).house.tickGauges = s.house.tickGauges := by rw [passCk_house]
@[simp] theorem passCk_house_reply (d : Nat) (s : State) : (passCk d s).house.reply = s.house.reply := by rw [passCk_house]
@[simp] theorem passCk_house_draws (d : Nat) (s : State) : (passCk d s).house.draws = s.house.draws := by rw [passCk_house]

@[simp] theorem begun_house_pits (p : Post) (s : State) : (begun p s).house.pits = s.house.pits := by rw [begun_house]
@[simp] theorem begun_house_coord (p : Post) (s : State) : (begun p s).house.coord = s.house.coord := by rw [begun_house]
@[simp] theorem begun_house_podNumber (p : Post) (s : State) : (begun p s).house.podNumber = s.house.podNumber := by rw [begun_house]
@[simp] theorem begun_house_dims (p : Post) (s : State) : (begun p s).house.dims = s.house.dims := by rw [begun_house]
@[simp] theorem begun_house_vid (p : Post) (s : State) : (begun p s).house.vid = s.house.vid := by rw [begun_house]
@[simp] theorem begun_house_podSet (p : Post) (s : State) : (begun p s).house.podSet = s.house.podSet := by rw [begun_house]
@[simp] theorem begun_house_tick (p : Post) (s : State) : (begun p s).house.tick = s.house.tick := by rw [begun_house]
@[simp] theorem begun_house_sceneStart (p : Post) (s : State) : (begun p s).house.sceneStart = s.house.sceneStart := by rw [begun_house]
@[simp] theorem begun_house_sceneLength (p : Post) (s : State) : (begun p s).house.sceneLength = s.house.sceneLength := by rw [begun_house]
@[simp] theorem begun_house_correction (p : Post) (s : State) : (begun p s).house.correction = s.house.correction := by rw [begun_house]
@[simp] theorem begun_house_period (p : Post) (s : State) : (begun p s).house.period = s.house.period := by rw [begun_house]
@[simp] theorem begun_house_pendingPeriod (p : Post) (s : State) : (begun p s).house.pendingPeriod = s.house.pendingPeriod := by rw [begun_house]
@[simp] theorem begun_house_parent (p : Post) (s : State) : (begun p s).house.parent = s.house.parent := by rw [begun_house]
@[simp] theorem begun_house_pendingParent (p : Post) (s : State) : (begun p s).house.pendingParent = s.house.pendingParent := by rw [begun_house]
@[simp] theorem begun_house_tookCounter (p : Post) (s : State) : (begun p s).house.tookCounter = s.house.tookCounter := by rw [begun_house]
@[simp] theorem begun_house_takeCounter (p : Post) (s : State) : (begun p s).house.takeCounter = s.house.takeCounter := by rw [begun_house]
@[simp] theorem begun_house_theta (p : Post) (s : State) : (begun p s).house.theta = s.house.theta := by rw [begun_house]
@[simp] theorem begun_house_ticksOut (p : Post) (s : State) : (begun p s).house.ticksOut = s.house.ticksOut := by rw [begun_house]
@[simp] theorem begun_house_ticksIn (p : Post) (s : State) : (begun p s).house.ticksIn = s.house.ticksIn := by rw [begun_house]
@[simp] theorem begun_house_periodClash (p : Post) (s : State) : (begun p s).house.periodClash = s.house.periodClash := by rw [begun_house]
@[simp] theorem begun_house_fwUp (p : Post) (s : State) : (begun p s).house.fwUp = s.house.fwUp := by rw [begun_house]
@[simp] theorem begun_house_doorsOpen (p : Post) (s : State) : (begun p s).house.doorsOpen = s.house.doorsOpen := by rw [begun_house]
@[simp] theorem begun_house_adrift (p : Post) (s : State) : (begun p s).house.adrift = s.house.adrift := by rw [begun_house]
@[simp] theorem begun_house_stalled (p : Post) (s : State) : (begun p s).house.stalled = s.house.stalled := by rw [begun_house]
@[simp] theorem begun_house_silentTicks (p : Post) (s : State) : (begun p s).house.silentTicks = s.house.silentTicks := by rw [begun_house]
@[simp] theorem begun_house_rehearsed (p : Post) (s : State) : (begun p s).house.rehearsed = s.house.rehearsed := by rw [begun_house]
@[simp] theorem begun_house_released (p : Post) (s : State) : (begun p s).house.released = s.house.released := by rw [begun_house]
@[simp] theorem begun_house_releaseCk (p : Post) (s : State) : (begun p s).house.releaseCk = s.house.releaseCk := by rw [begun_house]
@[simp] theorem begun_house_doorsRecord (p : Post) (s : State) : (begun p s).house.doorsRecord = s.house.doorsRecord := by rw [begun_house]
@[simp] theorem begun_house_adlib (p : Post) (s : State) : (begun p s).house.adlib = s.house.adlib := by rw [begun_house]
@[simp] theorem begun_house_pitShare (p : Post) (s : State) : (begun p s).house.pitShare = s.house.pitShare := by rw [begun_house]
@[simp] theorem begun_house_pendingShare (p : Post) (s : State) : (begun p s).house.pendingShare = s.house.pendingShare := by rw [begun_house]
@[simp] theorem begun_house_allowance (p : Post) (s : State) : (begun p s).house.allowance = s.house.allowance := by rw [begun_house]
@[simp] theorem begun_house_rehearsal (p : Post) (s : State) : (begun p s).house.rehearsal = s.house.rehearsal := by rw [begun_house]
@[simp] theorem begun_house_slack (p : Post) (s : State) : (begun p s).house.slack = s.house.slack := by rw [begun_house]
@[simp] theorem begun_house_pendingTest (p : Post) (s : State) : (begun p s).house.pendingTest = s.house.pendingTest := by rw [begun_house]
@[simp] theorem begun_house_units (p : Post) (s : State) : (begun p s).house.units = s.house.units := by rw [begun_house]
@[simp] theorem begun_house_updates (p : Post) (s : State) : (begun p s).house.updates = s.house.updates := by rw [begun_house]
@[simp] theorem begun_house_owed (p : Post) (s : State) : (begun p s).house.owed = s.house.owed := by rw [begun_house]
@[simp] theorem begun_house_alignedCk (p : Post) (s : State) : (begun p s).house.alignedCk = s.house.alignedCk := by rw [begun_house]
@[simp] theorem begun_house_sceneRest (p : Post) (s : State) : (begun p s).house.sceneRest = s.house.sceneRest := by rw [begun_house]
@[simp] theorem begun_house_sceneFrac (p : Post) (s : State) : (begun p s).house.sceneFrac = s.house.sceneFrac := by rw [begun_house]
@[simp] theorem begun_house_cores (p : Post) (s : State) : (begun p s).house.cores = s.house.cores := by rw [begun_house]
@[simp] theorem begun_house_stalledEmits (p : Post) (s : State) : (begun p s).house.stalledEmits = s.house.stalledEmits := by rw [begun_house]
@[simp] theorem begun_house_inletTurn (p : Post) (s : State) : (begun p s).house.inletTurn = s.house.inletTurn := by rw [begun_house]
@[simp] theorem begun_house_tallySlots (p : Post) (s : State) : (begun p s).house.tallySlots = s.house.tallySlots := by rw [begun_house]
@[simp] theorem begun_house_lfsr (p : Post) (s : State) : (begun p s).house.lfsr = s.house.lfsr := by rw [begun_house]
@[simp] theorem begun_house_knocksInTick (p : Post) (s : State) : (begun p s).house.knocksInTick = s.house.knocksInTick := by rw [begun_house]
@[simp] theorem begun_house_resetDue (p : Post) (s : State) : (begun p s).house.resetDue = s.house.resetDue := by rw [begun_house]
@[simp] theorem begun_house_tickGauges (p : Post) (s : State) : (begun p s).house.tickGauges = s.house.tickGauges := by rw [begun_house]
@[simp] theorem begun_house_reply (p : Post) (s : State) : (begun p s).house.reply = s.house.reply := by rw [begun_house]
@[simp] theorem begun_house_draws (p : Post) (s : State) : (begun p s).house.draws = s.house.draws := by rw [begun_house]
@[simp] theorem begun_house_ck (p : Post) (s : State) : (begun p s).house.ck = s.house.ck + p.dt := by rw [begun_house]
@[simp] theorem begun_house_servedInTick (p : Post) (s : State) :
    (begun p s).house.servedInTick = s.house.servedInTick + 1 := by rw [begun_house]

/-- A troupe field that neither the paused time of a booking nor a gauge is part of. -/
theorem troupe_begun {γ : Type} (p : Post) (s : State) (u : Nat) (g : Troupe → γ)
    (hg : ∀ tr b, g { tr with bookings := b } = g tr) (hh : ∀ tr k, g { tr with gauges := k } = g tr) :
    g (troupe (begun p s) u) = g (troupe s u) := by
  rw [begun, gauge, troupe_modTroupe_of _ _ _ _ g (fun tr => hh tr _), troupe_modHouse, troupe_passCk _ _ _ g hg]

@[simp] theorem portOf_begun (p : Post) (s : State) (k : Nat) : portOf (begun p s) k = portOf s k := by simp [portOf]
@[simp] theorem sliceOf_begun (p : Post) (s : State) (k : Nat) : sliceOf (begun p s) k = sliceOf s k := by simp [sliceOf]
@[simp] theorem portOf_passCk (d : Nat) (s : State) (k : Nat) : portOf (passCk d s) k = portOf s k := by simp [portOf]
@[simp] theorem sliceOf_passCk (d : Nat) (s : State) (k : Nat) : sliceOf (passCk d s) k = sliceOf s k := by simp [sliceOf]
@[simp] theorem peekWord_begun (p : Post) (s : State) (a n : Nat) : peekWord (begun p s) a n = peekWord s a n := by
  simp [peekWord]

@[simp] theorem begun_life (p : Post) (s : State) (u : Nat) :
    (troupe (begun p s) u).life = (troupe s u).life :=
  troupe_begun p s u Troupe.life (fun _ _ => rfl) fun _ _ => rfl
@[simp] theorem begun_prior (p : Post) (s : State) (u : Nat) :
    (troupe (begun p s) u).prior = (troupe s u).prior :=
  troupe_begun p s u Troupe.prior (fun _ _ => rfl) fun _ _ => rfl
@[simp] theorem begun_adlib (p : Post) (s : State) (u : Nat) :
    (troupe (begun p s) u).adlib = (troupe s u).adlib :=
  troupe_begun p s u Troupe.adlib (fun _ _ => rfl) fun _ _ => rfl
@[simp] theorem begun_bestEffort (p : Post) (s : State) (u : Nat) :
    (troupe (begun p s) u).bestEffort = (troupe s u).bestEffort :=
  troupe_begun p s u Troupe.bestEffort (fun _ _ => rfl) fun _ _ => rfl
@[simp] theorem begun_issuer (p : Post) (s : State) (u : Nat) :
    (troupe (begun p s) u).issuer = (troupe s u).issuer :=
  troupe_begun p s u Troupe.issuer (fun _ _ => rfl) fun _ _ => rfl
@[simp] theorem begun_held (p : Post) (s : State) (u : Nat) :
    (troupe (begun p s) u).held = (troupe s u).held :=
  troupe_begun p s u Troupe.held (fun _ _ => rfl) fun _ _ => rfl
@[simp] theorem begun_diverged (p : Post) (s : State) (u : Nat) :
    (troupe (begun p s) u).diverged = (troupe s u).diverged :=
  troupe_begun p s u Troupe.diverged (fun _ _ => rfl) fun _ _ => rfl
@[simp] theorem begun_fence (p : Post) (s : State) (u : Nat) :
    (troupe (begun p s) u).fence = (troupe s u).fence :=
  troupe_begun p s u Troupe.fence (fun _ _ => rfl) fun _ _ => rfl
@[simp] theorem begun_regions (p : Post) (s : State) (u : Nat) :
    (troupe (begun p s) u).regions = (troupe s u).regions :=
  troupe_begun p s u Troupe.regions (fun _ _ => rfl) fun _ _ => rfl
@[simp] theorem begun_board (p : Post) (s : State) (u : Nat) :
    (troupe (begun p s) u).board = (troupe s u).board :=
  troupe_begun p s u Troupe.board (fun _ _ => rfl) fun _ _ => rfl
@[simp] theorem begun_posted (p : Post) (s : State) (u : Nat) :
    (troupe (begun p s) u).posted = (troupe s u).posted :=
  troupe_begun p s u Troupe.posted (fun _ _ => rfl) fun _ _ => rfl
@[simp] theorem begun_ringStatus (p : Post) (s : State) (u : Nat) :
    (troupe (begun p s) u).ringStatus = (troupe s u).ringStatus :=
  troupe_begun p s u Troupe.ringStatus (fun _ _ => rfl) fun _ _ => rfl
@[simp] theorem begun_errors (p : Post) (s : State) (u : Nat) :
    (troupe (begun p s) u).errors = (troupe s u).errors :=
  troupe_begun p s u Troupe.errors (fun _ _ => rfl) fun _ _ => rfl
@[simp] theorem begun_fenceIndex (p : Post) (s : State) (u : Nat) :
    (troupe (begun p s) u).fenceIndex = (troupe s u).fenceIndex :=
  troupe_begun p s u Troupe.fenceIndex (fun _ _ => rfl) fun _ _ => rfl
@[simp] theorem begun_lastError (p : Post) (s : State) (u : Nat) :
    (troupe (begun p s) u).lastError = (troupe s u).lastError :=
  troupe_begun p s u Troupe.lastError (fun _ _ => rfl) fun _ _ => rfl
@[simp] theorem begun_tickGauges (p : Post) (s : State) (u : Nat) :
    (troupe (begun p s) u).tickGauges = (troupe s u).tickGauges :=
  troupe_begun p s u Troupe.tickGauges (fun _ _ => rfl) fun _ _ => rfl
@[simp] theorem begun_queue (p : Post) (s : State) (u : Nat) :
    (troupe (begun p s) u).queue = (troupe s u).queue :=
  troupe_begun p s u Troupe.queue (fun _ _ => rfl) fun _ _ => rfl
@[simp] theorem begun_taken (p : Post) (s : State) (u : Nat) :
    (troupe (begun p s) u).taken = (troupe s u).taken :=
  troupe_begun p s u Troupe.taken (fun _ _ => rfl) fun _ _ => rfl
@[simp] theorem begun_slots (p : Post) (s : State) (u : Nat) :
    (troupe (begun p s) u).slots = (troupe s u).slots :=
  troupe_begun p s u Troupe.slots (fun _ _ => rfl) fun _ _ => rfl
@[simp] theorem begun_arenas (p : Post) (s : State) (u : Nat) :
    (troupe (begun p s) u).arenas = (troupe s u).arenas :=
  troupe_begun p s u Troupe.arenas (fun _ _ => rfl) fun _ _ => rfl
@[simp] theorem begun_cues (p : Post) (s : State) (u : Nat) :
    (troupe (begun p s) u).cues = (troupe s u).cues :=
  troupe_begun p s u Troupe.cues (fun _ _ => rfl) fun _ _ => rfl
@[simp] theorem begun_rings (p : Post) (s : State) (u : Nat) :
    (troupe (begun p s) u).rings = (troupe s u).rings :=
  troupe_begun p s u Troupe.rings (fun _ _ => rfl) fun _ _ => rfl
@[simp] theorem begun_ringTurn (p : Post) (s : State) (u : Nat) :
    (troupe (begun p s) u).ringTurn = (troupe s u).ringTurn :=
  troupe_begun p s u Troupe.ringTurn (fun _ _ => rfl) fun _ _ => rfl
@[simp] theorem begun_shapers (p : Post) (s : State) (u : Nat) :
    (troupe (begun p s) u).shapers = (troupe s u).shapers :=
  troupe_begun p s u Troupe.shapers (fun _ _ => rfl) fun _ _ => rfl
@[simp] theorem begun_grants (p : Post) (s : State) (u : Nat) :
    (troupe (begun p s) u).grants = (troupe s u).grants :=
  troupe_begun p s u Troupe.grants (fun _ _ => rfl) fun _ _ => rfl
@[simp] theorem begun_brokenWords (p : Post) (s : State) (u : Nat) :
    (troupe (begun p s) u).brokenWords = (troupe s u).brokenWords :=
  troupe_begun p s u Troupe.brokenWords (fun _ _ => rfl) fun _ _ => rfl
@[simp] theorem begun_lines (p : Post) (s : State) (u : Nat) :
    (troupe (begun p s) u).lines = (troupe s u).lines :=
  troupe_begun p s u Troupe.lines (fun _ _ => rfl) fun _ _ => rfl
@[simp] theorem begun_area (p : Post) (s : State) (u : Nat) :
    (troupe (begun p s) u).area = (troupe s u).area :=
  troupe_begun p s u Troupe.area (fun _ _ => rfl) fun _ _ => rfl
@[simp] theorem begun_slice (p : Post) (s : State) (u : Nat) :
    (troupe (begun p s) u).slice = (troupe s u).slice :=
  troupe_begun p s u Troupe.slice (fun _ _ => rfl) fun _ _ => rfl
@[simp] theorem begun_bill (p : Post) (s : State) (u : Nat) :
    (troupe (begun p s) u).bill = (troupe s u).bill :=
  troupe_begun p s u Troupe.bill (fun _ _ => rfl) fun _ _ => rfl
@[simp] theorem begun_buckets (p : Post) (s : State) (u : Nat) :
    (troupe (begun p s) u).buckets = (troupe s u).buckets :=
  troupe_begun p s u Troupe.buckets (fun _ _ => rfl) fun _ _ => rfl
@[simp] theorem begun_sealed (p : Post) (s : State) (u : Nat) :
    (troupe (begun p s) u).sealed = (troupe s u).sealed :=
  troupe_begun p s u Troupe.sealed (fun _ _ => rfl) fun _ _ => rfl
@[simp] theorem begun_sealing (p : Post) (s : State) (u : Nat) :
    (troupe (begun p s) u).sealing = (troupe s u).sealing :=
  troupe_begun p s u Troupe.sealing (fun _ _ => rfl) fun _ _ => rfl
@[simp] theorem begun_sealNumber (p : Post) (s : State) (u : Nat) :
    (troupe (begun p s) u).sealNumber = (troupe s u).sealNumber :=
  troupe_begun p s u Troupe.sealNumber (fun _ _ => rfl) fun _ _ => rfl
@[simp] theorem begun_graph (p : Post) (s : State) (u : Nat) :
    (troupe (begun p s) u).graph = (troupe s u).graph :=
  troupe_begun p s u Troupe.graph (fun _ _ => rfl) fun _ _ => rfl
@[simp] theorem begun_sieve (p : Post) (s : State) (u : Nat) :
    (troupe (begun p s) u).sieve = (troupe s u).sieve :=
  troupe_begun p s u Troupe.sieve (fun _ _ => rfl) fun _ _ => rfl
@[simp] theorem begun_scale (p : Post) (s : State) (u : Nat) :
    (troupe (begun p s) u).scale = (troupe s u).scale :=
  troupe_begun p s u Troupe.scale (fun _ _ => rfl) fun _ _ => rfl
@[simp] theorem begun_histograms (p : Post) (s : State) (u : Nat) :
    (troupe (begun p s) u).histograms = (troupe s u).histograms :=
  troupe_begun p s u Troupe.histograms (fun _ _ => rfl) fun _ _ => rfl
@[simp] theorem begun_carousels (p : Post) (s : State) (u : Nat) :
    (troupe (begun p s) u).carousels = (troupe s u).carousels :=
  troupe_begun p s u Troupe.carousels (fun _ _ => rfl) fun _ _ => rfl
@[simp] theorem begun_generation (p : Post) (s : State) (u : Nat) :
    (troupe (begun p s) u).generation = (troupe s u).generation :=
  troupe_begun p s u Troupe.generation (fun _ _ => rfl) fun _ _ => rfl
@[simp] theorem begun_opened (p : Post) (s : State) (u : Nat) :
    (troupe (begun p s) u).opened = (troupe s u).opened :=
  troupe_begun p s u Troupe.opened (fun _ _ => rfl) fun _ _ => rfl
@[simp] theorem begun_epoch (p : Post) (s : State) (u : Nat) :
    (troupe (begun p s) u).epoch = (troupe s u).epoch :=
  troupe_begun p s u Troupe.epoch (fun _ _ => rfl) fun _ _ => rfl
@[simp] theorem begun_steps (p : Post) (s : State) (u : Nat) :
    (troupe (begun p s) u).steps = (troupe s u).steps :=
  troupe_begun p s u Troupe.steps (fun _ _ => rfl) fun _ _ => rfl
@[simp] theorem begun_work (p : Post) (s : State) (u : Nat) :
    (troupe (begun p s) u).work = (troupe s u).work :=
  troupe_begun p s u Troupe.work (fun _ _ => rfl) fun _ _ => rfl
@[simp] theorem begun_workStep (p : Post) (s : State) (u : Nat) :
    (troupe (begun p s) u).workStep = (troupe s u).workStep :=
  troupe_begun p s u Troupe.workStep (fun _ _ => rfl) fun _ _ => rfl
@[simp] theorem begun_gather (p : Post) (s : State) (u : Nat) :
    (troupe (begun p s) u).gather = (troupe s u).gather :=
  troupe_begun p s u Troupe.gather (fun _ _ => rfl) fun _ _ => rfl
@[simp] theorem begun_chunks (p : Post) (s : State) (u : Nat) :
    (troupe (begun p s) u).chunks = (troupe s u).chunks :=
  troupe_begun p s u Troupe.chunks (fun _ _ => rfl) fun _ _ => rfl
@[simp] theorem begun_fallbacks (p : Post) (s : State) (u : Nat) :
    (troupe (begun p s) u).fallbacks = (troupe s u).fallbacks :=
  troupe_begun p s u Troupe.fallbacks (fun _ _ => rfl) fun _ _ => rfl
@[simp] theorem begun_seed (p : Post) (s : State) (u : Nat) :
    (troupe (begun p s) u).seed = (troupe s u).seed :=
  troupe_begun p s u Troupe.seed (fun _ _ => rfl) fun _ _ => rfl
@[simp] theorem begun_deadline (p : Post) (s : State) (u : Nat) :
    (troupe (begun p s) u).deadline = (troupe s u).deadline :=
  troupe_begun p s u Troupe.deadline (fun _ _ => rfl) fun _ _ => rfl
@[simp] theorem begun_bank (p : Post) (s : State) (u : Nat) :
    (troupe (begun p s) u).bank = (troupe s u).bank :=
  troupe_begun p s u Troupe.bank (fun _ _ => rfl) fun _ _ => rfl
@[simp] theorem begun_bankKept (p : Post) (s : State) (u : Nat) :
    (troupe (begun p s) u).bankKept = (troupe s u).bankKept :=
  troupe_begun p s u Troupe.bankKept (fun _ _ => rfl) fun _ _ => rfl
@[simp] theorem begun_bankFound (p : Post) (s : State) (u : Nat) :
    (troupe (begun p s) u).bankFound = (troupe s u).bankFound :=
  troupe_begun p s u Troupe.bankFound (fun _ _ => rfl) fun _ _ => rfl
@[simp] theorem begun_residA (p : Post) (s : State) (u : Nat) :
    (troupe (begun p s) u).residA = (troupe s u).residA :=
  troupe_begun p s u Troupe.residA (fun _ _ => rfl) fun _ _ => rfl
@[simp] theorem begun_residB (p : Post) (s : State) (u : Nat) :
    (troupe (begun p s) u).residB = (troupe s u).residB :=
  troupe_begun p s u Troupe.residB (fun _ _ => rfl) fun _ _ => rfl
@[simp] theorem begun_version (p : Post) (s : State) (u : Nat) :
    (troupe (begun p s) u).version = (troupe s u).version :=
  troupe_begun p s u Troupe.version (fun _ _ => rfl) fun _ _ => rfl
@[simp] theorem begun_versionKept (p : Post) (s : State) (u : Nat) :
    (troupe (begun p s) u).versionKept = (troupe s u).versionKept :=
  troupe_begun p s u Troupe.versionKept (fun _ _ => rfl) fun _ _ => rfl
@[simp] theorem begun_versionFound (p : Post) (s : State) (u : Nat) :
    (troupe (begun p s) u).versionFound = (troupe s u).versionFound :=
  troupe_begun p s u Troupe.versionFound (fun _ _ => rfl) fun _ _ => rfl
@[simp] theorem begun_needImport (p : Post) (s : State) (u : Nat) :
    (troupe (begun p s) u).needImport = (troupe s u).needImport :=
  troupe_begun p s u Troupe.needImport (fun _ _ => rfl) fun _ _ => rfl
@[simp] theorem begun_areaA (p : Post) (s : State) (u : Nat) :
    (troupe (begun p s) u).areaA = (troupe s u).areaA :=
  troupe_begun p s u Troupe.areaA (fun _ _ => rfl) fun _ _ => rfl
@[simp] theorem begun_areaB (p : Post) (s : State) (u : Nat) :
    (troupe (begun p s) u).areaB = (troupe s u).areaB :=
  troupe_begun p s u Troupe.areaB (fun _ _ => rfl) fun _ _ => rfl
@[simp] theorem begun_opt (p : Post) (s : State) (u : Nat) :
    (troupe (begun p s) u).opt = (troupe s u).opt :=
  troupe_begun p s u Troupe.opt (fun _ _ => rfl) fun _ _ => rfl
@[simp] theorem begun_gamma (p : Post) (s : State) (u : Nat) :
    (troupe (begun p s) u).gamma = (troupe s u).gamma :=
  troupe_begun p s u Troupe.gamma (fun _ _ => rfl) fun _ _ => rfl
@[simp] theorem begun_lag (p : Post) (s : State) (u : Nat) :
    (troupe (begun p s) u).lag = (troupe s u).lag :=
  troupe_begun p s u Troupe.lag (fun _ _ => rfl) fun _ _ => rfl
@[simp] theorem begun_pendingOpt (p : Post) (s : State) (u : Nat) :
    (troupe (begun p s) u).pendingOpt = (troupe s u).pendingOpt :=
  troupe_begun p s u Troupe.pendingOpt (fun _ _ => rfl) fun _ _ => rfl
@[simp] theorem begun_tierChanged (p : Post) (s : State) (u : Nat) :
    (troupe (begun p s) u).tierChanged = (troupe s u).tierChanged :=
  troupe_begun p s u Troupe.tierChanged (fun _ _ => rfl) fun _ _ => rfl
@[simp] theorem begun_toImport (p : Post) (s : State) (u : Nat) :
    (troupe (begun p s) u).toImport = (troupe s u).toImport :=
  troupe_begun p s u Troupe.toImport (fun _ _ => rfl) fun _ _ => rfl
@[simp] theorem begun_gammaWord (p : Post) (s : State) (u : Nat) :
    (troupe (begun p s) u).gammaWord = (troupe s u).gammaWord :=
  troupe_begun p s u Troupe.gammaWord (fun _ _ => rfl) fun _ _ => rfl
@[simp] theorem begun_noCheck (p : Post) (s : State) (u : Nat) :
    (troupe (begun p s) u).noCheck = (troupe s u).noCheck :=
  troupe_begun p s u Troupe.noCheck (fun _ _ => rfl) fun _ _ => rfl
@[simp] theorem begun_earlyVeto (p : Post) (s : State) (u : Nat) :
    (troupe (begun p s) u).earlyVeto = (troupe s u).earlyVeto :=
  troupe_begun p s u Troupe.earlyVeto (fun _ _ => rfl) fun _ _ => rfl
@[simp] theorem begun_written (p : Post) (s : State) (u : Nat) :
    (troupe (begun p s) u).written = (troupe s u).written :=
  troupe_begun p s u Troupe.written (fun _ _ => rfl) fun _ _ => rfl
@[simp] theorem begun_hostRing (p : Post) (s : State) (u : Nat) :
    (troupe (begun p s) u).hostRing = (troupe s u).hostRing :=
  troupe_begun p s u Troupe.hostRing (fun _ _ => rfl) fun _ _ => rfl
@[simp] theorem begun_hostSlots (p : Post) (s : State) (u : Nat) :
    (troupe (begun p s) u).hostSlots = (troupe s u).hostSlots :=
  troupe_begun p s u Troupe.hostSlots (fun _ _ => rfl) fun _ _ => rfl
@[simp] theorem begun_spikeLoss (p : Post) (s : State) (u : Nat) :
    (troupe (begun p s) u).spikeLoss = (troupe s u).spikeLoss :=
  troupe_begun p s u Troupe.spikeLoss (fun _ _ => rfl) fun _ _ => rfl
@[simp] theorem begun_spikeNorm (p : Post) (s : State) (u : Nat) :
    (troupe (begun p s) u).spikeNorm = (troupe s u).spikeNorm :=
  troupe_begun p s u Troupe.spikeNorm (fun _ _ => rfl) fun _ _ => rfl
@[simp] theorem begun_pendingSpike (p : Post) (s : State) (u : Nat) :
    (troupe (begun p s) u).pendingSpike = (troupe s u).pendingSpike :=
  troupe_begun p s u Troupe.pendingSpike (fun _ _ => rfl) fun _ _ => rfl
@[simp] theorem begun_ledger (p : Post) (s : State) (u : Nat) :
    (troupe (begun p s) u).ledger = (troupe s u).ledger :=
  troupe_begun p s u Troupe.ledger (fun _ _ => rfl) fun _ _ => rfl
@[simp] theorem begun_ledgerCount (p : Post) (s : State) (u : Nat) :
    (troupe (begun p s) u).ledgerCount = (troupe s u).ledgerCount :=
  troupe_begun p s u Troupe.ledgerCount (fun _ _ => rfl) fun _ _ => rfl
@[simp] theorem begun_ledgerExt (p : Post) (s : State) (u : Nat) :
    (troupe (begun p s) u).ledgerExt = (troupe s u).ledgerExt :=
  troupe_begun p s u Troupe.ledgerExt (fun _ _ => rfl) fun _ _ => rfl
@[simp] theorem begun_pairLine (p : Post) (s : State) (u : Nat) :
    (troupe (begun p s) u).pairLine = (troupe s u).pairLine :=
  troupe_begun p s u Troupe.pairLine (fun _ _ => rfl) fun _ _ => rfl
@[simp] theorem begun_pairMode (p : Post) (s : State) (u : Nat) :
    (troupe (begun p s) u).pairMode = (troupe s u).pairMode :=
  troupe_begun p s u Troupe.pairMode (fun _ _ => rfl) fun _ _ => rfl
@[simp] theorem begun_pairTrickle (p : Post) (s : State) (u : Nat) :
    (troupe (begun p s) u).pairTrickle = (troupe s u).pairTrickle :=
  troupe_begun p s u Troupe.pairTrickle (fun _ _ => rfl) fun _ _ => rfl
@[simp] theorem begun_pairOwned (p : Post) (s : State) (u : Nat) :
    (troupe (begun p s) u).pairOwned = (troupe s u).pairOwned :=
  troupe_begun p s u Troupe.pairOwned (fun _ _ => rfl) fun _ _ => rfl
@[simp] theorem begun_propK (p : Post) (s : State) (u : Nat) :
    (troupe (begun p s) u).propK = (troupe s u).propK :=
  troupe_begun p s u Troupe.propK (fun _ _ => rfl) fun _ _ => rfl
@[simp] theorem begun_propN (p : Post) (s : State) (u : Nat) :
    (troupe (begun p s) u).propN = (troupe s u).propN :=
  troupe_begun p s u Troupe.propN (fun _ _ => rfl) fun _ _ => rfl
@[simp] theorem begun_mirror (p : Post) (s : State) (u : Nat) :
    (troupe (begun p s) u).mirror = (troupe s u).mirror :=
  troupe_begun p s u Troupe.mirror (fun _ _ => rfl) fun _ _ => rfl
@[simp] theorem begun_digestArea (p : Post) (s : State) (u : Nat) :
    (troupe (begun p s) u).digestArea = (troupe s u).digestArea :=
  troupe_begun p s u Troupe.digestArea (fun _ _ => rfl) fun _ _ => rfl
@[simp] theorem begun_trickleAt (p : Post) (s : State) (u : Nat) :
    (troupe (begun p s) u).trickleAt = (troupe s u).trickleAt :=
  troupe_begun p s u Troupe.trickleAt (fun _ _ => rfl) fun _ _ => rfl
@[simp] theorem begun_spillRegions (p : Post) (s : State) (u : Nat) :
    (troupe (begun p s) u).spillRegions = (troupe s u).spillRegions :=
  troupe_begun p s u Troupe.spillRegions (fun _ _ => rfl) fun _ _ => rfl
@[simp] theorem begun_spills (p : Post) (s : State) (u : Nat) :
    (troupe (begun p s) u).spills = (troupe s u).spills :=
  troupe_begun p s u Troupe.spills (fun _ _ => rfl) fun _ _ => rfl
@[simp] theorem begun_layerDigest (p : Post) (s : State) (u : Nat) :
    (troupe (begun p s) u).layerDigest = (troupe s u).layerDigest :=
  troupe_begun p s u Troupe.layerDigest (fun _ _ => rfl) fun _ _ => rfl
@[simp] theorem begun_sieveCalls (p : Post) (s : State) (u : Nat) :
    (troupe (begun p s) u).sieveCalls = (troupe s u).sieveCalls :=
  troupe_begun p s u Troupe.sieveCalls (fun _ _ => rfl) fun _ _ => rfl
@[simp] theorem begun_sieveNumber (p : Post) (s : State) (u : Nat) :
    (troupe (begun p s) u).sieveNumber = (troupe s u).sieveNumber :=
  troupe_begun p s u Troupe.sieveNumber (fun _ _ => rfl) fun _ _ => rfl
@[simp] theorem begun_sheet (p : Post) (s : State) (u : Nat) :
    (troupe (begun p s) u).sheet = (troupe s u).sheet :=
  troupe_begun p s u Troupe.sheet (fun _ _ => rfl) fun _ _ => rfl
@[simp] theorem begun_packed (p : Post) (s : State) (u : Nat) :
    (troupe (begun p s) u).packed = (troupe s u).packed :=
  troupe_begun p s u Troupe.packed (fun _ _ => rfl) fun _ _ => rfl
@[simp] theorem begun_round (p : Post) (s : State) (u : Nat) :
    (troupe (begun p s) u).round = (troupe s u).round :=
  troupe_begun p s u Troupe.round (fun _ _ => rfl) fun _ _ => rfl
@[simp] theorem begun_rounds (p : Post) (s : State) (u : Nat) :
    (troupe (begun p s) u).rounds = (troupe s u).rounds :=
  troupe_begun p s u Troupe.rounds (fun _ _ => rfl) fun _ _ => rfl
@[simp] theorem begun_roundsEnd (p : Post) (s : State) (u : Nat) :
    (troupe (begun p s) u).roundsEnd = (troupe s u).roundsEnd :=
  troupe_begun p s u Troupe.roundsEnd (fun _ _ => rfl) fun _ _ => rfl
@[simp] theorem begun_abandoned (p : Post) (s : State) (u : Nat) :
    (troupe (begun p s) u).abandoned = (troupe s u).abandoned :=
  troupe_begun p s u Troupe.abandoned (fun _ _ => rfl) fun _ _ => rfl
@[simp] theorem begun_abandonTold (p : Post) (s : State) (u : Nat) :
    (troupe (begun p s) u).abandonTold = (troupe s u).abandonTold :=
  troupe_begun p s u Troupe.abandonTold (fun _ _ => rfl) fun _ _ => rfl
@[simp] theorem begun_decided (p : Post) (s : State) (u : Nat) :
    (troupe (begun p s) u).decided = (troupe s u).decided :=
  troupe_begun p s u Troupe.decided (fun _ _ => rfl) fun _ _ => rfl
@[simp] theorem begun_lastCommitted (p : Post) (s : State) (u : Nat) :
    (troupe (begun p s) u).lastCommitted = (troupe s u).lastCommitted :=
  troupe_begun p s u Troupe.lastCommitted (fun _ _ => rfl) fun _ _ => rfl
@[simp] theorem begun_lastCommitTick (p : Post) (s : State) (u : Nat) :
    (troupe (begun p s) u).lastCommitTick = (troupe s u).lastCommitTick :=
  troupe_begun p s u Troupe.lastCommitTick (fun _ _ => rfl) fun _ _ => rfl
@[simp] theorem begun_billBroken (p : Post) (s : State) (u : Nat) :
    (troupe (begun p s) u).billBroken = (troupe s u).billBroken :=
  troupe_begun p s u Troupe.billBroken (fun _ _ => rfl) fun _ _ => rfl
@[simp] theorem begun_resetRan (p : Post) (s : State) (u : Nat) :
    (troupe (begun p s) u).resetRan = (troupe s u).resetRan :=
  troupe_begun p s u Troupe.resetRan (fun _ _ => rfl) fun _ _ => rfl
@[simp] theorem begun_resetCues (p : Post) (s : State) (u : Nat) :
    (troupe (begun p s) u).resetCues = (troupe s u).resetCues :=
  troupe_begun p s u Troupe.resetCues (fun _ _ => rfl) fun _ _ => rfl
@[simp] theorem begun_opCount (p : Post) (s : State) (u : Nat) :
    (troupe (begun p s) u).opCount = (troupe s u).opCount :=
  troupe_begun p s u Troupe.opCount (fun _ _ => rfl) fun _ _ => rfl
@[simp] theorem begun_promotion (p : Post) (s : State) (u : Nat) :
    (troupe (begun p s) u).promotion = (troupe s u).promotion :=
  troupe_begun p s u Troupe.promotion (fun _ _ => rfl) fun _ _ => rfl
@[simp] theorem begun_encoreDone (p : Post) (s : State) (u : Nat) :
    (troupe (begun p s) u).encoreDone = (troupe s u).encoreDone :=
  troupe_begun p s u Troupe.encoreDone (fun _ _ => rfl) fun _ _ => rfl
@[simp] theorem begun_address (p : Post) (s : State) (u : Nat) :
    (troupe (begun p s) u).address = (troupe s u).address :=
  troupe_begun p s u Troupe.address (fun _ _ => rfl) fun _ _ => rfl

@[simp] theorem passCk_life (d : Nat) (s : State) (u : Nat) :
    (troupe (passCk d s) u).life = (troupe s u).life :=
  troupe_passCk d s u Troupe.life fun _ _ => rfl
@[simp] theorem passCk_prior (d : Nat) (s : State) (u : Nat) :
    (troupe (passCk d s) u).prior = (troupe s u).prior :=
  troupe_passCk d s u Troupe.prior fun _ _ => rfl
@[simp] theorem passCk_adlib (d : Nat) (s : State) (u : Nat) :
    (troupe (passCk d s) u).adlib = (troupe s u).adlib :=
  troupe_passCk d s u Troupe.adlib fun _ _ => rfl
@[simp] theorem passCk_bestEffort (d : Nat) (s : State) (u : Nat) :
    (troupe (passCk d s) u).bestEffort = (troupe s u).bestEffort :=
  troupe_passCk d s u Troupe.bestEffort fun _ _ => rfl
@[simp] theorem passCk_issuer (d : Nat) (s : State) (u : Nat) :
    (troupe (passCk d s) u).issuer = (troupe s u).issuer :=
  troupe_passCk d s u Troupe.issuer fun _ _ => rfl
@[simp] theorem passCk_held (d : Nat) (s : State) (u : Nat) :
    (troupe (passCk d s) u).held = (troupe s u).held :=
  troupe_passCk d s u Troupe.held fun _ _ => rfl
@[simp] theorem passCk_diverged (d : Nat) (s : State) (u : Nat) :
    (troupe (passCk d s) u).diverged = (troupe s u).diverged :=
  troupe_passCk d s u Troupe.diverged fun _ _ => rfl
@[simp] theorem passCk_fence (d : Nat) (s : State) (u : Nat) :
    (troupe (passCk d s) u).fence = (troupe s u).fence :=
  troupe_passCk d s u Troupe.fence fun _ _ => rfl
@[simp] theorem passCk_regions (d : Nat) (s : State) (u : Nat) :
    (troupe (passCk d s) u).regions = (troupe s u).regions :=
  troupe_passCk d s u Troupe.regions fun _ _ => rfl
@[simp] theorem passCk_board (d : Nat) (s : State) (u : Nat) :
    (troupe (passCk d s) u).board = (troupe s u).board :=
  troupe_passCk d s u Troupe.board fun _ _ => rfl
@[simp] theorem passCk_posted (d : Nat) (s : State) (u : Nat) :
    (troupe (passCk d s) u).posted = (troupe s u).posted :=
  troupe_passCk d s u Troupe.posted fun _ _ => rfl
@[simp] theorem passCk_ringStatus (d : Nat) (s : State) (u : Nat) :
    (troupe (passCk d s) u).ringStatus = (troupe s u).ringStatus :=
  troupe_passCk d s u Troupe.ringStatus fun _ _ => rfl
@[simp] theorem passCk_errors (d : Nat) (s : State) (u : Nat) :
    (troupe (passCk d s) u).errors = (troupe s u).errors :=
  troupe_passCk d s u Troupe.errors fun _ _ => rfl
@[simp] theorem passCk_fenceIndex (d : Nat) (s : State) (u : Nat) :
    (troupe (passCk d s) u).fenceIndex = (troupe s u).fenceIndex :=
  troupe_passCk d s u Troupe.fenceIndex fun _ _ => rfl
@[simp] theorem passCk_lastError (d : Nat) (s : State) (u : Nat) :
    (troupe (passCk d s) u).lastError = (troupe s u).lastError :=
  troupe_passCk d s u Troupe.lastError fun _ _ => rfl
@[simp] theorem passCk_gauges (d : Nat) (s : State) (u : Nat) :
    (troupe (passCk d s) u).gauges = (troupe s u).gauges :=
  troupe_passCk d s u Troupe.gauges fun _ _ => rfl
@[simp] theorem passCk_tickGauges (d : Nat) (s : State) (u : Nat) :
    (troupe (passCk d s) u).tickGauges = (troupe s u).tickGauges :=
  troupe_passCk d s u Troupe.tickGauges fun _ _ => rfl
@[simp] theorem passCk_queue (d : Nat) (s : State) (u : Nat) :
    (troupe (passCk d s) u).queue = (troupe s u).queue :=
  troupe_passCk d s u Troupe.queue fun _ _ => rfl
@[simp] theorem passCk_taken (d : Nat) (s : State) (u : Nat) :
    (troupe (passCk d s) u).taken = (troupe s u).taken :=
  troupe_passCk d s u Troupe.taken fun _ _ => rfl
@[simp] theorem passCk_slots (d : Nat) (s : State) (u : Nat) :
    (troupe (passCk d s) u).slots = (troupe s u).slots :=
  troupe_passCk d s u Troupe.slots fun _ _ => rfl
@[simp] theorem passCk_arenas (d : Nat) (s : State) (u : Nat) :
    (troupe (passCk d s) u).arenas = (troupe s u).arenas :=
  troupe_passCk d s u Troupe.arenas fun _ _ => rfl
@[simp] theorem passCk_cues (d : Nat) (s : State) (u : Nat) :
    (troupe (passCk d s) u).cues = (troupe s u).cues :=
  troupe_passCk d s u Troupe.cues fun _ _ => rfl
@[simp] theorem passCk_rings (d : Nat) (s : State) (u : Nat) :
    (troupe (passCk d s) u).rings = (troupe s u).rings :=
  troupe_passCk d s u Troupe.rings fun _ _ => rfl
@[simp] theorem passCk_ringTurn (d : Nat) (s : State) (u : Nat) :
    (troupe (passCk d s) u).ringTurn = (troupe s u).ringTurn :=
  troupe_passCk d s u Troupe.ringTurn fun _ _ => rfl
@[simp] theorem passCk_shapers (d : Nat) (s : State) (u : Nat) :
    (troupe (passCk d s) u).shapers = (troupe s u).shapers :=
  troupe_passCk d s u Troupe.shapers fun _ _ => rfl
@[simp] theorem passCk_grants (d : Nat) (s : State) (u : Nat) :
    (troupe (passCk d s) u).grants = (troupe s u).grants :=
  troupe_passCk d s u Troupe.grants fun _ _ => rfl
@[simp] theorem passCk_brokenWords (d : Nat) (s : State) (u : Nat) :
    (troupe (passCk d s) u).brokenWords = (troupe s u).brokenWords :=
  troupe_passCk d s u Troupe.brokenWords fun _ _ => rfl
@[simp] theorem passCk_lines (d : Nat) (s : State) (u : Nat) :
    (troupe (passCk d s) u).lines = (troupe s u).lines :=
  troupe_passCk d s u Troupe.lines fun _ _ => rfl
@[simp] theorem passCk_area (d : Nat) (s : State) (u : Nat) :
    (troupe (passCk d s) u).area = (troupe s u).area :=
  troupe_passCk d s u Troupe.area fun _ _ => rfl
@[simp] theorem passCk_slice (d : Nat) (s : State) (u : Nat) :
    (troupe (passCk d s) u).slice = (troupe s u).slice :=
  troupe_passCk d s u Troupe.slice fun _ _ => rfl
@[simp] theorem passCk_bill (d : Nat) (s : State) (u : Nat) :
    (troupe (passCk d s) u).bill = (troupe s u).bill :=
  troupe_passCk d s u Troupe.bill fun _ _ => rfl
@[simp] theorem passCk_buckets (d : Nat) (s : State) (u : Nat) :
    (troupe (passCk d s) u).buckets = (troupe s u).buckets :=
  troupe_passCk d s u Troupe.buckets fun _ _ => rfl
@[simp] theorem passCk_sealed (d : Nat) (s : State) (u : Nat) :
    (troupe (passCk d s) u).sealed = (troupe s u).sealed :=
  troupe_passCk d s u Troupe.sealed fun _ _ => rfl
@[simp] theorem passCk_sealing (d : Nat) (s : State) (u : Nat) :
    (troupe (passCk d s) u).sealing = (troupe s u).sealing :=
  troupe_passCk d s u Troupe.sealing fun _ _ => rfl
@[simp] theorem passCk_sealNumber (d : Nat) (s : State) (u : Nat) :
    (troupe (passCk d s) u).sealNumber = (troupe s u).sealNumber :=
  troupe_passCk d s u Troupe.sealNumber fun _ _ => rfl
@[simp] theorem passCk_graph (d : Nat) (s : State) (u : Nat) :
    (troupe (passCk d s) u).graph = (troupe s u).graph :=
  troupe_passCk d s u Troupe.graph fun _ _ => rfl
@[simp] theorem passCk_sieve (d : Nat) (s : State) (u : Nat) :
    (troupe (passCk d s) u).sieve = (troupe s u).sieve :=
  troupe_passCk d s u Troupe.sieve fun _ _ => rfl
@[simp] theorem passCk_scale (d : Nat) (s : State) (u : Nat) :
    (troupe (passCk d s) u).scale = (troupe s u).scale :=
  troupe_passCk d s u Troupe.scale fun _ _ => rfl
@[simp] theorem passCk_histograms (d : Nat) (s : State) (u : Nat) :
    (troupe (passCk d s) u).histograms = (troupe s u).histograms :=
  troupe_passCk d s u Troupe.histograms fun _ _ => rfl
@[simp] theorem passCk_carousels (d : Nat) (s : State) (u : Nat) :
    (troupe (passCk d s) u).carousels = (troupe s u).carousels :=
  troupe_passCk d s u Troupe.carousels fun _ _ => rfl
@[simp] theorem passCk_generation (d : Nat) (s : State) (u : Nat) :
    (troupe (passCk d s) u).generation = (troupe s u).generation :=
  troupe_passCk d s u Troupe.generation fun _ _ => rfl
@[simp] theorem passCk_opened (d : Nat) (s : State) (u : Nat) :
    (troupe (passCk d s) u).opened = (troupe s u).opened :=
  troupe_passCk d s u Troupe.opened fun _ _ => rfl
@[simp] theorem passCk_epoch (d : Nat) (s : State) (u : Nat) :
    (troupe (passCk d s) u).epoch = (troupe s u).epoch :=
  troupe_passCk d s u Troupe.epoch fun _ _ => rfl
@[simp] theorem passCk_steps (d : Nat) (s : State) (u : Nat) :
    (troupe (passCk d s) u).steps = (troupe s u).steps :=
  troupe_passCk d s u Troupe.steps fun _ _ => rfl
@[simp] theorem passCk_work (d : Nat) (s : State) (u : Nat) :
    (troupe (passCk d s) u).work = (troupe s u).work :=
  troupe_passCk d s u Troupe.work fun _ _ => rfl
@[simp] theorem passCk_workStep (d : Nat) (s : State) (u : Nat) :
    (troupe (passCk d s) u).workStep = (troupe s u).workStep :=
  troupe_passCk d s u Troupe.workStep fun _ _ => rfl
@[simp] theorem passCk_gather (d : Nat) (s : State) (u : Nat) :
    (troupe (passCk d s) u).gather = (troupe s u).gather :=
  troupe_passCk d s u Troupe.gather fun _ _ => rfl
@[simp] theorem passCk_chunks (d : Nat) (s : State) (u : Nat) :
    (troupe (passCk d s) u).chunks = (troupe s u).chunks :=
  troupe_passCk d s u Troupe.chunks fun _ _ => rfl
@[simp] theorem passCk_fallbacks (d : Nat) (s : State) (u : Nat) :
    (troupe (passCk d s) u).fallbacks = (troupe s u).fallbacks :=
  troupe_passCk d s u Troupe.fallbacks fun _ _ => rfl
@[simp] theorem passCk_seed (d : Nat) (s : State) (u : Nat) :
    (troupe (passCk d s) u).seed = (troupe s u).seed :=
  troupe_passCk d s u Troupe.seed fun _ _ => rfl
@[simp] theorem passCk_deadline (d : Nat) (s : State) (u : Nat) :
    (troupe (passCk d s) u).deadline = (troupe s u).deadline :=
  troupe_passCk d s u Troupe.deadline fun _ _ => rfl
@[simp] theorem passCk_bank (d : Nat) (s : State) (u : Nat) :
    (troupe (passCk d s) u).bank = (troupe s u).bank :=
  troupe_passCk d s u Troupe.bank fun _ _ => rfl
@[simp] theorem passCk_bankKept (d : Nat) (s : State) (u : Nat) :
    (troupe (passCk d s) u).bankKept = (troupe s u).bankKept :=
  troupe_passCk d s u Troupe.bankKept fun _ _ => rfl
@[simp] theorem passCk_bankFound (d : Nat) (s : State) (u : Nat) :
    (troupe (passCk d s) u).bankFound = (troupe s u).bankFound :=
  troupe_passCk d s u Troupe.bankFound fun _ _ => rfl
@[simp] theorem passCk_residA (d : Nat) (s : State) (u : Nat) :
    (troupe (passCk d s) u).residA = (troupe s u).residA :=
  troupe_passCk d s u Troupe.residA fun _ _ => rfl
@[simp] theorem passCk_residB (d : Nat) (s : State) (u : Nat) :
    (troupe (passCk d s) u).residB = (troupe s u).residB :=
  troupe_passCk d s u Troupe.residB fun _ _ => rfl
@[simp] theorem passCk_version (d : Nat) (s : State) (u : Nat) :
    (troupe (passCk d s) u).version = (troupe s u).version :=
  troupe_passCk d s u Troupe.version fun _ _ => rfl
@[simp] theorem passCk_versionKept (d : Nat) (s : State) (u : Nat) :
    (troupe (passCk d s) u).versionKept = (troupe s u).versionKept :=
  troupe_passCk d s u Troupe.versionKept fun _ _ => rfl
@[simp] theorem passCk_versionFound (d : Nat) (s : State) (u : Nat) :
    (troupe (passCk d s) u).versionFound = (troupe s u).versionFound :=
  troupe_passCk d s u Troupe.versionFound fun _ _ => rfl
@[simp] theorem passCk_needImport (d : Nat) (s : State) (u : Nat) :
    (troupe (passCk d s) u).needImport = (troupe s u).needImport :=
  troupe_passCk d s u Troupe.needImport fun _ _ => rfl
@[simp] theorem passCk_areaA (d : Nat) (s : State) (u : Nat) :
    (troupe (passCk d s) u).areaA = (troupe s u).areaA :=
  troupe_passCk d s u Troupe.areaA fun _ _ => rfl
@[simp] theorem passCk_areaB (d : Nat) (s : State) (u : Nat) :
    (troupe (passCk d s) u).areaB = (troupe s u).areaB :=
  troupe_passCk d s u Troupe.areaB fun _ _ => rfl
@[simp] theorem passCk_opt (d : Nat) (s : State) (u : Nat) :
    (troupe (passCk d s) u).opt = (troupe s u).opt :=
  troupe_passCk d s u Troupe.opt fun _ _ => rfl
@[simp] theorem passCk_gamma (d : Nat) (s : State) (u : Nat) :
    (troupe (passCk d s) u).gamma = (troupe s u).gamma :=
  troupe_passCk d s u Troupe.gamma fun _ _ => rfl
@[simp] theorem passCk_lag (d : Nat) (s : State) (u : Nat) :
    (troupe (passCk d s) u).lag = (troupe s u).lag :=
  troupe_passCk d s u Troupe.lag fun _ _ => rfl
@[simp] theorem passCk_pendingOpt (d : Nat) (s : State) (u : Nat) :
    (troupe (passCk d s) u).pendingOpt = (troupe s u).pendingOpt :=
  troupe_passCk d s u Troupe.pendingOpt fun _ _ => rfl
@[simp] theorem passCk_tierChanged (d : Nat) (s : State) (u : Nat) :
    (troupe (passCk d s) u).tierChanged = (troupe s u).tierChanged :=
  troupe_passCk d s u Troupe.tierChanged fun _ _ => rfl
@[simp] theorem passCk_toImport (d : Nat) (s : State) (u : Nat) :
    (troupe (passCk d s) u).toImport = (troupe s u).toImport :=
  troupe_passCk d s u Troupe.toImport fun _ _ => rfl
@[simp] theorem passCk_gammaWord (d : Nat) (s : State) (u : Nat) :
    (troupe (passCk d s) u).gammaWord = (troupe s u).gammaWord :=
  troupe_passCk d s u Troupe.gammaWord fun _ _ => rfl
@[simp] theorem passCk_noCheck (d : Nat) (s : State) (u : Nat) :
    (troupe (passCk d s) u).noCheck = (troupe s u).noCheck :=
  troupe_passCk d s u Troupe.noCheck fun _ _ => rfl
@[simp] theorem passCk_earlyVeto (d : Nat) (s : State) (u : Nat) :
    (troupe (passCk d s) u).earlyVeto = (troupe s u).earlyVeto :=
  troupe_passCk d s u Troupe.earlyVeto fun _ _ => rfl
@[simp] theorem passCk_written (d : Nat) (s : State) (u : Nat) :
    (troupe (passCk d s) u).written = (troupe s u).written :=
  troupe_passCk d s u Troupe.written fun _ _ => rfl
@[simp] theorem passCk_hostRing (d : Nat) (s : State) (u : Nat) :
    (troupe (passCk d s) u).hostRing = (troupe s u).hostRing :=
  troupe_passCk d s u Troupe.hostRing fun _ _ => rfl
@[simp] theorem passCk_hostSlots (d : Nat) (s : State) (u : Nat) :
    (troupe (passCk d s) u).hostSlots = (troupe s u).hostSlots :=
  troupe_passCk d s u Troupe.hostSlots fun _ _ => rfl
@[simp] theorem passCk_spikeLoss (d : Nat) (s : State) (u : Nat) :
    (troupe (passCk d s) u).spikeLoss = (troupe s u).spikeLoss :=
  troupe_passCk d s u Troupe.spikeLoss fun _ _ => rfl
@[simp] theorem passCk_spikeNorm (d : Nat) (s : State) (u : Nat) :
    (troupe (passCk d s) u).spikeNorm = (troupe s u).spikeNorm :=
  troupe_passCk d s u Troupe.spikeNorm fun _ _ => rfl
@[simp] theorem passCk_pendingSpike (d : Nat) (s : State) (u : Nat) :
    (troupe (passCk d s) u).pendingSpike = (troupe s u).pendingSpike :=
  troupe_passCk d s u Troupe.pendingSpike fun _ _ => rfl
@[simp] theorem passCk_ledger (d : Nat) (s : State) (u : Nat) :
    (troupe (passCk d s) u).ledger = (troupe s u).ledger :=
  troupe_passCk d s u Troupe.ledger fun _ _ => rfl
@[simp] theorem passCk_ledgerCount (d : Nat) (s : State) (u : Nat) :
    (troupe (passCk d s) u).ledgerCount = (troupe s u).ledgerCount :=
  troupe_passCk d s u Troupe.ledgerCount fun _ _ => rfl
@[simp] theorem passCk_ledgerExt (d : Nat) (s : State) (u : Nat) :
    (troupe (passCk d s) u).ledgerExt = (troupe s u).ledgerExt :=
  troupe_passCk d s u Troupe.ledgerExt fun _ _ => rfl
@[simp] theorem passCk_pairLine (d : Nat) (s : State) (u : Nat) :
    (troupe (passCk d s) u).pairLine = (troupe s u).pairLine :=
  troupe_passCk d s u Troupe.pairLine fun _ _ => rfl
@[simp] theorem passCk_pairMode (d : Nat) (s : State) (u : Nat) :
    (troupe (passCk d s) u).pairMode = (troupe s u).pairMode :=
  troupe_passCk d s u Troupe.pairMode fun _ _ => rfl
@[simp] theorem passCk_pairTrickle (d : Nat) (s : State) (u : Nat) :
    (troupe (passCk d s) u).pairTrickle = (troupe s u).pairTrickle :=
  troupe_passCk d s u Troupe.pairTrickle fun _ _ => rfl
@[simp] theorem passCk_pairOwned (d : Nat) (s : State) (u : Nat) :
    (troupe (passCk d s) u).pairOwned = (troupe s u).pairOwned :=
  troupe_passCk d s u Troupe.pairOwned fun _ _ => rfl
@[simp] theorem passCk_propK (d : Nat) (s : State) (u : Nat) :
    (troupe (passCk d s) u).propK = (troupe s u).propK :=
  troupe_passCk d s u Troupe.propK fun _ _ => rfl
@[simp] theorem passCk_propN (d : Nat) (s : State) (u : Nat) :
    (troupe (passCk d s) u).propN = (troupe s u).propN :=
  troupe_passCk d s u Troupe.propN fun _ _ => rfl
@[simp] theorem passCk_mirror (d : Nat) (s : State) (u : Nat) :
    (troupe (passCk d s) u).mirror = (troupe s u).mirror :=
  troupe_passCk d s u Troupe.mirror fun _ _ => rfl
@[simp] theorem passCk_digestArea (d : Nat) (s : State) (u : Nat) :
    (troupe (passCk d s) u).digestArea = (troupe s u).digestArea :=
  troupe_passCk d s u Troupe.digestArea fun _ _ => rfl
@[simp] theorem passCk_trickleAt (d : Nat) (s : State) (u : Nat) :
    (troupe (passCk d s) u).trickleAt = (troupe s u).trickleAt :=
  troupe_passCk d s u Troupe.trickleAt fun _ _ => rfl
@[simp] theorem passCk_spillRegions (d : Nat) (s : State) (u : Nat) :
    (troupe (passCk d s) u).spillRegions = (troupe s u).spillRegions :=
  troupe_passCk d s u Troupe.spillRegions fun _ _ => rfl
@[simp] theorem passCk_spills (d : Nat) (s : State) (u : Nat) :
    (troupe (passCk d s) u).spills = (troupe s u).spills :=
  troupe_passCk d s u Troupe.spills fun _ _ => rfl
@[simp] theorem passCk_layerDigest (d : Nat) (s : State) (u : Nat) :
    (troupe (passCk d s) u).layerDigest = (troupe s u).layerDigest :=
  troupe_passCk d s u Troupe.layerDigest fun _ _ => rfl
@[simp] theorem passCk_sieveCalls (d : Nat) (s : State) (u : Nat) :
    (troupe (passCk d s) u).sieveCalls = (troupe s u).sieveCalls :=
  troupe_passCk d s u Troupe.sieveCalls fun _ _ => rfl
@[simp] theorem passCk_sieveNumber (d : Nat) (s : State) (u : Nat) :
    (troupe (passCk d s) u).sieveNumber = (troupe s u).sieveNumber :=
  troupe_passCk d s u Troupe.sieveNumber fun _ _ => rfl
@[simp] theorem passCk_sheet (d : Nat) (s : State) (u : Nat) :
    (troupe (passCk d s) u).sheet = (troupe s u).sheet :=
  troupe_passCk d s u Troupe.sheet fun _ _ => rfl
@[simp] theorem passCk_packed (d : Nat) (s : State) (u : Nat) :
    (troupe (passCk d s) u).packed = (troupe s u).packed :=
  troupe_passCk d s u Troupe.packed fun _ _ => rfl
@[simp] theorem passCk_round (d : Nat) (s : State) (u : Nat) :
    (troupe (passCk d s) u).round = (troupe s u).round :=
  troupe_passCk d s u Troupe.round fun _ _ => rfl
@[simp] theorem passCk_rounds (d : Nat) (s : State) (u : Nat) :
    (troupe (passCk d s) u).rounds = (troupe s u).rounds :=
  troupe_passCk d s u Troupe.rounds fun _ _ => rfl
@[simp] theorem passCk_roundsEnd (d : Nat) (s : State) (u : Nat) :
    (troupe (passCk d s) u).roundsEnd = (troupe s u).roundsEnd :=
  troupe_passCk d s u Troupe.roundsEnd fun _ _ => rfl
@[simp] theorem passCk_abandoned (d : Nat) (s : State) (u : Nat) :
    (troupe (passCk d s) u).abandoned = (troupe s u).abandoned :=
  troupe_passCk d s u Troupe.abandoned fun _ _ => rfl
@[simp] theorem passCk_abandonTold (d : Nat) (s : State) (u : Nat) :
    (troupe (passCk d s) u).abandonTold = (troupe s u).abandonTold :=
  troupe_passCk d s u Troupe.abandonTold fun _ _ => rfl
@[simp] theorem passCk_decided (d : Nat) (s : State) (u : Nat) :
    (troupe (passCk d s) u).decided = (troupe s u).decided :=
  troupe_passCk d s u Troupe.decided fun _ _ => rfl
@[simp] theorem passCk_lastCommitted (d : Nat) (s : State) (u : Nat) :
    (troupe (passCk d s) u).lastCommitted = (troupe s u).lastCommitted :=
  troupe_passCk d s u Troupe.lastCommitted fun _ _ => rfl
@[simp] theorem passCk_lastCommitTick (d : Nat) (s : State) (u : Nat) :
    (troupe (passCk d s) u).lastCommitTick = (troupe s u).lastCommitTick :=
  troupe_passCk d s u Troupe.lastCommitTick fun _ _ => rfl
@[simp] theorem passCk_billBroken (d : Nat) (s : State) (u : Nat) :
    (troupe (passCk d s) u).billBroken = (troupe s u).billBroken :=
  troupe_passCk d s u Troupe.billBroken fun _ _ => rfl
@[simp] theorem passCk_resetRan (d : Nat) (s : State) (u : Nat) :
    (troupe (passCk d s) u).resetRan = (troupe s u).resetRan :=
  troupe_passCk d s u Troupe.resetRan fun _ _ => rfl
@[simp] theorem passCk_resetCues (d : Nat) (s : State) (u : Nat) :
    (troupe (passCk d s) u).resetCues = (troupe s u).resetCues :=
  troupe_passCk d s u Troupe.resetCues fun _ _ => rfl
@[simp] theorem passCk_opCount (d : Nat) (s : State) (u : Nat) :
    (troupe (passCk d s) u).opCount = (troupe s u).opCount :=
  troupe_passCk d s u Troupe.opCount fun _ _ => rfl
@[simp] theorem passCk_promotion (d : Nat) (s : State) (u : Nat) :
    (troupe (passCk d s) u).promotion = (troupe s u).promotion :=
  troupe_passCk d s u Troupe.promotion fun _ _ => rfl
@[simp] theorem passCk_encoreDone (d : Nat) (s : State) (u : Nat) :
    (troupe (passCk d s) u).encoreDone = (troupe s u).encoreDone :=
  troupe_passCk d s u Troupe.encoreDone fun _ _ => rfl
@[simp] theorem passCk_address (d : Nat) (s : State) (u : Nat) :
    (troupe (passCk d s) u).address = (troupe s u).address :=
  troupe_passCk d s u Troupe.address fun _ _ => rfl

end Sys2Proof.Machine
end

