-- ==== Sys2Proof/Laws/Heard.lean ====
section
/-! SUPPORT. One lemma for each way a frame arrives: what the row then is, and what counting the frame leaves alone. -/

namespace Sys2Proof.Machine

open Sys2Proof

theorem received_eq (port : Nat) (k : Checked) (s : State) :
    received port k s = if k = .ok .tick then portGauge s port 0 1
      else modPort (portGauge s port 0 1) port fun q => { q with idle := 0 } := rfl

theorem counted_house (k : Kind) (dt p : Nat) (s : State) :
    (counted k dt p s).house = (portGauge (passCk dt s) p 0 1).house := by
  simp only [counted, received_eq]; split <;> rfl
@[simp] theorem counted_log (k : Kind) (dt p : Nat) (s : State) : (counted k dt p s).log = s.log := by
  simp only [counted, received_eq]; split <;> simp
@[simp] theorem counted_check (k : Kind) (dt p : Nat) (s : State) : (counted k dt p s).check = s.check := by
  simp only [counted, received_eq]; split <;> simp
@[simp] theorem counted_troupes (k : Kind) (dt p : Nat) (s : State) :
    (counted k dt p s).troupes = (passCk dt s).troupes := by
  simp only [counted, received_eq]; split <;> simp
@[simp] theorem counted_slices (k : Kind) (dt p : Nat) (s : State) : (counted k dt p s).slices = s.slices := by
  simp only [counted, received_eq]; split <;> simp
@[simp] theorem counted_deferred (k : Kind) (dt p : Nat) (s : State) : (counted k dt p s).deferred = s.deferred := by
  simp only [counted, received_eq]; split <;> simp
@[simp] theorem counted_hbm (k : Kind) (dt p : Nat) (s : State) : (counted k dt p s).hbm = s.hbm := by
  simp only [counted, received_eq]; split <;> simp
@[simp] theorem counted_pending (k : Kind) (dt p : Nat) (s : State) : (counted k dt p s).pending = s.pending := by
  simp only [counted, received_eq]; split <;> simp
theorem troupe_counted (k : Kind) (dt p : Nat) (s : State) (t : Nat) :
    troupe (counted k dt p s) t = troupe (passCk dt s) t := by simp [troupe]
@[simp] theorem counted_doorsOpen (k : Kind) (dt p : Nat) (s : State) :
    (counted k dt p s).house.doorsOpen = s.house.doorsOpen := by rw [counted_house]; simp [portGauge, houseGauge]
@[simp] theorem counted_tick (k : Kind) (dt p : Nat) (s : State) :
    (counted k dt p s).house.tick = s.house.tick := by rw [counted_house]; simp [portGauge, houseGauge]
@[simp] theorem counted_ck (k : Kind) (dt p : Nat) (s : State) :
    (counted k dt p s).house.ck = s.house.ck + dt := by rw [counted_house]; simp [portGauge, houseGauge]
@[simp] theorem counted_parent (k : Kind) (dt p : Nat) (s : State) :
    (counted k dt p s).house.parent = s.house.parent := by rw [counted_house]; simp [portGauge, houseGauge]
@[simp] theorem counted_period (k : Kind) (dt p : Nat) (s : State) :
    (counted k dt p s).house.period = s.house.period := by rw [counted_house]; simp [portGauge, houseGauge]
@[simp] theorem sliceOf_counted (k : Kind) (dt p : Nat) (s : State) (r : Nat) :
    sliceOf (counted k dt p s) r = sliceOf s r := by simp [sliceOf]

/-- Counting a frame changes a port's idle time at most. -/
theorem portOf_counted (k : Kind) (dt p : Nat) (s : State) :
    portOf (counted k dt p s) p = if k = .tick then portOf s p else { portOf s p with idle := 0 } := by
  simp only [counted, received_eq]
  by_cases h : k = .tick
  · subst h; simp [portOf]
  · simp only [h, Checked.ok.injEq, if_false, portOf_modPort_same]; simp [portOf]

@[simp] theorem loneAxis_counted (k : Kind) (dt p : Nat) (s : State) :
    loneAxis (counted k dt p s) p = loneAxis s p := by
  simp only [loneAxis, counted_house]; simp [portGauge, houseGauge]

@[simp] theorem ticksOnly_counted (k : Kind) (dt p : Nat) (s : State) :
    ticksOnly (counted k dt p s) p = ticksOnly s p := by
  simp only [ticksOnly, portOf_counted, loneAxis_counted]; split <;> rfl

/-- A frame that is heard leaves its row to the effect of its kind. -/
theorem arrive_heard {k : Kind} {dt p : Nat} {f : List Byte} {h : State → State} {s : State} (H : Heard k dt p f s) :
    arrive k dt p f h s = h (counted k dt p s) := by
  obtain ⟨h1, h2⟩ := H
  simp [arrive, arrived, h1, h2, counted]

theorem arriveOpen_heard {k : Kind} {c : Bool} {dt p : Nat} {f : List Byte} {h : State → State} {s : State}
    (H : HeardOpen k dt p f s) : arriveOpen k c dt p f h s = h (counted k dt p s) := by
  obtain ⟨h1, h2, h3⟩ := H
  rw [arriveOpen, arrive_heard h1]
  simp [h2, h3]

/-- Whether a kind of frame is a carriage. -/
def Kind.isCar (k : Kind) : Bool :=
  [Kind.write, .reduceWrite, .readRequest, .readResponse, .fence, .collective, .delta, .mirror, .trickle].contains k

theorem controlKind_not_car {n : Nat} {k : Kind} (h : controlKind n = some k) : k.isCar = false := by
  unfold controlKind at h
  split at h <;> cases h <;> rfl

theorem else_ok {c : Prop} [Decidable c] {a b : Checked} {k : Kind} (ha : a ≠ .ok k)
    (h : (if c then a else b) = .ok k) : b = .ok k := by
  by_cases e : c
  · rw [if_pos e] at h; exact absurd h ha
  · rwa [if_neg e] at h

theorem then_else_ne {c : Prop} [Decidable c] {a b : Checked} {k : Kind} (ha : a ≠ .ok k) (hb : b ≠ .ok k) :
    (if c then a else b) ≠ .ok k := by
  by_cases e : c
  · rwa [if_pos e]
  · rwa [if_neg e]

/-- A carriage that passes the checks is of the kind that its fields say. -/
theorem carKind_of_checkFrame {s : State} {f : List Byte} {k : Kind} (h : checkFrame s f = .ok k)
    (hk : k.isCar = true) : carKind (readCar f) = k := by
  have no : ∀ k' : Kind, k'.isCar = false → Checked.ok k' ≠ .ok k := by
    intro k' h' e; cases e; rw [h'] at hk; cases hk
  unfold checkFrame at h
  replace h := else_ok (by simp) h
  replace h := else_ok (by simp) h
  replace h := else_ok (by simp) h
  replace h := else_ok (then_else_ne (no _ rfl) (then_else_ne (no _ rfl) (no _ rfl))) h
  replace h := else_ok (no _ rfl) h
  replace h := else_ok (by simp) h
  replace h := else_ok (then_else_ne (by simp) (no _ rfl)) h
  replace h := else_ok (by simp) h
  cases e : controlKind (frameType f) with
  | some k' =>
    rw [e] at h
    replace h := else_ok (by simp) (else_ok (by simp) (else_ok (by simp) h))
    exact absurd h (no _ (controlKind_not_car e))
  | none =>
    rw [e] at h
    replace h := else_ok (by simp) (else_ok (by simp) h)
    dsimp only at h
    cases e : clsOf (bits (bodyField f 2 1) 6 2) with
    | none => rw [e] at h; cases h
    | some cls =>
      rw [e] at h
      replace h := else_ok (by simp) (else_ok (by simp) (else_ok (by simp) (else_ok (by simp) (else_ok (by simp) h))))
      injection h

end Sys2Proof.Machine
end

