-- ==== Sys2Proof/Laws/Keeps.lean ====
section
/-! SUPPORT. The primitive changes of the state keep the queue and soundness, and so do what they are put together by. -/

namespace Sys2Proof.Machine

open Sys2Proof

theorem Keeps.refl (s : State) : Keeps s s := ⟨rfl, id⟩

theorem Keeps.trans {a b c : State} (h : Keeps a b) (k : Keeps b c) : Keeps a c :=
  ⟨k.pending.trans h.pending, fun x => k.sound (h.sound x)⟩

theorem Keeps.ite {a s t : State} {c : Prop} [Decidable c] (h : Keeps a s) (k : Keeps a t) :
    Keeps a (if c then s else t) := by
  split <;> assumption

theorem Keeps.foldl {α : Type} {a : State} {g : State → α → State} (hg : ∀ s x, Keeps s (g s x)) :
    ∀ (l : List α) {s : State}, Keeps a s → Keeps a (l.foldl g s)
  | [], _, h => h
  | _ :: l, _, h => Keeps.foldl hg l (h.trans (hg _ _))

/-- The memories of a state and those of its troupes. -/
theorem memoriesWf_iff (s : State) : memoriesWf s = true ↔
    Memory.wf s.hbm = true ∧ Memory.wf s.scratch = true ∧ Memory.wf s.host = true ∧
      ∀ e ∈ s.troupes, Memory.wf e.2.board = true := by
  simp [memoriesWf, and_assoc]

/-- A change of neither memories, troupes, log nor queue. -/
theorem Keeps.aside {s t : State} (h1 : t.pending = s.pending) (h2 : t.hbm = s.hbm) (h3 : t.scratch = s.scratch)
    (h4 : t.host = s.host) (h5 : t.troupes = s.troupes) (h6 : t.log = s.log) : Keeps s t :=
  ⟨h1, fun x => ⟨by have := x.memories; simp only [memoriesWf] at *; rw [h2, h3, h4, h5]; exact this,
    by rw [h6]; exact x.inTick, by rw [h6]; exact x.kept⟩⟩

/-- A change of the troupes that leaves every board in its form. -/
theorem Keeps.boards {s t : State} (h1 : t.pending = s.pending) (h2 : t.hbm = s.hbm) (h3 : t.scratch = s.scratch)
    (h4 : t.host = s.host) (h6 : t.log = s.log)
    (h5 : (∀ e ∈ s.troupes, Memory.wf e.2.board = true) → ∀ e ∈ t.troupes, Memory.wf e.2.board = true) : Keeps s t :=
  ⟨h1, fun x => ⟨by
      have := (memoriesWf_iff s).1 x.memories
      exact (memoriesWf_iff t).2 ⟨h2 ▸ this.1, h3 ▸ this.2.1, h4 ▸ this.2.2.1, h5 this.2.2.2⟩,
    by rw [h6]; exact x.inTick, by rw [h6]; exact x.kept⟩⟩

theorem tabPut_forall {α : Type} {P : α → Prop} {t : Tab α} (k : Nat) {v : α} (hv : P v) (h : ∀ e ∈ t, P e.2) :
    ∀ e ∈ tabPut t k v, P e.2 := by
  induction t with
  | nil => intro e he; simp only [tabPut, List.mem_singleton] at he; subst he; exact hv
  | cons x r ih =>
    have hr : ∀ e ∈ r, P e.2 := fun e he => h e (List.mem_cons_of_mem _ he)
    intro e he
    simp only [tabPut] at he
    split at he
    · rcases List.mem_cons.1 he with rfl | he
      · exact hv
      · exact hr e he
    · split at he
      · rcases List.mem_cons.1 he with rfl | he
        · exact hv
        · exact h e he
      · rcases List.mem_cons.1 he with rfl | he
        · exact h _ (List.mem_cons_self ..)
        · exact ih hr e he

theorem tabGet_forall {α : Type} {P : α → Prop} {t : Tab α} {k : Nat} {v : α} (g : tabGet t k = some v)
    (h : ∀ e ∈ t, P e.2) : P v := by
  induction t with
  | nil => simp at g
  | cons x r ih =>
    simp only [tabGet] at g
    split at g
    · cases g; exact h _ (List.mem_cons_self ..)
    · exact ih g fun e he => h e (List.mem_cons_of_mem _ he)

theorem tabMod_forall {α : Type} {P : α → Prop} {t : Tab α} (k : Nat) {f : α → α} (hf : ∀ v, P v → P (f v))
    (h : ∀ e ∈ t, P e.2) : ∀ e ∈ tabMod t k f, P e.2 := by
  unfold tabMod
  split
  · exact h
  · rename_i v g; exact tabPut_forall k (hf v (tabGet_forall g h)) h

theorem tabMap_forall {α β : Type} {P : α → Prop} {Q : β → Prop} {t : Tab α} {g : Nat × α → Nat × β}
    (hg : ∀ e, P e.2 → Q (g e).2) (h : ∀ e ∈ t, P e.2) : ∀ e ∈ t.map g, Q e.2 := by
  intro e he
  obtain ⟨x, hx, rfl⟩ := List.mem_map.1 he
  exact hg x (h x hx)

/-! ### The primitive changes -/

theorem Keeps.pokeHbm {a s : State} (h : Keeps a s) (k : Nat) (bs : List Byte) : Keeps a (pokeHbm s k bs) :=
  h.trans ⟨rfl, fun x => ⟨by
    have := (memoriesWf_iff s).1 x.memories
    exact (memoriesWf_iff _).2 ⟨memWrite_wf bs k this.1, this.2⟩, x.inTick, x.kept⟩⟩

theorem Keeps.scratch {a s : State} (h : Keeps a s) (k : Nat) (bs : List Byte) :
    Keeps a { s with scratch := memWrite s.scratch k bs } :=
  h.trans ⟨rfl, fun x => ⟨by
    have := (memoriesWf_iff s).1 x.memories
    exact (memoriesWf_iff _).2 ⟨this.1, memWrite_wf bs k this.2.1, this.2.2⟩, x.inTick, x.kept⟩⟩

theorem Keeps.pokeHost {a s : State} (h : Keeps a s) (k : Nat) (bs : List Byte) : Keeps a (pokeHost s k bs) :=
  h.trans ⟨rfl, fun x => ⟨by
    have := (memoriesWf_iff s).1 x.memories
    exact (memoriesWf_iff _).2 ⟨this.1, this.2.1, memWrite_wf bs k this.2.2.1, this.2.2.2⟩, x.inTick, x.kept⟩⟩

theorem Keeps.modTroupeWf {a s : State} (h : Keeps a s) (t : Nat) (f : Troupe → Troupe)
    (hf : ∀ tr, Memory.wf tr.board = true → Memory.wf (f tr).board = true) : Keeps a (modTroupe s t f) :=
  h.trans (Keeps.boards rfl rfl rfl rfl rfl (tabMod_forall (P := fun tr : Troupe => Memory.wf tr.board = true) t hf))

theorem Keeps.modTroupe {a s : State} (h : Keeps a s) (t : Nat) (f : Troupe → Troupe)
    (hf : ∀ tr, (f tr).board = tr.board) : Keeps a (modTroupe s t f) :=
  h.modTroupeWf t f fun tr w => by rw [hf]; exact w

theorem Keeps.mapTroupes {a s : State} (h : Keeps a s) (g : Nat × Troupe → Nat × Troupe)
    (hg : ∀ e, (g e).2.board = e.2.board) : Keeps a { s with troupes := s.troupes.map g } :=
  h.trans (Keeps.boards rfl rfl rfl rfl rfl
    (tabMap_forall (P := fun tr : Troupe => Memory.wf tr.board = true) (Q := fun tr : Troupe => Memory.wf tr.board = true)
      fun e w => by rw [hg]; exact w))

theorem Keeps.setTroupe {a s : State} (h : Keeps a s) (t : Nat) (tr : Troupe) (w : Memory.wf tr.board = true) :
    Keeps a (setTroupe s t tr) :=
  h.trans (Keeps.boards rfl rfl rfl rfl rfl (tabPut_forall (P := fun tr : Troupe => Memory.wf tr.board = true) t w))

theorem Keeps.modHouse {a s : State} (h : Keeps a s) (f : House → House) : Keeps a (modHouse s f) :=
  h.trans (Keeps.aside rfl rfl rfl rfl rfl rfl)
theorem Keeps.modPort {a s : State} (h : Keeps a s) (p : Nat) (f : Port → Port) : Keeps a (modPort s p f) :=
  h.trans (Keeps.aside rfl rfl rfl rfl rfl rfl)
theorem Keeps.modSlice {a s : State} (h : Keeps a s) (r : Nat) (f : Slice → Slice) : Keeps a (modSlice s r f) :=
  h.trans (Keeps.aside rfl rfl rfl rfl rfl rfl)
theorem Keeps.house {a s : State} (h : Keeps a s) (x : House) : Keeps a { s with house := x } :=
  h.trans (Keeps.aside rfl rfl rfl rfl rfl rfl)
theorem Keeps.check {a s : State} (h : Keeps a s) (x : CheckWindow) : Keeps a { s with check := x } :=
  h.trans (Keeps.aside rfl rfl rfl rfl rfl rfl)
theorem Keeps.ports {a s : State} (h : Keeps a s) (x : Tab Port) : Keeps a { s with ports := x } :=
  h.trans (Keeps.aside rfl rfl rfl rfl rfl rfl)
theorem Keeps.slices {a s : State} (h : Keeps a s) (x : Tab Slice) : Keeps a { s with slices := x } :=
  h.trans (Keeps.aside rfl rfl rfl rfl rfl rfl)
theorem Keeps.deferred {a s : State} (h : Keeps a s) (x : List Deferred) : Keeps a { s with deferred := x } :=
  h.trans (Keeps.aside rfl rfl rfl rfl rfl rfl)

theorem Keeps.log {a s : State} (h : Keeps a s) (l : ErrorLog) (h1 : l.inTick ≤ s.log.inTick)
    (h2 : l.write = s.log.write) (h3 : l.read = s.log.read) : Keeps a { s with log := l } :=
  h.trans ⟨rfl, fun x => ⟨x.memories, Nat.le_trans h1 x.inTick, by
    have : errReadVal l = errReadVal s.log := by simp only [errReadVal, h2, h3]
    show (l.write - errReadVal l).toNat ≤ 256
    rw [this, h2]; exact x.kept⟩⟩

theorem getLsbD_pcWord (n i : Nat) : (pcWord n).getLsbD i =
    if i < 32 then (BitVec.ofNat 32 n).getLsbD i else (~~~ BitVec.ofNat 32 n).getLsbD (i - 32) :=
  (BitVec.getLsbD_append (x := ~~~ BitVec.ofNat 32 n) (y := BitVec.ofNat 32 n)).trans (by split <;> rfl)

theorem low_pcWord (n : Nat) : (pcWord n).extractLsb' 0 32 = BitVec.ofNat 32 n := by
  apply BitVec.eq_of_getLsbD_eq
  intro i hi
  rw [BitVec.getLsbD_extractLsb', getLsbD_pcWord]; simp [hi]

theorem high_pcWord (n : Nat) : (pcWord n).extractLsb' 32 32 = ~~~ BitVec.ofNat 32 n := by
  apply BitVec.eq_of_getLsbD_eq
  intro i hi
  rw [BitVec.getLsbD_extractLsb', getLsbD_pcWord, if_neg (by omega)]; simp [hi]

theorem pcVal_pcWord (n : Nat) : pcVal (pcWord n) = n % 2 ^ 32 := by
  rw [pcVal, low_pcWord, BitVec.toNat_ofNat]

theorem pcWhole_pcWord (n : Nat) : pcWhole (pcWord n) = true := by
  rw [pcWhole, low_pcWord, high_pcWord]; simp

/-- ERR_READ after a record: past the oldest record where the ring was full and the word is whole (R357). -/
theorem push_read (l : ErrorLog) (e : ErrRec) : (l.push e).read =
    if l.write - errReadVal l = 256 ∧ pcWhole l.read = true then pcWord (errReadVal l + 1).toNat else l.read := by
  simp only [ErrorLog.push, Bool.and_eq_true, beq_iff_eq]

/-- The ring of records never holds more than 256 (R357). -/
theorem kept_push (l : ErrorLog) (e : ErrRec) (h : (l.write - errReadVal l).toNat ≤ 256) :
    ((l.push e).write - errReadVal (l.push e)).toNat ≤ 256 := by
  have v : (l.push e).write = l.write + 1 := rfl
  have r := push_read l e
  by_cases c : pcWhole l.read = true
  · by_cases w : l.write - errReadVal l = 256
    · rw [if_pos ⟨w, c⟩] at r
      have : errReadVal (l.push e) = errReadVal l + 1 := by
        rw [errReadVal, r, pcWhole_pcWord, if_pos rfl, pcVal_pcWord]; bv_omega
      rw [this, v]
      have : l.write + 1 - (errReadVal l + 1) = l.write - errReadVal l := by bv_omega
      rw [this]; exact h
    · rw [if_neg (fun x => w x.1)] at r
      have : errReadVal (l.push e) = errReadVal l := by simp only [errReadVal, r, if_pos c]
      rw [this, v]
      bv_omega
  · rw [if_neg (fun x => c x.2)] at r
    have : errReadVal (l.push e) = l.write + 1 - 256 := by rw [errReadVal, r, if_neg c, v]
    rw [this, v]
    have : l.write + 1 - (l.write + 1 - 256) = 256 := by bv_omega
    rw [this]; decide

theorem Keeps.push {a s : State} (h : Keeps a s) (e : ErrRec) (g : s.log.inTick < 256) :
    Keeps a { s with log := s.log.push e } :=
  h.trans ⟨rfl, fun x => ⟨x.memories, g, kept_push _ _ x.kept⟩⟩

end Sys2Proof.Machine
end

