-- ==== Sys2Proof/Laws/KeepsOps.lean ====
section
/-! SUPPORT. Service, frames that arrive, Lines and their queues keep the queue of commands and soundness. -/

namespace Sys2Proof.Machine

open Sys2Proof

/-! ### Ops -/

theorem Keeps.poke {z s : State} (h : Keeps z s) (host : Bool) (a : Nat) (bs : List Byte) :
    Keeps z (Sys2Proof.Machine.poke host s a bs) := by
  unfold Sys2Proof.Machine.poke
  simp (maxDischargeDepth := 40) only [h, Keeps.ite, Keeps.pokeHbm, Keeps.pokeHost]

theorem board_foldl {α : Type} {g : Troupe → α → Troupe} (hg : ∀ tr x, (g tr x).board = tr.board) :
    ∀ (l : List α) (tr : Troupe), (l.foldl g tr).board = tr.board
  | [], _ => rfl
  | x :: l, tr => (board_foldl hg l (g tr x)).trans (hg tr x)

theorem board_modStep (tr : Troupe) (n : Nat) (f : StepRec → StepRec) : (modStep tr n f).board = tr.board := by
  unfold modStep; rfl

theorem board_modLast (tr : Troupe) (f : StepRec → StepRec) : (modLast tr f).board = tr.board := by
  first
    | rfl
    | unfold modLast; (repeat' split) <;> simp [board_modStep]

theorem Keeps.gauge {z s : State} (h : Keeps z s) (t off n : Nat) :
    Keeps z (Sys2Proof.Machine.gauge s t off n) := by
  unfold Sys2Proof.Machine.gauge
  simp (maxDischargeDepth := 40) only [h, implies_true, Keeps.modTroupe]

theorem Keeps.houseGauge {z s : State} (h : Keeps z s) (off n : Nat) :
    Keeps z (Sys2Proof.Machine.houseGauge s off n) := by
  unfold Sys2Proof.Machine.houseGauge
  simp (maxDischargeDepth := 40) only [h, Keeps.modHouse]

theorem Keeps.portGauge {z s : State} (h : Keeps z s) (p k n : Nat) :
    Keeps z (Sys2Proof.Machine.portGauge s p k n) := by
  unfold Sys2Proof.Machine.portGauge
  simp (maxDischargeDepth := 40) only [h, Keeps.houseGauge]

theorem Keeps.troupePortGauge {z s : State} (h : Keeps z s) (t p off n : Nat) :
    Keeps z (Sys2Proof.Machine.troupePortGauge s t p off n) := by
  unfold Sys2Proof.Machine.troupePortGauge
  simp (maxDischargeDepth := 40) only [h, Keeps.gauge]

theorem Keeps.suppress {z s : State} (h : Keeps z s) : Keeps z (Sys2Proof.Machine.suppress s) :=
  h.log _ (Nat.le_refl _) rfl rfl

theorem Keeps.copyRecord {z s : State} (h : Keeps z s) (r : Rec) (e : ErrRec) :
    Keeps z (Sys2Proof.Machine.copyRecord r e s) := by
  unfold Sys2Proof.Machine.copyRecord
  split
  · exact h
  · exact h.modTroupe _ _ fun _ => rfl

theorem Keeps.writeRecord {z s : State} (h : Keeps z s) (r : Rec) : Keeps z (Sys2Proof.Machine.writeRecord r s) := by
  unfold Sys2Proof.Machine.writeRecord
  split
  · rename_i g; exact (h.push _ (by simpa [logOpen] using g)).copyRecord _ _
  · exact h.suppress

theorem Keeps.ledgerStore {z s : State} (h : Keeps z s) (t num : Nat) :
    Keeps z (Sys2Proof.Machine.ledgerStore t num s) := by
  unfold Sys2Proof.Machine.ledgerStore
  dsimp only
  repeat' split
  all_goals first
    | exact h
    | simp (maxDischargeDepth := 40) only [h, Keeps.poke]

theorem Keeps.countCause {z s : State} (h : Keeps z s) (row : Option Nat) (fresh : Bool) (t : Nat) :
    Keeps z (Sys2Proof.Machine.countCause row fresh t s) := by
  unfold Sys2Proof.Machine.countCause
  try dsimp only
  repeat' split
  all_goals first
    | exact h
    | simp (maxDischargeDepth := 40) only [h, Keeps.gauge]

theorem board_Troupe.fall (row : Option Nat) (fresh opened : Bool) (s : State) (tr : Troupe) :
    (Troupe.fall row fresh opened s tr).board = tr.board := by
  first
    | rfl
    | unfold Troupe.fall; (repeat' split) <;> simp [board_modLast]

theorem Keeps.curtain {z s : State} (h : Keeps z s) (row : Option Nat) (t : Nat) :
    Keeps z (Sys2Proof.Machine.curtain row t s) := by
  unfold Sys2Proof.Machine.curtain
  try dsimp only
  repeat' split
  all_goals first
    | exact h
    | simp (maxDischargeDepth := 40) only [h, implies_true, Keeps.countCause,
      Keeps.ledgerStore, Keeps.modTroupe, board_Troupe.fall]

theorem Keeps.boardWrite {z s : State} (h : Keeps z s) (t slot off : Nat) (bs : List Byte) :
    Keeps z (Sys2Proof.Machine.boardWrite s t slot off bs) :=
  h.modTroupeWf _ _ fun _ w => memWrite_wf bs _ w

theorem Keeps.completeSlot {z s : State} (h : Keeps z s) (i k : Nat) (st : Status) (res : List (Nat × List Byte)) :
    Keeps z (Sys2Proof.Machine.completeSlot i k st res s).1 := by
  unfold Sys2Proof.Machine.completeSlot
  split
  · exact h
  · have f : Keeps z (res.foldl (fun s e => Sys2Proof.Machine.boardWrite s i k (192 + e.1) e.2) s) :=
      Keeps.foldl (fun s e => (Keeps.refl s).boardWrite ..) res h
    exact Keeps.deferred (Keeps.modTroupe (f.boardWrite _ _ _ _) _ _ (by intro; rfl)) _

theorem Keeps.cueAdd {z s : State} (h : Keeps z s) (t c n : Nat) : Keeps z (Sys2Proof.Machine.cueAdd t c n s).1 := by
  unfold Sys2Proof.Machine.cueAdd
  split
  · exact h
  · split
    · exact h
    · exact h.modTroupe _ _ fun _ => rfl

theorem Keeps.fenceTroupe {z s : State} (h : Keeps z s) (t : Nat) (st : Status) (ix : BitVec 32) (row : Option Nat) :
    Keeps z (Sys2Proof.Machine.fenceTroupe t st ix row s).1 := by
  unfold Sys2Proof.Machine.fenceTroupe
  split <;> first | exact (h.curtain _ _).modTroupe _ _ fun _ => rfl | exact h

theorem Keeps.act {z s : State} (h : Keeps z s) (x : Act) : Keeps z (Sys2Proof.Machine.act x s).1 := by
  cases x with
  | complete i k st res => exact h.completeSlot ..
  | store k bs => exact h.pokeHbm ..
  | signal t c => exact h.cueAdd ..
  | record r => exact h.writeRecord ..
  | fault r row => exact h.writeRecord ..
  | fence t st ix row => exact h.fenceTroupe ..

theorem Keeps.runActs {z : State} : ∀ (n : Nat) (xs : List Act) {s : State}, Keeps z s →
    Keeps z (Sys2Proof.Machine.runActs n xs s)
  | 0, _, _, h => h
  | _ + 1, [], _, h => h
  | n + 1, x :: _, _, h => Keeps.runActs n _ (h.act x)

theorem Keeps.run {z s : State} (h : Keeps z s) (as : List Act) :
    Keeps z (Sys2Proof.Machine.run as s) := by
  unfold Sys2Proof.Machine.run
  simp (maxDischargeDepth := 40) only [h, Keeps.runActs]

theorem Keeps.record {z s : State} (h : Keeps z s) (r : Rec) :
    Keeps z (Sys2Proof.Machine.record r s) := by
  unfold Sys2Proof.Machine.record
  simp (maxDischargeDepth := 40) only [h, Keeps.run]

theorem Keeps.fault {z s : State} (h : Keeps z s) (r : Rec) (row : Option Nat) :
    Keeps z (Sys2Proof.Machine.fault r row s) := by
  unfold Sys2Proof.Machine.fault
  simp (maxDischargeDepth := 40) only [h, Keeps.run]

theorem Keeps.signal {z s : State} (h : Keeps z s) (t c : Nat) :
    Keeps z (Sys2Proof.Machine.signal t c s) := by
  unfold Sys2Proof.Machine.signal
  simp (maxDischargeDepth := 40) only [h, Keeps.run]

theorem Keeps.signalField {z s : State} (h : Keeps z s) (t : Nat) (w : BitVec 16) :
    Keeps z (Sys2Proof.Machine.signalField t w s) := by
  unfold Sys2Proof.Machine.signalField
  simp (maxDischargeDepth := 40) only [h, Keeps.ite, Keeps.signal]

theorem Keeps.completeDeferred {z s : State} (h : Keeps z s) (t : Nat) (which : Awaits → Bool) (st : Status)
    (res : List (Nat × List Byte)) : Keeps z (Sys2Proof.Machine.completeDeferred t which st res s) := h.run _

theorem board_accountPaused (d : Nat) (s : State) (tr : Troupe) : (accountPaused d s tr).board = tr.board := by
  first
    | rfl
    | unfold accountPaused; (repeat' split) <;> simp []

theorem Keeps.passCk {z s : State} (h : Keeps z s) (d : Nat) : Keeps z (Sys2Proof.Machine.passCk d s) := by
  refine h.trans ?_
  unfold Sys2Proof.Machine.passCk
  split
  · exact Keeps.refl s
  · dsimp only
    generalize e : List.foldl _ s _ = p
    have k : Keeps s p := by
      rw [← e]; exact Keeps.foldl (fun s e => (Keeps.refl s).portGauge ..) _ (Keeps.refl s)
    refine ⟨k.pending, fun x => ?_⟩
    have y := k.sound x
    refine ⟨?_, y.inTick, y.kept⟩
    have m := (memoriesWf_iff _).1 y.memories
    refine (memoriesWf_iff _).2 ⟨m.1, m.2.1, m.2.2.1, ?_⟩
    have b := ((memoriesWf_iff s).1 x.memories).2.2.2
    dsimp only
    split
    · exact b
    · exact tabMap_forall (P := fun tr : Troupe => Memory.wf tr.board = true)
        (Q := fun tr : Troupe => Memory.wf tr.board = true) (fun e w => w) b

/-! ### Operands -/

theorem Keeps.begun {z s : State} (h : Keeps z s) (p : Post) :
    Keeps z (Sys2Proof.Machine.begun p s) := by
  unfold Sys2Proof.Machine.begun
  simp (maxDischargeDepth := 40) only [h, Keeps.gauge, Keeps.modHouse, Keeps.passCk]

theorem Keeps.markServed {z s : State} (h : Keeps z s) (p : Post) : Keeps z (Sys2Proof.Machine.markServed p s) :=
  h.modTroupeWf _ _ fun _ w => memWrite_wf _ _ w

theorem Keeps.completed {z s : State} (h : Keeps z s) (p : Post) (st : Status) (results : List (Nat × List Byte)) (before after : List Act) :
    Keeps z (Sys2Proof.Machine.completed p st results before after s) := by
  unfold Sys2Proof.Machine.completed
  simp (maxDischargeDepth := 40) only [h, Keeps.markServed, Keeps.run]

theorem Keeps.refusedWith {z s : State} (h : Keeps z s) (p : Post) (st : Status) :
    Keeps z (Sys2Proof.Machine.refusedWith p st s) := by
  unfold Sys2Proof.Machine.refusedWith
  simp (maxDischargeDepth := 40) only [h, Keeps.gauge, Keeps.markServed, Keeps.run]

theorem Keeps.heldBack {z s : State} (h : Keeps z s) (p : Post) (target : Nat) (q : Posted) (aw : Awaits)
    (before : List Act) : Keeps z (Sys2Proof.Machine.heldBack p target q aw before s) :=
  Keeps.run (((h.markServed p).boardWrite _ _ _ _).deferred _) _

/-- The state that a verdict leaves keeps the queue and soundness of the state it was reached from. -/

def Verdict.kept (s : State) : Verdict → Prop
  | .refuse _ => True
  | .finish _ t _ _ _ => Keeps s t
  | .defer t _ _ => Keeps s t

theorem Verdict.kept_need {s : State} {c : Bool} {st : Status} {v : Verdict} (h : v.kept s) : (need c st v).kept s := by
  cases c
  · trivial
  · exact h

theorem Keeps.answer {z s : State} (h : Keeps z s) (p : Post) (target : Nat) (q : Posted) {v : Verdict} (k : v.kept s) :
    Keeps z (Sys2Proof.Machine.answer p target q v s) := by
  cases v with
  | refuse st => exact h.refusedWith p st
  | finish st t res before after => exact (h.trans k).completed p st res before after
  | defer t aw before => exact (h.trans k).heldBack p target q aw before

/-- Service keeps what the command's own effect keeps. -/

theorem Keeps.serve {z s : State} (h : Keeps z s) (p : Post) (i : Instr) {c : Cmd}
    (k : ∀ t, (c.body p.issuer p.slot t (Machine.begun p s)).kept (Machine.begun p s)) :
    Keeps z (Sys2Proof.Machine.serve p i c s) := by
  have j : ∀ image, (judge p i c image (Machine.begun p s)).kept (Machine.begun p s) := by
    intro image
    unfold judge
    dsimp only
    repeat' split
    all_goals first | trivial | exact k _
  unfold Sys2Proof.Machine.serve
  dsimp only
  split
  · exact h.passCk _
  · split
    · exact Keeps.answer ((h.begun p).record _) _ _ _ trivial
    · split
      · exact Keeps.answer (h.begun p) _ _ _ trivial
      · split
        · exact h.passCk _
        · exact Keeps.answer (h.begun p) _ _ _ (j _)

/-! ### Queues -/

theorem Keeps.launched {z s : State} (h : Keeps z s) (t : Nat) (f : OutFrame) :
    Keeps z (Sys2Proof.Machine.launched t f s) := by
  unfold Sys2Proof.Machine.launched
  simp (maxDischargeDepth := 40) only [h, implies_true, Keeps.modTroupe]

theorem Keeps.loseSheet {z s : State} (h : Keeps z s) (port : Nat) :
    Keeps z (Sys2Proof.Machine.loseSheet port s) := by
  unfold Sys2Proof.Machine.loseSheet
  simp (maxDischargeDepth := 40) only [h, Keeps.refl, implies_true, Keeps.foldl, Keeps.launched]

theorem Keeps.dropQueues {z s : State} (h : Keeps z s) (port k : Nat) :
    Keeps z (Sys2Proof.Machine.dropQueues port k s) :=
  Keeps.ports (Keeps.modPort (Keeps.loseSheet (h.portGauge _ _ _) _) _ _) _

theorem Keeps.pausePartner {z s : State} (h : Keeps z s) (port prio : Nat) :
    Keeps z (Sys2Proof.Machine.pausePartner port prio s) := by
  unfold Sys2Proof.Machine.pausePartner
  try dsimp only
  repeat' split
  all_goals first
    | exact h
    | simp (maxDischargeDepth := 40) only [h, Keeps.modPort]

theorem Keeps.releasePartner {z s : State} (h : Keeps z s) (before : Nat) (port prio : Nat) :
    Keeps z (Sys2Proof.Machine.releasePartner before port prio s) := by
  unfold Sys2Proof.Machine.releasePartner
  try dsimp only
  repeat' split
  all_goals first
    | exact h
    | simp (maxDischargeDepth := 40) only [h, Keeps.modPort]

theorem Keeps.bufferFrame {z s : State} (h : Keeps z s) (arrival : Nat)
    (r : Nat × List Byte × Nat × Nat × BitVec 16) :
    Keeps z (Sys2Proof.Machine.bufferFrame arrival r s) := by
  unfold Sys2Proof.Machine.bufferFrame
  dsimp only
  repeat' split
  all_goals first
    | exact h
    | simp (maxDischargeDepth := 40) only [h, Keeps.modPort,
      Keeps.pausePartner, Keeps.portGauge]

theorem Keeps.unbuffer {z s : State} (h : Keeps z s) (arrival : Nat) (r : Nat × List Byte × Nat × Nat × BitVec 16) :
    Keeps z (Sys2Proof.Machine.unbuffer arrival r s) := by
  unfold Sys2Proof.Machine.unbuffer
  dsimp only
  repeat' split
  all_goals first
    | exact h
    | simp (maxDischargeDepth := 40) only [h, Keeps.modPort,
      Keeps.releasePartner]

theorem Keeps.declineDim {z s : State} (h : Keeps z s) (port : Nat) :
    Keeps z (Sys2Proof.Machine.declineDim port s) := by
  unfold Sys2Proof.Machine.declineDim
  repeat' split
  all_goals first
    | exact h
    | simp (maxDischargeDepth := 40) only [h, Keeps.modPort]

/-! ### Admission -/

theorem Keeps.chargeShaper {z s : State} (h : Keeps z s) (t port bytes : Nat) :
    Keeps z (Sys2Proof.Machine.chargeShaper t port bytes s) := by
  unfold Sys2Proof.Machine.chargeShaper
  simp (maxDischargeDepth := 40) only [h, implies_true, Keeps.modTroupe, Keeps.troupePortGauge]

/-! ### House -/

theorem Keeps.modUnit {z s : State} (h : Keeps z s) (u : Nat) (f : UnitRec → UnitRec) :
    Keeps z (Sys2Proof.Machine.modUnit s u f) := by
  unfold Sys2Proof.Machine.modUnit
  simp (maxDischargeDepth := 40) only [h, Keeps.modHouse]

theorem Keeps.curtainAll {z s : State} (h : Keeps z s) (row : Nat) (which : Troupe → Bool) :
    Keeps z (Sys2Proof.Machine.curtainAll row which s) := by
  unfold Sys2Proof.Machine.curtainAll
  simp (maxDischargeDepth := 40) only [h, Keeps.refl, implies_true, Keeps.foldl, Keeps.curtain]

theorem board_abandonPit (s : State) (u : Nat) (tr : Troupe) : (abandonPit s u tr).board = tr.board := by
  first
    | rfl
    | unfold abandonPit; (repeat' split) <;> simp []

/-! ### Wire -/

theorem Keeps.dropAtOne {z s : State} (h : Keeps z s) (port k : Nat) :
    Keeps z (Sys2Proof.Machine.dropAtOne port k s) := by
  unfold Sys2Proof.Machine.dropAtOne
  simp (maxDischargeDepth := 40) only [h, Keeps.ite, Keeps.modPort, Keeps.portGauge, Keeps.record]

theorem Keeps.dropMalformed {z s : State} (h : Keeps z s) (port check : Nat) (f : List Byte) :
    Keeps z (Sys2Proof.Machine.dropMalformed port check f s) := by
  unfold Sys2Proof.Machine.dropMalformed
  simp (maxDischargeDepth := 40) only [h, Keeps.ite, Keeps.log, le_refl, Keeps.portGauge, Keeps.record,
    Keeps.suppress]

theorem Keeps.received {z s : State} (h : Keeps z s) (port : Nat) (k : Checked) :
    Keeps z (Sys2Proof.Machine.received port k s) := by
  unfold Sys2Proof.Machine.received
  simp (maxDischargeDepth := 40) only [h, Keeps.ite, Keeps.modPort, Keeps.portGauge]

theorem Keeps.arrived {z s : State} (h : Keeps z s) (kind : Kind) (port : Nat) (f : List Byte) {k : State → State}
    (hk : ∀ s, Keeps s (k s)) : Keeps z (Sys2Proof.Machine.arrived kind port f k s) := by
  unfold Sys2Proof.Machine.arrived
  dsimp only
  have g := fun c => h.received port c
  repeat' split
  all_goals first
    | exact h
    | exact (g _).trans (hk _)
    | exact (g _).dropAtOne _ _
    | exact (g _).portGauge _ _ _
    | exact (g _).dropMalformed _ _ _

theorem Keeps.arrive {z s : State} (h : Keeps z s) (kind : Kind) (dt port : Nat) (f : List Byte) {k : State → State}
    (hk : ∀ s, Keeps s (k s)) : Keeps z (Sys2Proof.Machine.arrive kind dt port f k s) :=
  (h.passCk dt).arrived kind port f hk

theorem Keeps.arriveOpen {z s : State} (h : Keeps z s) (kind : Kind) (c : Bool) (dt port : Nat) (f : List Byte)
    {k : State → State} (hk : ∀ s, Keeps s (k s)) : Keeps z (Sys2Proof.Machine.arriveOpen kind c dt port f k s) := by
  refine h.arrive kind dt port f fun s => ?_
  repeat' split
  all_goals first
    | exact Keeps.refl s
    | exact (Keeps.refl s).portGauge _ _ _
    | exact hk s

/-! ### LineOps -/

theorem Keeps.modLine {z s : State} (h : Keeps z s) (t l : Nat) (f : Line → Line) :
    Keeps z (Sys2Proof.Machine.modLine s t l f) := by
  unfold Sys2Proof.Machine.modLine
  simp (maxDischargeDepth := 40) only [h, implies_true, Keeps.modTroupe]

theorem Keeps.modPeer {z s : State} (h : Keeps z s) (t l i : Nat) (f : Peer → Peer) :
    Keeps z (Sys2Proof.Machine.modPeer s t l i f) := by
  unfold Sys2Proof.Machine.modPeer
  simp (maxDischargeDepth := 40) only [h, Keeps.modLine]

theorem Keeps.brokenRoute {z s : State} (h : Keeps z s) (r : Nat) (bank : Bool) (key port : Nat) :
    Keeps z (Sys2Proof.Machine.brokenRoute r bank key port s) := by
  unfold Sys2Proof.Machine.brokenRoute
  simp (maxDischargeDepth := 40) only [h, Keeps.ite, Keeps.modSlice, Keeps.portGauge, Keeps.record]

theorem Keeps.sendControl {z s : State} (h : Keeps z s) (t cls : Nat) (dst : BlockAddr) (frame : List Byte) :
    Keeps z (Sys2Proof.Machine.sendControl t cls dst frame s) := by
  unfold Sys2Proof.Machine.sendControl
  repeat' split
  all_goals first
    | exact h
    | simp (maxDischargeDepth := 40) only [h, Keeps.brokenRoute,
      Keeps.modPort, Keeps.portGauge]

theorem Keeps.sendLink {z s : State} (h : Keeps z s) (port type byte2 : Nat) (fields : List (Nat × Nat × Nat)) :
    Keeps z (Sys2Proof.Machine.sendLink port type byte2 fields s) := by
  unfold Sys2Proof.Machine.sendLink
  simp (maxDischargeDepth := 40) only [h, Keeps.modPort]

theorem Keeps.sendAck {z s : State} (h : Keeps z s) (t l i : Nat) :
    Keeps z (Sys2Proof.Machine.sendAck t l i s) := by
  unfold Sys2Proof.Machine.sendAck
  repeat' split
  all_goals first
    | exact h
    | simp (maxDischargeDepth := 40) only [h, Keeps.modPeer,
      Keeps.sendControl]

theorem Keeps.sendNak {z s : State} (h : Keeps z s) (t l : Nat) (dst : BlockAddr) (epoch : BitVec 16) (first : BitVec 32) (reason : Nat) (echo : Nat × Nat × Bool) :
    Keeps z (Sys2Proof.Machine.sendNak t l dst epoch first reason echo s) := by
  unfold Sys2Proof.Machine.sendNak
  simp (maxDischargeDepth := 40) only [h, Keeps.sendControl]

theorem Keeps.sendKnock {z s : State} (h : Keeps z s) (t l i stage : Nat) :
    Keeps z (Sys2Proof.Machine.sendKnock t l i stage s) := by
  unfold Sys2Proof.Machine.sendKnock
  repeat' split
  all_goals first
    | exact h
    | simp (maxDischargeDepth := 40) only [h, Keeps.modPeer,
      Keeps.sendControl]

theorem Keeps.knockAll {z s : State} (h : Keeps z s) (t l : Nat) :
    Keeps z (Sys2Proof.Machine.knockAll t l s) := by
  unfold Sys2Proof.Machine.knockAll
  simp (maxDischargeDepth := 40) only [h, Keeps.refl, implies_true, Keeps.foldl, Keeps.sendKnock]

theorem Keeps.finalAcks {z s : State} (h : Keeps z s) (t l : Nat) :
    Keeps z (Sys2Proof.Machine.finalAcks t l s) := by
  unfold Sys2Proof.Machine.finalAcks
  simp (maxDischargeDepth := 40) only [h, Keeps.refl, implies_true, Keeps.foldl, Keeps.modPeer, Keeps.sendAck]

theorem Keeps.sendFinal {z s : State} (h : Keeps z s) (t l i : Nat) :
    Keeps z (Sys2Proof.Machine.sendFinal t l i s) := by
  unfold Sys2Proof.Machine.sendFinal
  repeat' split
  all_goals first
    | exact h
    | simp (maxDischargeDepth := 40) only [h, Keeps.sendControl]

theorem Keeps.sendAnswer {z s : State} (h : Keeps z s) (t l : Nat) (dst : BlockAddr) (epoch knock : BitVec 16) (st : Status) (retry : Nat) :
    Keeps z (Sys2Proof.Machine.sendAnswer t l dst epoch knock st retry s) := by
  unfold Sys2Proof.Machine.sendAnswer
  simp (maxDischargeDepth := 40) only [h, Keeps.sendControl]

theorem Keeps.ringEnd {z s : State} (h : Keeps z s) (t ring : Nat) :
    Keeps z (Sys2Proof.Machine.ringEnd t ring s) := by
  unfold Sys2Proof.Machine.ringEnd
  simp (maxDischargeDepth := 40) only [h, implies_true, Keeps.modTroupe]

theorem Keeps.endOp {z s : State} (h : Keeps z s) (t : Nat) (epoch : BitVec 16) (op : LineOp) (st : Status) :
    Keeps z (Sys2Proof.Machine.endOp t epoch op st s) := by
  unfold Sys2Proof.Machine.endOp
  simp (maxDischargeDepth := 40) only [h, Keeps.pokeHbm, Keeps.ringEnd, Keeps.signalField]

theorem Keeps.endOps {z s : State} (h : Keeps z s) (t : Nat) (epoch : BitVec 16) (ops : List LineOp) (st : Status) :
    Keeps z (Sys2Proof.Machine.endOps t epoch ops st s) := by
  unfold Sys2Proof.Machine.endOps
  simp (maxDischargeDepth := 40) only [h, Keeps.refl, implies_true, Keeps.foldl, Keeps.endOp]

theorem Keeps.completeOps {z s : State} (h : Keeps z s) (t l : Nat) :
    Keeps z (Sys2Proof.Machine.completeOps t l s) := by
  unfold Sys2Proof.Machine.completeOps
  dsimp only
  repeat' split
  all_goals first
    | exact h
    | simp (maxDischargeDepth := 40) only [h, Keeps.refl, implies_true, Keeps.completeDeferred, Keeps.endOp, Keeps.foldl, Keeps.modLine]

theorem Keeps.withdraw {z s : State} (h : Keeps z s) (t l : Nat) (keep : OutFrame → Bool) :
    Keeps z (Sys2Proof.Machine.withdraw t l keep s) := by
  unfold Sys2Proof.Machine.withdraw
  simp (maxDischargeDepth := 40) only [h, implies_true, Keeps.modTroupe]

theorem Keeps.enterFrames {z : State} (t l : Nat) : ∀ (fs : List OutFrame) {s : State}, Keeps z s →
    Keeps z (Sys2Proof.Machine.enterFrames t l fs s)
  | [], _, h => h
  | f :: r, s, h => by
    unfold Sys2Proof.Machine.enterFrames
    dsimp only
    split
    · exact h
    · split
      · exact h
      · exact Keeps.enterFrames t l r (Keeps.modLine (h.modTroupe _ _ (by intro; rfl)) _ _ _)

theorem Keeps.enterLine {z s : State} (h : Keeps z s) (t l : Nat) :
    Keeps z (Sys2Proof.Machine.enterLine t l s) := by
  unfold Sys2Proof.Machine.enterLine
  simp (maxDischargeDepth := 40) only [h, Keeps.ite, Keeps.enterFrames]

theorem Keeps.enterAll {z s : State} (h : Keeps z s) (t : Nat) :
    Keeps z (Sys2Proof.Machine.enterAll t s) := by
  unfold Sys2Proof.Machine.enterAll
  simp (maxDischargeDepth := 40) only [h, Keeps.refl, implies_true, Keeps.foldl, Keeps.enterLine]

theorem Keeps.faultLine {z s : State} (h : Keeps z s) (t l : Nat) (r : Rec) :
    Keeps z (Sys2Proof.Machine.faultLine t l r s) := by
  unfold Sys2Proof.Machine.faultLine
  simp (maxDischargeDepth := 40) only [h, Keeps.ite, Keeps.curtain, Keeps.endOps, Keeps.gauge, Keeps.modLine,
    Keeps.record, Keeps.withdraw]

theorem Keeps.checkLine {z s : State} (h : Keeps z s) (t l : Nat) :
    Keeps z (Sys2Proof.Machine.checkLine t l s) := by
  unfold Sys2Proof.Machine.checkLine
  simp (maxDischargeDepth := 40) only [h, Keeps.ite, Keeps.faultLine]

theorem Keeps.useLine {z s : State} (h : Keeps z s) (t l : Nat) {f : State → State} (hf : ∀ s, Keeps s (f s)) :
    Keeps z (Sys2Proof.Machine.useLine t l f s) := by
  unfold Sys2Proof.Machine.useLine
  split
  · exact h.checkLine _ _
  · exact h.trans (hf s)

theorem Keeps.leaveEpoch {z s : State} (h : Keeps z s) (t l : Nat) :
    Keeps z (Sys2Proof.Machine.leaveEpoch t l s) := by
  unfold Sys2Proof.Machine.leaveEpoch
  simp (maxDischargeDepth := 40) only [h, Keeps.refl, Keeps.ite, implies_true, Keeps.foldl, Keeps.endOp, Keeps.gauge,
    Keeps.modLine, Keeps.withdraw]

theorem Keeps.openEpoch {z s : State} (h : Keeps z s) (t l : Nat) (epoch : BitVec 16) :
    Keeps z (Sys2Proof.Machine.openEpoch t l epoch s) := by
  unfold Sys2Proof.Machine.openEpoch
  simp (maxDischargeDepth := 40) only [h, Keeps.completeOps,
      Keeps.enterLine, Keeps.leaveEpoch, Keeps.modLine]

theorem Keeps.resetCurtain {z s : State} (h : Keeps z s) (t l : Nat) :
    Keeps z (Sys2Proof.Machine.resetCurtain t l s) := by
  unfold Sys2Proof.Machine.resetCurtain
  simp (maxDischargeDepth := 40) only [h, Keeps.ite, Keeps.curtain]

theorem Keeps.askEpoch {z s : State} (h : Keeps z s) (t l : Nat) (epoch : BitVec 16) :
    Keeps z (Sys2Proof.Machine.askEpoch t l epoch s) := by
  unfold Sys2Proof.Machine.askEpoch
  simp (maxDischargeDepth := 40) only [h, Keeps.knockAll,
      Keeps.modLine, Keeps.withdraw]

theorem Keeps.beginReset {z s : State} (h : Keeps z s) (t l : Nat) :
    Keeps z (Sys2Proof.Machine.beginReset t l s) := by
  unfold Sys2Proof.Machine.beginReset
  simp (maxDischargeDepth := 40) only [h, Keeps.ite, Keeps.askEpoch,
      Keeps.finalAcks, Keeps.resetCurtain]

theorem Keeps.closeLine {z s : State} (h : Keeps z s) (t l : Nat) (st : Status) :
    Keeps z (Sys2Proof.Machine.closeLine t l st s) := by
  unfold Sys2Proof.Machine.closeLine
  simp (maxDischargeDepth := 40) only [h, Keeps.endOps, Keeps.modLine, Keeps.withdraw]

theorem board_mirrorAcked (s : State) (tr : Troupe) (f : OutFrame) : (mirrorAcked s tr f).board = tr.board := by
  first
    | rfl
    | unfold mirrorAcked; (repeat' split) <;> simp [board_modStep]

theorem Keeps.ackBefore {z s : State} (h : Keeps z s) (t l i : Nat) (seq : BitVec 32) :
    Keeps z (Sys2Proof.Machine.ackBefore t l i seq s).1 := by
  unfold Sys2Proof.Machine.ackBefore
  split
  · exact h
  · dsimp only
    split
    · exact h
    · refine Keeps.modPeer (Keeps.modTroupe (h.modLine _ _ _) _ _ fun tr => ?_) _ _ _ _
      exact board_foldl (fun tr e => board_mirrorAcked ..) _ _

theorem Keeps.fenceDone {z s : State} (h : Keeps z s) (t l : Nat) :
    Keeps z (Sys2Proof.Machine.fenceDone t l s) := by
  unfold Sys2Proof.Machine.fenceDone
  simp (maxDischargeDepth := 40) only [h, Keeps.ite, Keeps.completeDeferred]

theorem Keeps.sampleRtt {z s : State} (h : Keeps z s) (t l i r acked : Nat) :
    Keeps z (Sys2Proof.Machine.sampleRtt t l i r acked s) := by
  unfold Sys2Proof.Machine.sampleRtt
  simp (maxDischargeDepth := 40) only [h, Keeps.modPeer]

theorem Keeps.goBackFrom {z s : State} (h : Keeps z s) (t l i : Nat) (seq : BitVec 32) :
    Keeps z (Sys2Proof.Machine.goBackFrom t l i seq s) := by
  unfold Sys2Proof.Machine.goBackFrom
  simp (maxDischargeDepth := 40) only [h, Keeps.gauge, Keeps.modPeer]

theorem Keeps.dropLines {z s : State} (h : Keeps z s) (t : Nat) :
    Keeps z (Sys2Proof.Machine.dropLines t s) := by
  unfold Sys2Proof.Machine.dropLines
  simp (maxDischargeDepth := 40) only [h, implies_true, Keeps.modTroupe]

/-! ### Bill -/

theorem board_setEntry (tr : Troupe) (e : Entry) : (setEntry tr e).board = tr.board := by
  first
    | rfl
    | unfold setEntry; (repeat' split) <;> simp []

theorem board_dropTensor (tr : Troupe) (tensor : Nat) : (dropTensor tr tensor).board = tr.board := by
  first
    | rfl
    | unfold dropTensor; (repeat' split) <;> simp []

theorem Keeps.useEntry {z s : State} (h : Keeps z s) (finder : Subsystem) (t tensor : Nat) :
    Keeps z (Sys2Proof.Machine.useEntry finder t tensor s) := by
  unfold Sys2Proof.Machine.useEntry
  dsimp only
  repeat' split
  all_goals first
    | exact h
    | simp (maxDischargeDepth := 40) only [h, implies_true, Keeps.curtain,
      Keeps.modTroupe, Keeps.record]

theorem board_sealed (tr : Troupe) : (sealed tr).board = tr.board := by
  first
    | rfl
    | unfold sealed; (repeat' split) <;> simp []

/-! ### Train -/

theorem Keeps.queueOn {z s : State} (h : Keeps z s) (cls t l peer : Nat) (charge : Option Charge)
    (step : Option Nat) (cars : List Car) :
    Keeps z (Sys2Proof.Machine.queueOn cls t l peer charge step cars s) := by
  unfold Sys2Proof.Machine.queueOn
  try dsimp only
  repeat' split
  all_goals first
    | exact h
    | simp (maxDischargeDepth := 40) only [h, implies_true, Keeps.enterLine,
      Keeps.modLine, Keeps.modTroupe]

theorem Keeps.queueCars {z s : State} (h : Keeps z s) (t l peer : Nat) (charge : Option Charge)
    (step : Option Nat) (cars : List Car) :
    Keeps z (Sys2Proof.Machine.queueCars t l peer charge step cars s) := by
  unfold Sys2Proof.Machine.queueCars
  try dsimp only
  repeat' split
  all_goals first
    | exact h
    | simp (maxDischargeDepth := 40) only [h, Keeps.queueOn]

theorem Keeps.sendMember {z s : State} (h : Keeps z s) (t : Nat) (c : Carousel) (k member : Nat)
    (charge : Option Charge) (step : Option Nat) (build : Nat → List Car) :
    Keeps z (Sys2Proof.Machine.sendMember t c k member charge step build s) := by
  unfold Sys2Proof.Machine.sendMember
  dsimp only
  repeat' split
  all_goals first
    | exact h
    | simp (maxDischargeDepth := 40) only [h, Keeps.queueOn]

/-! ### Optim -/

theorem board_withRecords (tr : Troupe) (n : Nat) : (withRecords tr n).board = tr.board := by
  first
    | rfl
    | unfold withRecords; (repeat' split) <;> simp []

theorem board_viewFor (tr : Troupe) (step : Nat) : (viewFor tr step).board = tr.board := by
  first
    | rfl
    | unfold viewFor; (repeat' split) <;> simp [board_withRecords]

theorem board_setPending (tr : Troupe) (a : Tab TState) : (setPending tr a).board = tr.board := by
  first
    | rfl
    | unfold setPending; (repeat' split) <;> simp []

theorem board_setCommitted (tr : Troupe) (a : Tab TState) : (setCommitted tr a).board = tr.board := by
  first
    | rfl
    | unfold setCommitted; (repeat' split) <;> simp []

end Sys2Proof.Machine
end

