-- ==== Sys2Proof/Laws/KeepsExchange.lean ====
section
/-! SUPPORT. Intake, quantisation, exchange, mirrors, rings, the tally and the ledger keep the queue of commands and soundness. -/

namespace Sys2Proof.Machine

open Sys2Proof

/-! ### Exchange -/

theorem Keeps.spendShare {z s : State} (h : Keeps z s) (pit bytes : Nat) :
    Keeps z (Sys2Proof.Machine.spendShare pit bytes s) := by
  unfold Sys2Proof.Machine.spendShare
  simp (maxDischargeDepth := 40) only [h, Keeps.modHouse]

theorem Keeps.releaseSlot {z s : State} (h : Keeps z s) (t : Nat) (slot : BitVec 64) (cue : BitVec 16) :
    Keeps z (Sys2Proof.Machine.releaseSlot t slot cue s) := by
  unfold Sys2Proof.Machine.releaseSlot
  simp (maxDischargeDepth := 40) only [h, implies_true, Keeps.modTroupe,
      Keeps.signalField]

theorem Keeps.releaseChunk {z s : State} (h : Keeps z s) (t : Nat) (key : Nat) :
    Keeps z (Sys2Proof.Machine.releaseChunk t s key) := by
  unfold Sys2Proof.Machine.releaseChunk
  try dsimp only
  repeat' split
  all_goals first
    | exact h
    | simp (maxDischargeDepth := 40) only [h, implies_true, Keeps.modTroupe,
      Keeps.releaseSlot]

theorem Keeps.releaseChunks {z s : State} (h : Keeps z s) (t : Nat) (keys : List Nat) :
    Keeps z (Sys2Proof.Machine.releaseChunks t keys s) := by
  unfold Sys2Proof.Machine.releaseChunks
  simp (maxDischargeDepth := 40) only [h, Keeps.refl, implies_true, Keeps.foldl,
      Keeps.releaseChunk]

theorem Keeps.modWork {z s : State} (h : Keeps z s) (t b : Nat) (f : BWork → BWork) :
    Keeps z (Sys2Proof.Machine.modWork s t b f) := by
  unfold Sys2Proof.Machine.modWork
  simp (maxDischargeDepth := 40) only [h, implies_true, Keeps.modTroupe]

theorem Keeps.useBank {z s : State} (h : Keeps z s) (t : Nat) :
    Keeps z (Sys2Proof.Machine.useBank t s) := by
  unfold Sys2Proof.Machine.useBank
  simp (maxDischargeDepth := 40) only [h, Keeps.ite, implies_true, Keeps.fault, Keeps.modTroupe]

theorem Keeps.useVersion {z s : State} (h : Keeps z s) (t : Nat) :
    Keeps z (Sys2Proof.Machine.useVersion t s) := by
  unfold Sys2Proof.Machine.useVersion
  simp (maxDischargeDepth := 40) only [h, Keeps.ite, implies_true, Keeps.fault, Keeps.modTroupe]

theorem board_setResidual (tr : Troupe) (bank : Bool) (key : Nat) (r : List BF16) : (setResidual tr bank key r).board = tr.board := by
  first
    | rfl
    | unfold setResidual; (repeat' split) <;> simp []

theorem Keeps.spendChunks {z s : State} (h : Keeps z s) (per : Nat) (ks : List ((Nat × Nat × Nat × Bool) × Nat)) :
    Keeps z (Sys2Proof.Machine.spendChunks per ks s) := by
  exact Keeps.foldl (fun s k => (Keeps.refl s).spendShare _ _) ks h

theorem Keeps.drainChunk {z s : State} (h : Keeps z s) (t : Nat) (k : (Nat × Nat × Nat × Bool) × Nat) :
    Keeps z (Sys2Proof.Machine.drainChunk t s k) := by
  unfold Sys2Proof.Machine.drainChunk
  exact Keeps.releaseChunk (h.modTroupe _ _ (by intro; rfl)) _ _

theorem board_modScale (tr : Troupe) (tensor : Nat) (f : ScaleState → ScaleState) : (modScale tr tensor f).board = tr.board := by
  first
    | rfl
    | unfold modScale; (repeat' split) <;> simp []

theorem board_setFallback (tr : Troupe) (tensor : Nat) (v : Bool) : (setFallback tr tensor v).board = tr.board := by
  first
    | rfl
    | unfold setFallback; (repeat' split) <;> simp []

theorem Keeps.useHistory {z s : State} (h : Keeps z s) (t tensor : Nat) :
    Keeps z (Sys2Proof.Machine.useHistory t tensor s) := by
  unfold Sys2Proof.Machine.useHistory
  simp (maxDischargeDepth := 40) only [h, Keeps.ite, implies_true, Keeps.curtain, Keeps.modTroupe, Keeps.record,
    board_modScale, board_setFallback]

theorem Keeps.overflowed {z s : State} (h : Keeps z s) (t b tensor : Nat) :
    Keeps z (Sys2Proof.Machine.overflowed t b tensor s) := by
  unfold Sys2Proof.Machine.overflowed
  simp (maxDischargeDepth := 40) only [h, Keeps.ite, Keeps.curtain, Keeps.gauge, Keeps.modWork]

theorem Keeps.holdByte {z s : State} (h : Keeps z s) (t b : Nat) (e : Nat × Nat) :
    Keeps z (Sys2Proof.Machine.holdByte t b e s) := by
  unfold Sys2Proof.Machine.holdByte
  dsimp only
  repeat' split
  all_goals first
    | exact h
    | simp (maxDischargeDepth := 40) only [h, Keeps.modWork,
      Keeps.overflowed]

theorem Keeps.issueCall {z s : State} (h : Keeps z s) (t b : Nat) :
    Keeps z (Sys2Proof.Machine.issueCall t b s) := by
  unfold Sys2Proof.Machine.issueCall
  simp (maxDischargeDepth := 40) only [h, Keeps.refl, Keeps.ite, implies_true, Keeps.drainChunk,
      Keeps.foldl, Keeps.ledgerStore, Keeps.modTroupe, Keeps.modWork, Keeps.spendChunks, Keeps.useHistory,
      board_modLast]

theorem Keeps.settleScale {z s : State} (h : Keeps z s) (t b : Nat) :
    Keeps z (Sys2Proof.Machine.settleScale t b s) := by
  unfold Sys2Proof.Machine.settleScale
  simp (maxDischargeDepth := 40) only [h, Keeps.refl, Keeps.ite, implies_true, Keeps.foldl, Keeps.holdByte]

theorem board_foldRemainder (tr : Troupe) (g : Graph) (blk : Nat) (d : List Dy) : (foldRemainder tr g blk d).board = tr.board := by
  first
    | rfl
    | unfold foldRemainder; (repeat' split) <;> simp [board_setResidual]

theorem board_reduceBlock (tr : Troupe) (g : Graph) (b blk : Nat) : (reduceBlock tr g b blk).board = tr.board := by
  first
    | rfl
    | unfold reduceBlock; (repeat' split) <;> simp [board_foldRemainder]

theorem board_reduceFBlock (tr : Troupe) (b blk : Nat) : (reduceFBlock tr b blk).board = tr.board := by
  first
    | rfl
    | unfold reduceFBlock; (repeat' split) <;> simp []

theorem Keeps.settleSums {z s : State} (h : Keeps z s) (t b : Nat) : Keeps z (Sys2Proof.Machine.settleSums t b s) := by
  unfold Sys2Proof.Machine.settleSums
  dsimp only
  split
  · exact h
  · refine h.modTroupe _ _ fun tr => board_foldl (fun tr x => ?_) _ _
    split
    · exact board_reduceFBlock ..
    · exact board_reduceBlock ..

theorem Keeps.settleVecs {z s : State} (h : Keeps z s) (t b : Nat) :
    Keeps z (Sys2Proof.Machine.settleVecs t b s) := by
  unfold Sys2Proof.Machine.settleVecs
  simp (maxDischargeDepth := 40) only [h, Keeps.ite, Keeps.modWork]

theorem Keeps.settleHistory {z s : State} (h : Keeps z s) (t b : Nat) :
    Keeps z (Sys2Proof.Machine.settleHistory t b s) := by
  unfold Sys2Proof.Machine.settleHistory
  dsimp only
  split
  · exact h
  · refine Keeps.foldl (fun s e => ?_) _ h
    split
    · exact Keeps.refl s
    · exact Keeps.ite ((Keeps.refl s).overflowed _ _ _) (Keeps.refl s)

theorem Keeps.freeWindow {z s : State} (h : Keeps z s) (t b : Nat) :
    Keeps z (Sys2Proof.Machine.freeWindow t b s) := by
  unfold Sys2Proof.Machine.freeWindow
  repeat' split
  all_goals first
    | exact h
    | simp (maxDischargeDepth := 40) only [h, Keeps.modHouse,
      Keeps.modWork]

theorem Keeps.noteComplete {z s : State} (h : Keeps z s) (t : Nat) :
    Keeps z (Sys2Proof.Machine.noteComplete t s) := by
  unfold Sys2Proof.Machine.noteComplete
  try dsimp only
  repeat' split
  all_goals first
    | exact h
    | simp (maxDischargeDepth := 40) only [h, implies_true, Keeps.modTroupe,
      board_modLast]

/-! ### Mirror -/

theorem Keeps.mirrorWrite {z s : State} (h : Keeps z s) (t step target : Nat) (charge : Charge) (bytes : List Byte) :
    Keeps z (Sys2Proof.Machine.mirrorWrite t step target charge bytes s) := by
  unfold Sys2Proof.Machine.mirrorWrite
  simp (maxDischargeDepth := 40) only [h, Keeps.queueCars]

theorem Keeps.mirrorBlocks {z s : State} (h : Keeps z s) (t step tensor chunk first : Nat) (xs : List ShardBlock) :
    Keeps z (Sys2Proof.Machine.mirrorBlocks t step tensor chunk first xs s) := by
  unfold Sys2Proof.Machine.mirrorBlocks
  simp (maxDischargeDepth := 40) only [h, Keeps.queueCars]

theorem Keeps.mirrorMasters {z s : State} (h : Keeps z s) (t b step : Nat) (e : Nat × Nat × Nat × Bool) (blocks : List Nat) :
    Keeps z (Sys2Proof.Machine.mirrorMasters t b step e blocks s) := by
  unfold Sys2Proof.Machine.mirrorMasters
  simp (maxDischargeDepth := 40) only [h, Keeps.refl, Keeps.ite, implies_true, Keeps.foldl, Keeps.mirrorBlocks]

theorem Keeps.mirrorTensor {z s : State} (h : Keeps z s) (t b : Nat) (e : Nat × Nat × Nat × Bool) :
    Keeps z (Sys2Proof.Machine.mirrorTensor t b e s) := by
  unfold Sys2Proof.Machine.mirrorTensor
  dsimp only
  split
  · exact h
  · refine Keeps.ite h ?_
    have k := (h.modWork t b fun w => { w with mirrored := 2 * e.1 :: w.mirrored }).mirrorWrite t
    refine Keeps.ite (Keeps.mirrorMasters (Keeps.ite (Keeps.foldl (fun s x => (Keeps.refl s).mirrorBlocks ..) _
    (k ..)) (k ..))
      _ _ _ _ _) (Keeps.ite (Keeps.foldl (fun s x => (Keeps.refl s).mirrorBlocks ..) _ (k ..)) (k ..))

theorem Keeps.mirrorBucket {z s : State} (h : Keeps z s) (t b : Nat) :
    Keeps z (Sys2Proof.Machine.mirrorBucket t b s) := by
  unfold Sys2Proof.Machine.mirrorBucket
  try dsimp only
  repeat' split
  all_goals first
    | exact h
    | simp (maxDischargeDepth := 40) only [h, Keeps.refl, implies_true, Keeps.foldl,
      Keeps.mirrorTensor]

theorem Keeps.settleSaturated {z s : State} (h : Keeps z s) (t b : Nat) (before : BWork) :
    Keeps z (Sys2Proof.Machine.settleSaturated t b before s) := by
  unfold Sys2Proof.Machine.settleSaturated
  simp (maxDischargeDepth := 40) only [h, Keeps.ite, Keeps.curtain, Keeps.gauge, Keeps.record]

theorem Keeps.judgeSpike {z s : State} (h : Keeps z s) (t : Nat) (d : Spike) (x : F32) :
    Keeps z (Sys2Proof.Machine.judgeSpike t d x s) := by
  unfold Sys2Proof.Machine.judgeSpike
  simp (maxDischargeDepth := 40) only [h, Keeps.ite, Keeps.curtain, Keeps.gauge]

theorem Keeps.settleNorm {z s : State} (h : Keeps z s) (t : Nat) :
    Keeps z (Sys2Proof.Machine.settleNorm t s) := by
  unfold Sys2Proof.Machine.settleNorm
  simp (maxDischargeDepth := 40) only [h, Keeps.ite, implies_true, Keeps.judgeSpike, Keeps.modTroupe]

theorem Keeps.settle {z s : State} (h : Keeps z s) (t b : Nat) :
    Keeps z (Sys2Proof.Machine.settle t b s) := by
  unfold Sys2Proof.Machine.settle
  have k := ((((h.settleScale t b).settleSums t b).settleVecs t b).settleHistory t b).settleSaturated t b
    (workOf (troupe s t) b)
  refine Keeps.noteComplete (Keeps.modTroupe (Keeps.settleNorm (Keeps.mirrorBucket (Keeps.ite
    (k.freeWindow _ _) k) _ _) _)
    _ _ fun tr => ?_) _
  split
  · rfl
  · exact board_modLast _ _

theorem Keeps.modMirror {z s : State} (h : Keeps z s) (t : Nat) (f : Mirror → Mirror) :
    Keeps z (Sys2Proof.Machine.modMirror s t f) := by
  unfold Sys2Proof.Machine.modMirror
  simp (maxDischargeDepth := 40) only [h, implies_true, Keeps.modTroupe]

theorem Keeps.modHalf {z s : State} (h : Keeps z s) (t step : Nat) (f : Retained → Retained) :
    Keeps z (Sys2Proof.Machine.modHalf s t step f) := by
  unfold Sys2Proof.Machine.modHalf
  simp (maxDischargeDepth := 40) only [h, implies_true, Keeps.modTroupe]

theorem Keeps.misplaced {z s : State} (h : Keeps z s) (t : Nat) (c : Car) (id : Nat) :
    Keeps z (Sys2Proof.Machine.misplaced t c id s) := by
  unfold Sys2Proof.Machine.misplaced
  simp (maxDischargeDepth := 40) only [h, Keeps.ite, Keeps.log, le_refl, Keeps.curtain, Keeps.record, Keeps.suppress]

theorem Keeps.staleCar {z s : State} (h : Keeps z s) (t : Nat) :
    Keeps z (Sys2Proof.Machine.staleCar t s) := by
  unfold Sys2Proof.Machine.staleCar
  simp (maxDischargeDepth := 40) only [h, Keeps.gauge]

theorem Keeps.takeMirror {z s : State} (h : Keeps z s) (t : Nat) (c : Car) :
    Keeps z (Sys2Proof.Machine.takeMirror t c s) := by
  unfold Sys2Proof.Machine.takeMirror
  dsimp only
  repeat' split
  all_goals first
    | exact h
    | simp (maxDischargeDepth := 40) only [h, Keeps.misplaced, Keeps.modHalf, Keeps.staleCar]

theorem Keeps.takeTrickle {z s : State} (h : Keeps z s) (t : Nat) (c : Car) :
    Keeps z (Sys2Proof.Machine.takeTrickle t c s) := by
  unfold Sys2Proof.Machine.takeTrickle
  simp (maxDischargeDepth := 40) only [h, Keeps.ite, Keeps.modMirror]

theorem board_mirrorApply (tr : Troupe) (step : Nat) (h : Retained) : (mirrorApply tr step h).board = tr.board := by
  first
    | rfl
    | unfold mirrorApply; (repeat' split) <;> simp []

theorem Keeps.mirrorCommit {z s : State} (h : Keeps z s) (t : Nat) (r : StepRec) (did : Bool) :
    Keeps z (Sys2Proof.Machine.mirrorCommit t r did s) := by
  unfold Sys2Proof.Machine.mirrorCommit
  simp (maxDischargeDepth := 40) only [h, Keeps.ite, implies_true, Keeps.gauge, Keeps.modMirror, Keeps.modTroupe,
    board_mirrorApply]

theorem Keeps.diverge {z s : State} (h : Keeps z s) (principal : Bool) (t step kinds : Nat) :
    Keeps z (Sys2Proof.Machine.diverge principal t step kinds s) := by
  unfold Sys2Proof.Machine.diverge
  simp (maxDischargeDepth := 40) only [h, implies_true, Keeps.curtain,
      Keeps.modTroupe, Keeps.record]

theorem Keeps.takeVerdict {z s : State} (h : Keeps z s) (t : Nat) (word : BitVec 64) :
    Keeps z (Sys2Proof.Machine.takeVerdict t word s) := by
  unfold Sys2Proof.Machine.takeVerdict
  try dsimp only
  repeat' split
  all_goals first
    | exact h
    | simp (maxDischargeDepth := 40) only [h, implies_true, Keeps.diverge,
      Keeps.modTroupe, board_modStep]

theorem board_takeCopied (tr : Troupe) (tensor : Nat) (bs : List Byte) : (takeCopied tr tensor bs).board = tr.board := by
  first
    | rfl
    | unfold takeCopied; (repeat' split) <;> simp []

theorem Keeps.takeMirrorWrite {z s s' : State} (h : Keeps z s) (t : Nat) (c : Car) (bs : List Byte)
    (k : Sys2Proof.Machine.takeMirrorWrite t c bs s = some s') : Keeps z s' := by
  unfold Sys2Proof.Machine.takeMirrorWrite at k
  dsimp only at k
  repeat' split at k
  all_goals first
    | (simp only [Option.bind_eq_some_iff, Option.some.injEq] at k; obtain ⟨_, _, _, _, rfl⟩ := k)
    | (simp only [Option.some.injEq] at k; subst k)
  all_goals first
    | exact h
    | exact h.takeVerdict _ _
    | exact h.modHalf _ _ _
    | exact h.modTroupe _ _ (by intro; rfl)
    | exact Keeps.modMirror (h.modTroupe _ _ (by intro; rfl)) _ _
    | exact h.modMirror _ _
    | exact Keeps.modMirror (h.modTroupe _ _ fun tr => board_takeCopied ..) _ _

/-! ### Inlet -/

theorem Keeps.popQueue {z s : State} (h : Keeps z s) (t : Nat) :
    Keeps z (Sys2Proof.Machine.popQueue t s) := by
  unfold Sys2Proof.Machine.popQueue
  dsimp only
  repeat' split
  all_goals first
    | exact h
    | simp (maxDischargeDepth := 40) only [h, implies_true, Keeps.modHouse,
      Keeps.modTroupe]

theorem Keeps.takeEmit {z s : State} (h : Keeps z s) (t : Nat) (r : StepRec) (d : List Byte) :
    Keeps z (Sys2Proof.Machine.takeEmit t r d s) := by
  unfold Sys2Proof.Machine.takeEmit
  simp (maxDischargeDepth := 40) only [h, implies_true, Keeps.modTroupe, Keeps.useEntry, board_modLast]

theorem Keeps.serveHead {z s : State} (h : Keeps z s) (t : Nat) (d : List Byte) :
    Keeps z (Sys2Proof.Machine.serveHead t d s) := by
  unfold Sys2Proof.Machine.serveHead
  dsimp only
  repeat' split
  all_goals first
    | exact h
    | simp (maxDischargeDepth := 40) only [h, Keeps.fault,
      Keeps.gauge, Keeps.modHouse, Keeps.popQueue, Keeps.signalField, Keeps.takeEmit]

theorem Keeps.openWindow {z s : State} (h : Keeps z s) (pit : Nat) :
    Keeps z (Sys2Proof.Machine.openWindow pit s) := by
  unfold Sys2Proof.Machine.openWindow
  simp (maxDischargeDepth := 40) only [h, Keeps.modHouse]

theorem Keeps.nonFinite {z s : State} (h : Keeps z s) (t step tensor chunk : Nat) (slot : BitVec 64)
    (at_ : List Nat) :
    Keeps z (Sys2Proof.Machine.nonFinite t step tensor chunk slot at_ s) := by
  unfold Sys2Proof.Machine.nonFinite
  try dsimp only
  repeat' split
  all_goals first
    | exact h
    | simp (maxDischargeDepth := 40) only [h, implies_true, Keeps.curtain,
      Keeps.gauge, Keeps.modTroupe, board_modStep]

theorem Keeps.elementRecord {z s : State} (h : Keeps z s) (t : Nat) (e : Nat × StepRec) :
    Keeps z (Sys2Proof.Machine.elementRecord t s e) := by
  unfold Sys2Proof.Machine.elementRecord
  try dsimp only
  repeat' split
  all_goals first
    | exact h
    | simp (maxDischargeDepth := 40) only [h, implies_true, Keeps.modTroupe,
      Keeps.record, board_modStep]

theorem Keeps.closeElements {z s : State} (h : Keeps z s) (t : Nat) :
    Keeps z (Sys2Proof.Machine.closeElements t s) := by
  unfold Sys2Proof.Machine.closeElements
  simp (maxDischargeDepth := 40) only [h, Keeps.refl, implies_true, Keeps.elementRecord,
      Keeps.foldl]

theorem Keeps.chunkDone {z s : State} (h : Keeps z s) (t tensor chunk : Nat) :
    Keeps z (Sys2Proof.Machine.chunkDone t tensor chunk s) := by
  unfold Sys2Proof.Machine.chunkDone
  try dsimp only
  repeat' split
  all_goals first
    | exact h
    | simp (maxDischargeDepth := 40) only [h, implies_true, Keeps.gauge,
      Keeps.issueCall, Keeps.ledgerStore, Keeps.modTroupe, Keeps.modWork, Keeps.settle, board_modLast]

/-! ### Quant -/

theorem board_storeChunk (tr : Troupe) (res : Tab (List (Option BF16))) (k : (Nat × Nat × Nat × Bool) × Nat) :
    (storeChunk tr res k).board = tr.board := by
  first
    | rfl
    | unfold storeChunk; (repeat' split) <;> simp [board_setResidual]

theorem Keeps.placeBand {z s : State} (h : Keeps z s) (g : Graph) (r : StepRec) (kappa : Nat) (e : Nat × F32) (t b : Nat) :
    Keeps z (Sys2Proof.Machine.placeBand g r kappa e s t b) := by
  unfold Sys2Proof.Machine.placeBand
  dsimp only
  repeat' split
  all_goals first
    | exact h
    | simp (maxDischargeDepth := 40) only [h, implies_true, Keeps.house, Keeps.modTroupe, Keeps.modWork, board_setResidual]

theorem Keeps.endPass {z s : State} (h : Keeps z s) (t b kappa : Nat) :
    Keeps z (Sys2Proof.Machine.endPass t b kappa s) := by
  unfold Sys2Proof.Machine.endPass
  try dsimp only
  repeat' split
  all_goals first
    | exact h
    | simp (maxDischargeDepth := 40) only [h, Keeps.refl, implies_true, Keeps.foldl,
      Keeps.ledgerStore, Keeps.modTroupe, Keeps.modWork, Keeps.placeBand, Keeps.releaseChunks, Keeps.settle,
      board_modLast]

theorem Keeps.useScaleWord {z s : State} (h : Keeps z s) (t b : Nat) (g : Graph) (k : Nat) :
    Keeps z (Sys2Proof.Machine.useScaleWord t b g k s) := by
  unfold Sys2Proof.Machine.useScaleWord
  simp (maxDischargeDepth := 40) only [h, Keeps.ite, Keeps.curtain, Keeps.record]

theorem Keeps.spendPass {z s : State} (h : Keeps z s) (single : Bool) (quant : Tab QBlk) (ks : List
    ((Nat × Nat × Nat × Bool) × Nat)) :
    Keeps z (Sys2Proof.Machine.spendPass single quant ks s) := by
  unfold Sys2Proof.Machine.spendPass
  simp (maxDischargeDepth := 40) only [h, Keeps.refl, implies_true, Keeps.foldl,
      Keeps.spendShare]

/-! ### Pack -/

theorem Keeps.packItem {z s : State} (h : Keeps z s) (t : Nat) (i : Item) (shift : Nat) :
    Keeps z (Sys2Proof.Machine.packItem t i shift s) := by
  unfold Sys2Proof.Machine.packItem
  simp (maxDischargeDepth := 40) only [h, implies_true, Keeps.modTroupe,
      Keeps.sendMember]

/-! ### RingTake -/

theorem Keeps.brokenRing {z s : State} (h : Keeps z s) (t ring : Nat) (r : Ring) :
    Keeps z (Sys2Proof.Machine.brokenRing t ring r s) := by
  unfold Sys2Proof.Machine.brokenRing
  simp (maxDischargeDepth := 40) only [h, Keeps.fault]

theorem Keeps.takeDescriptor {z s : State} (h : Keeps z s) (t ring : Nat) :
    Keeps z (Sys2Proof.Machine.takeDescriptor t ring s) := by
  unfold Sys2Proof.Machine.takeDescriptor
  repeat' split
  all_goals first
    | exact h
    | simp (maxDischargeDepth := 40) only [h, implies_true, Keeps.modTroupe,
      Keeps.signalField]

theorem Keeps.badDescriptor {z s : State} (h : Keeps z s) (t ring : Nat) (sub : Subsystem) (detail compl : Nat)
    (rec_ : List Byte) (cue : Nat) :
    Keeps z (Sys2Proof.Machine.badDescriptor t ring sub detail compl rec_ cue s) := by
  unfold Sys2Proof.Machine.badDescriptor
  simp (maxDischargeDepth := 40) only [h, Keeps.pokeHbm,
      Keeps.ringEnd, Keeps.run]

theorem Keeps.endDescriptor {z s : State} (h : Keeps z s) (t ring compl : Nat) (rec_ : List Byte) (cue : BitVec 16) :
    Keeps z (Sys2Proof.Machine.endDescriptor t ring compl rec_ cue s) := by
  unfold Sys2Proof.Machine.endDescriptor
  simp (maxDischargeDepth := 40) only [h, Keeps.pokeHbm, Keeps.ringEnd, Keeps.signalField]

theorem Keeps.startOp {z s : State} (h : Keeps z s) (t ring : Nat) (charge : Charge) (d : LineDesc) :
    Keeps z (Sys2Proof.Machine.startOp t ring charge d s) := by
  unfold Sys2Proof.Machine.startOp
  simp (maxDischargeDepth := 40) only [h, implies_true, Keeps.enterLine, Keeps.modLine, Keeps.modTroupe]

theorem Keeps.refuseOp {z s : State} (h : Keeps z s) (t ring : Nat) (charge : Charge) (d : LineDesc) (st : Status) :
    Keeps z (Sys2Proof.Machine.refuseOp t ring charge d st s) := by
  unfold Sys2Proof.Machine.refuseOp
  simp (maxDischargeDepth := 40) only [h, implies_true, Keeps.completeOps,
      Keeps.modLine, Keeps.modTroupe]

theorem Keeps.takeLine {z s : State} (h : Keeps z s) (t ring : Nat) (r : Ring) :
    Keeps z (Sys2Proof.Machine.takeLine t ring r s) := by
  unfold Sys2Proof.Machine.takeLine
  simp (maxDischargeDepth := 40) only [h, Keeps.ite, implies_true, Keeps.badDescriptor,
      Keeps.checkLine, Keeps.modTroupe, Keeps.refuseOp, Keeps.startOp, Keeps.takeDescriptor]

theorem Keeps.addLayer {z s : State} (h : Keeps z s) (t : Nat) (c : SpillCall) (raw : List Nat) :
    Keeps z (Sys2Proof.Machine.addLayer t c raw s) := by
  unfold Sys2Proof.Machine.addLayer
  dsimp only
  repeat' split
  all_goals first
    | exact h
    | simp (maxDischargeDepth := 40) only [h, implies_true, Keeps.modTroupe,
      board_modLast]

theorem Keeps.spillDrained {z s : State} (h : Keeps z s) (t : Nat) :
    Keeps z (Sys2Proof.Machine.spillDrained t s) := by
  unfold Sys2Proof.Machine.spillDrained
  simp (maxDischargeDepth := 40) only [h, Keeps.deferred, Keeps.completeDeferred]

/-! ### SieveCalls -/

theorem Keeps.localCall {z s : State} (h : Keeps z s) (c : SieveCall) :
    Keeps z (Sys2Proof.Machine.localCall c s) := by
  unfold Sys2Proof.Machine.localCall
  simp (maxDischargeDepth := 40) only [h, Keeps.pokeHbm]

theorem Keeps.sendEntries {z s : State} (h : Keeps z s) (t : Nat) (c : SieveCall) (charge : Charge) (member : Nat) (es : List (Nat × Nat)) :
    Keeps z (Sys2Proof.Machine.sendEntries t c charge member es s) := by
  unfold Sys2Proof.Machine.sendEntries
  simp (maxDischargeDepth := 40) only [h, Keeps.sendMember]

theorem Keeps.modCall {z s : State} (h : Keeps z s) (t carousel number : Nat) (f : SieveCall → SieveCall) :
    Keeps z (Sys2Proof.Machine.modCall s t carousel number f) := by
  unfold Sys2Proof.Machine.modCall
  simp (maxDischargeDepth := 40) only [h, implies_true, Keeps.modTroupe]

theorem Keeps.settleCall {z s : State} (h : Keeps z s) (t carousel number : Nat) :
    Keeps z (Sys2Proof.Machine.settleCall t carousel number s) := by
  unfold Sys2Proof.Machine.settleCall
  dsimp only
  repeat' split
  all_goals first
    | exact h
    | simp (maxDischargeDepth := 40) only [h, Keeps.refl, implies_true, Keeps.foldl,
      Keeps.modCall, Keeps.sendEntries]

theorem Keeps.startCarousel {z s : State} (h : Keeps z s) (t : Nat) (c : SieveCall) :
    Keeps z (Sys2Proof.Machine.startCarousel t c s) := by
  unfold Sys2Proof.Machine.startCarousel
  simp (maxDischargeDepth := 40) only [h, Keeps.refl, implies_true, Keeps.foldl, Keeps.localCall, Keeps.modTroupe,
    Keeps.sendEntries, Keeps.settleCall]

theorem Keeps.dropCall {z s : State} (h : Keeps z s) (t : Nat) (c : SieveCall) :
    Keeps z (Sys2Proof.Machine.dropCall s t c) := by
  unfold Sys2Proof.Machine.dropCall
  simp (maxDischargeDepth := 40) only [h, implies_true, Keeps.modTroupe]

theorem Keeps.callCurtain {z s : State} (h : Keeps z s) (t : Nat) (c : SieveCall) :
    Keeps z (Sys2Proof.Machine.callCurtain t c s) := by
  unfold Sys2Proof.Machine.callCurtain
  simp (maxDischargeDepth := 40) only [h, Keeps.ite, Keeps.curtain]

theorem Keeps.takeCounts {z s : State} (h : Keeps z s) (t l : Nat) (src : BlockAddr) (c : Car) :
    Keeps z (Sys2Proof.Machine.takeCounts t l src c s) := by
  unfold Sys2Proof.Machine.takeCounts
  dsimp only
  repeat' split
  all_goals first
    | exact h
    | simp (maxDischargeDepth := 40) only [h, implies_true, Keeps.modCall,
      Keeps.modTroupe, Keeps.settleCall]

/-! ### Tally -/

theorem Keeps.tooFar {z s : State} (h : Keeps z s) (t : Nat) :
    Keeps z (Sys2Proof.Machine.tooFar t s) := by
  unfold Sys2Proof.Machine.tooFar
  simp (maxDischargeDepth := 40) only [h, Keeps.curtain, Keeps.record]

theorem Keeps.readyWork {z s : State} (h : Keeps z s) (t step : Nat) :
    Keeps z (Sys2Proof.Machine.readyWork t step s) := by
  refine h.modTroupe _ _ fun tr => ?_
  split <;> rfl

theorem Keeps.takePlace {z s : State} (h : Keeps z s) (t b : Nat) :
    Keeps z (Sys2Proof.Machine.takePlace t b s) := by
  unfold Sys2Proof.Machine.takePlace
  repeat' split
  all_goals first
    | exact h
    | simp (maxDischargeDepth := 40) only [h, Keeps.ite, Keeps.modHouse,
      Keeps.modWork]

theorem Keeps.scaleRecord {z s : State} (h : Keeps z s) (t : Nat) :
    Keeps z (Sys2Proof.Machine.scaleRecord t s) := by
  unfold Sys2Proof.Machine.scaleRecord
  simp (maxDischargeDepth := 40) only [h, Keeps.gauge, Keeps.record]

theorem Keeps.badScale {z s : State} (h : Keeps z s) (t step : Nat) :
    Keeps z (Sys2Proof.Machine.badScale t step s) := by
  unfold Sys2Proof.Machine.badScale
  simp (maxDischargeDepth := 40) only [h, Keeps.ite, implies_true, Keeps.curtain,
      Keeps.modTroupe, Keeps.scaleRecord]

theorem Keeps.addBlock {z s : State} (h : Keeps z s) (t b tensor step base : Nat) (x : Nat × QBlk) :
    Keeps z (Sys2Proof.Machine.addBlock t b tensor step base x s) := by
  unfold Sys2Proof.Machine.addBlock
  simp (maxDischargeDepth := 40) only [h, Keeps.ite, Keeps.badScale,
      Keeps.modWork, Keeps.spendShare]

theorem Keeps.markEnded {z s : State} (h : Keeps z s) (t b kind tensor chunk member : Nat) (last : Bool) :
    Keeps z (Sys2Proof.Machine.markEnded t b kind tensor chunk member last s) := by
  unfold Sys2Proof.Machine.markEnded
  simp (maxDischargeDepth := 40) only [h, Keeps.ite, Keeps.modWork]

theorem Keeps.takeContribution {z s : State} (h : Keeps z s) (t : Nat) (src : BlockAddr) (c : Car) :
    Keeps z (Sys2Proof.Machine.takeContribution t src c s) := by
  unfold Sys2Proof.Machine.takeContribution
  try dsimp only
  repeat' split
  all_goals first
    | exact h
    | simp (maxDischargeDepth := 40) only [h, Keeps.refl, implies_true, Keeps.addBlock,
      Keeps.foldl, Keeps.gauge, Keeps.markEnded, Keeps.misplaced, Keeps.settle, Keeps.takePlace]

theorem Keeps.takeValues {z s : State} (h : Keeps z s) (t : Nat) (src : BlockAddr) (c : Car) :
    Keeps z (Sys2Proof.Machine.takeValues t src c s) := by
  unfold Sys2Proof.Machine.takeValues
  try dsimp only
  repeat' split
  all_goals first
    | exact h
    | simp (maxDischargeDepth := 40) only [h, Keeps.markEnded,
      Keeps.misplaced, Keeps.modWork, Keeps.settle]

theorem Keeps.takeScales {z s : State} (h : Keeps z s) (t : Nat) (src : BlockAddr) (c : Car) :
    Keeps z (Sys2Proof.Machine.takeScales t src c s) := by
  unfold Sys2Proof.Machine.takeScales
  try dsimp only
  repeat' split
  all_goals first
    | exact h
    | simp (maxDischargeDepth := 40) only [h, Keeps.refl, implies_true, Keeps.foldl,
      Keeps.holdByte, Keeps.markEnded, Keeps.misplaced, Keeps.modWork, Keeps.settle]

theorem board_fallbackTensor (tr : Troupe) (g : Graph) (tensor : Nat) : (fallbackTensor tr g tensor).board = tr.board := by
  first
    | rfl
    | unfold fallbackTensor; (repeat' split) <;> simp [board_modScale, board_setFallback]

theorem Keeps.modRound {z s : State} (h : Keeps z s) (t b step : Nat) (f : Fallback → Fallback) :
    Keeps z (Sys2Proof.Machine.modRound s t b step f) := by
  unfold Sys2Proof.Machine.modRound
  simp (maxDischargeDepth := 40) only [h, implies_true, Keeps.modTroupe]

theorem Keeps.settleRound {z s : State} (h : Keeps z s) (t b : Nat) :
    Keeps z (Sys2Proof.Machine.settleRound t b s) := by
  unfold Sys2Proof.Machine.settleRound
  dsimp only
  split
  · exact h
  · refine Keeps.ite h (Keeps.modRound (h.modTroupe _ _ fun tr => ?_) _ _ _ _)
    exact board_foldl (fun tr e => board_fallbackTensor ..) _ _

theorem Keeps.settleFallback {z s : State} (h : Keeps z s) (t b : Nat) :
    Keeps z (Sys2Proof.Machine.settleFallback t b s) := by
  unfold Sys2Proof.Machine.settleFallback
  try dsimp only
  repeat' split
  all_goals first
    | exact h
    | simp (maxDischargeDepth := 40) only [h, Keeps.refl, implies_true, Keeps.foldl,
      Keeps.issueCall, Keeps.modTroupe, Keeps.settle, Keeps.settleRound]

theorem Keeps.takeVector {z s : State} (h : Keeps z s) (t : Nat) (src : BlockAddr) (c : Car) :
    Keeps z (Sys2Proof.Machine.takeVector t src c s) := by
  unfold Sys2Proof.Machine.takeVector
  try dsimp only
  repeat' split
  all_goals first
    | exact h
    | simp (maxDischargeDepth := 40) only [h, Keeps.misplaced,
      Keeps.modRound, Keeps.modWork, Keeps.settle, Keeps.settleFallback]

theorem Keeps.takeCollective {z s : State} (h : Keeps z s) (t l : Nat) (src : BlockAddr) (c : Car) :
    Keeps z (Sys2Proof.Machine.takeCollective t l src c s) := by
  unfold Sys2Proof.Machine.takeCollective
  repeat' split
  all_goals first
    | exact h
    | simp (maxDischargeDepth := 40) only [h, Keeps.misplaced,
      Keeps.readyWork, Keeps.staleCar, Keeps.takeContribution, Keeps.takeCounts, Keeps.takeScales,
      Keeps.takeValues, Keeps.takeVector, Keeps.tooFar]

theorem Keeps.applyHeld {z s : State} (h : Keeps z s) (e : Entry) (fclass : Bool) (tb : Nat) (q : QBlk) (x : List F32) :
    Keeps z (Sys2Proof.Machine.applyHeld e fclass tb q x s) := by
  unfold Sys2Proof.Machine.applyHeld
  simp (maxDischargeDepth := 40) only [h, Keeps.refl, Keeps.ite, implies_true, Keeps.foldl, Keeps.pokeHbm]

theorem Keeps.applyDelta {z s : State} (h : Keeps z s) (t b blk : Nat) (q : QBlk) (x : List F32) :
    Keeps z (Sys2Proof.Machine.applyDelta t b blk q x s) := by
  unfold Sys2Proof.Machine.applyDelta
  dsimp only
  repeat' split
  all_goals first
    | exact h
    | simp (maxDischargeDepth := 40) only [h, implies_true, Keeps.applyHeld,
      Keeps.modTroupe, Keeps.signalField, Keeps.useEntry]

/-! ### Ledger -/

theorem Keeps.ledgerOpen {z s : State} (h : Keeps z s) (t num : Nat) :
    Keeps z (Sys2Proof.Machine.ledgerOpen t num s) := by
  unfold Sys2Proof.Machine.ledgerOpen
  dsimp only
  repeat' split
  all_goals first
    | exact h
    | simp (maxDischargeDepth := 40) only [h, implies_true, Keeps.ledgerStore,
      Keeps.modTroupe, board_modStep]

theorem Keeps.becomeUpdated {z s : State} (h : Keeps z s) (t num : Nat) :
    Keeps z (Sys2Proof.Machine.becomeUpdated t num s) := by
  unfold Sys2Proof.Machine.becomeUpdated
  dsimp only
  repeat' split
  all_goals first
    | exact h
    | simp (maxDischargeDepth := 40) only [h, implies_true, Keeps.ledgerStore,
      Keeps.mirrorWrite, Keeps.modTroupe, board_modStep]

theorem Keeps.settleGather {z s : State} (h : Keeps z s) (t : Nat) :
    Keeps z (Sys2Proof.Machine.settleGather t s) := by
  unfold Sys2Proof.Machine.settleGather
  simp (maxDischargeDepth := 40) only [h, Keeps.refl, Keeps.ite, implies_true, Keeps.becomeUpdated,
      Keeps.foldl]

theorem Keeps.addPhases {z s : State} (h : Keeps z s) (t : Nat) (r : StepRec) :
    Keeps z (Sys2Proof.Machine.addPhases t r s) := by
  unfold Sys2Proof.Machine.addPhases
  simp (maxDischargeDepth := 40) only [h, Keeps.refl, Keeps.ite, implies_true, Keeps.foldl, Keeps.gauge,
    Keeps.modTroupe]

theorem Keeps.becomeChecked {z s : State} (h : Keeps z s) (t num : Nat) :
    Keeps z (Sys2Proof.Machine.becomeChecked t num s) := by
  unfold Sys2Proof.Machine.becomeChecked
  dsimp only
  repeat' split
  all_goals first
    | exact h
    | simp (maxDischargeDepth := 40) only [h, implies_true, Keeps.addPhases,
      Keeps.ledgerStore, Keeps.modTroupe, board_modStep]

theorem Keeps.retireAll {z s : State} (h : Keeps z s) (t : Nat) :
    Keeps z (Sys2Proof.Machine.retireAll t s) := by
  unfold Sys2Proof.Machine.retireAll
  simp (maxDischargeDepth := 40) only [h, implies_true, Keeps.modTroupe]

theorem Keeps.brokenHeader {z s : State} (h : Keeps z s) (t : Nat) :
    Keeps z (Sys2Proof.Machine.brokenHeader t s) := by
  unfold Sys2Proof.Machine.brokenHeader
  repeat' split
  all_goals first
    | exact h
    | simp (maxDischargeDepth := 40) only [h, implies_true, Keeps.modTroupe,
      Keeps.record, board_modStep]

theorem Keeps.passCheck {z s : State} (h : Keeps z s) (t : Nat) (c : Nat × Bool) :
    Keeps z (Sys2Proof.Machine.passCheck t c s) := by
  unfold Sys2Proof.Machine.passCheck
  simp (maxDischargeDepth := 40) only [h, Keeps.refl, Keeps.ite, implies_true, Keeps.foldl, Keeps.becomeChecked,
    Keeps.gauge, Keeps.modTroupe, board_modStep]

theorem Keeps.checkTroupe {z s : State} (h : Keeps z s) (t : Nat) :
    Keeps z (Sys2Proof.Machine.checkTroupe t s) := by
  unfold Sys2Proof.Machine.checkTroupe
  dsimp only
  repeat' split
  all_goals first
    | exact h
    | simp (maxDischargeDepth := 40) only [h, Keeps.refl, implies_true, Keeps.foldl,
      Keeps.brokenHeader, Keeps.passCheck, Keeps.retireAll]

theorem Keeps.flipDue {z s : State} (h : Keeps z s) (t : Nat) :
    Keeps z (Sys2Proof.Machine.flipDue t s) := by
  unfold Sys2Proof.Machine.flipDue
  try dsimp only
  repeat' split
  all_goals first
    | exact h
    | simp (maxDischargeDepth := 40) only [h, Keeps.modMirror]

/-! ### Reduce -/

theorem Keeps.reduceUnits {z s : State} (h : Keeps z s) (t : Nat) (c : Car) :
    Keeps z (Sys2Proof.Machine.reduceUnits t c s) := by
  have f : ∀ (l : List Nat) (a : State × Nat), Keeps z a.1 → Keeps z (l.foldl (fun (a : State × Nat) k =>
      let at_ := c.target.toNat + unitBytes c.enc * k
      let u := reduceUnit c.enc c.op (memRead a.1.hbm at_ (unitBytes c.enc)) (slice c.payload (unitBytes c.enc * k) (unitBytes c.enc))
      (Machine.pokeHbm a.1 at_ u.1, a.2 + bitOf u.2)) a).1 := by
    intro l
    induction l with
    | nil => intro a h; exact h
    | cons x r ih => intro a h; exact ih _ (h.pokeHbm _ _)
  have g := f (List.range c.count) (s, 0) h
  unfold Sys2Proof.Machine.reduceUnits
  extract_lets n r s1
  have g : Keeps z r.1 := g
  split
  · exact g
  · exact Keeps.ite (((g.gauge _ _ _).record _).curtain _ _) ((g.gauge _ _ _).record _)

theorem Keeps.reduceWide {z s : State} (h : Keeps z s) (t : Nat) (c : Car) :
    Keeps z (Sys2Proof.Machine.reduceWide t c s) := by
  unfold Sys2Proof.Machine.reduceWide
  simp (maxDischargeDepth := 40) only [h, Keeps.refl, Keeps.ite, implies_true, Keeps.curtain,
      Keeps.foldl, Keeps.pokeHbm, Keeps.scaleRecord]

theorem Keeps.reduceInto {z s : State} (h : Keeps z s) (t : Nat) (c : Car) :
    Keeps z (Sys2Proof.Machine.reduceInto t c s) := by
  unfold Sys2Proof.Machine.reduceInto
  simp (maxDischargeDepth := 40) only [h, Keeps.ite, Keeps.reduceUnits, Keeps.reduceWide]

end Sys2Proof.Machine
end

