-- ==== Sys2Proof/Laws/KeepsLines.lean ====
section
/-! SUPPORT. Carriages and control frames, steps, tests, resets, updates and rounds keep the queue of commands and soundness. -/

namespace Sys2Proof.Machine

open Sys2Proof

/-! ### Deliver -/

theorem Keeps.nakClosed {z s : State} (h : Keeps z s) (t l : Nat) (src : BlockAddr) (c : Car) :
    Keeps z (Sys2Proof.Machine.nakClosed t l src c s) := by
  unfold Sys2Proof.Machine.nakClosed
  simp (maxDischargeDepth := 40) only [h, Keeps.ite, Keeps.modLine, Keeps.sendNak]

theorem Keeps.unmatched {z s : State} (h : Keeps z s) (port l : Nat) (src : BlockAddr) (c : Car) :
    Keeps z (Sys2Proof.Machine.unmatched port l src c s) := by
  unfold Sys2Proof.Machine.unmatched
  simp (maxDischargeDepth := 40) only [h, Keeps.nakClosed, Keeps.portGauge]

theorem Keeps.staleEpoch {z s : State} (h : Keeps z s) (t l i : Nat) :
    Keeps z (Sys2Proof.Machine.staleEpoch t l i s) := by
  unfold Sys2Proof.Machine.staleEpoch
  dsimp only
  repeat' split
  all_goals first
    | exact h
    | simp (maxDischargeDepth := 40) only [h, Keeps.gauge,
      Keeps.modPeer, Keeps.sendNak]

theorem Keeps.gapFound {z s : State} (h : Keeps z s) (t l i : Nat) :
    Keeps z (Sys2Proof.Machine.gapFound t l i s) := by
  unfold Sys2Proof.Machine.gapFound
  dsimp only
  repeat' split
  all_goals first
    | exact h
    | simp (maxDischargeDepth := 40) only [h, Keeps.gauge,
      Keeps.modPeer, Keeps.sendNak]

theorem Keeps.settleResync {z s : State} (h : Keeps z s) (t : Nat) :
    Keeps z (Sys2Proof.Machine.settleResync t s) := by
  unfold Sys2Proof.Machine.settleResync
  simp (maxDischargeDepth := 40) only [h, Keeps.refl, Keeps.ite, implies_true, Keeps.foldl, Keeps.becomeChecked,
    Keeps.completeDeferred, Keeps.modTroupe, Keeps.retireAll]

theorem Keeps.takeTimes {z s : State} (h : Keeps z s) (t l i : Nat) (c : Car) :
    Keeps z (Sys2Proof.Machine.takeTimes t l i c s) := by
  unfold Sys2Proof.Machine.takeTimes
  extract_lets s1 r s2
  have h1 : Keeps z s1 := h.modPeer ..
  have hr : Keeps z r.1 := by
    show Keeps z (if _ then _ else _ : State × Nat).1
    split
    · exact h1.ackBefore ..
    · exact h1
  have h2 : Keeps z s2 := Keeps.ite (hr.sampleRtt ..) hr
  exact Keeps.ite (((h2.completeOps ..).fenceDone ..).settleResync ..) h2

theorem Keeps.shutLine {z s : State} (h : Keeps z s) (t l : Nat) :
    Keeps z (Sys2Proof.Machine.shutLine t l s) := by
  unfold Sys2Proof.Machine.shutLine
  simp (maxDischargeDepth := 40) only [h, Keeps.closeLine, Keeps.completeDeferred]

theorem Keeps.outsideWindow {z s : State} (h : Keeps z s) (t l : Nat) (src : BlockAddr) (c : Car) :
    Keeps z (Sys2Proof.Machine.outsideWindow t l src c s) := by
  unfold Sys2Proof.Machine.outsideWindow
  simp (maxDischargeDepth := 40) only [h, Keeps.record, Keeps.sendNak, Keeps.shutLine]

theorem Keeps.accepted {z s : State} (h : Keeps z s) (t l i : Nat) (c : Car) :
    Keeps z (Sys2Proof.Machine.accepted t l i c s) := by
  unfold Sys2Proof.Machine.accepted
  simp (maxDischargeDepth := 40) only [h, Keeps.ite, Keeps.modPeer, Keeps.sendAck]

/-- What a kind of carriage applies keeps the queue and soundness. -/
def Applies.kept (f : Applies) : Prop := ∀ t l i src c s s', f t l i src c s = some s' → Keeps s s'

theorem Keeps.takeCar {z s : State} (h : Keeps z s) {f : Applies} (hf : f.kept) (t l i : Nat) (src : BlockAddr) (c : Car) :
    Keeps z (Sys2Proof.Machine.takeCar f t l i src c s) := by
  unfold Sys2Proof.Machine.takeCar
  dsimp only
  split
  · exact h.outsideWindow ..
  · split
    · exact h
    · rename_i s' e
      have : Keeps z s' := by
        split at e
        · cases m : Sys2Proof.Machine.takeMirrorWrite t c (c.payload.take (contentBytes c)) s with
          | none => rw [m] at e; exact h.trans (hf _ _ _ _ _ _ _ e)
          | some y => rw [m] at e; cases e; exact h.takeMirrorWrite _ _ _ m
        · exact h.trans (hf _ _ _ _ _ _ _ e)
      exact this.accepted ..

theorem Keeps.sequenced {z s : State} (h : Keeps z s) {f : Applies} (hf : f.kept) (t l i : Nat) (src : BlockAddr)
    (c : Car) : Keeps z (Sys2Proof.Machine.sequenced f t l i src c s) := by
  unfold Sys2Proof.Machine.sequenced
  split
  · exact h.staleEpoch ..
  · extract_lets s1
    have h1 : Keeps z s1 := h.takeTimes ..
    repeat' split
    · exact h1
    · exact h1.takeCar hf ..
    · exact h1.sendAck ..
    · exact h1.gapFound ..

theorem Keeps.deliver {z s : State} (h : Keeps z s) {f : Applies} (hf : f.kept) (port : Nat) (bs : List Byte) :
    Keeps z (Sys2Proof.Machine.deliver f port bs s) := by
  unfold Sys2Proof.Machine.deliver
  extract_lets c t
  split
  · exact h.unmatched ..
  · extract_lets s1 ln lent
    have h1 : Keeps z s1 := h.checkLine ..
    split
    · exact h1.sequenced hf ..
    · exact h1.sequenced hf ..
    · exact Keeps.ite h1 (h1.staleEpoch ..)
    · exact Keeps.ite h1 (h1.staleEpoch ..)
    · exact h1.portGauge ..
    · exact h1.portGauge ..

theorem Keeps.takeDelta {z s : State} (h : Keeps z s) (t b : Nat) (x : Nat × QBlk × List F32) :
    Keeps z (Sys2Proof.Machine.takeDelta t b s x) := by
  unfold Sys2Proof.Machine.takeDelta
  refine Keeps.applyDelta ?_ _ _ _ _ _
  unfold deltaScale
  split
  · exact h.scaleRecord _
  · exact h

theorem Keeps.terminate {z s : State} (h : Keeps z s) {f : Applies} (hf : f.kept) (port : Nat) (g : List Byte) :
    Keeps z (Sys2Proof.Machine.terminate f port g s) := by
  unfold Sys2Proof.Machine.terminate
  exact Keeps.ite (h.bufferFrame _ _) (h.deliver hf _ _)

/-! ### LineEvents -/

theorem Keeps.onLine {z s : State} (h : Keeps z s) (f : List Byte) {k : Nat → Nat → Nat → State → State}
    (hk : ∀ t l i s, Keeps s (k t l i s)) : Keeps z (Sys2Proof.Machine.onLine f k s) := by
  unfold Sys2Proof.Machine.onLine
  split
  · exact h
  · exact (h.checkLine _ _).trans (hk _ _ _ _)

theorem Keeps.acknowledge {z s : State} (h : Keeps z s) (t l i : Nat) (before : BitVec 32) (f : List Byte) :
    Keeps z (Sys2Proof.Machine.acknowledge t l i before f s) := by
  unfold Sys2Proof.Machine.acknowledge
  extract_lets r s1
  have hr : Keeps z r.1 := h.ackBefore ..
  have h1 : Keeps z s1 := Keeps.ite (hr.sampleRtt ..) hr
  exact (((h1.completeOps ..).fenceDone ..).settleResync ..).enterLine ..

theorem Keeps.nakGap {z s : State} (h : Keeps z s) (t l i : Nat) (f : List Byte) :
    Keeps z (Sys2Proof.Machine.nakGap t l i f s) := by
  unfold Sys2Proof.Machine.nakGap
  simp (maxDischargeDepth := 40) only [h, Keeps.ite, Keeps.acknowledge, Keeps.goBackFrom, Keeps.modPeer]

theorem Keeps.answerKnock {z s : State} (h : Keeps z s) (port t l : Nat) (f : List Byte) (epoch : BitVec 16) (st : Status) (retry : Nat) :
    Keeps z (Sys2Proof.Machine.answerKnock port t l f epoch st retry s) := by
  unfold Sys2Proof.Machine.answerKnock
  simp (maxDischargeDepth := 40) only [h, Keeps.ite, Keeps.modPort, Keeps.sendAnswer]

theorem Keeps.refuseKnock {z s : State} (h : Keeps z s) (port t l : Nat) (f : List Byte) :
    Keeps z (Sys2Proof.Machine.refuseKnock port t l f s) := by
  unfold Sys2Proof.Machine.refuseKnock
  simp (maxDischargeDepth := 40) only [h, Keeps.answerKnock, Keeps.modHouse]

theorem Keeps.grant {z s : State} (h : Keeps z s) (port t l i : Nat) (f : List Byte) (epoch : BitVec 16) :
    Keeps z (Sys2Proof.Machine.grant port t l i f epoch s) := by
  unfold Sys2Proof.Machine.grant
  simp (maxDischargeDepth := 40) only [h, Keeps.answerKnock, Keeps.modPeer]

theorem Keeps.takeLater {z s : State} (h : Keeps z s) (port t l i : Nat) (f : List Byte) (epoch : BitVec 16) :
    Keeps z (Sys2Proof.Machine.takeLater port t l i f epoch s) := by
  unfold Sys2Proof.Machine.takeLater
  simp (maxDischargeDepth := 40) only [h, Keeps.ite, Keeps.askEpoch,
      Keeps.finalAcks, Keeps.grant, Keeps.openEpoch, Keeps.resetCurtain]

theorem Keeps.knockByState {z s : State} (h : Keeps z s) (port t l i : Nat) (f : List Byte) :
    Keeps z (Sys2Proof.Machine.knockByState port t l i f s) := by
  delta Sys2Proof.Machine.knockByState
  extract_lets ln req own again
  generalize ln.state.val = v
  generalize again = a
  cases v <;> cases a
  · exact h.refuseKnock ..
  · exact h.refuseKnock ..
  · exact h.grant ..
  · exact h.answerKnock ..
  · exact Keeps.ite (h.takeLater ..) ((h.sendFinal ..).grant ..)
  · exact h.answerKnock ..
  · exact h.grant ..
  · exact h.answerKnock ..
  · exact h.refuseKnock ..
  · exact h.refuseKnock ..
  · exact h.refuseKnock ..
  · exact h.refuseKnock ..

theorem Keeps.hearKnock {z s : State} (h : Keeps z s) (port : Nat) (f : List Byte) :
    Keeps z (Sys2Proof.Machine.hearKnock port f s) := by
  unfold Sys2Proof.Machine.hearKnock
  dsimp only
  repeat' split
  all_goals first
    | exact h
    | simp (maxDischargeDepth := 40) only [h, Keeps.answerKnock,
      Keeps.checkLine, Keeps.knockByState, Keeps.portGauge, Keeps.refuseKnock]

theorem Keeps.granted {z s : State} (h : Keeps z s) (t l i : Nat) (g : BitVec 16) :
    Keeps z (Sys2Proof.Machine.granted t l i g s) := by
  unfold Sys2Proof.Machine.granted
  extract_lets ln req s1
  have h1 : Keeps z s1 := h.modPeer _ _ _ _
  refine Keeps.ite h (Keeps.ite ((h.modLine _ _ _).knockAll _ _) ?_)
  split
  · exact h1.openEpoch _ _ _
  · exact h1

/-! ### Steps -/

theorem board_clearTensor (tr : Troupe) (tensor : Nat) : (clearTensor tr tensor).board = tr.board := by
  first
    | rfl
    | unfold clearTensor; (repeat' split) <;> simp [board_setCommitted]

theorem board_promoteAll (tr : Troupe) (n : Nat) : (promoteAll tr n).board = tr.board := by
  unfold promoteAll
  dsimp only
  repeat' split
  all_goals exact board_foldl (fun tr x => board_clearTensor ..) _ _

theorem Keeps.earlyCurtains {z s : State} (h : Keeps z s) (t n : Nat) :
    Keeps z (Sys2Proof.Machine.earlyCurtains t n s) := by
  unfold Sys2Proof.Machine.earlyCurtains
  simp (maxDischargeDepth := 40) only [h, Keeps.refl, implies_true, Keeps.curtain,
      Keeps.foldl, Keeps.modTroupe]

theorem Keeps.openStep {z s : State} (h : Keeps z s) (t m : Nat) (mask : BitVec 256) :
    Keeps z (Sys2Proof.Machine.openStep t m mask s) := by
  unfold Sys2Proof.Machine.openStep
  extract_lets n late s1 s2 s3 r s4
  have h1 : Keeps z s1 := h.modTroupe _ _ fun tr => board_foldl (by intros; rfl) _ _
  have h2 : Keeps z s2 := Keeps.foldl (fun s k => (Keeps.refl s).ledgerStore _ _) _ h1
  have h3 : Keeps z s3 := h2.modTroupe _ _ fun tr => board_promoteAll tr n
  have h4 : Keeps z s4 := h3.modTroupe _ _ fun tr => board_setPending ..
  exact ((h4.gauge _ _ _).ledgerOpen _ _).earlyCurtains _ _

theorem Keeps.serveHeld {z s : State} (h : Keeps z s) (t : Nat) :
    Keeps z (Sys2Proof.Machine.serveHeld t s) := by
  unfold Sys2Proof.Machine.serveHeld
  split
  · exact h
  · refine Keeps.ite h ?_
    split
    · exact h.run _
    · exact (h.openStep _ _ _).run _

/-! ### Test -/

theorem Keeps.unitGauge {z s : State} (h : Keeps z s) (u off : Nat) :
    Keeps z (Sys2Proof.Machine.unitGauge s u off) := by
  unfold Sys2Proof.Machine.unitGauge
  simp (maxDischargeDepth := 40) only [h, Keeps.houseGauge]

theorem Keeps.failureTold {z s : State} (h : Keeps z s) (u : Nat) :
    Keeps z (Sys2Proof.Machine.failureTold u s) := by
  unfold Sys2Proof.Machine.failureTold
  exact h.record _

theorem Keeps.failureRecord {z s : State} (h : Keeps z s) (u : Nat) :
    Keeps z (Sys2Proof.Machine.failureRecord u s) := (h.unitGauge _ _).failureTold _

theorem Keeps.endTest {z s : State} (h : Keeps z s) (u : Nat) (pass : Bool) :
    Keeps z (Sys2Proof.Machine.endTest u pass s) := by
  unfold Sys2Proof.Machine.endTest
  simp (maxDischargeDepth := 40) only [h, Keeps.modUnit, Keeps.run]

theorem Keeps.failUnit {z s : State} (h : Keeps z s) (u : Nat) :
    Keeps z (Sys2Proof.Machine.failUnit u s) := by
  unfold Sys2Proof.Machine.failUnit
  simp (maxDischargeDepth := 40) only [h, Keeps.ite, Keeps.endTest, Keeps.unitGauge, Keeps.modUnit]

theorem Keeps.sliceFound {z s : State} (h : Keeps z s) (u vector : Nat) (r : SliceResult) :
    Keeps z (Sys2Proof.Machine.sliceFound u vector r s) := by
  cases r with
  | right =>
    exact Keeps.ite (((h.modUnit _ _).unitGauge _ _).unitGauge _ _) ((h.modUnit _ _).unitGauge _ _)
  | wrong => exact Keeps.ite ((h.unitGauge _ _).failUnit _) ((h.unitGauge _ _).modUnit _ _)
  | abandoned => exact h.unitGauge _ _
  | brokenVector => exact (h.modUnit _ _).record _

theorem Keeps.rehearsalEnd {z s : State} (h : Keeps z s) (u : Nat) (pass : Bool) :
    Keeps z (Sys2Proof.Machine.rehearsalEnd u pass s) := by
  unfold Sys2Proof.Machine.rehearsalEnd
  dsimp only
  repeat' split
  all_goals first
    | exact h
    | simp (maxDischargeDepth := 40) only [h, Keeps.endTest,
      Keeps.failUnit, Keeps.failureRecord, Keeps.modUnit]

/-! ### Bringup -/

/-- A reset leaves the queue, and a state that is sound if the memories that it does not clear are. -/

theorem Keeps.resetBlock {z s : State} (h : Keeps z s) (chip : Bool) :
    Keeps z (Sys2Proof.Machine.resetBlock chip s) := by
  refine h.trans ⟨rfl, fun x => ⟨?_, Nat.zero_le _, (by decide : ((0 : BitVec 32) - errReadVal {}).toNat ≤ 256)⟩⟩
  have m := (memoriesWf_iff s).1 x.memories
  refine (memoriesWf_iff _).2 ⟨m.1, m.2.1, m.2.2.1, fun e he => ?_⟩
  have he : e ∈ [((0 : Nat), ({} : Troupe))] := he
  rw [List.mem_singleton] at he
  subst he; rfl

/-! ### Opt -/

theorem Keeps.exportAll {z : State} (tr : Troupe) : ∀ (l : List Nat) (k : Nat) {s : State}, Keeps z s →
    Keeps z (Sys2Proof.Machine.exportAll tr l k s)
  | [], _, _, h => h
  | _ :: r, _, _, h => Keeps.exportAll tr r _ (h.pokeHbm _ _)

/-! ### Update -/

theorem Keeps.useParams {z s : State} (h : Keeps z s) (t tensor : Nat) :
    Keeps z (Sys2Proof.Machine.useParams t tensor s) := by
  unfold Sys2Proof.Machine.useParams
  simp (maxDischargeDepth := 40) only [h, Keeps.refl, implies_true, Keeps.foldl,
      Keeps.modTroupe, Keeps.record]

theorem Keeps.formDeltas {z s : State} (h : Keeps z s) (t b : Nat) (te : Nat × Nat × Nat × Bool) (blocks : List Nat) :
    Keeps z (Sys2Proof.Machine.formDeltas t b te blocks s) := by
  unfold Sys2Proof.Machine.formDeltas
  try dsimp only
  repeat' split
  all_goals first
    | exact h
    | simp (maxDischargeDepth := 40) only [h, Keeps.modWork, Keeps.useEntry]

theorem Keeps.spendDigest {z s : State} (h : Keeps z s) (pits : Nat) (te : Nat × Nat × Nat × Bool)
    (blocks : List Nat) :
    Keeps z (Sys2Proof.Machine.spendDigest pits te blocks s) := by
  unfold Sys2Proof.Machine.spendDigest
  simp (maxDischargeDepth := 40) only [h, Keeps.refl, implies_true, Keeps.foldl,
      Keeps.spendShare]

theorem Keeps.writeSlot {z s : State} (h : Keeps z s) (t n : Nat) :
    Keeps z (Sys2Proof.Machine.writeSlot t n s) := by
  unfold Sys2Proof.Machine.writeSlot
  simp (maxDischargeDepth := 40) only [h, Keeps.ite, implies_true, Keeps.modTroupe, Keeps.pokeHost]

theorem Keeps.commitSlots {z s : State} (h : Keeps z s) (t n : Nat) :
    Keeps z (Sys2Proof.Machine.commitSlots t n s) := by
  unfold Sys2Proof.Machine.commitSlots
  simp (maxDischargeDepth := 40) only [h, implies_true, Keeps.modTroupe, Keeps.writeSlot]

/-! ### Reset -/

theorem Keeps.enterIntermission {z s : State} (h : Keeps z s) (t : Nat) :
    Keeps z (Sys2Proof.Machine.enterIntermission t s) := by
  unfold Sys2Proof.Machine.enterIntermission
  simp (maxDischargeDepth := 40) only [h, implies_true, Keeps.completeDeferred, Keeps.modTroupe]

theorem Keeps.retireStep {z s : State} (h : Keeps z s) (t : Nat) (n : Nat) :
    Keeps z (Sys2Proof.Machine.retireStep t s n) := by
  unfold Sys2Proof.Machine.retireStep
  simp (maxDischargeDepth := 40) only [h, Keeps.ite, implies_true, Keeps.becomeChecked,
      Keeps.ledgerStore, Keeps.modTroupe, board_modStep]

theorem Keeps.retireDue {z s : State} (h : Keeps z s) (t : Nat) :
    Keeps z (Sys2Proof.Machine.retireDue t s) := by
  unfold Sys2Proof.Machine.retireDue
  simp (maxDischargeDepth := 40) only [h, Keeps.refl, implies_true, Keeps.foldl,
      Keeps.retireStep]

theorem Keeps.updateCut {z s : State} (h : Keeps z s) (t : Nat) :
    Keeps z (Sys2Proof.Machine.updateCut t s) := by
  unfold Sys2Proof.Machine.updateCut
  simp (maxDischargeDepth := 40) only [h, Keeps.refl, implies_true, Keeps.becomeUpdated,
      Keeps.foldl]

theorem board_resetBank (tr : Troupe) : (resetBank tr).board = tr.board := by
  first
    | rfl
    | unfold resetBank; (repeat' split) <;> simp [board_modStep]

theorem board_resetVersion (tr : Troupe) : (resetVersion tr).board = tr.board := by
  first
    | rfl
    | unfold resetVersion; (repeat' split) <;> simp []

theorem board_clearTroupe (tr : Troupe) : (clearTroupe tr).board = tr.board := by
  first
    | rfl
    | unfold clearTroupe; (repeat' split) <;> simp [board_resetBank, board_resetVersion]

theorem Keeps.refillQueue {z s : State} (h : Keeps z s) (t : Nat) :
    Keeps z (Sys2Proof.Machine.refillQueue t s) := by
  unfold Sys2Proof.Machine.refillQueue
  simp (maxDischargeDepth := 40) only [h, implies_true, Keeps.modHouse,
      Keeps.modTroupe]

theorem Keeps.runReset {z s : State} (h : Keeps z s) (t : Nat) :
    Keeps z (Sys2Proof.Machine.runReset t s) := by
  unfold Sys2Proof.Machine.runReset
  simp (maxDischargeDepth := 40) only [h, Keeps.refl, Keeps.ite, implies_true, Keeps.completeDeferred,
      Keeps.curtain, Keeps.dropLines, Keeps.foldl, Keeps.freeWindow, Keeps.ledgerStore, Keeps.modTroupe,
      Keeps.refillQueue, Keeps.retireDue, Keeps.updateCut, board_clearTroupe]

theorem Keeps.deleteTroupe {z s : State} (h : Keeps z s) (t : Nat) :
    Keeps z (Sys2Proof.Machine.deleteTroupe t s) := by
  unfold Sys2Proof.Machine.deleteTroupe
  extract_lets s1
  have h1 : Keeps z s1 := Keeps.foldl (fun s e => (Keeps.refl s).freeWindow _ _) _ h
  exact h1.trans (Keeps.boards rfl rfl rfl rfl rfl fun w e he => w e (List.mem_filter.1 he).1)

theorem Keeps.finishReset {z s : State} (h : Keeps z s) (t : Nat) :
    Keeps z (Sys2Proof.Machine.finishReset t s) := by
  unfold Sys2Proof.Machine.finishReset
  simp (maxDischargeDepth := 40) only [h, Keeps.ite, implies_true, Keeps.completeDeferred, Keeps.deleteTroupe,
    Keeps.enterIntermission, Keeps.modTroupe]

theorem Keeps.resetRun {z s : State} (h : Keeps z s) (t : Nat) :
    Keeps z (Sys2Proof.Machine.resetRun t s) := by
  unfold Sys2Proof.Machine.resetRun
  simp (maxDischargeDepth := 40) only [h, Keeps.ite, Keeps.runReset]

theorem Keeps.resetStep {z s : State} (h : Keeps z s) (t : Nat) :
    Keeps z (Sys2Proof.Machine.resetStep t s) := by
  unfold Sys2Proof.Machine.resetStep
  simp (maxDischargeDepth := 40) only [h, Keeps.ite, Keeps.finishReset,
      Keeps.resetRun, Keeps.retireDue]

theorem Keeps.beginTroupeReset {z s : State} (h : Keeps z s) (t : Nat) :
    Keeps z (Sys2Proof.Machine.beginTroupeReset t s) := by
  unfold Sys2Proof.Machine.beginTroupeReset
  simp (maxDischargeDepth := 40) only [h, implies_true, Keeps.modTroupe, Keeps.resetRun]

/-! ### Commit -/

theorem board_flipVersion (tr : Troupe) : (flipVersion tr).board = tr.board := by
  first
    | rfl
    | unfold flipVersion; (repeat' split) <;> simp []

theorem board_flipBank (n : Nat) (tr : Troupe) : (flipBank n tr).board = tr.board := by
  first
    | rfl
    | unfold flipBank; (repeat' split) <;> simp []

theorem board_currentHistograms (tr : Troupe) : (currentHistograms tr).board = tr.board := by
  first
    | rfl
    | unfold currentHistograms; (repeat' split) <;> simp []

theorem board_commitScale (tr : Troupe) (g : Graph) (e : Nat × Nat × Nat × Bool) : (commitScale tr g e).board = tr.board := by
  unfold commitScale
  extract_lets et sc falls clean back tr1
  have k : tr1.board = tr.board := board_modScale ..
  split
  · exact board_modScale ..
  · split
    · exact (board_setFallback ..).trans k
    · exact k

theorem board_commitScales (tr : Troupe) : (commitScales tr).board = tr.board := by
  unfold commitScales
  refine board_foldl (fun acc ge => ?_) _ _
  split
  · rfl
  · exact board_foldl (by intros; rfl) _ _

theorem Keeps.applyOwn {z s : State} (h : Keeps z s) (t : Nat) :
    Keeps z (Sys2Proof.Machine.applyOwn t s) := by
  unfold Sys2Proof.Machine.applyOwn
  simp (maxDischargeDepth := 40) only [h, Keeps.refl, implies_true, Keeps.foldl, Keeps.applyDelta]

theorem Keeps.commitStep {z s : State} (h : Keeps z s) (t n : Nat) :
    Keeps z (Sys2Proof.Machine.commitStep t n s) := by
  unfold Sys2Proof.Machine.commitStep
  extract_lets s1 delayed s2 s3 s4 s5 s6 s7 s8 s9
  have h1 : Keeps z s1 := (h.useVersion t).useBank t
  have h2 : Keeps z s2 := h1.modTroupe _ _ fun tr => rfl
  have h3 : Keeps z s3 := h2.modTroupe _ _ fun tr => by
    rw [board_commitScales, board_currentHistograms, board_flipBank, board_flipVersion]
  have h4 : Keeps z s4 := h3.modTroupe _ _ fun tr => rfl
  have h5 : Keeps z s5 := h4.commitSlots t n
  have h6 : Keeps z s6 := h5.modTroupe _ _ fun tr => rfl
  have h7 : Keeps z s7 := by
    simp only [s7]
    split
    · exact h6.mirrorCommit _ _ _
    · exact h6
  have h8 : Keeps z s8 := Keeps.foldl (fun s e => (Keeps.refl s).freeWindow _ _) _ h7
  have h9 : Keeps z s9 := h8.modTroupe _ _ fun tr => rfl
  exact ((h9.gauge _ _ _).applyOwn t).settleGather t

theorem board_dropFrom (gone : OutFrame → Bool) (tr : Troupe) (k : Nat × Nat) : (dropFrom gone tr k).board = tr.board := by
  first
    | rfl
    | unfold dropFrom; (repeat' split) <;> simp []

theorem Keeps.dropFrames {z s : State} (h : Keeps z s) (t : Nat) (gone : OutFrame → Bool) :
    Keeps z (Sys2Proof.Machine.dropFrames t gone s) :=
  h.modTroupe _ _ fun tr => board_foldl (fun tr x => board_dropFrom ..) _ _

theorem Keeps.dropStep {z s : State} (h : Keeps z s) (t n : Nat) :
    Keeps z (Sys2Proof.Machine.dropStep t n s) := by
  unfold Sys2Proof.Machine.dropStep
  simp (maxDischargeDepth := 40) only [h, Keeps.refl, implies_true, Keeps.completeOps,
      Keeps.dropFrames, Keeps.enterAll, Keeps.foldl]

theorem Keeps.startFallback {z s : State} (h : Keeps z s) (t n b : Nat) :
    Keeps z (Sys2Proof.Machine.startFallback t n b s) := by
  unfold Sys2Proof.Machine.startFallback
  simp (maxDischargeDepth := 40) only [h, Keeps.ite, implies_true, Keeps.modTroupe, Keeps.settleFallback]

theorem board_pruneRounds (tr : Troupe) : (pruneRounds tr).board = tr.board := by
  first
    | rfl
    | unfold pruneRounds; (repeat' split) <;> simp []

theorem Keeps.releaseHeld {z s : State} (h : Keeps z s) (t n : Nat) :
    Keeps z (Sys2Proof.Machine.releaseHeld t n s) := by
  unfold Sys2Proof.Machine.releaseHeld
  simp (maxDischargeDepth := 40) only [h, Keeps.refl, implies_true, Keeps.foldl,
      Keeps.modTroupe, Keeps.releaseChunks, Keeps.releaseSlot]

theorem Keeps.skipStep {z s : State} (h : Keeps z s) (t n : Nat) :
    Keeps z (Sys2Proof.Machine.skipStep t n s) := by
  unfold Sys2Proof.Machine.skipStep
  extract_lets s1 s2 s3 s4 s5 s6 s7 s8
  have h1 : Keeps z s1 := h.modTroupe _ _ fun tr => rfl
  have h4 : Keeps z s4 := ((h1.gauge _ _ _).dropStep _ _).releaseHeld _ _
  have h5 : Keeps z s5 := Keeps.foldl (fun s e => (Keeps.refl s).freeWindow _ _) _ h4
  have h6 : Keeps z s6 := by
    simp only [s6]
    split
    · exact h5.mirrorCommit _ _ _
    · exact h5
  have h7 : Keeps z s7 := h6.modTroupe _ _ fun tr => board_pruneRounds tr
  have h8 : Keeps z s8 := Keeps.foldl (fun s b => (Keeps.refl s).startFallback _ _ _) _ h7
  exact h8.becomeUpdated _ _

theorem Keeps.applyOutcome {z s : State} (h : Keeps z s) (t n : Nat) :
    Keeps z (Sys2Proof.Machine.applyOutcome t n s) := by
  unfold Sys2Proof.Machine.applyOutcome
  split
  · exact h
  · extract_lets s1
    have h1 : Keeps z s1 := Keeps.ite (h.commitStep _ _) (h.skipStep _ _)
    exact Keeps.resetStep (Keeps.ite (h1.enterIntermission _) h1) _

theorem Keeps.ensureStep {z s : State} (h : Keeps z s) (t n : Nat) :
    Keeps z (Sys2Proof.Machine.ensureStep t n s) := by
  unfold Sys2Proof.Machine.ensureStep
  simp (maxDischargeDepth := 40) only [h, Keeps.ite, implies_true, Keeps.modTroupe]

theorem Keeps.callFirst {z s : State} (h : Keeps z s) (t n : Nat) :
    Keeps z (Sys2Proof.Machine.callFirst t n s) := by
  unfold Sys2Proof.Machine.callFirst
  simp (maxDischargeDepth := 40) only [h, Keeps.ite, implies_true, Keeps.ledgerStore,
      Keeps.modTroupe, board_modStep]

theorem Keeps.decideStep {z s : State} (h : Keeps z s) (t n : Nat) (outcome : Bool) (commitTick : Nat)
    (start : Option (Nat × Nat)) :
    Keeps z (Sys2Proof.Machine.decideStep t n outcome commitTick start s) := by
  unfold Sys2Proof.Machine.decideStep
  extract_lets s1 s2
  have h1 : Keeps z s1 := (h.ensureStep t n).callFirst t n
  have h2 : Keeps z s2 := h1.modTroupe _ _ (by intro; rfl)
  exact h2.resetStep t

theorem Keeps.sendCall {z s : State} (h : Keeps z s) (t port : Nat) :
    Keeps z (Sys2Proof.Machine.sendCall t port s) := by
  unfold Sys2Proof.Machine.sendCall
  repeat' split
  all_goals first
    | exact h
    | simp (maxDischargeDepth := 40) only [h, implies_true, Keeps.modTroupe,
      Keeps.sendLink]

theorem Keeps.sendCalls {z s : State} (h : Keeps z s) (t : Nat) :
    Keeps z (Sys2Proof.Machine.sendCalls t s) := by
  unfold Sys2Proof.Machine.sendCalls
  repeat' split
  all_goals first
    | exact h
    | simp (maxDischargeDepth := 40) only [h, Keeps.refl, implies_true, Keeps.foldl,
      Keeps.sendCall]

theorem Keeps.takeResult {z s : State} (h : Keeps z s) (t : Nat) (c m : Bool) :
    Keeps z (Sys2Proof.Machine.takeResult t c m s) := by
  unfold Sys2Proof.Machine.takeResult
  repeat' split
  all_goals first
    | exact h
    | simp (maxDischargeDepth := 40) only [h, Keeps.ite, implies_true, Keeps.decideStep,
      Keeps.modTroupe]

theorem Keeps.advanceRound {z : State} (t : Nat) : ∀ (n : Nat) {s : State}, Keeps z s →
    Keeps z (Sys2Proof.Machine.advanceRound t n s)
  | 0, _, h => h
  | n + 1, s, h => by
    rw [Sys2Proof.Machine.advanceRound]
    split
    · exact h
    · split
      · exact h
      · extract_lets c m
        split
        · exact Keeps.advanceRound t n (Keeps.sendCalls (h.modTroupe _ _ (by intro; rfl)) _)
        · exact h.takeResult _ _ _

theorem Keeps.launchRound {z s : State} (h : Keeps z s) (t launch : Nat) :
    Keeps z (Sys2Proof.Machine.launchRound t launch s) := by
  unfold Sys2Proof.Machine.launchRound
  simp (maxDischargeDepth := 40) only [h, Keeps.ite, implies_true, Keeps.modTroupe, Keeps.sendCalls, Keeps.takeResult]

theorem board_endRound (tr : Troupe) : (endRound tr).board = tr.board := by
  first
    | rfl
    | unfold endRound; (repeat' split) <;> simp []

theorem Keeps.tickRound {z s : State} (h : Keeps z s) (t : Nat) :
    Keeps z (Sys2Proof.Machine.tickRound t s) := by
  unfold Sys2Proof.Machine.tickRound
  extract_lets s1 tr
  have e : ∀ tr, (endRound tr).board = tr.board := by
    intro tr; unfold endRound; split <;> rfl
  have h1 : Keeps z s1 := h.modTroupe _ _ fun tr => by
    extract_lets tr1
    have k : tr1.board = tr.board := by
      simp only [tr1]
      split
      · rfl
      · exact e tr
    split
    · exact k
    · exact k
  exact Keeps.ite (h1.launchRound _ _) h1

theorem Keeps.adopt {z s : State} (h : Keeps z s) (t : Nat) (outcome : Bool) (low : Nat) :
    Keeps z (Sys2Proof.Machine.adopt t outcome low s) := by
  unfold Sys2Proof.Machine.adopt
  simp (maxDischargeDepth := 40) only [h, implies_true, Keeps.applyOutcome, Keeps.decideStep, Keeps.gauge,
    Keeps.modTroupe, board_modStep]

theorem Keeps.takeHop {z s : State} (h : Keeps z s) (t port hop : Nat) (c m : Bool) :
    Keeps z (Sys2Proof.Machine.takeHop t port hop c m s) := by
  unfold Sys2Proof.Machine.takeHop
  repeat' split
  all_goals first
    | exact h
    | simp (maxDischargeDepth := 40) only [h, implies_true, Keeps.advanceRound,
      Keeps.modTroupe, Keeps.sendCall]

theorem Keeps.joinRound {z s : State} (h : Keeps z s) (t launch : Nat) :
    Keeps z (Sys2Proof.Machine.joinRound t launch s) := by
  unfold Sys2Proof.Machine.joinRound
  try dsimp only
  repeat' split
  all_goals first
    | exact h
    | simp (maxDischargeDepth := 40) only [h, implies_true, Keeps.launchRound,
      Keeps.modTroupe, board_endRound]

theorem Keeps.hearCall {z s : State} (h : Keeps z s) (port : Nat) (f : List Byte) :
    Keeps z (Sys2Proof.Machine.hearCall port f s) := by
  unfold Sys2Proof.Machine.hearCall
  dsimp only
  split
  · have k : ∀ t launch a c,
      Keeps z (if bodyField f 3 6 = roundStep (troupe (Sys2Proof.Machine.joinRound t launch s) t) + 1 then
        Sys2Proof.Machine.launchRound t launch (Sys2Proof.Machine.adopt t a c
    (Sys2Proof.Machine.joinRound t launch s))
        else Sys2Proof.Machine.joinRound t launch s) :=
      fun t launch a c => Keeps.ite (((Keeps.joinRound h _ _).adopt _ _ _).launchRound _ _) (Keeps.joinRound h _ _)
    exact Keeps.ite h (Keeps.ite ((k _ _ _ _).takeHop _ _ _ _ _) (k _ _ _ _))
  · exact h

end Sys2Proof.Machine
end

