-- ==== Sys2Proof/Laws/KeepsHouse.lean ====
section
/-! SUPPORT. Spares, links, relays, sending, the tick and the register window keep the queue of commands and soundness. -/

namespace Sys2Proof.Machine

open Sys2Proof

/-! ### Spare -/

theorem Keeps.markCopy {z s : State} (h : Keeps z s) (t : Nat) :
    Keeps z (Sys2Proof.Machine.markCopy t s) := by
  unfold Sys2Proof.Machine.markCopy
  simp (maxDischargeDepth := 40) only [h, implies_true, Keeps.modTroupe]

theorem Keeps.sendCopy {z s : State} (h : Keeps z s) (t : Nat) :
    Keeps z (Sys2Proof.Machine.sendCopy t s) := by
  unfold Sys2Proof.Machine.sendCopy
  simp (maxDischargeDepth := 40) only [h, Keeps.refl, implies_true, Keeps.foldl, Keeps.markCopy, Keeps.mirrorWrite]

theorem Keeps.resyncStep {z s : State} (h : Keeps z s) (t : Nat) :
    Keeps z (Sys2Proof.Machine.resyncStep t s) := by
  unfold Sys2Proof.Machine.resyncStep
  simp (maxDischargeDepth := 40) only [h, Keeps.ite, Keeps.deferred, Keeps.sendCopy]

theorem Keeps.standLine {z s : State} (h : Keeps z s) (t : Nat) (lost : BlockAddr) (l : Nat) :
    Keeps z (Sys2Proof.Machine.standLine t lost l s) := by
  unfold Sys2Proof.Machine.standLine
  simp (maxDischargeDepth := 40) only [h, Keeps.ite, Keeps.knockAll, Keeps.modLine, Keeps.openEpoch]

theorem Keeps.standApply {z s : State} (h : Keeps z s) (t : Nat) : Keeps z (Sys2Proof.Machine.standApply t s) := by
  refine h.modTroupe _ _ fun tr => ?_
  repeat' split
  · exact board_mirrorApply ..
  · rfl
  · rfl

theorem Keeps.standSend {z s : State} (h : Keeps z s) (t b pos : Nat) (deltas : Tab (QBlk × List F32)) (r : Nat) :
    Keeps z (Sys2Proof.Machine.standSend t b pos deltas r s) := by
  refine Keeps.foldl (fun s e => ?_) _ h
  dsimp only
  split
  · exact Keeps.refl s
  · exact (Keeps.refl s).queueCars _ _ _ _ _ _

theorem Keeps.standBucket {z s : State} (h : Keeps z s) (t : Nat) (lost : BlockAddr) (b : Nat) :
    Keeps z (Sys2Proof.Machine.standBucket t lost b s) := by
  unfold Sys2Proof.Machine.standBucket
  try dsimp only
  repeat' split
  all_goals first
    | exact h
    | simp (maxDischargeDepth := 40) only [h, Keeps.refl, implies_true, Keeps.foldl,
      Keeps.standSend, Keeps.takeDelta]

theorem Keeps.dropStand {z s : State} (h : Keeps z s) (t : Nat) :
    Keeps z (Sys2Proof.Machine.dropStand t s) := by
  unfold Sys2Proof.Machine.dropStand
  simp (maxDischargeDepth := 40) only [h, implies_true, Keeps.modTroupe]

theorem Keeps.standStep {z s : State} (h : Keeps z s) (t : Nat) :
    Keeps z (Sys2Proof.Machine.standStep t s) := by
  unfold Sys2Proof.Machine.standStep
  repeat' split
  all_goals first
    | exact h
    | simp (maxDischargeDepth := 40) only [h, Keeps.refl, Keeps.ite, implies_true, Keeps.foldl,
      Keeps.completeDeferred, Keeps.dropStand, Keeps.modMirror, Keeps.settleGather, Keeps.standApply,
      Keeps.standBucket]

theorem Keeps.sendSpan {z s : State} (h : Keeps z s) (t tensor k : Nat) :
    Keeps z (Sys2Proof.Machine.sendSpan t tensor k s) := by
  unfold Sys2Proof.Machine.sendSpan
  simp (maxDischargeDepth := 40) only [h, Keeps.mirrorWrite]

theorem Keeps.trickleStep {z s : State} (h : Keeps z s) (t : Nat) :
    Keeps z (Sys2Proof.Machine.trickleStep t s) := by
  unfold Sys2Proof.Machine.trickleStep
  dsimp only
  repeat' split
  all_goals first
    | exact h
    | simp (maxDischargeDepth := 40) only [h, implies_true, Keeps.modMirror,
      Keeps.modTroupe, Keeps.queueCars, Keeps.sendSpan, Keeps.useBank]

/-! ### Encore -/

theorem Keeps.takeoverRecord {z s : State} (h : Keeps z s) (t : Nat) (p : Pulled) (count : Nat) :
    Keeps z (Sys2Proof.Machine.takeoverRecord t p count s) := by
  unfold Sys2Proof.Machine.takeoverRecord
  dsimp only
  repeat' split
  all_goals first
    | exact h
    | simp (maxDischargeDepth := 40) only [h, implies_true, Keeps.modTroupe,
      Keeps.poke]

theorem Keeps.takeHeld {z s : State} (h : Keeps z s) (t tensor blk : Nat) (xs : List F32) :
    Keeps z (Sys2Proof.Machine.takeHeld t tensor blk xs s) := by
  unfold Sys2Proof.Machine.takeHeld
  dsimp only
  repeat' split
  all_goals first
    | exact h
    | simp (maxDischargeDepth := 40) only [h, Keeps.pokeHbm]

theorem board_encoreState (tr : Troupe) (p : Pulled) (area : Tab TState) :
    (encoreState tr p area).board = tr.board :=
  (board_foldl (fun tr i => board_setFallback ..) _ _).trans (board_foldl (fun tr e => board_modScale ..) _ _)

theorem Keeps.encoreOk {z s : State} (h : Keeps z s) (t : Nat) (p : Pulled) (x : Replayed) :
    Keeps z (Sys2Proof.Machine.encoreOk t p x s) := by
  unfold Sys2Proof.Machine.encoreOk
  simp (maxDischargeDepth := 40) only [h, Keeps.refl, implies_true, Keeps.foldl, Keeps.completeDeferred,
    Keeps.modTroupe, Keeps.takeHeld, Keeps.takeoverRecord, board_encoreState]

theorem Keeps.encoreBad {z s : State} (h : Keeps z s) (t : Nat) (bad : Nat × List Nat) :
    Keeps z (Sys2Proof.Machine.encoreBad t bad s) := by
  unfold Sys2Proof.Machine.encoreBad
  simp (maxDischargeDepth := 40) only [h, implies_true, Keeps.completeDeferred, Keeps.dropLines, Keeps.modTroupe,
    Keeps.record]

theorem Keeps.encoreStep {z s : State} (h : Keeps z s) (t : Nat) : Keeps z (Sys2Proof.Machine.encoreStep t s) := by
  refine h.modTroupe _ _ fun tr => ?_
  split <;> rfl

/-! ### Ports -/

theorem Keeps.goDark {z s : State} (h : Keeps z s) (port : Nat) :
    Keeps z (Sys2Proof.Machine.goDark port s) := by
  unfold Sys2Proof.Machine.goDark
  simp (maxDischargeDepth := 40) only [h, Keeps.modPort]

theorem Keeps.relight {z s : State} (h : Keeps z s) (port : Nat) :
    Keeps z (Sys2Proof.Machine.relight port s) := by
  unfold Sys2Proof.Machine.relight
  simp (maxDischargeDepth := 40) only [h, Keeps.ite, Keeps.modPort]

theorem Keeps.thawLines {z s : State} (h : Keeps z s) (port from_ : Nat) :
    Keeps z (Sys2Proof.Machine.thawLines port from_ s) := by
  unfold Sys2Proof.Machine.thawLines
  simp (maxDischargeDepth := 40) only [h, implies_true, Keeps.mapTroupes]

theorem Keeps.lightUp {z s : State} (h : Keeps z s) (port : Nat) :
    Keeps z (Sys2Proof.Machine.lightUp port s) := by
  unfold Sys2Proof.Machine.lightUp
  simp (maxDischargeDepth := 40) only [h, Keeps.modPort, Keeps.portGauge, Keeps.sendLink, Keeps.thawLines]

theorem Keeps.sendDim {z s : State} (h : Keeps z s) (port phase : Nat) (n : BitVec 16) (dark : Nat) :
    Keeps z (Sys2Proof.Machine.sendDim port phase n dark s) := by
  unfold Sys2Proof.Machine.sendDim
  simp (maxDischargeDepth := 40) only [h, Keeps.sendLink]

theorem Keeps.hearPropose {z s : State} (h : Keeps z s) (port : Nat) (src : BlockAddr) (n : BitVec 16) (dark : Nat) :
    Keeps z (Sys2Proof.Machine.hearPropose port src n dark s) := by
  unfold Sys2Proof.Machine.hearPropose
  simp (maxDischargeDepth := 40) only [h, Keeps.ite, Keeps.modPort, Keeps.sendDim]

theorem Keeps.hearDim {z s : State} (h : Keeps z s) (port : Nat) (f : List Byte) :
    Keeps z (Sys2Proof.Machine.hearDim port f s) := by
  unfold Sys2Proof.Machine.hearDim
  repeat' split
  all_goals first
    | exact h
    | simp (maxDischargeDepth := 40) only [h, Keeps.ite, Keeps.hearPropose,
      Keeps.modPort]

theorem Keeps.asked {z s : State} (h : Keeps z s) (port idle : Nat) (f : List Byte) :
    Keeps z (Sys2Proof.Machine.asked port idle f s) := by
  unfold Sys2Proof.Machine.asked
  simp (maxDischargeDepth := 40) only [h, Keeps.ite, Keeps.modPort]

theorem Keeps.failRounds {z s : State} (h : Keeps z s) (port : Nat) :
    Keeps z (Sys2Proof.Machine.failRounds port s) := by
  unfold Sys2Proof.Machine.failRounds
  simp (maxDischargeDepth := 40) only [h, implies_true, Keeps.mapTroupes, Keeps.curtainAll]

theorem Keeps.endPortReset {z s : State} (h : Keeps z s) (port : Nat) (st : Status) :
    Keeps z (Sys2Proof.Machine.endPortReset port st s) := by
  unfold Sys2Proof.Machine.endPortReset
  simp (maxDischargeDepth := 40) only [h, Keeps.modPort, Keeps.run]

theorem Keeps.freezeMirrors {z s : State} (h : Keeps z s) :
    Keeps z (Sys2Proof.Machine.freezeMirrors s) := by
  exact h.mapTroupes (fun e =>
    (e.1, if partnerLost s e.2 then { e.2 with mirror := { e.2.mirror with frozen := true } } else e.2))
    fun e => by dsimp only; split <;> rfl

theorem Keeps.failPort {z s : State} (h : Keeps z s) (port : Nat) :
    Keeps z (Sys2Proof.Machine.failPort port s) := by
  unfold Sys2Proof.Machine.failPort
  simp (maxDischargeDepth := 40) only [h, Keeps.dropQueues,
      Keeps.endPortReset, Keeps.failRounds, Keeps.freezeMirrors, Keeps.modPort, Keeps.record]

/-! ### Relay -/

theorem Keeps.takePause {z s : State} (h : Keeps z s) (port prio time : Nat) :
    Keeps z (Sys2Proof.Machine.takePause port prio time s) := by
  unfold Sys2Proof.Machine.takePause
  simp (maxDischargeDepth := 40) only [h, Keeps.ite, Keeps.modPort, Keeps.portGauge]

theorem Keeps.overflowRecord {z s : State} (h : Keeps z s) (port : Nat) :
    Keeps z (Sys2Proof.Machine.overflowRecord port s) := by
  unfold Sys2Proof.Machine.overflowRecord
  simp (maxDischargeDepth := 40) only [h, Keeps.ite, Keeps.log, le_refl, Keeps.record, Keeps.suppress]

theorem Keeps.overflowIn {z s : State} (h : Keeps z s) (out : Nat) (r : List Byte × Nat × Nat × BitVec 16) :
    Keeps z (Sys2Proof.Machine.overflowIn out r s) := by
  unfold Sys2Proof.Machine.overflowIn
  simp (maxDischargeDepth := 40) only [h, Keeps.modPort,
      Keeps.portGauge, Keeps.spendShare]

theorem Keeps.placeRelayed {z s : State} (h : Keeps z s) (arrival out prio rec_ : Nat) (epoch : BitVec 16)
    (f : List Byte) :
    Keeps z (Sys2Proof.Machine.placeRelayed arrival out prio rec_ epoch f s) := by
  unfold Sys2Proof.Machine.placeRelayed
  simp (maxDischargeDepth := 40) only [h, Keeps.ite, Keeps.bufferFrame,
      Keeps.modPort, Keeps.overflowIn, Keeps.overflowRecord]

theorem Keeps.drainBuffer {z : State} (out arrival : Nat) : ∀ (n : Nat) {s : State}, Keeps z s →
    Keeps z (Sys2Proof.Machine.drainBuffer out arrival n s)
  | 0, _, h => h
  | n + 1, s, h => by
    unfold Sys2Proof.Machine.drainBuffer
    split
    · exact h
    · split
      · exact h
      · exact Keeps.drainBuffer out arrival n
          ((h.unbuffer _ _).overflowIn _ _)

theorem Keeps.drainPort {z s : State} (h : Keeps z s) (out : Nat) :
    Keeps z (Sys2Proof.Machine.drainPort out s) := by
  unfold Sys2Proof.Machine.drainPort
  simp (maxDischargeDepth := 40) only [h, Keeps.refl, implies_true, Keeps.drainBuffer,
      Keeps.foldl, Keeps.modPort, Keeps.spendShare]

theorem Keeps.forward {z s : State} (h : Keeps z s) (port : Nat) (f : List Byte) :
    Keeps z (Sys2Proof.Machine.forward port f s) := by
  unfold Sys2Proof.Machine.forward
  dsimp only
  repeat' split
  all_goals first
    | exact h
    | simp (maxDischargeDepth := 40) only [h, Keeps.brokenRoute,
      Keeps.placeRelayed, Keeps.portGauge]

/-! ### Send -/

theorem Keeps.putOnWire {z s : State} (h : Keeps z s) (port : Nat) (f : List Byte) :
    Keeps z (Sys2Proof.Machine.putOnWire port f s) := by
  unfold Sys2Proof.Machine.putOnWire
  simp (maxDischargeDepth := 40) only [h, Keeps.modPort, Keeps.portGauge]

theorem Keeps.sendCar {z s : State} (h : Keeps z s) (port t : Nat) (f : OutFrame) (again : Bool) :
    Keeps z (Sys2Proof.Machine.sendCar port t f again s) := by
  unfold Sys2Proof.Machine.sendCar
  simp (maxDischargeDepth := 40) only [h, Keeps.putOnWire]

theorem Keeps.dropRouted {z s : State} (h : Keeps z s) (e : Route × Option (Nat × Bool × Nat)) :
    Keeps z (Sys2Proof.Machine.dropRouted e s) := by
  unfold Sys2Proof.Machine.dropRouted
  repeat' split
  all_goals first
    | exact h
    | simp (maxDischargeDepth := 40) only [h, Keeps.brokenRoute,
      Keeps.portGauge]

theorem board_markStarted (f : OutFrame) (tr : Troupe) : (markStarted f tr).board = tr.board := by
  first
    | rfl
    | unfold markStarted; (repeat' split) <;> simp []

theorem Keeps.chargeFrame {z s : State} (h : Keeps z s) (port t : Nat) (f : OutFrame) (shaper : Nat) :
    Keeps z (Sys2Proof.Machine.chargeFrame port t f shaper s) := by
  unfold Sys2Proof.Machine.chargeFrame
  repeat' split
  all_goals first
    | exact h
    | simp (maxDischargeDepth := 40) only [h, implies_true, Keeps.chargeShaper,
      Keeps.modTroupe, Keeps.troupePortGauge]

theorem board_sentPhases (f : OutFrame) (s : State) (tr : Troupe) : (sentPhases f s tr).board = tr.board := by
  first
    | rfl
    | unfold sentPhases; (repeat' split) <;> simp [board_modStep]

theorem Keeps.sendFresh {z s : State} (h : Keeps z s) (port t : Nat) (f : OutFrame) :
    Keeps z (Sys2Proof.Machine.sendFresh port t f s) := by
  unfold Sys2Proof.Machine.sendFresh
  dsimp only
  repeat' split
  all_goals first
    | exact h
    | simp (maxDischargeDepth := 40) only [h, implies_true, Keeps.chargeFrame,
      Keeps.dropRouted, Keeps.launched, Keeps.modTroupe, Keeps.sendCar, board_markStarted, board_sentPhases]

theorem Keeps.sendAgain {z s : State} (h : Keeps z s) (port t l i : Nat) (f : OutFrame) :
    Keeps z (Sys2Proof.Machine.sendAgain port t l i f s) := by
  unfold Sys2Proof.Machine.sendAgain
  repeat' split
  all_goals first
    | exact h
    | simp (maxDischargeDepth := 40) only [h, Keeps.chargeFrame,
      Keeps.dropRouted, Keeps.modPeer, Keeps.sendCar, Keeps.troupePortGauge]

theorem Keeps.sendRelayed {z s : State} (h : Keeps z s) (port : Nat) (r : List Byte × Nat × Nat × BitVec 16) (above : Bool) :
    Keeps z (Sys2Proof.Machine.sendRelayed port r above s) := by
  unfold Sys2Proof.Machine.sendRelayed
  simp (maxDischargeDepth := 40) only [h, Keeps.ite, Keeps.drainPort, Keeps.modPort, Keeps.portGauge, Keeps.putOnWire]

theorem Keeps.sendOwn {z s : State} (h : Keeps z s) (port : Nat) (f : List Byte) :
    Keeps z (Sys2Proof.Machine.sendOwn port f s) := by
  unfold Sys2Proof.Machine.sendOwn
  simp (maxDischargeDepth := 40) only [h, Keeps.ite, Keeps.modPort, Keeps.putOnWire]

theorem Keeps.sendDecline {z s : State} (h : Keeps z s) (port : Nat) :
    Keeps z (Sys2Proof.Machine.sendDecline port s) := by
  unfold Sys2Proof.Machine.sendDecline
  repeat' split
  all_goals first
    | exact h
    | simp (maxDischargeDepth := 40) only [h, Keeps.modPort,
      Keeps.putOnWire]

theorem Keeps.takeTurn {z s : State} (h : Keeps z s) (port : Nat) (p : Pick) :
    Keeps z (Sys2Proof.Machine.takeTurn port p s) := by
  unfold Sys2Proof.Machine.takeTurn
  repeat' split
  all_goals first
    | exact h
    | simp (maxDischargeDepth := 40) only [h, Keeps.modPort]

theorem Keeps.perform {z s : State} (h : Keeps z s) (port : Nat) (p : Pick) :
    Keeps z (Sys2Proof.Machine.perform port p s) := by
  unfold Sys2Proof.Machine.perform
  repeat' split
  all_goals first
    | exact h
    | simp (maxDischargeDepth := 40) only [h, Keeps.ite, Keeps.checkLine,
      Keeps.modPort, Keeps.portGauge, Keeps.putOnWire, Keeps.sendAgain, Keeps.sendDecline, Keeps.sendFresh,
      Keeps.sendOwn, Keeps.sendRelayed, Keeps.takeTurn]

theorem Keeps.sendPick {z s : State} (h : Keeps z s) (port : Nat) (p : Pick) :
    Keeps z (Sys2Proof.Machine.sendPick port p s) := by
  unfold Sys2Proof.Machine.sendPick
  simp (maxDischargeDepth := 40) only [h, Keeps.ite, Keeps.modPort, Keeps.perform]

theorem Keeps.failedSend {z s : State} (h : Keeps z s) (port : Nat) :
    Keeps z (Sys2Proof.Machine.failedSend port s) := by
  unfold Sys2Proof.Machine.failedSend
  dsimp only
  repeat' split
  all_goals first
    | exact h
    | simp (maxDischargeDepth := 40) only [h, Keeps.loseSheet,
      Keeps.portGauge, Keeps.sendAgain, Keeps.sendPick]

theorem Keeps.litSend {z s : State} (h : Keeps z s) (port : Nat) :
    Keeps z (Sys2Proof.Machine.litSend port s) := by
  unfold Sys2Proof.Machine.litSend
  dsimp only
  repeat' split
  all_goals first
    | exact h
    | simp (maxDischargeDepth := 40) only [h, Keeps.declineDim,
      Keeps.sendPick]

/-! ### Tick -/

theorem Keeps.miswire {z s : State} (h : Keeps z s) (port : Nat) :
    Keeps z (Sys2Proof.Machine.miswire port s) := by
  unfold Sys2Proof.Machine.miswire
  simp (maxDischargeDepth := 40) only [h, Keeps.endPortReset, Keeps.modPort, Keeps.record]

theorem Keeps.verify {z s : State} (h : Keeps z s) (port : Nat) :
    Keeps z (Sys2Proof.Machine.verify port s) := by
  unfold Sys2Proof.Machine.verify
  simp (maxDischargeDepth := 40) only [h, Keeps.endPortReset, Keeps.modPort]

theorem Keeps.judgePort {z s : State} (h : Keeps z s) (port : Nat) :
    Keeps z (Sys2Proof.Machine.judgePort port s) := by
  unfold Sys2Proof.Machine.judgePort
  simp (maxDischargeDepth := 40) only [h, Keeps.ite, Keeps.miswire, Keeps.verify]

theorem Keeps.takeReply {z s : State} (h : Keeps z s) (port : Nat) (rx : Int) (counter since : Nat) :
    Keeps z (Sys2Proof.Machine.takeReply port rx counter since s) := by
  unfold Sys2Proof.Machine.takeReply
  repeat' split
  all_goals first
    | exact h
    | simp (maxDischargeDepth := 40) only [h, Keeps.modHouse,
      Keeps.modPort]

theorem Keeps.hearTick {z s : State} (h : Keeps z s) (port : Nat) (f : List Byte) (sub : Nat) :
    Keeps z (Sys2Proof.Machine.hearTick port f sub s) := by
  unfold Sys2Proof.Machine.hearTick
  extract_lets counter period rx s1 s2 s3 s4 s5
  clear_value counter period rx
  have h1 : Keeps z s1 := h.modPort _ _
  have h2 : Keeps z s2 := by
    simp only [s2]
    split
    · exact h1.modPort _ _
    · exact h1
  clear_value s2
  have h3 : Keeps z s3 := Keeps.ite (h2.modHouse _) h2
  clear_value s3
  have h4 : Keeps z s4 := Keeps.ite (h3.takeReply port rx counter _) h3
  clear_value s4
  have h5 : Keeps z s5 := h4.judgePort ..
  exact Keeps.ite (h5.modHouse _) h5

theorem Keeps.hearStranger {z s : State} (h : Keeps z s) (port : Nat) (f : List Byte) :
    Keeps z (Sys2Proof.Machine.hearStranger port f s) := by
  unfold Sys2Proof.Machine.hearStranger
  exact (h.modPort _ _).judgePort _

theorem Keeps.bookScene {z s : State} (h : Keeps z s) (t : Nat) (tr : Troupe) (e : Nat × Booking) :
    Keeps z (Sys2Proof.Machine.bookScene t tr s e) := by
  unfold Sys2Proof.Machine.bookScene
  simp (maxDischargeDepth := 40) only [h, Keeps.troupePortGauge]

theorem board_carryScene (tr : Troupe) : (carryScene tr).board = tr.board := by
  first
    | rfl
    | unfold carryScene; (repeat' split) <;> simp []

theorem Keeps.closeScene {z s : State} (h : Keeps z s) (t : Nat) :
    Keeps z (Sys2Proof.Machine.closeScene t s) := by
  unfold Sys2Proof.Machine.closeScene
  simp (maxDischargeDepth := 40) only [h, Keeps.refl, Keeps.ite, implies_true, Keeps.bookScene,
      Keeps.closeElements, Keeps.foldl, Keeps.modTroupe, Keeps.troupePortGauge, board_carryScene]

theorem Keeps.judgeHouse {z s : State} (h : Keeps z s) :
    Keeps z (Sys2Proof.Machine.judgeHouse s) := by
  unfold Sys2Proof.Machine.judgeHouse
  extract_lets fresh
  exact Keeps.foldl (fun s o => (Keeps.refl s).record _) _ (h.log _ (Nat.le_refl _) rfl rfl)

theorem board_reindexed (t : Nat) (new : List (ErrRec × ErrRec)) (tr : Troupe) :
    (reindexed t new tr).board = tr.board := by
  first
    | rfl
    | unfold reindexed; (repeat' split) <;> simp []

theorem Keeps.orderRecords {z s : State} (h : Keeps z s) (from_ : BitVec 32) :
    Keeps z (Sys2Proof.Machine.orderRecords from_ s) := by
  unfold Sys2Proof.Machine.orderRecords
  extract_lets sorted new
  refine Keeps.trans (Keeps.log h { s.log with
    records := new.foldl (fun t e => tabPut t (e.2.index.toNat % 256) e.2) s.log.records } (Nat.le_refl _) rfl rfl) ?_
  exact Keeps.mapTroupes (Keeps.refl _) (fun e => (e.1, reindexed e.1 new e.2)) fun e => board_reindexed ..

theorem Keeps.tickUnits {z s : State} (h : Keeps z s)  :
    Keeps z (Sys2Proof.Machine.tickUnits s) := by
  unfold Sys2Proof.Machine.tickUnits
  simp (maxDischargeDepth := 40) only [h, Keeps.refl, Keeps.ite, implies_true, Keeps.foldl, Keeps.endTest,
    Keeps.modHouse, Keeps.record, Keeps.failureTold]

theorem Keeps.endPitResets {z s : State} (h : Keeps z s)  :
    Keeps z (Sys2Proof.Machine.endPitResets s) := by
  unfold Sys2Proof.Machine.endPitResets
  simp (maxDischargeDepth := 40) only [h, Keeps.run]

theorem Keeps.snapGauges {z s : State} (h : Keeps z s) : Keeps z (Sys2Proof.Machine.snapGauges s) :=
  Keeps.house (h.mapTroupes (fun e => (e.1, { e.2 with tickGauges := e.2.gauges })) fun _ => rfl) _

theorem Keeps.tickPorts {z s : State} (h : Keeps z s)  :
    Keeps z (Sys2Proof.Machine.tickPorts s) := by
  unfold Sys2Proof.Machine.tickPorts
  simp (maxDischargeDepth := 40) only [h, Keeps.refl, implies_true, Keeps.ports, Keeps.foldl, Keeps.portGauge]

theorem Keeps.tickSlices {z s : State} (h : Keeps z s)  :
    Keeps z (Sys2Proof.Machine.tickSlices s) := by
  unfold Sys2Proof.Machine.tickSlices
  simp (maxDischargeDepth := 40) only [h, Keeps.slices]

theorem Keeps.stageRecord {z s : State} (h : Keeps z s) (t kind index : Nat) :
    Keeps z (Sys2Proof.Machine.stageRecord t kind index s) := by
  unfold Sys2Proof.Machine.stageRecord
  simp (maxDischargeDepth := 40) only [h, Keeps.record]

theorem Keeps.openScene {z s : State} (h : Keeps z s) (t : Nat) :
    Keeps z (Sys2Proof.Machine.openScene t s) := by
  unfold Sys2Proof.Machine.openScene
  simp (maxDischargeDepth := 40) only [h, Keeps.refl, implies_true, Keeps.foldl, Keeps.modTroupe, Keeps.stageRecord]

theorem Keeps.judgeStage {z s : State} (h : Keeps z s) (t : Nat) :
    Keeps z (Sys2Proof.Machine.judgeStage t s) := by
  unfold Sys2Proof.Machine.judgeStage
  simp (maxDischargeDepth := 40) only [h, Keeps.refl, implies_true, Keeps.foldl, Keeps.modTroupe, Keeps.stageRecord]

theorem Keeps.judgeTroupe {z s : State} (h : Keeps z s) (t : Nat) :
    Keeps z (Sys2Proof.Machine.judgeTroupe t s) := by
  unfold Sys2Proof.Machine.judgeTroupe
  repeat' split
  all_goals first
    | exact h
    | simp (maxDischargeDepth := 40) only [h, Keeps.fault]

theorem Keeps.tickAcks {z s : State} (h : Keeps z s) (t : Nat) :
    Keeps z (Sys2Proof.Machine.tickAcks t s) := by
  unfold Sys2Proof.Machine.tickAcks
  simp (maxDischargeDepth := 40) only [h, Keeps.refl, implies_true, Keeps.foldl, Keeps.sendAck]

theorem Keeps.settleAll {z s : State} (h : Keeps z s) (t : Nat) :
    Keeps z (Sys2Proof.Machine.settleAll t s) := by
  unfold Sys2Proof.Machine.settleAll
  simp (maxDischargeDepth := 40) only [h, Keeps.refl, implies_true, Keeps.foldl,
      Keeps.settleFallback]

theorem Keeps.tickTroupe {z s : State} (h : Keeps z s) (t : Nat) :
    Keeps z (Sys2Proof.Machine.tickTroupe t s) := by
  unfold Sys2Proof.Machine.tickTroupe
  simp (maxDischargeDepth := 40) only [h, Keeps.refl, implies_true, Keeps.applyOutcome,
      Keeps.checkTroupe, Keeps.encoreStep, Keeps.enterAll, Keeps.flipDue, Keeps.foldl, Keeps.judgeStage,
      Keeps.judgeTroupe, Keeps.openScene, Keeps.resetStep, Keeps.resyncStep, Keeps.serveHeld, Keeps.settleAll,
      Keeps.settleResync, Keeps.standStep, Keeps.tickAcks, Keeps.tickRound, Keeps.trickleStep]

theorem Keeps.runOut {z s : State} (h : Keeps z s)  :
    Keeps z (Sys2Proof.Machine.runOut s) := by
  unfold Sys2Proof.Machine.runOut
  simp (maxDischargeDepth := 40) only [h, Keeps.passCk]

theorem Keeps.eachTroupe {z s : State} (h : Keeps z s) {f : Nat → State → State} (hf : ∀ t s, Keeps s (f t s)) :
    Keeps z (Sys2Proof.Machine.eachTroupe f s) := Keeps.foldl (fun s t => hf t s) _ h

theorem Keeps.tickBlock {z s : State} (h : Keeps z s) :
    Keeps z (Sys2Proof.Machine.tickBlock s) := by
  unfold Sys2Proof.Machine.tickBlock
  extract_lets s1 from_ s2 s3
  have h1 : Keeps z s1 := h.eachTroupe fun t s => (Keeps.refl s).closeScene t
  have h2 : Keeps z s2 := Keeps.house (h1.log (tickLog s1.log) (Nat.zero_le _) rfl rfl) _
  have h3 : Keeps z s3 := h2.judgeHouse.tickUnits.snapGauges
  exact (Keeps.eachTroupe h3.tickSlices.tickPorts.endPitResets fun t s => (Keeps.refl s).tickTroupe t).orderRecords _

/-! ### Window -/

theorem Keeps.respond {z s : State} (h : Keeps z s) (r : Reply) (data : List Byte) :
    Keeps z (Sys2Proof.Machine.respond r data s) := by
  unfold Sys2Proof.Machine.respond
  simp (maxDischargeDepth := 40) only [h, Keeps.modHouse]

theorem Keeps.ringRefused {z s : State} (h : Keeps z s) (t ring : Nat) (st : Status) :
    Keeps z (Sys2Proof.Machine.ringRefused t ring st s) := by
  unfold Sys2Proof.Machine.ringRefused
  simp (maxDischargeDepth := 40) only [h, implies_true, Keeps.modTroupe]

theorem Keeps.accessRecord {z s : State} (h : Keeps z s) (r : Rec) :
    Keeps z (Sys2Proof.Machine.accessRecord r s) := by
  unfold Sys2Proof.Machine.accessRecord
  simp (maxDischargeDepth := 40) only [h, Keeps.ite, Keeps.log, le_refl, Keeps.record, Keeps.suppress]

theorem Keeps.refuseAccess {z s : State} (h : Keeps z s) (a : Access) (write : Bool) (d : Denial) :
    Keeps z (Sys2Proof.Machine.refuseAccess a write d s) := by
  unfold Sys2Proof.Machine.refuseAccess
  repeat' split
  all_goals first
    | exact h
    | simp (maxDischargeDepth := 40) only [h, Keeps.accessRecord,
      Keeps.gauge, Keeps.respond, Keeps.ringRefused]

theorem Keeps.judged {z s : State} (h : Keeps z s) (a : Access) {k : State → State} (hk : ∀ s, Keeps s (k s)) :
    Keeps z (Sys2Proof.Machine.judged a k s) := by
  unfold Sys2Proof.Machine.judged
  split
  · exact h.refuseAccess _ _ _
  · exact h.trans (hk s)

theorem Keeps.postSlot {z s : State} (h : Keeps z s) (t slot : Nat) :
    Keeps z (Sys2Proof.Machine.postSlot t slot s) := by
  unfold Sys2Proof.Machine.postSlot
  simp (maxDischargeDepth := 40) only [h, Keeps.ite, implies_true, Keeps.gauge, Keeps.modTroupe]

theorem Keeps.ringDenied {z s : State} (h : Keeps z s) (a : Access) (t ring : Nat) (r : Reply) (st : Status) :
    Keeps z (Sys2Proof.Machine.ringDenied a t ring r st s) := by
  unfold Sys2Proof.Machine.ringDenied
  simp (maxDischargeDepth := 40) only [h, Keeps.gauge, Keeps.respond, Keeps.ringRefused]

theorem Keeps.ringWrite {z s : State} (h : Keeps z s) (a : Access) (t : Nat) :
    Keeps z (Sys2Proof.Machine.ringWrite a t s) := by
  unfold Sys2Proof.Machine.ringWrite
  dsimp only
  repeat' split
  all_goals first
    | exact h
    | simp (maxDischargeDepth := 40) only [h, implies_true, Keeps.accessRecord,
      Keeps.fault, Keeps.gauge, Keeps.modTroupe, Keeps.respond, Keeps.ringDenied]

theorem Keeps.plainWrite {z s : State} (h : Keeps z s) (a : Access) : Keeps z (Sys2Proof.Machine.plainWrite a s) := by
  unfold Sys2Proof.Machine.plainWrite
  split
  · exact Keeps.ite (h.modTroupeWf _ _ fun _ w => memWrite_wf _ _ w) h
  · exact Keeps.ite (h.log _ (Nat.le_refl _) rfl rfl) h
  · exact Keeps.ite (h.check _) h
  · exact h

end Sys2Proof.Machine
end

