-- ==== Sys2Proof/Laws/PerInstr.lean ====
section
/-! SUPPORT. What holds of every command as syntax: a row that a call board carries has a defined opcode and arguments
inside the 160 bytes of Table 12.3, and an event has neither opcode nor arguments. -/

namespace Sys2Proof.Laws.Spelled

open Sys2Proof Sys2Proof.Machine

/-- A command has a defined opcode exactly where a slot carries it (R340), and the arguments of a well-formed one lie in
the argument area (R318). -/
def Statement (i : Instr) : Prop :=
  opcodes.contains (opcode i) = (post i).isSome ∧
    (i.wf = true → ∀ f ∈ arguments i, f.1 + f.2.1 ≤ 160)

/-- A row with a literal list of arguments. -/
theorem of_list {i : Instr} (h : opcodes.contains (opcode i) = (post i).isSome)
    (k : (arguments i).all (fun f => decide (f.1 + f.2.1 ≤ 160)) = true) : Statement i :=
  ⟨h, fun _ f hf => of_decide_eq_true (List.all_eq_true.1 k f hf)⟩

/-- Positions of a list numbered from 0 lie below its length. -/
theorem zipIdx_lt {α : Type} {l : List α} {e : α × Nat} (h : e ∈ l.zipIdx) : e.2 < l.length := by
  have := List.snd_lt_add_of_mem_zipIdx h
  omega

theorem houseTickSet (p : Post) (period : BitVec 16) (effective : BitVec 64) :
    Statement (.houseTickSet p period effective) := of_list rfl rfl
theorem houseTickTree (p : Post) (parent : BitVec 8) : Statement (.houseTickTree p parent) := of_list rfl rfl
theorem housePodSet (p : Post) (pod : BitVec 16) (lx ly lz : BitVec 8) (vid : BitVec 16) :
    Statement (.housePodSet p pod lx ly lz vid) := of_list rfl rfl
theorem houseWingSet (p : Post) (port : BitVec 8) (partner : BitVec 64) :
    Statement (.houseWingSet p port partner) := of_list rfl rfl
theorem housePortSet (p : Post) (port ceiling : BitVec 8) (transit : BitVec 32) (dimDelay : BitVec 16) :
    Statement (.housePortSet p port ceiling transit dimDelay) := of_list rfl rfl
theorem houseShaperSet (p : Post) (port : BitVec 8) (rate cap : BitVec 32) :
    Statement (.houseShaperSet p port rate cap) := of_list rfl rfl
theorem houseGrant (p : Post) (port : BitVec 8) (grant : BitVec 32) :
    Statement (.houseGrant p port grant) := of_list rfl rfl
theorem housePitShare (p : Post) (percent : BitVec 8) : Statement (.housePitShare p percent) := of_list rfl rfl
theorem houseSliceSet (p : Post) (record x0 y0 z0 ex ey ez : BitVec 8) :
    Statement (.houseSliceSet p record x0 y0 z0 ex ey ez) := of_list rfl rfl
theorem houseRouteFill (p : Post) (record : BitVec 8) : Statement (.houseRouteFill p record) := of_list rfl rfl
theorem houseRouteSet (p : Post) (record : BitVec 8) (count : BitVec 32) (items : BitVec 64) :
    Statement (.houseRouteSet p record count items) := of_list rfl rfl
theorem houseRouteCommit (p : Post) (record : BitVec 8) (epoch : BitVec 16) (margin mask : BitVec 8)
    (effective : BitVec 64) :
    Statement (.houseRouteCommit p record epoch margin mask effective) := of_list rfl rfl
theorem houseBind (p : Post) (first count : BitVec 16) : Statement (.houseBind p first count) := of_list rfl rfl
theorem houseDispatch (p : Post) (flags : BitVec 8) : Statement (.houseDispatch p flags) := of_list rfl rfl
theorem housePortReset (p : Post) (port : BitVec 8) : Statement (.housePortReset p port) := of_list rfl rfl
theorem housePitReset (p : Post) (pit : BitVec 8) : Statement (.housePitReset p pit) := of_list rfl rfl
theorem houseReset (p : Post) : Statement (.houseReset p) := of_list rfl rfl
theorem troupeCreate (p : Post) (flags : BitVec 8) (bases lens : List (BitVec 64)) :
    Statement (.troupeCreate p flags bases lens) := by
  refine ⟨rfl, fun h f hf => ?_⟩
  simp only [Instr.wf, Bool.and_eq_true, beq_iff_eq] at h
  simp only [arguments, List.cons_append, List.mem_cons, List.mem_append, List.mem_map] at hf
  rcases hf with rfl | ⟨e, he, rfl⟩ | ⟨e, he, rfl⟩
  · dsimp only; omega
  · have := zipIdx_lt he; dsimp only; omega
  · have := zipIdx_lt he; dsimp only; omega
theorem troupeDelete (p : Post) : Statement (.troupeDelete p) := of_list rfl rfl
theorem troupeMode (p : Post) (flags : BitVec 8) : Statement (.troupeMode p flags) := of_list rfl rfl
theorem troupeClass (p : Post) (flags : BitVec 8) : Statement (.troupeClass p flags) := of_list rfl rfl
theorem troupeCarousel (p : Post) (entry count : BitVec 8) (n own : BitVec 16) (lines : List (BitVec 16))
    (members : BitVec 64) :
    Statement (.troupeCarousel p entry count n own lines members) := by
  refine ⟨rfl, fun h f hf => ?_⟩
  simp only [Instr.wf, Bool.and_eq_true, beq_iff_eq] at h
  simp only [arguments, List.mem_append, List.mem_cons, List.not_mem_nil, or_false, List.mem_map] at hf
  rcases hf with (rfl | rfl | rfl | rfl | rfl) | ⟨e, he, rfl⟩
  all_goals first
    | (dsimp only; omega)
    | (have := zipIdx_lt he; dsimp only; omega)
theorem troupeIntermission (p : Post) : Statement (.troupeIntermission p) := of_list rfl rfl
theorem troupeResume (p : Post) : Statement (.troupeResume p) := of_list rfl rfl
theorem troupeReset (p : Post) : Statement (.troupeReset p) := of_list rfl rfl
theorem troupeState (p : Post) : Statement (.troupeState p) := of_list rfl rfl
theorem billAdd (p : Post) (count : BitVec 16) (entries : BitVec 64) :
    Statement (.billAdd p count entries) := of_list rfl rfl
theorem billSet (p : Post) (count : BitVec 16) (entries : BitVec 64) :
    Statement (.billSet p count entries) := of_list rfl rfl
theorem billRemove (p : Post) (count : BitVec 16) (ids : BitVec 64) :
    Statement (.billRemove p count ids) := of_list rfl rfl
theorem billRead (p : Post) (tensor : BitVec 32) : Statement (.billRead p tensor) := of_list rfl rfl
theorem billBucket (p : Post) (bucket : BitVec 16) (cls selection carousel flags : BitVec 8) :
    Statement (.billBucket p bucket cls selection carousel flags) := of_list rfl rfl
theorem billArena (p : Post) (arena : BitVec 8) (slots : BitVec 16) (base : BitVec 64) :
    Statement (.billArena p arena slots base) := of_list rfl rfl
theorem billSeal (p : Post) : Statement (.billSeal p) := of_list rfl rfl
theorem sealComplete (dt t : Nat) : Statement (.sealComplete dt t) := of_list rfl rfl
theorem billSieve (p : Post) (bucket : BitVec 16) (density crossover : BitVec 32) (effective : BitVec 64) :
    Statement (.billSieve p bucket density crossover effective) := of_list rfl rfl
theorem billScale (p : Post) (tensor : BitVec 32) (headroom length : BitVec 8) (returnCount : BitVec 16)
    (effective : BitVec 64) :
    Statement (.billScale p tensor headroom length returnCount effective) := of_list rfl rfl
theorem bookSet (p : Post) (booking port cls : BitVec 8) (bytes : BitVec 32) (start stop : BitVec 64) :
    Statement (.bookSet p booking port cls bytes start stop) := of_list rfl rfl
theorem bookClear (p : Post) (booking : BitVec 8) : Statement (.bookClear p booking) := of_list rfl rfl
theorem bookRead (p : Post) (booking : BitVec 8) : Statement (.bookRead p booking) := of_list rfl rfl
theorem lineOpen (p : Post) (line : BitVec 16) (flags : BitVec 8) (n : BitVec 16)
    (peer remoteBase remoteLen localBase localLen : BitVec 64) (payload share : BitVec 8) :
    Statement (.lineOpen p line flags n peer remoteBase remoteLen localBase localLen payload share) := of_list rfl rfl
theorem lineSet (p : Post) (line : BitVec 16) (mask : BitVec 8)
    (peer remoteBase remoteLen localBase localLen : BitVec 64) (payload share : BitVec 8) :
    Statement (.lineSet p line mask peer remoteBase remoteLen localBase localLen payload share) := of_list rfl rfl
theorem lineReset (p : Post) (line : BitVec 16) : Statement (.lineReset p line) := of_list rfl rfl
theorem lineClose (p : Post) (line : BitVec 16) : Statement (.lineClose p line) := of_list rfl rfl
theorem lineState (p : Post) (line : BitVec 16) (dest : BitVec 64) :
    Statement (.lineState p line dest) := of_list rfl rfl
theorem lineArea (p : Post) (mib : BitVec 16) : Statement (.lineArea p mib) := of_list rfl rfl
theorem ringCreate (p : Post) (ring : BitVec 16) (kind depth binding port booking : BitVec 8) (base : BitVec 64)
    (spaceCue : BitVec 16) :
    Statement (.ringCreate p ring kind depth binding port booking base spaceCue) := of_list rfl rfl
theorem ringDelete (p : Post) (ring : BitVec 16) : Statement (.ringDelete p ring) := of_list rfl rfl
theorem ringState (p : Post) (ring : BitVec 16) : Statement (.ringState p ring) := of_list rfl rfl
theorem cueCreate (p : Post) (cue : BitVec 16) (initial : BitVec 64) :
    Statement (.cueCreate p cue initial) := of_list rfl rfl
theorem cueDelete (p : Post) (cue : BitVec 16) : Statement (.cueDelete p cue) := of_list rfl rfl
theorem cueAdd (p : Post) (cue : BitVec 16) (increment : BitVec 64) :
    Statement (.cueAdd p cue increment) := of_list rfl rfl
theorem cueWait (p : Post) (cue : BitVec 16) (threshold : BitVec 64) (timeout : BitVec 32) (notify : BitVec 64) :
    Statement (.cueWait p cue threshold timeout notify) := of_list rfl rfl
theorem cueRead (p : Post) (cue : BitVec 16) : Statement (.cueRead p cue) := of_list rfl rfl
theorem stepOpen (p : Post) (m : BitVec 16) (bookings : BitVec 256) :
    Statement (.stepOpen p m bookings) := of_list rfl rfl
theorem stepAbort (p : Post) : Statement (.stepAbort p) := of_list rfl rfl
theorem stepSeed (p : Post) (seed : BitVec 64) : Statement (.stepSeed p seed) := of_list rfl rfl
theorem stepLoss (p : Post) (loss : BitVec 32) : Statement (.stepLoss p loss) := of_list rfl rfl
theorem stepState (p : Post) : Statement (.stepState p) := of_list rfl rfl
theorem stepDeadline (p : Post) (ticks : BitVec 32) : Statement (.stepDeadline p ticks) := of_list rfl rfl
theorem stepLedger (p : Post) (flags : BitVec 8) (records : BitVec 32)
    (base extBase extLen capBase capLen : BitVec 64) :
    Statement (.stepLedger p flags records base extBase extLen capBase capLen) := of_list rfl rfl
theorem optSet (p : Post) (tensor : BitVec 32) (rule nesterov : BitVec 8)
    (eta lam beta1 beta2 eps d clip : BitVec 32) (effective : BitVec 64) :
    Statement (.optSet p tensor rule nesterov eta lam beta1 beta2 eps d clip effective) := of_list rfl rfl
theorem optTroupe (p : Post) (gamma : BitVec 32) (lag : BitVec 8) (effective : BitVec 64) :
    Statement (.optTroupe p gamma lag effective) := of_list rfl rfl
theorem optHost (p : Post) (base slotLen : BitVec 64) : Statement (.optHost p base slotLen) := of_list rfl rfl
theorem optSpike (p : Post) (detector armed k : BitVec 8) (ratio : BitVec 32) (warmup : BitVec 16) :
    Statement (.optSpike p detector armed k ratio warmup) := of_list rfl rfl
theorem optExport (p : Post) (count : BitVec 32) (ids dest : BitVec 64) :
    Statement (.optExport p count ids dest) := of_list rfl rfl
theorem optImport (p : Post) (count : BitVec 32) (ids source : BitVec 64) :
    Statement (.optImport p count ids source) := of_list rfl rfl
theorem sparePair (p : Post) (line : BitVec 16) (mode flags : BitVec 8) (owned : BitVec 64) :
    Statement (.sparePair p line mode flags owned) := of_list rfl rfl
theorem spareProp (p : Post) (k n : BitVec 8) : Statement (.spareProp p k n) := of_list rfl rfl
theorem spareResync (p : Post) : Statement (.spareResync p) := of_list rfl rfl
theorem spareStandin (p : Post) (lost : BitVec 64) : Statement (.spareStandin p lost) := of_list rfl rfl
theorem spareEncore (p : Post) : Statement (.spareEncore p) := of_list rfl rfl
theorem sparePromote (p : Post) (lost standin donors : BitVec 64) (donorCount : BitVec 16) :
    Statement (.sparePromote p lost standin donors donorCount) := of_list rfl rfl
theorem spareExport (p : Post) (dest : BitVec 64) : Statement (.spareExport p dest) := of_list rfl rfl
theorem testSet (p : Post) (flags slack : BitVec 8) : Statement (.testSet p flags slack) := of_list rfl rfl
theorem testRun (p : Post) (sub unit : BitVec 8) : Statement (.testRun p sub unit) := of_list rfl rfl
theorem testDarken (p : Post) (sub unit : BitVec 8) : Statement (.testDarken p sub unit) := of_list rfl rfl
theorem testReturn (p : Post) (sub unit : BitVec 8) : Statement (.testReturn p sub unit) := of_list rfl rfl
theorem gaugeSnap (p : Post) (dest : BitVec 64) : Statement (.gaugeSnap p dest) := of_list rfl rfl
theorem gaugeClear (p : Post) (groups : BitVec 32) : Statement (.gaugeClear p groups) := of_list rfl rfl
theorem gaugeTimers (p : Post) (step dest : BitVec 64) : Statement (.gaugeTimers p step dest) := of_list rfl rfl
theorem spillSet (p : Post) (pitBase pitLen hostBase hostLen : BitVec 64) :
    Statement (.spillSet p pitBase pitLen hostBase hostLen) := of_list rfl rfl
theorem spillDrain (p : Post) : Statement (.spillDrain p) := of_list rfl rfl
theorem ringDoorbell (a : Access) : Statement (.ringDoorbell a) := of_list rfl rfl
theorem errRead (a : Access) : Statement (.errRead a) := of_list rfl rfl
theorem chkCtrl (a : Access) : Statement (.chkCtrl a) := of_list rfl rfl
theorem checkScanEnd (dt : Nat) : Statement (.checkScanEnd dt) := of_list rfl rfl
theorem registerWrite (a : Access) : Statement (.registerWrite a) := of_list rfl rfl
theorem windowAccessRefused (a : Access) : Statement (.windowAccessRefused a) := of_list rfl rfl
theorem emit (dt core : Nat) (desc : List Byte) : Statement (.emit dt core desc) := of_list rfl rfl
theorem emitTake (dt : Nat) : Statement (.emitTake dt) := of_list rfl rfl
theorem chunkRead (dt t : Nat) : Statement (.chunkRead dt t) := of_list rfl rfl
theorem chunkAccumulate (dt t tensor chunk : Nat) : Statement (.chunkAccumulate dt t tensor chunk) := of_list rfl rfl
theorem pitWindowOpen (dt pit : Nat) : Statement (.pitWindowOpen dt pit) := of_list rfl rfl
theorem quantPassStart (dt t bucket : Nat) : Statement (.quantPassStart dt t bucket) := of_list rfl rfl
theorem quantPassEnd (dt t bucket : Nat) : Statement (.quantPassEnd dt t bucket) := of_list rfl rfl
theorem bandCut (dt t bucket : Nat) : Statement (.bandCut dt t bucket) := of_list rfl rfl
theorem bandReread (dt t bucket : Nat) : Statement (.bandReread dt t bucket) := of_list rfl rfl
theorem packItem (dt t pick : Nat) : Statement (.packItem dt t pick) := of_list rfl rfl
theorem frameSend (dt port : Nat) : Statement (.frameSend dt port) := of_list rfl rfl
theorem writeReceive (dt port : Nat) (frame : List Byte) : Statement (.writeReceive dt port frame) := of_list rfl rfl
theorem reduceWriteReceive (dt port : Nat) (frame : List Byte) :
    Statement (.reduceWriteReceive dt port frame) := of_list rfl rfl
theorem readRequestReceive (dt port : Nat) (frame : List Byte) :
    Statement (.readRequestReceive dt port frame) := of_list rfl rfl
theorem readResponseReceive (dt port : Nat) (frame : List Byte) :
    Statement (.readResponseReceive dt port frame) := of_list rfl rfl
theorem fenceCarriageReceive (dt port : Nat) (frame : List Byte) :
    Statement (.fenceCarriageReceive dt port frame) := of_list rfl rfl
theorem collectiveCarriageReceive (dt port : Nat) (frame : List Byte) :
    Statement (.collectiveCarriageReceive dt port frame) := of_list rfl rfl
theorem deltaCarriageReceive (dt port : Nat) (frame : List Byte) :
    Statement (.deltaCarriageReceive dt port frame) := of_list rfl rfl
theorem mirrorCarriageReceive (dt port : Nat) (frame : List Byte) :
    Statement (.mirrorCarriageReceive dt port frame) := of_list rfl rfl
theorem residualTrickleReceive (dt port : Nat) (frame : List Byte) :
    Statement (.residualTrickleReceive dt port frame) := of_list rfl rfl
theorem ackReceive (dt port : Nat) (frame : List Byte) : Statement (.ackReceive dt port frame) := of_list rfl rfl
theorem nakReceive (dt port : Nat) (frame : List Byte) : Statement (.nakReceive dt port frame) := of_list rfl rfl
theorem probeReceive (dt port : Nat) (frame : List Byte) : Statement (.probeReceive dt port frame) := of_list rfl rfl
theorem probeEchoReceive (dt port : Nat) (frame : List Byte) :
    Statement (.probeEchoReceive dt port frame) := of_list rfl rfl
theorem callReceive (dt port : Nat) (frame : List Byte) : Statement (.callReceive dt port frame) := of_list rfl rfl
theorem knockReceive (dt port : Nat) (frame : List Byte) : Statement (.knockReceive dt port frame) := of_list rfl rfl
theorem knockAnswerReceive (dt port : Nat) (frame : List Byte) :
    Statement (.knockAnswerReceive dt port frame) := of_list rfl rfl
theorem dimReceive (dt port : Nat) (frame : List Byte) : Statement (.dimReceive dt port frame) := of_list rfl rfl
theorem lightReceive (dt port : Nat) (frame : List Byte) : Statement (.lightReceive dt port frame) := of_list rfl rfl
theorem tickReceive (dt port : Nat) (frame : List Byte) (sub : Nat) :
    Statement (.tickReceive dt port frame sub) := of_list rfl rfl
theorem pfcReceive (dt port : Nat) (frame : List Byte) : Statement (.pfcReceive dt port frame) := of_list rfl rfl
theorem pauseFrameReceive (dt port : Nat) (frame : List Byte) :
    Statement (.pauseFrameReceive dt port frame) := of_list rfl rfl
theorem foreignFrameReceive (dt port : Nat) (frame : List Byte) :
    Statement (.foreignFrameReceive dt port frame) := of_list rfl rfl
theorem frameRelay (dt port : Nat) (frame : List Byte) : Statement (.frameRelay dt port frame) := of_list rfl rfl
theorem pauseExpire (dt port prio : Nat) : Statement (.pauseExpire dt port prio) := of_list rfl rfl
theorem pfcRepeat (dt port prio : Nat) : Statement (.pfcRepeat dt port prio) := of_list rfl rfl
theorem tick : Statement .tick := of_list rfl rfl
theorem stepDeadlineMiss (dt t : Nat) : Statement (.stepDeadlineMiss dt t) := of_list rfl rfl
theorem roundAbandonLimit (dt t : Nat) : Statement (.roundAbandonLimit dt t) := of_list rfl rfl
theorem adriftEnter (dt : Nat) : Statement (.adriftEnter dt) := of_list rfl rfl
theorem adriftClear (dt : Nat) : Statement (.adriftClear dt) := of_list rfl rfl
theorem tickReply (dt port : Nat) : Statement (.tickReply dt port) := of_list rfl rfl
theorem retransmitTimerExpiry (dt t line peer : Nat) :
    Statement (.retransmitTimerExpiry dt t line peer) := of_list rfl rfl
theorem knockTimerExpiry (dt t line peer : Nat) : Statement (.knockTimerExpiry dt t line peer) := of_list rfl rfl
theorem knockRetry (dt t line peer : Nat) : Statement (.knockRetry dt t line peer) := of_list rfl rfl
theorem firstKnock (dt t line peer : Nat) : Statement (.firstKnock dt t line peer) := of_list rfl rfl
theorem probeSend (dt t line peer : Nat) : Statement (.probeSend dt t line peer) := of_list rfl rfl
theorem callResend (dt t port : Nat) : Statement (.callResend dt t port) := of_list rfl rfl
theorem cueWaitTimeout (dt issuer slot : Nat) : Statement (.cueWaitTimeout dt issuer slot) := of_list rfl rfl
theorem sieveCallTimeout (dt t : Nat) : Statement (.sieveCallTimeout dt t) := of_list rfl rfl
theorem bankDrainRelease (dt record : Nat) : Statement (.bankDrainRelease dt record) := of_list rfl rfl
theorem prompterStall (dt : Nat) : Statement (.prompterStall dt) := of_list rfl rfl
theorem linkSignalLoss (dt port : Nat) : Statement (.linkSignalLoss dt port) := of_list rfl rfl
theorem portFail (dt port : Nat) : Statement (.portFail dt port) := of_list rfl rfl
theorem linkUp (dt port : Nat) : Statement (.linkUp dt port) := of_list rfl rfl
theorem dimPropose (dt port : Nat) : Statement (.dimPropose dt port) := of_list rfl rfl
theorem dimCommitPoint (dt port : Nat) : Statement (.dimCommitPoint dt port) := of_list rfl rfl
theorem linkDark (dt port : Nat) : Statement (.linkDark dt port) := of_list rfl rfl
theorem linkWake (dt port : Nat) (fromPartner : Bool) : Statement (.linkWake dt port fromPartner) := of_list rfl rfl
theorem linkLit (dt port : Nat) : Statement (.linkLit dt port) := of_list rfl rfl
theorem lineDescriptorTake (dt t : Nat) : Statement (.lineDescriptorTake dt t) := of_list rfl rfl
theorem sieveCallTake (dt t : Nat) : Statement (.sieveCallTake dt t) := of_list rfl rfl
theorem sieveCallComplete (dt t : Nat) : Statement (.sieveCallComplete dt t) := of_list rfl rfl
theorem spillCallTake (dt t : Nat) : Statement (.spillCallTake dt t) := of_list rfl rfl
theorem spillCallComplete (dt t : Nat) : Statement (.spillCallComplete dt t) := of_list rfl rfl
theorem updateIssue (dt t : Nat) : Statement (.updateIssue dt t) := of_list rfl rfl
theorem updateComplete (dt t : Nat) : Statement (.updateComplete dt t) := of_list rfl rfl
theorem delayedDoneRead (dt t : Nat) : Statement (.delayedDoneRead dt t) := of_list rfl rfl
theorem verdictCompare (dt t step : Nat) : Statement (.verdictCompare dt t step) := of_list rfl rfl
theorem verdictArrive (dt t : Nat) (word : BitVec 64) : Statement (.verdictArrive dt t word) := of_list rfl rfl
theorem encoreRun (dt t : Nat) (pulled : Pulled) : Statement (.encoreRun dt t pulled) := of_list rfl rfl
theorem rehearsalSlice (dt unit vector : Nat) (found : SliceResult) :
    Statement (.rehearsalSlice dt unit vector found) := of_list rfl rfl
theorem rehearsalComplete (dt unit : Nat) (pass : Bool) :
    Statement (.rehearsalComplete dt unit pass) := of_list rfl rfl
theorem resetRelease (dt : Nat) (failed : List Nat) : Statement (.resetRelease dt failed) := of_list rfl rfl
theorem nimliaUp (dt : Nat) : Statement (.nimliaUp dt) := of_list rfl rfl
theorem doorsOpen (dt : Nat) : Statement (.doorsOpen dt) := of_list rfl rfl
theorem doorsTimeout (dt : Nat) : Statement (.doorsTimeout dt) := of_list rfl rfl
theorem chipReset (dt : Nat) (chip : Bool) : Statement (.chipReset dt chip) := of_list rfl rfl
theorem callDoorbell (a : Access) : Statement (.callDoorbell a) := of_list rfl rfl
theorem optExportComplete (dt t : Nat) : Statement (.optExportComplete dt t) := of_list rfl rfl
theorem optImportComplete (dt t : Nat) : Statement (.optImportComplete dt t) := of_list rfl rfl
theorem spareExportComplete (dt t : Nat) : Statement (.spareExportComplete dt t) := of_list rfl rfl
theorem captureComplete (dt t step : Nat) : Statement (.captureComplete dt t step) := of_list rfl rfl

end Sys2Proof.Laws.Spelled
end

