-- ==== Sys2Proof/Laws/Scene.lean ====
section
/-! SUPPORT. The end of a scene: closing the troupes' scenes leaves the house, and what the tick then makes of it. -/

namespace Sys2Proof.Machine

open Sys2Proof

/-- A fold of steps that leave the house leaves it. -/
theorem foldl_house {α : Type} (f : State → α → State) (h : ∀ s a, (f s a).house = s.house) :
    ∀ (l : List α) (s : State), (l.foldl f s).house = s.house
  | [], _ => rfl
  | a :: l, s => (foldl_house f h l (f s a)).trans (h s a)

theorem elementRecord_house (t : Nat) (s : State) (e : Nat × StepRec) : (elementRecord t s e).house = s.house := by
  unfold elementRecord
  repeat' split
  all_goals first
    | rfl
    | exact ((Calm.refl (modTroupe s t _)).record _).house

theorem closeScene_house (t : Nat) (s : State) : (closeScene t s).house = s.house := by
  have h2 (s : State) (tr : Troupe) : (tr.bookings.foldl (bookScene t tr) s).house = s.house :=
    foldl_house (bookScene t tr) (fun _ _ => rfl) _ _
  have h3 (s : State) (tr : Troupe) : ((List.range 8).foldl (fun s p =>
      if bestReady s t tr p then troupePortGauge s t p 0x28 1 else s) s).house = s.house :=
    foldl_house _ (fun s _ => by split <;> rfl) (List.range 8) s
  exact (h3 _ _).trans ((h2 _ _).trans (foldl_house _ (elementRecord_house t) _ _))

theorem countDrift_eq (h : House) : countDrift h = { h with
    theta := (countDrift h).theta, ticksOut := (countDrift h).ticksOut, ticksIn := (countDrift h).ticksIn } := by
  unfold countDrift
  cases h.theta <;> rfl

/-- The scenes of the troupes close without a change of the house. -/
theorem eachTroupe_closeScene_house (s : State) : (eachTroupe closeScene s).house = s.house :=
  foldl_house _ (fun s t => closeScene_house t s) _ _

end Sys2Proof.Machine
end

