-- ==== Sys2Proof/Laws/Serve.lean ====
section
/-! SUPPORT. One lemma for the service of a command that is ready: its own conditions and effect decide. -/

namespace Sys2Proof.Machine

open Sys2Proof

/-- A command that is ready is answered by its own conditions and effect (R321 checks 1 to 5 passed). -/
theorem serve_ready {p : Post} {i : Instr} {c : Cmd} {q : Posted} {s : State}
    (ho : opcodes.contains (opcode i) = true) (h : Ready c.house c.gate i p q s) (ha : c.args = true) :
    serve p i c s = answer p q.target q (c.body p.issuer p.slot q.target (begun p s)) (begun p s) := by
  obtain ⟨h1, h2, h3, h4, h5, h6, h7, h8⟩ := h
  have op : opcodes.contains (imageOpcode q.image) = true := by
    have : imageOpcode q.image = opcode i := by
      have := h3; simp only [spells, Bool.and_eq_true, beq_iff_eq] at this; exact this.1
    rw [this]; exact ho
  have own : (p.issuer == 0 || (imageTarget q.image == p.issuer && ! c.house)) = true := by
    rcases h7 with h | ⟨h, k⟩ <;> simp [*]
  have jd : judge p i c q.image (begun p s) = c.body p.issuer p.slot q.target (begun p s) := by
    simp only [judge, own, h4, h5, h6, h8, ha, Posted.target]; simp
  simp only [serve, h1, h2, h3, op, Bool.not_true, Bool.false_eq_true, if_false, jd, Posted.target]

@[simp] theorem need_true (st : Status) (k : Verdict) : need true st k = k := rfl
@[simp] theorem need_false (st : Status) (k : Verdict) : need false st k = .refuse st := rfl

/-- A met condition lets the verdict through. -/
theorem need_of {c : Bool} (h : c = true) (st : Status) (k : Verdict) : need c st k = k := by rw [h]; rfl

theorem answer_done (p : Post) (t : Nat) (q : Posted) (s s' : State) :
    answer p t q (done s') s = completed p .done [] [] [] s' := rfl

theorem answer_doneWith (p : Post) (t : Nat) (q : Posted) (s s' : State) (rs : List (Nat × List Byte)) :
    answer p t q (doneWith s' rs) s = completed p .done rs [] [] s' := rfl

theorem answer_refuse (p : Post) (t : Nat) (q : Posted) (s : State) (st : Status) :
    answer p t q (.refuse st) s = refusedWith p st s := rfl

theorem answer_finish (p : Post) (t : Nat) (q : Posted) (s s' : State) (st : Status) (rs : List (Nat × List Byte))
    (a b : List Act) : answer p t q (.finish st s' rs a b) s = completed p st rs a b s' := rfl

theorem answer_defer (p : Post) (t : Nat) (q : Posted) (s s' : State) (aw : Awaits) (a : List Act) :
    answer p t q (.defer s' aw a) s = heldBack p t q aw a s' := rfl


end Sys2Proof.Machine
end

