-- ==== Sys2Proof/Laws/Steady.lean ====
section
/-! SUPPORT. The primitive changes of the state leave what commands configure, and so do what they are put together by. -/

namespace Sys2Proof.Machine

open Sys2Proof

variable {but : Nat → Bool}

theorem Steady.refl (s : State) : Steady but s s := ⟨rfl, rfl, rfl, fun _ => rfl, fun _ tr _ h => ⟨tr, h, rfl⟩⟩

theorem Steady.trans {x y z : State} (h : Steady but x y) (k : Steady but y z) : Steady but x z :=
  ⟨k.house.trans h.house, k.check.trans h.check, k.scratch.trans h.scratch,
   fun r => (k.slices r).trans (h.slices r), fun u tr n g => by
     obtain ⟨o, g1, e1⟩ := k.troupes u tr n g
     obtain ⟨o', g2, e2⟩ := h.troupes u o n g1
     exact ⟨o', g2, e1.trans e2⟩⟩

/-- What is steady for every troupe is steady but for some. -/
theorem Steady.weaken {x y : State} (h : Steady (fun _ => false) x y) : Steady but x y :=
  ⟨h.house, h.check, h.scratch, h.slices, fun u tr _ g => h.troupes u tr rfl g⟩

theorem Steady.ite {a s t : State} {c : Prop} [Decidable c] (h : Steady but a s) (k : Steady but a t) :
    Steady but a (if c then s else t) := by
  split <;> assumption

theorem Steady.foldl {α : Type} {a : State} {g : State → α → State} (hg : ∀ s x, Steady but s (g s x)) :
    ∀ (l : List α) {s : State}, Steady but a s → Steady but a (l.foldl g s)
  | [], _, h => h
  | _ :: l, _, h => Steady.foldl hg l (h.trans (hg _ _))

/-- A change of neither troupes, slices nor what is configured. -/
theorem Steady.aside {s t : State} (h1 : t.house.plan = s.house.plan) (h2 : t.check = s.check)
    (h3 : t.scratch = s.scratch) (h4 : t.slices = s.slices) (h5 : t.troupes = s.troupes) : Steady but s t :=
  ⟨h1, h2, h3, fun r => by simp [sliceOf, h4], fun u tr _ g => ⟨tr, by rw [← h5]; exact g, rfl⟩⟩

/-! ### The primitive changes -/

theorem Steady.pokeHbm {a s : State} (h : Steady but a s) (k : Nat) (bs : List Byte) : Steady but a (pokeHbm s k bs) :=
  h.trans (Steady.aside rfl rfl rfl rfl rfl)
theorem Steady.pokeHost {a s : State} (h : Steady but a s) (k : Nat) (bs : List Byte) : Steady but a (pokeHost s k bs) :=
  h.trans (Steady.aside rfl rfl rfl rfl rfl)
theorem Steady.modPort {a s : State} (h : Steady but a s) (p : Nat) (f : Port → Port) : Steady but a (modPort s p f) :=
  h.trans (Steady.aside rfl rfl rfl rfl rfl)
theorem Steady.ports {a s : State} (h : Steady but a s) (x : Tab Port) : Steady but a { s with ports := x } :=
  h.trans (Steady.aside rfl rfl rfl rfl rfl)
theorem Steady.deferred {a s : State} (h : Steady but a s) (x : List Deferred) : Steady but a { s with deferred := x } :=
  h.trans (Steady.aside rfl rfl rfl rfl rfl)
theorem Steady.log {a s : State} (h : Steady but a s) (x : ErrorLog) : Steady but a { s with log := x } :=
  h.trans (Steady.aside rfl rfl rfl rfl rfl)
theorem Steady.modHouse {a s : State} (h : Steady but a s) (f : House → House) (hf : ∀ x, (f x).plan = x.plan) :
    Steady but a (modHouse s f) :=
  h.trans (Steady.aside (hf _) rfl rfl rfl rfl)
theorem Steady.house' {a s : State} (h : Steady but a s) (x : House) (hx : x.plan = s.house.plan) :
    Steady but a { s with house := x } :=
  h.trans (Steady.aside hx rfl rfl rfl rfl)

theorem Steady.modTroupe {a s : State} (h : Steady but a s) (t : Nat) (f : Troupe → Troupe)
    (hf : ∀ tr, (f tr).plan = tr.plan) : Steady but a (modTroupe s t f) :=
  h.trans ⟨rfl, rfl, rfl, fun _ => rfl, fun u tr _ g => by
    have g : tabGet (tabMod s.troupes t f) u = some tr := g
    rw [tabGet_tabMod] at g
    split at g
    · rename_i e
      subst e
      cases o : tabGet s.troupes t with
      | none => rw [o] at g; cases g
      | some x => rw [o] at g; cases g; exact ⟨x, rfl, hf x⟩
    · exact ⟨tr, g, rfl⟩⟩

/-- Any change of a troupe that is left out. -/
theorem Steady.modBut {a s : State} (h : Steady but a s) (t : Nat) (f : Troupe → Troupe) (ht : but t = true) :
    Steady but a (Machine.modTroupe s t f) :=
  h.trans ⟨rfl, rfl, rfl, fun _ => rfl, fun u tr n g => by
    have g : tabGet (tabMod s.troupes t f) u = some tr := g
    rw [tabGet_tabMod, if_neg (by rintro rfl; rw [ht] at n; cases n)] at g
    exact ⟨tr, g, rfl⟩⟩

theorem Steady.modSlice {a s : State} (h : Steady but a s) (r : Nat) (f : Slice → Slice)
    (hf : ∀ sl, (f sl).plan = sl.plan) : Steady but a (modSlice s r f) :=
  h.trans ⟨rfl, rfl, rfl, fun k => by
    by_cases e : r = k
    · subst e; rw [sliceOf_modSlice_same]; exact hf _
    · rw [sliceOf_modSlice_other _ e], fun u tr _ g => ⟨tr, g, rfl⟩⟩

theorem Steady.mapTroupes {a s : State} (h : Steady but a s) (f : Nat → Troupe → Troupe)
    (hf : ∀ n tr, (f n tr).plan = tr.plan) :
    Steady but a { s with troupes := s.troupes.map fun e => (e.1, f e.1 e.2) } :=
  h.trans ⟨rfl, rfl, rfl, fun _ => rfl, fun u tr _ g => by
    have g : tabGet (s.troupes.map fun e => (e.1, f e.1 e.2)) u = some tr := g
    rw [tabGet_map] at g
    cases o : tabGet s.troupes u with
    | none => rw [o] at g; cases g
    | some x => rw [o] at g; cases g; exact ⟨x, rfl, hf u x⟩⟩

end Sys2Proof.Machine
end

