-- ==== Sys2Proof/Laws/SteadyOps.lean ====
section
/-! SUPPORT. Service, frames that arrive, Lines and their queues leave what commands configure. -/

namespace Sys2Proof.Machine

open Sys2Proof

variable {but : Nat → Bool}

/-! ### Ops -/

theorem Steady.poke {z s : State} (h : Steady but z s) (host : Bool) (a : Nat) (bs : List Byte) :
    Steady but z (Sys2Proof.Machine.poke host s a bs) := by
  unfold Sys2Proof.Machine.poke
  simp (maxDischargeDepth := 40) only [h, Steady.ite, Steady.pokeHbm, Steady.pokeHost]

theorem plan_foldl {α : Type} {g : Troupe → α → Troupe} (hg : ∀ tr x, (g tr x).plan = tr.plan) :
    ∀ (l : List α) (tr : Troupe), (l.foldl g tr).plan = tr.plan
  | [], _ => rfl
  | x :: l, tr => (plan_foldl hg l (g tr x)).trans (hg tr x)

theorem plan_modStep (tr : Troupe) (n : Nat) (f : StepRec → StepRec) : (modStep tr n f).plan = tr.plan := by
  unfold modStep; rfl

theorem plan_modLast (tr : Troupe) (f : StepRec → StepRec) : (modLast tr f).plan = tr.plan := by
  first
    | rfl
    | unfold modLast; (repeat' split) <;> simp [plan_modStep]

theorem Steady.gauge {z s : State} (h : Steady but z s) (t off n : Nat) :
    Steady but z (Sys2Proof.Machine.gauge s t off n) := by
  unfold Sys2Proof.Machine.gauge
  simp (maxDischargeDepth := 40) only [h, implies_true, Steady.modTroupe]

theorem Steady.houseGauge {z s : State} (h : Steady but z s) (off n : Nat) :
    Steady but z (Sys2Proof.Machine.houseGauge s off n) := by
  unfold Sys2Proof.Machine.houseGauge
  simp (maxDischargeDepth := 40) only [h, implies_true, Steady.modHouse]

theorem Steady.portGauge {z s : State} (h : Steady but z s) (p k n : Nat) :
    Steady but z (Sys2Proof.Machine.portGauge s p k n) := by
  unfold Sys2Proof.Machine.portGauge
  simp (maxDischargeDepth := 40) only [h, Steady.houseGauge]

theorem Steady.troupePortGauge {z s : State} (h : Steady but z s) (t p off n : Nat) :
    Steady but z (Sys2Proof.Machine.troupePortGauge s t p off n) := by
  unfold Sys2Proof.Machine.troupePortGauge
  simp (maxDischargeDepth := 40) only [h, Steady.gauge]

theorem Steady.suppress {z s : State} (h : Steady but z s) : Steady but z (Sys2Proof.Machine.suppress s) := h.log _

theorem Steady.copyRecord {z s : State} (h : Steady but z s) (r : Rec) (e : ErrRec) :
    Steady but z (Sys2Proof.Machine.copyRecord r e s) := by
  unfold Sys2Proof.Machine.copyRecord
  split
  · exact h
  · exact h.modTroupe _ _ fun _ => rfl

theorem Steady.writeRecord {z s : State} (h : Steady but z s) (r : Rec) :
    Steady but z (Sys2Proof.Machine.writeRecord r s) := by
  unfold Sys2Proof.Machine.writeRecord
  split
  · exact (h.log _).copyRecord _ _
  · exact h.suppress

theorem Steady.ledgerStore {z s : State} (h : Steady but z s) (t num : Nat) :
    Steady but z (Sys2Proof.Machine.ledgerStore t num s) := by
  unfold Sys2Proof.Machine.ledgerStore
  dsimp only
  repeat' split
  all_goals first
    | exact h
    | simp (maxDischargeDepth := 40) only [h, Steady.poke]

theorem Steady.countCause {z s : State} (h : Steady but z s) (row : Option Nat) (fresh : Bool) (t : Nat) :
    Steady but z (Sys2Proof.Machine.countCause row fresh t s) := by
  unfold Sys2Proof.Machine.countCause
  try dsimp only
  repeat' split
  all_goals first
    | exact h
    | simp (maxDischargeDepth := 40) only [h, Steady.gauge]

theorem plan_Troupe.fall (row : Option Nat) (fresh opened : Bool) (s : State) (tr : Troupe) :
    (Troupe.fall row fresh opened s tr).plan = tr.plan := by
  first
    | rfl
    | unfold Troupe.fall; (repeat' split) <;> simp [plan_modLast]

theorem Steady.curtain {z s : State} (h : Steady but z s) (row : Option Nat) (t : Nat) :
    Steady but z (Sys2Proof.Machine.curtain row t s) := by
  unfold Sys2Proof.Machine.curtain
  try dsimp only
  repeat' split
  all_goals first
    | exact h
    | simp (maxDischargeDepth := 40) only [h, implies_true, Steady.countCause,
      Steady.ledgerStore, Steady.modTroupe, plan_Troupe.fall]

theorem Steady.boardWrite {z s : State} (h : Steady but z s) (t slot off : Nat) (bs : List Byte) :
    Steady but z (Sys2Proof.Machine.boardWrite s t slot off bs) := h.modTroupe _ _ (by intro; rfl)

theorem Steady.completeSlot {z s : State} (h : Steady but z s) (i k : Nat) (st : Status) (res : List (Nat × List Byte)) :
    Steady but z (Sys2Proof.Machine.completeSlot i k st res s).1 := by
  unfold Sys2Proof.Machine.completeSlot
  split
  · exact h
  · have f : Steady but z (res.foldl (fun s e => Sys2Proof.Machine.boardWrite s i k (192 + e.1) e.2) s) :=
      Steady.foldl (fun s e => (Steady.refl s).boardWrite ..) res h
    exact Steady.deferred (Steady.modTroupe (f.boardWrite _ _ _ _) _ _ (by intro; rfl)) _

theorem Steady.cueAdd {z s : State} (h : Steady but z s) (t c n : Nat) : Steady but z (Sys2Proof.Machine.cueAdd t c n s).1 := by
  unfold Sys2Proof.Machine.cueAdd
  split
  · exact h
  · split
    · exact h
    · exact h.modTroupe _ _ fun _ => rfl

theorem Steady.fenceTroupe {z s : State} (h : Steady but z s) (t : Nat) (st : Status) (ix : BitVec 32) (row : Option Nat) :
    Steady but z (Sys2Proof.Machine.fenceTroupe t st ix row s).1 := by
  unfold Sys2Proof.Machine.fenceTroupe
  split <;> first | exact (h.curtain _ _).modTroupe _ _ fun _ => rfl | exact h

theorem Steady.act {z s : State} (h : Steady but z s) (x : Act) : Steady but z (Sys2Proof.Machine.act x s).1 := by
  cases x with
  | complete i k st res => exact h.completeSlot ..
  | store k bs => exact h.pokeHbm ..
  | signal t c => exact h.cueAdd ..
  | record r => exact h.writeRecord ..
  | fault r row => exact h.writeRecord ..
  | fence t st ix row => exact h.fenceTroupe ..

theorem Steady.runActs {z : State} : ∀ (n : Nat) (xs : List Act) {s : State}, Steady but z s →
    Steady but z (Sys2Proof.Machine.runActs n xs s)
  | 0, _, _, h => h
  | _ + 1, [], _, h => h
  | n + 1, x :: _, _, h => Steady.runActs n _ (h.act x)

theorem Steady.run {z s : State} (h : Steady but z s) (as : List Act) :
    Steady but z (Sys2Proof.Machine.run as s) := by
  unfold Sys2Proof.Machine.run
  simp (maxDischargeDepth := 40) only [h, Steady.runActs]

theorem Steady.record {z s : State} (h : Steady but z s) (r : Rec) :
    Steady but z (Sys2Proof.Machine.record r s) := by
  unfold Sys2Proof.Machine.record
  simp (maxDischargeDepth := 40) only [h, Steady.run]

theorem Steady.fault {z s : State} (h : Steady but z s) (r : Rec) (row : Option Nat) :
    Steady but z (Sys2Proof.Machine.fault r row s) := by
  unfold Sys2Proof.Machine.fault
  simp (maxDischargeDepth := 40) only [h, Steady.run]

theorem Steady.signal {z s : State} (h : Steady but z s) (t c : Nat) :
    Steady but z (Sys2Proof.Machine.signal t c s) := by
  unfold Sys2Proof.Machine.signal
  simp (maxDischargeDepth := 40) only [h, Steady.run]

theorem Steady.signalField {z s : State} (h : Steady but z s) (t : Nat) (w : BitVec 16) :
    Steady but z (Sys2Proof.Machine.signalField t w s) := by
  unfold Sys2Proof.Machine.signalField
  simp (maxDischargeDepth := 40) only [h, Steady.ite, Steady.signal]

theorem Steady.completeDeferred {z s : State} (h : Steady but z s) (t : Nat) (which : Awaits → Bool) (st : Status)
    (res : List (Nat × List Byte)) : Steady but z (Sys2Proof.Machine.completeDeferred t which st res s) := h.run _

theorem plan_accountPaused (d : Nat) (s : State) (tr : Troupe) : (accountPaused d s tr).plan = tr.plan := by
  first
    | rfl
    | unfold accountPaused; (repeat' split) <;> simp []

theorem foldl_troupes (g : State → Nat × Port → Nat) : ∀ (l : Tab Port) (s : State),
    (l.foldl (fun s e => Machine.portGauge s e.1 28 (g s e)) s).troupes = s.troupes
  | [], _ => rfl
  | _ :: r, _ => foldl_troupes g r _

theorem Steady.passCk {z s : State} (h : Steady but z s) (d : Nat) : Steady but z (Sys2Proof.Machine.passCk d s) := by
  refine h.trans ?_
  unfold Sys2Proof.Machine.passCk
  split
  · exact Steady.refl s
  · dsimp only
    generalize e : List.foldl _ s _ = p
    have k : Steady but s p := by
      rw [← e]; exact Steady.foldl (fun s e => (Steady.refl s).portGauge ..) _ (Steady.refl s)
    have tp : p.troupes = s.troupes := by rw [← e]; exact foldl_troupes (fun s e => ckNs (s.house.ck + e.2.pauses.foldl (fun a q => max a (min d (q.2.1 - s.house.ck))) 0) - ckNs s.house.ck) _ s
    refine ⟨k.house, k.check, k.scratch, k.slices, fun u tr n g => ?_⟩
    dsimp only at g
    split at g
    · exact ⟨tr, g, rfl⟩
    · rw [tabGet_map s.troupes u (fun _ tr => accountPaused d s tr)] at g
      cases o : tabGet s.troupes u with
      | none => rw [o] at g; cases g
      | some x => rw [o] at g; cases g; exact ⟨x, rfl, rfl⟩

/-! ### Operands -/

theorem Steady.begun {z s : State} (h : Steady but z s) (p : Post) :
    Steady but z (Sys2Proof.Machine.begun p s) := by
  unfold Sys2Proof.Machine.begun
  simp (maxDischargeDepth := 40) only [h, implies_true, Steady.gauge, Steady.modHouse, Steady.passCk]

theorem Steady.markServed {z s : State} (h : Steady but z s) (p : Post) :
    Steady but z (Sys2Proof.Machine.markServed p s) := h.modTroupe _ _ (by intro; rfl)

theorem Steady.completed {z s : State} (h : Steady but z s) (p : Post) (st : Status) (results : List (Nat × List Byte)) (before after : List Act) :
    Steady but z (Sys2Proof.Machine.completed p st results before after s) := by
  unfold Sys2Proof.Machine.completed
  simp (maxDischargeDepth := 40) only [h, Steady.markServed, Steady.run]

theorem Steady.refusedWith {z s : State} (h : Steady but z s) (p : Post) (st : Status) :
    Steady but z (Sys2Proof.Machine.refusedWith p st s) := by
  unfold Sys2Proof.Machine.refusedWith
  simp (maxDischargeDepth := 40) only [h, Steady.gauge, Steady.markServed, Steady.run]

theorem Steady.heldBack {z s : State} (h : Steady but z s) (p : Post) (target : Nat) (q : Posted) (aw : Awaits)
    (before : List Act) : Steady but z (Sys2Proof.Machine.heldBack p target q aw before s) :=
  Steady.run (((h.markServed p).boardWrite _ _ _ _).deferred _) _

/-- The state that a verdict leaves is steady from the state it was reached from. -/

def Verdict.steady (but : Nat → Bool) (s : State) : Verdict → Prop
  | .refuse _ => True
  | .finish _ t _ _ _ => Steady but s t
  | .defer t _ _ => Steady but s t

theorem Verdict.steady_need {s : State} {c : Bool} {st : Status} {v : Verdict} (h : v.steady but s) :
    (need c st v).steady but s := by
  cases c
  · trivial
  · exact h

theorem Steady.answer {z s : State} (h : Steady but z s) (p : Post) (target : Nat) (q : Posted) {v : Verdict}
    (k : v.steady but s) : Steady but z (Sys2Proof.Machine.answer p target q v s) := by
  cases v with
  | refuse st => exact h.refusedWith p st
  | finish st t res before after => exact (h.trans k).completed p st res before after
  | defer t aw before => exact (h.trans k).heldBack p target q aw before

/-- Service is steady where the command's own effect is. -/

theorem Steady.serve {z s : State} (h : Steady but z s) (p : Post) (i : Instr) {c : Cmd}
    (k : ∀ q, servable p (Machine.passCk p.dt s) = some q →
      (c.body p.issuer p.slot q.target (Machine.begun p s)).steady but (Machine.begun p s)) :
    Steady but z (Sys2Proof.Machine.serve p i c s) := by
  have j : ∀ q, servable p (Machine.passCk p.dt s) = some q →
      (judge p i c q.image (Machine.begun p s)).steady but (Machine.begun p s) := by
    intro q e
    unfold judge
    dsimp only
    repeat' split
    all_goals first | trivial | exact k q e
  unfold Sys2Proof.Machine.serve
  dsimp only
  split
  · exact h.passCk _
  · rename_i q e
    split
    · exact Steady.answer ((h.begun p).record _) _ _ _ trivial
    · split
      · exact Steady.answer (h.begun p) _ _ _ trivial
      · split
        · exact h.passCk _
        · exact Steady.answer (h.begun p) _ _ _ (j q e)

/-! ### Queues -/

theorem Steady.launched {z s : State} (h : Steady but z s) (t : Nat) (f : OutFrame) :
    Steady but z (Sys2Proof.Machine.launched t f s) := by
  unfold Sys2Proof.Machine.launched
  simp (maxDischargeDepth := 40) only [h, implies_true, Steady.modTroupe]

theorem Steady.loseSheet {z s : State} (h : Steady but z s) (port : Nat) :
    Steady but z (Sys2Proof.Machine.loseSheet port s) := by
  unfold Sys2Proof.Machine.loseSheet
  simp (maxDischargeDepth := 40) only [h, Steady.refl, implies_true, Steady.foldl, Steady.launched]

theorem Steady.dropQueues {z s : State} (h : Steady but z s) (port k : Nat) :
    Steady but z (Sys2Proof.Machine.dropQueues port k s) :=
  Steady.ports (Steady.modPort (Steady.loseSheet (h.portGauge _ _ _) _) _ _) _

theorem Steady.pausePartner {z s : State} (h : Steady but z s) (port prio : Nat) :
    Steady but z (Sys2Proof.Machine.pausePartner port prio s) := by
  unfold Sys2Proof.Machine.pausePartner
  try dsimp only
  repeat' split
  all_goals first
    | exact h
    | simp (maxDischargeDepth := 40) only [h, Steady.modPort]

theorem Steady.releasePartner {z s : State} (h : Steady but z s) (before : Nat) (port prio : Nat) :
    Steady but z (Sys2Proof.Machine.releasePartner before port prio s) := by
  unfold Sys2Proof.Machine.releasePartner
  try dsimp only
  repeat' split
  all_goals first
    | exact h
    | simp (maxDischargeDepth := 40) only [h, Steady.modPort]

theorem Steady.bufferFrame {z s : State} (h : Steady but z s) (arrival : Nat)
    (r : Nat × List Byte × Nat × Nat × BitVec 16) :
    Steady but z (Sys2Proof.Machine.bufferFrame arrival r s) := by
  unfold Sys2Proof.Machine.bufferFrame
  dsimp only
  repeat' split
  all_goals first
    | exact h
    | simp (maxDischargeDepth := 40) only [h, Steady.modPort,
      Steady.pausePartner, Steady.portGauge]

theorem Steady.unbuffer {z s : State} (h : Steady but z s) (arrival : Nat)
    (r : Nat × List Byte × Nat × Nat × BitVec 16) :
    Steady but z (Sys2Proof.Machine.unbuffer arrival r s) := by
  unfold Sys2Proof.Machine.unbuffer
  dsimp only
  repeat' split
  all_goals first
    | exact h
    | simp (maxDischargeDepth := 40) only [h, Steady.modPort,
      Steady.releasePartner]

theorem Steady.declineDim {z s : State} (h : Steady but z s) (port : Nat) :
    Steady but z (Sys2Proof.Machine.declineDim port s) := by
  unfold Sys2Proof.Machine.declineDim
  repeat' split
  all_goals first
    | exact h
    | simp (maxDischargeDepth := 40) only [h, Steady.modPort]

/-! ### Admission -/

theorem Steady.chargeShaper {z s : State} (h : Steady but z s) (t port bytes : Nat) :
    Steady but z (Sys2Proof.Machine.chargeShaper t port bytes s) := by
  unfold Sys2Proof.Machine.chargeShaper
  simp (maxDischargeDepth := 40) only [h, implies_true, Steady.modTroupe, Steady.troupePortGauge]

/-! ### House -/

theorem Steady.modUnit {z s : State} (h : Steady but z s) (u : Nat) (f : UnitRec → UnitRec) :
    Steady but z (Sys2Proof.Machine.modUnit s u f) := by
  unfold Sys2Proof.Machine.modUnit
  simp (maxDischargeDepth := 40) only [h, implies_true, Steady.modHouse]

theorem Steady.curtainAll {z s : State} (h : Steady but z s) (row : Nat) (which : Troupe → Bool) :
    Steady but z (Sys2Proof.Machine.curtainAll row which s) := by
  unfold Sys2Proof.Machine.curtainAll
  simp (maxDischargeDepth := 40) only [h, Steady.refl, implies_true, Steady.foldl, Steady.curtain]

theorem plan_abandonPit (s : State) (u : Nat) (tr : Troupe) : (abandonPit s u tr).plan = tr.plan := by
  first
    | rfl
    | unfold abandonPit; (repeat' split) <;> simp []

/-! ### Wire -/

theorem Steady.dropAtOne {z s : State} (h : Steady but z s) (port k : Nat) :
    Steady but z (Sys2Proof.Machine.dropAtOne port k s) := by
  unfold Sys2Proof.Machine.dropAtOne
  simp (maxDischargeDepth := 40) only [h, Steady.ite, Steady.modPort, Steady.portGauge, Steady.record]

theorem Steady.dropMalformed {z s : State} (h : Steady but z s) (port check : Nat) (f : List Byte) :
    Steady but z (Sys2Proof.Machine.dropMalformed port check f s) := by
  unfold Sys2Proof.Machine.dropMalformed
  simp (maxDischargeDepth := 40) only [h, Steady.ite, Steady.log, Steady.portGauge, Steady.record, Steady.suppress]

theorem Steady.received {z s : State} (h : Steady but z s) (port : Nat) (k : Checked) :
    Steady but z (Sys2Proof.Machine.received port k s) := by
  unfold Sys2Proof.Machine.received
  simp (maxDischargeDepth := 40) only [h, Steady.ite, Steady.modPort, Steady.portGauge]

theorem Steady.arrived {z s : State} (h : Steady but z s) (kind : Kind) (port : Nat) (f : List Byte) {k : State → State}
    (hk : ∀ s, Steady but s (k s)) : Steady but z (Sys2Proof.Machine.arrived kind port f k s) := by
  unfold Sys2Proof.Machine.arrived
  dsimp only
  have g := fun c => h.received port c
  repeat' split
  all_goals first
    | exact h
    | exact (g _).trans (hk _)
    | exact (g _).dropAtOne _ _
    | exact (g _).portGauge _ _ _
    | exact (g _).dropMalformed _ _ _

theorem Steady.arrive {z s : State} (h : Steady but z s) (kind : Kind) (dt port : Nat) (f : List Byte) {k : State → State}
    (hk : ∀ s, Steady but s (k s)) : Steady but z (Sys2Proof.Machine.arrive kind dt port f k s) :=
  (h.passCk dt).arrived kind port f hk

theorem Steady.arriveOpen {z s : State} (h : Steady but z s) (kind : Kind) (c : Bool) (dt port : Nat) (f : List Byte)
    {k : State → State} (hk : ∀ s, Steady but s (k s)) : Steady but z (Sys2Proof.Machine.arriveOpen kind c dt port f k s) := by
  refine h.arrive kind dt port f fun s => ?_
  repeat' split
  all_goals first
    | exact Steady.refl s
    | exact (Steady.refl s).portGauge _ _ _
    | exact hk s

/-! ### LineOps -/

theorem Steady.modLine {z s : State} (h : Steady but z s) (t l : Nat) (f : Line → Line) :
    Steady but z (Sys2Proof.Machine.modLine s t l f) := by
  unfold Sys2Proof.Machine.modLine
  simp (maxDischargeDepth := 40) only [h, implies_true, Steady.modTroupe]

theorem Steady.modPeer {z s : State} (h : Steady but z s) (t l i : Nat) (f : Peer → Peer) :
    Steady but z (Sys2Proof.Machine.modPeer s t l i f) := by
  unfold Sys2Proof.Machine.modPeer
  simp (maxDischargeDepth := 40) only [h, Steady.modLine]

theorem Steady.brokenRoute {z s : State} (h : Steady but z s) (r : Nat) (bank : Bool) (key port : Nat) :
    Steady but z (Sys2Proof.Machine.brokenRoute r bank key port s) := by
  unfold Sys2Proof.Machine.brokenRoute
  simp (maxDischargeDepth := 40) only [h, Steady.ite, implies_true, Steady.modSlice, Steady.portGauge, Steady.record]

theorem Steady.sendControl {z s : State} (h : Steady but z s) (t cls : Nat) (dst : BlockAddr) (frame : List Byte) :
    Steady but z (Sys2Proof.Machine.sendControl t cls dst frame s) := by
  unfold Sys2Proof.Machine.sendControl
  repeat' split
  all_goals first
    | exact h
    | simp (maxDischargeDepth := 40) only [h, Steady.brokenRoute,
      Steady.modPort, Steady.portGauge]

theorem Steady.sendLink {z s : State} (h : Steady but z s) (port type byte2 : Nat) (fields : List (Nat × Nat × Nat)) :
    Steady but z (Sys2Proof.Machine.sendLink port type byte2 fields s) := by
  unfold Sys2Proof.Machine.sendLink
  simp (maxDischargeDepth := 40) only [h, Steady.modPort]

theorem Steady.sendAck {z s : State} (h : Steady but z s) (t l i : Nat) :
    Steady but z (Sys2Proof.Machine.sendAck t l i s) := by
  unfold Sys2Proof.Machine.sendAck
  repeat' split
  all_goals first
    | exact h
    | simp (maxDischargeDepth := 40) only [h, Steady.modPeer,
      Steady.sendControl]

theorem Steady.sendNak {z s : State} (h : Steady but z s) (t l : Nat) (dst : BlockAddr) (epoch : BitVec 16) (first : BitVec 32) (reason : Nat) (echo : Nat × Nat × Bool) :
    Steady but z (Sys2Proof.Machine.sendNak t l dst epoch first reason echo s) := by
  unfold Sys2Proof.Machine.sendNak
  simp (maxDischargeDepth := 40) only [h, Steady.sendControl]

theorem Steady.sendKnock {z s : State} (h : Steady but z s) (t l i stage : Nat) :
    Steady but z (Sys2Proof.Machine.sendKnock t l i stage s) := by
  unfold Sys2Proof.Machine.sendKnock
  repeat' split
  all_goals first
    | exact h
    | simp (maxDischargeDepth := 40) only [h, Steady.modPeer,
      Steady.sendControl]

theorem Steady.knockAll {z s : State} (h : Steady but z s) (t l : Nat) :
    Steady but z (Sys2Proof.Machine.knockAll t l s) := by
  unfold Sys2Proof.Machine.knockAll
  simp (maxDischargeDepth := 40) only [h, Steady.refl, implies_true, Steady.foldl, Steady.sendKnock]

theorem Steady.finalAcks {z s : State} (h : Steady but z s) (t l : Nat) :
    Steady but z (Sys2Proof.Machine.finalAcks t l s) := by
  unfold Sys2Proof.Machine.finalAcks
  simp (maxDischargeDepth := 40) only [h, Steady.refl, implies_true, Steady.foldl, Steady.modPeer, Steady.sendAck]

theorem Steady.sendFinal {z s : State} (h : Steady but z s) (t l i : Nat) :
    Steady but z (Sys2Proof.Machine.sendFinal t l i s) := by
  unfold Sys2Proof.Machine.sendFinal
  repeat' split
  all_goals first
    | exact h
    | simp (maxDischargeDepth := 40) only [h, Steady.sendControl]

theorem Steady.sendAnswer {z s : State} (h : Steady but z s) (t l : Nat) (dst : BlockAddr) (epoch knock : BitVec 16) (st : Status) (retry : Nat) :
    Steady but z (Sys2Proof.Machine.sendAnswer t l dst epoch knock st retry s) := by
  unfold Sys2Proof.Machine.sendAnswer
  simp (maxDischargeDepth := 40) only [h, Steady.sendControl]

theorem Steady.ringEnd {z s : State} (h : Steady but z s) (t ring : Nat) :
    Steady but z (Sys2Proof.Machine.ringEnd t ring s) := by
  unfold Sys2Proof.Machine.ringEnd
  simp (maxDischargeDepth := 40) only [h, implies_true, Steady.modTroupe]

theorem Steady.endOp {z s : State} (h : Steady but z s) (t : Nat) (epoch : BitVec 16) (op : LineOp) (st : Status) :
    Steady but z (Sys2Proof.Machine.endOp t epoch op st s) := by
  unfold Sys2Proof.Machine.endOp
  simp (maxDischargeDepth := 40) only [h, Steady.pokeHbm, Steady.ringEnd, Steady.signalField]

theorem Steady.endOps {z s : State} (h : Steady but z s) (t : Nat) (epoch : BitVec 16) (ops : List LineOp) (st : Status) :
    Steady but z (Sys2Proof.Machine.endOps t epoch ops st s) := by
  unfold Sys2Proof.Machine.endOps
  simp (maxDischargeDepth := 40) only [h, Steady.refl, implies_true, Steady.foldl, Steady.endOp]

theorem Steady.completeOps {z s : State} (h : Steady but z s) (t l : Nat) :
    Steady but z (Sys2Proof.Machine.completeOps t l s) := by
  unfold Sys2Proof.Machine.completeOps
  dsimp only
  repeat' split
  all_goals first
    | exact h
    | simp (maxDischargeDepth := 40) only [h, Steady.refl, implies_true, Steady.completeDeferred, Steady.endOp, Steady.foldl, Steady.modLine]

theorem Steady.withdraw {z s : State} (h : Steady but z s) (t l : Nat) (keep : OutFrame → Bool) :
    Steady but z (Sys2Proof.Machine.withdraw t l keep s) := by
  unfold Sys2Proof.Machine.withdraw
  simp (maxDischargeDepth := 40) only [h, implies_true, Steady.modTroupe]

theorem Steady.enterFrames {z : State} (t l : Nat) : ∀ (fs : List OutFrame) {s : State}, Steady but z s →
    Steady but z (Sys2Proof.Machine.enterFrames t l fs s)
  | [], _, h => h
  | f :: r, s, h => by
    unfold Sys2Proof.Machine.enterFrames
    dsimp only
    split
    · exact h
    · split
      · exact h
      · exact Steady.enterFrames t l r (Steady.modLine (h.modTroupe _ _ (by intro; rfl)) _ _ _)

theorem Steady.enterLine {z s : State} (h : Steady but z s) (t l : Nat) :
    Steady but z (Sys2Proof.Machine.enterLine t l s) := by
  unfold Sys2Proof.Machine.enterLine
  simp (maxDischargeDepth := 40) only [h, Steady.ite, Steady.enterFrames]

theorem Steady.enterAll {z s : State} (h : Steady but z s) (t : Nat) :
    Steady but z (Sys2Proof.Machine.enterAll t s) := by
  unfold Sys2Proof.Machine.enterAll
  simp (maxDischargeDepth := 40) only [h, Steady.refl, implies_true, Steady.foldl, Steady.enterLine]

theorem Steady.faultLine {z s : State} (h : Steady but z s) (t l : Nat) (r : Rec) :
    Steady but z (Sys2Proof.Machine.faultLine t l r s) := by
  unfold Sys2Proof.Machine.faultLine
  simp (maxDischargeDepth := 40) only [h, Steady.ite, Steady.curtain, Steady.endOps, Steady.gauge, Steady.modLine,
    Steady.record, Steady.withdraw]

theorem Steady.checkLine {z s : State} (h : Steady but z s) (t l : Nat) :
    Steady but z (Sys2Proof.Machine.checkLine t l s) := by
  unfold Sys2Proof.Machine.checkLine
  simp (maxDischargeDepth := 40) only [h, Steady.ite, Steady.faultLine]

theorem Steady.useLine {z s : State} (h : Steady but z s) (t l : Nat) {f : State → State} (hf : ∀ s, Steady but s (f s)) :
    Steady but z (Sys2Proof.Machine.useLine t l f s) := by
  unfold Sys2Proof.Machine.useLine
  split
  · exact h.checkLine _ _
  · exact h.trans (hf s)

theorem Steady.leaveEpoch {z s : State} (h : Steady but z s) (t l : Nat) :
    Steady but z (Sys2Proof.Machine.leaveEpoch t l s) := by
  unfold Sys2Proof.Machine.leaveEpoch
  simp (maxDischargeDepth := 40) only [h, Steady.refl, Steady.ite, implies_true, Steady.foldl, Steady.endOp,
    Steady.gauge, Steady.modLine, Steady.withdraw]

theorem Steady.openEpoch {z s : State} (h : Steady but z s) (t l : Nat) (epoch : BitVec 16) :
    Steady but z (Sys2Proof.Machine.openEpoch t l epoch s) := by
  unfold Sys2Proof.Machine.openEpoch
  simp (maxDischargeDepth := 40) only [h, Steady.completeOps,
      Steady.enterLine, Steady.leaveEpoch, Steady.modLine]

theorem Steady.resetCurtain {z s : State} (h : Steady but z s) (t l : Nat) :
    Steady but z (Sys2Proof.Machine.resetCurtain t l s) := by
  unfold Sys2Proof.Machine.resetCurtain
  simp (maxDischargeDepth := 40) only [h, Steady.ite, Steady.curtain]

theorem Steady.askEpoch {z s : State} (h : Steady but z s) (t l : Nat) (epoch : BitVec 16) :
    Steady but z (Sys2Proof.Machine.askEpoch t l epoch s) := by
  unfold Sys2Proof.Machine.askEpoch
  simp (maxDischargeDepth := 40) only [h, Steady.knockAll,
      Steady.modLine, Steady.withdraw]

theorem Steady.beginReset {z s : State} (h : Steady but z s) (t l : Nat) :
    Steady but z (Sys2Proof.Machine.beginReset t l s) := by
  unfold Sys2Proof.Machine.beginReset
  simp (maxDischargeDepth := 40) only [h, Steady.ite, Steady.askEpoch,
      Steady.finalAcks, Steady.resetCurtain]

theorem Steady.closeLine {z s : State} (h : Steady but z s) (t l : Nat) (st : Status) :
    Steady but z (Sys2Proof.Machine.closeLine t l st s) := by
  unfold Sys2Proof.Machine.closeLine
  simp (maxDischargeDepth := 40) only [h, Steady.endOps, Steady.modLine, Steady.withdraw]

theorem plan_mirrorAcked (s : State) (tr : Troupe) (f : OutFrame) : (mirrorAcked s tr f).plan = tr.plan := by
  first
    | rfl
    | unfold mirrorAcked; (repeat' split) <;> simp [plan_modStep]

theorem Steady.ackBefore {z s : State} (h : Steady but z s) (t l i : Nat) (seq : BitVec 32) :
    Steady but z (Sys2Proof.Machine.ackBefore t l i seq s).1 := by
  unfold Sys2Proof.Machine.ackBefore
  split
  · exact h
  · dsimp only
    split
    · exact h
    · refine Steady.modPeer (Steady.modTroupe (h.modLine _ _ _) _ _ fun tr => ?_) _ _ _ _
      exact plan_foldl (fun tr e => plan_mirrorAcked ..) _ _

theorem Steady.fenceDone {z s : State} (h : Steady but z s) (t l : Nat) :
    Steady but z (Sys2Proof.Machine.fenceDone t l s) := by
  unfold Sys2Proof.Machine.fenceDone
  simp (maxDischargeDepth := 40) only [h, Steady.ite, Steady.completeDeferred]

theorem Steady.sampleRtt {z s : State} (h : Steady but z s) (t l i r acked : Nat) :
    Steady but z (Sys2Proof.Machine.sampleRtt t l i r acked s) := by
  unfold Sys2Proof.Machine.sampleRtt
  simp (maxDischargeDepth := 40) only [h, Steady.modPeer]

theorem Steady.goBackFrom {z s : State} (h : Steady but z s) (t l i : Nat) (seq : BitVec 32) :
    Steady but z (Sys2Proof.Machine.goBackFrom t l i seq s) := by
  unfold Sys2Proof.Machine.goBackFrom
  simp (maxDischargeDepth := 40) only [h, Steady.gauge, Steady.modPeer]

theorem Steady.dropLines {z s : State} (h : Steady but z s) (t : Nat) :
    Steady but z (Sys2Proof.Machine.dropLines t s) := by
  unfold Sys2Proof.Machine.dropLines
  simp (maxDischargeDepth := 40) only [h, implies_true, Steady.modTroupe]

/-! ### Bill -/

theorem plan_setEntry (tr : Troupe) (e : Entry) : (setEntry tr e).plan = tr.plan := by
  first
    | rfl
    | unfold setEntry; (repeat' split) <;> simp []

theorem plan_dropTensor (tr : Troupe) (tensor : Nat) : (dropTensor tr tensor).plan = tr.plan := by
  first
    | rfl
    | unfold dropTensor; (repeat' split) <;> simp []

theorem Steady.useEntry {z s : State} (h : Steady but z s) (finder : Subsystem) (t tensor : Nat) :
    Steady but z (Sys2Proof.Machine.useEntry finder t tensor s) := by
  unfold Sys2Proof.Machine.useEntry
  dsimp only
  repeat' split
  all_goals first
    | exact h
    | simp (maxDischargeDepth := 40) only [h, implies_true, Steady.curtain,
      Steady.modTroupe, Steady.record]

theorem plan_sealed (tr : Troupe) : (sealed tr).plan = tr.plan := by
  first
    | rfl
    | unfold sealed; (repeat' split) <;> simp []

/-! ### Train -/

theorem Steady.queueOn {z s : State} (h : Steady but z s) (cls t l peer : Nat) (charge : Option Charge)
    (step : Option Nat) (cars : List Car) :
    Steady but z (Sys2Proof.Machine.queueOn cls t l peer charge step cars s) := by
  unfold Sys2Proof.Machine.queueOn
  try dsimp only
  repeat' split
  all_goals first
    | exact h
    | simp (maxDischargeDepth := 40) only [h, implies_true, Steady.enterLine,
      Steady.modLine, Steady.modTroupe]

theorem Steady.queueCars {z s : State} (h : Steady but z s) (t l peer : Nat) (charge : Option Charge)
    (step : Option Nat) (cars : List Car) :
    Steady but z (Sys2Proof.Machine.queueCars t l peer charge step cars s) := by
  unfold Sys2Proof.Machine.queueCars
  try dsimp only
  repeat' split
  all_goals first
    | exact h
    | simp (maxDischargeDepth := 40) only [h, Steady.queueOn]

theorem Steady.sendMember {z s : State} (h : Steady but z s) (t : Nat) (c : Carousel) (k member : Nat)
    (charge : Option Charge) (step : Option Nat) (build : Nat → List Car) :
    Steady but z (Sys2Proof.Machine.sendMember t c k member charge step build s) := by
  unfold Sys2Proof.Machine.sendMember
  dsimp only
  repeat' split
  all_goals first
    | exact h
    | simp (maxDischargeDepth := 40) only [h, Steady.queueOn]

/-! ### Optim -/

theorem plan_withRecords (tr : Troupe) (n : Nat) : (withRecords tr n).plan = tr.plan := by
  first
    | rfl
    | unfold withRecords; (repeat' split) <;> simp []

theorem plan_viewFor (tr : Troupe) (step : Nat) : (viewFor tr step).plan = tr.plan := by
  first
    | rfl
    | unfold viewFor; (repeat' split) <;> simp [plan_withRecords]

theorem plan_setPending (tr : Troupe) (a : Tab TState) : (setPending tr a).plan = tr.plan := by
  first
    | rfl
    | unfold setPending; (repeat' split) <;> simp []

theorem plan_setCommitted (tr : Troupe) (a : Tab TState) : (setCommitted tr a).plan = tr.plan := by
  first
    | rfl
    | unfold setCommitted; (repeat' split) <;> simp []

end Sys2Proof.Machine
end

