-- ==== Sys2Proof/Laws/SteadyExchange.lean ====
section
/-! SUPPORT. Intake, quantisation, exchange, mirrors, rings, the tally and the ledger leave what commands configure. -/

namespace Sys2Proof.Machine

open Sys2Proof

variable {but : Nat → Bool}

/-! ### Exchange -/

theorem Steady.spendShare {z s : State} (h : Steady but z s) (pit bytes : Nat) :
    Steady but z (Sys2Proof.Machine.spendShare pit bytes s) := by
  unfold Sys2Proof.Machine.spendShare
  simp (maxDischargeDepth := 40) only [h, implies_true, Steady.modHouse]

theorem Steady.releaseSlot {z s : State} (h : Steady but z s) (t : Nat) (slot : BitVec 64) (cue : BitVec 16) :
    Steady but z (Sys2Proof.Machine.releaseSlot t slot cue s) := by
  unfold Sys2Proof.Machine.releaseSlot
  simp (maxDischargeDepth := 40) only [h, implies_true, Steady.modTroupe,
      Steady.signalField]

theorem Steady.releaseChunk {z s : State} (h : Steady but z s) (t : Nat) (key : Nat) :
    Steady but z (Sys2Proof.Machine.releaseChunk t s key) := by
  unfold Sys2Proof.Machine.releaseChunk
  try dsimp only
  repeat' split
  all_goals first
    | exact h
    | simp (maxDischargeDepth := 40) only [h, implies_true, Steady.modTroupe,
      Steady.releaseSlot]

theorem Steady.releaseChunks {z s : State} (h : Steady but z s) (t : Nat) (keys : List Nat) :
    Steady but z (Sys2Proof.Machine.releaseChunks t keys s) := by
  unfold Sys2Proof.Machine.releaseChunks
  simp (maxDischargeDepth := 40) only [h, Steady.refl, implies_true, Steady.foldl,
      Steady.releaseChunk]

theorem Steady.modWork {z s : State} (h : Steady but z s) (t b : Nat) (f : BWork → BWork) :
    Steady but z (Sys2Proof.Machine.modWork s t b f) := by
  unfold Sys2Proof.Machine.modWork
  simp (maxDischargeDepth := 40) only [h, implies_true, Steady.modTroupe]

theorem Steady.useBank {z s : State} (h : Steady but z s) (t : Nat) :
    Steady but z (Sys2Proof.Machine.useBank t s) := by
  unfold Sys2Proof.Machine.useBank
  simp (maxDischargeDepth := 40) only [h, Steady.ite, implies_true, Steady.fault, Steady.modTroupe]

theorem Steady.useVersion {z s : State} (h : Steady but z s) (t : Nat) :
    Steady but z (Sys2Proof.Machine.useVersion t s) := by
  unfold Sys2Proof.Machine.useVersion
  simp (maxDischargeDepth := 40) only [h, Steady.ite, implies_true, Steady.fault, Steady.modTroupe]

theorem plan_setResidual (tr : Troupe) (bank : Bool) (key : Nat) (r : List BF16) : (setResidual tr bank key r).plan = tr.plan := by
  first
    | rfl
    | unfold setResidual; (repeat' split) <;> simp []

theorem Steady.spendChunks {z s : State} (h : Steady but z s) (per : Nat) (ks : List
    ((Nat × Nat × Nat × Bool) × Nat)) :
    Steady but z (Sys2Proof.Machine.spendChunks per ks s) := by
  exact Steady.foldl (fun s k => (Steady.refl s).spendShare _ _) ks h

theorem Steady.drainChunk {z s : State} (h : Steady but z s) (t : Nat) (k : (Nat × Nat × Nat × Bool) × Nat) :
    Steady but z (Sys2Proof.Machine.drainChunk t s k) := by
  unfold Sys2Proof.Machine.drainChunk
  exact Steady.releaseChunk (h.modTroupe _ _ (by intro; rfl)) _ _

theorem plan_modScale (tr : Troupe) (tensor : Nat) (f : ScaleState → ScaleState) : (modScale tr tensor f).plan = tr.plan := by
  first
    | rfl
    | unfold modScale; (repeat' split) <;> simp []

theorem plan_setFallback (tr : Troupe) (tensor : Nat) (v : Bool) : (setFallback tr tensor v).plan = tr.plan := by
  first
    | rfl
    | unfold setFallback; (repeat' split) <;> simp []

theorem Steady.useHistory {z s : State} (h : Steady but z s) (t tensor : Nat) :
    Steady but z (Sys2Proof.Machine.useHistory t tensor s) := by
  unfold Sys2Proof.Machine.useHistory
  simp (maxDischargeDepth := 40) only [h, Steady.ite, implies_true, Steady.curtain, Steady.modTroupe, Steady.record,
    plan_modScale, plan_setFallback]

theorem Steady.overflowed {z s : State} (h : Steady but z s) (t b tensor : Nat) :
    Steady but z (Sys2Proof.Machine.overflowed t b tensor s) := by
  unfold Sys2Proof.Machine.overflowed
  simp (maxDischargeDepth := 40) only [h, Steady.ite, Steady.curtain, Steady.gauge, Steady.modWork]

theorem Steady.holdByte {z s : State} (h : Steady but z s) (t b : Nat) (e : Nat × Nat) :
    Steady but z (Sys2Proof.Machine.holdByte t b e s) := by
  unfold Sys2Proof.Machine.holdByte
  dsimp only
  repeat' split
  all_goals first
    | exact h
    | simp (maxDischargeDepth := 40) only [h, Steady.modWork,
      Steady.overflowed]

theorem Steady.issueCall {z s : State} (h : Steady but z s) (t b : Nat) :
    Steady but z (Sys2Proof.Machine.issueCall t b s) := by
  unfold Sys2Proof.Machine.issueCall
  simp (maxDischargeDepth := 40) only [h, Steady.refl, Steady.ite, implies_true, Steady.drainChunk,
      Steady.foldl, Steady.ledgerStore, Steady.modTroupe, Steady.modWork, Steady.spendChunks, Steady.useHistory,
      plan_modLast]

theorem Steady.settleScale {z s : State} (h : Steady but z s) (t b : Nat) :
    Steady but z (Sys2Proof.Machine.settleScale t b s) := by
  unfold Sys2Proof.Machine.settleScale
  simp (maxDischargeDepth := 40) only [h, Steady.refl, Steady.ite, implies_true, Steady.foldl, Steady.holdByte]

theorem plan_foldRemainder (tr : Troupe) (g : Graph) (blk : Nat) (d : List Dy) : (foldRemainder tr g blk d).plan = tr.plan := by
  first
    | rfl
    | unfold foldRemainder; (repeat' split) <;> simp [plan_setResidual]

theorem plan_reduceBlock (tr : Troupe) (g : Graph) (b blk : Nat) : (reduceBlock tr g b blk).plan = tr.plan :=
  plan_foldRemainder tr g blk _

theorem plan_reduceFBlock (tr : Troupe) (b blk : Nat) : (reduceFBlock tr b blk).plan = tr.plan := by
  first
    | rfl
    | unfold reduceFBlock; (repeat' split) <;> simp []

theorem Steady.settleSums {z s : State} (h : Steady but z s) (t b : Nat) : Steady but z (Sys2Proof.Machine.settleSums t b s) := by
  unfold Sys2Proof.Machine.settleSums
  dsimp only
  split
  · exact h
  · refine h.modTroupe _ _ fun tr => plan_foldl (fun tr x => ?_) _ _
    split
    · exact plan_reduceFBlock ..
    · exact plan_reduceBlock ..

theorem Steady.settleVecs {z s : State} (h : Steady but z s) (t b : Nat) :
    Steady but z (Sys2Proof.Machine.settleVecs t b s) := by
  unfold Sys2Proof.Machine.settleVecs
  simp (maxDischargeDepth := 40) only [h, Steady.ite, Steady.modWork]

theorem Steady.settleHistory {z s : State} (h : Steady but z s) (t b : Nat) :
    Steady but z (Sys2Proof.Machine.settleHistory t b s) := by
  unfold Sys2Proof.Machine.settleHistory
  dsimp only
  split
  · exact h
  · refine Steady.foldl (fun s e => ?_) _ h
    split
    · exact Steady.refl s
    · exact Steady.ite ((Steady.refl s).overflowed _ _ _) (Steady.refl s)

theorem Steady.freeWindow {z s : State} (h : Steady but z s) (t b : Nat) :
    Steady but z (Sys2Proof.Machine.freeWindow t b s) := by
  unfold Sys2Proof.Machine.freeWindow
  repeat' split
  all_goals first
    | exact h
    | simp (maxDischargeDepth := 40) only [h, implies_true, Steady.modHouse,
      Steady.modWork]

theorem Steady.noteComplete {z s : State} (h : Steady but z s) (t : Nat) :
    Steady but z (Sys2Proof.Machine.noteComplete t s) := by
  unfold Sys2Proof.Machine.noteComplete
  try dsimp only
  repeat' split
  all_goals first
    | exact h
    | simp (maxDischargeDepth := 40) only [h, implies_true, Steady.modTroupe,
      plan_modLast]

/-! ### Mirror -/

theorem Steady.mirrorWrite {z s : State} (h : Steady but z s) (t step target : Nat) (charge : Charge) (bytes : List Byte) :
    Steady but z (Sys2Proof.Machine.mirrorWrite t step target charge bytes s) := by
  unfold Sys2Proof.Machine.mirrorWrite
  simp (maxDischargeDepth := 40) only [h, Steady.queueCars]

theorem Steady.mirrorBlocks {z s : State} (h : Steady but z s) (t step tensor chunk first : Nat) (xs : List ShardBlock) :
    Steady but z (Sys2Proof.Machine.mirrorBlocks t step tensor chunk first xs s) := by
  unfold Sys2Proof.Machine.mirrorBlocks
  simp (maxDischargeDepth := 40) only [h, Steady.queueCars]

theorem Steady.mirrorMasters {z s : State} (h : Steady but z s) (t b step : Nat) (e : Nat × Nat × Nat × Bool) (blocks : List Nat) :
    Steady but z (Sys2Proof.Machine.mirrorMasters t b step e blocks s) := by
  unfold Sys2Proof.Machine.mirrorMasters
  simp (maxDischargeDepth := 40) only [h, Steady.refl, Steady.ite, implies_true, Steady.foldl, Steady.mirrorBlocks]

theorem Steady.mirrorTensor {z s : State} (h : Steady but z s) (t b : Nat) (e : Nat × Nat × Nat × Bool) :
    Steady but z (Sys2Proof.Machine.mirrorTensor t b e s) := by
  unfold Sys2Proof.Machine.mirrorTensor
  dsimp only
  split
  · exact h
  · refine Steady.ite h ?_
    have k := (h.modWork t b fun w => { w with mirrored := 2 * e.1 :: w.mirrored }).mirrorWrite t
    refine Steady.ite (Steady.mirrorMasters (Steady.ite (Steady.foldl (fun s x =>
    (Steady.refl s).mirrorBlocks ..) _ (k ..)) (k ..))
      _ _ _ _ _) (Steady.ite (Steady.foldl (fun s x => (Steady.refl s).mirrorBlocks ..) _ (k ..)) (k ..))

theorem Steady.mirrorBucket {z s : State} (h : Steady but z s) (t b : Nat) :
    Steady but z (Sys2Proof.Machine.mirrorBucket t b s) := by
  unfold Sys2Proof.Machine.mirrorBucket
  try dsimp only
  repeat' split
  all_goals first
    | exact h
    | simp (maxDischargeDepth := 40) only [h, Steady.refl, implies_true, Steady.foldl,
      Steady.mirrorTensor]

theorem Steady.settleSaturated {z s : State} (h : Steady but z s) (t b : Nat) (before : BWork) :
    Steady but z (Sys2Proof.Machine.settleSaturated t b before s) := by
  unfold Sys2Proof.Machine.settleSaturated
  simp (maxDischargeDepth := 40) only [h, Steady.ite, Steady.curtain, Steady.gauge, Steady.record]

theorem Steady.judgeSpike {z s : State} (h : Steady but z s) (t : Nat) (d : Spike) (x : F32) :
    Steady but z (Sys2Proof.Machine.judgeSpike t d x s) := by
  unfold Sys2Proof.Machine.judgeSpike
  simp (maxDischargeDepth := 40) only [h, Steady.ite, Steady.curtain, Steady.gauge]

theorem Steady.settleNorm {z s : State} (h : Steady but z s) (t : Nat) :
    Steady but z (Sys2Proof.Machine.settleNorm t s) := by
  unfold Sys2Proof.Machine.settleNorm
  simp (maxDischargeDepth := 40) only [h, Steady.ite, implies_true, Steady.judgeSpike, Steady.modTroupe]

theorem Steady.settle {z s : State} (h : Steady but z s) (t b : Nat) :
    Steady but z (Sys2Proof.Machine.settle t b s) := by
  unfold Sys2Proof.Machine.settle
  have k := ((((h.settleScale t b).settleSums t b).settleVecs t b).settleHistory t b).settleSaturated t b
    (workOf (troupe s t) b)
  refine Steady.noteComplete (Steady.modTroupe (Steady.settleNorm (Steady.mirrorBucket (Steady.ite
    (k.freeWindow _ _) k) _ _) _)
    _ _ fun tr => ?_) _
  split
  · rfl
  · exact plan_modLast _ _

theorem Steady.modMirror {z s : State} (h : Steady but z s) (t : Nat) (f : Mirror → Mirror) :
    Steady but z (Sys2Proof.Machine.modMirror s t f) := by
  unfold Sys2Proof.Machine.modMirror
  simp (maxDischargeDepth := 40) only [h, implies_true, Steady.modTroupe]

theorem Steady.modHalf {z s : State} (h : Steady but z s) (t step : Nat) (f : Retained → Retained) :
    Steady but z (Sys2Proof.Machine.modHalf s t step f) := by
  unfold Sys2Proof.Machine.modHalf
  simp (maxDischargeDepth := 40) only [h, implies_true, Steady.modTroupe]

theorem Steady.misplaced {z s : State} (h : Steady but z s) (t : Nat) (c : Car) (id : Nat) :
    Steady but z (Sys2Proof.Machine.misplaced t c id s) := by
  unfold Sys2Proof.Machine.misplaced
  simp (maxDischargeDepth := 40) only [h, Steady.ite, Steady.log, Steady.curtain, Steady.record, Steady.suppress]

theorem Steady.staleCar {z s : State} (h : Steady but z s) (t : Nat) :
    Steady but z (Sys2Proof.Machine.staleCar t s) := by
  unfold Sys2Proof.Machine.staleCar
  simp (maxDischargeDepth := 40) only [h, Steady.gauge]

theorem Steady.takeMirror {z s : State} (h : Steady but z s) (t : Nat) (c : Car) :
    Steady but z (Sys2Proof.Machine.takeMirror t c s) := by
  unfold Sys2Proof.Machine.takeMirror
  dsimp only
  repeat' split
  all_goals first
    | exact h
    | simp (maxDischargeDepth := 40) only [h, Steady.misplaced, Steady.modHalf, Steady.staleCar]

theorem Steady.takeTrickle {z s : State} (h : Steady but z s) (t : Nat) (c : Car) :
    Steady but z (Sys2Proof.Machine.takeTrickle t c s) := by
  unfold Sys2Proof.Machine.takeTrickle
  simp (maxDischargeDepth := 40) only [h, Steady.ite, Steady.modMirror]

theorem plan_mirrorApply (tr : Troupe) (step : Nat) (h : Retained) : (mirrorApply tr step h).plan = tr.plan := by
  first
    | rfl
    | unfold mirrorApply; (repeat' split) <;> simp []

theorem Steady.mirrorCommit {z s : State} (h : Steady but z s) (t : Nat) (r : StepRec) (did : Bool) :
    Steady but z (Sys2Proof.Machine.mirrorCommit t r did s) := by
  unfold Sys2Proof.Machine.mirrorCommit
  simp (maxDischargeDepth := 40) only [h, Steady.ite, implies_true, Steady.gauge, Steady.modMirror, Steady.modTroupe,
    plan_mirrorApply]

theorem Steady.diverge {z s : State} (h : Steady but z s) (principal : Bool) (t step kinds : Nat) :
    Steady but z (Sys2Proof.Machine.diverge principal t step kinds s) := by
  unfold Sys2Proof.Machine.diverge
  simp (maxDischargeDepth := 40) only [h, implies_true, Steady.curtain,
      Steady.modTroupe, Steady.record]

theorem Steady.takeVerdict {z s : State} (h : Steady but z s) (t : Nat) (word : BitVec 64) :
    Steady but z (Sys2Proof.Machine.takeVerdict t word s) := by
  unfold Sys2Proof.Machine.takeVerdict
  try dsimp only
  repeat' split
  all_goals first
    | exact h
    | simp (maxDischargeDepth := 40) only [h, implies_true, Steady.diverge,
      Steady.modTroupe, plan_modStep]

theorem plan_takeCopied (tr : Troupe) (tensor : Nat) (bs : List Byte) : (takeCopied tr tensor bs).plan = tr.plan := by
  first
    | rfl
    | unfold takeCopied; (repeat' split) <;> simp []

theorem Steady.takeMirrorWrite {z s s' : State} (h : Steady but z s) (t : Nat) (c : Car) (bs : List Byte)
    (k : Sys2Proof.Machine.takeMirrorWrite t c bs s = some s') : Steady but z s' := by
  unfold Sys2Proof.Machine.takeMirrorWrite at k
  dsimp only at k
  repeat' split at k
  all_goals first
    | (simp only [Option.bind_eq_some_iff, Option.some.injEq] at k; obtain ⟨_, _, _, _, rfl⟩ := k)
    | (simp only [Option.some.injEq] at k; subst k)
  all_goals first
    | exact h
    | exact h.takeVerdict _ _
    | exact h.modHalf _ _ _
    | exact h.modTroupe _ _ (by intro; rfl)
    | exact Steady.modMirror (h.modTroupe _ _ (by intro; rfl)) _ _
    | exact h.modMirror _ _
    | exact Steady.modMirror (h.modTroupe _ _ fun tr => plan_takeCopied ..) _ _

/-! ### Inlet -/

theorem Steady.popQueue {z s : State} (h : Steady but z s) (t : Nat) :
    Steady but z (Sys2Proof.Machine.popQueue t s) := by
  unfold Sys2Proof.Machine.popQueue
  dsimp only
  repeat' split
  all_goals first
    | exact h
    | simp (maxDischargeDepth := 40) only [h, implies_true, Steady.modHouse,
      Steady.modTroupe]

theorem Steady.takeEmit {z s : State} (h : Steady but z s) (t : Nat) (r : StepRec) (d : List Byte) :
    Steady but z (Sys2Proof.Machine.takeEmit t r d s) := by
  unfold Sys2Proof.Machine.takeEmit
  simp (maxDischargeDepth := 40) only [h, implies_true, Steady.modTroupe, Steady.useEntry, plan_modLast]

theorem Steady.serveHead {z s : State} (h : Steady but z s) (t : Nat) (d : List Byte) :
    Steady but z (Sys2Proof.Machine.serveHead t d s) := by
  unfold Sys2Proof.Machine.serveHead
  dsimp only
  repeat' split
  all_goals first
    | exact h
    | simp (maxDischargeDepth := 40) only [h, implies_true, Steady.fault,
      Steady.gauge, Steady.modHouse, Steady.popQueue, Steady.signalField, Steady.takeEmit]

theorem Steady.openWindow {z s : State} (h : Steady but z s) (pit : Nat) :
    Steady but z (Sys2Proof.Machine.openWindow pit s) := by
  unfold Sys2Proof.Machine.openWindow
  simp (maxDischargeDepth := 40) only [h, implies_true, Steady.modHouse]

theorem Steady.nonFinite {z s : State} (h : Steady but z s) (t step tensor chunk : Nat) (slot : BitVec 64)
    (at_ : List Nat) :
    Steady but z (Sys2Proof.Machine.nonFinite t step tensor chunk slot at_ s) := by
  unfold Sys2Proof.Machine.nonFinite
  try dsimp only
  repeat' split
  all_goals first
    | exact h
    | simp (maxDischargeDepth := 40) only [h, implies_true, Steady.curtain,
      Steady.gauge, Steady.modTroupe, plan_modStep]

theorem Steady.elementRecord {z s : State} (h : Steady but z s) (t : Nat) (e : Nat × StepRec) :
    Steady but z (Sys2Proof.Machine.elementRecord t s e) := by
  unfold Sys2Proof.Machine.elementRecord
  try dsimp only
  repeat' split
  all_goals first
    | exact h
    | simp (maxDischargeDepth := 40) only [h, implies_true, Steady.modTroupe,
      Steady.record, plan_modStep]

theorem Steady.closeElements {z s : State} (h : Steady but z s) (t : Nat) :
    Steady but z (Sys2Proof.Machine.closeElements t s) := by
  unfold Sys2Proof.Machine.closeElements
  simp (maxDischargeDepth := 40) only [h, Steady.refl, implies_true, Steady.elementRecord,
      Steady.foldl]

theorem Steady.chunkDone {z s : State} (h : Steady but z s) (t tensor chunk : Nat) :
    Steady but z (Sys2Proof.Machine.chunkDone t tensor chunk s) := by
  unfold Sys2Proof.Machine.chunkDone
  try dsimp only
  repeat' split
  all_goals first
    | exact h
    | simp (maxDischargeDepth := 40) only [h, implies_true, Steady.gauge,
      Steady.issueCall, Steady.ledgerStore, Steady.modTroupe, Steady.modWork, Steady.settle, plan_modLast]

/-! ### Quant -/

theorem plan_storeChunk (tr : Troupe) (res : Tab (List (Option BF16))) (k : (Nat × Nat × Nat × Bool) × Nat) :
    (storeChunk tr res k).plan = tr.plan := by
  first
    | rfl
    | unfold storeChunk; (repeat' split) <;> simp [plan_setResidual]

theorem plan_sendElem (r : StepRec) (st : Bool) (tensor j pit e : Nat) (v : F32) (h : House) :
    (sendElem r st tensor j pit e v h).2.plan = h.plan := by
  show (drawFor r st tensor j pit h).2.plan = h.plan
  unfold drawFor
  repeat' split
  all_goals rfl

theorem plan_band (c : Prop) [Decidable c] (r : StepRec) (st : Bool) (tensor j pit e : Nat) (v : F32) (w : Elem)
    (h : House) : (if c then sendElem r st tensor j pit e v h else (w, h)).2.plan = h.plan := by
  split
  · exact plan_sendElem ..
  · rfl

theorem Steady.placeBand {z s : State} (h : Steady but z s) (g : Graph) (r : StepRec) (kappa : Nat) (e : Nat × F32)
    (t b : Nat) : Steady but z (Sys2Proof.Machine.placeBand g r kappa e s t b) := by
  unfold Sys2Proof.Machine.placeBand
  dsimp only
  split
  · exact h
  · exact Steady.ite ((h.house' _ (plan_band ..)).modTroupe _ _ fun tr => plan_setResidual ..)
      (((h.house' _ (plan_band ..)).modTroupe _ _ fun tr => plan_setResidual ..).modWork ..)

theorem Steady.endPass {z s : State} (h : Steady but z s) (t b kappa : Nat) :
    Steady but z (Sys2Proof.Machine.endPass t b kappa s) := by
  unfold Sys2Proof.Machine.endPass
  try dsimp only
  repeat' split
  all_goals first
    | exact h
    | simp (maxDischargeDepth := 40) only [h, Steady.refl, implies_true, Steady.foldl,
      Steady.ledgerStore, Steady.modTroupe, Steady.modWork, Steady.placeBand, Steady.releaseChunks, Steady.settle,
      plan_modLast]

theorem Steady.useScaleWord {z s : State} (h : Steady but z s) (t b : Nat) (g : Graph) (k : Nat) :
    Steady but z (Sys2Proof.Machine.useScaleWord t b g k s) := by
  unfold Sys2Proof.Machine.useScaleWord
  simp (maxDischargeDepth := 40) only [h, Steady.ite, Steady.curtain, Steady.record]

theorem Steady.spendPass {z s : State} (h : Steady but z s) (single : Bool) (quant : Tab QBlk) (ks : List
    ((Nat × Nat × Nat × Bool) × Nat)) :
    Steady but z (Sys2Proof.Machine.spendPass single quant ks s) := by
  unfold Sys2Proof.Machine.spendPass
  simp (maxDischargeDepth := 40) only [h, Steady.refl, implies_true, Steady.foldl,
      Steady.spendShare]

/-! ### Pack -/

theorem Steady.packItem {z s : State} (h : Steady but z s) (t : Nat) (i : Item) (shift : Nat) :
    Steady but z (Sys2Proof.Machine.packItem t i shift s) := by
  unfold Sys2Proof.Machine.packItem
  simp (maxDischargeDepth := 40) only [h, implies_true, Steady.modTroupe,
      Steady.sendMember]

/-! ### RingTake -/

theorem Steady.brokenRing {z s : State} (h : Steady but z s) (t ring : Nat) (r : Ring) :
    Steady but z (Sys2Proof.Machine.brokenRing t ring r s) := by
  unfold Sys2Proof.Machine.brokenRing
  simp (maxDischargeDepth := 40) only [h, Steady.fault]

theorem Steady.takeDescriptor {z s : State} (h : Steady but z s) (t ring : Nat) :
    Steady but z (Sys2Proof.Machine.takeDescriptor t ring s) := by
  unfold Sys2Proof.Machine.takeDescriptor
  repeat' split
  all_goals first
    | exact h
    | simp (maxDischargeDepth := 40) only [h, implies_true, Steady.modTroupe,
      Steady.signalField]

theorem Steady.badDescriptor {z s : State} (h : Steady but z s) (t ring : Nat) (sub : Subsystem)
    (detail compl : Nat) (rec_ : List Byte) (cue : Nat) :
    Steady but z (Sys2Proof.Machine.badDescriptor t ring sub detail compl rec_ cue s) := by
  unfold Sys2Proof.Machine.badDescriptor
  simp (maxDischargeDepth := 40) only [h, Steady.pokeHbm,
      Steady.ringEnd, Steady.run]

theorem Steady.endDescriptor {z s : State} (h : Steady but z s) (t ring compl : Nat) (rec_ : List Byte) (cue : BitVec 16) :
    Steady but z (Sys2Proof.Machine.endDescriptor t ring compl rec_ cue s) := by
  unfold Sys2Proof.Machine.endDescriptor
  simp (maxDischargeDepth := 40) only [h, Steady.pokeHbm, Steady.ringEnd, Steady.signalField]

theorem Steady.startOp {z s : State} (h : Steady but z s) (t ring : Nat) (charge : Charge) (d : LineDesc) :
    Steady but z (Sys2Proof.Machine.startOp t ring charge d s) := by
  unfold Sys2Proof.Machine.startOp
  simp (maxDischargeDepth := 40) only [h, implies_true, Steady.enterLine, Steady.modLine, Steady.modTroupe]

theorem Steady.refuseOp {z s : State} (h : Steady but z s) (t ring : Nat) (charge : Charge) (d : LineDesc)
    (st : Status) :
    Steady but z (Sys2Proof.Machine.refuseOp t ring charge d st s) := by
  unfold Sys2Proof.Machine.refuseOp
  simp (maxDischargeDepth := 40) only [h, implies_true, Steady.completeOps,
      Steady.modLine, Steady.modTroupe]

theorem Steady.takeLine {z s : State} (h : Steady but z s) (t ring : Nat) (r : Ring) :
    Steady but z (Sys2Proof.Machine.takeLine t ring r s) := by
  unfold Sys2Proof.Machine.takeLine
  simp (maxDischargeDepth := 40) only [h, Steady.ite, implies_true, Steady.badDescriptor,
      Steady.checkLine, Steady.modTroupe, Steady.refuseOp, Steady.startOp, Steady.takeDescriptor]

theorem Steady.addLayer {z s : State} (h : Steady but z s) (t : Nat) (c : SpillCall) (raw : List Nat) :
    Steady but z (Sys2Proof.Machine.addLayer t c raw s) := by
  unfold Sys2Proof.Machine.addLayer
  dsimp only
  repeat' split
  all_goals first
    | exact h
    | simp (maxDischargeDepth := 40) only [h, implies_true, Steady.modTroupe,
      plan_modLast]

theorem Steady.spillDrained {z s : State} (h : Steady but z s) (t : Nat) :
    Steady but z (Sys2Proof.Machine.spillDrained t s) := by
  unfold Sys2Proof.Machine.spillDrained
  simp (maxDischargeDepth := 40) only [h, Steady.deferred, Steady.completeDeferred]

/-! ### SieveCalls -/

theorem Steady.localCall {z s : State} (h : Steady but z s) (c : SieveCall) :
    Steady but z (Sys2Proof.Machine.localCall c s) := by
  unfold Sys2Proof.Machine.localCall
  simp (maxDischargeDepth := 40) only [h, Steady.pokeHbm]

theorem Steady.sendEntries {z s : State} (h : Steady but z s) (t : Nat) (c : SieveCall) (charge : Charge) (member : Nat) (es : List (Nat × Nat)) :
    Steady but z (Sys2Proof.Machine.sendEntries t c charge member es s) := by
  unfold Sys2Proof.Machine.sendEntries
  simp (maxDischargeDepth := 40) only [h, Steady.sendMember]

theorem Steady.modCall {z s : State} (h : Steady but z s) (t carousel number : Nat) (f : SieveCall → SieveCall) :
    Steady but z (Sys2Proof.Machine.modCall s t carousel number f) := by
  unfold Sys2Proof.Machine.modCall
  simp (maxDischargeDepth := 40) only [h, implies_true, Steady.modTroupe]

theorem Steady.settleCall {z s : State} (h : Steady but z s) (t carousel number : Nat) :
    Steady but z (Sys2Proof.Machine.settleCall t carousel number s) := by
  unfold Sys2Proof.Machine.settleCall
  dsimp only
  repeat' split
  all_goals first
    | exact h
    | simp (maxDischargeDepth := 40) only [h, Steady.refl, implies_true, Steady.foldl,
      Steady.modCall, Steady.sendEntries]

theorem Steady.startCarousel {z s : State} (h : Steady but z s) (t : Nat) (c : SieveCall) :
    Steady but z (Sys2Proof.Machine.startCarousel t c s) := by
  unfold Sys2Proof.Machine.startCarousel
  simp (maxDischargeDepth := 40) only [h, Steady.refl, implies_true, Steady.foldl, Steady.localCall,
    Steady.modTroupe, Steady.sendEntries, Steady.settleCall]

theorem Steady.dropCall {z s : State} (h : Steady but z s) (t : Nat) (c : SieveCall) :
    Steady but z (Sys2Proof.Machine.dropCall s t c) := by
  unfold Sys2Proof.Machine.dropCall
  simp (maxDischargeDepth := 40) only [h, implies_true, Steady.modTroupe]

theorem Steady.callCurtain {z s : State} (h : Steady but z s) (t : Nat) (c : SieveCall) :
    Steady but z (Sys2Proof.Machine.callCurtain t c s) := by
  unfold Sys2Proof.Machine.callCurtain
  simp (maxDischargeDepth := 40) only [h, Steady.ite, Steady.curtain]

theorem Steady.takeCounts {z s : State} (h : Steady but z s) (t l : Nat) (src : BlockAddr) (c : Car) :
    Steady but z (Sys2Proof.Machine.takeCounts t l src c s) := by
  unfold Sys2Proof.Machine.takeCounts
  dsimp only
  repeat' split
  all_goals first
    | exact h
    | simp (maxDischargeDepth := 40) only [h, implies_true, Steady.modCall,
      Steady.modTroupe, Steady.settleCall]

/-! ### Tally -/

theorem Steady.tooFar {z s : State} (h : Steady but z s) (t : Nat) :
    Steady but z (Sys2Proof.Machine.tooFar t s) := by
  unfold Sys2Proof.Machine.tooFar
  simp (maxDischargeDepth := 40) only [h, Steady.curtain, Steady.record]

theorem Steady.readyWork {z s : State} (h : Steady but z s) (t step : Nat) :
    Steady but z (Sys2Proof.Machine.readyWork t step s) := by
  refine h.modTroupe _ _ fun tr => ?_
  split <;> rfl

theorem Steady.takePlace {z s : State} (h : Steady but z s) (t b : Nat) :
    Steady but z (Sys2Proof.Machine.takePlace t b s) := by
  unfold Sys2Proof.Machine.takePlace
  repeat' split
  all_goals first
    | exact h
    | simp (maxDischargeDepth := 40) only [h, Steady.ite, implies_true, Steady.modHouse,
      Steady.modWork]

theorem Steady.scaleRecord {z s : State} (h : Steady but z s) (t : Nat) :
    Steady but z (Sys2Proof.Machine.scaleRecord t s) := by
  unfold Sys2Proof.Machine.scaleRecord
  simp (maxDischargeDepth := 40) only [h, Steady.gauge,
      Steady.record]

theorem Steady.badScale {z s : State} (h : Steady but z s) (t step : Nat) :
    Steady but z (Sys2Proof.Machine.badScale t step s) := by
  unfold Sys2Proof.Machine.badScale
  simp (maxDischargeDepth := 40) only [h, Steady.ite, implies_true, Steady.curtain,
      Steady.modTroupe, Steady.scaleRecord]

theorem Steady.addBlock {z s : State} (h : Steady but z s) (t b tensor step base : Nat) (x : Nat × QBlk) :
    Steady but z (Sys2Proof.Machine.addBlock t b tensor step base x s) := by
  unfold Sys2Proof.Machine.addBlock
  simp (maxDischargeDepth := 40) only [h, Steady.ite, Steady.badScale,
      Steady.modWork, Steady.spendShare]

theorem Steady.markEnded {z s : State} (h : Steady but z s) (t b kind tensor chunk member : Nat) (last : Bool) :
    Steady but z (Sys2Proof.Machine.markEnded t b kind tensor chunk member last s) := by
  unfold Sys2Proof.Machine.markEnded
  simp (maxDischargeDepth := 40) only [h, Steady.ite, Steady.modWork]

theorem Steady.takeContribution {z s : State} (h : Steady but z s) (t : Nat) (src : BlockAddr) (c : Car) :
    Steady but z (Sys2Proof.Machine.takeContribution t src c s) := by
  unfold Sys2Proof.Machine.takeContribution
  try dsimp only
  repeat' split
  all_goals first
    | exact h
    | simp (maxDischargeDepth := 40) only [h, Steady.refl, implies_true, Steady.addBlock,
      Steady.foldl, Steady.gauge, Steady.markEnded, Steady.misplaced, Steady.settle, Steady.takePlace]

theorem Steady.takeValues {z s : State} (h : Steady but z s) (t : Nat) (src : BlockAddr) (c : Car) :
    Steady but z (Sys2Proof.Machine.takeValues t src c s) := by
  unfold Sys2Proof.Machine.takeValues
  try dsimp only
  repeat' split
  all_goals first
    | exact h
    | simp (maxDischargeDepth := 40) only [h, Steady.markEnded,
      Steady.misplaced, Steady.modWork, Steady.settle]

theorem Steady.takeScales {z s : State} (h : Steady but z s) (t : Nat) (src : BlockAddr) (c : Car) :
    Steady but z (Sys2Proof.Machine.takeScales t src c s) := by
  unfold Sys2Proof.Machine.takeScales
  try dsimp only
  repeat' split
  all_goals first
    | exact h
    | simp (maxDischargeDepth := 40) only [h, Steady.refl, implies_true, Steady.foldl,
      Steady.holdByte, Steady.markEnded, Steady.misplaced, Steady.modWork, Steady.settle]

theorem plan_fallbackTensor (tr : Troupe) (g : Graph) (tensor : Nat) : (fallbackTensor tr g tensor).plan = tr.plan := by
  first
    | rfl
    | unfold fallbackTensor; (repeat' split) <;> simp [plan_modScale, plan_setFallback]

theorem Steady.modRound {z s : State} (h : Steady but z s) (t b step : Nat) (f : Fallback → Fallback) :
    Steady but z (Sys2Proof.Machine.modRound s t b step f) := by
  unfold Sys2Proof.Machine.modRound
  simp (maxDischargeDepth := 40) only [h, implies_true, Steady.modTroupe]

theorem Steady.settleRound {z s : State} (h : Steady but z s) (t b : Nat) :
    Steady but z (Sys2Proof.Machine.settleRound t b s) := by
  unfold Sys2Proof.Machine.settleRound
  dsimp only
  split
  · exact h
  · refine Steady.ite h (Steady.modRound (h.modTroupe _ _ fun tr => ?_) _ _ _ _)
    exact plan_foldl (fun tr e => plan_fallbackTensor ..) _ _

theorem Steady.settleFallback {z s : State} (h : Steady but z s) (t b : Nat) :
    Steady but z (Sys2Proof.Machine.settleFallback t b s) := by
  unfold Sys2Proof.Machine.settleFallback
  try dsimp only
  repeat' split
  all_goals first
    | exact h
    | simp (maxDischargeDepth := 40) only [h, Steady.refl, implies_true, Steady.foldl,
      Steady.issueCall, Steady.modTroupe, Steady.settle, Steady.settleRound]

theorem Steady.takeVector {z s : State} (h : Steady but z s) (t : Nat) (src : BlockAddr) (c : Car) :
    Steady but z (Sys2Proof.Machine.takeVector t src c s) := by
  unfold Sys2Proof.Machine.takeVector
  try dsimp only
  repeat' split
  all_goals first
    | exact h
    | simp (maxDischargeDepth := 40) only [h, Steady.misplaced,
      Steady.modRound, Steady.modWork, Steady.settle, Steady.settleFallback]

theorem Steady.takeCollective {z s : State} (h : Steady but z s) (t l : Nat) (src : BlockAddr) (c : Car) :
    Steady but z (Sys2Proof.Machine.takeCollective t l src c s) := by
  unfold Sys2Proof.Machine.takeCollective
  repeat' split
  all_goals first
    | exact h
    | simp (maxDischargeDepth := 40) only [h, Steady.misplaced,
      Steady.readyWork, Steady.staleCar, Steady.takeContribution, Steady.takeCounts, Steady.takeScales,
      Steady.takeValues, Steady.takeVector, Steady.tooFar]

theorem Steady.applyHeld {z s : State} (h : Steady but z s) (e : Entry) (fclass : Bool) (tb : Nat) (q : QBlk) (x : List F32) :
    Steady but z (Sys2Proof.Machine.applyHeld e fclass tb q x s) := by
  unfold Sys2Proof.Machine.applyHeld
  simp (maxDischargeDepth := 40) only [h, Steady.refl, Steady.ite, implies_true, Steady.foldl, Steady.pokeHbm]

theorem Steady.applyDelta {z s : State} (h : Steady but z s) (t b blk : Nat) (q : QBlk) (x : List F32) :
    Steady but z (Sys2Proof.Machine.applyDelta t b blk q x s) := by
  unfold Sys2Proof.Machine.applyDelta
  dsimp only
  repeat' split
  all_goals first
    | exact h
    | simp (maxDischargeDepth := 40) only [h, implies_true, Steady.applyHeld,
      Steady.modTroupe, Steady.signalField, Steady.useEntry]

/-! ### Ledger -/

theorem Steady.ledgerOpen {z s : State} (h : Steady but z s) (t num : Nat) :
    Steady but z (Sys2Proof.Machine.ledgerOpen t num s) := by
  unfold Sys2Proof.Machine.ledgerOpen
  dsimp only
  repeat' split
  all_goals first
    | exact h
    | simp (maxDischargeDepth := 40) only [h, implies_true, Steady.ledgerStore,
      Steady.modTroupe, plan_modStep]

theorem Steady.becomeUpdated {z s : State} (h : Steady but z s) (t num : Nat) :
    Steady but z (Sys2Proof.Machine.becomeUpdated t num s) := by
  unfold Sys2Proof.Machine.becomeUpdated
  dsimp only
  repeat' split
  all_goals first
    | exact h
    | simp (maxDischargeDepth := 40) only [h, implies_true, Steady.ledgerStore,
      Steady.mirrorWrite, Steady.modTroupe, plan_modStep]

theorem Steady.settleGather {z s : State} (h : Steady but z s) (t : Nat) :
    Steady but z (Sys2Proof.Machine.settleGather t s) := by
  unfold Sys2Proof.Machine.settleGather
  simp (maxDischargeDepth := 40) only [h, Steady.refl, Steady.ite, implies_true, Steady.becomeUpdated,
      Steady.foldl]

theorem Steady.addPhases {z s : State} (h : Steady but z s) (t : Nat) (r : StepRec) :
    Steady but z (Sys2Proof.Machine.addPhases t r s) := by
  unfold Sys2Proof.Machine.addPhases
  simp (maxDischargeDepth := 40) only [h, Steady.refl, Steady.ite, implies_true, Steady.foldl, Steady.gauge,
    Steady.modTroupe]

theorem Steady.becomeChecked {z s : State} (h : Steady but z s) (t num : Nat) :
    Steady but z (Sys2Proof.Machine.becomeChecked t num s) := by
  unfold Sys2Proof.Machine.becomeChecked
  dsimp only
  repeat' split
  all_goals first
    | exact h
    | simp (maxDischargeDepth := 40) only [h, implies_true, Steady.addPhases,
      Steady.ledgerStore, Steady.modTroupe, plan_modStep]

theorem Steady.retireAll {z s : State} (h : Steady but z s) (t : Nat) :
    Steady but z (Sys2Proof.Machine.retireAll t s) := by
  unfold Sys2Proof.Machine.retireAll
  simp (maxDischargeDepth := 40) only [h, implies_true, Steady.modTroupe]

theorem Steady.brokenHeader {z s : State} (h : Steady but z s) (t : Nat) :
    Steady but z (Sys2Proof.Machine.brokenHeader t s) := by
  unfold Sys2Proof.Machine.brokenHeader
  repeat' split
  all_goals first
    | exact h
    | simp (maxDischargeDepth := 40) only [h, implies_true, Steady.modTroupe,
      Steady.record, plan_modStep]

theorem Steady.passCheck {z s : State} (h : Steady but z s) (t : Nat) (c : Nat × Bool) :
    Steady but z (Sys2Proof.Machine.passCheck t c s) := by
  unfold Sys2Proof.Machine.passCheck
  simp (maxDischargeDepth := 40) only [h, Steady.refl, Steady.ite, implies_true, Steady.foldl, Steady.becomeChecked,
    Steady.gauge, Steady.modTroupe, plan_modStep]

theorem Steady.checkTroupe {z s : State} (h : Steady but z s) (t : Nat) :
    Steady but z (Sys2Proof.Machine.checkTroupe t s) := by
  unfold Sys2Proof.Machine.checkTroupe
  dsimp only
  repeat' split
  all_goals first
    | exact h
    | simp (maxDischargeDepth := 40) only [h, Steady.refl, implies_true, Steady.foldl,
      Steady.brokenHeader, Steady.passCheck, Steady.retireAll]

theorem Steady.flipDue {z s : State} (h : Steady but z s) (t : Nat) :
    Steady but z (Sys2Proof.Machine.flipDue t s) := by
  unfold Sys2Proof.Machine.flipDue
  try dsimp only
  repeat' split
  all_goals first
    | exact h
    | simp (maxDischargeDepth := 40) only [h, Steady.modMirror]

/-! ### Reduce -/

theorem Steady.reduceUnits {z s : State} (h : Steady but z s) (t : Nat) (c : Car) :
    Steady but z (Sys2Proof.Machine.reduceUnits t c s) := by
  have f : ∀ (l : List Nat) (a : State × Nat), Steady but z a.1 → Steady but z (l.foldl (fun (a : State × Nat) k =>
      let at_ := c.target.toNat + unitBytes c.enc * k
      let u := reduceUnit c.enc c.op (memRead a.1.hbm at_ (unitBytes c.enc)) (slice c.payload (unitBytes c.enc * k) (unitBytes c.enc))
      (Machine.pokeHbm a.1 at_ u.1, a.2 + bitOf u.2)) a).1 := by
    intro l
    induction l with
    | nil => intro a h; exact h
    | cons x r ih => intro a h; exact ih _ (h.pokeHbm _ _)
  have g := f (List.range c.count) (s, 0) h
  unfold Sys2Proof.Machine.reduceUnits
  extract_lets n r s1
  have g : Steady but z r.1 := g
  split
  · exact g
  · exact Steady.ite (((g.gauge _ _ _).record _).curtain _ _) ((g.gauge _ _ _).record _)

theorem Steady.reduceWide {z s : State} (h : Steady but z s) (t : Nat) (c : Car) :
    Steady but z (Sys2Proof.Machine.reduceWide t c s) := by
  unfold Sys2Proof.Machine.reduceWide
  simp (maxDischargeDepth := 40) only [h, Steady.refl, Steady.ite, implies_true, Steady.curtain,
      Steady.foldl, Steady.pokeHbm, Steady.scaleRecord]

theorem Steady.reduceInto {z s : State} (h : Steady but z s) (t : Nat) (c : Car) :
    Steady but z (Sys2Proof.Machine.reduceInto t c s) := by
  unfold Sys2Proof.Machine.reduceInto
  simp (maxDischargeDepth := 40) only [h, Steady.ite, Steady.reduceUnits, Steady.reduceWide]

end Sys2Proof.Machine
end

