-- ==== Sys2Proof/Laws/SteadyLines.lean ====
section
/-! SUPPORT. Carriages and control frames, steps, tests, resets, updates and rounds leave what commands configure. -/

namespace Sys2Proof.Machine

open Sys2Proof

variable {but : Nat → Bool}

/-! ### Deliver -/

theorem Steady.nakClosed {z s : State} (h : Steady but z s) (t l : Nat) (src : BlockAddr) (c : Car) :
    Steady but z (Sys2Proof.Machine.nakClosed t l src c s) := by
  unfold Sys2Proof.Machine.nakClosed
  simp (maxDischargeDepth := 40) only [h, Steady.ite, Steady.modLine, Steady.sendNak]

theorem Steady.unmatched {z s : State} (h : Steady but z s) (port l : Nat) (src : BlockAddr) (c : Car) :
    Steady but z (Sys2Proof.Machine.unmatched port l src c s) := by
  unfold Sys2Proof.Machine.unmatched
  simp (maxDischargeDepth := 40) only [h, Steady.nakClosed, Steady.portGauge]

theorem Steady.staleEpoch {z s : State} (h : Steady but z s) (t l i : Nat) :
    Steady but z (Sys2Proof.Machine.staleEpoch t l i s) := by
  unfold Sys2Proof.Machine.staleEpoch
  dsimp only
  repeat' split
  all_goals first
    | exact h
    | simp (maxDischargeDepth := 40) only [h, Steady.gauge,
      Steady.modPeer, Steady.sendNak]

theorem Steady.gapFound {z s : State} (h : Steady but z s) (t l i : Nat) :
    Steady but z (Sys2Proof.Machine.gapFound t l i s) := by
  unfold Sys2Proof.Machine.gapFound
  dsimp only
  repeat' split
  all_goals first
    | exact h
    | simp (maxDischargeDepth := 40) only [h, Steady.gauge,
      Steady.modPeer, Steady.sendNak]

theorem Steady.settleResync {z s : State} (h : Steady but z s) (t : Nat) :
    Steady but z (Sys2Proof.Machine.settleResync t s) := by
  unfold Sys2Proof.Machine.settleResync
  simp (maxDischargeDepth := 40) only [h, Steady.refl, Steady.ite, implies_true, Steady.foldl, Steady.becomeChecked,
    Steady.completeDeferred, Steady.modTroupe, Steady.retireAll]

theorem Steady.takeTimes {z s : State} (h : Steady but z s) (t l i : Nat) (c : Car) :
    Steady but z (Sys2Proof.Machine.takeTimes t l i c s) := by
  unfold Sys2Proof.Machine.takeTimes
  extract_lets s1 r s2
  have h1 : Steady but z s1 := h.modPeer ..
  have hr : Steady but z r.1 := by
    show Steady but z (if _ then _ else _ : State × Nat).1
    split
    · exact h1.ackBefore ..
    · exact h1
  have h2 : Steady but z s2 := Steady.ite (hr.sampleRtt ..) hr
  exact Steady.ite (((h2.completeOps ..).fenceDone ..).settleResync ..) h2

theorem Steady.shutLine {z s : State} (h : Steady but z s) (t l : Nat) :
    Steady but z (Sys2Proof.Machine.shutLine t l s) := by
  unfold Sys2Proof.Machine.shutLine
  simp (maxDischargeDepth := 40) only [h, Steady.closeLine, Steady.completeDeferred]

theorem Steady.outsideWindow {z s : State} (h : Steady but z s) (t l : Nat) (src : BlockAddr) (c : Car) :
    Steady but z (Sys2Proof.Machine.outsideWindow t l src c s) := by
  unfold Sys2Proof.Machine.outsideWindow
  simp (maxDischargeDepth := 40) only [h, Steady.record, Steady.sendNak, Steady.shutLine]

theorem Steady.accepted {z s : State} (h : Steady but z s) (t l i : Nat) (c : Car) :
    Steady but z (Sys2Proof.Machine.accepted t l i c s) := by
  unfold Sys2Proof.Machine.accepted
  simp (maxDischargeDepth := 40) only [h, Steady.ite, Steady.modPeer, Steady.sendAck]

/-- What a kind of carriage applies is steady. -/
def Applies.steady (but : Nat → Bool) (f : Applies) : Prop :=
  ∀ t l i src c s s', f t l i src c s = some s' → Steady but s s'

theorem Steady.takeCar {z s : State} (h : Steady but z s) {f : Applies} (hf : f.steady but) (t l i : Nat) (src : BlockAddr) (c : Car) :
    Steady but z (Sys2Proof.Machine.takeCar f t l i src c s) := by
  unfold Sys2Proof.Machine.takeCar
  dsimp only
  split
  · exact h.outsideWindow ..
  · split
    · exact h
    · rename_i s' e
      have : Steady but z s' := by
        split at e
        · cases m : Sys2Proof.Machine.takeMirrorWrite t c (c.payload.take (contentBytes c)) s with
          | none => rw [m] at e; exact h.trans (hf _ _ _ _ _ _ _ e)
          | some y => rw [m] at e; cases e; exact h.takeMirrorWrite _ _ _ m
        · exact h.trans (hf _ _ _ _ _ _ _ e)
      exact this.accepted ..

theorem Steady.sequenced {z s : State} (h : Steady but z s) {f : Applies} (hf : f.steady but) (t l i : Nat) (src : BlockAddr)
    (c : Car) : Steady but z (Sys2Proof.Machine.sequenced f t l i src c s) := by
  unfold Sys2Proof.Machine.sequenced
  split
  · exact h.staleEpoch ..
  · extract_lets s1
    have h1 : Steady but z s1 := h.takeTimes ..
    repeat' split
    · exact h1
    · exact h1.takeCar hf ..
    · exact h1.sendAck ..
    · exact h1.gapFound ..

theorem Steady.deliver {z s : State} (h : Steady but z s) {f : Applies} (hf : f.steady but) (port : Nat) (bs : List Byte) :
    Steady but z (Sys2Proof.Machine.deliver f port bs s) := by
  unfold Sys2Proof.Machine.deliver
  extract_lets c t
  split
  · exact h.unmatched ..
  · extract_lets s1 ln lent
    have h1 : Steady but z s1 := h.checkLine ..
    split
    · exact h1.sequenced hf ..
    · exact h1.sequenced hf ..
    · exact Steady.ite h1 (h1.staleEpoch ..)
    · exact Steady.ite h1 (h1.staleEpoch ..)
    · exact h1.portGauge ..
    · exact h1.portGauge ..

theorem Steady.takeDelta {z s : State} (h : Steady but z s) (t b : Nat) (x : Nat × QBlk × List F32) :
    Steady but z (Sys2Proof.Machine.takeDelta t b s x) := by
  unfold Sys2Proof.Machine.takeDelta
  refine Steady.applyDelta ?_ _ _ _ _ _
  unfold deltaScale
  split
  · exact h.scaleRecord _
  · exact h

theorem Steady.terminate {z s : State} (h : Steady but z s) {f : Applies} (hf : f.steady but) (port : Nat) (g : List Byte) :
    Steady but z (Sys2Proof.Machine.terminate f port g s) := by
  unfold Sys2Proof.Machine.terminate
  exact Steady.ite (h.bufferFrame _ _) (h.deliver hf _ _)

/-! ### LineEvents -/

theorem Steady.onLine {z s : State} (h : Steady but z s) (f : List Byte) {k : Nat → Nat → Nat → State → State}
    (hk : ∀ t l i s, Steady but s (k t l i s)) : Steady but z (Sys2Proof.Machine.onLine f k s) := by
  unfold Sys2Proof.Machine.onLine
  split
  · exact h
  · exact (h.checkLine _ _).trans (hk _ _ _ _)

theorem Steady.acknowledge {z s : State} (h : Steady but z s) (t l i : Nat) (before : BitVec 32) (f : List Byte) :
    Steady but z (Sys2Proof.Machine.acknowledge t l i before f s) := by
  unfold Sys2Proof.Machine.acknowledge
  extract_lets r s1
  have hr : Steady but z r.1 := h.ackBefore ..
  have h1 : Steady but z s1 := Steady.ite (hr.sampleRtt ..) hr
  exact (((h1.completeOps ..).fenceDone ..).settleResync ..).enterLine ..

theorem Steady.nakGap {z s : State} (h : Steady but z s) (t l i : Nat) (f : List Byte) :
    Steady but z (Sys2Proof.Machine.nakGap t l i f s) := by
  unfold Sys2Proof.Machine.nakGap
  simp (maxDischargeDepth := 40) only [h, Steady.ite, Steady.acknowledge, Steady.goBackFrom, Steady.modPeer]

theorem Steady.answerKnock {z s : State} (h : Steady but z s) (port t l : Nat) (f : List Byte) (epoch : BitVec 16) (st : Status) (retry : Nat) :
    Steady but z (Sys2Proof.Machine.answerKnock port t l f epoch st retry s) := by
  unfold Sys2Proof.Machine.answerKnock
  simp (maxDischargeDepth := 40) only [h, Steady.ite, Steady.modPort, Steady.sendAnswer]

theorem Steady.refuseKnock {z s : State} (h : Steady but z s) (port t l : Nat) (f : List Byte) :
    Steady but z (Sys2Proof.Machine.refuseKnock port t l f s) := by
  unfold Sys2Proof.Machine.refuseKnock
  simp (maxDischargeDepth := 40) only [h, implies_true, Steady.answerKnock, Steady.modHouse]

theorem Steady.grant {z s : State} (h : Steady but z s) (port t l i : Nat) (f : List Byte) (epoch : BitVec 16) :
    Steady but z (Sys2Proof.Machine.grant port t l i f epoch s) := by
  unfold Sys2Proof.Machine.grant
  simp (maxDischargeDepth := 40) only [h, Steady.answerKnock, Steady.modPeer]

theorem Steady.takeLater {z s : State} (h : Steady but z s) (port t l i : Nat) (f : List Byte) (epoch : BitVec 16) :
    Steady but z (Sys2Proof.Machine.takeLater port t l i f epoch s) := by
  unfold Sys2Proof.Machine.takeLater
  simp (maxDischargeDepth := 40) only [h, Steady.ite, Steady.askEpoch,
      Steady.finalAcks, Steady.grant, Steady.openEpoch, Steady.resetCurtain]

theorem Steady.knockByState {z s : State} (h : Steady but z s) (port t l i : Nat) (f : List Byte) :
    Steady but z (Sys2Proof.Machine.knockByState port t l i f s) := by
  delta Sys2Proof.Machine.knockByState
  extract_lets ln req own again
  generalize ln.state.val = v
  generalize again = a
  cases v <;> cases a
  · exact h.refuseKnock ..
  · exact h.refuseKnock ..
  · exact h.grant ..
  · exact h.answerKnock ..
  · exact Steady.ite (h.takeLater ..) ((h.sendFinal ..).grant ..)
  · exact h.answerKnock ..
  · exact h.grant ..
  · exact h.answerKnock ..
  · exact h.refuseKnock ..
  · exact h.refuseKnock ..
  · exact h.refuseKnock ..
  · exact h.refuseKnock ..

theorem Steady.hearKnock {z s : State} (h : Steady but z s) (port : Nat) (f : List Byte) :
    Steady but z (Sys2Proof.Machine.hearKnock port f s) := by
  unfold Sys2Proof.Machine.hearKnock
  dsimp only
  repeat' split
  all_goals first
    | exact h
    | simp (maxDischargeDepth := 40) only [h, Steady.answerKnock,
      Steady.checkLine, Steady.knockByState, Steady.portGauge, Steady.refuseKnock]

theorem Steady.granted {z s : State} (h : Steady but z s) (t l i : Nat) (g : BitVec 16) :
    Steady but z (Sys2Proof.Machine.granted t l i g s) := by
  unfold Sys2Proof.Machine.granted
  extract_lets ln req s1
  have h1 : Steady but z s1 := h.modPeer _ _ _ _
  refine Steady.ite h (Steady.ite ((h.modLine _ _ _).knockAll _ _) ?_)
  split
  · exact h1.openEpoch _ _ _
  · exact h1

/-! ### Steps -/

theorem plan_clearTensor (tr : Troupe) (tensor : Nat) : (clearTensor tr tensor).plan = tr.plan :=
  plan_setCommitted tr _

theorem plan_promoteAll (tr : Troupe) (n : Nat) : (promoteAll tr n).plan = tr.plan := by
  unfold promoteAll
  dsimp only
  repeat' split
  all_goals exact plan_foldl (fun tr x => plan_clearTensor ..) _ _

theorem Steady.earlyCurtains {z s : State} (h : Steady but z s) (t n : Nat) :
    Steady but z (Sys2Proof.Machine.earlyCurtains t n s) := by
  unfold Sys2Proof.Machine.earlyCurtains
  simp (maxDischargeDepth := 40) only [h, Steady.refl, implies_true, Steady.curtain,
      Steady.foldl, Steady.modTroupe]

theorem Steady.openStep {z s : State} (h : Steady but z s) (t m : Nat) (mask : BitVec 256) :
    Steady but z (Sys2Proof.Machine.openStep t m mask s) := by
  unfold Sys2Proof.Machine.openStep
  extract_lets n late s1 s2 s3 r s4
  have h1 : Steady but z s1 := h.modTroupe _ _ fun tr => plan_foldl (by intros; rfl) _ _
  have h2 : Steady but z s2 := Steady.foldl (fun s k => (Steady.refl s).ledgerStore _ _) _ h1
  have h3 : Steady but z s3 := h2.modTroupe _ _ fun tr => plan_promoteAll tr n
  have h4 : Steady but z s4 := h3.modTroupe _ _ fun tr => plan_setPending ..
  exact ((h4.gauge _ _ _).ledgerOpen _ _).earlyCurtains _ _

theorem Steady.serveHeld {z s : State} (h : Steady but z s) (t : Nat) :
    Steady but z (Sys2Proof.Machine.serveHeld t s) := by
  unfold Sys2Proof.Machine.serveHeld
  split
  · exact h
  · refine Steady.ite h ?_
    split
    · exact h.run _
    · exact (h.openStep _ _ _).run _

/-! ### Test -/

theorem Steady.unitGauge {z s : State} (h : Steady but z s) (u off : Nat) :
    Steady but z (Sys2Proof.Machine.unitGauge s u off) := by
  unfold Sys2Proof.Machine.unitGauge
  simp (maxDischargeDepth := 40) only [h, Steady.houseGauge]

theorem Steady.failureTold {z s : State} (h : Steady but z s) (u : Nat) :
    Steady but z (Sys2Proof.Machine.failureTold u s) := by
  unfold Sys2Proof.Machine.failureTold
  exact h.record _

theorem Steady.failureRecord {z s : State} (h : Steady but z s) (u : Nat) :
    Steady but z (Sys2Proof.Machine.failureRecord u s) := (h.unitGauge _ _).failureTold _

theorem Steady.endTest {z s : State} (h : Steady but z s) (u : Nat) (pass : Bool) :
    Steady but z (Sys2Proof.Machine.endTest u pass s) := by
  unfold Sys2Proof.Machine.endTest
  simp (maxDischargeDepth := 40) only [h, Steady.modUnit, Steady.run]

theorem Steady.failUnit {z s : State} (h : Steady but z s) (u : Nat) :
    Steady but z (Sys2Proof.Machine.failUnit u s) := by
  unfold Sys2Proof.Machine.failUnit
  simp (maxDischargeDepth := 40) only [h, Steady.ite, Steady.endTest, Steady.unitGauge, Steady.modUnit]

theorem Steady.sliceFound {z s : State} (h : Steady but z s) (u vector : Nat) (r : SliceResult) :
    Steady but z (Sys2Proof.Machine.sliceFound u vector r s) := by
  cases r with
  | right =>
    exact Steady.ite (((h.modUnit _ _).unitGauge _ _).unitGauge _ _) ((h.modUnit _ _).unitGauge _ _)
  | wrong => exact Steady.ite ((h.unitGauge _ _).failUnit _) ((h.unitGauge _ _).modUnit _ _)
  | abandoned => exact h.unitGauge _ _
  | brokenVector => exact (h.modUnit _ _).record _

theorem Steady.rehearsalEnd {z s : State} (h : Steady but z s) (u : Nat) (pass : Bool) :
    Steady but z (Sys2Proof.Machine.rehearsalEnd u pass s) := by
  unfold Sys2Proof.Machine.rehearsalEnd
  dsimp only
  repeat' split
  all_goals first
    | exact h
    | simp (maxDischargeDepth := 40) only [h, Steady.endTest,
      Steady.failUnit, Steady.failureRecord, Steady.modUnit]

/-! ### Opt -/

theorem Steady.exportAll {z : State} (tr : Troupe) : ∀ (l : List Nat) (k : Nat) {s : State}, Steady but z s →
    Steady but z (Sys2Proof.Machine.exportAll tr l k s)
  | [], _, _, h => h
  | _ :: r, _, _, h => Steady.exportAll tr r _ (h.pokeHbm _ _)

/-! ### Update -/

theorem Steady.useParams {z s : State} (h : Steady but z s) (t tensor : Nat) :
    Steady but z (Sys2Proof.Machine.useParams t tensor s) := by
  unfold Sys2Proof.Machine.useParams
  simp (maxDischargeDepth := 40) only [h, Steady.refl, implies_true, Steady.foldl,
      Steady.modTroupe, Steady.record]

theorem Steady.formDeltas {z s : State} (h : Steady but z s) (t b : Nat) (te : Nat × Nat × Nat × Bool)
    (blocks : List Nat) :
    Steady but z (Sys2Proof.Machine.formDeltas t b te blocks s) := by
  unfold Sys2Proof.Machine.formDeltas
  try dsimp only
  repeat' split
  all_goals first
    | exact h
    | simp (maxDischargeDepth := 40) only [h, Steady.modWork, Steady.useEntry]

theorem Steady.spendDigest {z s : State} (h : Steady but z s) (pits : Nat) (te : Nat × Nat × Nat × Bool)
    (blocks : List Nat) :
    Steady but z (Sys2Proof.Machine.spendDigest pits te blocks s) := by
  unfold Sys2Proof.Machine.spendDigest
  simp (maxDischargeDepth := 40) only [h, Steady.refl, implies_true, Steady.foldl,
      Steady.spendShare]

theorem Steady.writeSlot {z s : State} (h : Steady but z s) (t n : Nat) :
    Steady but z (Sys2Proof.Machine.writeSlot t n s) := by
  unfold Sys2Proof.Machine.writeSlot
  simp (maxDischargeDepth := 40) only [h, Steady.ite, implies_true, Steady.modTroupe, Steady.pokeHost]

theorem Steady.commitSlots {z s : State} (h : Steady but z s) (t n : Nat) :
    Steady but z (Sys2Proof.Machine.commitSlots t n s) := by
  unfold Sys2Proof.Machine.commitSlots
  simp (maxDischargeDepth := 40) only [h, implies_true, Steady.modTroupe, Steady.writeSlot]

/-! ### Reset -/

theorem Steady.enterIntermission {z s : State} (h : Steady but z s) (t : Nat) :
    Steady but z (Sys2Proof.Machine.enterIntermission t s) := by
  unfold Sys2Proof.Machine.enterIntermission
  simp (maxDischargeDepth := 40) only [h, implies_true, Steady.completeDeferred, Steady.modTroupe]

theorem Steady.retireStep {z s : State} (h : Steady but z s) (t : Nat) (n : Nat) :
    Steady but z (Sys2Proof.Machine.retireStep t s n) := by
  unfold Sys2Proof.Machine.retireStep
  simp (maxDischargeDepth := 40) only [h, Steady.ite, implies_true, Steady.becomeChecked,
      Steady.ledgerStore, Steady.modTroupe, plan_modStep]

theorem Steady.retireDue {z s : State} (h : Steady but z s) (t : Nat) :
    Steady but z (Sys2Proof.Machine.retireDue t s) := by
  unfold Sys2Proof.Machine.retireDue
  simp (maxDischargeDepth := 40) only [h, Steady.refl, implies_true, Steady.foldl,
      Steady.retireStep]

theorem Steady.updateCut {z s : State} (h : Steady but z s) (t : Nat) :
    Steady but z (Sys2Proof.Machine.updateCut t s) := by
  unfold Sys2Proof.Machine.updateCut
  simp (maxDischargeDepth := 40) only [h, Steady.refl, implies_true, Steady.becomeUpdated,
      Steady.foldl]

theorem plan_resetBank (tr : Troupe) : (resetBank tr).plan = tr.plan := by
  first
    | rfl
    | unfold resetBank; (repeat' split) <;> simp [plan_modStep]

theorem plan_resetVersion (tr : Troupe) : (resetVersion tr).plan = tr.plan := by
  first
    | rfl
    | unfold resetVersion; (repeat' split) <;> simp []

theorem plan_clearTroupe (tr : Troupe) : (clearTroupe tr).plan = tr.plan :=
  (plan_resetVersion (resetBank tr)).trans (plan_resetBank tr)

theorem Steady.refillQueue {z s : State} (h : Steady but z s) (t : Nat) :
    Steady but z (Sys2Proof.Machine.refillQueue t s) := by
  unfold Sys2Proof.Machine.refillQueue
  simp (maxDischargeDepth := 40) only [h, implies_true, Steady.modHouse,
      Steady.modTroupe]

theorem Steady.runReset {z s : State} (h : Steady but z s) (t : Nat) :
    Steady but z (Sys2Proof.Machine.runReset t s) := by
  unfold Sys2Proof.Machine.runReset
  simp (maxDischargeDepth := 40) only [h, Steady.refl, Steady.ite, implies_true, Steady.completeDeferred,
      Steady.curtain, Steady.dropLines, Steady.foldl, Steady.freeWindow, Steady.ledgerStore, Steady.modTroupe,
      Steady.refillQueue, Steady.retireDue, Steady.updateCut, plan_clearTroupe]

theorem Steady.deleteTroupe {z s : State} (h : Steady but z s) (t : Nat) :
    Steady but z (Sys2Proof.Machine.deleteTroupe t s) := by
  unfold Sys2Proof.Machine.deleteTroupe
  extract_lets s1
  have h1 : Steady but z s1 := Steady.foldl (fun s e => (Steady.refl s).freeWindow _ _) _ h
  refine h1.trans ⟨rfl, rfl, rfl, fun _ => rfl, fun u tr _ g => ?_⟩
  have g : tabGet (tabDel s1.troupes t) u = some tr := g
  rw [tabGet_tabDel] at g
  split at g
  · cases g
  · exact ⟨tr, g, rfl⟩

theorem Steady.finishReset {z s : State} (h : Steady but z s) (t : Nat) :
    Steady but z (Sys2Proof.Machine.finishReset t s) := by
  unfold Sys2Proof.Machine.finishReset
  simp (maxDischargeDepth := 40) only [h, Steady.ite, implies_true, Steady.completeDeferred, Steady.deleteTroupe,
    Steady.enterIntermission, Steady.modTroupe]

theorem Steady.resetRun {z s : State} (h : Steady but z s) (t : Nat) :
    Steady but z (Sys2Proof.Machine.resetRun t s) := by
  unfold Sys2Proof.Machine.resetRun
  simp (maxDischargeDepth := 40) only [h, Steady.ite, Steady.runReset]

theorem Steady.resetStep {z s : State} (h : Steady but z s) (t : Nat) :
    Steady but z (Sys2Proof.Machine.resetStep t s) := by
  unfold Sys2Proof.Machine.resetStep
  simp (maxDischargeDepth := 40) only [h, Steady.ite, Steady.finishReset,
      Steady.resetRun, Steady.retireDue]

theorem Steady.beginTroupeReset {z s : State} (h : Steady but z s) (t : Nat) :
    Steady but z (Sys2Proof.Machine.beginTroupeReset t s) := by
  unfold Sys2Proof.Machine.beginTroupeReset
  simp (maxDischargeDepth := 40) only [h, implies_true, Steady.modTroupe, Steady.resetRun]

/-! ### Commit -/

theorem plan_flipVersion (tr : Troupe) : (flipVersion tr).plan = tr.plan := by
  first
    | rfl
    | unfold flipVersion; (repeat' split) <;> simp []

theorem plan_flipBank (n : Nat) (tr : Troupe) : (flipBank n tr).plan = tr.plan := by
  first
    | rfl
    | unfold flipBank; (repeat' split) <;> simp []

theorem plan_currentHistograms (tr : Troupe) : (currentHistograms tr).plan = tr.plan := by
  first
    | rfl
    | unfold currentHistograms; (repeat' split) <;> simp []

theorem plan_commitScale (tr : Troupe) (g : Graph) (e : Nat × Nat × Nat × Bool) : (commitScale tr g e).plan = tr.plan := by
  unfold commitScale
  extract_lets et sc falls clean back tr1
  have k : tr1.plan = tr.plan := plan_modScale ..
  split
  · exact plan_modScale ..
  · split
    · exact (plan_setFallback ..).trans k
    · exact k

theorem plan_commitScales (tr : Troupe) : (commitScales tr).plan = tr.plan := by
  unfold commitScales
  refine plan_foldl (fun acc ge => ?_) _ _
  split
  · rfl
  · exact plan_foldl (by intros; rfl) _ _

theorem Steady.applyOwn {z s : State} (h : Steady but z s) (t : Nat) :
    Steady but z (Sys2Proof.Machine.applyOwn t s) := by
  unfold Sys2Proof.Machine.applyOwn
  simp (maxDischargeDepth := 40) only [h, Steady.refl, implies_true, Steady.foldl, Steady.applyDelta]

theorem Steady.commitStep {z s : State} (h : Steady but z s) (t n : Nat) :
    Steady but z (Sys2Proof.Machine.commitStep t n s) := by
  unfold Sys2Proof.Machine.commitStep
  extract_lets s1 delayed s2 s3 s4 s5 s6 s7 s8 s9
  have h1 : Steady but z s1 := (h.useVersion t).useBank t
  have h2 : Steady but z s2 := h1.modTroupe _ _ fun tr => rfl
  have h3 : Steady but z s3 := h2.modTroupe _ _ fun tr => by
    rw [plan_commitScales, plan_currentHistograms, plan_flipBank, plan_flipVersion]
  have h4 : Steady but z s4 := h3.modTroupe _ _ fun tr => rfl
  have h5 : Steady but z s5 := h4.commitSlots t n
  have h6 : Steady but z s6 := h5.modTroupe _ _ fun tr => rfl
  have h7 : Steady but z s7 := by
    simp only [s7]
    split
    · exact h6.mirrorCommit _ _ _
    · exact h6
  have h8 : Steady but z s8 := Steady.foldl (fun s e => (Steady.refl s).freeWindow _ _) _ h7
  have h9 : Steady but z s9 := h8.modTroupe _ _ fun tr => rfl
  exact ((h9.gauge _ _ _).applyOwn t).settleGather t

theorem plan_dropFrom (gone : OutFrame → Bool) (tr : Troupe) (k : Nat × Nat) : (dropFrom gone tr k).plan = tr.plan := by
  first
    | rfl
    | unfold dropFrom; (repeat' split) <;> simp []

theorem Steady.dropFrames {z s : State} (h : Steady but z s) (t : Nat) (gone : OutFrame → Bool) :
    Steady but z (Sys2Proof.Machine.dropFrames t gone s) :=
  h.modTroupe _ _ fun tr => plan_foldl (fun tr x => plan_dropFrom ..) _ _

theorem Steady.dropStep {z s : State} (h : Steady but z s) (t n : Nat) :
    Steady but z (Sys2Proof.Machine.dropStep t n s) := by
  unfold Sys2Proof.Machine.dropStep
  simp (maxDischargeDepth := 40) only [h, Steady.refl, implies_true, Steady.completeOps,
      Steady.dropFrames, Steady.enterAll, Steady.foldl]

theorem Steady.startFallback {z s : State} (h : Steady but z s) (t n b : Nat) :
    Steady but z (Sys2Proof.Machine.startFallback t n b s) := by
  unfold Sys2Proof.Machine.startFallback
  simp (maxDischargeDepth := 40) only [h, Steady.ite, implies_true, Steady.modTroupe, Steady.settleFallback]

theorem plan_pruneRounds (tr : Troupe) : (pruneRounds tr).plan = tr.plan := by
  first
    | rfl
    | unfold pruneRounds; (repeat' split) <;> simp []

theorem Steady.releaseHeld {z s : State} (h : Steady but z s) (t n : Nat) :
    Steady but z (Sys2Proof.Machine.releaseHeld t n s) := by
  unfold Sys2Proof.Machine.releaseHeld
  simp (maxDischargeDepth := 40) only [h, Steady.refl, implies_true, Steady.foldl,
      Steady.modTroupe, Steady.releaseChunks, Steady.releaseSlot]

theorem Steady.skipStep {z s : State} (h : Steady but z s) (t n : Nat) :
    Steady but z (Sys2Proof.Machine.skipStep t n s) := by
  unfold Sys2Proof.Machine.skipStep
  extract_lets s1 s2 s3 s4 s5 s6 s7 s8
  have h1 : Steady but z s1 := h.modTroupe _ _ fun tr => rfl
  have h4 : Steady but z s4 := ((h1.gauge _ _ _).dropStep _ _).releaseHeld _ _
  have h5 : Steady but z s5 := Steady.foldl (fun s e => (Steady.refl s).freeWindow _ _) _ h4
  have h6 : Steady but z s6 := by
    simp only [s6]
    split
    · exact h5.mirrorCommit _ _ _
    · exact h5
  have h7 : Steady but z s7 := h6.modTroupe _ _ fun tr => plan_pruneRounds tr
  have h8 : Steady but z s8 := Steady.foldl (fun s b => (Steady.refl s).startFallback _ _ _) _ h7
  exact h8.becomeUpdated _ _

theorem Steady.applyOutcome {z s : State} (h : Steady but z s) (t n : Nat) :
    Steady but z (Sys2Proof.Machine.applyOutcome t n s) := by
  unfold Sys2Proof.Machine.applyOutcome
  split
  · exact h
  · extract_lets s1
    have h1 : Steady but z s1 := Steady.ite (h.commitStep _ _) (h.skipStep _ _)
    exact Steady.resetStep (Steady.ite (h1.enterIntermission _) h1) _

theorem Steady.ensureStep {z s : State} (h : Steady but z s) (t n : Nat) :
    Steady but z (Sys2Proof.Machine.ensureStep t n s) := by
  unfold Sys2Proof.Machine.ensureStep
  simp (maxDischargeDepth := 40) only [h, Steady.ite, implies_true, Steady.modTroupe]

theorem Steady.callFirst {z s : State} (h : Steady but z s) (t n : Nat) :
    Steady but z (Sys2Proof.Machine.callFirst t n s) := by
  unfold Sys2Proof.Machine.callFirst
  simp (maxDischargeDepth := 40) only [h, Steady.ite, implies_true, Steady.ledgerStore,
      Steady.modTroupe, plan_modStep]

theorem Steady.decideStep {z s : State} (h : Steady but z s) (t n : Nat) (outcome : Bool) (commitTick : Nat)
    (start : Option (Nat × Nat)) :
    Steady but z (Sys2Proof.Machine.decideStep t n outcome commitTick start s) := by
  unfold Sys2Proof.Machine.decideStep
  extract_lets s1 s2
  have h1 : Steady but z s1 := (h.ensureStep t n).callFirst t n
  have h2 : Steady but z s2 := h1.modTroupe _ _ (by intro; rfl)
  exact h2.resetStep t

theorem Steady.sendCall {z s : State} (h : Steady but z s) (t port : Nat) :
    Steady but z (Sys2Proof.Machine.sendCall t port s) := by
  unfold Sys2Proof.Machine.sendCall
  repeat' split
  all_goals first
    | exact h
    | simp (maxDischargeDepth := 40) only [h, implies_true, Steady.modTroupe,
      Steady.sendLink]

theorem Steady.sendCalls {z s : State} (h : Steady but z s) (t : Nat) :
    Steady but z (Sys2Proof.Machine.sendCalls t s) := by
  unfold Sys2Proof.Machine.sendCalls
  repeat' split
  all_goals first
    | exact h
    | simp (maxDischargeDepth := 40) only [h, Steady.refl, implies_true, Steady.foldl,
      Steady.sendCall]

theorem Steady.takeResult {z s : State} (h : Steady but z s) (t : Nat) (c m : Bool) :
    Steady but z (Sys2Proof.Machine.takeResult t c m s) := by
  unfold Sys2Proof.Machine.takeResult
  repeat' split
  all_goals first
    | exact h
    | simp (maxDischargeDepth := 40) only [h, Steady.ite, implies_true, Steady.decideStep,
      Steady.modTroupe]

theorem Steady.advanceRound {z : State} (t : Nat) : ∀ (n : Nat) {s : State}, Steady but z s →
    Steady but z (Sys2Proof.Machine.advanceRound t n s)
  | 0, _, h => h
  | n + 1, s, h => by
    rw [Sys2Proof.Machine.advanceRound]
    split
    · exact h
    · split
      · exact h
      · extract_lets c m
        split
        · exact Steady.advanceRound t n (Steady.sendCalls (h.modTroupe _ _ (by intro; rfl)) _)
        · exact h.takeResult _ _ _

theorem Steady.launchRound {z s : State} (h : Steady but z s) (t launch : Nat) :
    Steady but z (Sys2Proof.Machine.launchRound t launch s) := by
  unfold Sys2Proof.Machine.launchRound
  simp (maxDischargeDepth := 40) only [h, Steady.ite, implies_true, Steady.modTroupe, Steady.sendCalls, Steady.takeResult]

theorem plan_endRound (tr : Troupe) : (endRound tr).plan = tr.plan := by
  first
    | rfl
    | unfold endRound; (repeat' split) <;> simp []

theorem Steady.tickRound {z s : State} (h : Steady but z s) (t : Nat) :
    Steady but z (Sys2Proof.Machine.tickRound t s) := by
  unfold Sys2Proof.Machine.tickRound
  extract_lets s1 tr
  have e : ∀ tr, (endRound tr).plan = tr.plan := by
    intro tr; unfold endRound; split <;> rfl
  have h1 : Steady but z s1 := h.modTroupe _ _ fun tr => by
    extract_lets tr1
    have k : tr1.plan = tr.plan := by
      simp only [tr1]
      split
      · rfl
      · exact e tr
    split
    · exact k
    · exact k
  exact Steady.ite (h1.launchRound _ _) h1

theorem Steady.adopt {z s : State} (h : Steady but z s) (t : Nat) (outcome : Bool) (low : Nat) :
    Steady but z (Sys2Proof.Machine.adopt t outcome low s) := by
  unfold Sys2Proof.Machine.adopt
  simp (maxDischargeDepth := 40) only [h, implies_true, Steady.applyOutcome, Steady.decideStep, Steady.gauge,
    Steady.modTroupe, plan_modStep]

theorem Steady.takeHop {z s : State} (h : Steady but z s) (t port hop : Nat) (c m : Bool) :
    Steady but z (Sys2Proof.Machine.takeHop t port hop c m s) := by
  unfold Sys2Proof.Machine.takeHop
  repeat' split
  all_goals first
    | exact h
    | simp (maxDischargeDepth := 40) only [h, implies_true, Steady.advanceRound,
      Steady.modTroupe, Steady.sendCall]

theorem Steady.joinRound {z s : State} (h : Steady but z s) (t launch : Nat) :
    Steady but z (Sys2Proof.Machine.joinRound t launch s) := by
  unfold Sys2Proof.Machine.joinRound
  try dsimp only
  repeat' split
  all_goals first
    | exact h
    | simp (maxDischargeDepth := 40) only [h, implies_true, Steady.launchRound,
      Steady.modTroupe, plan_endRound]

theorem Steady.hearCall {z s : State} (h : Steady but z s) (port : Nat) (f : List Byte) :
    Steady but z (Sys2Proof.Machine.hearCall port f s) := by
  unfold Sys2Proof.Machine.hearCall
  dsimp only
  split
  · have k : ∀ t launch a c,
      Steady but z (if bodyField f 3 6 = roundStep (troupe (Sys2Proof.Machine.joinRound t launch s) t) + 1 then
        Sys2Proof.Machine.launchRound t launch (Sys2Proof.Machine.adopt t a c
    (Sys2Proof.Machine.joinRound t launch s))
        else Sys2Proof.Machine.joinRound t launch s) :=
      fun t launch a c => Steady.ite (((Steady.joinRound h _ _).adopt _ _ _).launchRound _ _) (Steady.joinRound h _ _)
    exact Steady.ite h (Steady.ite ((k _ _ _ _).takeHop _ _ _ _ _) (k _ _ _ _))
  · exact h

end Sys2Proof.Machine
end

