-- ==== Sys2Proof/Laws/SteadyHouse.lean ====
section
/-! SUPPORT. Spares, links, relays, sending, the tick and the register window leave what commands configure. -/

namespace Sys2Proof.Machine

open Sys2Proof

variable {but : Nat → Bool}

/-! ### Spare -/

theorem Steady.markCopy {z s : State} (h : Steady but z s) (t : Nat) :
    Steady but z (Sys2Proof.Machine.markCopy t s) := by
  unfold Sys2Proof.Machine.markCopy
  simp (maxDischargeDepth := 40) only [h, implies_true, Steady.modTroupe]

theorem Steady.sendCopy {z s : State} (h : Steady but z s) (t : Nat) :
    Steady but z (Sys2Proof.Machine.sendCopy t s) := by
  unfold Sys2Proof.Machine.sendCopy
  simp (maxDischargeDepth := 40) only [h, Steady.refl, implies_true, Steady.foldl, Steady.markCopy,
    Steady.mirrorWrite]

theorem Steady.resyncStep {z s : State} (h : Steady but z s) (t : Nat) :
    Steady but z (Sys2Proof.Machine.resyncStep t s) := by
  unfold Sys2Proof.Machine.resyncStep
  simp (maxDischargeDepth := 40) only [h, Steady.ite, Steady.deferred, Steady.sendCopy]

theorem Steady.standLine {z s : State} (h : Steady but z s) (t : Nat) (lost : BlockAddr) (l : Nat) :
    Steady but z (Sys2Proof.Machine.standLine t lost l s) := by
  unfold Sys2Proof.Machine.standLine
  simp (maxDischargeDepth := 40) only [h, Steady.ite, Steady.knockAll, Steady.modLine, Steady.openEpoch]

theorem Steady.standApply {z s : State} (h : Steady but z s) (t : Nat) : Steady but z (Sys2Proof.Machine.standApply t s) := by
  refine h.modTroupe _ _ fun tr => ?_
  repeat' split
  · exact plan_mirrorApply ..
  · rfl
  · rfl

theorem Steady.standSend {z s : State} (h : Steady but z s) (t b pos : Nat) (deltas : Tab (QBlk × List F32)) (r : Nat) :
    Steady but z (Sys2Proof.Machine.standSend t b pos deltas r s) := by
  refine Steady.foldl (fun s e => ?_) _ h
  dsimp only
  split
  · exact Steady.refl s
  · exact (Steady.refl s).queueCars _ _ _ _ _ _

theorem Steady.standBucket {z s : State} (h : Steady but z s) (t : Nat) (lost : BlockAddr) (b : Nat) :
    Steady but z (Sys2Proof.Machine.standBucket t lost b s) := by
  unfold Sys2Proof.Machine.standBucket
  try dsimp only
  repeat' split
  all_goals first
    | exact h
    | simp (maxDischargeDepth := 40) only [h, Steady.refl, implies_true, Steady.foldl,
      Steady.standSend, Steady.takeDelta]

theorem Steady.dropStand {z s : State} (h : Steady but z s) (t : Nat) :
    Steady but z (Sys2Proof.Machine.dropStand t s) := by
  unfold Sys2Proof.Machine.dropStand
  simp (maxDischargeDepth := 40) only [h, implies_true, Steady.modTroupe]

theorem Steady.standStep {z s : State} (h : Steady but z s) (t : Nat) :
    Steady but z (Sys2Proof.Machine.standStep t s) := by
  unfold Sys2Proof.Machine.standStep
  repeat' split
  all_goals first
    | exact h
    | simp (maxDischargeDepth := 40) only [h, Steady.refl, Steady.ite, implies_true, Steady.foldl,
      Steady.completeDeferred, Steady.dropStand, Steady.modMirror, Steady.settleGather, Steady.standApply,
      Steady.standBucket]

theorem Steady.sendSpan {z s : State} (h : Steady but z s) (t tensor k : Nat) :
    Steady but z (Sys2Proof.Machine.sendSpan t tensor k s) := by
  unfold Sys2Proof.Machine.sendSpan
  simp (maxDischargeDepth := 40) only [h, Steady.mirrorWrite]

theorem Steady.trickleStep {z s : State} (h : Steady but z s) (t : Nat) :
    Steady but z (Sys2Proof.Machine.trickleStep t s) := by
  unfold Sys2Proof.Machine.trickleStep
  dsimp only
  repeat' split
  all_goals first
    | exact h
    | simp (maxDischargeDepth := 40) only [h, implies_true, Steady.modMirror,
      Steady.modTroupe, Steady.queueCars, Steady.sendSpan, Steady.useBank]

/-! ### Encore -/

theorem Steady.takeoverRecord {z s : State} (h : Steady but z s) (t : Nat) (p : Pulled) (count : Nat) :
    Steady but z (Sys2Proof.Machine.takeoverRecord t p count s) := by
  unfold Sys2Proof.Machine.takeoverRecord
  dsimp only
  repeat' split
  all_goals first
    | exact h
    | simp (maxDischargeDepth := 40) only [h, implies_true, Steady.modTroupe,
      Steady.poke]

theorem Steady.takeHeld {z s : State} (h : Steady but z s) (t tensor blk : Nat) (xs : List F32) :
    Steady but z (Sys2Proof.Machine.takeHeld t tensor blk xs s) := by
  unfold Sys2Proof.Machine.takeHeld
  dsimp only
  repeat' split
  all_goals first
    | exact h
    | simp (maxDischargeDepth := 40) only [h, Steady.pokeHbm]

theorem plan_encoreState (tr : Troupe) (p : Pulled) (area : Tab TState) :
    (encoreState tr p area).plan = tr.plan :=
  (plan_foldl (fun tr i => plan_setFallback ..) _ _).trans (plan_foldl (fun tr e => plan_modScale ..) _ _)

theorem Steady.encoreOk {z s : State} (h : Steady but z s) (t : Nat) (p : Pulled) (x : Replayed) :
    Steady but z (Sys2Proof.Machine.encoreOk t p x s) := by
  unfold Sys2Proof.Machine.encoreOk
  simp (maxDischargeDepth := 40) only [h, Steady.refl, implies_true, Steady.foldl, Steady.completeDeferred,
    Steady.modTroupe, Steady.takeHeld, Steady.takeoverRecord, plan_encoreState]

theorem Steady.encoreBad {z s : State} (h : Steady but z s) (t : Nat) (bad : Nat × List Nat) :
    Steady but z (Sys2Proof.Machine.encoreBad t bad s) := by
  unfold Sys2Proof.Machine.encoreBad
  simp (maxDischargeDepth := 40) only [h, implies_true, Steady.completeDeferred, Steady.dropLines, Steady.modTroupe,
    Steady.record]

theorem Steady.encoreStep {z s : State} (h : Steady but z s) (t : Nat) : Steady but z (Sys2Proof.Machine.encoreStep t s) := by
  refine h.modTroupe _ _ fun tr => ?_
  split <;> rfl

/-! ### Ports -/

theorem Steady.goDark {z s : State} (h : Steady but z s) (port : Nat) :
    Steady but z (Sys2Proof.Machine.goDark port s) := by
  unfold Sys2Proof.Machine.goDark
  simp (maxDischargeDepth := 40) only [h, Steady.modPort]

theorem Steady.relight {z s : State} (h : Steady but z s) (port : Nat) :
    Steady but z (Sys2Proof.Machine.relight port s) := by
  unfold Sys2Proof.Machine.relight
  simp (maxDischargeDepth := 40) only [h, Steady.ite, Steady.modPort]

theorem Steady.thawLines {z s : State} (h : Steady but z s) (port from_ : Nat) :
    Steady but z (Sys2Proof.Machine.thawLines port from_ s) :=
  h.mapTroupes (fun n tr => { tr with lines := tr.lines.map fun l => (l.1, thawLine s port from_ n l.1 l.2) })
    fun _ _ => rfl

theorem Steady.lightUp {z s : State} (h : Steady but z s) (port : Nat) :
    Steady but z (Sys2Proof.Machine.lightUp port s) := by
  unfold Sys2Proof.Machine.lightUp
  simp (maxDischargeDepth := 40) only [h, Steady.modPort, Steady.portGauge, Steady.sendLink, Steady.thawLines]

theorem Steady.sendDim {z s : State} (h : Steady but z s) (port phase : Nat) (n : BitVec 16) (dark : Nat) :
    Steady but z (Sys2Proof.Machine.sendDim port phase n dark s) := by
  unfold Sys2Proof.Machine.sendDim
  simp (maxDischargeDepth := 40) only [h, Steady.sendLink]

theorem Steady.hearPropose {z s : State} (h : Steady but z s) (port : Nat) (src : BlockAddr) (n : BitVec 16) (dark : Nat) :
    Steady but z (Sys2Proof.Machine.hearPropose port src n dark s) := by
  unfold Sys2Proof.Machine.hearPropose
  simp (maxDischargeDepth := 40) only [h, Steady.ite, Steady.modPort, Steady.sendDim]

theorem Steady.hearDim {z s : State} (h : Steady but z s) (port : Nat) (f : List Byte) :
    Steady but z (Sys2Proof.Machine.hearDim port f s) := by
  unfold Sys2Proof.Machine.hearDim
  repeat' split
  all_goals first
    | exact h
    | simp (maxDischargeDepth := 40) only [h, Steady.ite, Steady.hearPropose,
      Steady.modPort]

theorem Steady.asked {z s : State} (h : Steady but z s) (port idle : Nat) (f : List Byte) :
    Steady but z (Sys2Proof.Machine.asked port idle f s) := by
  unfold Sys2Proof.Machine.asked
  simp (maxDischargeDepth := 40) only [h, Steady.ite, Steady.modPort]

theorem Steady.failRounds {z s : State} (h : Steady but z s) (port : Nat) :
    Steady but z (Sys2Proof.Machine.failRounds port s) := by
  unfold Sys2Proof.Machine.failRounds
  extract_lets s1
  have h1 : Steady but z s1 := h.mapTroupes (fun _ tr =>
    { tr with round := tr.round.map fun r => { r with failed := r.failed || r.ports.contains port } }) fun _ _ => rfl
  exact h1.curtainAll _ _

theorem Steady.endPortReset {z s : State} (h : Steady but z s) (port : Nat) (st : Status) :
    Steady but z (Sys2Proof.Machine.endPortReset port st s) := by
  unfold Sys2Proof.Machine.endPortReset
  simp (maxDischargeDepth := 40) only [h, Steady.modPort, Steady.run]

theorem Steady.freezeMirrors {z s : State} (h : Steady but z s) :
    Steady but z (Sys2Proof.Machine.freezeMirrors s) := by
  exact h.mapTroupes
    (fun _ tr => if partnerLost s tr then { tr with mirror := { tr.mirror with frozen := true } } else tr)
    fun _ tr => by dsimp only; split <;> rfl

theorem Steady.failPort {z s : State} (h : Steady but z s) (port : Nat) :
    Steady but z (Sys2Proof.Machine.failPort port s) := by
  unfold Sys2Proof.Machine.failPort
  simp (maxDischargeDepth := 40) only [h, Steady.dropQueues,
      Steady.endPortReset, Steady.failRounds, Steady.freezeMirrors, Steady.modPort, Steady.record]

/-! ### Relay -/

theorem Steady.takePause {z s : State} (h : Steady but z s) (port prio time : Nat) :
    Steady but z (Sys2Proof.Machine.takePause port prio time s) := by
  unfold Sys2Proof.Machine.takePause
  simp (maxDischargeDepth := 40) only [h, Steady.ite, Steady.modPort, Steady.portGauge]

theorem Steady.overflowRecord {z s : State} (h : Steady but z s) (port : Nat) :
    Steady but z (Sys2Proof.Machine.overflowRecord port s) := by
  unfold Sys2Proof.Machine.overflowRecord
  simp (maxDischargeDepth := 40) only [h, Steady.ite, Steady.log, Steady.record, Steady.suppress]

theorem Steady.overflowIn {z s : State} (h : Steady but z s) (out : Nat) (r : List Byte × Nat × Nat × BitVec 16) :
    Steady but z (Sys2Proof.Machine.overflowIn out r s) := by
  unfold Sys2Proof.Machine.overflowIn
  simp (maxDischargeDepth := 40) only [h, Steady.modPort,
      Steady.portGauge, Steady.spendShare]

theorem Steady.placeRelayed {z s : State} (h : Steady but z s) (arrival out prio rec_ : Nat) (epoch : BitVec 16)
    (f : List Byte) :
    Steady but z (Sys2Proof.Machine.placeRelayed arrival out prio rec_ epoch f s) := by
  unfold Sys2Proof.Machine.placeRelayed
  simp (maxDischargeDepth := 40) only [h, Steady.ite, Steady.bufferFrame,
      Steady.modPort, Steady.overflowIn, Steady.overflowRecord]

theorem Steady.drainBuffer {z : State} (out arrival : Nat) : ∀ (n : Nat) {s : State}, Steady but z s →
    Steady but z (Sys2Proof.Machine.drainBuffer out arrival n s)
  | 0, _, h => h
  | n + 1, s, h => by
    unfold Sys2Proof.Machine.drainBuffer
    split
    · exact h
    · split
      · exact h
      · exact Steady.drainBuffer out arrival n
          ((h.unbuffer _ _).overflowIn _ _)

theorem Steady.drainPort {z s : State} (h : Steady but z s) (out : Nat) :
    Steady but z (Sys2Proof.Machine.drainPort out s) := by
  unfold Sys2Proof.Machine.drainPort
  simp (maxDischargeDepth := 40) only [h, Steady.refl, implies_true, Steady.drainBuffer,
      Steady.foldl, Steady.modPort, Steady.spendShare]

theorem Steady.forward {z s : State} (h : Steady but z s) (port : Nat) (f : List Byte) :
    Steady but z (Sys2Proof.Machine.forward port f s) := by
  unfold Sys2Proof.Machine.forward
  dsimp only
  repeat' split
  all_goals first
    | exact h
    | simp (maxDischargeDepth := 40) only [h, Steady.brokenRoute,
      Steady.placeRelayed, Steady.portGauge]

/-! ### Send -/

theorem Steady.putOnWire {z s : State} (h : Steady but z s) (port : Nat) (f : List Byte) :
    Steady but z (Sys2Proof.Machine.putOnWire port f s) := by
  unfold Sys2Proof.Machine.putOnWire
  simp (maxDischargeDepth := 40) only [h, Steady.modPort, Steady.portGauge]

theorem Steady.sendCar {z s : State} (h : Steady but z s) (port t : Nat) (f : OutFrame) (again : Bool) :
    Steady but z (Sys2Proof.Machine.sendCar port t f again s) := by
  unfold Sys2Proof.Machine.sendCar
  simp (maxDischargeDepth := 40) only [h, Steady.putOnWire]

theorem Steady.dropRouted {z s : State} (h : Steady but z s) (e : Route × Option (Nat × Bool × Nat)) :
    Steady but z (Sys2Proof.Machine.dropRouted e s) := by
  unfold Sys2Proof.Machine.dropRouted
  repeat' split
  all_goals first
    | exact h
    | simp (maxDischargeDepth := 40) only [h, Steady.brokenRoute,
      Steady.portGauge]

theorem plan_markStarted (f : OutFrame) (tr : Troupe) : (markStarted f tr).plan = tr.plan := by
  first
    | rfl
    | unfold markStarted; (repeat' split) <;> simp []

theorem Steady.chargeFrame {z s : State} (h : Steady but z s) (port t : Nat) (f : OutFrame) (shaper : Nat) :
    Steady but z (Sys2Proof.Machine.chargeFrame port t f shaper s) := by
  unfold Sys2Proof.Machine.chargeFrame
  repeat' split
  all_goals first
    | exact h
    | simp (maxDischargeDepth := 40) only [h, implies_true, Steady.chargeShaper,
      Steady.modTroupe, Steady.troupePortGauge]

theorem plan_sentPhases (f : OutFrame) (s : State) (tr : Troupe) : (sentPhases f s tr).plan = tr.plan := by
  first
    | rfl
    | unfold sentPhases; (repeat' split) <;> simp [plan_modStep]

theorem Steady.sendFresh {z s : State} (h : Steady but z s) (port t : Nat) (f : OutFrame) :
    Steady but z (Sys2Proof.Machine.sendFresh port t f s) := by
  unfold Sys2Proof.Machine.sendFresh
  dsimp only
  repeat' split
  all_goals first
    | exact h
    | simp (maxDischargeDepth := 40) only [h, implies_true, Steady.chargeFrame,
      Steady.dropRouted, Steady.launched, Steady.modTroupe, Steady.sendCar, plan_markStarted, plan_sentPhases]

theorem Steady.sendAgain {z s : State} (h : Steady but z s) (port t l i : Nat) (f : OutFrame) :
    Steady but z (Sys2Proof.Machine.sendAgain port t l i f s) := by
  unfold Sys2Proof.Machine.sendAgain
  repeat' split
  all_goals first
    | exact h
    | simp (maxDischargeDepth := 40) only [h, Steady.chargeFrame,
      Steady.dropRouted, Steady.modPeer, Steady.sendCar, Steady.troupePortGauge]

theorem Steady.sendRelayed {z s : State} (h : Steady but z s) (port : Nat) (r : List Byte × Nat × Nat × BitVec 16) (above : Bool) :
    Steady but z (Sys2Proof.Machine.sendRelayed port r above s) := by
  unfold Sys2Proof.Machine.sendRelayed
  simp (maxDischargeDepth := 40) only [h, Steady.ite, Steady.drainPort, Steady.modPort, Steady.portGauge,
    Steady.putOnWire]

theorem Steady.sendOwn {z s : State} (h : Steady but z s) (port : Nat) (f : List Byte) :
    Steady but z (Sys2Proof.Machine.sendOwn port f s) := by
  unfold Sys2Proof.Machine.sendOwn
  simp (maxDischargeDepth := 40) only [h, Steady.ite, Steady.modPort, Steady.putOnWire]

theorem Steady.sendDecline {z s : State} (h : Steady but z s) (port : Nat) :
    Steady but z (Sys2Proof.Machine.sendDecline port s) := by
  unfold Sys2Proof.Machine.sendDecline
  repeat' split
  all_goals first
    | exact h
    | simp (maxDischargeDepth := 40) only [h, Steady.modPort,
      Steady.putOnWire]

theorem Steady.takeTurn {z s : State} (h : Steady but z s) (port : Nat) (p : Pick) :
    Steady but z (Sys2Proof.Machine.takeTurn port p s) := by
  unfold Sys2Proof.Machine.takeTurn
  repeat' split
  all_goals first
    | exact h
    | simp (maxDischargeDepth := 40) only [h, Steady.modPort]

theorem Steady.perform {z s : State} (h : Steady but z s) (port : Nat) (p : Pick) :
    Steady but z (Sys2Proof.Machine.perform port p s) := by
  unfold Sys2Proof.Machine.perform
  repeat' split
  all_goals first
    | exact h
    | simp (maxDischargeDepth := 40) only [h, Steady.ite, Steady.checkLine,
      Steady.modPort, Steady.portGauge, Steady.putOnWire, Steady.sendAgain, Steady.sendDecline, Steady.sendFresh,
      Steady.sendOwn, Steady.sendRelayed, Steady.takeTurn]

theorem Steady.sendPick {z s : State} (h : Steady but z s) (port : Nat) (p : Pick) :
    Steady but z (Sys2Proof.Machine.sendPick port p s) := by
  unfold Sys2Proof.Machine.sendPick
  simp (maxDischargeDepth := 40) only [h, Steady.ite, Steady.modPort, Steady.perform]

theorem Steady.failedSend {z s : State} (h : Steady but z s) (port : Nat) :
    Steady but z (Sys2Proof.Machine.failedSend port s) := by
  unfold Sys2Proof.Machine.failedSend
  dsimp only
  repeat' split
  all_goals first
    | exact h
    | simp (maxDischargeDepth := 40) only [h, Steady.loseSheet,
      Steady.portGauge, Steady.sendAgain, Steady.sendPick]

theorem Steady.litSend {z s : State} (h : Steady but z s) (port : Nat) :
    Steady but z (Sys2Proof.Machine.litSend port s) := by
  unfold Sys2Proof.Machine.litSend
  dsimp only
  repeat' split
  all_goals first
    | exact h
    | simp (maxDischargeDepth := 40) only [h, Steady.declineDim,
      Steady.sendPick]

/-! ### Tick -/

theorem Steady.miswire {z s : State} (h : Steady but z s) (port : Nat) :
    Steady but z (Sys2Proof.Machine.miswire port s) := by
  unfold Sys2Proof.Machine.miswire
  simp (maxDischargeDepth := 40) only [h, Steady.endPortReset, Steady.modPort, Steady.record]

theorem Steady.verify {z s : State} (h : Steady but z s) (port : Nat) :
    Steady but z (Sys2Proof.Machine.verify port s) := by
  unfold Sys2Proof.Machine.verify
  simp (maxDischargeDepth := 40) only [h, Steady.endPortReset, Steady.modPort]

theorem Steady.judgePort {z s : State} (h : Steady but z s) (port : Nat) :
    Steady but z (Sys2Proof.Machine.judgePort port s) := by
  unfold Sys2Proof.Machine.judgePort
  simp (maxDischargeDepth := 40) only [h, Steady.ite, Steady.miswire, Steady.verify]

theorem Steady.takeReply {z s : State} (h : Steady but z s) (port : Nat) (rx : Int) (counter since : Nat) :
    Steady but z (Sys2Proof.Machine.takeReply port rx counter since s) := by
  unfold Sys2Proof.Machine.takeReply
  repeat' split
  all_goals first
    | exact h
    | simp (maxDischargeDepth := 40) only [h, implies_true, Steady.modHouse,
      Steady.modPort]

theorem plan_takeParent (n : Nat) (h : House) : (takeParent n h).plan = h.plan := by
  unfold takeParent
  repeat' split
  all_goals rfl

theorem Steady.hearTick {z s : State} (h : Steady but z s) (port : Nat) (f : List Byte) (sub : Nat) :
    Steady but z (Sys2Proof.Machine.hearTick port f sub s) := by
  unfold Sys2Proof.Machine.hearTick
  extract_lets counter period rx s1 s2 s3 s4 s5
  clear_value counter period rx
  have h1 : Steady but z s1 := h.modPort _ _
  have h2 : Steady but z s2 := by
    simp only [s2]
    split
    · exact h1.modPort _ _
    · exact h1
  clear_value s2
  have h3 : Steady but z s3 := Steady.ite (h2.modHouse _ (plan_takeParent _)) h2
  clear_value s3
  have h4 : Steady but z s4 := Steady.ite (h3.takeReply port rx counter _) h3
  clear_value s4
  have h5 : Steady but z s5 := h4.judgePort ..
  exact Steady.ite (h5.modHouse _ (by intro; rfl)) h5

theorem Steady.hearStranger {z s : State} (h : Steady but z s) (port : Nat) (f : List Byte) :
    Steady but z (Sys2Proof.Machine.hearStranger port f s) := by
  unfold Sys2Proof.Machine.hearStranger
  exact (h.modPort _ _).judgePort _

theorem Steady.bookScene {z s : State} (h : Steady but z s) (t : Nat) (tr : Troupe) (e : Nat × Booking) :
    Steady but z (Sys2Proof.Machine.bookScene t tr s e) := by
  unfold Sys2Proof.Machine.bookScene
  simp (maxDischargeDepth := 40) only [h, Steady.troupePortGauge]

theorem plan_carryScene (tr : Troupe) : (carryScene tr).plan = tr.plan := by
  first
    | rfl
    | unfold carryScene; (repeat' split) <;> simp []

theorem Steady.closeScene {z s : State} (h : Steady but z s) (t : Nat) :
    Steady but z (Sys2Proof.Machine.closeScene t s) := by
  unfold Sys2Proof.Machine.closeScene
  simp (maxDischargeDepth := 40) only [h, Steady.refl, Steady.ite, implies_true, Steady.bookScene,
      Steady.closeElements, Steady.foldl, Steady.modTroupe, Steady.troupePortGauge, plan_carryScene]

theorem plan_tickHouse (h : House) : (tickHouse h).plan = h.plan := by
  have e : (countDrift h).plan = h.plan := by
    unfold countDrift
    split <;> rfl
  exact e

theorem Steady.judgeHouse {z s : State} (h : Steady but z s) :
    Steady but z (Sys2Proof.Machine.judgeHouse s) := by
  unfold Sys2Proof.Machine.judgeHouse
  extract_lets fresh
  exact Steady.foldl (fun s o => (Steady.refl s).record _) _ (h.log _)

theorem plan_reindexed (t : Nat) (new : List (ErrRec × ErrRec)) (tr : Troupe) :
    (reindexed t new tr).plan = tr.plan := by
  first
    | rfl
    | unfold reindexed; (repeat' split) <;> simp []

theorem Steady.orderRecords {z s : State} (h : Steady but z s) (from_ : BitVec 32) :
    Steady but z (Sys2Proof.Machine.orderRecords from_ s) := by
  unfold Sys2Proof.Machine.orderRecords
  extract_lets sorted new
  refine Steady.trans (Steady.log h { s.log with
    records := new.foldl (fun t e => tabPut t (e.2.index.toNat % 256) e.2) s.log.records }) ?_
  exact Steady.mapTroupes (Steady.refl _) (fun n tr => reindexed n new tr) fun n tr => plan_reindexed ..

theorem Steady.tickUnits {z s : State} (h : Steady but z s)  :
    Steady but z (Sys2Proof.Machine.tickUnits s) := by
  unfold Sys2Proof.Machine.tickUnits
  simp (maxDischargeDepth := 40) only [h, Steady.refl, Steady.ite, implies_true, Steady.foldl, Steady.endTest,
    Steady.modHouse, Steady.record, Steady.failureTold]

theorem Steady.endPitResets {z s : State} (h : Steady but z s)  :
    Steady but z (Sys2Proof.Machine.endPitResets s) := by
  unfold Sys2Proof.Machine.endPitResets
  simp (maxDischargeDepth := 40) only [h, Steady.run]

theorem Steady.snapGauges {z s : State} (h : Steady but z s) : Steady but z (Sys2Proof.Machine.snapGauges s) :=
  Steady.house' (h.mapTroupes (fun _ tr => { tr with tickGauges := tr.gauges }) fun _ _ => rfl) _ rfl

theorem Steady.tickPorts {z s : State} (h : Steady but z s)  :
    Steady but z (Sys2Proof.Machine.tickPorts s) := by
  unfold Sys2Proof.Machine.tickPorts
  simp (maxDischargeDepth := 40) only [h, Steady.refl, implies_true, Steady.ports, Steady.foldl, Steady.portGauge]

theorem Steady.tickSlices {z s : State} (h : Steady but z s) : Steady but z (Sys2Proof.Machine.tickSlices s) :=
  h.trans ⟨rfl, rfl, rfl, fun r => by
    have e : ∀ n sl, (tickSlice n sl).plan = sl.plan := by
      intro n sl
      unfold tickSlice
      repeat' split
      all_goals rfl
    show (tabGetD (s.slices.map fun e => (e.1, tickSlice s.house.tick e.2)) r {}).plan = (tabGetD s.slices r {}).plan
    rw [tabGetD, tabGetD, tabGet_map s.slices r (fun _ sl => tickSlice s.house.tick sl)]
    cases tabGet s.slices r with
    | none => rfl
    | some x => exact e _ _, fun u tr _ g => ⟨tr, g, rfl⟩⟩

theorem Steady.stageRecord {z s : State} (h : Steady but z s) (t kind index : Nat) :
    Steady but z (Sys2Proof.Machine.stageRecord t kind index s) := by
  unfold Sys2Proof.Machine.stageRecord
  simp (maxDischargeDepth := 40) only [h, Steady.record]

theorem Steady.openScene {z s : State} (h : Steady but z s) (t : Nat) :
    Steady but z (Sys2Proof.Machine.openScene t s) := by
  unfold Sys2Proof.Machine.openScene
  simp (maxDischargeDepth := 40) only [h, Steady.refl, implies_true, Steady.foldl, Steady.modTroupe,
    Steady.stageRecord]

theorem Steady.judgeStage {z s : State} (h : Steady but z s) (t : Nat) :
    Steady but z (Sys2Proof.Machine.judgeStage t s) := by
  unfold Sys2Proof.Machine.judgeStage
  simp (maxDischargeDepth := 40) only [h, Steady.refl, implies_true, Steady.foldl, Steady.modTroupe,
    Steady.stageRecord]

theorem Steady.judgeTroupe {z s : State} (h : Steady but z s) (t : Nat) :
    Steady but z (Sys2Proof.Machine.judgeTroupe t s) := by
  unfold Sys2Proof.Machine.judgeTroupe
  repeat' split
  all_goals first
    | exact h
    | simp (maxDischargeDepth := 40) only [h, Steady.fault]

theorem Steady.tickAcks {z s : State} (h : Steady but z s) (t : Nat) :
    Steady but z (Sys2Proof.Machine.tickAcks t s) := by
  unfold Sys2Proof.Machine.tickAcks
  simp (maxDischargeDepth := 40) only [h, Steady.refl, implies_true, Steady.foldl, Steady.sendAck]

theorem Steady.settleAll {z s : State} (h : Steady but z s) (t : Nat) :
    Steady but z (Sys2Proof.Machine.settleAll t s) := by
  unfold Sys2Proof.Machine.settleAll
  simp (maxDischargeDepth := 40) only [h, Steady.refl, implies_true, Steady.foldl,
      Steady.settleFallback]

theorem Steady.tickTroupe {z s : State} (h : Steady but z s) (t : Nat) :
    Steady but z (Sys2Proof.Machine.tickTroupe t s) := by
  unfold Sys2Proof.Machine.tickTroupe
  simp (maxDischargeDepth := 40) only [h, Steady.refl, implies_true, Steady.applyOutcome,
      Steady.checkTroupe, Steady.encoreStep, Steady.enterAll, Steady.flipDue, Steady.foldl, Steady.judgeStage,
      Steady.judgeTroupe, Steady.openScene, Steady.resetStep, Steady.resyncStep, Steady.serveHeld,
      Steady.settleAll, Steady.settleResync, Steady.standStep, Steady.tickAcks, Steady.tickRound,
      Steady.trickleStep]

theorem Steady.runOut {z s : State} (h : Steady but z s)  :
    Steady but z (Sys2Proof.Machine.runOut s) := by
  unfold Sys2Proof.Machine.runOut
  simp (maxDischargeDepth := 40) only [h, Steady.passCk]

theorem Steady.eachTroupe {z s : State} (h : Steady but z s) {f : Nat → State → State} (hf : ∀ t s, Steady but s (f t s)) :
    Steady but z (Sys2Proof.Machine.eachTroupe f s) := Steady.foldl (fun s t => hf t s) _ h

theorem Steady.tickBlock {z s : State} (h : Steady but z s) :
    Steady but z (Sys2Proof.Machine.tickBlock s) := by
  unfold Sys2Proof.Machine.tickBlock
  extract_lets s1 from_ s2 s3
  have h1 : Steady but z s1 := h.eachTroupe fun t s => (Steady.refl s).closeScene t
  have h2 : Steady but z s2 := Steady.house' (h1.log (tickLog s1.log)) _ (plan_tickHouse _)
  have h3 : Steady but z s3 := h2.judgeHouse.tickUnits.snapGauges
  exact (Steady.eachTroupe h3.tickSlices.tickPorts.endPitResets fun t s =>
    (Steady.refl s).tickTroupe t).orderRecords _

/-! ### Window -/

theorem Steady.respond {z s : State} (h : Steady but z s) (r : Reply) (data : List Byte) :
    Steady but z (Sys2Proof.Machine.respond r data s) := by
  unfold Sys2Proof.Machine.respond
  simp (maxDischargeDepth := 40) only [h, implies_true, Steady.modHouse]

theorem Steady.ringRefused {z s : State} (h : Steady but z s) (t ring : Nat) (st : Status) :
    Steady but z (Sys2Proof.Machine.ringRefused t ring st s) := by
  unfold Sys2Proof.Machine.ringRefused
  simp (maxDischargeDepth := 40) only [h, implies_true, Steady.modTroupe]

theorem Steady.accessRecord {z s : State} (h : Steady but z s) (r : Rec) :
    Steady but z (Sys2Proof.Machine.accessRecord r s) := by
  unfold Sys2Proof.Machine.accessRecord
  simp (maxDischargeDepth := 40) only [h, Steady.ite, Steady.log, Steady.record, Steady.suppress]

theorem Steady.refuseAccess {z s : State} (h : Steady but z s) (a : Access) (write : Bool) (d : Denial) :
    Steady but z (Sys2Proof.Machine.refuseAccess a write d s) := by
  unfold Sys2Proof.Machine.refuseAccess
  repeat' split
  all_goals first
    | exact h
    | simp (maxDischargeDepth := 40) only [h, Steady.accessRecord,
      Steady.gauge, Steady.respond, Steady.ringRefused]

theorem Steady.judged {z s : State} (h : Steady but z s) (a : Access) {k : State → State} (hk : ∀ s, Steady but s (k s)) :
    Steady but z (Sys2Proof.Machine.judged a k s) := by
  unfold Sys2Proof.Machine.judged
  split
  · exact h.refuseAccess _ _ _
  · exact h.trans (hk s)

theorem Steady.postSlot {z s : State} (h : Steady but z s) (t slot : Nat) :
    Steady but z (Sys2Proof.Machine.postSlot t slot s) := by
  unfold Sys2Proof.Machine.postSlot
  simp (maxDischargeDepth := 40) only [h, Steady.ite, implies_true, Steady.gauge, Steady.modTroupe]

theorem Steady.ringDenied {z s : State} (h : Steady but z s) (a : Access) (t ring : Nat) (r : Reply) (st : Status) :
    Steady but z (Sys2Proof.Machine.ringDenied a t ring r st s) := by
  unfold Sys2Proof.Machine.ringDenied
  simp (maxDischargeDepth := 40) only [h, Steady.gauge, Steady.respond, Steady.ringRefused]

theorem Steady.ringWrite {z s : State} (h : Steady but z s) (a : Access) (t : Nat) :
    Steady but z (Sys2Proof.Machine.ringWrite a t s) := by
  unfold Sys2Proof.Machine.ringWrite
  dsimp only
  repeat' split
  all_goals first
    | exact h
    | simp (maxDischargeDepth := 40) only [h, implies_true, Steady.accessRecord,
      Steady.fault, Steady.gauge, Steady.modTroupe, Steady.respond, Steady.ringDenied]

end Sys2Proof.Machine
end

