-- ==== Sys2Proof/Tests/Slice0.lean ====
section
/-! SUPPORT. Tests: a state that meets the hypotheses of each statement, the checks of WellFormed, and worked examples of
the spec. -/

namespace Sys2Proof.Tests

set_option Elab.async false

open Sys2Proof Sys2Proof.Machine

/-- A slot of troupe 0 (the house), 5 ck after the previous command. -/
def at0 : Post := ⟨0, 3, 5⟩
/-- The copied command of a slot that spells a row for a target. -/
def copied (i : Instr) (target : Nat) : Posted := { image := slotImage i target 1 0, arrived := 0 }
/-- Nimlia is up and a command waits in a slot. -/
def armed (s : State) (i : Instr) (p : Post) (target : Nat) : State :=
  modTroupe (modHouse s fun h => { h with fwUp := true }) p.issuer fun tr =>
    { tr with posted := [(p.slot, copied i target)] }
/-- The house at reset with fewer lanes seeded. -/
def small : State := { house := { lfsr := laneSeeds 2 0 }, troupes := [(0, {})] }
/-- The small house with troupe 2 of some contents. -/
def with2 (tr : Troupe) : State := { small with troupes := [(0, {}), (2, tr)] }
/-- A slot of troupe 2, no time after the previous command. -/
def at2 : Post := ⟨2, 31, 0⟩
/-- A command is served for a target from a slot. -/
abbrev Fits (house : Bool) (gate : State → Nat → Option Status) (i : Instr) (p : Post) (target : Nat) (s : State) :
    Prop :=
  Ready house gate i p (copied i target) (armed s i p target)
/-- The block when Nimlia takes it. -/
abbrev took (i : Instr) (p : Post) (target : Nat) (s : State) : State := begun p (armed s i p target)

/-! ### Witnesses: house commands -/

theorem witness_houseTickSet : Ready true houseGate (.houseTickSet at0 200 64) at0 (copied (.houseTickSet at0 200 64) 0)
      (armed small (.houseTickSet at0 200 64) at0 0) ∧ 25 ≤ (200 : BitVec 16).toNat ∧ (200 : BitVec 16).toNat ≤ 400 ∧
    small.house.tick + 64 ≤ (64 : BitVec 64).toNat ∧
    ∀ k < 8, peakIn (portSpans (begun at0 (armed small (.houseTickSet at0 200 64) at0 0)) k none) ⟨k, 0, 64, 0⟩ ≤
      admissionLimit (portNext (begun at0 (armed small (.houseTickSet at0 200 64) at0 0)) k).1 200 := by decide +kernel

theorem witness_houseTickTree : Ready true houseGate (.houseTickTree at0 0xFF) at0 (copied (.houseTickTree at0 0xFF) 0)
      (armed small (.houseTickTree at0 0xFF) at0 0) := by decide +kernel

theorem witness_housePodSet : Ready true houseGate (.housePodSet at0 7 4 32 16 4095) at0
      (copied (.housePodSet at0 7 4 32 16 4095) 0) (armed small (.housePodSet at0 7 4 32 16 4095) at0 0) ∧
    (armed small (.housePodSet at0 7 4 32 16 4095) at0 0).house.doorsOpen = false := by decide +kernel

theorem witness_housePitShare : Ready true houseGate (.housePitShare at0 92) at0 (copied (.housePitShare at0 92) 0)
      (armed small (.housePitShare at0 92) at0 0) := by decide +kernel

theorem witness_houseDispatch : Ready true houseGate (.houseDispatch at0 1) at0 (copied (.houseDispatch at0 1) 0)
      (armed small (.houseDispatch at0 1) at0 0) ∧
    ∀ e ∈ (begun at0 (armed small (.houseDispatch at0 1) at0 0)).troupes, flight e.2 = none := by decide +kernel

theorem witness_houseReset : Ready true houseGate (.houseReset at0) at0 (copied (.houseReset at0) 0)
      (armed small (.houseReset at0) at0 0) := by decide +kernel

theorem witness_houseBind : Ready true alwaysGate (.houseBind at0 65535 1) at0 (copied (.houseBind at0 65535 1) 2)
      (armed (with2 {}) (.houseBind at0 65535 1) at0 2) := by decide +kernel

theorem witness_houseWingSet : Ready true houseGate (.houseWingSet at0 7 0x0000_0001_0002) at0
      (copied (.houseWingSet at0 7 0x0000_0001_0002) 0) (armed small (.houseWingSet at0 7 0x0000_0001_0002) at0 0) := by
  decide +kernel

theorem witness_housePortSet : Ready true houseGate (.housePortSet at0 3 50 1000 4) at0
      (copied (.housePortSet at0 3 50 1000 4) 0) (armed small (.housePortSet at0 3 50 1000 4) at0 0) ∧
    withinLimit (begun at0 (armed small (.housePortSet at0 3 50 1000 4) at0 0)) 50 1000
      (portSpans (begun at0 (armed small (.housePortSet at0 3 50 1000 4) at0 0)) 3 none) ⟨3, 0, 1, 0⟩ = true := by
  decide +kernel

theorem witness_houseShaperSet : Ready true alwaysGate (.houseShaperSet at0 0 200000 8314) at0
      (copied (.houseShaperSet at0 0 200000 8314) 2) (armed (with2 {}) (.houseShaperSet at0 0 200000 8314) at0 2) := by
  decide +kernel

theorem witness_houseGrant : Ready true alwaysGate (.houseGrant at0 0 5000) at0 (copied (.houseGrant at0 0 5000) 2)
      (armed (with2 {}) (.houseGrant at0 0 5000) at0 2) ∧
    troupeAdmitted (begun at0 (armed (with2 {}) (.houseGrant at0 0 5000) at0 2)) {} 0 ≤ 5000 ∧
    5000 ≤ admissionLimit (portNext (begun at0 (armed (with2 {}) (.houseGrant at0 0 5000) at0 2)) 0).1 100 := by
  decide +kernel

theorem witness_housePortReset : Ready true houseGate (.housePortReset at0 7) at0 (copied (.housePortReset at0 7) 0)
      (armed small (.housePortReset at0 7) at0 0) := by decide +kernel

/-- The small house in a pod of 4 × 4 × 4 chips. -/
def podded : State := { small with house := { small.house with dims := ⟨4, 4, 4⟩ }, troupes := [(0, {}), (2, {})] }

/-- The gate of HOUSE_SLICE_SET. -/
abbrev sliceGate (s : State) (t : Nat) : Option Status :=
  (alwaysGate s t).orElse fun _ => if quiet (troupe s t) then none else some .state

theorem witness_houseSliceSet_new : Ready true sliceGate (.houseSliceSet at0 1 0 0 0 4 2 1) at0
      (copied (.houseSliceSet at0 1 0 0 0 4 2 1) 2) (armed podded (.houseSliceSet at0 1 0 0 0 4 2 1) at0 2) ∧
    (∀ a < 3, 1 ≤ (⟨4, 2, 1⟩ : Coord).on a ∧ (⟨4, 2, 1⟩ : Coord).on a ≤ podded.house.dims.on a ∧
      (⟨0, 0, 0⟩ : Coord).on a < podded.house.dims.on a) ∧
    inSlice (begun at0 (armed podded (.houseSliceSet at0 1 0 0 0 4 2 1) at0 2)) (⟨0, 0, 0⟩, ⟨4, 2, 1⟩) ⟨0, 0, 0⟩ = true ∧
    diameter (begun at0 (armed podded (.houseSliceSet at0 1 0 0 0 4 2 1) at0 2)) ⟨4, 2, 1⟩ ≤ 63 ∧
    (sliceOf podded 1).shape ≠ some (⟨0, 0, 0⟩, ⟨4, 2, 1⟩) ∧ (sliceOf podded 1).commit = none ∧
    (sliceOf podded 1).draining = none ∧
    ∀ k ∈ (begun at0 (armed podded (.houseSliceSet at0 1 0 0 0 4 2 1) at0 2)).troupes, k.1 = 2 ∨ k.2.slice ≠ some 1 := by
  decide +kernel

/-- The podded house whose record 1 holds the slice already. -/
def sliced : State := { podded with slices := [(1, { shape := some (⟨0, 0, 0⟩, ⟨4, 2, 1⟩) })] }

theorem witness_houseSliceSet_same : Ready true sliceGate (.houseSliceSet at0 1 0 0 0 4 2 1) at0
      (copied (.houseSliceSet at0 1 0 0 0 4 2 1) 2) (armed sliced (.houseSliceSet at0 1 0 0 0 4 2 1) at0 2) ∧
    (∀ a < 3, 1 ≤ (⟨4, 2, 1⟩ : Coord).on a ∧ (⟨4, 2, 1⟩ : Coord).on a ≤ sliced.house.dims.on a ∧
      (⟨0, 0, 0⟩ : Coord).on a < sliced.house.dims.on a) ∧
    inSlice (begun at0 (armed sliced (.houseSliceSet at0 1 0 0 0 4 2 1) at0 2)) (⟨0, 0, 0⟩, ⟨4, 2, 1⟩) ⟨0, 0, 0⟩ = true ∧
    diameter (begun at0 (armed sliced (.houseSliceSet at0 1 0 0 0 4 2 1) at0 2)) ⟨4, 2, 1⟩ ≤ 63 ∧
    (sliceOf sliced 1).shape = some (⟨0, 0, 0⟩, ⟨4, 2, 1⟩) := by decide +kernel

theorem witness_houseRouteFill : Ready true houseGate (.houseRouteFill at0 1) at0 (copied (.houseRouteFill at0 1) 0)
      (armed sliced (.houseRouteFill at0 1) at0 0) ∧ stagedFree (sliceOf sliced 1) = true := by decide +kernel

/-- The sliced house with one routing item (entry 5 of slot 2, word 0x9) at HBM address 64. -/
def withItem : State :=
  { sliced with hbm := memWrite [] 64 (leBytes 2 5 ++ [2] ++ List.replicate 5 0 ++ leBytes 8 (pcWord 9).toNat) }

theorem witness_houseRouteSet : Ready true houseGate (.houseRouteSet at0 1 1 64) at0 (copied (.houseRouteSet at0 1 1 64) 0)
      (armed withItem (.houseRouteSet at0 1 1 64) at0 0) ∧ stagedFree (sliceOf withItem 1) = true ∧
    (routeItems (begun at0 (armed withItem (.houseRouteSet at0 1 1 64) at0 0)) 1 64).toOption = some [(72, 9)] := by
  decide +kernel

theorem witness_houseRouteCommit : Ready true houseGate (.houseRouteCommit at0 1 1 8 0x40 4) at0
      (copied (.houseRouteCommit at0 1 1 8 0x40 4) 0) (armed sliced (.houseRouteCommit at0 1 1 8 0x40 4) at0 0) ∧
    (sliceOf sliced 1).draining = none ∧ (sliceOf sliced 1).commit = none ∧ 1 = (sliceOf sliced 1).epoch + 1 ∧
    bankOf (sliceOf sliced 1) (! (sliceOf sliced 1).active) = [] ∧
    (((sliceOf sliced 1).shape.map fun sh =>
      diameter (begun at0 (armed sliced (.houseRouteCommit at0 1 1 8 0x40 4) at0 0)) sh.2).getD 0) + 8 ≤ 63 := by
  decide +kernel

theorem witness_housePitReset : Ready true houseGate (.housePitReset at0 7) at0 (copied (.housePitReset at0 7) 0)
      (armed small (.housePitReset at0 7) at0 0) ∧ 7 < (armed small (.housePitReset at0 7) at0 0).house.pits := by
  decide +kernel


/-! ### Witnesses: bookings, gauges, spills, rehearsal commands -/

theorem witness_bookSet_new : Fits false anyGate (.bookSet at2 255 7 2 0 0 0) at2 2 (with2 {}) ∧
    classArg 2 = some .d ∧ (portOf (with2 {}) 7).link ≠ .dark ∧
    tabGet (troupe (took (.bookSet at2 255 7 2 0 0 0) at2 2 (with2 {})) 2).bookings 255 = none ∧
    admits (took (.bookSet at2 255 7 2 0 0 0) at2 2 (with2 {})) 2 255 (spanAmong ⟨7, .d, 0, 0, 0, 1⟩ []) = true := by
  decide +kernel

/-- Booking 5, with a change that is due at tick 7. -/
def booking5 : Booking :=
  { port := 3, cls := .f, bytes := ⟨1000, 0⟩, start := 0, stop := 0, changes := [⟨3, .f, 2000, 7, 0, 7⟩] }
/-- Troupe 2 with a grant of 50,000 B on port 3 and booking 5 there. -/
def booked : State := with2 { grants := [(3, ⟨50000, 0⟩)], bookings := [(5, booking5)] }

theorem witness_bookSet_change : Fits false anyGate (.bookSet at2 5 3 1 50000 4 9) at2 2 booked ∧
    classArg 1 = some .f ∧ (4 : BitVec 64).toNat < (9 : BitVec 64).toNat ∧
    tabGet (troupe (took (.bookSet at2 5 3 1 50000 4 9) at2 2 booked) 2).bookings 5 = some booking5 ∧
    admits (took (.bookSet at2 5 3 1 50000 4 9) at2 2 booked) 2 5 (spanAmong ⟨3, .f, 50000, 4, 9, 4⟩ booking5.changes) =
      true := by decide +kernel
/-- R41: the change of tick 4 goes before the one of tick 7, and its span ends there. -/
theorem test_bookChanges : (insertChange ⟨3, .f, 50000, 4, 9, 4⟩ booking5.changes).map (·.at_) = [4, 7] ∧
    spanAmong ⟨3, .f, 50000, 4, 9, 4⟩ booking5.changes = ⟨3, 50000, 4, 7⟩ := by decide

theorem witness_bookClear : Fits false anyGate (.bookClear at2 5) at2 2 booked ∧
    ringBound (troupe (took (.bookClear at2 5) at2 2 booked) 2) 5 = false ∧
    stepNames (troupe (took (.bookClear at2 5) at2 2 booked) 2) 5 = false := by decide +kernel

theorem witness_bookRead : Fits false alwaysGate (.bookRead at2 5) at2 2 booked ∧
    (tabGet (troupe (took (.bookRead at2 5) at2 2 booked) 2).bookings 5).isSome = true := by decide +kernel

theorem witness_gaugeSnap : Fits false alwaysGate (.gaugeSnap at2 0xFFFFFFFFFFFFFFFF) at2 2 (with2 { life := .fenced }) := by
  decide +kernel

theorem witness_gaugeClear : Fits false anyGate (.gaugeClear at0 0x37F) at0 2 (with2 {}) ∧
    (0x37F : BitVec 32) &&& ~~~ 0x37F = 0 := by decide +kernel

theorem witness_gaugeClear_own : Fits false anyGate (.gaugeClear at2 0x7F) at2 2 (with2 {}) ∧
    (0x7F : BitVec 32) &&& ~~~ 0x37F = 0 ∧ (0x7F : BitVec 32) &&& 0x300 = 0 := by decide +kernel

/-- A step record. -/
def stepAt (n : Nat) (st : StepState) : StepRec :=
  { num := n, state := ⟨st, 0⟩, m := 1, bookings := 0, seed := 0, adlib := false, mirror := .none, trickle := false
    openTick := 0, deadline := 2048 }

theorem witness_gaugeTimers : Fits false alwaysGate (.gaugeTimers at2 1 64) at2 2
      (with2 { opened := 64, steps := [(1, stepAt 1 .retired)] }) ∧
    stepOf (troupe (took (.gaugeTimers at2 1 64) at2 2 (with2 { opened := 64, steps := [(1, stepAt 1 .retired)] })) 2) 1 =
      some (stepAt 1 .retired) := by decide +kernel

theorem witness_spillSet : Fits false anyGate (.spillSet at2 0 0 0 64) at2 2 (with2 {}) := by decide +kernel
theorem witness_spillDrain : Fits false anyGate (.spillDrain at2) at2 2 (with2 {}) := by decide +kernel

theorem witness_testSet : Fits true anyGate (.testSet at0 1 50) at0 0 small := by decide +kernel

theorem witness_testRun : Fits true anyGate (.testRun at0 6 1) at0 0 small ∧
    unitNumber (took (.testRun at0 6 1) at0 0 small) 6 1 = some 23 ∧
    underTest (unitOf (took (.testRun at0 6 1) at0 0 small) 23) = false := by decide +kernel

theorem witness_testDarken : Fits true anyGate (.testDarken at0 5 8) at0 0 small ∧
    unitNumber (took (.testDarken at0 5 8) at0 0 small) 5 8 = some 8 := by decide +kernel

/-- The small house with unit 7 (a pit) dark. -/
def darkened : State := { small with house := { small.house with units := [(7, { dark := true })] } }

theorem witness_testReturn : Fits true anyGate (.testReturn at0 5 7) at0 0 darkened ∧
    unitNumber (took (.testReturn at0 5 7) at0 0 darkened) 5 7 = some 7 ∧
    (unitOf (took (.testReturn at0 5 7) at0 0 darkened) 7).dark = true ∧
    (unitOf (took (.testReturn at0 5 7) at0 0 darkened) 7).fused = false ∧
    underTest (unitOf (took (.testReturn at0 5 7) at0 0 darkened) 7) = false := by decide +kernel

/-! ### Witnesses: troupes and playbills -/

theorem witness_troupeCreate :
    Fits true (gateOf (.troupeCreate at0 3 (List.replicate 8 0) (List.replicate 8 65536)))
      (.troupeCreate at0 3 (List.replicate 8 0) (List.replicate 8 65536)) at0 63 small ∧
    regionsOk (armed small (.troupeCreate at0 3 (List.replicate 8 0) (List.replicate 8 65536)) at0 63)
      ((List.replicate 8 0).zip (List.replicate 8 65536)) = true := by decide +kernel

theorem witness_troupeMode : Fits false quietGate (.troupeMode at2 1) at2 2 (with2 {}) := by decide +kernel
theorem witness_troupeClass : Fits true quietGate (.troupeClass at0 1) at0 2 (with2 {}) ∧
    (troupe (took (.troupeClass at0 1) at0 2 (with2 {})) 2).bookings = [] := by decide +kernel

/-- Troupe 2 with an OPEN carousel line 4 over this chip and another, whose addresses lie at HBM address 64. -/
def rounded : State :=
  { with2 { lines := [(4, { state := ⟨.opened, 0⟩, carousel := true, members := [0x0000_0001_0002, 2]
                            peers := [{ addr := 0x0000_0001_0002 }] })] } with
    hbm := memWrite [] 64 (leBytes 8 0x0000_0001_0002 ++ leBytes 8 2) }

theorem witness_troupeCarousel :
    Fits false billGate (.troupeCarousel at2 255 1 2 1 [4, 0, 0, 0, 0, 0] 64) at2 2 rounded ∧
    (∀ a ∈ readAddresses rounded 64 2, addressOk a = true) ∧
    ([0x0000_0001_0002, 2].filter (· == memberAddr rounded 2)).length = 1 ∧
    ([0x0000_0001_0002, 2] : List BlockAddr)[1]? = some (memberAddr rounded 2) ∧
    suitsCarousel (troupe rounded 2) [0x0000_0001_0002, 2] 4 = true := by
  have read : readAddresses rounded 64 2 = [0x0000_0001_0002, 2] := by decide +kernel
  exact ⟨by decide +kernel, by rw [read]; simp [addressOk], by decide +kernel, by decide +kernel, by decide +kernel⟩

theorem witness_troupeState : Fits false alwaysGate (.troupeState at2) at2 2 (with2 { life := .resetting }) := by
  decide +kernel

theorem witness_troupeIntermission : Fits false anyGate (.troupeIntermission at2) at2 2 (with2 {}) ∧
    flight (troupe (took (.troupeIntermission at2) at2 2 (with2 {})) 2) = none := by decide +kernel

/-- Troupe 2 with step 3 in some state. -/
def stepping (st : StepState) : State := with2 { opened := 3, sealed := true, steps := [(3, stepAt 3 st)] }

theorem witness_troupeIntermission_pending : Fits false anyGate (.troupeIntermission at2) at2 2 (stepping .exchanged) ∧
    (flight (troupe (took (.troupeIntermission at2) at2 2 (stepping .exchanged)) 2)).isSome = true := by decide +kernel

theorem witness_troupeResume : Fits false anyGate (.troupeResume at2) at2 2 (with2 { life := .intermission, issuer := 1 }) ∧
    resumes (took (.troupeResume at2) at2 2 (with2 { life := .intermission, issuer := 1 })) 2 = true := by decide +kernel

theorem witness_troupeReset : Fits false alwaysGate (.troupeReset at2) at2 2 (with2 { life := .fenced }) := by
  decide +kernel
theorem witness_troupeDelete : Fits true alwaysGate (.troupeDelete at0) at0 2 (with2 { life := .fenced }) := by
  decide +kernel

/-- The 64 bytes of a playbill entry: tensor 7 of troupe 2, 32 FP32 elements, bucket 1. -/
def entry64 : List Byte := leBytes 8 (pcWord (7 + 2 * 2 ^ 20 + 2 ^ 26)).toNat ++ leBytes 8 32 ++ leBytes 2 1 ++ List.replicate 46 0
/-- Troupe 2 with bucket 1 and one carousel entry, and the entry's bytes at HBM address 64. -/
def billed (tr : Troupe) : State :=
  { with2 { tr with buckets := [(1, {})], carousels := [(0, ⟨[2], 0, 1, [4]⟩)] } with hbm := memWrite [] 64 entry64 }

theorem witness_billAdd : Fits false billGate (.billAdd at2 1 64) at2 2 (billed {}) ∧
    ((readEntries (took (.billAdd at2 1 64) at2 2 (billed {})) 2 64 1).map fun es => es.map (·.tensor)) = some [7] ∧
    poolUsed (took (.billAdd at2 1 64) at2 2 (billed {})) + 1 ≤ 4194304 ∧
    heldElements [(7, entryOf entry64)] ≤ 2 ^ 36 := by decide +kernel

theorem witness_billSet : Fits false billGate (.billSet at2 1 64) at2 2 (billed { bill := [(7, entryOf entry64)] }) ∧
    ((readEntries (took (.billSet at2 1 64) at2 2 (billed { bill := [(7, entryOf entry64)] })) 2 64 1)) =
      some [entryOf entry64] := by decide +kernel

theorem witness_billRemove :
    Fits false billGate (.billRemove at2 1 64) at2 2
      { with2 { bill := [(7, entryOf entry64)] } with hbm := memWrite [] 64 (leBytes 4 7) } ∧
    peekWord { with2 { bill := [(7, entryOf entry64)] } with hbm := memWrite [] 64 (leBytes 4 7) } 64 4 = 7 := by
  decide +kernel

theorem witness_billRead : Fits false alwaysGate (.billRead at2 7) at2 2 (billed { bill := [(7, entryOf entry64)] }) := by
  decide +kernel

theorem witness_billBucket_put : Fits false billGate (.billBucket at2 65535 1 2 255 0) at2 2 (with2 {}) := by
  decide +kernel
theorem witness_billBucket_remove : Fits false billGate (.billBucket at2 1 0 0 0 1) at2 2 (billed {}) ∧
    (tabGet (troupe (armed (billed {}) (.billBucket at2 1 0 0 0 1) at2 2) 2).buckets 1).isSome = true := by decide +kernel

theorem witness_billSieve : Fits false anyGate (.billSieve at2 1 65536 65536 1) at2 2 (billed {}) ∧
    tabGet (troupe (armed (billed {}) (.billSieve at2 1 65536 65536 1) at2 2) 2).buckets 1 = some {} := by decide +kernel

theorem witness_billScale :
    Fits false anyGate (.billScale at2 7 7 64 1024 1) at2 2 (billed { bill := [(7, entryOf entry64)] }) ∧
    (tabGet (troupe (billed {}) 2).buckets (entryOf entry64).bucket).any (·.fclass) = false := by decide +kernel

theorem witness_billArena_put : Fits false billGate (.billArena at2 15 4096 0x10000) at2 2
      (with2 { arenas := [(3, ⟨0x20000000, 2⟩)], slots := [0x20000000] }) ∧
    arenasMeet ⟨0x10000, 4096⟩ ⟨0x20000000, 2⟩ = false ∧
    (0x10000 : BitVec 64).toNat + 65536 * (4096 : BitVec 16).toNat ≤ 2 ^ 48 := by decide +kernel
theorem witness_billArena_remove : Fits false billGate (.billArena at2 3 0 0) at2 2
      (with2 { arenas := [(3, ⟨0x20000000, 2⟩)] }) := by decide +kernel

theorem witness_billSeal : Fits false billGate (.billSeal at2) at2 2 (billed { bill := [(7, entryOf entry64)] }) ∧
    sealOk 8 (troupe (took (.billSeal at2) at2 2 (billed { bill := [(7, entryOf entry64)] })) 2) = true := by
  decide +kernel
theorem witness_sealComplete : (troupe (billed { sealing := true, bill := [(7, entryOf entry64)] }) 2).sealing = true ∧
    ∀ e ∈ (troupe (billed { sealing := true, bill := [(7, entryOf entry64)] }) 2).bill, e.2.ident = 0 := by decide +kernel

/-! ### Witnesses: lines, rings, cues -/

theorem witness_lineOpen :
    Fits false anyGate (.lineOpen at2 511 0 0 0x0000_0001_0002 64 4096 0 0 32 100) at2 2 (with2 {}) ∧
    addressOk 0x0000_0001_0002 = true ∧ (lineOf (troupe (with2 {}) 2) 511).state.val = .closed ∧
    lineHeld (armed (with2 {}) (.lineOpen at2 511 0 0 0x0000_0001_0002 64 4096 0 0 32 100) at2 2) 2 511 = false := by
  decide +kernel

/-- Troupe 2, with n block addresses at HBM address 64: this chip's own and others. -/
def listed (n : Nat) : State :=
  { with2 {} with hbm := memWrite [] 64 (leBytes 8 2 ++ if n = 1 then [] else leBytes 8 0x0000_0001_0002) }

theorem witness_lineOpen_carousel :
    Fits false anyGate (.lineOpen at2 0 1 2 64 0 0 0 0 1 0) at2 2 (listed 2) ∧
    membersOk (myAddr (took (.lineOpen at2 0 1 2 64 0 0 0 0 1 0) at2 2 (listed 2)) 2)
      (readAddresses (listed 2) 64 2) = true ∧
    (lineOf (troupe (listed 2) 2) 0).state.val = .closed ∧
    ((readAddresses (listed 2) 64 2).map fun a => (a.setWidth 48 : BlockAddr)).filter
      (· != myAddr (took (.lineOpen at2 0 1 2 64 0 0 0 0 1 0) at2 2 (listed 2)) 2) ≠ [] := by decide +kernel

theorem witness_lineOpen_alone :
    Fits false anyGate (.lineOpen at2 0 1 1 64 0 0 0 0 1 0) at2 2 (listed 1) ∧
    membersOk (myAddr (took (.lineOpen at2 0 1 1 64 0 0 0 0 1 0) at2 2 (listed 1)) 2)
      (readAddresses (listed 1) 64 1) = true ∧
    ((readAddresses (listed 1) 64 1).map fun a => (a.setWidth 48 : BlockAddr)).filter
      (· != myAddr (took (.lineOpen at2 0 1 1 64 0 0 0 0 1 0) at2 2 (listed 1)) 2) = [] := by decide +kernel

/-- Troupe 2 whose point-to-point line 4 is in some state. -/
def lined (st : LineState) : State :=
  with2 { lines := [(4, { state := ⟨st, 0⟩, peers := [{ addr := 0x0000_0001_0002 }], epoch := 3, payload := 8 })] }

theorem witness_lineReset : Fits false anyGate (.lineReset at2 4) at2 2 (lined .faulted) ∧
    (lineOf (troupe (lined .faulted) 2) 4).state.val = .faulted ∧
    lineHeld (armed (lined .faulted) (.lineReset at2 4) at2 2) 2 4 = false ∧
    (lineOf (troupe (lined .faulted) 2) 4).peers ≠ [] := by decide +kernel

/-- Troupe 2 with an OPEN carousel line 4 that has no other member. -/
def lonely : State := with2 { lines := [(4, { state := ⟨.opened, 0⟩, carousel := true, members := [2] })] }

theorem witness_lineReset_alone : Fits false anyGate (.lineReset at2 4) at2 2 lonely ∧
    lineHeld (armed lonely (.lineReset at2 4) at2 2) 2 4 = false ∧
    (lineOf (troupe lonely 2) 4).state.val = .opened ∧ (lineOf (troupe lonely 2) 4).peers = [] := by decide +kernel

theorem witness_lineClose_closed : Fits false anyGate (.lineClose at2 4) at2 2 (lined .closed) ∧
    (lineOf (troupe (lined .closed) 2) 4).state.val = .closed := by decide +kernel
theorem witness_lineClose_empty : Fits false anyGate (.lineClose at2 4) at2 2 (lined .opened) ∧
    lineEmpty (took (.lineClose at2 4) at2 2 (lined .opened)) 2 4 = true := by decide +kernel
theorem witness_lineClose_faulted : Fits false anyGate (.lineClose at2 4) at2 2 (lined .faulted) ∧
    (lineOf (troupe (lined .faulted) 2) 4).state.val = .faulted := by decide +kernel

/-- A posted WRITE of one frame over line 4, not yet sent. -/
def write1 : LineOp := { id := 9, kind := 1, ring := 7, cue := 0, compl := 0, bytes := 64, cars := 1, version := 0, charge := .shaper }
/-- Troupe 2 whose OPEN line 4 has a WRITE to send. -/
def writing : State :=
  with2 { lines := [(4, { state := ⟨.opened, 0⟩, peers := [{ addr := 0x0000_0001_0002 }], epoch := 3, payload := 8
                          remoteLen := 4096, ops := [write1] })] }

theorem witness_lineClose_busy : Fits false anyGate (.lineClose at2 4) at2 2 writing ∧
    (lineOf (troupe writing 2) 4).state.val = .opened ∧
    lineEmpty (took (.lineClose at2 4) at2 2 writing) 2 4 = false := by decide +kernel

theorem witness_lineSet : Fits false anyGate (.lineSet at2 4 15 0 64 4096 128 8192 32 100) at2 2 writing ∧
    (lineOf (troupe writing 2) 4).state.val = .opened ∧
    lineHeld (armed writing (.lineSet at2 4 15 0 64 4096 128 8192 32 100) at2 2) 2 4 = false ∧
    ∀ o ∈ (lineOf (troupe writing 2) 4).ops, o.version = (lineOf (troupe writing 2) 4).version := by decide +kernel
theorem witness_lineState : Fits false alwaysGate (.lineState at2 511 64) at2 2 (lined .resetting) := by decide +kernel
theorem witness_lineArea : Fits false anyGate (.lineArea at2 4096) at2 2 (with2 {}) := by decide +kernel

theorem witness_ringCreate : Fits false anyGate (.ringCreate at2 4095 1 16 1 7 5 0x1000 0x8003) at2 2
      (with2 { cues := [(3, { value := 0 })]
               bookings := [(5, { port := 3, cls := .f, bytes := ⟨1000, 0⟩, start := 0, stop := 0 })] }) ∧
    cueFieldOk (troupe (with2 { cues := [(3, { value := 0 })] }) 2) 0x8003 = true := by decide +kernel
theorem witness_ringCreate_emit : Fits false anyGate (.ringCreate at2 0 3 6 0 0 0 0 0) at2 2 (with2 {}) ∧
    cueFieldOk (troupe (with2 {}) 2) 0 = true ∧ tabGet (troupe (with2 {}) 2).rings 0 = none := by decide +kernel

/-- A line ring of troupe 2 bound to a shaper. -/
def ring1 : Ring := { kind := 1, depth := 64, binding := 2, port := 3, booking := 0, base := 0x1000, spaceCue := 0 }
/-- Troupe 2 with that ring as ring 7. -/
def ringed : State := with2 { rings := [(7, ring1)] }

theorem witness_ringDelete : Fits false anyGate (.ringDelete at2 7) at2 2 ringed ∧
    tabGet (troupe ringed 2).rings 7 = some ring1 ∧ ring1.tail.val = ring1.head.val ∧ ring1.inFlight = 0 := by
  decide +kernel
theorem witness_ringState : Fits false alwaysGate (.ringState at2 7) at2 2 ringed := by decide +kernel

/-- Troupe 2 with cue 3 of some value. -/
def cued (v : BitVec 64) : State := with2 { cues := [(3, { value := v })] }

theorem witness_cueCreate : Fits false anyGate (.cueCreate at2 1023 7) at2 2 (with2 {}) ∧
    tabGet (troupe (with2 {}) 2).cues 1023 = none := by decide +kernel
theorem witness_cueDelete : Fits false anyGate (.cueDelete at2 3) at2 2 (cued 7) ∧
    cueNamed (took (.cueDelete at2 3) at2 2 (cued 7)) 2 3 = false := by decide +kernel
theorem witness_cueAdd : Fits false anyGate (.cueAdd at2 3 0x100000000) at2 2 (cued 0xFFFFFFFFFFFFFFFF) ∧
    tabGet (troupe (cued 0xFFFFFFFFFFFFFFFF) 2).cues 3 = some { value := 0xFFFFFFFFFFFFFFFF } := by decide +kernel
theorem witness_cueWait : Fits false anyGate (.cueWait at2 3 8 5 64) at2 2 (cued 7) ∧
    (7 : BitVec 64) < 8 ∧ ({ value := 7 } : Cue).waits.length < 8 := by decide +kernel
theorem witness_cueWait_reached : Fits false anyGate (.cueWait at2 3 7 0 64) at2 2 (cued 7) ∧ (7 : BitVec 64) ≤ 7 := by
  decide +kernel
theorem witness_cueRead : Fits false alwaysGate (.cueRead at2 3) at2 2 (cued 7) := by decide +kernel

/-! ### Witnesses: steps, the optimiser, the understudy -/

/-- A sealed troupe whose bucket 1 holds tensor 7 (two blocks), reduced over a carousel of two chips, this one first,
on the OPEN line 4; a point line 5 to the wing partner is OPEN. -/
def played : Troupe :=
  sealed { buckets := [(1, { selection := 0 })], carousels := [(0, ⟨[2, 0x0000_0001_0002], 0, 2, [4]⟩)]
           bill := [(7, { entryOf entry64 with count := 64, history := true })], arenas := [(0, ⟨0x10000, 2⟩)]
           cues := [(3, { value := 0 })]
           lines := [(4, { state := ⟨.opened, 0⟩, carousel := true, epoch := 3, members := [2, 0x0000_0001_0002]
                           peers := [{ addr := 0x0000_0001_0002 }] }),
                     (5, { state := ⟨.opened, 0⟩, epoch := 1, peers := [{ addr := 0x0000_0001_0002 }] })] }
/-- The house at reset with another pod's wing partner at port 7 and a troupe 2 of some contents. -/
def winged (tr : Troupe) : State :=
  { with2 tr with ports := [(7, { link := .lit, verified := true, expected := some 0x0000_0001_0002 })] }
/-- The sealed troupe with step 1 in some state. -/
def midStep (st : StepState) : Troupe := { played with opened := 1, steps := [(1, stepAt 1 st)] }

theorem witness_stepOpen : Fits false anyGate (.stepOpen at2 1 0) at2 2 (winged played) ∧
    (troupe (winged played) 2).life ≠ .intermission ∧ (troupe (winged played) 2).held = false ∧
    openRefusal (took (.stepOpen at2 1 0) at2 2 (winged played)) 2 1 0 = none ∧
    heldOpen (armed (winged played) (.stepOpen at2 1 0) at2 2) 2 = none := by decide +kernel
theorem witness_stepOpen_held :
    Fits false anyGate (.stepOpen at2 256 0) at2 2 (winged { played with life := .intermission }) ∧
    heldOpen (armed (winged { played with life := .intermission }) (.stepOpen at2 256 0) at2 2) 2 = none := by
  decide +kernel
theorem witness_stepAbort : Fits false anyGate (.stepAbort at2) at2 2 (winged (midStep .called)) ∧
    (flight (troupe (winged (midStep .called)) 2)).isSome = true := by decide +kernel
theorem witness_stepSeed : Fits false anyGate (.stepSeed at2 5) at2 2 (with2 {}) := by decide +kernel
theorem witness_stepLoss : Fits false anyGate (.stepLoss at2 0x40490FDB) at2 2 (winged (midStep .called)) ∧
    openCalled (troupe (winged (midStep .called)) 2) = some (stepAt 1 .called) ∧ (stepAt 1 .called).loss = none := by
  decide +kernel
theorem witness_stepState : Fits false alwaysGate (.stepState at2) at2 2 (winged (midStep .committed)) := by
  decide +kernel
theorem witness_stepDeadline : Fits false anyGate (.stepDeadline at2 1048575) at2 2 (with2 {}) := by decide +kernel
theorem witness_stepLedger : Fits false quietGate (.stepLedger at2 3 1024 0 0x40000 4096 0x80000 4096) at2 2
    (winged (midStep .retired)) := by decide +kernel

theorem witness_optSet :
    Fits false anyGate (.optSet at2 7 5 1 0x3F800000 0 0x3F666666 0x3F7FBE77 1 0x3F800000 0x80000000 2) at2 2
      (winged (midStep .opened)) ∧
    belowOne 0x3F7FBE77 = true ∧ positive 1 = true ∧ nonNegative 0x80000000 = true ∧
    (tabGet (troupe (winged (midStep .opened)) 2).bill 7).isSome = true ∧
    (troupe (winged (midStep .opened)) 2).opened < 2 := by decide +kernel
theorem witness_optTroupe : Fits false anyGate (.optTroupe at2 0x40000000 255 2) at2 2 (winged (midStep .opened)) ∧
    (troupe (winged (midStep .opened)) 2).hostSlots = [] := by decide +kernel
theorem witness_optHost : Fits false quietGate (.optHost at2 64 4096) at2 2 (with2 {}) := by decide +kernel
theorem witness_optSpike : Fits false anyGate (.optSpike at2 1 1 10 0x3F800001 0) at2 2 (with2 {}) ∧
    f32Lt f32One 0x3F800001 = true ∧ f32Nan 0x3F800001 = false := by decide +kernel

/-- The sealed troupe in a carousel of one, so that this chip owns every block, with the id of its tensor at 64. -/
def owning : State :=
  { with2 (sealed { buckets := [(1, {})], carousels := [(0, ⟨[2], 0, 1, [4]⟩)], bill := [(7, entryOf entry64)] }) with
    hbm := memWrite [] 64 (leBytes 4 7) }

theorem witness_optExport : Fits false anyGate (.optExport at2 1 64 4096) at2 2 owning ∧
    exportable (troupe (took (.optExport at2 1 64 4096) at2 2 owning) 2) (idList owning 64 1) = true := by decide +kernel
theorem witness_optImport : Fits false quietGate (.optImport at2 1 64 4096) at2 2 owning ∧
    exportable (troupe (took (.optImport at2 1 64 4096) at2 2 owning) 2) (idList owning 64 1) = true := by decide +kernel
theorem witness_optExportComplete :
    ({ owning with deferred := [⟨2, 31, 2, .optExport [7] 4096⟩] } : State).deferred.findSome? (exportOf 2) =
      some (⟨2, 31, 2, .optExport [7] 4096⟩, [7], 4096) := by decide +kernel
theorem witness_optImportComplete :
    ({ owning with deferred := [⟨2, 31, 2, .optImport [7] 4096⟩] } : State).deferred.findSome? (importOf 2) =
      some (⟨2, 31, 2, .optImport [7] 4096⟩, [7], 4096) := by decide +kernel
theorem witness_spareExportComplete :
    ({ owning with deferred := [⟨0, 3, 2, .spareExport 4096⟩] } : State).deferred.findSome? (spareExportOf 2) =
      some (⟨0, 3, 2, .spareExport 4096⟩, 4096) := by decide +kernel

theorem witness_sparePair : Fits false quietGate (.sparePair at2 5 2 1 64) at2 2 (winged played) ∧
    mirrorSuits (took (.sparePair at2 5 2 1 64) at2 2 (winged played)) 2 5 = true ∧
    propFits (took (.sparePair at2 5 2 1 64) at2 2 (winged played)) 2 4 64 = true := by decide +kernel
theorem witness_spareProp : Fits false quietGate (.spareProp at2 16 16) at2 2 (winged played) ∧
    propFits (took (.spareProp at2 16 16) at2 2 (winged played)) 2 16 0 = true := by decide +kernel

/-- The sealed troupe paired on line 5. -/
def paired : Troupe := { played with pairLine := 5, pairMode := .copy, diverged := true }

theorem witness_spareResync : Fits true anyGate (.spareResync at0) at0 2 (winged paired) ∧
    (troupe (winged paired) 2).diverged = true ∧
    holdsBy (armed (winged paired) (.spareResync at0) at0 2) 2 Awaits.isResync = false ∧
    (lineOf (troupe (winged paired) 2) 5).state.val = .opened := by decide +kernel
theorem witness_spareStandin : Fits true anyGate (.spareStandin at0 0x0000_0001_0002) at0 2 (winged paired) ∧
    (troupe (winged paired) 2).mirror.standIn = none ∧
    (lineOf (troupe (winged paired) 2) 5).peers.head?.any (fun k => k.addr == 0x0000_0001_0002) = true := by
  decide +kernel
theorem witness_spareEncore : Fits true anyGate (.spareEncore at0) at0 2 (winged paired) := by decide +kernel
theorem witness_sparePromote :
    Fits true quietGate (.sparePromote at0 2 0x0000_0001_0002 64 1) at0 2
      { winged paired with hbm := memWrite [] 64 (leBytes 8 0x0000_0001_0002) } ∧
    addressOk 2 = true ∧ (troupe (winged paired) 2).carousels.length = 1 ∧
    tableHolds (troupe (winged paired) 2) 2 = true ∧ (troupe (winged paired) 2).steps = [] := by decide +kernel
theorem witness_sparePromote_donors :
    ∀ a ∈ readAddresses { winged paired with hbm := memWrite [] 64 (leBytes 8 0x0000_0001_0002) } 64 1,
      addressOk a = true := by
  rw [show readAddresses { winged paired with hbm := memWrite [] 64 (leBytes 8 0x0000_0001_0002) } 64 1 =
    [0x0000_0001_0002] by decide +kernel]
  simp [addressOk]
theorem witness_spareExport :
    Fits true anyGate (.spareExport at0 4096) at0 2 (winged { paired with mirror := { standIn := some 0x0000_0001_0002 } }) := by
  decide +kernel

/-! ### Witnesses: the window, bring-up, rehearsal -/

/-- A write of 8 bytes by a tag. -/
def writes (tag offset : Nat) (word : BitVec 64) : Access :=
  { tag := tag, offset := offset, size := 8, data := leBytes 8 word.toNat }
/-- Nimlia is up. -/
def awake (s : State) : State := modHouse s fun h => { h with fwUp := true }
/-- Ring 7 of troupe 2 holds d descriptors; its tail lies at the wrap of its 17 low bits. -/
def ringAt (d : Nat) : Ring := { ring1 with head := ⟨0x1FFFF - BitVec.ofNat 32 d, 0⟩, tail := ⟨0x1FFFF, 0⟩ }
/-- Troupe 2 with that ring. -/
def ringsAt (d : Nat) : State := awake (with2 { rings := [(7, ringAt d)] })

theorem witness_ringDoorbell :
    aimsAt (writes 2 0x10A008 (pcWord (7 * 2 ^ 17 + 63))) 0x2008 = some 2 ∧
    denial (passCk 0 (ringsAt 0)) (writes 2 0x10A008 (pcWord (7 * 2 ^ 17 + 63))) true = none ∧
    bits (pcVal (wordOf (writes 2 0x10A008 (pcWord (7 * 2 ^ 17 + 63))))) 17 12 = 7 ∧
    tabGet (troupe (ringsAt 0) 2).rings 7 = some (ringAt 0) ∧
    (fullTail (ringAt 0).tail.val 63 - (ringAt 0).tail.val).toNat = (ringAt 0).depth := by decide +kernel

theorem witness_callDoorbell : aimsAt (writes 2 0x10A000 (pcWord 0x80000001)) 0x2000 = some 2 ∧
    denial (passCk 0 (awake (with2 {}))) (writes 2 0x10A000 (pcWord 0x80000001)) true = none := by decide +kernel

/-- The error log with 256 records kept. -/
def logged : State := { awake (with2 {}) with log := { write := 0x105, read := pcWord 5 } }

theorem witness_errRead : placeOf ((writes 0 0x30 (pcWord 0x105)).offset / 8 * 8) = .house 0x30 ∧
    denial (passCk 0 logged) (writes 0 0x30 (pcWord 0x105)) true = none ∧
    BitVec.ofNat 32 (pcVal (wordOf (writes 0 0x30 (pcWord 0x105)))) - errReadVal logged.log ≤
      logged.log.write - errReadVal logged.log := by decide +kernel
theorem witness_chkCtrl : placeOf ((writes 0 0x14008 (pcWord 0x100000)).offset / 8 * 8) = .check 0x08 ∧
    denial (passCk 0 small) (writes 0 0x14008 (pcWord 0x100000)) true = none ∧
    pcVal (wordOf (writes 0 0x14008 (pcWord 0x100000))) = 2 ^ 20 := by decide +kernel
theorem witness_registerWrite_slot :
    denial (passCk 0 small) { tag := 2, offset := 0x108100, size := 64, data := [1] } true = none ∧
    placeOf 0x108100 = .page 2 0x100 := by decide +kernel
theorem witness_registerWrite_cue : denial (passCk 0 small) (writes 0 0x40 (pcWord 0x8003)) true = none ∧
    placeOf 0x40 = .house 0x40 := by decide +kernel
theorem witness_registerWrite_base : denial (passCk 0 small) (writes 0 0x14000 0x1000) true = none ∧
    placeOf 0x14000 = .check 0 := by decide +kernel

theorem witness_windowRefused : denial (passCk 0 small) { tag := 2, offset := 0, size := 8 } false =
      some { reply := .refused, status := .notOwner } ∧ small.log.accessSeen.contains (2, .notOwner) = false := by
  decide +kernel
theorem witness_windowRefused_again :
    denial (passCk 0 { small with log := { accessSeen := [(2, .notOwner)] } }) { tag := 2, offset := 0, size := 8 } false =
      some { reply := .refused, status := .notOwner } := by decide +kernel
theorem witness_windowRead : denial (passCk 0 small) { tag := 0, offset := 0x10, size := 4 } false = none := by
  decide +kernel

/-- The check window over some words at HBM address 64, a scan running. -/
def scanning (n : Nat) (bytes : List Byte) : State :=
  { small with hbm := memWrite [] 64 bytes, check := { base := 64, ctrl := pcWord n, busy := true } }

theorem witness_checkScanEnd : (scanning 2 (leBytes 8 (pcWord 5).toNat ++ leBytes 8 (pcWord 0).toNat)).check.busy = true ∧
    brokenWords (scanning 2 (leBytes 8 (pcWord 5).toNat ++ leBytes 8 (pcWord 0).toNat)) = [] := by decide +kernel
theorem witness_checkScanEnd_broken : brokenWords (scanning 3 (leBytes 8 (pcWord 5).toNat ++ leBytes 8 5)) = [72, 80] := by
  decide +kernel

theorem witness_resetRelease : small.house.released = false := by decide
/-- The house after the release of its reset. -/
def released : State := { small with house := { small.house with released := true, rehearsed := true } }
theorem witness_nimliaUp : released.house.released = true ∧ released.house.rehearsed = true ∧
    released.house.fwUp = false := by decide
/-- Nimlia is up and the pod is set. -/
def waiting : State := { small with house := { small.house with fwUp := true, rehearsed := true, podSet := true } }
theorem witness_doorsOpen : waiting.house.fwUp = true ∧ waiting.house.doorsOpen = false ∧ doorsReady waiting = true := by
  decide +kernel
theorem witness_doorsTimeout : waiting.house.doorsRecord = false ∧
    waiting.house.releaseCk + 720000000 ≤ waiting.house.ck + 720000000 := by decide +kernel

theorem witness_adriftEnter : ({ small with house := { small.house with ticksOut := 16 } } : State).house.adrift = false ∧
    16 ≤ ({ small with house := { small.house with ticksOut := 16 } } : State).house.ticksOut := by decide
theorem witness_adriftClear :
    ({ small with house := { small.house with adrift := true, ticksIn := 16 } } : State).house.adrift = true ∧
    16 ≤ ({ small with house := { small.house with adrift := true, ticksIn := 16 } } : State).house.ticksIn := by decide
theorem witness_prompterStall :
    ({ waiting with house := { waiting.house with silentTicks := 64 } } : State).house.fwUp = true ∧
    ({ waiting with house := { waiting.house with silentTicks := 64 } } : State).house.stalled = false := by decide

/-- The house with some record of unit 0. -/
def withUnit (r : UnitRec) : State := { small with house := { small.house with units := [(0, r)] } }
theorem witness_rehearsalSlice : mayRehearse (passCk 0 small) 0 = true ∧ (unitOf small 0).suspect = none ∧
    (unitOf small 0).skippedVectors.contains 9 = false := by decide +kernel
theorem witness_rehearsalSlice_again : mayRehearse (passCk 0 (withUnit { suspect := some 9 })) 0 = true ∧
    (unitOf (withUnit { suspect := some 9 }) 0).suspect = some 9 := by decide +kernel
theorem witness_rehearsalComplete_reset : (unitOf (withUnit { resetting := true }) 0).resetting = true := by
  decide +kernel
theorem witness_rehearsalComplete_return : (unitOf (withUnit { testing := some true }) 0).testing = some true ∧
    (unitOf (withUnit { testing := some true }) 0).resetting = false := by decide +kernel
theorem witness_rehearsalComplete_run : (unitOf (withUnit { testing := some false }) 0).testing = some false ∧
    (unitOf (withUnit { testing := some false }) 0).resetting = false := by decide +kernel

/-! ### Witnesses: intake, quantisation, calls, updates, the mirror -/

/-- The emit of chunk 0 of tensor 7 for step 1: micro-batch 0, cue 3, slot 0x20000. -/
def emit7 : List Byte :=
  leBytes 2 0 ++ leBytes 2 0x8003 ++ leBytes 4 7 ++ leBytes 4 0 ++ leBytes 2 1 ++ leBytes 2 0 ++ leBytes 6 0x20000 ++
    List.replicate 10 0

theorem witness_emit : (troupe (with2 {}) (coreTroupe (with2 {}).house 5)).life ≠ .absent ∧
    (∀ e ∈ (with2 {}).house.stalledEmits, e.1 ≠ 5) := by decide +kernel

/-- Step 1 of the sealed troupe with two micro-batches. -/
def step2 : StepRec := { stepAt 1 .opened with m := 2 }
/-- The sealed troupe in that step. -/
def taking : Troupe := { played with opened := 1, workStep := 1, steps := [(1, step2)], queue := [emit7] }

theorem witness_emitTake : (inletOrder (passCk 0 (winged taking))).find? (headReady (passCk 0 (winged taking))) = some 2 ∧
    (troupe (winged taking) 2).queue = [emit7] ∧
    tagJudge (troupe (passCk 0 (winged taking)) 2) (field emit7 12 2) = .taken ∧
    openCalled (troupe (passCk 0 (winged taking)) 2) = some step2 ∧
    descStatus (troupe (passCk 0 (winged taking)) 2) step2 emit7 = none := by decide +kernel

/-- The taken emit before and after its chunk has been read. -/
def taken7 (read : Bool) : Taken :=
  { micro := 0, cue := 0x8003, tensor := 7, chunk := 0, slot := 0x20000, step := 1, read := read
    data := if read then List.replicate 64 0x3F800000 else [] }

theorem witness_chunkRead :
    ((troupe (winged { taking with taken := [taken7 false] }) 2).taken.find? fun k => ! k.read &&
      hasShare (passCk 0 (winged { taking with taken := [taken7 false] })) (homePit 8 k.tensor k.chunk)) =
      some (taken7 false) ∧
    ((graphOfTensor (troupe (passCk 0 (winged { taking with taken := [taken7 false] })) 2) 7).bind fun g => g.tensor 7) =
      some (7, 64, 0, false) ∧
    (slotElements (passCk 0 (winged { taking with taken := [taken7 false] })) 0x20000
      (chunkLength 64 false 0) false).all f32Finite = true ∧
    stepOf (troupe (winged { taking with taken := [taken7 false] }) 2) 1 = some step2 ∧ step2.m ≠ 1 := by decide +kernel

theorem witness_chunkAccumulate :
    ((troupe (winged { taking with taken := [taken7 true] }) 2).taken.find? fun k =>
      k.read && k.tensor == 7 && k.chunk == 0) = some (taken7 true) ∧
    hasShare (passCk 0 (winged { taking with taken := [taken7 true] })) (homePit 8 7 0) = true ∧
    pitWaits (passCk 0 (winged { taking with taken := [taken7 true] })) (homePit 8 7 0) = false ∧
    flight (troupe (winged { taking with taken := [taken7 true] }) 2) = some step2 ∧ step2.num = (taken7 true).step ∧
    (accumulate {} (taken7 true).data).all f32Finite = true ∧ ({} : ChunkRec).added + 1 ≠ step2.m := by decide +kernel

theorem witness_pitWindowOpen : 7 < small.house.pits := by decide

/-- The sealed troupe in step 1 with some work on its bucket. -/
def working (st : StepState) (w : BWork) : Troupe :=
  { played with opened := 1, workStep := 1, steps := [(1, { stepAt 1 st with order := [1] })], work := [(1, w)] }
/-- Work whose two blocks have their scale bytes. -/
def scaled : BWork :=
  { complete := true, called := true, locals := [127, 127], maxima := [(0, 127), (1, 127)], scaled := [0, 1] }

theorem witness_quantPassStart : passReady (passCk 0 (winged (working .called scaled))) 2 1 = true ∧
    (troupe (winged (working .called scaled)) 2).bank.flaw = 0 ∧
    ∀ e ∈ (graphAt (troupe (winged (working .called scaled)) 2) 1).tensors,
      ∀ x ∈ tabGet (troupe (winged (working .called scaled)) 2).bill e.1, x.ident = 0 := by decide +kernel

/-- The sealed troupe whose pass of bucket 1 runs by some choice. -/
def passing (c : Choice) : State := winged (working .called { scaled with pass := .running, choice := some c })
theorem witness_quantPassEnd (c : Choice) :
    openCalled (troupe (passing c) 2) = some { stepAt 1 .called with order := [1] } ∧
    (workOf (troupe (passing c) 2) 1).pass = .running ∧ (stepAt 1 .called).num = (troupe (passing c) 2).workStep ∧
    (workOf (troupe (passing c) 2) 1).choice = some c ∧
    ∀ k < cdiv (graphAt (troupe (passing c) 2) 1).blocks 4,
      (tabGetD (workOf (troupe (passing c) 2) 1).words k ⟨0, 0⟩).flaw = 0 := ⟨rfl, rfl, rfl, rfl, fun _ _ => rfl⟩
/-- R100: the dense choice is not sparse, all_nonzero has no band, and another has one. -/
theorem witness_quantPassEnd_choices : (denseChoice 0).sparse = false ∧
    ({ sparse := true, enc := 3, bin := some 65535, t := 1 } : Choice).banded = false ∧
    ({ sparse := true, enc := 3, bin := some 1921, t := 1 } : Choice).banded = true := by decide

/-- The sealed troupe whose bucket 1 is at a cut. -/
def cutting (p : Pass) (cut : Nat × Nat × Nat × Nat) : State :=
  winged (working .called { scaled with pass := p, cut := some cut, band := [(0, 0x3F800000)], buffer := some 3 })
theorem witness_bandCut : (workOf (troupe (cutting .band (0, 2 ^ 51, 1, 1)) 2) 1).pass = .band ∧
    (workOf (troupe (cutting .band (0, 2 ^ 51, 1, 1)) 2) 1).cut = some (0, 2 ^ 51, 1, 1) ∧
    bufferPit 8 (some 3) = 6 ∧ hasShare (cutting .band (0, 2 ^ 51, 1, 1)) 6 = true := by decide +kernel
theorem witness_bandReread (q level : Nat) :
    (workOf (troupe (cutting .reread (0, 2 ^ 51, q, level)) 2) 1).pass = .reread ∧
    (workOf (troupe (cutting .reread (0, 2 ^ 51, q, level)) 2) 1).cut = some (0, 2 ^ 51, q, level) ∧
    pitsReady (cutting .reread (0, 2 ^ 51, q, level))
      (graphAt (troupe (cutting .reread (0, 2 ^ 51, q, level)) 2) 1).chunkList = true :=
  ⟨rfl, rfl, by rfl⟩

theorem witness_packItem : packerWaits (passCk 0 (winged (working .called scaled))) = false ∧
    stepScripted (troupe (passCk 0 (winged (working .called scaled))) 2) = true ∧
    ((openItems (troupe (passCk 0 (winged (working .called scaled))) 2)).head?).any
      (itemReady (troupe (passCk 0 (winged (working .called scaled))) 2)) = true := by decide +kernel
/-- The same troupe with its step in ad-lib mode. -/
def freely : State :=
  winged { working .called scaled with steps := [(1, { stepAt 1 .called with order := [1], adlib := true })] }
theorem witness_packItem_adlib : packerWaits freely = false ∧ stepScripted (troupe freely 2) = false ∧
    (((openItems (troupe freely 2)).filter (itemReady (troupe freely 2)))[
      5 % max 1 ((openItems (troupe freely 2)).filter (itemReady (troupe freely 2))).length]?).isSome = true := by
  decide +kernel

/-- A local unique call of two 4-B keys. -/
def sieveDesc : List Byte :=
  leBytes 1 1 ++ [0] ++ leBytes 2 0 ++ leBytes 4 2 ++ leBytes 8 0x2000 ++ leBytes 8 0x2100 ++ leBytes 8 0x2200 ++
    leBytes 8 0x2300 ++ leBytes 8 0 ++ leBytes 2 0 ++ leBytes 2 0x8003 ++ leBytes 4 0 ++ leBytes 8 0x2400
/-- Troupe 2 with cue 3 and a ring of a kind that holds one descriptor. -/
def holding (kind : Nat) (tr : Troupe) (desc : List Byte) : State :=
  { with2 { tr with
      cues := [(3, { value := 0 })]
      rings := [(7, { ring1 with kind := kind, tail := ⟨1, 0⟩, booking := 0 })] } with
    hbm := memWrite [] 0x1000 desc }

theorem witness_sieveCallTake : sieveWaits (troupe (passCk 0 (holding 2 {} sieveDesc)) 2) = true ∧
    (∀ e ∈ (passCk 0 (holding 2 {} sieveDesc)).troupes, e.1 < 2 → sieveWaits e.2 = false) ∧
    ((troupe (holding 2 {} sieveDesc) 2).rings.find? fun e => ringReady 2 e.2) =
      some (7, { ring1 with kind := 2, tail := ⟨1, 0⟩ }) ∧
    ringWhole { ring1 with kind := 2, tail := ⟨1, 0⟩ } = true ∧
    (readSieve (passCk 0 (holding 2 {} sieveDesc)) 2 7
      (headDescriptor (passCk 0 (holding 2 {} sieveDesc)) { ring1 with kind := 2, tail := ⟨1, 0⟩ })).2 = true ∧
    liveNetworks (takeDescriptor 2 7 (passCk 0 (holding 2 {} sieveDesc))) ≠ 0 := by decide +kernel

/-- A taken call. -/
def call (kind number : Nat) : SieveCall :=
  { ring := 7, kind := kind, wide := false, bound := false, carousel := 0, n := 2, keys := 0x2000, unique := 0x2100
    counts := 0x2200, inverse := 0x2300, global := 0x2500, step := 0, cue := 0x8003, compl := 0x2400, number := number
    issued := 0 }

theorem witness_sieveCallComplete : activeCall (troupe (with2 { sieveCalls := [call 1 0] }) 2) = some (call 1 0) ∧
    (call 1 0).kind = 1 := by decide +kernel
theorem witness_sieveCallTimeout :
    activeCall (troupe (with2 { played with sieveCalls := [call 2 1] }) 2) = some (call 2 1) ∧
    (call 2 1).issued + 4096 ≤ 4096 ∧ (call 2 1).status = none ∧
    (List.range (carouselOf (troupe (with2 { played with sieveCalls := [call 2 1] }) 2) 0).members.length).all
      (call 2 1).returned.contains = false := by decide +kernel

theorem witness_lineDescriptorTake :
    takesRings (troupe (passCk 0 (holding 1 {} [1])) 2) = true ∧
    (ringOrder (troupe (passCk 0 (holding 1 {} [1])) 2)).find?
        (lineRingReady (passCk 0 (holding 1 {} [1])) (troupe (passCk 0 (holding 1 {} [1])) 2)) =
      some (7, { ring1 with tail := ⟨1, 0⟩ }) ∧ ringWhole { ring1 with tail := ⟨1, 0⟩ } = true := by decide +kernel

/-- A spill out of 32 FP32 elements as BF16 to HBM. -/
def spillDesc : List Byte :=
  leBytes 1 1 ++ leBytes 1 7 ++ leBytes 2 0x8003 ++ leBytes 4 32 ++ leBytes 8 0x3000 ++ leBytes 8 0x4000 ++ leBytes 8 0 ++
    leBytes 4 0 ++ List.replicate 20 0 ++ leBytes 8 0x2400
/-- Troupe 2 with a spill region at 0x4000. -/
def spilling : State := holding 3 { spillRegions := (0x4000, 64, 0, 0) } spillDesc

theorem witness_spillCallTake : spillGoes (passCk 0 spilling) (troupe (passCk 0 spilling) 2) = true ∧
    (∀ e ∈ (passCk 0 spilling).troupes, e.1 < 2 → spillGoes (passCk 0 spilling) e.2 = false) ∧
    spillRing (troupe (passCk 0 spilling) 2) = some (7, { ring1 with kind := 3, tail := ⟨1, 0⟩ }) ∧
    (readSpill 7 (headDescriptor (passCk 0 spilling) { ring1 with kind := 3, tail := ⟨1, 0⟩ })).2 = true ∧
    descCueOk (troupe (takeDescriptor 2 7 (passCk 0 spilling)) 2) 0x8003 = true ∧
    spillInside (troupe (takeDescriptor 2 7 (passCk 0 spilling)) 2) (readSpill 7 spillDesc).1 = true := by decide +kernel
theorem witness_spillCallComplete :
    (troupe (with2 { spills := [(readSpill 7 spillDesc).1] }) 2).spills = [(readSpill 7 spillDesc).1] ∧
    (readSpill 7 spillDesc).1.restore = false ∧ (readSpill 7 spillDesc).1.digest = false ∧
    (spillSource (with2 {}) (readSpill 7 spillDesc).1).1.all f32Finite = true := by decide +kernel
theorem witness_spillCallComplete_restore :
    (troupe (with2 { spills := [{ (readSpill 7 spillDesc).1 with restore := true }] }) 2).spills =
      [{ (readSpill 7 spillDesc).1 with restore := true }] := by decide +kernel

/-- Work whose owned block is reduced and normed. -/
def reduced : BWork :=
  { scaled with pass := .ended, reduced := [(0, .q8b 127 (List.replicate 32 0))], normVec := { result := [(0, 0)] } }

theorem witness_updateIssue :
    lastStep (troupe (passCk 0 (winged (working .called reduced))) 2) = some { stepAt 1 .called with order := [1] } ∧
    nextUpdate (passCk 0 (winged (working .called reduced))) 2 = some (1, 7, 64, 0, false) ∧
    (winged (working .called reduced)).house.updates.length < 32 := by decide +kernel

/-- The same troupe with an update command in flight. -/
def updating : State :=
  modHouse (winged (working .called reduced)) fun h => { h with updates := [⟨2, 7, [0], 1⟩] }

theorem witness_updateComplete :
    updating.house.updates = [⟨2, 7, [0], 1⟩] ∧
    stepOf (troupe (passCk 0 updating) 2) 1 = some { stepAt 1 .called with order := [1] } ∧
    inFlight { stepAt 1 .called with order := [1] } = true ∧
    ((graphOfTensor (troupe (passCk 0 updating) 2) 7).bind fun g => g.tensor 7) = some (7, 64, 0, false) ∧
    blkFinite (blockOf (updateTensor (troupe (passCk 0 updating) 2) 1 (7, 64, 0, false) [0]) 0) = true := by
  decide +kernel

/-- Troupe 2 in step 1 with a due host slot whose done word is written. -/
def hosted : State :=
  { with2 { midStep .called with hostRing := (0x5000, 4096), hostSlots := [{ step := 1 }] } with
    host := memWrite [] (0x5000 + 24) (leBytes 8 (pcWord 1).toNat) }

theorem witness_delayedDoneRead : lastStep (troupe (passCk 0 hosted) 2) = some (stepAt 1 .called) ∧
    ((dueSlots (troupe (passCk 0 hosted) 2) 1).filter fun h =>
      h.read.isNone && doneWritten (passCk 0 hosted) (troupe (passCk 0 hosted) 2) h.step) ≠ [] := by decide +kernel

/-- The partner's digest record of step 4, and its half of it. -/
def digest4 : DigestRec := { step := 4, skipped := false, copy := false, kinds := [1, 2, 3, 0, 0], epoch := 4, closing := ⟨4, 0⟩ }
/-- The paired troupe that can judge step 4. -/
def judging : Troupe :=
  { paired with
    diverged := false, digestArea := [(4, digest4)]
    mirror := { halves := [(4, { step := 4, skipped := false, running := [1, 2, 3] })] } }

theorem witness_verdictCompare : digestWritten (troupe (passCk 0 (winged judging)) 2) 4 = some digest4 ∧
    tabGet (troupe (passCk 0 (winged judging)) 2).mirror.halves 4 =
      some { step := 4, skipped := false, running := [1, 2, 3] } ∧ badKinds digest4 [1, 2, 3] = [] := by decide +kernel

/-- What a spare has pulled of a lost chip whose version is its last step but one, SKIPPED. -/
def pulled1 : Pulled :=
  { version := 4, decided := 5, lastCommitted := 4, checked := [(7, {})], retained := [{ step := 5, skipped := true }] }
/-- The paired troupe on its way to take the lost address. -/
def promoting : State :=
  { winged { paired with promotion := some (2, 0x0000_0001_0002) } with
    deferred := [⟨0, 3, 2, .promote 2 0x0000_0001_0002⟩] }

theorem witness_encoreRun : (troupe promoting 2).promotion.isSome = true ∧ (troupe promoting 2).encoreDone = false ∧
    holdsBy promoting 2 Awaits.isPromote = true ∧ (encore (troupe (passCk 0 promoting) 2) pulled1).bad = none := by
  decide +kernel

/-- A troupe whose step 1 waits for its capture. -/
def capturing : Troupe :=
  { midStep .retired with
    ledger := some ⟨false, true, 1024, 0, 0, 0, 0x8000, 4096⟩, steps := [(1, { stepAt 1 .retired with capturing := true })] }

theorem witness_captureComplete :
    stepOf (troupe (with2 capturing) 2) 1 = some { stepAt 1 .retired with capturing := true } ∧
    (halfBytes { stepAt 1 .retired with capturing := true }).length ≤ (0x1000 : BitVec 64).toNat := by decide +kernel

/-! ### Witnesses: frames -/

/-- The chip at which the tests' frames start. -/
def other : BlockAddr := 0x0000_0001_0002
/-- An open house whose ports 3 and 7 are lit, with a troupe 2. -/
def open2 (tr : Troupe) : State :=
  { house := { small.house with doorsOpen := true, fwUp := true }, troupes := [(0, {}), (2, tr)]
    ports := [(3, { link := .lit, verified := true }), (7, { link := .lit, verified := true, expected := some other })] }
/-- The sealed troupe in step 1, the point line 5 with local window 0x6000–0x6FFF, and no pair. -/
def fabric : Troupe :=
  { working .called scaled with
    lines := [(4, { state := ⟨.opened, 0⟩, carousel := true, epoch := 3, members := [2, other], peers := [{ addr := other }] }),
              (5, { state := ⟨.opened, 0⟩, epoch := 1, peers := [{ addr := other }], localBase := 0x6000, localLen := 4096 })] }
/-- The same troupe with line 5 as its mirror line. -/
def mirrored : Troupe := { fabric with pairLine := 5, pairMode := .replay, pairTrickle := true }
/-- A carriage of line 5 for this chip. -/
def lineCar (type enc op count target : Nat) (content : List Byte) : Car :=
  { type := type, cls := .d, enc := enc, op := op, troupe := 2, line := 5, lineEpoch := 1, count := count, last := true
    target := BitVec.ofNat 64 target, payload := padPayload content }
/-- A carriage as it arrives here. -/
def arrives (c : Car) : List Byte := carFrame c 2 other 1

/-- In sequence, as a condition that can be evaluated. -/
abbrev Fitting (kind : Kind) (f : List Byte) (l i : Nat) (s : State) : Prop :=
  HeardOpen kind 0 3 f s ∧ matchLine (counted kind 0 3 s) f (readCar f) = some (l, i) ∧
    lineBroken (lineOf (troupe s (readCar f).troupe) l) = false ∧
    (lineOf (troupe s (readCar f).troupe) l).state.val = .opened ∧
    (readCar f).lineEpoch = (lineOf (troupe s (readCar f).troupe) l).epoch ∧
    (peerOf (timed kind 0 3 f l i s) (readCar f).troupe l i).any (fun p => p.expected.val == (readCar f).seq) = true ∧
    heldHere (counted kind 0 3 s) 3 (framePcp f) = false ∧ shareWaits (counted kind 0 3 s) f = false

theorem inSequence_of_fitting {kind : Kind} {f : List Byte} {l i : Nat} {s : State} (h : Fitting kind f l i s) :
    InSequence kind 0 3 f l i s := by
  obtain ⟨a, b, c, d, e, g, x⟩ := h
  rw [Option.any_eq_true] at g
  obtain ⟨p, hp, hq⟩ := g
  exact ⟨a, b, c, .inl d, e, ⟨p, hp, eq_of_beq hq⟩, x⟩

set_option maxRecDepth 100000

/-- A WRITE of three bytes at 0x6100. -/
def write3 : List Byte := arrives (lineCar 1 0 0 3 0x6100 [1, 2, 3])
theorem witness_writeReceive : Fitting .write write3 5 0 (open2 fabric) ∧
    mirrorLine (troupe (timed .write 0 3 write3 5 0 (open2 fabric)) 2) 5 = false ∧
    inWindow (lineOf (troupe (timed .write 0 3 write3 5 0 (open2 fabric)) 2) 5) (readCar write3) = true := by decide +kernel

/-- A REDUCE_WRITE of an FP32 sum at 0x6100. -/
def reduce1 : List Byte := arrives (lineCar 2 7 2 1 0x6100 (leBytes 4 0x3F800000))
theorem witness_reduceWriteReceive : Fitting .reduceWrite reduce1 5 0 (open2 fabric) ∧
    inWindow (lineOf (troupe (timed .reduceWrite 0 3 reduce1 5 0 (open2 fabric)) 2) 5) (readCar reduce1) = true := by
  decide +kernel

/-- A READ_REQUEST for 64 bytes at the end of the window. -/
def request1 : List Byte := arrives (lineCar 3 0 0 16 0x9000 (leBytes 8 0x6FC0 ++ leBytes 4 64 ++ leBytes 4 0))
theorem witness_readRequestReceive : Fitting .readRequest request1 5 0 (open2 fabric) ∧
    inWindow (lineOf (troupe (timed .readRequest 0 3 request1 5 0 (open2 fabric)) 2) 5) (readCar request1) = true := by
  decide +kernel

/-- A READ_RESPONSE of four bytes. -/
def response1 : List Byte := arrives (lineCar 4 0 0 4 0x6000 [1, 2, 3, 4])
theorem witness_readResponseReceive : Fitting .readResponse response1 5 0 (open2 fabric) ∧
    inWindow (lineOf (troupe (timed .readResponse 0 3 response1 5 0 (open2 fabric)) 2) 5) (readCar response1) = true ∧
    ((lineOf (troupe (timed .readResponse 0 3 response1 5 0 (open2 fabric)) 2) 5).ops.find? fun o =>
      o.kind == 2 && decide (o.got < o.bytes)) = none := by decide +kernel

/-- A fence carriage. -/
def fence1 : List Byte := arrives { lineCar 1 0 0 0 0 [] with fence := true, last := false }
theorem witness_fenceCarriageReceive : InSequence .fence 0 3 fence1 5 0 (open2 fabric) :=
  inSequence_of_fitting (by decide +kernel)

/-- A collective carriage of line 4. -/
def collCar (type enc op subject count : Nat) (cls : Cls) (content : List Byte) : Car :=
  { type := type, cls := cls, enc := enc, op := op, troupe := 2, line := 4, lineEpoch := 3, step := 1, count := count
    tensor := 7, subject := subject, coll := true, last := true, scripted := true, payload := padPayload content }
/-- A local scale byte for the block that this chip owns. -/
def local1 : List Byte := arrives (collCar 2 9 4 2 1 .g [127])
theorem witness_collectiveCarriageReceive : InSequence .collective 0 3 local1 4 0 (open2 fabric) :=
  inSequence_of_fitting (by decide +kernel)

/-- A delta of block 1 of tensor 7, which the other chip owns. -/
def delta1 : List Byte :=
  arrives { collCar 1 1 0 3 1 .g (127 :: List.replicate 32 1) with position := 0x00400000 }
/-- The troupe while the deltas of step 1 are gathered. -/
def gatherer : Troupe := { fabric with decided := 1, epoch := 1, steps := [(1, stepAt 1 .committed)], gather := [(1, {})] }
theorem witness_deltaCarriageReceive : Fitting .delta delta1 4 0 (open2 gatherer) ∧
    gathering (troupe (timed .delta 0 3 delta1 4 0 (open2 gatherer)) 2) 1 = true ∧
    (placed (troupe (timed .delta 0 3 delta1 4 0 (open2 gatherer)) 2) (readCar delta1)).map (fun p => (p.2.1, p.2.2)) =
      some ((7, 64, 0, false), 1) := by decide +kernel

/-- The open house on whose port 3 a carriage of class D waits already. -/
def waits2 : State :=
  { open2 fabric with ports := [(3, { link := .lit, verified := true, rx := [(8, [], 2, 64, 0)] })] }
theorem witness_heldCarriage : HeardOpen .write 0 3 write3 waits2 ∧
    carriageRow (.writeReceive 0 3 write3) = some (.write, 0, 3, write3) ∧ (appliesOf .write).isSome = true ∧
    heldHere (counted .write 0 3 waits2) 3 (framePcp write3) = true := by decide +kernel
/-- A contribution for block 0 of tensor 7, whose sums lie in HBM, and no share left for any pit. -/
def contribution1 : List Byte := arrives (collCar 2 1 1 1 1 .g (127 :: List.replicate 32 1))
def spent2 : State :=
  modHouse (open2 { working .called { scaled with place := some 0 } with lines := fabric.lines }) fun h =>
    { h with allowance := (List.range 8).map fun k => (k, 0) }
theorem witness_spentCarriage : HeardOpen .collective 0 3 contribution1 spent2 ∧
    carriageRow (.collectiveCarriageReceive 0 3 contribution1) = some (.collective, 0, 3, contribution1) ∧
    (appliesOf .collective).isSome = true ∧ shareWaits (counted .collective 0 3 spent2) contribution1 = true := by
  decide +kernel

/-- A mirror carriage and a residual trickle carriage on line 5. -/
def mirror1 : List Byte :=
  arrives { collCar 1 1 0 10 1 .g (127 :: List.replicate 32 1) with line := 5, lineEpoch := 1, last := false }
def trickle1 : List Byte :=
  arrives { collCar 1 6 0 11 1 .d (leBytes 2 0x3F80) with line := 5, lineEpoch := 1, last := false }
theorem witness_mirrorCarriageReceive : InSequence .mirror 0 3 mirror1 5 0 (open2 mirrored) :=
  inSequence_of_fitting (by decide +kernel)
theorem witness_residualTrickleReceive : InSequence .trickle 0 3 trickle1 5 0 (open2 mirrored) :=
  inSequence_of_fitting (by decide +kernel)

/-- A control frame of line 5 for this chip. -/
def ctl (type : Nat) (fields : List (Nat × Nat × Nat)) : List Byte := ctlFrame type 2 ((3, 2, 5) :: fields) 2 other 1
/-- The troupe with line 5 in some state. -/
def lineIn (st : LineState) : State :=
  open2 { fabric with lines := [(5, { state := ⟨st, 0⟩, epoch := 1, requested := some 2, peers := [{ addr := other }] })] }

theorem witness_ackReceive : Controls .ack 0 3 (ctl 0x80 [(5, 2, 1)]) 2 5 0 (lineIn .closing) ∧
    takesAcks (lineOf (troupe (lineIn .closing) 2) 5) = true ∧
    frameEpoch (ctl 0x80 [(5, 2, 1)]) = (lineOf (troupe (lineIn .closing) 2) 5).epoch := by decide +kernel
theorem witness_nakReceive_gap : Controls .nak 0 3 (ctl 0x81 [(5, 2, 1)]) 2 5 0 (lineIn .opened) ∧
    bits (bodyField (ctl 0x81 [(5, 2, 1)]) 17 1) 1 2 = 0 ∧
    takesAcks (lineOf (troupe (lineIn .opened) 2) 5) = true := by decide +kernel
theorem witness_nakReceive_epoch : Controls .nak 0 3 (ctl 0x81 [(5, 2, 7), (17, 1, 2)]) 2 5 0 (lineIn .opened) ∧
    bits (bodyField (ctl 0x81 [(5, 2, 7), (17, 1, 2)]) 17 1) 1 2 = 1 ∧
    frameEpoch (ctl 0x81 [(5, 2, 7), (17, 1, 2)]) ≠ (lineOf (troupe (lineIn .opened) 2) 5).epoch := by decide +kernel
theorem witness_nakReceive_closed : Controls .nak 0 3 (ctl 0x81 [(17, 1, 4)]) 2 5 0 (lineIn .closing) ∧
    bits (bodyField (ctl 0x81 [(17, 1, 4)]) 17 1) 1 2 = 2 := by decide +kernel
theorem witness_probeReceive : Controls .probe 0 3 (ctl 0x82 [(5, 2, 1)]) 2 5 0 (lineIn .knocking) ∧
    (peerOf (lineIn .knocking) 2 5 0).isSome = true := by decide +kernel
theorem witness_probeEchoReceive : Controls .probeEcho 0 3 (ctl 0x83 [(5, 2, 1)]) 2 5 0 (lineIn .opened) ∧
    frameEpoch (ctl 0x83 [(5, 2, 1)]) = (lineOf (troupe (lineIn .opened) 2) 5).epoch ∧
    (peerOf (lineIn .opened) 2 5 0).any (fun p => p.probe.toNat == bodyField (ctl 0x83 [(5, 2, 1)]) 7 4) = true := by
  decide +kernel
theorem witness_knockAnswerReceive_done :
    Controls .knockAnswer 0 3 (ctl 0x86 [(5, 2, 2), (11, 1, statusCode .done)]) 2 5 0 (lineIn .knocking) ∧
    (peerOf (lineIn .knocking) 2 5 0).any (fun p => p.granted == none) = true ∧
    bodyField (ctl 0x86 [(5, 2, 2), (11, 1, statusCode .done)]) 11 1 = statusCode .done ∧
    frameEpoch (ctl 0x86 [(5, 2, 2), (11, 1, statusCode .done)]) =
      (lineOf (troupe (lineIn .knocking) 2) 5).requested.getD 0 ∧
    (lineOf (troupe (lineIn .knocking) 2) 5).peers.length = 1 := by decide +kernel
theorem witness_knockAnswerReceive_closed :
    Controls .knockAnswer 0 3 (ctl 0x86 [(11, 1, statusCode .closed), (12, 2, 9)]) 2 5 0 (lineIn .resetting) ∧
    bodyField (ctl 0x86 [(11, 1, statusCode .closed), (12, 2, 9)]) 11 1 = statusCode .closed := by decide +kernel

/-- A knock for line 5 that asks for epoch 1. -/
def knock1 : List Byte := ctl 0x85 [(5, 2, 1), (9, 2, 1)]
/-- The house of `lineIn` with its doors closed. -/
def closed5 : State := { lineIn .opened with house := { small.house with fwUp := true } }
theorem witness_knockReceive_house : Heard .knock 0 3 knock1 closed5 ∧ ticksOnly closed5 3 = false ∧
    closed5.house.doorsOpen = false := by decide +kernel
theorem witness_knockReceive_closed : Heard .knock 0 3 knock1 (lineIn .closed) ∧ ticksOnly (lineIn .closed) 3 = false ∧
    lineNumber (counted .knock 0 3 (lineIn .closed)) 2 (bodyField knock1 3 2 % 512) knock1 = 5 ∧
    (lineOf (troupe (lineIn .closed) 2) 5).state.val = .closed := by decide +kernel
theorem witness_knockReceive_open : Heard .knock 0 3 knock1 (lineIn .opened) ∧
    (lineIn .opened).house.doorsOpen = true ∧ (troupe (lineIn .opened) 2).promotion = none ∧
    peerIndex (lineOf (troupe (lineIn .opened) 2) 5) (frameSrc knock1) = some 0 ∧
    (peerOf (lineIn .opened) 2 5 0).any (fun p => p.answered == none) = true ∧
    epochLater (lineOf (troupe (lineIn .opened) 2) 5).epoch (frameEpoch knock1) = false := by decide +kernel

/-- A link-local control frame. -/
def link (type byte2 : Nat) (fields : List (Nat × Nat × Nat)) : List Byte := ctlFrame type byte2 fields groupAddr other 1
/-- The open house whose port 3 may dim. -/
def dimming : State :=
  { open2 {} with ports := [(3, { link := .lit, verified := true, dimDelay := 1, idle := 1 })] }

theorem witness_dimReceive_agree : Heard .dim 0 3 (link 0x87 0 [(7, 8, 2)]) dimming ∧ ticksOnly dimming 3 = false ∧
    bodyField (link 0x87 0 [(7, 8, 2)]) 3 1 = 0 ∧ (portOf dimming 3).dim = none ∧
    dimEligible (modPort (counted .dim 0 3 dimming) 3 fun q => { q with idle := (portOf dimming 3).idle }) 3 = true ∧
    dimming.house.tick + 1 < bodyField (link 0x87 0 [(7, 8, 2)]) 7 8 := by decide +kernel
theorem witness_dimReceive_decline : Heard .dim 0 3 (link 0x87 0 [(7, 8, 2)]) (open2 {}) ∧
    dimEligible (counted .dim 0 3 (open2 {})) 3 = false := by decide +kernel
theorem witness_lightReceive : Heard .light 0 3 (link 0x88 0 []) (open2 {}) ∧ ticksOnly (open2 {}) 3 = false ∧
    bodyField (link 0x88 0 []) 3 1 = 0 := by decide +kernel
theorem witness_pfcReceive : Heard .pfc 0 3 (pfcFrame other [(2, 0xFFFF), (6, 0)]) (open2 {}) := by decide +kernel
/-- An untagged MAC frame: its EtherType and what follows. -/
def untagged (bytes : List Byte) : List Byte := withFcs (List.replicate 6 1 ++ leBytes 6 other.toNat ++ bytes ++ List.replicate 46 0)
theorem witness_pauseFrameReceive : Heard .pause 0 3 (untagged [0x88, 0x08, 0x00, 0x01]) (open2 {}) := by decide +kernel
theorem witness_foreignFrameReceive : Heard .foreign 0 3 (untagged [0x08, 0x00]) (open2 {}) := by decide +kernel
theorem witness_tickReceive : Heard .tick 0 3 (link 0x89 0x80 [(15, 2, 100)]) (open2 {}) ∧
    (open2 {}).house.parent ≠ some 3 ∧ (portOf (open2 {}) 3).verified = true ∧
    bodyField (link 0x89 0x80 [(15, 2, 100)]) 15 2 = (open2 {}).house.period ∧
    bit (bodyField (link 0x89 0x80 [(15, 2, 100)]) 2 1) 7 = true := by decide +kernel

/-- The open house with a slice that holds a route from port 3 to the chip at x = 1, out of port 0. -/
def routed : State :=
  { open2 { slice := some 1 } with
    slices := [(1, { shape := some (⟨0, 0, 0⟩, ⟨4, 1, 1⟩), bank0 := [(entryKey 1 9, ⟨entryWord 0 0 true false false, 0⟩)]
                     epoch := 6 })] }
/-- A control frame for the chip at x = 1. -/
def passing1 : List Byte := ctlFrame 0x80 2 [(3, 2, 5)] 0x0000_0100_0002 other 1

theorem witness_frameRelay : HeardOpen .passing 0 3 passing1 routed ∧ (troupe routed 2).slice = some 1 ∧
    bankFor (sliceOf routed 1) (frameTableEpoch passing1) = some (false, 6) ∧ routable routed (frameDst passing1) = true ∧
    judgeEntry (counted .passing 0 3 routed)
      (bankEntry (sliceOf routed 1) false (entryKey (destIndex (coordOf (frameDst passing1))) 9)) 3 = .out 0 := by
  decide +kernel

/-- The slice's troupe with a round of tick 0 for step 1 on port 3. -/
def rounding : State :=
  { routed with troupes := [(0, {}), (2, { slice := some 1, round := some ⟨0, 1, false, false, 0, 3, 6, [3], [], none, false, 0, [], false, 0⟩ })] }
/-- The hop frame of the neighbour. -/
def hop1 : List Byte := link 0x84 0 [(3, 6, 1), (9, 2, 2 * 2 ^ 10), (12, 2, 6), (14, 1, 1)]
theorem witness_callReceive : HeardOpen .call 0 3 hop1 rounding ∧ bodyField hop1 9 2 / 2 ^ 10 = 2 ∧
    (sliceFor rounding (troupe rounding 2)).any (fun sl => epochKnown sl (BitVec.ofNat 16 (bodyField hop1 12 2))) = true ∧
    bodyField hop1 9 2 % 512 = rounding.house.tick % 512 ∧
    (troupe rounding 2).round.any (fun r => r.launch == rounding.house.tick && r.step == bodyField hop1 3 6) = true ∧
    bodyField hop1 3 6 ≠ roundStep (troupe rounding 2) + 1 := by decide +kernel

/-! ### Witnesses: timers, rounds, links, sending, the tick -/

/-- A sequenced WRITE frame of line 5 that the window governs. -/
def frame5 : OutFrame :=
  { car := lineCar 1 0 0 3 0x6100 [1, 2, 3], peer := 0, dst := other, charge := some .shaper, seqd := true, opId := some 1 }
/-- The open house whose line 5 has some state and a peer with some timers. -/
def timing (st : LineState) (p : Peer) : State :=
  open2 { fabric with lines := [(5, { state := ⟨st, 0⟩, epoch := 1, requested := some 2, peers := [{ p with addr := other }] })] }
/-- A peer with an outstanding carriage whose timer of some stage has run since 0. -/
def late (stage : Nat) : Peer := { addr := other, stage := stage, timer := some 0, out := [(frame5, 0)] }

theorem witness_retransmit : lineBroken (lineOf (troupe (timing .closing (late 0)) 2) 5) = false ∧
    (lineOf (troupe (timing .closing (late 0)) 2) 5).state.val = .closing ∧
    (lineOf (troupe (timing .closing (late 0)) 2) 5).peers[0]? = some (late 0) ∧
    0 + stageCk (late 0).stage ≤ (timing .closing (late 0)).house.ck + 36000 ∧ (late 0).out ≠ [] ∧
    frozenHop (passCk 36000 (timing .closing (late 0))) 2 5 (late 0) = false ∧ (late 0).stage < 5 := by decide +kernel
theorem witness_retransmit_last : lineBroken (lineOf (troupe (timing .opened (late 5)) 2) 5) = false ∧
    (lineOf (troupe (timing .opened (late 5)) 2) 5).state.val = .opened ∧
    (lineOf (troupe (timing .opened (late 5)) 2) 5).peers[0]? = some (late 5) ∧
    0 + stageCk (late 5).stage ≤ (timing .opened (late 5)).house.ck + 1152000 ∧ (late 5).out ≠ [] ∧
    frozenHop (passCk 1152000 (timing .opened (late 5))) 2 5 (late 5) = false ∧ 5 ≤ (late 5).stage := by decide +kernel

/-- A peer that has been knocked at some stage since 0. -/
def knocked (stage : Nat) : Peer :=
  { addr := other, knockStage := stage, knockTimer := some 0, retryAt := some 0, firstDue := true }
theorem witness_knockTimer : lineBroken (lineOf (troupe (timing .resetting (knocked 4)) 2) 5) = false ∧
    knocks (lineOf (troupe (timing .resetting (knocked 4)) 2) 5) 0 = some (knocked 4) ∧
    0 + stageCk (knocked 4).knockStage ≤ (timing .resetting (knocked 4)).house.ck + 576000 ∧ (knocked 4).knockStage < 5 := by
  decide +kernel
theorem witness_knockTimer_last : lineBroken (lineOf (troupe (timing .knocking (knocked 5)) 2) 5) = false ∧
    knocks (lineOf (troupe (timing .knocking (knocked 5)) 2) 5) 0 = some (knocked 5) ∧
    0 + stageCk (knocked 5).knockStage ≤ (timing .knocking (knocked 5)).house.ck + 1152000 ∧
    (lineOf (troupe (timing .knocking (knocked 5)) 2) 5).state.val ≠ .resetting := by decide +kernel
theorem witness_knockRetry : (knocked 0).retryAt = some 0 ∧ 0 ≤ (timing .knocking (knocked 0)).house.tick := by decide
theorem witness_firstKnock : knocks (lineOf (troupe (timing .knocking (knocked 0)) 2) 5) 0 = some (knocked 0) ∧
    (timing .knocking (knocked 0)).house.doorsOpen = true ∧ (timing .knocking (knocked 0)).house.knocksInTick < 64 ∧
    ((rotation (lineAddr (timing .knocking (knocked 0)) 2 5) (lineOf (troupe (timing .knocking (knocked 0)) 2) 5)).find?
      fun i => ((lineOf (troupe (timing .knocking (knocked 0)) 2) 5).peers[i]?).any (·.firstDue)) = some 0 := by
  decide +kernel

/-- The open house whose OPEN line 5 has had no sample since 0 and has a governed frame to send. -/
def probing : State :=
  open2 { fabric with
    lines := [(5, { state := ⟨.opened, 0⟩, peers := [{ addr := other, sampledAt := some 0 }], waiting := [frame5] })] }
theorem witness_probeSend : lineBroken (lineOf (troupe probing 2) 5) = false ∧
    (lineOf (troupe probing 2) 5).state.val = .opened ∧
    (lineOf (troupe probing 2) 5).peers[0]? = some { addr := other, sampledAt := some 0 } ∧
    0 + 57600 ≤ probing.house.ck + 57600 ∧
    (unsentFrames (troupe probing 2) 5 0).any (governed (passCk 57600 probing) (troupe probing 2)) = true := by decide +kernel

/-- The round of tick 0 after its frame has been sent on port 3. -/
def sentRound : Round := ⟨0, 1, false, false, 0, 3, 6, [3], [], none, false, 0, [(3, 0)], false, 0⟩
theorem witness_callResend : tabGet sentRound.sent 3 = some 0 ∧ 3 ∈ sentRound.ports ∧ sentRound.result = none ∧
    sentRound.failed = false ∧ heard sentRound 3 = none ∧ 0 + 3600 ≤ routed.house.ck + 3600 := by decide +kernel
theorem witness_roundAbandonLimit : (troupe (with2 { abandoned := 16 }) 2).abandonTold = false ∧
    16 ≤ (troupe (with2 { abandoned := 16 }) 2).abandoned := by decide +kernel

/-- The small house at tick 20 with a troupe 2. -/
def at20 (tr : Troupe) : State := { with2 tr with house := { small.house with tick := 20 } }
/-- Step 1, CALLED at tick 10 with a deadline of 10 ticks. -/
def lateStep : StepRec := { stepAt 1 .called with calledTick := some 10, deadline := 10 }
theorem witness_stepDeadlineMiss : lastStep (troupe (at20 { opened := 1, steps := [(1, lateStep)] }) 2) = some lateStep ∧
    lateStep.state.val = .called ∧ lateStep.missed = false ∧ 10 + lateStep.deadline ≤ 20 ∧
    completionOf (passCk 0 (at20 { opened := 1, steps := [(1, lateStep)] }))
      (troupe (at20 { opened := 1, steps := [(1, lateStep)] }) 2) lateStep = false := by decide +kernel

/-- A wait of slot 31 for cue 3 to reach 8, until tick 20. -/
def wait8 : Wait := ⟨2, 31, 8, 64, some 20⟩
/-- Troupe 2 with that wait. -/
def held8 : State :=
  { at20 { cues := [(3, { value := 7, waits := [wait8] })] } with deferred := [⟨2, 31, 2, .cueWait 3⟩] }
theorem witness_cueWaitTimeout :
    (held8.deferred.find? fun d => d.issuer == 2 && d.slot == 31) = some ⟨2, 31, 2, .cueWait 3⟩ ∧
    tabGet (troupe held8 2).cues 3 = some { value := 7, waits := [wait8] } ∧ wait8.issuer = 2 ∧ wait8.slot = 31 ∧
    wait8.expires = some 20 ∧ 20 ≤ held8.house.tick := by decide +kernel

theorem witness_bankDrainRelease :
    (sliceOf { at20 {} with slices := [(1, { draining := some 4, epoch := 6 })] } 1).draining = some 4 ∧
    4 + 16 ≤ (at20 {}).house.tick ∧ drainCount { at20 {} with slices := [(1, { draining := some 4, epoch := 6 })] } 1 = 0 := by
  decide +kernel
theorem witness_verdictArrive (equal : Bool) :
    let word := pcWord (1 + (if equal then 2 ^ 24 else 3 * 2 ^ 25))
    let tr : Troupe := { opened := 1, steps := [(1, stepAt 1 .updated)] }
    pcWhole word = true ∧ bit (pcVal word) 24 = equal ∧ tr.noCheck = false ∧
    (tr.steps.find? fun e => e.1 % 2 ^ 24 == pcVal word % 2 ^ 24 && e.2.state.val == .updated &&
      e.1 % max 1 tr.propN == 0) = some (1, stepAt 1 .updated) := by cases equal <;> decide +kernel

/-- The small house with some port 3. -/
def ported (q : Port) : State := { at20 {} with ports := [(3, q)] }
theorem witness_linkUp : (portOf (ported {}) 3).link = .unlit ∧ (portOf (ported {}) 3).failed = false := by decide
theorem witness_linkSignalLoss : (portOf (ported { link := .lit }) 3).link = .lit ∧
    (portOf (ported { link := .lit }) 3).dim = none ∧ (portOf (ported { link := .lit }) 3).lossSince = none := by decide
theorem witness_portFail : (portOf (ported { link := .lit, lossSince := some 0 }) 3).lossSince = some 0 ∧
    (portOf (ported { link := .lit, lossSince := some 0 }) 3).dim = none ∧
    (portOf (ported { link := .lit, lossSince := some 0 }) 3).link = .lit ∧
    0 + 200 * Config.ckPerUs ≤ small.house.ck + 360000 := by decide
theorem witness_portFail_dim : (portOf (ported { link := .lit, dim := some (true, 1, 21, false, false) }) 3).link = .lit ∧
    (portOf (ported { link := .lit, dim := some (true, 1, 21, false, false) }) 3).dim.isSome = true := by decide
theorem witness_dimPropose : dimEligible (passCk 0 dimming) 3 = true ∧ (portOf dimming 3).dim = none := by decide +kernel
theorem witness_dimCommitPoint :
    (portOf (ported { link := .lit, dim := some (true, 1, 21, true, false) }) 3).dim = some (true, 1, 21, true, false) ∧
    21 ≤ (ported {}).house.tick + 1 := by decide
theorem witness_linkDark :
    (portOf (ported { link := .lit, dim := some (false, 1, 20, true, true) }) 3).dim = some (false, 1, 20, true, true) ∧
    (portOf (ported { link := .lit, dim := some (false, 1, 20, true, true) }) 3).link = .lit ∧ 20 ≤ (ported {}).house.tick ∧
    (portOf (ported { link := .lit, dim := some (false, 1, 20, true, true) }) 3).woken = false ∧
    framesWait (passCk 0 (ported { link := .lit, dim := some (false, 1, 20, true, true) })) 3 = false := by decide +kernel
theorem witness_linkWake : (portOf (ported { link := .dark, darkSince := some 0 }) 3).link = .dark := by decide
theorem witness_linkLit : (portOf (ported { link := .relighting, relightSince := some 0 }) 3).link = .relighting ∧
    (portOf (ported { link := .relighting, relightSince := some 0 }) 3).relightSince = some 0 ∧
    0 + 20 * Config.ckPerUs ≤ small.house.ck + 36000 := by decide

theorem witness_frameSend : (portOf (ported { link := .lit, busy := 9, pfcDue := [(2, 65535)] }) 3).busy ≤ small.house.ck + 9 ∧
    ticksOnly (ported { link := .lit, busy := 9, pfcDue := [(2, 65535)] }) 3 = false ∧
    nextPick (passCk 9 (ported { link := .lit, busy := 9, pfcDue := [(2, 65535)] })) 3 = some (.pfc 2 65535) := by
  decide +kernel
theorem witness_frameSend_control :
    nextPick (passCk 0 (ported { link := .lit, control := [link 0x88 0 []] })) 3 = some (.control (link 0x88 0 [])) := by
  decide +kernel
theorem witness_tickReply : (portOf (passCk 2048 (ported { link := .lit, child := true, replyDue := some 0 })) 3).link = .lit ∧
    (portOf (passCk 2048 (ported { link := .lit, child := true, replyDue := some 0 })) 3).child = true ∧
    (portOf (passCk 2048 (ported { link := .lit, child := true, replyDue := some 0 })) 3).replyDue = some 0 ∧
    0 + 2048 ≤ small.house.ck + 2048 := by decide +kernel
theorem witness_pauseExpire : tabGet (portOf (ported { pauses := [(2, (100, 0))] }) 3).pauses 2 = some (100, 0) ∧
    100 ≤ small.house.ck + 100 := by decide
/-- A port whose priority 2 holds n bytes and was paused at 0. -/
def full2 (n : Nat) : Port := { pausing := [(2, 0)], rx := [(0, List.replicate n 0, 2, 1, 6)] }
theorem occupancy_full2 (n : Nat) : occupancy (full2 n) 2 = n := by simp [occupancy, full2]
theorem witness_pfcRepeat : tabGet (full2 (2 ^ 20)).pausing 2 = some 0 ∧ 0 + 10 * Config.ckPerUs ≤ small.house.ck + 18000 ∧
    portOf (ported (full2 (2 ^ 20))) 3 = full2 (2 ^ 20) ∧ 2 ^ 20 ≤ occupancy (full2 (2 ^ 20)) 2 :=
  ⟨rfl, by decide, rfl, (occupancy_full2 _).ge⟩

theorem witness_tick_reset : (modHouse small fun h => { h with resetDue := true }).house.resetDue = true := rfl
theorem witness_tick : small.house.resetDue = false ∧
    small.house.ck ≤ small.house.sceneStart + small.house.sceneLength := by decide

/-! ### Witnesses: serving, completions, records, cues, fences -/

/-- Nimlia is up and a slot of troupe 2 holds some bytes. -/
def heldIn (tr : Troupe) (image : List Byte) : State :=
  awake (with2 { tr with posted := [(31, { image := image, arrived := 0 })], cues := [(3, { value := 0 })] })
/-- CUE_CREATE of cue 9 for troupe 2, signalling cue 3. -/
def create9 : Instr := .cueCreate at2 9 0
/-- Its bytes. -/
def image9 : List Byte := slotImage create9 2 1 0x8003

theorem witness_stepServesFront : ({ small with pending := [.tick, .tick] } : State).pending = .tick :: [.tick] ∧
    small.pending = [] := by decide
theorem witness_slotSpellsOne : post create9 = some at2 ∧ create9.wf = true ∧ 2 < 64 ∧ 1023 < 1024 := by decide
theorem witness_slotSpellsOne_other : post create9 = some at2 ∧ create9.wf = true ∧
    spells create9 (slotImage create9 2 1023 (3 + 2 ^ 15)) = true := by decide +kernel

theorem witness_refused_postWord : post create9 = some at2 ∧
    servable at2 (passCk 0 (heldIn {} (0 :: image9.drop 1))) = some { image := 0 :: image9.drop 1, arrived := 0 } ∧
    imageWhole (0 :: image9.drop 1) = false := by decide +kernel
/-- A slot with the undefined opcode 0x0FFF. -/
def undefined9 : List Byte := leBytes 8 (pcWord (0xFFF + 2 * 2 ^ 16)).toNat ++ List.replicate 184 0
theorem witness_refused_opcode :
    servable at2 (passCk 0 (heldIn {} undefined9)) = some { image := undefined9, arrived := 0 } ∧
    imageWhole undefined9 = true ∧ opcodes.contains (imageOpcode undefined9) = false := by decide +kernel
theorem witness_refused_issuer :
    servable at2 (passCk 0 (heldIn {} (slotImage (.houseReset at2) 0 1 0))) =
      some { image := slotImage (.houseReset at2) 0 1 0, arrived := 0 } ∧
    imageWhole (slotImage (.houseReset at2) 0 1 0) = true ∧
    spells (.houseReset at2) (slotImage (.houseReset at2) 0 1 0) = true ∧ mayAct 2 0 (.houseReset at2) = false := by
  decide +kernel
theorem witness_refused_served :
    servable at2 (passCk 0 (heldIn { life := .fenced } image9)) = some { image := image9, arrived := 0 } ∧
    imageWhole image9 = true ∧ spells create9 image9 = true ∧ mayAct 2 2 create9 = true ∧
    gateOf create9 (begun at2 (heldIn { life := .fenced } image9)) 2 = some .fenced := by decide +kernel
/-- The same bytes with one reserved byte set. -/
def reserved9 : List Byte := image9.set 191 1
theorem witness_refused_reserved :
    servable at2 (passCk 0 (heldIn {} reserved9)) = some { image := reserved9, arrived := 0 } ∧
    imageWhole reserved9 = true ∧ spells create9 reserved9 = true ∧
    gateOf create9 (begun at2 (heldIn {} reserved9)) 2 = none ∧ reservedClear create9 reserved9 = false := by decide +kernel
theorem witness_refused_target : mayAct 0 2 (.houseReset at0) = true ∧
    gateOf (.houseReset at0) (begun at0 small) 2 = none ∧ targetOk (.houseReset at0) 2 = false := by decide +kernel
/-- The same bytes with the cue 1023, which does not exist. -/
def cueless9 : List Byte := slotImage create9 2 1 0x83FF
theorem witness_refused_cue :
    servable at2 (passCk 0 (heldIn {} cueless9)) = some { image := cueless9, arrived := 0 } ∧
    imageWhole cueless9 = true ∧ spells create9 cueless9 = true ∧ mayAct 2 2 create9 = true ∧
    gateOf create9 (begun at2 (heldIn {} cueless9)) 2 = none ∧ imageCue cueless9 = some 1023 ∧
    cueExists (troupe (begun at2 (heldIn {} cueless9)) 2) 1023 = false := by decide +kernel

/-- Two slots of troupe 2 wait: 30 since tick 1, 31 since tick 0. -/
def two (served : Nat) : State :=
  { house := { small.house with fwUp := true, servedInTick := served }
    troupes := [(0, {}), (2, { posted := [(30, { image := image9, arrived := 1 }), (31, { image := image9, arrived := 0 })] })] }
/-- Slot 30 of troupe 2. -/
def at30 : Post := ⟨2, 30, 0⟩
theorem witness_houseOrder_next : servable at2 (two 3999) = some { image := image9, arrived := 0 } ∧
    servable at30 (two 3999) = none ∧ (two 3999).house.servedInTick < 40 * (two 3999).house.period ∧
    ∀ k ∈ Machine.waiting (two 3999), houseBefore k (0, 2, 31) = false := by decide +kernel
theorem witness_houseOrder_later : post (.cueCreate at30 9 0) = some at30 ∧
    tabGet (troupe (passCk 0 (two 0)) 2).posted 30 = some { image := image9, arrived := 1 } ∧
    ∃ k ∈ Machine.waiting (passCk 0 (two 0)), houseBefore k (1, 2, 30) = true := by decide +kernel
theorem witness_houseOrder_spent : 40 * (two 4000).house.period ≤ (two 4000).house.servedInTick ∧
    tabGet (troupe (passCk 0 (two 4000)) 2).posted 31 = some { image := image9, arrived := 0 } := by decide +kernel

theorem witness_completionsWritten : 31 < 32 ∧ tabGet (troupe (two 0) 2).posted 31 = some { image := image9, arrived := 0 } ∧
    56 + (List.replicate 8 (0 : Byte)).length ≤ 64 ∧ Memory.wf (troupe (two 0) 2).board = true ∧
    (two 0).house.tick < 2 ^ 64 := by decide +kernel

theorem witness_recordsKept : small.log.inTick < 256 ∧
    ({ small with log := { inTick := 255, write := 0x100 } } : State).log.inTick < 256 ∧
    ({ small with log := { write := 0x100 } } : State).log.write - errReadVal { write := 0x100 } = 256 := by decide +kernel
theorem witness_recordsKept_suppressed : 256 ≤ ({ small with log := { inTick := 256 } } : State).log.inTick := by decide
theorem witness_recordsKept_who : (troupe (with2 {}) 2).life ≠ .absent := by decide
theorem witness_recordsKept_read : placeOf ((writes 0 0x30 (pcWord 0x106)).offset / 8 * 8) = .house 0x30 ∧
    denial (passCk 0 logged) (writes 0 0x30 (pcWord 0x106)) true = none ∧
    logged.log.write - errReadVal logged.log <
      BitVec.ofNat 32 (pcVal (wordOf (writes 0 0x30 (pcWord 0x106)))) - errReadVal logged.log := by decide +kernel

theorem witness_cuesCount : tabGet (troupe (with2 { cues := [(3, { value := 7, waits := [wait8] })] }) 2).cues 3 =
      some { value := 7, waits := [wait8] } ∧ ({ value := 7, waits := [wait8] } : Cue).isWhole = true := by decide +kernel
theorem witness_cuesCount_broken : tabGet (troupe (with2 { cues := [(3, { value := 7, flawHi := 1 })] }) 2).cues 3 =
      some { value := 7, flawHi := 1 } ∧ ({ value := 7, flawHi := 1 } : Cue).isWhole = false := by decide +kernel

theorem witness_fenceActs : (troupe (winged (midStep .called)) 2).life = .active ∧
    openCalled (troupe (winged (midStep .called)) 2) = some (stepAt 1 .called) := by decide +kernel
theorem witness_fenceActs_exchanged : (troupe (winged (midStep .exchanged)) 2).life = .active ∧
    openCalled (troupe (winged (midStep .exchanged)) 2) = none := by decide +kernel
theorem witness_fenceActs_fenced : (troupe (with2 { life := .fenced }) 2).life = .fenced ∧
    (troupe (with2 {}) 3).life = .absent := by decide

/-- The small house with some commands that wait. -/
def queued (q : List Instr) : State := { small with pending := q }
theorem witness_stepKeepsSound : Sound (queued [.pitWindowOpen 1800 7]) ∧
    ∃ t, step (queued [.pitWindowOpen 1800 7]) = .next t :=
  ⟨⟨by decide +kernel, by decide, by decide⟩, _, rfl⟩

/-! ### Witnesses: accesses, doorbells, frames that are dropped, elements -/

theorem witness_accessesJudged_reserved : placeOf 0x20000 = .reserved ∧ placeOf 0xFFFFF = .reserved ∧
    placeOf 0x300000 = .reserved ∧ placeOf 0x1FFFF ≠ .reserved ∧ placeOf 0x2FFFFF ≠ .reserved := by decide
theorem witness_accessesJudged_tag : placeOf 0x108000 ≠ .reserved ∧ mayReach 3 (placeOf 0x108000) = false ∧
    placeOf 0x10C000 = .page 3 0 ∧ placeOf 0x2FFFFF = .gauges 63 0x3FFF := by decide
theorem witness_accessesJudged_absent : placeOf 0x10E000 ≠ .reserved ∧ mayReach 3 (placeOf 0x10E000) = true ∧
    absentDenial small (placeOf 0x10E000) = some { reply := .refused, status := .state, recorded := false } := by
  decide +kernel
theorem witness_accessesJudged_size : mayReach 2 (placeOf 0x10A001) = true ∧
    sizeDenial small { tag := 2, offset := 0x10A001, size := 8 } true (placeOf 0x10A001) =
      some { reply := .refused, status := .badArg } := by decide +kernel
theorem witness_accessesJudged_refused :
    writeOf (.callDoorbell (writes 2 0x10A000 1)) = some (writes 2 0x10A000 1, true) ∧
    denial (passCk 0 (awake (with2 {}))) (writes 2 0x10A000 1) true =
      some { reply := .refused, status := .refusedPc } := by decide +kernel
theorem witness_accessesJudged_other :
    writeOf (.callDoorbell (writes 2 0x10A008 1)) = some (writes 2 0x10A008 1, false) := by decide +kernel

/-- A doorbell of troupe 2 that names the low bits of the tail of ring 7. -/
def rings7 (low : Nat) : Access := writes 2 0x10A008 (pcWord (7 * 2 ^ 17 + low))
/-- Troupe 2 with ring 7 of some pointers. -/
def ringWith (r : Ring) : State := awake (with2 { rings := [(7, r)] })

theorem witness_ringDoorbells_aim (r : Ring) : aimsAt (rings7 0) 0x2008 = some 2 ∧
    bits (pcVal (wordOf (rings7 0))) 17 12 = 7 ∧ denial (passCk 0 (ringWith r)) (rings7 0) true = none ∧
    tabGet (troupe (ringWith r) 2).rings 7 = some r := by
  refine ⟨by decide +kernel, by decide +kernel, ?_, rfl⟩
  rfl
theorem witness_ringDoorbells_absent : denial (passCk 0 (awake (with2 {}))) (rings7 5) true = none ∧
    tabGet (troupe (awake (with2 {})) 2).rings 7 = none := by decide +kernel
theorem witness_ringDoorbells_broken : ({ ring1 with tail := ⟨5, 1⟩ } : Ring).tail.flaw ≠ 0 := by decide
theorem witness_ringDoorbells_still : bits (pcVal (wordOf (rings7 5))) 0 17 = (5 : BitVec 32).toNat % 2 ^ 17 ∧
    ((5 : BitVec 32) - 0).toNat ≤ ring1.depth := by decide +kernel
theorem witness_ringDoorbells_over : bits (pcVal (wordOf (rings7 65))) 0 17 = 65 ∧
    ring1.depth < (fullTail ring1.tail.val 65 - ring1.tail.val).toNat := by decide +kernel
theorem witness_ringDoorbells_full : bits (pcVal (wordOf (rings7 65))) 0 17 = 65 ∧
    (fullTail 1 65 - 1).toNat ≤ ring1.depth ∧ ring1.depth < (fullTail 1 65 - ring1.head.val).toNat := by decide +kernel

/-- Troupe 2 with slot 30 posted; its doorbell names slots 30 and 31. -/
def bell : State := awake (with2 { posted := [(30, { image := image9, arrived := 0 })] })
theorem witness_doorbellsPost : aimsAt (writes 2 0x10A000 (pcWord 0xC0000000)) 0x2000 = some 2 ∧
    denial (passCk 0 bell) (writes 2 0x10A000 (pcWord 0xC0000000)) true = none ∧
    (wordOf (writes 2 0x10A000 (pcWord 0xC0000000))).getLsbD 31 = true ∧ tabGet (troupe bell 2).posted 31 = none ∧
    (troupe bell 2).life ≠ .absent ∧ (wordOf (writes 2 0x10A000 (pcWord 0xC0000000))).getLsbD 29 = false ∧
    tabGet (troupe bell 2).posted 30 ≠ none := by decide +kernel
theorem witness_doorbellsPost_answers : ∃ fin, exec (.callDoorbell (writes 2 0x10A000 (pcWord 0xC0000000))) bell = .next fin :=
  ⟨_, rfl⟩

theorem witness_framesDropped_dark : frameOf (.pfcReceive 0 3 [1]) = some (0, 3, [1]) ∧
    receives (arriving (.pfcReceive 0 3 [1]) 0 3 small) 3 = false := by decide +kernel
theorem witness_framesDropped_runt : receives (open2 {}) 3 = true ∧
    checkFrame (open2 {}) (List.replicate 63 0) = .runt ∧ checkFrame (open2 {}) (List.replicate 64 0) = .fcs := by
  decide +kernel
theorem witness_framesDropped_oversize : checkFrame (open2 {}) (List.replicate 9217 0) = .oversize := by
  simp only [checkFrame, List.length_replicate]
  rfl
theorem witness_framesDropped_vlan : checkFrame (open2 {}) (ctlFrame 0x80 2 [(3, 2, 5)] 2 other 2) = .vlan := by
  decide +kernel
/-- A TICK frame of VID 2 on a port that is not verified. -/
def stranger2 : List Byte := ctlFrame 0x89 0 [(15, 2, 100)] groupAddr other 2
theorem witness_framesDropped_stranger :
    checkFrame (open2 {}) stranger2 = .vlan ∧ frameOf (.tickReceive 0 3 stranger2 0) = some (0, 3, stranger2) ∧
    stranger (.tickReceive 0 3 stranger2 0) 3 stranger2 { open2 {} with ports := [(3, { link := .lit })] } = true := by
  decide +kernel
theorem witness_framesDropped_misaddressed :
    checkFrame (open2 {}) (ctlFrame 0x89 0 [] 0x0000_0100_0002 other 1) = .misaddressed := by decide +kernel
/-- A control frame of an unknown type. -/
def unknown1 : List Byte := ctlFrame 0x8A 2 [] 2 other 1
theorem witness_framesDropped_malformed : checkFrame (open2 fabric) unknown1 = .malformed 6 := by decide +kernel
theorem witness_framesDropped_payload :
    checkFrame (open2 fabric) (carFrame { lineCar 1 0 0 1 0x6100 [1] with payload := [1] } 2 other 1) = .malformed 7 := by
  decide +kernel

theorem witness_elementsQuantised : f32Inf 0xFF800000 = true ∧ f32Finite 0x3FC00000 = true ∧
    ((f32Dy 0x3FC00000).num * 2 ^ ((f32Dy 0x3FC00000).exp + (133 - Int.ofNat 127)).toNat).natAbs ≤
      127 * ((2 : Int) ^ (-((f32Dy 0x3FC00000).exp + (133 - Int.ofNat 127))).toNat).natAbs := by decide +kernel
theorem witness_elementsQuantised_scripted : (stepAt 1 .called).adlib = false ∧
    [(1, 7, (5 : BitVec 64)), (2, 7, 6)].Perm [(2, 7, 6), (1, 7, 5)] := ⟨rfl, .swap ..⟩
/-- A pulled residual copy of the chunk of tensor 7, at the last committed step or older. -/
def pulled2 (epoch : Nat) : Pulled := { pulled1 with residuals := [(chunkKey 7 0, epoch, [0x3F80])] }
theorem witness_elementsQuantised_residuals : (∀ e ∈ (pulled2 4).residuals, e.2.1 ≤ (pulled2 4).lastCommitted) ∧
    residualsMatch played (pulled2 4) = true ∧ residualsMatch played (pulled2 3) = false := by decide +kernel

/-! ### Witnesses: frames -/

theorem witness_serviceFrame : ¬ storedBy [.store 64 [1, 2]] 66 ∧ ¬ notified held8 72 ∧ ∀ a, ¬ inLedger false held8 a := by
  refine ⟨?_, ?_, ?_⟩
  · rintro ⟨b, bs, h, k, hk, e⟩
    simp only [List.mem_singleton, Act.store.injEq] at h
    obtain ⟨rfl, rfl⟩ := h
    simp only [List.length_cons, List.length_nil] at hk
    omega
  · rintro ⟨e, he, c, hc, w, hw, -, k, hk, a⟩
    simp only [held8, at20, with2, List.mem_cons, List.not_mem_nil, or_false] at he
    rcases he with rfl | rfl
    · exact absurd hc (by simp)
    · simp only [List.mem_singleton] at hc
      subst hc
      simp only [List.mem_singleton] at hw
      subst hw
      have : wait8.notify.toNat = 64 := rfl
      omega
  · rintro a ⟨u, p, h, -⟩
    by_cases h0 : u = 0
    · subst h0; exact nomatch (h : (none : Option LedgerPlace) = some p)
    · by_cases h2 : u = 2
      · subst h2; exact nomatch (h : (none : Option LedgerPlace) = some p)
      · have : troupe held8 u = absentTroupe := by
          simp [troupe, held8, at20, with2, tabGetD, tabGet, Ne.symm h0, Ne.symm h2]
        rw [this] at h; exact nomatch (h : (none : Option LedgerPlace) = some p)
theorem witness_commandsKeepOthers : post create9 = some at2 ∧
    servable at2 (passCk at2.dt (heldIn {} image9)) = some { image := image9, arrived := 0 } ∧
    [0x0103, 0x0109, 0x010A, 0x010B].contains (opcode create9) = false := by decide +kernel
theorem witness_commandsKeepOthers_answers : ∃ t, exec create9 (heldIn {} image9) = .next t := ⟨_, rfl⟩
theorem witness_eventsKeepSettings : post (.pitWindowOpen 1800 7) = none ∧
    ∃ t, exec (.pitWindowOpen 1800 7) small = .next t := ⟨rfl, _, rfl⟩

/-! ### The spec's worked examples and tables -/

/-- 00, worked example of R17. -/
theorem test_paired_complement : pcWord 8000 = 0xFFFFE0BF00001F40 ∧ pcWhole 0xFFFFE0BF00001F40 = true ∧
    pcWhole 0xFFFFE0BE00001F40 = false := by decide
/-- R155: the check value over "123456789". -/
theorem test_crc64 : crc64 [0x31, 0x32, 0x33, 0x34, 0x35, 0x36, 0x37, 0x38, 0x39] = 0x62EC59E3F1A4F00A := by decide +kernel

/-- Table 5.3: quantised values and residuals at E = 127, one of each chip. -/
theorem test_quantise : quantise 0x3F40C000 127 none = (48, 0x3B40) ∧ quantise 0x3FFFE000 127 none = (127, 0x3C70) ∧
    quantise 0xBE808000 127 none = (-16, 0xBA80) ∧ quantise 0x3C700000 127 none = (1, 0xBA80) ∧
    quantise 0xBF800000 127 none = (-64, 0) := by decide +kernel
/-- R128: an element that is not sent keeps its BF16 value and the sign of a zero. -/
theorem test_unsent : unsent 0x80000000 = 0x8000 ∧ unsent 0x3F808000 = 0x3F80 ∧ unsent 0xFF800000 = 0xFF7F := by decide +kernel

/-- Table 5.3: the local bytes of the four chips. -/
theorem test_localByte : localByte [0x3F40C000, 0xBCF80000, 0] = 0x7E ∧ localByte [0x3FFFE000, 0x3F000000] = 0x7F ∧
    localByte [0xBEC00000] = 0x7D ∧ localByte [0x3D800000, 0xBF800000] = 0x7F := by decide +kernel

/-- Table 7.3: the owner's re-encoding of the sums 155, −33, −15 at byte 127 among four chips. -/
theorem test_reEncode : (reEncode 2 127 [155, -33, -15]).1 = 0x80 ∧ (reEncode 2 127 [155, -33, -15]).2.1 = [78, -16, -8] ∧
    (reEncode 2 127 [155, -33, -15]).2.2 = [⟨-1, -6⟩, ⟨-1, -6⟩, ⟨1, -6⟩] := by decide +kernel

/-- Table 4.4: the reduced histogram of bucket 40, with the counts below its top in bin 1. -/
def histogram40 : List Nat :=
  [0, 491644] ++ List.replicate 1919 0 ++ [3620, 2391, 1407, 598, 212] ++ List.replicate 2170 0
theorem test_choose : choose (some histogram40) 1 655 65536 = { sparse := true, enc := 3, bin := some 1921, t := 4996 } := by
  decide +kernel
/-- 04, cut of step 742: the quota of one chip and the key of its cut. -/
theorem test_band : localQuota 8000000 655 = 79957 ∧ magKey 5123481 0x3C0F2135 = 0x3C0F2135FFB1D266 := by decide +kernel
/-- R110, worked example: unique keys and their counts. -/
theorem test_unique : uniqueCounts [7, 3, 7, 9, 3, 7, 16, 9, 7, 3] = [(3, 3), (7, 4), (9, 2), (16, 1)] := by
  simp [uniqueCounts, List.mergeSort, runLengths]

/-- Table 3.9: the scripted and the other order of one element. -/
theorem test_accumulate : f32Add (f32Add (f32Add 0x3FC00000 0x33800000) 0x33800000) 0x34800000 = 0x3FC00002 ∧
    f32Add (f32Add (f32Add 0x33800000 0x33800000) 0x3FC00000) 0x34800000 = 0x3FC00003 := by decide +kernel
/-- 03, the descriptor bytes of micro-batch 2 of chunk 17, as the chip stamps them for troupe 5. -/
theorem test_descriptor : stamped 5 ([0, 2, 0x21, 0x80, 0x39, 0x30, 0, 0, 0x11, 0, 0, 0, 0xE6, 2, 0, 0, 0, 0, 0x12, 4] ++
      List.replicate 12 0) = [5, 2, 0x21, 0x80, 0x39, 0x30, 0, 0, 0x11, 0, 0, 0, 0xE6, 2, 0, 0, 0, 0, 0x12, 4] ++
      List.replicate 12 0 ∧
    descSlot ([5, 2, 0x21, 0x80, 0x39, 0x30, 0, 0, 0x11, 0, 0, 0, 0xE6, 2, 0, 0, 0, 0, 0x12, 4] ++ List.replicate 12 0) =
      0x04120000 := by decide
/-- 03: the home pits of chunks 17 and 91 of tensor 12,345. -/
theorem test_homePit : homePit 8 12345 17 = 2 ∧ homePit 8 12345 91 = 4 := by decide

/-- Table 6.15: the runs of the five selected elements. -/
def selected : List (Nat × QBlk) :=
  [(0, ⟨0x7F, [127, 32, -16], [true, true, true]⟩), (2, ⟨0x7D, List.replicate 6 0 ++ [5], List.replicate 6 false ++ [true]⟩),
   (9, ⟨0x80, List.replicate 12 0 ++ [-5], List.replicate 12 false ++ [true]⟩)]
/-- Table 6.16: the payload. -/
def payload5 : List Byte := [0, 0x7F, 0x7F, 0, 0x20, 0, 0xF0, 0x43, 0x7D, 5, 0xE5, 1, 0x80, 0xFB]
theorem test_runs : q8brBytes selected 0 = payload5 := by decide +kernel
/-- Table 6.16: the header. -/
theorem test_header : carHeader
      { type := 2, cls := .g, enc := 3, op := 1, troupe := 5, line := 17, seq := 4096, lineEpoch := 3, tableEpoch := 9
        step := 742, count := 5, tensor := 12345, subject := 1, coll := true, last := true, scripted := true
        position := 17, timestamp := 0x12345678, payload := padPayload payload5 } =
    [2, 2, 5, 0x13, 0x11, 0, 0, 1, 0, 0x10, 0, 0, 0, 0, 0, 0] ++ [3, 0, 9, 0, 0xE6, 2, 0, 0, 0, 0, 5, 0, 0x39, 0x30, 0x10, 0x45] ++
    [0x11, 0, 0, 0, 0x78, 0x56, 0x34, 0x12, 0, 0, 0, 0, 0, 0, 0, 0] ++
    [0xFF, 0xEF, 0xFF, 0xFF, 0x19, 0xFD, 0xFF, 0xFF, 0xFF, 0xFF, 0xEE, 0xFF, 0xFA, 0, 0, 0] := by decide +kernel

/-- R225, worked example: the window after a sample of 16,200 ck, and after one of 11,000 ck. -/
theorem test_window :
    ((peerOf (sampleRtt 2 5 0 16200 0 (timing .opened { addr := other, window := 1000000, samples := [(0, 9000)] })) 2 5 0).map
      (·.window)) = some 888889 ∧
    ((peerOf (sampleRtt 2 5 0 11000 133024 (timing .opened { addr := other, window := 888889, samples := [(0, 9000)] })) 2 5 0).map
      (·.window)) = some 890133 := by decide +kernel

/-- R245, worked example: a child on port 3 that sent its TICK frame at 300 ck hears the reply at 3,272 ck. -/
def childOf3 : State :=
  { open2 {} with
    house := { (open2 {}).house with parent := some 3, ck := 3272 }
    ports := [(3, { link := .lit, verified := true, tickTx := some 4800 })] }
theorem test_tickReply :
    (hearTick 3 (ctlFrame 0x89 0x40 [(11, 4, 2792), (15, 2, 100)] groupAddr other 1) 0 childOf3).house.theta = some 288 ∧
    (hearTick 3 (ctlFrame 0x89 0x40 [(11, 4, 2792), (15, 2, 100)] groupAddr other 1) 0 childOf3).house.correction = 144 ∧
    (portOf (hearTick 3 (ctlFrame 0x89 0x40 [(11, 4, 2792), (15, 2, 100)] groupAddr other 1) 0 childOf3) 3).roundTrip =
      some 14784 := by decide +kernel

/-- Table 2.4: the shaper of troupe 9 after 10 µs, and after the charge that meets the floor. -/
theorem test_shaper :
    (refill { rate := ⟨20000, 0⟩, cap := ⟨1048576, 0⟩, balance := -1500000 * 1800 } 18000).balance = -1300000 * 1800 ∧
    (shaperOf (troupe (chargeShaper 2 1 1000000
      (with2 { shapers := [(1, { rate := ⟨5000, 0⟩, cap := ⟨1048576, 0⟩, balance := -1200000 * 1800 })] })) 2) 1).balance =
      -2097152 * 1800 ∧
    (troupe (chargeShaper 2 1 1000000
      (with2 { shapers := [(1, { rate := ⟨5000, 0⟩, cap := ⟨1048576, 0⟩, balance := -1200000 * 1800 })] })) 2).gauges.map
      (·.2) = [102848] := by decide +kernel

/-- Table 10.10: the clipping factor. -/
theorem test_clip : clipFactor 0x3EA00000 (f32Mul 0x3F000000 0x3FA00000) = 0x3F000000 ∧
    gradient 0x3F000000 0x3F000000 [0x3F400000, 0xBF800000] = [0x3E400000, 0xBE800000] := by decide +kernel
/-- Table 10.11: the pending masters and momenta of elements 0 and 1. -/
theorem test_update :
    let b := updateBlock { rule := 1, nesterov := true, beta1Word := ⟨0x3F600000, 0⟩, etaWord := ⟨0x3D800000, 0⟩ } ⟨0, 0, 0, 0⟩ 0x3F800000
      { w := [0x3F800000, 0xBF000000], m := [0x3E000000, 0] } (fill32 [0x3E400000, 0xBE800000])
    b.w.take 2 = [0x3F78D800, 0xBEF10000] ∧ b.m.take 2 = [0x3E980000, 0xBE800000] := by decide +kernel

/-- Table 13.8: ring 300 of troupe 7, of depth 1,024, at some tail. -/
def ring300 (tail : BitVec 32) : State :=
  awake { small with troupes := [(0, {}), (7, { rings := [(300, { ring1 with depth := 1024, head := ⟨0x1FFF0, 0⟩, tail := ⟨tail, 0⟩ })] })] }
/-- The tail of that ring. -/
def tail300 (o : Out) : Option (BitVec 32) :=
  match o with
  | .next s => (tabGet (troupe s 7).rings 300).map (·.tail.val)
  | _ => none
/-- A write of the ring doorbell of troupe 7. -/
def bell7 (word : BitVec 64) : Access := writes 7 0x11E008 word
theorem test_ringDoorbell : tail300 (exec (.ringDoorbell (bell7 0xFDA7FD6F02580290)) (ring300 0x20100)) = some 0x20290 ∧
    tail300 (exec (.ringDoorbell (bell7 0xFDA7FB7B02580484)) (ring300 0x20290)) = some 0x20290 := by decide +kernel
/-- Table 13.8: the fourth write fences troupe 7; its record has the detail of Table 13.9. -/
theorem test_ringOverflow :
    (match exec (.ringDoorbell (bell7 0xFDA7FE6F02580190)) (ring300 0x20290) with
      | .next s => (troupe s 7).life == .fenced && (troupe s 7).ringStatus == (some .ringFull, 300, 1) &&
          (troupe s 7).lastError.any fun e => e.detail == 0x000000040190012C && e.address == 0x11E008
      | _ => false) = true := by decide +kernel

/-- Table 12.4: troupe 5 with a booking of 8,000,000 B and troupe 2 with 3,990,720 B on P3. -/
def board12 : State :=
  awake { small with
    ports := [(3, { link := .lit, transit := 2000000 })]
    troupes := [(0, {}),
      (2, { bookings := [(0, { port := 3, cls := .d, bytes := ⟨3990720, 0⟩, start := 0, stop := 0 })], grants := [(3, ⟨12000000, 0⟩)] }),
      (5, { bookings := [(0, { port := 3, cls := .g, bytes := ⟨8000000, 0⟩, start := 0, stop := 0 })], grants := [(3, ⟨12180010, 0⟩)] })] }
/-- What the completion word of a slot says, with the grant and the booking of a troupe. -/
def ends (i : Instr) (p : Post) (t : Nat) (s : State) : Option (Nat × Option Nat × Option Nat) :=
  match exec i (modTroupe s p.issuer fun tr => { tr with posted := [(p.slot, copied i t)] }) with
  | .next u => some (leNat (memRead (troupe u p.issuer).board (256 * p.slot + 8) 1),
      (tabGet (troupe u t).grants 3).map (·.val), (tabGet (troupe u t).bookings 0).map (·.bytes.val))
  | _ => none
theorem test_houseGrant : ends (.houseGrant at0 3 10000000) at0 5 board12 =
    some (statusCode .done, some 10000000, some 8000000) := by decide +kernel
theorem test_bookSet : ends (.bookSet at2 0 3 0 8990720 0 0) at2 2 board12 =
    some (statusCode .overbooked, some 12000000, some 3990720) := by decide +kernel

/-! ### WellFormed refuses an ill-formed term for each of its checks -/

/-- Table 14.2: the tick after a failure darkens the unit and writes the one record, with the unit's address. -/
theorem test_failure_told_at_tick :
    let s := tickUnits (failUnit 3 State.reset)
    (failUnit 3 State.reset).log.write = 0 ∧ unitDark s 3 = true ∧ s.log.write = 1 ∧
      (tabGet s.log.records 0).map (·.address) = some 0x503 := by decide +kernel

theorem test_wf_post : (Instr.stepAbort ⟨64, 0, 0⟩).wf = false ∧ (Instr.stepAbort ⟨0, 32, 0⟩).wf = false ∧
    (Instr.stepAbort ⟨63, 31, 0⟩).wf = true := by decide
theorem test_wf_access : ({ tag := 64, offset := 0, size := 8 } : Access).wf = false ∧
    ({ tag := 0, offset := 0x400000, size := 8 } : Access).wf = false ∧ ({ tag := 0, offset := 0, size := 0 } : Access).wf = false ∧
    ({ tag := 0, offset := 0, size := 65 } : Access).wf = false ∧
    ({ tag := 0, offset := 0, size := 8, data := [1] } : Access).wf = false ∧
    ({ tag := 63, offset := 0x3FFFFF, size := 64 } : Access).wf = true := by decide
theorem test_wf_write : (Instr.ringDoorbell { tag := 0, offset := 0, size := 8 }).wf = false ∧
    (Instr.windowAccessRefused (writes 0 0 0)).wf = false := by decide
theorem test_wf_emit : (Instr.emit 0 65536 emit7).wf = false ∧ (Instr.emit 0 0 [1]).wf = false ∧
    (Instr.emit 0 65535 emit7).wf = true := by decide
theorem test_wf_lists : (Instr.troupeCreate at0 3 [] (List.replicate 8 0)).wf = false ∧
    (Instr.troupeCreate at0 3 (List.replicate 8 0) []).wf = false ∧
    (Instr.troupeCarousel at2 0 0 0 0 [] 0).wf = false := by decide
theorem test_wf_troupe : (Instr.sealComplete 0 64).wf = false ∧ (Instr.chunkAccumulate 0 2 (2 ^ 20) 0).wf = false ∧
    (Instr.quantPassStart 0 2 65536).wf = false ∧ (Instr.packItem 0 64 0).wf = false ∧ (Instr.verdictArrive 0 64 0).wf = false ∧
    (Instr.probeSend 0 2 1024 0).wf = false ∧ (Instr.verdictCompare 0 2 (2 ^ 48)).wf = false := by decide
theorem test_wf_ports : (Instr.frameSend 0 8).wf = false ∧ (Instr.callResend 0 2 8).wf = false ∧
    (Instr.pauseExpire 0 0 8).wf = false ∧ (Instr.tickReceive 0 0 [] 16).wf = false ∧ (Instr.ackReceive 0 8 []).wf = false ∧
    (Instr.frameSend 0 7).wf = true := by decide
theorem test_wf_units : (Instr.bankDrainRelease 0 64).wf = false ∧ (Instr.pitWindowOpen 0 8).wf = false ∧
    (Instr.cueWaitTimeout 0 64 0).wf = false ∧ (Instr.cueWaitTimeout 0 0 32).wf = false ∧
    (Instr.resetRelease 0 [24]).wf = false ∧ (Instr.resetRelease 0 [23]).wf = true := by decide
theorem test_wf_queue : queueWf [.tick, .frameSend 0 8] = false ∧ queueWf [.tick] = true := by decide

/-! ### The table gives no row any bits -/

theorem test_no_word : decodeTableWord 0 0 = none ∧ (small.withFetchWord 16 5).pending = [] := by decide
end Sys2Proof.Tests
end

section
/-! The frames of a link (R4, R229, R231, R245, R249, R251): what each row of a link frame leaves to the effect of its
kind, what that effect is, and the statement O34 put together from them. -/

namespace Sys2Proof.Machine

open Sys2Proof

/-! ### DIM: a proposal heard by a port without a handshake (R249) -/

/-- The block after a DIM proposal has been counted: the port's idle time runs on (log entry 55). -/
theorem asked_of_proposal {f : List Byte} (h : bodyField f 3 1 = 0) (port idle : Nat) (s : State) :
    asked port idle f s = modPort s port fun q => { q with idle := idle } := by
  rw [asked, if_pos h]

theorem hearDim_of_proposal {f : List Byte} (h : bodyField f 3 1 = 0) (port : Nat) (s : State) :
    hearDim port f s = hearPropose port (frameSrc f) (BitVec.ofNat 16 (bodyField f 5 2)) (bodyField f 7 8) s := by
  simp only [hearDim, h]

theorem ownStands_of_no_dim {s : State} {port : Nat} (h : (portOf s port).dim = none) (src : BlockAddr) :
    ownStands s port src = false := by
  simp only [ownStands, h]

/-- Without a handshake under way, eligibility and the dark tick alone decide on a proposal. -/
theorem hearPropose_of_no_dim {s : State} {port : Nat} (h : (portOf s port).dim = none) (src : BlockAddr)
    (n : BitVec 16) (dark : Nat) :
    hearPropose port src n dark s = if dimEligible s port && ! pastCommitPoint s dark then
        sendDim port 1 n dark (modPort s port fun q =>
          { q with handshake := n, dim := some (false, n, dark, true, false) })
      else sendDim port 2 n dark s := by
  simp [hearPropose, ownStands_of_no_dim h, h]

theorem pastCommitPoint_eq_false_iff (s : State) (dark : Nat) :
    pastCommitPoint s dark = false ↔ s.house.tick + 1 < dark := by
  simp [pastCommitPoint]

/-- A proposal heard by a port without a handshake is judged once the frame is counted and the idle time put back. -/
theorem exec_dimReceive_proposal {dt port : Nat} {f : List Byte} {s : State} (H : Heard .dim dt port f s)
    (ht : ticksOnly s port = false) (hp : bodyField f 3 1 = 0) :
    exec (.dimReceive dt port f) s = .next (hearPropose port (frameSrc f) (BitVec.ofNat 16 (bodyField f 5 2))
      (bodyField f 7 8) (modPort (counted .dim dt port s) port fun q => { q with idle := (portOf s port).idle })) := by
  calc exec (.dimReceive dt port f) s = execDimReceive dt port f s := rfl
    _ = _ := by simp [execDimReceive, arrive_heard H, ht, asked_of_proposal hp, hearDim_of_proposal hp]

theorem dim_counted_idle (k : Kind) (dt port idle : Nat) (s : State) :
    (portOf (modPort (counted k dt port s) port fun q => { q with idle := idle }) port).dim = (portOf s port).dim := by
  rw [portOf_modPort_same, portOf_counted]
  split <;> rfl

/-- An eligible port agrees before the commit point of the proposal. -/
theorem dimReceive_agrees {dt port : Nat} {f : List Byte} {s : State} (H : Heard .dim dt port f s)
    (ht : ticksOnly s port = false) (hp : bodyField f 3 1 = 0) (hd : (portOf s port).dim = none) :
    let s1 := modPort (counted .dim dt port s) port fun q => { q with idle := (portOf s port).idle }
    let n := BitVec.ofNat 16 (bodyField f 5 2)
    let dark := bodyField f 7 8
    dimEligible s1 port = true → s.house.tick + 1 < dark →
      exec (.dimReceive dt port f) s = .next (sendDim port 1 n dark
        (modPort s1 port fun q => { q with handshake := n, dim := some (false, n, dark, true, false) })) := by
  intro s1 n dark he hdark
  have hfree : (portOf s1 port).dim = none := (dim_counted_idle ..).trans hd
  have hearly : pastCommitPoint s1 dark = false :=
    (pastCommitPoint_eq_false_iff s1 dark).2 (by simpa [s1] using hdark)
  rw [exec_dimReceive_proposal H ht hp, hearPropose_of_no_dim hfree]
  simp [s1, n, dark, he, hearly]

/-- A port that is not eligible declines. -/
theorem dimReceive_declines {dt port : Nat} {f : List Byte} {s : State} (H : Heard .dim dt port f s)
    (ht : ticksOnly s port = false) (hp : bodyField f 3 1 = 0) (hd : (portOf s port).dim = none) :
    let s1 := modPort (counted .dim dt port s) port fun q => { q with idle := (portOf s port).idle }
    dimEligible s1 port = false → exec (.dimReceive dt port f) s =
      .next (sendDim port 2 (BitVec.ofNat 16 (bodyField f 5 2)) (bodyField f 7 8) s1) := by
  intro s1 he
  have hfree : (portOf s1 port).dim = none := (dim_counted_idle ..).trans hd
  rw [exec_dimReceive_proposal H ht hp, hearPropose_of_no_dim hfree]
  simp [s1, he]

/-! ### LIGHT: a request on a lit link (R251) -/

theorem relit_of_receives {s : State} {port : Nat} (h : receives s port = true) : relit s port = false := by
  have hl : (portOf s port).link = .lit := by simpa [receives] using h
  simp [relit, hl]

/-- `arrive_heard` where the time has passed before the frame is looked at. -/
theorem arrived_heard {k : Kind} {dt port : Nat} {f : List Byte} {h : State → State} {s : State}
    (H : Heard k dt port f s) : arrived k port f h (passCk dt s) = h (counted k dt port s) := arrive_heard H

/-- A lit port has nothing to relight, so a LIGHT request is only answered. -/
theorem lightReceive_request {dt port : Nat} {f : List Byte} {s : State} (H : Heard .light dt port f s)
    (ht : ticksOnly s port = false) (hp : bodyField f 3 1 = 0) :
    exec (.lightReceive dt port f) s = .next (sendLink port 0x88 0
      (lightFields port 1 (bodyField f 5 2) (bodyField f 7 8)) (counted .light dt port s)) := by
  have hlit : relit (passCk dt s) port = false := relit_of_receives H.1
  calc exec (.lightReceive dt port f) s = execLightReceive dt port f s := rfl
    _ = _ := by simp [execLightReceive, hlit, arrived_heard H, ht, hp]

/-! ### MAC control and foreign frames (R4, R229, R231) -/

theorem pfcReceive_heard {dt port : Nat} {f : List Byte} {s : State} (H : Heard .pfc dt port f s)
    (ht : ticksOnly s port = false) :
    let off := if frameTagged f then 20 else 16
    exec (.pfcReceive dt port f) s = .next (((List.range 8).filter (bit (beNat (slice f off 2)))).foldl
      (fun s k => takePause port k (beNat (slice f (off + 2 + 2 * k) 2)) s)
      (portGauge (counted .pfc dt port s) port 27 1)) := by
  intro off
  calc exec (.pfcReceive dt port f) s = execPfcReceive dt port f s := rfl
    _ = _ := by simp [execPfcReceive, arrive_heard H, ht, off]

theorem pauseFrameReceive_heard {dt port : Nat} {f : List Byte} {s : State} (H : Heard .pause dt port f s) :
    exec (.pauseFrameReceive dt port f) s = .next (portGauge (counted .pause dt port s) port 16 1) := by
  calc exec (.pauseFrameReceive dt port f) s = execPauseFrameReceive dt port f s := rfl
    _ = _ := by rw [execPauseFrameReceive, arrive_heard H]

theorem foreignFrameReceive_heard {dt port : Nat} {f : List Byte} {s : State} (H : Heard .foreign dt port f s) :
    exec (.foreignFrameReceive dt port f) s = .next (portGauge (counted .foreign dt port s) port 5 1) := by
  calc exec (.foreignFrameReceive dt port f) s = execForeignFrameReceive dt port f s := rfl
    _ = _ := by rw [execForeignFrameReceive, arrive_heard H]

/-! ### TICK on a verified port that is not the parent's (R245, R246) -/

theorem strangeTick_of_ok {s : State} {f : List Byte} {k : Kind} (h : checkFrame s f = .ok k) (port : Nat) :
    strangeTick s port f = false := by
  simp [strangeTick, h]

/-- An open house judges a verified port no more (R246). -/
theorem judgePort_verified {s : State} {port : Nat} (hv : (portOf s port).verified = true)
    (ho : s.house.doorsOpen = true) : judgePort port s = s := by
  simp [judgePort, hv, ho]

/-- What a TICK frame tells of the partner, and with the child bit of a child that is to be replied to (R245). -/
def toldTick (port : Nat) (f : List Byte) (s : State) : State :=
  let s1 := modPort s port fun q => { q with partner := some (frameSrc f, frameVid f, bodyField f 15 2) }
  if bit (bodyField f 2 1) 7 then
    modPort s1 port fun q => { q with
      child := true, replyDue := some s.house.ck, control := q.control.filter fun f => frameType f != 0x89 }
  else s1

/-- Off the parent port, in an open house and at the house's own period, a TICK frame does no more than tell. -/
theorem hearTick_verified {s : State} {port : Nat} {f : List Byte} (sub : Nat) (hp : s.house.parent ≠ some port)
    (ho : s.house.doorsOpen = true) (hv : (portOf s port).verified = true) (hper : bodyField f 15 2 = s.house.period) :
    hearTick port f sub s = toldTick port f s := by
  by_cases hchild : bit (bodyField f 2 1) 7 = true <;>
    simp [hearTick, toldTick, hchild, hp, judgePort_verified, hv, ho, hper]

theorem verified_counted (k : Kind) (dt port : Nat) (s : State) :
    (portOf (counted k dt port s) port).verified = (portOf s port).verified := by
  rw [portOf_counted]
  split <;> rfl

theorem tickReceive_heard {dt port : Nat} {f : List Byte} {s : State} (sub : Nat) (H : Heard .tick dt port f s) :
    exec (.tickReceive dt port f sub) s = .next (hearTick port f sub (counted .tick dt port s)) := by
  calc exec (.tickReceive dt port f sub) s = execTickReceive dt port f sub s := rfl
    _ = _ := by simp [execTickReceive, arrive_heard H, strangeTick_of_ok H.2]

theorem tickReceive_verified {dt port : Nat} {f : List Byte} {s : State} (sub : Nat) (H : Heard .tick dt port f s)
    (hp : s.house.parent ≠ some port) (ho : s.house.doorsOpen = true) (hv : (portOf s port).verified = true)
    (hper : bodyField f 15 2 = s.house.period) :
    exec (.tickReceive dt port f sub) s = .next (toldTick port f (counted .tick dt port s)) := by
  rw [tickReceive_heard sub H, hearTick_verified sub (by simpa using hp) (by simpa using ho)
    ((verified_counted ..).trans hv) (by simpa using hper)]

/-! ### The statement -/

/-- Settles O34: one lemma for each row; a DIM proposal goes by eligibility, and a TICK frame on a verified port off the
tree does no more than tell its partner and its child bit. -/
theorem linkFramesComplete : Obligations.LinkFramesComplete := by
  unfold Obligations.LinkFramesComplete
  refine ⟨?dim, ?light, ?pfc, ?pause, ?foreign, ?tick⟩
  case dim => exact fun _ _ _ _ H ht hp hd => ⟨dimReceive_agrees H ht hp hd, dimReceive_declines H ht hp hd⟩
  case light => exact fun _ _ _ _ H ht hp => lightReceive_request H ht hp
  case pfc => exact fun _ _ _ _ H ht => pfcReceive_heard H ht
  case pause => exact fun _ _ _ _ H => pauseFrameReceive_heard H
  case foreign => exact fun _ _ _ _ H => foreignFrameReceive_heard H
  case tick =>
    intro dt port f sub s H hp ho hv hper s1
    rw [tickReceive_verified sub H hp ho hv hper, toldTick, counted_ck, passCk_ck]

end Sys2Proof.Machine
end

section
/-! Ready commands: what a met condition of R321 check 5 says, a command of which more is known than its gate asks, and
updates of a troupe that agree on it. -/

namespace Sys2Proof.Machine

open Sys2Proof

theorem inRange_eq_true_iff (lo hi x : Nat) : inRange lo hi x = true ↔ lo ≤ x ∧ x ≤ hi := by
  simp [inRange]

/-- A command that is ready under one gate is ready under every gate that lets it through. -/
theorem Ready.under {house : Bool} {gate : State → Nat → Option Status} {i : Instr} {p : Post} {q : Posted} {s : State}
    (h : Ready house gate i p q s) {gate' : State → Nat → Option Status} (hg : gate' (begun p s) q.target = none) :
    Ready house gate' i p q s := by
  obtain ⟨hserved, hwhole, hspells, hclear, htarget, hcue, hright, -⟩ := h
  exact ⟨hserved, hwhole, hspells, hclear, htarget, hcue, hright, hg⟩

/-- Two changes of a troupe that agree on it leave the same state. -/
theorem modTroupe_congr {s : State} {t : Nat} {f g : Troupe → Troupe} (h : f (troupe s t) = g (troupe s t)) :
    modTroupe s t f = modTroupe s t g := by
  simp only [troupe, tabGetD] at h
  simp only [modTroupe, tabMod]
  cases e : tabGet s.troupes t with
  | none => rfl
  | some tr => rw [e, Option.getD_some] at h; simp only [h]

@[simp] theorem flight_begun (p : Post) (s : State) (t : Nat) :
    flight (troupe (begun p s) t) = flight (troupe s t) := by
  simp [flight, lastStep, stepOf]

@[simp] theorem openCalled_begun (p : Post) (s : State) (t : Nat) :
    openCalled (troupe (begun p s) t) = openCalled (troupe s t) := by
  simp [openCalled, lastStep, stepOf]

@[simp] theorem heldOpen_begun (p : Post) (s : State) (t : Nat) : heldOpen (begun p s) t = heldOpen s t := by
  simp [heldOpen]

/-- A troupe with an OPEN or CALLED step exists. -/
theorem tabGet_isSome_of_openCalled {s : State} {t : Nat} (h : (openCalled (troupe s t)).isSome = true) :
    (tabGet s.troupes t).isSome = true := by
  cases e : tabGet s.troupes t with
  | none =>
    have habsent : troupe s t = absentTroupe := by rw [troupe, tabGetD, e]; rfl
    rw [habsent] at h
    exact absurd h (by decide)
  | some _ => rfl

end Sys2Proof.Machine
end

section
/-! The commands that move a troupe between its states (R24, R58, R59, R315, R334, R337): one lemma for each way a row
ends, and the statement O8 put together from them. -/

namespace Sys2Proof.Machine

open Sys2Proof

section Rows

variable {p : Post} {q : Posted} {s : State}

/-! ### TROUPE_INTERMISSION (R24, R58, R337) -/

/-- The troupe remembers who sent it into intermission (R337): the house (2) over the troupe itself (1). -/
def sentBy (issuer : Nat) (tr : Troupe) : Troupe :=
  { tr with issuer := if issuer = 0 then 2 else if tr.issuer = 2 then 2 else 1 }

/-- An ACTIVE troupe's intermission depends on its step in flight alone. -/
theorem troupeIntermission_active (h : Ready false anyGate (.troupeIntermission p) p q s)
    (hlife : (troupe s q.target).life = .active) :
    exec (.troupeIntermission p) s = .next (answer p q.target q
      (if (flight (troupe (begun p s) q.target)).isNone then
        done (enterIntermission q.target (modTroupe (begun p s) q.target (sentBy p.issuer)))
      else .defer (modTroupe (curtain (some 12) q.target (modTroupe (begun p s) q.target (sentBy p.issuer))) q.target
        fun tr => { tr with life := .pending }) .intermission []) (begun p s)) := by
  have hlife' : ((troupe (begun p s) q.target).life != .active) = false := by simp [hlife]
  have hsent : modTroupe (begun p s) q.target (fun tr => { tr with
      issuer := if p.issuer = 0 then 2 else if (troupe (begun p s) q.target).issuer = 2 then 2 else 1 }) =
      modTroupe (begun p s) q.target (sentBy p.issuer) := modTroupe_congr rfl
  calc exec (.troupeIntermission p) s = execTroupeIntermission p s := rfl
    _ = _ := congrArg Host.Outcome.next (serve_ready rfl h rfl)
    _ = _ := by simp only [hlife', Bool.false_eq_true, if_false, hsent]

theorem troupeIntermission_at_once (h : Ready false anyGate (.troupeIntermission p) p q s)
    (hlife : (troupe s q.target).life = .active) (hflight : flight (troupe (begun p s) q.target) = none) :
    exec (.troupeIntermission p) s = .next (completed p .done [] [] []
      (enterIntermission q.target (modTroupe (begun p s) q.target (sentBy p.issuer)))) := by
  rw [troupeIntermission_active h hlife, hflight, Option.isNone_none, if_pos rfl, answer_done]

theorem troupeIntermission_deferred {r : StepRec} (h : Ready false anyGate (.troupeIntermission p) p q s)
    (hlife : (troupe s q.target).life = .active) (hflight : flight (troupe (begun p s) q.target) = some r) :
    exec (.troupeIntermission p) s = .next (heldBack p q.target q .intermission []
      (modTroupe (curtain (some 12) q.target (modTroupe (begun p s) q.target (sentBy p.issuer))) q.target
        fun tr => { tr with life := .pending })) := by
  rw [troupeIntermission_active h hlife, hflight, Option.isNone_some, if_neg Bool.false_ne_true, answer_defer]

/-! ### TROUPE_RESUME (R59, R337) -/

/-- A troupe back from its intermission: ACTIVE, its bookings no longer suspended. -/
def backOnStage (tr : Troupe) : Troupe :=
  { tr with
    life := .active, issuer := 0
    bookings := tr.bookings.map fun e => (e.1, { e.2 with suspended := false }) }

theorem troupeResume_done (h : Ready false anyGate (.troupeResume p) p q s)
    (hlife : (troupe s q.target).life = .intermission) (hright : p.issuer = 0 ∨ (troupe s q.target).issuer ≠ 2)
    (hfit : resumes (begun p s) q.target = true) :
    exec (.troupeResume p) s = .next (completed p .done [] [] []
      (serveHeld q.target (modTroupe (begun p s) q.target backOnStage))) := by
  have hgate : gateOf (.troupeResume p) (begun p s) q.target = none := by simp [gateOf, anyGate, hlife]
  have hright' : (p.issuer == 0 || (troupe (begun p s) q.target).issuer != 2) = true := by simpa using hright
  calc exec (.troupeResume p) s = execTroupeResume p s := rfl
    _ = _ := congrArg Host.Outcome.next (serve_ready rfl (h.under hgate) rfl)
    _ = _ := by simp only [hright', hfit, need_true, answer_done]; rfl

/-! ### TROUPE_RESET and TROUPE_DELETE (R315, R317, R334) -/

theorem troupeReset_deferred (h : Ready false alwaysGate (.troupeReset p) p q s)
    (hlife : (troupe s q.target).life ≠ .resetting) :
    exec (.troupeReset p) s = .next (heldBack p q.target q .reset [] (beginTroupeReset q.target (begun p s))) := by
  have hlife' : ((troupe (begun p s) q.target).life != .resetting) = true := by simpa using hlife
  calc exec (.troupeReset p) s = execTroupeReset p s := rfl
    _ = _ := congrArg Host.Outcome.next (serve_ready rfl h rfl)
    _ = _ := by simp only [hlife', need_true, answer_defer]

theorem troupeDelete_deferred (h : Ready true alwaysGate (.troupeDelete p) p q s) (hzero : q.target ≠ 0)
    (hlife : (troupe s q.target).life = .intermission ∨ (troupe s q.target).life = .fenced) :
    exec (.troupeDelete p) s = .next (heldBack p q.target q .delete [] (beginTroupeReset q.target (begun p s))) := by
  have hgate : gateOf (.troupeDelete p) (begun p s) q.target = none := by
    rcases hlife with hlife | hlife <;> simp only [gateOf, begun_life, hlife, if_neg hzero]
  calc exec (.troupeDelete p) s = execTroupeDelete p s := rfl
    _ = _ := congrArg Host.Outcome.next (serve_ready rfl (h.under hgate) rfl)

end Rows

/-! ### The statement -/

/-- Settles O8: one lemma for each way a row ends; an intermission turns on the step in flight, and a resumption and a
deletion are let through by the gate that the state of the troupe opens. -/
theorem troupeStatesComplete : Obligations.TroupeStatesComplete := by
  unfold Obligations.TroupeStatesComplete
  refine ⟨?atOnce, ?deferred, ?resume, ?reset, ?delete⟩
  case atOnce => exact fun _ _ _ h hlife hflight => troupeIntermission_at_once h hlife hflight
  case deferred => exact fun _ _ _ _ h hlife hflight => troupeIntermission_deferred h hlife hflight
  case resume => exact fun _ _ _ h hlife hright hfit => troupeResume_done h hlife hright hfit
  case reset => exact fun _ _ _ h hlife => troupeReset_deferred h hlife
  case delete => exact fun _ _ _ h hzero hlife => troupeDelete_deferred h hzero hlife

end Sys2Proof.Machine
end

section
/-! The STEP_ commands (R21, R24, R52, R137, R279, R312, R338, R340): one lemma for each way a row ends, and the
statement O17 put together from them. -/

namespace Sys2Proof.Machine

open Sys2Proof

section Rows

variable {p : Post} {q : Posted} {s : State}

/-! ### STEP_OPEN (R21, R305, R338) -/

theorem openWaits_of_intermission {tr : Troupe} (h : tr.life = .intermission) : openWaits tr = true := by
  simp [openWaits, h]

theorem openWaits_of_free {tr : Troupe} (hlife : tr.life ≠ .intermission) (hheld : tr.held = false) :
    openWaits tr = false := by
  simp [openWaits, hlife, hheld]

theorem stepOpen_opens {m : BitVec 16} {bookings : BitVec 256} (h : Ready false anyGate (.stepOpen p m bookings) p q s)
    (hlo : 1 ≤ m.toNat) (hhi : m.toNat ≤ 256) (hlife : (troupe s q.target).life ≠ .intermission)
    (hheld : (troupe s q.target).held = false) (hjudged : openRefusal (begun p s) q.target m.toNat bookings = none)
    (hfree : heldOpen s q.target = none) :
    let s' := openStep q.target m.toNat bookings (begun p s)
    exec (.stepOpen p m bookings) s = .next (completed p .done (openResults s' q.target) [] [] s') := by
  have hwaits : openWaits (troupe (begun p s) q.target) = false :=
    openWaits_of_free (by simpa using hlife) (by simpa using hheld)
  calc exec (.stepOpen p m bookings) s = execStepOpen p m bookings s := rfl
    _ = _ := congrArg Host.Outcome.next (serve_ready rfl h ((inRange_eq_true_iff ..).2 ⟨hlo, hhi⟩))
    _ = _ := by simp [hlife, hjudged, hfree, hwaits, answer_doneWith]

/-- A STEP_OPEN in intermission is held without being judged (R338, log entry 49). -/
theorem stepOpen_held {m : BitVec 16} {bookings : BitVec 256} (h : Ready false anyGate (.stepOpen p m bookings) p q s)
    (hlo : 1 ≤ m.toNat) (hhi : m.toNat ≤ 256) (hlife : (troupe s q.target).life = .intermission)
    (hfree : heldOpen s q.target = none) :
    exec (.stepOpen p m bookings) s = .next
      (heldBack p q.target q (.stepOpen m.toNat bookings) [] (begun p s)) := by
  have hwaits : openWaits (troupe (begun p s) q.target) = true := openWaits_of_intermission (by simpa using hlife)
  calc exec (.stepOpen p m bookings) s = execStepOpen p m bookings s := rfl
    _ = _ := congrArg Host.Outcome.next (serve_ready rfl h ((inRange_eq_true_iff ..).2 ⟨hlo, hhi⟩))
    _ = _ := by simp [hlife, hfree, hwaits, answer_defer]

/-! ### STEP_ABORT and STEP_LOSS: what they do to the step in flight (R24, R279) -/

theorem stepAbort_curtain (h : Ready false anyGate (.stepAbort p) p q s)
    (hflight : (flight (troupe s q.target)).isSome = true) :
    exec (.stepAbort p) s = .next (completed p .done [] [] [] (curtain (some 12) q.target (begun p s))) := by
  have hflight' : (flight (troupe (begun p s) q.target)).isSome = true := by simpa using hflight
  calc exec (.stepAbort p) s = execStepAbort p s := rfl
    _ = _ := congrArg Host.Outcome.next (serve_ready rfl h rfl)
    _ = _ := by simp only [hflight', need_true, answer_done]

/-- A troupe with the loss sample of its last step, which its detector has taken (R278, R279). -/
def takeLoss (loss : F32) (tr : Troupe) : Troupe :=
  { modLast tr (fun r => { r with loss := some loss }) with spikeLoss := tr.spikeLoss.take loss }

theorem stepLoss_stores {loss : BitVec 32} {r : StepRec} (h : Ready false anyGate (.stepLoss p loss) p q s)
    (hopen : openCalled (troupe s q.target) = some r) (hloss : r.loss = none) :
    exec (.stepLoss p loss) s = .next (completed p .done [] [] []
      (noteComplete q.target (judgeSpike q.target ((troupe s q.target).spikeLoss.take loss) loss
        (modTroupe (begun p s) q.target (takeLoss loss))))) := by
  have hunset : (openCalled (troupe (begun p s) q.target)).any (·.loss.isNone) = true := by simp [hopen, hloss]
  have hlisted : (tabGet (begun p s).troupes q.target).isSome = true :=
    tabGet_isSome_of_openCalled (by simp [hopen])
  have hspike : (troupe (modTroupe (begun p s) q.target (takeLoss loss)) q.target).spikeLoss =
      (troupe s q.target).spikeLoss.take loss := by
    rw [troupe_modTroupe_same hlisted, takeLoss, begun_spikeLoss]
  calc exec (.stepLoss p loss) s = execStepLoss p loss s := rfl
    _ = _ := congrArg Host.Outcome.next (serve_ready rfl h rfl)
    _ = _ := by rw [← hspike]; simp only [hunset, need_true, answer_done]; rfl

/-! ### STEP_SEED, STEP_DEADLINE, STEP_LEDGER: settings (R52, R137, R312) -/

theorem stepSeed_sets {seed : BitVec 64} (h : Ready false anyGate (.stepSeed p seed) p q s) :
    exec (.stepSeed p seed) s = .next (completed p .done [] [] []
      (modTroupe (begun p s) q.target fun tr => { tr with seed := seed })) :=
  calc exec (.stepSeed p seed) s = execStepSeed p seed s := rfl
    _ = _ := congrArg Host.Outcome.next (serve_ready rfl h rfl)

theorem stepDeadline_sets {ticks : BitVec 32} (h : Ready false anyGate (.stepDeadline p ticks) p q s)
    (hlo : 2 ≤ ticks.toNat) (hhi : ticks.toNat ≤ 1048575) :
    exec (.stepDeadline p ticks) s = .next (completed p .done [] [] []
      (modTroupe (begun p s) q.target fun tr => { tr with deadline := ticks.toNat })) :=
  calc exec (.stepDeadline p ticks) s = execStepDeadline p ticks s := rfl
    _ = _ := congrArg Host.Outcome.next (serve_ready rfl h ((inRange_eq_true_iff ..).2 ⟨hlo, hhi⟩))

/-- A troupe with a fresh step ledger (R312, R313). -/
def freshLedger (l : LedgerPlace) (tr : Troupe) : Troupe :=
  { tr with
    ledger := some l, ledgerCount := 0, ledgerExt := 0
    steps := tr.steps.map fun e => (e.1, { e.2 with ledgerAt := none }) }

theorem stepLedger_sets {flags : BitVec 8} {records : BitVec 32} {base extBase extLen capBase capLen : BitVec 64}
    (h : Ready false quietGate (.stepLedger p flags records base extBase extLen capBase capLen) p q s)
    (hflags : flags.toNat < 4) (hlo : 1024 ≤ records.toNat) (hhi : records.toNat ≤ 16777216) :
    exec (.stepLedger p flags records base extBase extLen capBase capLen) s = .next (completed p .done [] [] []
      (modTroupe (begun p s) q.target (freshLedger
        ⟨flags.getLsbD 0, flags.getLsbD 1, records.toNat, base, extBase, extLen, capBase, capLen⟩))) := by
  have hargs : (decide (flags.toNat < 4) && inRange 1024 16777216 records.toNat) = true := by
    rw [(inRange_eq_true_iff ..).2 ⟨hlo, hhi⟩, decide_eq_true hflags, Bool.and_self]
  calc exec (.stepLedger p flags records base extBase extLen capBase capLen) s =
      execStepLedger p flags records base extBase extLen capBase capLen s := rfl
    _ = _ := congrArg Host.Outcome.next (serve_ready rfl h hargs)

/-! ### STEP_STATE (R340) -/

/-- What STEP_STATE returns; the oldest step not yet RETIRED is 0 where there is none (log entry 80). -/
def stateResults (s : State) (t : Nat) : List (Nat × List Byte) :=
  let tr := troupe s t
  let mode := effectiveMode s tr
  [(0, leBytes 8 tr.opened), (8, leBytes 1 (((lastStep tr).map fun r => r.state.val.code).getD 0)),
    (16, leBytes 8 tr.epoch), (24, leBytes 8 tr.epoch),
    (32, leBytes 8 (((tr.steps.find? fun e => e.2.state.val != .retired).map (·.1)).getD 0)),
    (40, leBytes 1 mode.code), (41, leBytes 1 (bitOf (tr.pairTrickle && mode != .none)))]

theorem stepState_returns (h : Ready false alwaysGate (.stepState p) p q s) :
    exec (.stepState p) s = .next (completed p .done (stateResults (begun p s) q.target) [] [] (begun p s)) :=
  calc exec (.stepState p) s = execStepState p s := rfl
    _ = _ := congrArg Host.Outcome.next (serve_ready rfl h rfl)

end Rows

/-! ### The statement -/

/-- Settles O17: one lemma for each way a row ends; STEP_OPEN turns on whether it has to wait, and the detector that
judges a loss sample is the one that has just taken it. -/
theorem stepCommandsComplete : Obligations.StepCommandsComplete := by
  unfold Obligations.StepCommandsComplete
  refine ⟨?opens, ?held, ?abort, ?seed, ?loss, ?state, ?deadline, ?ledger⟩
  case opens =>
    exact fun _ _ _ _ _ h hlo hhi hlife hheld hjudged hfree => stepOpen_opens h hlo hhi hlife hheld hjudged hfree
  case held => exact fun _ _ _ _ _ h hlo hhi hlife hfree => stepOpen_held h hlo hhi hlife hfree
  case abort => exact fun _ _ _ h hflight => stepAbort_curtain h hflight
  case seed => exact fun _ _ _ _ h => stepSeed_sets h
  case loss => exact fun _ _ _ _ _ h hopen hloss => stepLoss_stores h hopen hloss
  case state => exact fun _ _ _ h => stepState_returns h
  case deadline => exact fun _ _ _ _ h hlo hhi => stepDeadline_sets h hlo hhi
  case ledger => exact fun _ _ _ _ _ _ _ _ _ _ h hflags hlo hhi => stepLedger_sets h hflags hlo hhi

end Sys2Proof.Machine
end

section
/-! What the passing of time leaves of a port, of the step in flight, of a draining bank and of a spill call (R50). -/

namespace Sys2Proof.Machine

open Sys2Proof

/-! ### Ports and spill calls -/

@[simp] theorem ticksOnly_passCk (dt port : Nat) (s : State) : ticksOnly (passCk dt s) port = ticksOnly s port := by
  simp [ticksOnly, loneAxis]

@[simp] theorem spillSource_passCk (dt : Nat) (s : State) (c : SpillCall) :
    spillSource (passCk dt s) c = spillSource s c := by
  simp only [spillSource, passCk_scratch]

/-! ### The step in flight (R264) -/

@[simp] theorem lastStep_passCk (dt t : Nat) (s : State) :
    lastStep (troupe (passCk dt s) t) = lastStep (troupe s t) := by
  simp [lastStep, stepOf]

/-- The order of updates goes by the playbill. -/
theorem insertTensor_bookings (tr : Troupe) (b : Tab Booking) (e : Nat × Nat × Nat × Nat × Bool) :
    ∀ l, insertTensor { tr with bookings := b } e l = insertTensor tr e l
  | [] => rfl
  | f :: l => by simp only [insertTensor, insertTensor_bookings tr b e l]

theorem promptWritten_bookings (tr : Troupe) (b : Tab Booking) :
    promptWritten { tr with bookings := b } = promptWritten tr := by
  have hinsert : (fun a e => insertTensor { tr with bookings := b } e a) = fun a e => insertTensor tr e a :=
    funext fun a => funext fun e => insertTensor_bookings tr b e a
  have horder : updateOrder { tr with bookings := b } = updateOrder tr := by
    rw [updateOrder, hinsert]
    rfl
  rw [promptWritten, horder]
  rfl

theorem completionMet_bookings (tr : Troupe) (b : Tab Booking) (r : StepRec) :
    completionMet { tr with bookings := b } r = completionMet tr r := by
  rw [completionMet, promptWritten_bookings]
  rfl

/-- The paused time of a booking is no part of what completes a step (R264). -/
theorem completionOf_passCk (dt t : Nat) (s : State) (r : StepRec) :
    completionOf (passCk dt s) (troupe (passCk dt s) t) r = completionOf (passCk dt s) (troupe s t) r := by
  have h : completionMet (troupe (passCk dt s) t) r = completionMet (troupe s t) r :=
    troupe_passCk dt s t (completionMet · r) fun tr b => completionMet_bookings tr b r
  rw [completionOf, completionOf, h]

/-! ### What still draws on a draining bank (R243) -/

/-- The frames of a troupe's cue sheet that were matched under an epoch of its slice record. -/
def sheetUnder (record : Nat) (epoch : BitVec 16) (tr : Troupe) : Nat :=
  if tr.slice == some record then (tr.sheet.filter fun f => f.car.tableEpoch == epoch).length else 0

/-- What the bookings are no part of is the same, troupe by troupe, once time has passed. -/
theorem map_troupes_passCk {γ : Type} (g : Troupe → γ) (hg : ∀ tr b, g { tr with bookings := b } = g tr) (dt : Nat)
    (s : State) : ((passCk dt s).troupes.map fun e => g e.2) = s.troupes.map fun e => g e.2 := by
  unfold passCk
  split
  · rfl
  · dsimp only
    split
    · rfl
    · rw [List.map_map]
      exact List.map_congr_left fun _ _ => hg _ _

@[simp] theorem drainCount_passCk (dt record : Nat) (s : State) :
    drainCount (passCk dt s) record = drainCount s record := by
  have h := map_troupes_passCk (sheetUnder record ((sliceOf s record).epoch - 1)) (fun _ _ => rfl) dt s
  simp only [drainCount, passCk_ports, sliceOf_passCk]
  simp only [sheetUnder] at h
  rw [h]

end Sys2Proof.Machine
end

section
/-! The clock, pod and dispatch commands of the house (R35, R139, R228, R245, R246, R315, R336): one lemma for each row,
and the statement O1 put together from them. -/

namespace Sys2Proof.Machine

open Sys2Proof

section Rows

variable {p : Post} {q : Posted} {s : State}

/-! ### The tick: its period and its parent port (R35, R36, R245) -/

theorem houseTickSet_pends {period : BitVec 16} {effective : BitVec 64}
    (h : Ready true houseGate (.houseTickSet p period effective) p q s) (hlo : 25 ≤ period.toNat)
    (hhi : period.toNat ≤ 400) (heff : s.house.tick + 64 ≤ effective.toNat)
    (hfit : ∀ k < 8, peakIn (portSpans (begun p s) k none) ⟨k, 0, effective.toNat, 0⟩ ≤
      admissionLimit (portNext (begun p s) k).1 period.toNat) :
    exec (.houseTickSet p period effective) s = .next (completed p .done [] [] []
      (modHouse (begun p s) fun h => { h with pendingPeriod := some (period.toNat, effective.toNat) })) := by
  have heff' : decide ((begun p s).house.tick + 64 ≤ effective.toNat) = true := by simpa using heff
  have hfit' : ((List.range 8).all fun k => decide (peakIn (portSpans (begun p s) k none) ⟨k, 0, effective.toNat, 0⟩ ≤
      admissionLimit (portNext (begun p s) k).1 period.toNat)) = true := by simpa using hfit
  calc exec (.houseTickSet p period effective) s = execHouseTickSet p period effective s := rfl
    _ = _ := congrArg Host.Outcome.next (serve_ready rfl h ((inRange_eq_true_iff ..).2 ⟨hlo, hhi⟩))
    _ = _ := by simp only [heff', hfit', need_true, answer_done]

theorem houseTickTree_pends {parent : BitVec 8} (h : Ready true houseGate (.houseTickTree p parent) p q s)
    (hport : parent.toNat < 8 ∨ parent = 0xFF) :
    exec (.houseTickTree p parent) s = .next (completed p .done [] [] [] (modHouse (begun p s) fun h =>
      { h with pendingParent := some (if parent = 0xFF then none else some parent.toNat) })) := by
  have hargs : (decide (parent.toNat < 8) || parent == 0xFF) = true := by simpa using hport
  calc exec (.houseTickTree p parent) s = execHouseTickTree p parent s := rfl
    _ = _ := congrArg Host.Outcome.next (serve_ready rfl h hargs)
    _ = _ := by simp only [answer_done, beq_iff_eq]

/-! ### The pod (R228), the pits' share (R139), the dispatch mode and the cores (R315, R74) -/

theorem housePodSet_sets {pod vid : BitVec 16} {lx ly lz : BitVec 8}
    (h : Ready true houseGate (.housePodSet p pod lx ly lz vid) p q s) (hclosed : s.house.doorsOpen = false)
    (hx : inRange 1 32 lx.toNat = true) (hy : inRange 1 32 ly.toNat = true) (hz : inRange 1 16 lz.toNat = true)
    (hvid : vid.toNat < 4096) :
    exec (.housePodSet p pod lx ly lz vid) s = .next (completed p .done [] [] [] (modHouse (begun p s) fun h =>
      { h with podNumber := pod.toNat, dims := ⟨lx.toNat, ly.toNat, lz.toNat⟩, vid := vid.toNat, podSet := true })) := by
  have hgate : gateOf (.housePodSet p pod lx ly lz vid) (begun p s) q.target = none := by simp [gateOf, hclosed]
  have hargs : (inRange 1 32 lx.toNat && inRange 1 32 ly.toNat && inRange 1 16 lz.toNat && decide (vid.toNat < 4096)) =
      true := by simp [hx, hy, hz, hvid]
  calc exec (.housePodSet p pod lx ly lz vid) s = execHousePodSet p pod lx ly lz vid s := rfl
    _ = _ := congrArg Host.Outcome.next (serve_ready rfl (h.under hgate) hargs)

theorem housePitShare_pends {percent : BitVec 8} (h : Ready true houseGate (.housePitShare p percent) p q s)
    (hlo : 10 ≤ percent.toNat) (hhi : percent.toNat ≤ 92) :
    exec (.housePitShare p percent) s = .next (completed p .done [] [] []
      (modHouse (begun p s) fun h => { h with pendingShare := some percent.toNat })) :=
  calc exec (.housePitShare p percent) s = execHousePitShare p percent s := rfl
    _ = _ := congrArg Host.Outcome.next (serve_ready rfl h ((inRange_eq_true_iff ..).2 ⟨hlo, hhi⟩))

theorem houseDispatch_sets {flags : BitVec 8} (h : Ready true houseGate (.houseDispatch p flags) p q s)
    (hflags : flags.toNat < 2) (hflight : ∀ e ∈ (begun p s).troupes, flight e.2 = none) :
    exec (.houseDispatch p flags) s = .next (completed p .done [] [] []
      (modHouse (begun p s) fun h => { h with adlib := flags.getLsbD 0 })) := by
  have hall : ((begun p s).troupes.all fun e => (flight e.2).isNone) = true :=
    List.all_eq_true.2 fun e he => by simp [hflight e he]
  have hgate : gateOf (.houseDispatch p flags) (begun p s) q.target = none := by simp only [gateOf, hall, if_true]
  calc exec (.houseDispatch p flags) s = execHouseDispatch p flags s := rfl
    _ = _ := congrArg Host.Outcome.next (serve_ready rfl (h.under hgate) (decide_eq_true hflags))

theorem houseBind_binds {first count : BitVec 16} (h : Ready true alwaysGate (.houseBind p first count) p q s)
    (hlo : 1 ≤ count.toNat) (hhi : first.toNat + count.toNat ≤ 65536) :
    exec (.houseBind p first count) s = .next (completed p .done [] [] []
      (modHouse (begun p s) fun h => { h with cores := (first.toNat, count.toNat, q.target) :: h.cores })) := by
  have hargs : (decide (1 ≤ count.toNat) && decide (first.toNat + count.toNat ≤ 65536)) = true := by simp [hlo, hhi]
  calc exec (.houseBind p first count) s = execHouseBind p first count s := rfl
    _ = _ := congrArg Host.Outcome.next (serve_ready rfl h hargs)

/-! ### The house reset (R336) -/

theorem houseReset_due (h : Ready true houseGate (.houseReset p) p q s) :
    exec (.houseReset p) s = .next (completed p .done [] [] []
      (modHouse (begun p s) fun h => { h with resetDue := true })) :=
  calc exec (.houseReset p) s = execHouseReset p s := rfl
    _ = _ := congrArg Host.Outcome.next (serve_ready rfl h rfl)

end Rows

/-! ### The statement -/

/-- Settles O1: one lemma for each row; HOUSE_POD_SET and HOUSE_DISPATCH are let through by the gate that a closed house
and a house without a step in flight open. -/
theorem houseSettingsComplete : Obligations.HouseSettingsComplete := by
  unfold Obligations.HouseSettingsComplete
  refine ⟨?period, ?parent, ?pod, ?share, ?dispatch, ?reset, ?bind⟩
  case period => exact fun _ _ _ _ _ h hlo hhi heff hfit => houseTickSet_pends h hlo hhi heff hfit
  case parent => exact fun _ _ _ _ h hport => houseTickTree_pends h hport
  case pod =>
    exact fun _ _ _ _ _ _ _ _ h hclosed hx hx' hy hy' hz hz' hvid => housePodSet_sets h hclosed
      ((inRange_eq_true_iff ..).2 ⟨hx, hx'⟩) ((inRange_eq_true_iff ..).2 ⟨hy, hy'⟩)
      ((inRange_eq_true_iff ..).2 ⟨hz, hz'⟩) hvid
  case share => exact fun _ _ _ _ h hlo hhi => housePitShare_pends h hlo hhi
  case dispatch => exact fun _ _ _ _ h hflags hflight => houseDispatch_sets h hflags hflight
  case reset => exact fun _ _ _ h => houseReset_due h
  case bind => exact fun _ _ _ _ _ h hlo hhi => houseBind_binds h hlo hhi

end Sys2Proof.Machine
end

section
/-! The port and pit commands of the house (R39, R40, R56, R144, R228, R244, R246, R374, R377): one lemma for each row,
and the statement O2 put together from them. -/

namespace Sys2Proof.Machine

open Sys2Proof

section Rows

variable {p : Post} {q : Posted} {s : State}

/-! ### Ports: the wing partner, the ceiling, the reset (R39, R228, R244, R246) -/

theorem addressOk_eq_true_iff (a : BitVec 64) : addressOk a = true ↔ a.toNat < 2 ^ 48 ∧ a.toNat % 256 = 2 := by
  simp [addressOk]

theorem houseWingSet_expects {port : BitVec 8} {partner : BitVec 64}
    (h : Ready true houseGate (.houseWingSet p port partner) p q s) (hlo : 6 ≤ port.toNat) (hhi : port.toNat ≤ 7)
    (hsmall : partner.toNat < 2 ^ 48) (hform : partner.toNat % 256 = 2) :
    exec (.houseWingSet p port partner) s = .next (completed p .done [] [] [] (modPort (begun p s) port.toNat fun k =>
      { k with expected := some (partner.setWidth 48), verified := false, miswired := false })) := by
  have hargs : (inRange 6 7 port.toNat && addressOk partner) = true := by
    rw [(inRange_eq_true_iff ..).2 ⟨hlo, hhi⟩, (addressOk_eq_true_iff _).2 ⟨hsmall, hform⟩, Bool.and_self]
  calc exec (.houseWingSet p port partner) s = execHouseWingSet p port partner s := rfl
    _ = _ := congrArg Host.Outcome.next (serve_ready rfl h hargs)

theorem housePortSet_pends {port ceiling : BitVec 8} {transit : BitVec 32} {dimDelay : BitVec 16}
    (h : Ready true houseGate (.housePortSet p port ceiling transit dimDelay) p q s) (hport : port.toNat < 8)
    (hlo : 50 ≤ ceiling.toNat) (hhi : ceiling.toNat ≤ 100)
    (hfit : withinLimit (begun p s) ceiling.toNat transit.toNat (portSpans (begun p s) port.toNat none)
      ⟨port.toNat, 0, s.house.tick + 1, 0⟩ = true) :
    exec (.housePortSet p port ceiling transit dimDelay) s = .next (completed p .done [] [] []
      (modPort (begun p s) port.toNat fun k =>
        { k with pendingSet := some (ceiling.toNat, transit.toNat, dimDelay.toNat) })) := by
  have hargs : (decide (port.toNat < 8) && inRange 50 100 ceiling.toNat) = true := by
    rw [decide_eq_true hport, (inRange_eq_true_iff ..).2 ⟨hlo, hhi⟩, Bool.and_self]
  calc exec (.housePortSet p port ceiling transit dimDelay) s =
      execHousePortSet p port ceiling transit dimDelay s := rfl
    _ = _ := congrArg Host.Outcome.next (serve_ready rfl h hargs)
    _ = _ := by simp only [begun_house_tick, hfit, need_true, answer_done]

/-- A port whose link relights from a ck on, with nothing left of what it knew of its partner (R244, R251). -/
def Port.relight (ck : Nat) (k : Port) : Port :=
  { k with
    link := .relighting, relightSince := some ck, darkSince := none, resetting := true
    lossSince := none, verified := false, miswired := false, roundTrip := none, dim := none
    declines := none, woken := false, pauses := [], pausing := [], pfcDue := [], child := false
    replyDue := none, tickTx := none }

theorem housePortReset_deferred {port : BitVec 8} (h : Ready true houseGate (.housePortReset p port) p q s)
    (hport : port.toNat < 8) :
    exec (.housePortReset p port) s = .next (heldBack p q.target q (.portReset port.toNat) []
      (modPort (dropQueues port.toNat 21 (begun p s)) port.toNat (Port.relight (s.house.ck + p.dt)))) :=
  calc exec (.housePortReset p port) s = execHousePortReset p port s := rfl
    _ = _ := congrArg Host.Outcome.next (serve_ready rfl h (decide_eq_true hport))
    _ = _ := by rw [← begun_house_ck]; rfl

/-! ### What a troupe may send: its shapers and its grants (R40, R56) -/

/-- A shaper with a new rate and cap; its debt is kept, and it holds no more than its cap (R56). -/
def Shaper.set (rate cap : Nat) (sh : Shaper) : Shaper :=
  { sh with
    rate := ⟨rate, 0⟩, cap := ⟨cap, 0⟩, found := false
    balance := min sh.balance (cap * 1800 : Nat) }

/-- A troupe with a rate and a cap set at a port, whose shaper is refilled up to then. -/
def Troupe.setShaper (ck port rate cap : Nat) (tr : Troupe) : Troupe :=
  { tr with shapers := tabPut tr.shapers port ((refill (shaperOf tr port) ck).set rate cap) }

theorem houseShaperSet_sets {port : BitVec 8} {rate cap : BitVec 32}
    (h : Ready true alwaysGate (.houseShaperSet p port rate cap) p q s) (hport : port.toNat < 8)
    (hrate : rate.toNat ≤ 200000) (hlo : 8314 ≤ cap.toNat) (hhi : cap.toNat ≤ 67108864) :
    exec (.houseShaperSet p port rate cap) s = .next (completed p .done [] [] []
      (modTroupe (begun p s) q.target (Troupe.setShaper (s.house.ck + p.dt) port.toNat rate.toNat cap.toNat))) := by
  have hargs : (decide (port.toNat < 8) && decide (rate.toNat ≤ 200000) && inRange 8314 67108864 cap.toNat) = true := by
    rw [decide_eq_true hport, decide_eq_true hrate, (inRange_eq_true_iff ..).2 ⟨hlo, hhi⟩, Bool.and_self, Bool.and_self]
  calc exec (.houseShaperSet p port rate cap) s = execHouseShaperSet p port rate cap s := rfl
    _ = _ := congrArg Host.Outcome.next (serve_ready rfl h hargs)
    _ = _ := by rw [← begun_house_ck]; rfl

theorem houseGrant_grants {port : BitVec 8} {grant : BitVec 32}
    (h : Ready true alwaysGate (.houseGrant p port grant) p q s) (hport : port.toNat < 8)
    (hleast : troupeAdmitted (begun p s) (troupe (begun p s) q.target) port.toNat ≤ grant.toNat)
    (hmost : grant.toNat ≤ admissionLimit (portNext (begun p s) port.toNat).1 s.house.period) :
    exec (.houseGrant p port grant) s = .next (completed p .done [] [] []
      (modTroupe (begun p s) q.target fun tr =>
        { tr with grants := tabPut tr.grants port.toNat ⟨grant.toNat, 0⟩ })) := by
  have hfit : (decide (troupeAdmitted (begun p s) (troupe (begun p s) q.target) port.toNat ≤ grant.toNat) &&
      decide (grant.toNat ≤ admissionLimit (portNext (begun p s) port.toNat).1 (begun p s).house.period)) = true := by
    rw [begun_house_period, decide_eq_true hleast, decide_eq_true hmost, Bool.and_self]
  calc exec (.houseGrant p port grant) s = execHouseGrant p port grant s := rfl
    _ = _ := congrArg Host.Outcome.next (serve_ready rfl h (decide_eq_true hport))
    _ = _ := by simp only [hfit, need_true, answer_done]; rfl

/-! ### The pit reset (R144, R374, R377) -/

/-- The block as a pit reset leaves it: the curtain is raised of every step that has a chunk on the pit (R79, log entry
24), the pit's work is abandoned, its lanes are dark and in no rehearsal. -/
def resetPit (pit : Nat) (s : State) : State :=
  let s1 := curtainAll 9 (fun tr => graphOnPit s tr pit) s
  modUnit { s1 with troupes := s1.troupes.map fun e => (e.1, abandonPit s1 pit e.2) } pit fun r =>
    { r with dark := true, stopping := true, testing := none, resetting := true }

/-- The fail with which a return rehearsal of a unit ends for every TEST_RETURN that waits for it (log entry 73). -/
def failedReturns (unit : Nat) (s : State) : List Act :=
  (s.deferred.filter fun d => d.awaits == .testReturn unit).map fun d => .complete d.issuer d.slot .done [(0, [0])]

theorem housePitReset_deferred {pit : BitVec 8} (h : Ready true houseGate (.housePitReset p pit) p q s)
    (hpit : pit.toNat < s.house.pits) :
    exec (.housePitReset p pit) s = .next (heldBack p q.target q (.pitReset pit.toNat) (failedReturns pit.toNat s)
      (resetPit pit.toNat (begun p s))) := by
  have hfail : failedReturns pit.toNat s = ((begun p s).deferred.filter fun d => d.awaits == .testReturn pit.toNat).map
      fun d => Act.complete d.issuer d.slot .done [res 0 1 0] := by rw [begun_deferred]; rfl
  calc exec (.housePitReset p pit) s = execHousePitReset p pit s := rfl
    _ = _ := congrArg Host.Outcome.next (serve_ready rfl h (decide_eq_true hpit))
    _ = _ := by rw [hfail, ← answer_defer]; rfl

end Rows

/-! ### The statement -/

/-- Settles O2: one lemma for each row; both resets are held back, the others complete at once. -/
theorem housePortAndPitCommandsComplete : Obligations.HousePortAndPitCommandsComplete := by
  unfold Obligations.HousePortAndPitCommandsComplete
  refine ⟨?wing, ?port, ?shaper, ?grant, ?portReset, ?pitReset⟩
  case wing => exact fun _ _ _ _ _ h hlo hhi hsmall hform => houseWingSet_expects h hlo hhi hsmall hform
  case port => exact fun _ _ _ _ _ _ _ h hport hlo hhi hfit => housePortSet_pends h hport hlo hhi hfit
  case shaper => exact fun _ _ _ _ _ _ h hport hrate hlo hhi => houseShaperSet_sets h hport hrate hlo hhi
  case grant => exact fun _ _ _ _ _ h hport hleast hmost => houseGrant_grants h hport hleast hmost
  case portReset => exact fun _ _ _ _ h hport => housePortReset_deferred h hport
  case pitReset => exact fun _ _ _ _ h hpit => housePitReset_deferred h hpit

end Sys2Proof.Machine
end

section
/-! The BOOK_ commands (R39, R41, R338, R340): one lemma for each way a row ends, and the statement O4 put together from
them. -/

namespace Sys2Proof.Machine

open Sys2Proof

section Rows

variable {p : Post} {q : Posted} {s : State}

/-! ### BOOK_SET on a port whose link is not dark (R39, R41) -/

/-- The change that a BOOK_SET served at a tick asks for: from the next tick, or from its later start (R41). -/
def askedChange (tick port : Nat) (c : Cls) (bytes : BitVec 32) (start stop : BitVec 64) : BookChange :=
  ⟨port, c, bytes.toNat, start.toNat, stop.toNat, max (tick + 1) start.toNat⟩

/-- A booking that is not suspended with a change behind those due before it, or as the change gives it where there is
none yet (R41). -/
def bookAs (change : BookChange) : Option Booking → Booking
  | none =>
    { port := change.port, cls := change.cls, bytes := ⟨change.bytes, 0⟩, start := change.start, stop := change.stop }
  | some o => { o with changes := insertChange change o.changes }

/-- The changes that a booking waits for already. -/
def waitingChanges (old : Option Booking) : List BookChange := (old.map (·.changes)).getD []

theorem bookSet_args {port cls : BitVec 8} {start stop : BitVec 64} {c : Cls} (hport : port.toNat < 8)
    (hcls : classArg cls = some c) (hspan : stop = 0 ∨ start.toNat < stop.toNat) :
    (decide (port.toNat < 8) && (classArg cls).isSome && (stop == 0 || decide (start.toNat < stop.toNat))) = true := by
  have hspan' : (stop == 0 || decide (start.toNat < stop.toNat)) = true := by simpa using hspan
  rw [decide_eq_true hport, hcls, hspan']
  rfl

/-- A booking that is not suspended, of a troupe on stage, is listed with its change where R39 admits it. -/
theorem bookSet_admitted {booking port cls : BitVec 8} {bytes : BitVec 32} {start stop : BitVec 64} {c : Cls}
    {old : Option Booking} (h : Ready false anyGate (.bookSet p booking port cls bytes start stop) p q s)
    (hport : port.toNat < 8) (hcls : classArg cls = some c) (hspan : stop = 0 ∨ start.toNat < stop.toNat)
    (hlife : (troupe s q.target).life ≠ .intermission) (hlink : (portOf s port.toNat).link ≠ .dark)
    (hold : tabGet (troupe (begun p s) q.target).bookings booking.toNat = old) (hopen : ∀ o ∈ old, o.suspended = false)
    (hfit : admits (begun p s) q.target booking.toNat
      (spanAmong (askedChange s.house.tick port.toNat c bytes start stop) (waitingChanges old)) = true) :
    exec (.bookSet p booking port cls bytes start stop) s = .next (completed p .done [] [] []
      (declineDim port.toNat (modTroupe (begun p s) q.target fun tr => { tr with
        bookings := tabPut tr.bookings booking.toNat
          (bookAs (askedChange s.house.tick port.toNat c bytes start stop) old) }))) := by
  have hlife' : ((troupe (begun p s) q.target).life == .intermission) = false := by simpa using hlife
  have hlink' (f : Troupe → Troupe) :
      ((portOf (modTroupe (begun p s) q.target f) port.toNat).link == .dark) = false := by simpa using hlink
  have hsus : old.any (·.suspended) = false := by
    cases old with
    | none => rfl
    | some o => exact hopen o rfl
  have hkept : ((old.filter fun o => ! o.suspended).map (·.changes)).getD [] = waitingChanges old := by
    cases old with
    | none => rfl
    | some o => simp [waitingChanges, Option.filter, hopen o rfl]
  calc exec (.bookSet p booking port cls bytes start stop) s = execBookSet p booking port cls bytes start stop s := rfl
    _ = _ := congrArg Host.Outcome.next (serve_ready rfl h (bookSet_args hport hcls hspan))
    _ = _ := by
      simp only [hlife', hold, hsus, hkept, hcls, hlink', begun_house_tick, Option.getD_some, Bool.or_self,
        Bool.false_eq_true, if_false]
      simp only [askedChange] at hfit
      rw [need_of hfit, answer_done]
      cases old with
      | none => rfl
      | some o => dsimp only; rw [if_neg (by simp [hopen o rfl])]; rfl

/-! ### BOOK_CLEAR and BOOK_READ (R41, R340) -/

theorem bookClear_removes {booking : BitVec 8} (h : Ready false anyGate (.bookClear p booking) p q s)
    (hlisted : (tabGet (troupe (begun p s) q.target).bookings booking.toNat).isSome = true)
    (hring : ringBound (troupe (begun p s) q.target) booking.toNat = false)
    (hstep : stepNames (troupe (begun p s) q.target) booking.toNat = false) :
    exec (.bookClear p booking) s = .next (completed p .done [] [] []
      (modTroupe (begun p s) q.target fun tr => { tr with bookings := tabDel tr.bookings booking.toNat })) :=
  calc exec (.bookClear p booking) s = execBookClear p booking s := rfl
    _ = _ := congrArg Host.Outcome.next (serve_ready rfl h rfl)
    _ = _ := by simp only [hlisted, hring, hstep, Bool.not_false, Bool.and_self, need_true, answer_done]

theorem bookRead_returns {booking : BitVec 8} {b : Booking} (h : Ready false alwaysGate (.bookRead p booking) p q s)
    (hlisted : tabGet (troupe (begun p s) q.target).bookings booking.toNat = some b) :
    exec (.bookRead p booking) s = .next (completed p .done
      [(0, leBytes 1 booking.toNat), (1, leBytes 1 b.port), (2, leBytes 1 b.cls.code), (3, leBytes 1 (bitOf b.suspended)),
       (4, leBytes 4 b.bytes.val), (8, leBytes 8 b.start), (16, leBytes 8 b.stop), (24, leBytes 8 b.carried)] [] []
      (begun p s)) :=
  calc exec (.bookRead p booking) s = execBookRead p booking s := rfl
    _ = _ := congrArg Host.Outcome.next (serve_ready rfl h rfl)
    _ = _ := by simp only [hlisted]; rfl

end Rows

/-! ### The statement -/

/-- Settles O4: a booking that is new and one that waits for changes are listed by one lemma, what became of the booking
before decides between them. -/
theorem bookCommandsComplete : Obligations.BookCommandsComplete := by
  unfold Obligations.BookCommandsComplete
  refine ⟨?new, ?change, ?clear, ?read⟩
  case new =>
    intro p q s booking port cls bytes start stop c h hport hcls hspan hlife hlink hnew change hfit
    exact bookSet_admitted (old := none) h hport hcls hspan hlife hlink hnew (by simp) hfit
  case change =>
    intro p q s booking port cls bytes start stop c o h hport hcls hspan hlife hlink hold hopen change hfit
    exact bookSet_admitted (old := some o) h hport hcls hspan hlife hlink hold (by simpa using hopen) hfit
  case clear => exact fun _ _ _ _ h hlisted hring hstep => bookClear_removes h hlisted hring hstep
  case read => exact fun _ _ _ _ _ h hlisted => bookRead_returns h hlisted

end Sys2Proof.Machine
end

section
/-! The commands that make and mark a troupe (R43, R173, R315, R317, R340): one lemma for each row, and the statement O7
put together from them. -/

namespace Sys2Proof.Machine

open Sys2Proof

section Rows

variable {p : Post} {q : Posted} {s : State}

/-! ### A new troupe, its mode and its class (R43, R315, R317) -/

theorem troupeCreate_creates {flags : BitVec 8} {bases lens : List (BitVec 64)}
    (h : Ready true (gateOf (.troupeCreate p flags bases lens)) (.troupeCreate p flags bases lens) p q s)
    (hflags : flags.toNat < 4) (hregions : regionsOk s (bases.zip lens) = true) :
    exec (.troupeCreate p flags bases lens) s = .next (completed p .done [] [] []
      (setTroupe (begun p s) q.target
        { bestEffort := flags.getLsbD 0, adlib := flags.getLsbD 1, regions := bases.zip lens })) := by
  have hargs : (decide (flags.toNat < 4) && regionsOk s (bases.zip lens)) = true := by
    rw [decide_eq_true hflags, hregions, Bool.and_self]
  calc exec (.troupeCreate p flags bases lens) s = execTroupeCreate p flags bases lens s := rfl
    _ = _ := congrArg Host.Outcome.next (serve_ready rfl h hargs)

theorem troupeMode_sets {flags : BitVec 8} (h : Ready false quietGate (.troupeMode p flags) p q s)
    (hflags : flags.toNat < 2) :
    exec (.troupeMode p flags) s = .next (completed p .done [] [] []
      (modTroupe (begun p s) q.target fun tr => { tr with adlib := flags == 1 })) :=
  calc exec (.troupeMode p flags) s = execTroupeMode p flags s := rfl
    _ = _ := congrArg Host.Outcome.next (serve_ready rfl h (decide_eq_true hflags))

theorem troupeClass_sets {flags : BitVec 8} (h : Ready true quietGate (.troupeClass p flags) p q s)
    (hflags : flags.toNat < 2) (hunbooked : (troupe (begun p s) q.target).bookings = []) :
    exec (.troupeClass p flags) s = .next (completed p .done [] [] []
      (modTroupe (begun p s) q.target fun tr => { tr with bestEffort := flags == 1 })) :=
  calc exec (.troupeClass p flags) s = execTroupeClass p flags s := rfl
    _ = _ := congrArg Host.Outcome.next (serve_ready rfl h (decide_eq_true hflags))
    _ = _ := by simp only [hunbooked, List.isEmpty_nil, need_true, answer_done]

/-! ### A carousel entry (R173) -/

/-- The members that a list in HBM names, 8 B each. -/
def namedMembers (s : State) (members : BitVec 64) (n : Nat) : List (BitVec 64) :=
  (List.range n).map fun k => BitVec.ofNat 64 (peekWord s (members.toNat + 8 * k) 8)

/-- A troupe with a carousel entry written: its generation is counted, and a bucket that names the entry leaves the
playbill unsealed. -/
def Troupe.putCarousel (entry : Nat) (c : Carousel) (tr : Troupe) : Troupe :=
  { tr with
    carousels := tabPut tr.carousels entry c
    generation := (tr.generation + 1) % 2 ^ 32
    sealed := tr.sealed && ! tr.buckets.any fun e => e.2.carousel == entry }

theorem troupeCarousel_writes {entry count : BitVec 8} {n own : BitVec 16} {lines : List (BitVec 16)}
    {members : BitVec 64} (h : Ready false billGate (.troupeCarousel p entry count n own lines members) p q s)
    (hcount : inRange 1 6 count.toNat = true) (hn : inRange 1 16384 n.toNat = true) (hown : own.toNat < n.toNat)
    (hrest : ∀ l ∈ lines.drop count.toNat, l = 0) (hlines : count.toNat ≤ lines.length) :
    let raw := namedMembers s members n.toNat
    let list : List BlockAddr := raw.map fun a => a.setWidth 48
    let ls := (lines.take count.toNat).map (·.toNat)
    (∀ a ∈ raw, addressOk a = true) → (list.filter (· == memberAddr (begun p s) q.target)).length = 1 →
    list[own.toNat]? = some (memberAddr (begun p s) q.target) →
    (∀ l ∈ ls, suitsCarousel (troupe (begun p s) q.target) list l = true) →
    exec (.troupeCarousel p entry count n own lines members) s = .next (completed p .done [] [] []
      (modTroupe (begun p s) q.target (Troupe.putCarousel entry.toNat
        { members := list, own := own.toNat, count := count.toNat, lines := ls }))) := by
  intro raw list ls haddr honce hplace hsuits
  have hargs : (inRange 1 6 count.toNat && inRange 1 16384 n.toNat && decide (own.toNat < n.toNat) &&
      (lines.drop count.toNat).all (· == 0)) = true := by
    rw [hcount, hn, decide_eq_true hown, List.all_eq_true.2 fun l hl => beq_iff_eq.2 (hrest l hl)]
    rfl
  have hlen : ls.length = count.toNat := by simpa [ls] using hlines
  have hfits : (raw.all addressOk && (list.filter (· == memberAddr (begun p s) q.target)).length == 1 &&
      list[own.toNat]? == some (memberAddr (begun p s) q.target) && ls.length == count.toNat &&
      ls.all (suitsCarousel (troupe (begun p s) q.target) list)) = true := by
    rw [List.all_eq_true.2 haddr, honce, hplace, hlen, List.all_eq_true.2 hsuits]
    simp
  calc exec (.troupeCarousel p entry count n own lines members) s =
      execTroupeCarousel p entry count n own lines members s := rfl
    _ = _ := congrArg Host.Outcome.next (serve_ready rfl h hargs)
    _ = _ := by
      simp only [peekWord_begun]
      exact congrArg (fun v => Host.Outcome.next (answer p q.target q v (begun p s))) (need_of hfits ..)

/-! ### TROUPE_STATE (R340) -/

/-- What TROUPE_STATE returns of a troupe. -/
def lifeResults (t : Nat) (tr : Troupe) : List (Nat × List Byte) :=
  [(0, leBytes 1 tr.life.code), (1, leBytes 1 ((tr.fence.map statusCode).getD 0)), (2, leBytes 1 tr.issuer),
   (3, leBytes 1 (bitOf tr.adlib)), (8, leBytes 8 (Config.cueTable t).toNat), (16, leBytes 4 tr.fenceIndex.toNat)]

theorem lifeResults_begun (p : Post) (s : State) (t : Nat) :
    lifeResults t (troupe (begun p s) t) = lifeResults t (troupe s t) := by
  simp only [lifeResults, begun_life, begun_fence, begun_issuer, begun_adlib, begun_fenceIndex]

theorem troupeState_returns (h : Ready false alwaysGate (.troupeState p) p q s) :
    exec (.troupeState p) s =
      .next (completed p .done (lifeResults q.target (troupe s q.target)) [] [] (begun p s)) :=
  calc exec (.troupeState p) s = execTroupeState p s := rfl
    _ = _ := congrArg Host.Outcome.next (serve_ready rfl h rfl)
    _ = _ := by rw [← lifeResults_begun p]; rfl

end Rows

/-! ### The statement -/

/-- Settles O7: one lemma for each row; a carousel entry is written where the members and the lines it names suit it. -/
theorem troupeRecordsComplete : Obligations.TroupeRecordsComplete := by
  unfold Obligations.TroupeRecordsComplete
  refine ⟨?create, ?mode, ?cls, ?carousel, ?state⟩
  case create => exact fun _ _ _ _ _ _ h hflags hregions => troupeCreate_creates h hflags hregions
  case mode => exact fun _ _ _ _ h hflags => troupeMode_sets h hflags
  case cls => exact fun _ _ _ _ h hflags hunbooked => troupeClass_sets h hflags hunbooked
  case carousel =>
    exact fun _ _ _ _ _ _ _ _ _ h hlo hhi hn hn' hown hrest hlines => troupeCarousel_writes h
      ((inRange_eq_true_iff ..).2 ⟨hlo, hhi⟩) ((inRange_eq_true_iff ..).2 ⟨hn, hn'⟩) hown hrest hlines
  case state => exact fun _ _ _ h => troupeState_returns h

end Sys2Proof.Machine
end

section
/-! Line and spill descriptors (R57, R139, R145–R149, R203, R327): each row under the condition that lets its event
happen, and the statement O29 put together from them. -/

namespace Sys2Proof.Machine

open Sys2Proof

section Rows

variable {dt t : Nat} {s : State}

/-! ### LINE_DESCRIPTOR_TAKE (R57, R203, R327) -/

theorem lineDescriptorTake_takes {n : Nat} {r : Ring} (htakes : takesRings (troupe (passCk dt s) t) = true)
    (hturn : (ringOrder (troupe (passCk dt s) t)).find? (lineRingReady (passCk dt s) (troupe (passCk dt s) t)) =
      some (n, r)) (hwhole : ringWhole r = true) :
    exec (.lineDescriptorTake dt t) s = .next (takeLine t n r (passCk dt s)) :=
  calc exec (.lineDescriptorTake dt t) s = execLineDescriptorTake dt t s := rfl
    _ = _ := by simp only [execLineDescriptorTake, htakes, hturn, hwhole, Bool.not_true,
      Bool.false_eq_true, if_false, if_true]

/-! ### SPILL_CALL_TAKE (R145) -/

/-- The call of the descriptor at the head of a ring, and whether its fields are good. -/
def headSpill (s : State) (n : Nat) (r : Ring) : SpillCall × Bool := readSpill n (headDescriptor s r)

theorem spillCallTake_takes {n : Nat} {r : Ring} (hgoes : spillGoes (passCk dt s) (troupe (passCk dt s) t) = true)
    (hlowest : ∀ e ∈ (passCk dt s).troupes, e.1 < t → spillGoes (passCk dt s) e.2 = false)
    (hring : spillRing (troupe (passCk dt s) t) = some (n, r)) (hwhole : ringWhole r = true)
    (hgood : (headSpill (passCk dt s) n r).2 = true)
    (hcue : descCueOk (troupe (takeDescriptor t n (passCk dt s)) t) (headSpill (passCk dt s) n r).1.cue.toNat = true)
    (hinside : spillInside (troupe (takeDescriptor t n (passCk dt s)) t) (headSpill (passCk dt s) n r).1 = true) :
    exec (.spillCallTake dt t) s = .next (modTroupe (takeDescriptor t n (passCk dt s)) t fun tr =>
      { tr with spills := [(headSpill (passCk dt s) n r).1] }) := by
  have hfirst : ((passCk dt s).troupes.any fun e => decide (e.1 < t) && spillGoes (passCk dt s) e.2) = false := by
    simpa using hlowest
  rw [headSpill] at hgood hcue hinside
  calc exec (.spillCallTake dt t) s = execSpillCallTake dt t s := rfl
    _ = _ := by simp only [execSpillCallTake, hgoes, hfirst, hring, hwhole, hgood, hcue, hinside, Bool.not_true,
      Bool.or_self, Bool.false_eq_true, if_false, headSpill]

/-! ### SPILL_CALL_COMPLETE (R139, R146–R149) -/

/-- The block as a spill call is taken from the front: the bytes of HBM that it moves are spent from its pit's share
(R139). -/
def spillStarted (t : Nat) (c : SpillCall) (rest : List SpillCall) (s : State) : State :=
  let s0 := modTroupe s t fun tr => { tr with spills := rest }
  if c.host then s0 else spendShare (spillPit s0 c) (storedBytes c.format c.count) s0

/-- The end of a spill call without a non-finite value: its completion record, then its cue (R149). -/
def spillEnded (t : Nat) (c : SpillCall) (s : State) : State :=
  let n := storedBytes c.format c.count
  spillDrained t (endDescriptor t c.ring c.compl.toNat (callRecord .done (n % 2 ^ 32) 0 (n / 2 ^ 32)) c.cue s)

/-- What a call that restores writes to the scratchpad of what it stored (R148). -/
def restoredBytes (c : SpillCall) (s : State) : List Byte :=
  spillBack c (peek c.host s c.store.toNat (storedBytes c.format c.count))

section Started

variable (t) (c : SpillCall) (rest : List SpillCall) (s)

theorem spillStarted_hbm : (spillStarted t c rest s).hbm = s.hbm := by
  rw [spillStarted]; split <;> rfl

theorem spillStarted_host : (spillStarted t c rest s).host = s.host := by
  rw [spillStarted]; split <;> rfl

theorem spillStarted_scratch : (spillStarted t c rest s).scratch = s.scratch := by
  rw [spillStarted]; split <;> rfl

theorem restoredBytes_spillStarted : restoredBytes c (spillStarted t c rest s) = restoredBytes c s := by
  simp only [restoredBytes, peek, spillStarted_hbm, spillStarted_host]

theorem spillSource_spillStarted : spillSource (spillStarted t c rest s) c = spillSource s c := by
  simp only [spillSource, spillStarted_scratch]

end Started

theorem restoredBytes_passCk (dt : Nat) (c : SpillCall) (s : State) :
    restoredBytes c (passCk dt s) = restoredBytes c s := by
  simp only [restoredBytes, peek, passCk_hbm, passCk_host]

theorem spillCallComplete_restores {c : SpillCall} {rest : List SpillCall} (hspills : (troupe s t).spills = c :: rest)
    (hrestore : c.restore = true) :
    exec (.spillCallComplete dt t) s = .next (spillEnded t c { spillStarted t c rest (passCk dt s) with
      scratch := memWrite s.scratch c.scratch.toNat (restoredBytes c s) }) := by
  let s1 := spillStarted t c rest (passCk dt s)
  calc exec (.spillCallComplete dt t) s = execSpillCallComplete dt t s := rfl
    _ = .next (spillEnded t c
          { s1 with scratch := memWrite s1.scratch c.scratch.toNat (restoredBytes c s1) }) := by
      simp only [execSpillCallComplete, passCk_spills, hspills, hrestore, if_true]
      rfl
    _ = _ := by rw [restoredBytes_spillStarted, restoredBytes_passCk, spillStarted_scratch, passCk_scratch]

theorem notFinite_nil {vs : List F32} (h : ∀ v ∈ vs, f32Finite v = true) :
    vs.filter execSpillCallComplete.notFiniteValue = [] :=
  List.filter_eq_nil_iff.2 fun v hv => by simp [execSpillCallComplete.notFiniteValue, h v hv]

theorem spillCallComplete_stores {c : SpillCall} {rest : List SpillCall} (hspills : (troupe s t).spills = c :: rest)
    (hstore : c.restore = false) (hplain : c.digest = false) (hfinite : ∀ v ∈ (spillSource s c).1, f32Finite v = true) :
    exec (.spillCallComplete dt t) s = .next (spillEnded t c
      (poke c.host (spillStarted t c rest (passCk dt s)) c.store.toNat (spillOut c (spillSource s c)))) := by
  let s1 := spillStarted t c rest (passCk dt s)
  have hsource : spillSource s1 c = spillSource s c := (spillSource_spillStarted ..).trans (spillSource_passCk ..)
  have hbad : ((spillSource s1 c).1.filter execSpillCallComplete.notFiniteValue).length = 0 := by
    rw [hsource, notFinite_nil hfinite, List.length_nil]
  calc exec (.spillCallComplete dt t) s = execSpillCallComplete dt t s := rfl
    _ = .next (spillEnded t c (poke c.host s1 c.store.toNat (spillOut c (spillSource s1 c)))) := by
      simp only [execSpillCallComplete, passCk_spills, hspills, hstore, hplain, Bool.false_eq_true, if_false]
      simp only [s1, spillStarted] at hbad
      simp only [hbad, if_true]
      rfl
    _ = _ := by rw [hsource]

end Rows

/-! ### The statement -/

/-- Settles O29: one lemma for each way a row ends; a spill call turns on whether it restores. -/
theorem descriptorsComplete : Obligations.DescriptorsComplete := by
  unfold Obligations.DescriptorsComplete
  refine ⟨?line, ?take, ?complete⟩
  case line => exact fun _ _ _ _ _ htakes hturn hwhole => lineDescriptorTake_takes htakes hturn hwhole
  case take =>
    exact fun _ _ _ _ _ hgoes hlowest hring hwhole hgood hcue hinside =>
      spillCallTake_takes hgoes hlowest hring hwhole hgood hcue hinside
  case complete =>
    exact fun _ _ _ _ _ hspills => ⟨fun hrestore => spillCallComplete_restores hspills hrestore,
      fun hstore hplain hfinite => spillCallComplete_stores hspills hstore hplain hfinite⟩

end Sys2Proof.Machine
end

section
/-! Rounds, steps and waits have their times (R52, R243, R257, R258, R299, R330): each row under the condition that lets
its event happen, and the statement O37 put together from them. -/

namespace Sys2Proof.Machine

open Sys2Proof

section Rows

variable {dt t : Nat} {s : State}

/-! ### Rounds (R257, R258) -/

theorem callResend_resends {port c : Nat} {r : Round} (hround : (troupe s t).round = some r)
    (hsent : tabGet r.sent port = some c) (hpast : c + 3600 ≤ s.house.ck + dt) (hport : port ∈ r.ports)
    (hresult : r.result = none) (hfailed : r.failed = false) (hheard : heard r port = none) :
    exec (.callResend dt t port) s = .next (sendCall t port (passCk dt s)) :=
  calc exec (.callResend dt t port) s = execCallResend dt t port s := rfl
    _ = _ := by simp [execCallResend, hround, hsent, hpast, hport, hresult, hfailed, hheard]

theorem roundAbandonLimit_tells (htold : (troupe s t).abandonTold = false) (hlimit : 16 ≤ (troupe s t).abandoned) :
    exec (.roundAbandonLimit dt t) s = .next (record { sub := .updateSequencer, status := .timeout, who := some t }
      (modTroupe (passCk dt s) t fun tr => { tr with abandonTold := true })) :=
  calc exec (.roundAbandonLimit dt t) s = execRoundAbandonLimit dt t s := rfl
    _ = _ := by simp [execRoundAbandonLimit, htold, Nat.not_lt.2 hlimit]

/-! ### The deadline of a step (R52) -/

theorem stepDeadlineMiss_misses {r : StepRec} {c : Nat} (hlast : lastStep (troupe s t) = some r)
    (hcalled : r.state.val = .called) (hfirst : r.missed = false) (hsince : r.calledTick = some c)
    (hpast : c + r.deadline ≤ s.house.tick) (hopen : completionOf (passCk dt s) (troupe s t) r = false) :
    exec (.stepDeadlineMiss dt t) s = .next (record { sub := .stageManager, status := .timeout, who := some t }
      (gauge (curtain (some 10) t (modTroupe (passCk dt s) t fun tr => modLast tr fun r => { r with missed := true }))
        t 0x18 1)) := by
  have hopen' : completionOf (passCk dt s) (troupe (passCk dt s) t) r = false := (completionOf_passCk ..).trans hopen
  calc exec (.stepDeadlineMiss dt t) s = execStepDeadlineMiss dt t s := rfl
    _ = _ := by simp [execStepDeadlineMiss, hlast, hcalled, hfirst, hsince, hpast, hopen']

/-! ### The timeout of a CUE_WAIT (R330) -/

/-- Where only one wait answers to a property, it is the one that is found. -/
theorem find?_eq_some_of_unique {α : Type} {l : List α} {x : α} {f : α → Bool} (hx : x ∈ l) (hf : f x = true)
    (hone : ∀ y ∈ l, f y = true → y = x) : l.find? f = some x := by
  cases hfound : l.find? f with
  | none => exact absurd hf (List.find?_eq_none.1 hfound x hx)
  | some y => rw [hone y (List.mem_of_find?_eq_some hfound) (List.find?_some hfound)]

theorem cueWaitTimeout_ends {issuer slot c n : Nat} {d : Deferred} {q : Cue} {w : Wait}
    (hheld : (s.deferred.find? fun d => d.issuer == issuer && d.slot == slot) = some d) (hwaits : d.awaits = .cueWait c)
    (hcue : tabGet (troupe s d.target).cues c = some q) (hw : w ∈ q.waits) (hissuer : w.issuer = issuer)
    (hslot : w.slot = slot) (hexpires : w.expires = some n) (hpast : n ≤ s.house.tick)
    (hone : ∀ v ∈ q.waits, v.issuer = issuer → v.slot = slot → v = w) :
    exec (.cueWaitTimeout dt issuer slot) s = .next (run (endWait .timeout q.value w)
      (modTroupe (passCk dt s) d.target fun tr => { tr with
        cues := tabPut tr.cues c
          { q with waits := q.waits.filter fun v => ! (v.issuer == issuer && v.slot == slot) } })) := by
  have hfound : (q.waits.find? fun w => w.issuer == issuer && w.slot == slot && w.expires.any (· ≤ s.house.tick)) =
      some w := by
    refine find?_eq_some_of_unique hw (by simp [hissuer, hslot, hexpires, hpast]) fun v hv hyes => ?_
    simp only [Bool.and_eq_true, beq_iff_eq] at hyes
    obtain ⟨⟨hi, hs⟩, -⟩ := hyes
    exact hone v hv hi hs
  calc exec (.cueWaitTimeout dt issuer slot) s = execCueWaitTimeout dt issuer slot s := rfl
    _ = _ := by simp only [execCueWaitTimeout, passCk_deferred, hheld, hwaits, passCk_cues, hcue, passCk_tick, hfound]

/-! ### A draining bank (R243) -/

theorem bankDrainRelease_releases {k at_ : Nat} (hdrains : (sliceOf s k).draining = some at_)
    (hpast : at_ + 16 ≤ s.house.tick) (hgone : drainCount s k = 0) :
    exec (.bankDrainRelease dt k) s = .next (modSlice (passCk dt s) k fun sl => { sl with draining := none }) :=
  calc exec (.bankDrainRelease dt k) s = execBankDrainRelease dt k s := rfl
    _ = _ := by simp [execBankDrainRelease, hdrains, hpast, drainCount_passCk, hgone]

/-! ### A verdict at the principal (R299, R301) -/

/-- The compared step that a verdict names: it is UPDATED, and its number ends as the verdict says. -/
def verdictStep (tr : Troupe) (v : Nat) : Option (Nat × StepRec) :=
  tr.steps.find? fun e => e.1 % 2 ^ 24 == v % 2 ^ 24 && e.2.state.val == .updated && e.1 % max 1 tr.propN == 0

/-- A whole verdict on a compared step is kept for the next tick where it is equal, and else a divergence. -/
theorem verdictArrive_taken {word : BitVec 64} {e : Nat × StepRec} (hwhole : pcWhole word = true)
    (hstep : verdictStep (troupe s t) (pcVal word) = some e) (hcheck : (troupe s t).noCheck = false) :
    exec (.verdictArrive dt t word) s = .next (if bit (pcVal word) 24 then
        modTroupe (passCk dt s) t fun tr => modStep tr e.1 fun r => { r with verdict := some s.house.tick }
      else diverge true t e.1 (bits (pcVal word) 25 3) (passCk dt s)) := by
  calc exec (.verdictArrive dt t word) s = .next (takeVerdict t word (passCk dt s)) := rfl
    _ = _ := by
      simp only [verdictStep] at hstep
      simp only [takeVerdict, hwhole, passCk_steps, passCk_propN, hstep, passCk_noCheck, hcheck, passCk_tick,
        Bool.not_true, Bool.false_eq_true, if_false]

end Rows

/-! ### The statement -/

/-- Settles O37: one lemma for each row; a verdict turns on its equality bit. -/
theorem roundsAndWaitsComplete : Obligations.RoundsAndWaitsComplete := by
  unfold Obligations.RoundsAndWaitsComplete
  refine ⟨?resend, ?abandon, ?deadline, ?wait, ?bank, ?verdict⟩
  case resend =>
    exact fun _ _ _ _ _ _ hround hsent hpast hport hresult hfailed hheard =>
      callResend_resends hround hsent hpast hport hresult hfailed hheard
  case abandon => exact fun _ _ _ htold hlimit => roundAbandonLimit_tells htold hlimit
  case deadline =>
    exact fun _ _ _ _ _ hlast hcalled hfirst hsince hpast hopen =>
      stepDeadlineMiss_misses hlast hcalled hfirst hsince hpast hopen
  case wait =>
    exact fun _ _ _ _ _ _ _ _ _ hheld hwaits hcue hw hissuer hslot hexpires hpast hone =>
      cueWaitTimeout_ends hheld hwaits hcue hw hissuer hslot hexpires hpast hone
  case bank => exact fun _ _ _ _ hdrains hpast hgone => bankDrainRelease_releases hdrains hpast hgone
  case verdict =>
    intro dt t word s e hwhole hstep hcheck
    have htaken := verdictArrive_taken (dt := dt) hwhole hstep hcheck
    exact ⟨fun hequal => htaken.trans (by rw [if_pos hequal]),
      fun hunequal => htaken.trans (by rw [if_neg (by simp [hunequal])])⟩

end Sys2Proof.Machine
end

section
/-! Sending (R44, R49, R231, R232, R245): each row under the condition that lets its event happen, and the statement O39
put together from them. -/

namespace Sys2Proof.Machine

open Sys2Proof

section Rows

variable {dt port : Nat} {s : State}

/-! ### FRAME_SEND and TICK_REPLY (R44, R245) -/

/-- A lit port that carries more than TICK frames and is in no dim handshake sends what comes first. -/
theorem litSend_pick {pick : Pick} (hticks : ticksOnly s port = false) (hdim : (portOf s port).dim = none)
    (hpick : nextPick s port = some pick) : litSend port s = sendPick port pick s := by
  simp only [litSend, hticks, hdim, hpick, Bool.false_eq_true, if_false]

theorem frameSend_sends {pick : Pick} (hfree : (portOf s port).busy ≤ s.house.ck + dt)
    (hlit : (portOf s port).link = .lit) (hwhole : (portOf s port).failed = false)
    (hticks : ticksOnly s port = false) (hdim : (portOf s port).dim = none)
    (hpick : nextPick (passCk dt s) port = some pick) :
    exec (.frameSend dt port) s = .next (sendPick port pick (passCk dt s)) := by
  have hsend : litSend port (passCk dt s) = sendPick port pick (passCk dt s) :=
    litSend_pick ((ticksOnly_passCk ..).trans hticks) (by simpa using hdim) hpick
  calc exec (.frameSend dt port) s = execFrameSend dt port s := rfl
    _ = _ := by simp [execFrameSend, hfree, hlit, hwhole, hsend]

theorem tickReply_sends {c : Nat} (hlit : (portOf s port).link = .lit) (hchild : (portOf s port).child = true)
    (hdue : (portOf s port).replyDue = some c) (hpast : c + 2048 ≤ s.house.ck + dt) :
    exec (.tickReply dt port) s = .next (putOnWire port (tickFrame (passCk dt s) port true)
      (modPort (passCk dt s) port fun q => { q with replyDue := none })) :=
  calc exec (.tickReply dt port) s = execTickReply dt port s := rfl
    _ = _ := by simp [execTickReply, hlit, hchild, hdue, hpast]

/-! ### PAUSE_EXPIRE and PFC_REPEAT (R49, R232) -/

theorem pauseExpire_ends {prio : Nat} {e : Nat × Nat} (hpaused : tabGet (portOf s port).pauses prio = some e)
    (hpast : e.1 ≤ s.house.ck + dt) :
    exec (.pauseExpire dt port prio) s = .next
      (modPort (passCk dt s) port fun q => { q with pauses := tabDel q.pauses prio }) :=
  calc exec (.pauseExpire dt port prio) s = execPauseExpire dt port prio s := rfl
    _ = _ := by simp [execPauseExpire, hpaused, hpast]

theorem pfcRepeat_repeats {prio c : Nat} (hpausing : tabGet (portOf s port).pausing prio = some c)
    (hpast : c + 10 * Config.ckPerUs ≤ s.house.ck + dt) (hfull : 2 ^ 20 ≤ occupancy (portOf s port) prio) :
    exec (.pfcRepeat dt port prio) s = .next (pausePartner port prio (passCk dt s)) := by
  have hdue : (c + 10 * Config.ckPerUs ≤ (passCk dt s).house.ck) = True := by simpa using hpast
  calc exec (.pfcRepeat dt port prio) s = execPfcRepeat dt port prio s := rfl
    _ = _ := by simp only [execPfcRepeat, portOf_passCk, hpausing, Option.any_some, hdue, hfull, decide_true,
      Bool.and_self, if_true]

end Rows

/-! ### The statement -/

/-- Settles O39: one lemma for each row. -/
theorem sendingComplete : Obligations.SendingComplete := by
  unfold Obligations.SendingComplete
  refine ⟨?frame, ?reply, ?pause, ?pfc⟩
  case frame =>
    exact fun _ _ _ _ hfree hlit hwhole hticks hdim hpick => frameSend_sends hfree hlit hwhole hticks hdim hpick
  case reply => exact fun _ _ _ _ hlit hchild hdue hpast => tickReply_sends hlit hchild hdue hpast
  case pause => exact fun _ _ _ _ _ hpaused hpast => pauseExpire_ends hpaused hpast
  case pfc => exact fun _ _ _ _ _ hpausing hpast hfull => pfcRepeat_repeats hpausing hpast hfull

end Sys2Proof.Machine
end

section
/-! Adrift and stalled (R37, R365): each row under the condition that lets its event happen, and the statement O24 put
together from them. -/

namespace Sys2Proof.Machine

open Sys2Proof

theorem adriftEnter_enters {s : State} (dt : Nat) (hin : s.house.adrift = false)
    (hwhy : 16 ≤ s.house.ticksOut ∨ s.house.periodClash = true) :
    exec (.adriftEnter dt) s = .next (record { sub := .portComplex, status := .timeout }
      (modHouse (passCk dt s) fun h => { h with adrift := true, ticksIn := 0 })) :=
  calc exec (.adriftEnter dt) s = execAdriftEnter dt s := rfl
    _ = _ := by simp [execAdriftEnter, hin, hwhy]

theorem adriftClear_clears {s : State} (dt : Nat) (hadrift : s.house.adrift = true) (hin : 16 ≤ s.house.ticksIn) :
    exec (.adriftClear dt) s = .next (modHouse (passCk dt s) fun h =>
      { h with adrift := false, periodClash := false, alignedCk := some (s.house.ck + dt) }) :=
  calc exec (.adriftClear dt) s = execAdriftClear dt s := rfl
    _ = _ := by simp [execAdriftClear, hadrift, hin, modHouse]

theorem prompterStall_stalls {s : State} (dt : Nat) (hup : s.house.fwUp = true) (hgoes : s.house.stalled = false)
    (hsilent : 64 ≤ s.house.silentTicks) :
    exec (.prompterStall dt) s = .next (record { sub := .prompter, status := .timeout }
      (modHouse (passCk dt s) fun h => { h with stalled := true })) :=
  calc exec (.prompterStall dt) s = execPrompterStall dt s := rfl
    _ = _ := by simp [execPrompterStall, hup, hgoes, hsilent]

/-- Settles O24: one lemma for each row. -/
theorem adriftAndStallComplete : Obligations.AdriftAndStallComplete := by
  unfold Obligations.AdriftAndStallComplete
  refine ⟨?enter, ?clear, ?stall⟩
  case enter => exact fun dt _ hin hwhy => adriftEnter_enters dt hin hwhy
  case clear => exact fun dt _ hadrift hin => adriftClear_clears dt hadrift hin
  case stall => exact fun dt _ hup hgoes hsilent => prompterStall_stalls dt hup hgoes hsilent

end Sys2Proof.Machine
end

section
/-! The tick (R34, R37, R245, R336, R360): what the end of the scene leaves of the house, and the statement O40 put
together from it. -/

namespace Sys2Proof.Machine

open Sys2Proof

theorem resetDue_runOut (s : State) : (runOut s).house.resetDue = s.house.resetDue := passCk_house_resetDue _ s

theorem tick_reset {s : State} (hdue : s.house.resetDue = true) : exec .tick s = .next (resetBlock false (runOut s)) :=
  calc exec .tick s = execTick s := rfl
    _ = _ := by rw [execTick, resetDue_runOut, hdue, if_pos rfl]

theorem tick_block {s : State} (hdue : s.house.resetDue = false) : exec .tick s = .next (tickBlock (runOut s)) :=
  calc exec .tick s = execTick s := rfl
    _ = _ := by rw [execTick, resetDue_runOut, hdue, if_neg Bool.false_ne_true]

/-- The scene's end is the ck of the tick, where the counter has not passed it. -/
theorem runOut_ck {s : State} (h : s.house.ck ≤ s.house.sceneStart + s.house.sceneLength) :
    (runOut s).house.ck = s.house.sceneStart + s.house.sceneLength := by
  rw [runOut, passCk_ck]
  omega

theorem tickHouse_ck (h : House) : (tickHouse h).ck = h.ck := by
  simp only [tickHouse]; rw [countDrift_eq]

theorem tickHouse_sceneStart (h : House) : (tickHouse h).sceneStart = (tickHouse h).ck := rfl

theorem tickHouse_tick (h : House) : (tickHouse h).tick = h.takeCounter.getD (h.tick + 1) := by
  simp only [tickHouse]; rw [countDrift_eq]

theorem tickHouse_period (h : House) : (tickHouse h).period =
    if h.pendingPeriod.any (fun e => decide (e.2 ≤ (tickHouse h).tick)) then
      (h.pendingPeriod.map (·.1)).getD h.period else h.period := by
  rw [tickHouse_tick]
  simp only [tickHouse]; rw [countDrift_eq]
  cases hp : h.pendingPeriod with
  | none => rfl
  | some e => by_cases hdue : e.2 ≤ h.takeCounter.getD (h.tick + 1) <;> simp [hdue, Option.filter]

theorem tickHouse_pitShare (h : House) : (tickHouse h).pitShare = h.pendingShare.getD h.pitShare := by
  simp only [tickHouse]; rw [countDrift_eq]

theorem tickHouse_parent (h : House) : (tickHouse h).parent = h.pendingParent.getD h.parent := by
  simp only [tickHouse]; rw [countDrift_eq]

theorem tickHouse_test (h : House) :
    ((tickHouse h).rehearsal, (tickHouse h).slack) = h.pendingTest.getD (h.rehearsal, h.slack) := by
  simp only [tickHouse]; rw [countDrift_eq]

/-- Settles O40: the closing of the scenes leaves the house, so a tick makes of it what `tickHouse` makes of the house
at the end of the scene. -/
theorem tickCompletes : Obligations.TickCompletes := by
  unfold Obligations.TickCompletes
  refine ⟨?reset, ?order, ?house⟩
  case reset => exact fun _ hdue => tick_reset hdue
  case order => exact fun _ hdue => tick_block hdue
  case house =>
    intro s
    dsimp only
    rw [eachTroupe_closeScene_house]
    refine ⟨rfl, ?ck, tickHouse_sceneStart _, ?tick, rfl, ?period, ?share, rfl, ?parent, rfl, ?test, rfl, rfl, rfl⟩
    case ck => exact fun hck => (tickHouse_ck _).trans (runOut_ck hck)
    case tick => simp [tickHouse_tick, runOut]
    case period => rw [tickHouse_period, runOut, passCk_house_pendingPeriod, passCk_house_period]
    case share => simp [tickHouse_pitShare, runOut]
    case parent => simp [tickHouse_parent, runOut]
    case test => simp [tickHouse_test, runOut]

end Sys2Proof.Machine
end

section
/-! The playbill's entries and records (R61, R64, R67, R68, R96, R129, R135, R390): one lemma for each way a row ends, and
the statements O9 and O10 put together from them. -/

namespace Sys2Proof.Machine

open Sys2Proof

section Rows

variable {p : Post} {q : Posted} {s : State}

/-! ### Entries (R61, R64, R67, R135, R390) -/

/-- A troupe with a new playbill, unsealed, that lists entries with empty scale histories (R67, Table 5.5). -/
def Troupe.addEntries (bill : Tab Entry) (es : List Entry) (tr : Troupe) : Troupe :=
  es.foldl (fun tr e => { tr with scale := clearScale tr e.tensor }) { tr with bill := bill, sealed := false }

/-- A playbill with entries listed in it, each under its tensor. -/
def listed (bill : Tab Entry) (es : List Entry) : Tab Entry := es.foldl (fun b e => tabPut b e.tensor e) bill

theorem billAdd_adds {count : BitVec 16} {entries : BitVec 64} {es : List Entry}
    (h : Ready false billGate (.billAdd p count entries) p q s) (hlo : 1 ≤ count.toNat) (hhi : count.toNat ≤ 4096)
    (hread : readEntries (begun p s) q.target entries.toNat count.toNat = some es)
    (hdistinct : (es.map (·.tensor)).Nodup) (hnew : ∀ e ∈ es, tabGet (troupe s q.target).bill e.tensor = none)
    (hpool : poolUsed (begun p s) + es.length ≤ 4194304)
    (hlen : (listed (troupe s q.target).bill es).length ≤ 1048576)
    (hheld : heldElements (listed (troupe s q.target).bill es) ≤ 2 ^ 36) :
    exec (.billAdd p count entries) s = .next (completed p .done [] [] []
      (modTroupe (begun p s) q.target (Troupe.addEntries (listed (troupe s q.target).bill es) es))) := by
  have hfits : ((es.map (·.tensor)).Nodup && es.all (fun e => (tabGet (troupe s q.target).bill e.tensor).isNone)
      && decide (poolUsed (begun p s) + es.length ≤ 4194304)
      && decide ((listed (troupe s q.target).bill es).length ≤ 1048576)
      && decide (heldElements (listed (troupe s q.target).bill es) ≤ 2 ^ 36)) = true := by
    rw [decide_eq_true hdistinct, decide_eq_true hpool, decide_eq_true hlen, decide_eq_true hheld,
      List.all_eq_true.2 fun e he => Option.isNone_iff_eq_none.2 (hnew e he)]
    rfl
  calc exec (.billAdd p count entries) s = execBillAdd p count entries s := rfl
    _ = _ := congrArg Host.Outcome.next (serve_ready rfl h ((inRange_eq_true_iff ..).2 ⟨hlo, hhi⟩))
    _ = _ := by
      simp only [hread, begun_bill]
      exact congrArg (fun v => Host.Outcome.next (answer p q.target q v (begun p s))) (need_of hfits ..)

theorem billSet_sets {count : BitVec 16} {entries : BitVec 64} {es : List Entry}
    (h : Ready false billGate (.billSet p count entries) p q s) (hlo : 1 ≤ count.toNat) (hhi : count.toNat ≤ 4096)
    (hread : readEntries (begun p s) q.target entries.toNat count.toNat = some es)
    (hsame : ∀ e ∈ es, (tabGet (troupe s q.target).bill e.tensor).any (fun o =>
      o.count == e.count && o.bf16 == e.bf16 && o.bucket == e.bucket) = true)
    (htier : (∀ e ∈ es, (tabGet (troupe s q.target).bill e.tensor).any (fun o => o.delayed != e.delayed) = false) ∨
      (troupe s q.target).hostSlots = []) :
    exec (.billSet p count entries) s = .next (completed p .done [] [] []
      (modTroupe (begun p s) q.target fun tr => es.foldl setEntry { tr with sealed := false })) := by
  have hkept : (es.all fun e => (tabGet (troupe (begun p s) q.target).bill e.tensor).any fun o =>
      o.count == e.count && o.bf16 == e.bf16 && o.bucket == e.bucket) = true := by
    rw [begun_bill]; exact List.all_eq_true.2 hsame
  have hmay : (! (es.any fun e => (tabGet (troupe (begun p s) q.target).bill e.tensor).any fun o =>
      o.delayed != e.delayed) || (troupe (begun p s) q.target).hostSlots.isEmpty) = true := by
    rw [begun_bill, begun_hostSlots]
    rcases htier with hstays | hidle
    · rw [List.any_eq_false.2 fun e he => Bool.eq_false_iff.1 (hstays e he)]; rfl
    · rw [hidle]; exact Bool.or_true _
  calc exec (.billSet p count entries) s = execBillSet p count entries s := rfl
    _ = _ := congrArg Host.Outcome.next (serve_ready rfl h ((inRange_eq_true_iff ..).2 ⟨hlo, hhi⟩))
    _ = _ := by simp only [hread, need_of hkept, need_of hmay, answer_done]

/-- The tensor ids that a list in HBM names, 4 B each. -/
def namedTensors (s : State) (ids : BitVec 64) (n : Nat) : List Nat :=
  (List.range n).map fun k => peekWord s (ids.toNat + 4 * k) 4

theorem billRemove_removes {count : BitVec 16} {ids : BitVec 64}
    (h : Ready false billGate (.billRemove p count ids) p q s) (hlo : 1 ≤ count.toNat) (hhi : count.toNat ≤ 4096)
    (hdistinct : (namedTensors s ids count.toNat).Nodup)
    (hlisted : ∀ i ∈ namedTensors s ids count.toNat, (tabGet (troupe s q.target).bill i).isSome = true) :
    exec (.billRemove p count ids) s = .next (completed p .done [] [] []
      (modTroupe (begun p s) q.target fun tr =>
        (namedTensors s ids count.toNat).foldl dropTensor { tr with sealed := false })) := by
  have hfits : ((namedTensors s ids count.toNat).Nodup &&
      (namedTensors s ids count.toNat).all fun i => (tabGet (troupe (begun p s) q.target).bill i).isSome) = true := by
    rw [begun_bill, decide_eq_true hdistinct, List.all_eq_true.2 hlisted]; rfl
  calc exec (.billRemove p count ids) s = execBillRemove p count ids s := rfl
    _ = _ := congrArg Host.Outcome.next (serve_ready rfl h ((inRange_eq_true_iff ..).2 ⟨hlo, hhi⟩))
    _ = _ := by
      simp only [peekWord_begun]
      exact congrArg (fun v => Host.Outcome.next (answer p q.target q v (begun p s))) (need_of hfits ..)

theorem billRead_returns {tensor : BitVec 32} {e : Entry} (h : Ready false alwaysGate (.billRead p tensor) p q s)
    (hentry : tabGet (troupe s q.target).bill tensor.toNat = some e) :
    exec (.billRead p tensor) s = .next (completed p .done [(0, entryBytes q.target e)] [] [] (begun p s)) :=
  calc exec (.billRead p tensor) s = execBillRead p tensor s := rfl
    _ = _ := congrArg Host.Outcome.next (serve_ready rfl h rfl)
    _ = _ := by simp only [begun_bill, hentry, answer_doneWith]

/-! ### Records of buckets, sieves and scales (R68, R96, R129) -/

theorem bucketArgs_ok {cls selection flags : BitVec 8} (hcls : cls.toNat < 2) (hselection : selection.toNat < 3)
    (hflags : flags.toNat < 2) :
    (decide (cls.toNat < 2) && decide (selection.toNat < 3) && decide (flags.toNat < 2)) = true := by
  rw [decide_eq_true hcls, decide_eq_true hselection, decide_eq_true hflags]; rfl

theorem billBucket_puts {bucket : BitVec 16} {cls selection carousel flags : BitVec 8}
    (h : Ready false billGate (.billBucket p bucket cls selection carousel flags) p q s) (hcls : cls.toNat < 2)
    (hselection : selection.toNat < 3) (hflags : flags = 0) :
    exec (.billBucket p bucket cls selection carousel flags) s = .next (completed p .done [] [] []
      (modTroupe (begun p s) q.target fun tr => { tr with
        buckets := tabPut tr.buckets bucket.toNat
          { fclass := cls == 1, selection := selection.toNat, carousel := carousel.toNat }
        sealed := false })) := by
  subst hflags
  calc exec (.billBucket p bucket cls selection carousel 0) s = execBillBucket p bucket cls selection carousel 0 s := rfl
    _ = _ := congrArg Host.Outcome.next (serve_ready rfl h (bucketArgs_ok hcls hselection (by decide)))

theorem billBucket_removes {bucket : BitVec 16} {cls selection carousel flags : BitVec 8}
    (h : Ready false billGate (.billBucket p bucket cls selection carousel flags) p q s) (hcls : cls.toNat < 2)
    (hselection : selection.toNat < 3) (hflags : flags = 1)
    (hlisted : (tabGet (troupe s q.target).buckets bucket.toNat).isSome = true) :
    exec (.billBucket p bucket cls selection carousel flags) s = .next (completed p .done [] [] []
      (modTroupe (begun p s) q.target fun tr => { tr with
        buckets := tabDel tr.buckets bucket.toNat, sieve := tabDel tr.sieve bucket.toNat, sealed := false })) := by
  subst hflags
  calc exec (.billBucket p bucket cls selection carousel 1) s = execBillBucket p bucket cls selection carousel 1 s := rfl
    _ = _ := congrArg Host.Outcome.next (serve_ready rfl h (bucketArgs_ok hcls hselection (by decide)))
    _ = _ := by simp only [begun_buckets, hlisted, need_true]; rfl

theorem billSieve_waits {bucket : BitVec 16} {density crossover : BitVec 32} {effective : BitVec 64} {k : Bucket}
    (h : Ready false anyGate (.billSieve p bucket density crossover effective) p q s) (hlo : 1 ≤ density.toNat)
    (hhi : density.toNat ≤ 65536) (hcross : crossover.toNat ≤ 65536)
    (hbucket : tabGet (troupe s q.target).buckets bucket.toNat = some k) (hclass : k.fclass = false)
    (hlater : (troupe s q.target).opened < effective.toNat) :
    exec (.billSieve p bucket density crossover effective) s = .next (completed p .done [] [] []
      (modTroupe (begun p s) q.target fun tr => { tr with
        sieve := tabPut tr.sieve bucket.toNat ((tabGetD (troupe s q.target).sieve bucket.toNat ({}, none)).1,
          some ({ density := density.toNat, crossover := crossover.toNat }, effective.toNat)) })) := by
  have hargs : (inRange 1 65536 density.toNat && decide (crossover.toNat ≤ 65536)) = true := by
    rw [(inRange_eq_true_iff ..).2 ⟨hlo, hhi⟩, decide_eq_true hcross, Bool.and_self]
  calc exec (.billSieve p bucket density crossover effective) s =
      execBillSieve p bucket density crossover effective s := rfl
    _ = _ := congrArg Host.Outcome.next (serve_ready rfl h hargs)
    _ = _ := by
      simp only [begun_buckets, hbucket, hclass, begun_opened, decide_eq_true hlater, Bool.not_false, need_true,
        answer_done, begun_sieve]

theorem billScale_waits {tensor : BitVec 32} {headroom length : BitVec 8} {returnCount : BitVec 16}
    {effective : BitVec 64} {e : Entry}
    (h : Ready false anyGate (.billScale p tensor headroom length returnCount effective) p q s)
    (hheadroom : headroom.toNat < 8) (hlo : 1 ≤ length.toNat) (hhi : length.toNat ≤ 64)
    (hreturns : returnCount.toNat ≤ 1024) (hentry : tabGet (troupe s q.target).bill tensor.toNat = some e)
    (hclass : (tabGet (troupe s q.target).buckets e.bucket).any (·.fclass) = false)
    (hlater : (troupe s q.target).opened < effective.toNat) :
    exec (.billScale p tensor headroom length returnCount effective) s = .next (completed p .done [] [] []
      (modTroupe (begun p s) q.target fun tr => { tr with
        scale := tabPut tr.scale tensor.toNat { tabGetD (troupe s q.target).scale tensor.toNat {} with
          pending := some ({ headroom := headroom.toNat, length := length.toNat, returns := returnCount.toNat },
            effective.toNat) } })) := by
  have hargs : (decide (headroom.toNat < 8) && inRange 1 64 length.toNat && decide (returnCount.toNat ≤ 1024)) = true := by
    rw [decide_eq_true hheadroom, (inRange_eq_true_iff ..).2 ⟨hlo, hhi⟩, decide_eq_true hreturns]; rfl
  calc exec (.billScale p tensor headroom length returnCount effective) s =
      execBillScale p tensor headroom length returnCount effective s := rfl
    _ = _ := congrArg Host.Outcome.next (serve_ready rfl h hargs)
    _ = _ := by
      simp only [begun_bill, hentry, begun_buckets, hclass, begun_opened, decide_eq_true hlater, Bool.not_false,
        need_true, answer_done, begun_scale]

end Rows

/-! ### The statements -/

/-- Settles O9: one lemma for each row; what the entries and the ids in HBM are judged by, the taking of the command
leaves alone. -/
theorem billEntriesComplete : Obligations.BillEntriesComplete := by
  unfold Obligations.BillEntriesComplete
  refine ⟨?add, ?set, ?remove, ?read⟩
  case add =>
    exact fun _ _ _ _ _ _ h hlo hhi hread hdistinct hnew hpool hlen hheld =>
      billAdd_adds h hlo hhi hread hdistinct hnew hpool hlen hheld
  case set => exact fun _ _ _ _ _ _ h hlo hhi hread hsame htier => billSet_sets h hlo hhi hread hsame htier
  case remove => exact fun _ _ _ _ _ h hlo hhi hdistinct hlisted => billRemove_removes h hlo hhi hdistinct hlisted
  case read => exact fun _ _ _ _ _ h hentry => billRead_returns h hentry

/-- Settles O10: one lemma for each way a row ends. -/
theorem billRecordsComplete : Obligations.BillRecordsComplete := by
  unfold Obligations.BillRecordsComplete
  refine ⟨?bucket, ?sieve, ?scale⟩
  case bucket =>
    exact fun _ _ _ _ _ _ _ _ h hcls hselection => ⟨fun hflags => billBucket_puts h hcls hselection hflags,
      fun hflags hlisted => billBucket_removes h hcls hselection hflags hlisted⟩
  case sieve =>
    exact fun _ _ _ _ _ _ _ _ h hlo hhi hcross hbucket hclass hlater =>
      billSieve_waits h hlo hhi hcross hbucket hclass hlater
  case scale =>
    exact fun _ _ _ _ _ _ _ _ _ h hheadroom hlo hhi hreturns hentry hclass hlater =>
      billScale_waits h hheadroom hlo hhi hreturns hentry hclass hlater

end Sys2Proof.Machine
end

section
/-! Arenas and seals (R65, R66, R69, R72, R95): what the taking of a command leaves of every troupe's arenas, one lemma for
each way a row ends, and the statements O11 and O12 put together from them. -/

namespace Sys2Proof.Machine

open Sys2Proof

/-! ### The entries of a table after an update -/

theorem mem_of_tabGet {α : Type} {t : Tab α} {k : Nat} {v : α} (h : tabGet t k = some v) : (k, v) ∈ t := by
  induction t with
  | nil => simp at h
  | cons x r ih =>
    simp only [tabGet] at h
    split at h
    · next hk => cases h; subst hk; exact List.mem_cons_self ..
    · exact List.mem_cons_of_mem _ (ih h)

theorem mem_tabPut {α : Type} {t : Tab α} {k : Nat} {v : α} {e : Nat × α} (h : e ∈ tabPut t k v) :
    e = (k, v) ∨ e ∈ t := by
  induction t with
  | nil => exact .inl (List.mem_singleton.1 h)
  | cons x r ih =>
    simp only [tabPut] at h
    split at h
    · exact (List.mem_cons.1 h).imp_right (List.mem_cons_of_mem _)
    · split at h
      · exact List.mem_cons.1 h
      · rcases List.mem_cons.1 h with rfl | h
        · exact .inr (List.mem_cons_self ..)
        · exact (ih h).imp_right (List.mem_cons_of_mem _)

/-- Every entry after a change was there before, under its key, changed or not. -/
theorem mem_tabMod {α : Type} {t : Tab α} {k : Nat} {f : α → α} {e : Nat × α} (h : e ∈ tabMod t k f) :
    ∃ o ∈ t, o.1 = e.1 ∧ (e.2 = f o.2 ∨ e.2 = o.2) := by
  unfold tabMod at h
  split at h
  · exact ⟨e, h, rfl, .inr rfl⟩
  · next v hv =>
    rcases mem_tabPut h with rfl | h
    · exact ⟨_, mem_of_tabGet hv, rfl, .inl rfl⟩
    · exact ⟨e, h, rfl, .inr rfl⟩

/-! ### What the taking of a command leaves of every troupe -/

/-- Every troupe once time has passed was there before, and what bookings are no part of is the same in it. -/
theorem mem_troupes_passCk {γ : Type} (g : Troupe → γ) (hg : ∀ tr b, g { tr with bookings := b } = g tr) {dt : Nat}
    {s : State} {e : Nat × Troupe} (h : e ∈ (passCk dt s).troupes) : ∃ o ∈ s.troupes, o.1 = e.1 ∧ g o.2 = g e.2 := by
  unfold passCk at h
  split at h
  · exact ⟨e, h, rfl, rfl⟩
  · dsimp only at h
    split at h
    · exact ⟨e, h, rfl, rfl⟩
    · obtain ⟨o, ho, rfl⟩ := List.mem_map.1 h
      exact ⟨o, ho, rfl, (hg _ _).symm⟩

theorem mem_troupes_begun {γ : Type} (g : Troupe → γ) (hg : ∀ tr b, g { tr with bookings := b } = g tr)
    (hh : ∀ tr k, g { tr with gauges := k } = g tr) {p : Post} {s : State} {e : Nat × Troupe}
    (h : e ∈ (begun p s).troupes) : ∃ o ∈ s.troupes, o.1 = e.1 ∧ g o.2 = g e.2 := by
  obtain ⟨m, hm, hmkey, hme⟩ := mem_tabMod h
  obtain ⟨o, ho, hokey, hom⟩ := mem_troupes_passCk g hg hm
  refine ⟨o, ho, hokey.trans hmkey, hom.trans ?_⟩
  rcases hme with hme | hme
  · exact ((congrArg g hme).trans (hh _ _)).symm
  · exact (congrArg g hme).symm

/-- A troupe that is listed is changed by writing it anew. -/
theorem modTroupe_eq_setTroupe {s : State} {t : Nat} (h : (tabGet s.troupes t).isSome = true) (f : Troupe → Troupe) :
    modTroupe s t f = setTroupe s t (f (troupe s t)) := by
  obtain ⟨tr, htr⟩ := Option.isSome_iff_exists.1 h
  simp only [modTroupe, setTroupe, tabMod, troupe, tabGetD, htr, Option.getD_some]

/-- A troupe that differs from the absent one exists. -/
theorem tabGet_isSome_of_ne_absent {γ : Type} (g : Troupe → γ) {s : State} {t : Nat}
    (h : g (troupe s t) ≠ g absentTroupe) : (tabGet s.troupes t).isSome = true := by
  cases e : tabGet s.troupes t with
  | none => exact absurd (by rw [troupe, tabGetD, e]; rfl) h
  | some _ => rfl

section Rows

variable {p : Post} {q : Posted} {s : State}

/-! ### BILL_ARENA (R72) -/

/-- The arenas of every troupe but the one that a BILL_ARENA names. -/
def otherArenas (s : State) (t arena : Nat) : List Arena :=
  s.troupes.flatMap fun e => (e.2.arenas.filter fun a => ! (e.1 == t && a.1 == arena)).map (·.2)

/-- The slots that an arena gives up where a new one takes its place. -/
def slotsGone (tr : Troupe) (arena : Nat) (new : Arena) : List (BitVec 64) :=
  ((tabGet tr.arenas arena).map arenaSlots |>.getD []).filter fun a => ! (arenaSlots new).contains a

theorem slotsGone_begun (p : Post) (s : State) (t arena : Nat) (new : Arena) :
    slotsGone (troupe (begun p s) t) arena new = slotsGone (troupe s t) arena new := by
  rw [slotsGone, slotsGone, begun_arenas]

theorem mem_otherArenas {t arena : Nat} {a : Arena} (h : a ∈ otherArenas s t arena) :
    ∃ e ∈ s.troupes, ∃ b ∈ e.2.arenas, b.2 = a ∧ ¬ (e.1 = t ∧ b.1 = arena) := by
  obtain ⟨e, he, ha⟩ := List.mem_flatMap.1 h
  obtain ⟨b, hb, rfl⟩ := List.mem_map.1 ha
  obtain ⟨hb, hother⟩ := List.mem_filter.1 hb
  exact ⟨e, he, b, hb, rfl, by simpa [imp_iff_not_or] using hother⟩

/-- A new arena that meets none before a command is taken meets none after it. -/
theorem otherArenas_begun_apart {t arena : Nat} {new : Arena}
    (h : ∀ e ∈ s.troupes, ∀ a ∈ e.2.arenas, (e.1 = t ∧ a.1 = arena) ∨ arenasMeet new a.2 = false) :
    (otherArenas (begun p s) t arena).any (arenasMeet new) = false := by
  refine List.any_eq_false.2 fun a ha => ?_
  obtain ⟨e, he, b, hb, rfl, hother⟩ := mem_otherArenas ha
  obtain ⟨o, ho, hkey, harenas⟩ := mem_troupes_begun Troupe.arenas (fun _ _ => rfl) (fun _ _ => rfl) he
  rcases h o ho b (harenas ▸ hb) with hsame | hapart
  · exact absurd (hkey ▸ hsame) hother
  · rw [hapart]; exact Bool.false_ne_true

/-- A BILL_ARENA whose arguments are in range turns on whether the arena meets another and gives up a slot in use. -/
theorem billArena_served {arena : BitVec 8} {slots : BitVec 16} {base : BitVec 64}
    (h : Ready false billGate (.billArena p arena slots base) p q s) (harena : arena.toNat < 16)
    (hslots : slots.toNat ≤ 4096)
    (hplace : slots = 0 ∨ base.toNat % 65536 = 0 ∧ base.toNat + 65536 * slots.toNat ≤ 2 ^ 48)
    (hapart : slots = 0 ∨
      (otherArenas (begun p s) q.target arena.toNat).any (arenasMeet { base := base, slots := slots.toNat }) = false)
    (hkept : ∀ a ∈ slotsGone (troupe s q.target) arena.toNat { base := base, slots := slots.toNat },
      a ∉ (troupe s q.target).slots) :
    exec (.billArena p arena slots base) s = .next (completed p .done [] [] []
      (modTroupe (begun p s) q.target fun tr => { tr with
        arenas := if slots == 0 then tabDel tr.arenas arena.toNat
          else tabPut tr.arenas arena.toNat { base := base, slots := slots.toNat } })) := by
  have hargs : (decide (arena.toNat < 16) && decide (slots.toNat ≤ 4096) &&
      (slots == 0 || (base.toNat % 65536 == 0 && decide (base.toNat + 65536 * slots.toNat ≤ 2 ^ 48)))) = true := by
    rw [decide_eq_true harena, decide_eq_true hslots]
    simpa using hplace
  have hfree : (slots == 0 || ! (otherArenas (begun p s) q.target arena.toNat).any
      (arenasMeet { base := base, slots := slots.toNat })) = true := by
    rcases hapart with hzero | hapart
    · rw [hzero]; rfl
    · rw [hapart]; exact Bool.or_true _
  have hidle : (! (slotsGone (troupe (begun p s) q.target) arena.toNat { base := base, slots := slots.toNat }).any
      fun a => (troupe (begun p s) q.target).slots.contains a) = true := by
    rw [slotsGone_begun, begun_slots, List.any_eq_false.2 fun a ha => by simpa using hkept a ha]
    rfl
  calc exec (.billArena p arena slots base) s = execBillArena p arena slots base s := rfl
    _ = _ := congrArg Host.Outcome.next (serve_ready rfl h hargs)
    _ = _ := congrArg (fun v => Host.Outcome.next (answer p q.target q v (begun p s)))
      ((need_of hfree ..).trans (need_of hidle ..))

theorem billArena_removes {arena : BitVec 8} {base : BitVec 64}
    (h : Ready false billGate (.billArena p arena 0 base) p q s) (harena : arena.toNat < 16)
    (hkept : ∀ a ∈ slotsGone (troupe s q.target) arena.toNat { base := base, slots := 0 },
      a ∉ (troupe s q.target).slots) :
    exec (.billArena p arena 0 base) s = .next (completed p .done [] [] []
      (modTroupe (begun p s) q.target fun tr => { tr with arenas := tabDel tr.arenas arena.toNat })) :=
  billArena_served h harena (Nat.zero_le _) (.inl rfl) (.inl rfl) hkept

theorem billArena_puts {arena : BitVec 8} {slots : BitVec 16} {base : BitVec 64}
    (h : Ready false billGate (.billArena p arena slots base) p q s) (harena : arena.toNat < 16)
    (hkept : ∀ a ∈ slotsGone (troupe s q.target) arena.toNat { base := base, slots := slots.toNat },
      a ∉ (troupe s q.target).slots)
    (hsome : slots ≠ 0) (hslots : slots.toNat ≤ 4096) (hbase : base.toNat % 65536 = 0)
    (hend : base.toNat + 65536 * slots.toNat ≤ 2 ^ 48)
    (hapart : ∀ e ∈ s.troupes, ∀ a ∈ e.2.arenas, (e.1 = q.target ∧ a.1 = arena.toNat) ∨
      arenasMeet { base := base, slots := slots.toNat } a.2 = false) :
    exec (.billArena p arena slots base) s = .next (completed p .done [] [] []
      (modTroupe (begun p s) q.target fun tr => { tr with
        arenas := tabPut tr.arenas arena.toNat { base := base, slots := slots.toNat } })) := by
  rw [billArena_served h harena hslots (.inr ⟨hbase, hend⟩) (.inr (otherArenas_begun_apart hapart)) hkept]
  simp only [beq_eq_false_iff_ne.2 hsome, Bool.false_eq_true, if_false]

/-! ### BILL_SEAL and the end of its build (R65, R66, R69, R95) -/

theorem billSeal_builds (h : Ready false billGate (.billSeal p) p q s)
    (hok : sealOk s.house.pits (troupe (begun p s) q.target) = true) :
    exec (.billSeal p) s = .next (heldBack p q.target q .sealEnd []
      (modTroupe (begun p s) q.target fun tr => { tr with sealing := true })) :=
  calc exec (.billSeal p) s = execBillSeal p s := rfl
    _ = _ := congrArg Host.Outcome.next (serve_ready rfl h rfl)
    _ = _ := by simp only [begun_house_pits, hok, need_true, answer_defer]

theorem brokenEntries_eq_nil {tr : Troupe} (h : ∀ e ∈ tr.bill, e.2.ident = 0) : brokenEntries tr = [] := by
  rw [brokenEntries, List.filter_eq_nil_iff.2 fun e he => by simp [h e he], List.map_nil]

/-- A seal writes offsets: it breaks no ident. -/
theorem sealed_whole {tr : Troupe} (h : ∀ e ∈ tr.bill, e.2.ident = 0) : ∀ e ∈ (sealed tr).bill, e.2.ident = 0 := by
  intro e he
  obtain ⟨o, ho, rfl⟩ := List.mem_map.1 he
  exact h o ho

theorem sealComplete_seals {dt t : Nat} (hsealing : (troupe s t).sealing = true)
    (hwhole : ∀ e ∈ (troupe s t).bill, e.2.ident = 0) :
    exec (.sealComplete dt t) s = .next (completeDeferred t (· == .sealEnd) .done
      [(0, leBytes 4 (sealed (troupe (passCk dt s) t)).sealNumber)]
      (setTroupe (passCk dt s) t { sealed (troupe (passCk dt s) t) with billBroken := false })) := by
  have hsealing' : (troupe (passCk dt s) t).sealing = true := by rwa [passCk_sealing]
  have hwhole' : ∀ e ∈ (troupe (passCk dt s) t).bill, e.2.ident = 0 := by rwa [passCk_bill]
  have hlisted : (tabGet (passCk dt s).troupes t).isSome = true :=
    tabGet_isSome_of_ne_absent Troupe.sealing (by rw [hsealing']; decide)
  have hset : modTroupe (passCk dt s) t sealed = setTroupe (passCk dt s) t (sealed (troupe (passCk dt s) t)) :=
    modTroupe_eq_setTroupe hlisted sealed
  have hunbroken : (sealed (troupe (passCk dt s) t)).billBroken = false := by
    simp only [sealed, brokenEntries_eq_nil hwhole', List.isEmpty_nil, Bool.not_true]
  calc exec (.sealComplete dt t) s = execSealComplete dt t s := rfl
    _ = .next (completeDeferred t (· == .sealEnd) .done [(0, leBytes 4 (sealed (troupe (passCk dt s) t)).sealNumber)]
          (setTroupe (passCk dt s) t (sealed (troupe (passCk dt s) t)))) := by
      simp only [execSealComplete, hsealing', Bool.not_true, Bool.false_eq_true, if_false, hset,
        troupe_setTroupe_same, brokenEntries_eq_nil (sealed_whole hwhole'), List.foldl_nil, res]
    _ = _ := by rw [← hunbroken]

end Rows

/-! ### The statements -/

/-- Settles O11: what the row is judged by is the slots it gives up and the arenas of all troupes, which the taking of the
command leaves alone. -/
theorem billArenaComplete : Obligations.BillArenaComplete := by
  unfold Obligations.BillArenaComplete
  intro p q s arena slots base h harena new gone hkept
  refine ⟨?removes, ?puts⟩
  case removes => rintro rfl; exact billArena_removes h harena hkept
  case puts => exact fun hsome hslots hbase hend hapart => billArena_puts h harena hkept hsome hslots hbase hend hapart

/-- Settles O12: one lemma for each row; the end of a build without a broken entry writes the troupe sealed. -/
theorem billSealComplete : Obligations.BillSealComplete := by
  unfold Obligations.BillSealComplete
  refine ⟨?build, ?complete⟩
  case build => exact fun _ _ _ h hok => billSeal_builds h hok
  case complete => exact fun _ _ _ hsealing hwhole => sealComplete_seals hsealing hwhole

end Sys2Proof.Machine
end

section
/-! The inlet (R72, R75, R76, R80, R84, R139, Table 3.4): each row under the condition that lets its event happen, and the
statement O26 put together from them. -/

namespace Sys2Proof.Machine

open Sys2Proof

/-! ### Chunks without a non-finite element (R86) -/

theorem notFinite_eq_false {x : F32} (h : f32Finite x = true) : notFinite x = false := by rw [notFinite, h]; rfl

theorem cleaned_of_finite {xs : List F32} (h : ∀ x ∈ xs, f32Finite x = true) : cleaned notFinite xs = xs :=
  (List.map_congr_left fun x hx => if_neg (by rw [notFinite_eq_false (h x hx)]; exact Bool.false_ne_true)).trans
    (List.map_id' xs)

theorem placesOf_of_finite {xs : List F32} (h : ∀ x ∈ xs, f32Finite x = true) : placesOf notFinite xs = [] := by
  have hnone : xs.zipIdx.filter (fun e => notFinite e.1) = [] :=
    List.filter_eq_nil_iff.2 fun e he => by
      rw [notFinite_eq_false (h _ (List.fst_mem_of_mem_zipIdx he))]; exact Bool.false_ne_true
  rw [placesOf, hnone, List.map_nil]

theorem nonFinite_of_finite (t step tensor chunk : Nat) (slot : BitVec 64) {xs : List F32} (s : State)
    (h : ∀ x ∈ xs, f32Finite x = true) : nonFinite t step tensor chunk slot (placesOf notFinite xs) s = s := by
  rw [placesOf_of_finite h]; rfl

section Rows

variable {dt t : Nat} {s : State}

/-! ### EMIT and EMIT_TAKE (R72, R75, R76) -/

theorem coreTroupe_passCk (dt core : Nat) (s : State) :
    coreTroupe (passCk dt s).house core = coreTroupe s.house core := by rw [coreTroupe, coreTroupe, passCk_house_cores]

theorem emit_queues_or_stalls {core : Nat} {desc : List Byte} (hcore : coreTroupe s.house core = t)
    (hlife : (troupe s t).life ≠ .absent) (hgoes : ∀ e ∈ s.house.stalledEmits, e.1 ≠ core) :
    exec (.emit dt core desc) s = .next
      (if (troupe s t).queue.length < 512 then
        modTroupe (passCk dt s) t fun tr => { tr with queue := tr.queue ++ [stamped t desc] }
       else modHouse (passCk dt s) fun h => { h with stalledEmits := h.stalledEmits ++ [(core, t, stamped t desc)] }) := by
  have hmay : ((troupe s t).life == .absent || s.house.stalledEmits.any (fun e => e.1 == core)) = false := by
    rw [beq_eq_false_iff_ne.2 hlife, List.any_eq_false.2 fun e he => by simpa using hgoes e he]; rfl
  calc exec (.emit dt core desc) s = execEmit dt core desc s := rfl
    _ = _ := by
      simp only [execEmit, coreTroupe_passCk, hcore, passCk_life, passCk_house_stalledEmits, passCk_queue, hmay,
        Bool.false_eq_true, if_false]

/-- A descriptor that its tag takes and that passes the checks of Table 3.4 is taken (R76). -/
theorem serveHead_takes {d : List Byte} {r : StepRec} (htag : tagJudge (troupe s t) (field d 12 2) = .taken)
    (hopen : openCalled (troupe s t) = some r) (hgood : descStatus (troupe s t) r d = none) :
    serveHead t d s = takeEmit t r d (modHouse (popQueue t s) fun h => { h with inletTurn := t }) := by
  simp only [serveHead, htag, hopen, hgood]

theorem emitTake_takes {d : List Byte} {rest : List (List Byte)} {r : StepRec}
    (hturn : (inletOrder (passCk dt s)).find? (headReady (passCk dt s)) = some t)
    (hqueue : (troupe s t).queue = d :: rest)
    (htag : tagJudge (troupe (passCk dt s) t) (field d 12 2) = .taken)
    (hopen : openCalled (troupe (passCk dt s) t) = some r) (hgood : descStatus (troupe (passCk dt s) t) r d = none) :
    exec (.emitTake dt) s = .next
      (takeEmit t r d (modHouse (popQueue t (passCk dt s)) fun h => { h with inletTurn := t })) :=
  calc exec (.emitTake dt) s = execEmitTake dt s := rfl
    _ = _ := by simp only [execEmitTake, hturn, passCk_queue, hqueue, serveHead_takes htag hopen hgood]

/-! ### CHUNK_READ and CHUNK_ACCUMULATE (R80, R84, R87) -/

/-- A troupe whose taken chunk k has been read. -/
def Troupe.markRead (k : Taken) (data : List F32) (tr : Troupe) : Troupe :=
  { tr with taken := tr.taken.map fun j => if j == k then { k with read := true, data := data } else j }

theorem chunkRead_reads {k : Taken} {e : Nat × Nat × Nat × Bool} {data : List F32} {r : StepRec}
    (hnext : ((troupe s t).taken.find? fun k =>
      ! k.read && hasShare (passCk dt s) (homePit s.house.pits k.tensor k.chunk)) = some k)
    (hentry : ((graphOfTensor (troupe (passCk dt s) t) k.tensor).bind fun g => g.tensor k.tensor) = some e)
    (hdata : slotElements (passCk dt s) k.slot (chunkLength e.2.1 e.2.2.2 k.chunk) e.2.2.2 = data)
    (hfinite : ∀ x ∈ data, f32Finite x = true) (hstep : stepOf (troupe s t) k.step = some r) (hseveral : r.m ≠ 1) :
    exec (.chunkRead dt t) s = .next
      (releaseSlot t k.slot k.cue (modTroupe (passCk dt s) t (Troupe.markRead k data))) := by
  have hsingle : ((stepOf (troupe (passCk dt s) t) k.step).any fun r => r.m == 1) = false := by
    rw [stepOf] at hstep
    rw [stepOf, passCk_steps, hstep]
    exact beq_eq_false_iff_ne.2 hseveral
  calc exec (.chunkRead dt t) s = execChunkRead dt t s := rfl
    _ = _ := by
      simp only [execChunkRead, passCk_taken, passCk_house_pits, hnext, hentry, hdata, hsingle,
        cleaned_of_finite hfinite, nonFinite_of_finite _ _ _ _ _ _ hfinite, Bool.not_false, Bool.false_eq_true,
        if_true, if_false]
      rfl

@[simp] theorem flight_passCk (dt t : Nat) (s : State) :
    flight (troupe (passCk dt s) t) = flight (troupe s t) := by simp [flight]

/-- A micro-batch that does not complete its chunk is added, and its bytes are spent from the share of the chunk's home
pit. -/
theorem chunkAccumulate_adds {tensor chunk pit : Nat} {c : ChunkRec} {k : Taken} {r : StepRec}
    (hpit : homePit s.house.pits tensor chunk = pit)
    (hnext : ((troupe s t).taken.find? fun k => k.read && k.tensor == tensor && k.chunk == chunk) = some k)
    (hshare : hasShare (passCk dt s) pit = true) (hgoes : pitWaits (passCk dt s) pit = false)
    (hflight : flight (troupe s t) = some r) (hstep : r.num = k.step)
    (hchunk : tabGetD (troupe s t).chunks (chunkKey tensor chunk) {} = c)
    (hfinite : ∀ x ∈ accumulate c k.data, f32Finite x = true) (hmore : c.added + 1 ≠ r.m) :
    exec (.chunkAccumulate dt t tensor chunk) s = .next
      (modTroupe (spendShare pit (addBytes (c.added == 0) false k.data.length)
          (modTroupe (passCk dt s) t fun tr => { tr with taken := tr.taken.erase k })) t fun tr => { tr with
        chunks := tabPut tr.chunks (chunkKey tensor chunk)
          { c with acc := accumulate c k.data, added := c.added + 1 } }) := by
  have hits : (some r).filter (fun r : StepRec => r.num == k.step) = some r := by simp [hstep]
  calc exec (.chunkAccumulate dt t tensor chunk) s = execChunkAccumulate dt t tensor chunk s := rfl
    _ = _ := by
      simp only [execChunkAccumulate, passCk_taken, passCk_house_pits, hnext, hpit, hshare, hgoes, flight_passCk,
        hflight, hits, passCk_chunks, hchunk, cleaned_of_finite hfinite, nonFinite_of_finite _ _ _ _ _ _ hfinite,
        beq_eq_false_iff_ne.2 hmore, if_neg hmore, Bool.not_true, Bool.or_self, Bool.false_and, Bool.false_eq_true,
        if_false]

/-! ### PIT_WINDOW_OPEN (R139, R233) -/

/-- Every frame that waits in a receive buffer for a pit's share goes on, port by port. -/
def drainAll (s1 : State) : State :=
  (s1.ports.map (·.1)).foldl (fun s port =>
    [2, 3, 4].foldl (fun s prio => drainHere port prio (portOf s port).rx.length s) s) s1

theorem pitWindowOpen_opens {pit : Nat} (hpit : pit < s.house.pits) :
    exec (.pitWindowOpen dt pit) s = .next (drainAll (openWindow pit (passCk dt s))) := by
  have hpit' : pit < (passCk dt s).house.pits := by rwa [passCk_house_pits]
  calc exec (.pitWindowOpen dt pit) s = execPitWindowOpen dt pit s := rfl
    _ = _ := by rw [execPitWindowOpen, if_pos hpit']; rfl

/-- A pit's window opens with the whole allowance of the house's share but for what is owed (R139, log entry 93). -/
theorem openWindow_passCk (dt pit : Nat) (s : State) :
    openWindow pit (passCk dt s) = modHouse (passCk dt s) fun h => { h with
      allowance := tabPut h.allowance pit (s.house.pitShare * 20000 - tabGetD h.owed pit 0)
      owed := tabPut h.owed pit (tabGetD h.owed pit 0 - s.house.pitShare * 20000) } := by
  simp only [openWindow, windowBytes, modHouse, passCk_house_pitShare]

end Rows

/-! ### The statement -/

/-- Settles O26: one lemma for each row; a chunk whose elements are finite is read and added as it is. -/
theorem intakeComplete : Obligations.IntakeComplete := by
  unfold Obligations.IntakeComplete
  refine ⟨?emit, ?take, ?read, ?add, ?window⟩
  case emit => exact fun _ _ _ _ hlife hgoes => emit_queues_or_stalls rfl hlife hgoes
  case take => exact fun _ _ _ _ _ _ hturn hqueue htag hopen hgood => emitTake_takes hturn hqueue htag hopen hgood
  case read =>
    exact fun _ _ _ _ _ _ hnext hentry hfinite hstep hseveral => chunkRead_reads hnext hentry rfl hfinite hstep hseveral
  case add =>
    exact fun _ _ _ _ _ _ _ hnext hshare hgoes hflight hstep hfinite hmore =>
      chunkAccumulate_adds rfl hnext hshare hgoes hflight hstep rfl hfinite hmore
  case window =>
    intro dt pit s hpit s1
    rw [pitWindowOpen_opens hpit, openWindow_passCk]
    rfl

end Sys2Proof.Machine
end

section
/-! The quantisation pass (R63, R97–R102, R125–R128, R143) and the packing of items (R46, R168, R177, R178): what a whole
word leaves to its use, each row under the condition that lets its event happen, and the statement O27 put together from
them. -/

namespace Sys2Proof.Machine

open Sys2Proof

section Rows

variable {dt t b : Nat} {s : State}

/-! ### Uses of whole words (R63, R125, R143) -/

theorem useBank_of_whole (h : (troupe s t).bank.flaw = 0) : useBank t s = s := by
  have hwhole : whole (troupe s t).bank = true := beq_iff_eq.2 h
  rw [useBank, hwhole, Bool.true_or, if_pos rfl]

theorem useEntry_of_whole {finder : Subsystem} {tensor : Nat}
    (h : ∀ x, tabGet (troupe s t).bill tensor = some x → x.ident = 0) : useEntry finder t tensor s = s := by
  rw [useEntry]
  cases hx : tabGet (troupe s t).bill tensor with
  | none => rfl
  | some x => exact if_pos (beq_iff_eq.2 (h x hx))

theorem foldl_useEntry_of_whole {finder : Subsystem} {tensors : List (Nat × Nat × Nat × Bool)}
    (h : ∀ e ∈ tensors, ∀ x, tabGet (troupe s t).bill e.1 = some x → x.ident = 0) :
    tensors.foldl (fun s e => useEntry finder t e.1 s) s = s :=
  List.foldlRecOn (motive := (· = s)) tensors _ rfl fun _ hs e he => by rw [hs, useEntry_of_whole (h e he)]

theorem useScaleWord_of_whole {g : Graph} {k : Nat}
    (h : (tabGetD (workOf (troupe s t) b).words k ⟨0, 0⟩).flaw = 0) : useScaleWord t b g k s = s := by
  rw [useScaleWord, whole, h, beq_self_eq_true, if_pos rfl]

theorem foldl_useScaleWord_of_whole {g : Graph} {n : Nat}
    (h : ∀ k < n, (tabGetD (workOf (troupe s t) b).words k ⟨0, 0⟩).flaw = 0) :
    (List.range n).foldl (fun s k => useScaleWord t b g k s) s = s :=
  List.foldlRecOn (motive := (· = s)) (List.range n) _ rfl fun _ hs k hk => by
    rw [hs, useScaleWord_of_whole (h k (List.mem_range.1 hk))]

/-! ### QUANT_PASS_START (R97, R100, R126) -/

theorem quantPassStart_starts {c : Choice} (hready : passReady (passCk dt s) t b = true)
    (hbank : (troupe (passCk dt s) t).bank.flaw = 0)
    (hentries : ∀ e ∈ (graphAt (troupe (passCk dt s) t) b).tensors,
      ∀ x, tabGet (troupe (passCk dt s) t).bill e.1 = some x → x.ident = 0)
    (hchoice : bucketChoice (troupe (passCk dt s) t) b = c) :
    exec (.quantPassStart dt t b) s = .next
      (modWork (modTroupe (passCk dt s) t fun tr => modLast tr fun r => r.phase 2 fun p => p.start (passCk dt s)) t b
        fun w => { w with
          pass := .running, choice := some c
          buffer := if c.sparse then freeBuffer (troupe (passCk dt s) t) else none }) :=
  calc exec (.quantPassStart dt t b) s = execQuantPassStart dt t b s := rfl
    _ = _ := by
      simp only [execQuantPassStart, hready, useBank_of_whole hbank, foldl_useEntry_of_whole hentries, hchoice,
        Bool.not_true, Bool.false_eq_true, if_false]

/-! ### QUANT_PASS_END (R92, R93, R98, R99, R101, R102) -/

/-- What the pass over bucket b by choice c makes, and the house with the draws it took (R127, R128, R177). -/
def passMade (s : State) (t b : Nat) (c : Choice) (r : StepRec) : PassOut × House :=
  let tr := troupe s t
  let g := graphAt tr b
  let vals := bucketValues s tr g
  (passOrder tr g).foldl (fun o k => passBlock tr g (workOf tr b) c r k (vals.getD k []) o) (({} : PassOut), s.house)

/-- The bucket's values, element by element. -/
def passValues (s : State) (t b : Nat) : List F32 :=
  (bucketValues s (troupe s t) (graphAt (troupe s t) b)).flatMap id

/-- The block after the pass over bucket b: its share is spent, its residuals stand in the other bank, and its blocks, its
histogram and its history bytes are given (R92, R93, R99, R139). -/
def afterPass (s : State) (t b : Nat) (c : Choice) (r : StepRec) : State :=
  let tr := troupe s t
  let g := graphAt tr b
  let w := workOf tr b
  let out := passMade s t b c r
  let hist := (List.range bins).map fun j =>
    ((passValues s t b).filter fun v => magBin v == j).length / 2 ^ histShift g.padded
  let bytes := (g.tensors.filter fun e => usesHistory tr e.1).map fun e =>
    ((List.range (tensorBlocks e).2).map fun k => w.locals.getD ((tensorBlocks e).1 + k) 0).foldl max 0
  modWork (modTroupe (spendPass (r.m == 1) out.1.quant g.chunkList { s with house := out.2 }) t fun tr =>
      g.chunkList.foldl (fun tr k => storeChunk tr out.1.res k) tr) t b fun w => { w with
    quant := out.1.quant, band := out.1.band, hist := hist
    histVec := w.histVec.give (g.own tr) (hist.map Int.ofNat)
    byteVec := w.byteVec.give (g.own tr) (bytes.map Int.ofNat) }

/-- What T_local leaves for the band when all above the boundary bin is sent (R98). -/
def passQuota (s : State) (t b : Nat) (c : Choice) : Nat :=
  localQuota (graphAt (troupe s t) b).padded (sieveRec (troupe s t) b).density -
    ((passValues s t b).filter fun v => c.edge < magBin v).length

/-- The end of a pass that left a band of some size: κ is fixed at once, or the band waits for its cut in a buffer of that
pit, or, too large for one, for a re-read (R98, R101, R102). -/
def startCut (t b : Nat) (c : Choice) (quota size pit : Nat) (s : State) : State :=
  let filled := spendShare pit (8 * size) s
  let lo := c.edge * 2 ^ 51
  let hi := (c.edge + 1) * 2 ^ 51
  if c.sparse = false then endPass t b 0 s
  else if c.banded = false then endPass t b (2 ^ 51) s
  else if 2 ^ 20 < size then modWork s t b fun w => { w with pass := .reread, cut := some (lo, hi, quota, 1) }
  else if quota = 0 then endPass t b hi filled
  else if size ≤ quota then endPass t b lo filled
  else modWork filled t b fun w => { w with pass := .band, cut := some (lo, hi, quota, 1) }

theorem quantPassEnd_ends {r : StepRec} {c : Choice} (hopen : openCalled (troupe (passCk dt s) t) = some r)
    (hruns : (workOf (troupe (passCk dt s) t) b).pass = .running)
    (hstep : r.num = (troupe (passCk dt s) t).workStep)
    (hchoice : (workOf (troupe (passCk dt s) t) b).choice = some c)
    (hwords : ∀ k < cdiv (graphAt (troupe (passCk dt s) t) b).blocks 4,
      (tabGetD (workOf (troupe (passCk dt s) t) b).words k ⟨0, 0⟩).flaw = 0) :
    exec (.quantPassEnd dt t b) s = .next
      (startCut t b c (passQuota (passCk dt s) t b c) (passMade (passCk dt s) t b c r).1.band.length
        (bufferPit (afterPass (passCk dt s) t b c r).house.pits (workOf (troupe (passCk dt s) t) b).buffer)
        (afterPass (passCk dt s) t b c r)) := by
  have hruns' : ((workOf (troupe (passCk dt s) t) b).pass == .running && r.num == (troupe (passCk dt s) t).workStep) =
      true := by rw [hruns, hstep, beq_self_eq_true, beq_self_eq_true, Bool.true_and]
  calc exec (.quantPassEnd dt t b) s = execQuantPassEnd dt t b s := rfl
    _ = _ := by
      simp only [execQuantPassEnd, hopen, Option.filter_some, hruns', if_true, foldl_useScaleWord_of_whole hwords,
        hchoice, Option.getD_some, Bool.not_eq_true', startCut, passQuota, passMade, passValues, afterPass, List.map_map,
        Function.comp_def]

/-! ### BAND_CUT and BAND_REREAD (R98, R101, R102) -/

theorem bandCut_cuts {w : BWork} {cut : Nat × Nat × Nat × Nat} (hwork : workOf (troupe (passCk dt s) t) b = w)
    (hband : w.pass = .band) (hcut : w.cut = some cut)
    (hshare : hasShare (passCk dt s) (bufferPit (passCk dt s).house.pits w.buffer) = true) :
    exec (.bandCut dt t b) s = .next (endPass t b ((bandKeys w.band cut.1 cut.2.1).getD (cut.2.2.1 - 1) 0)
      (spendShare (bufferPit (passCk dt s).house.pits w.buffer)
        (cutBytes (if liveNetworks (passCk dt s) = 0 then 1 else 1024) w.band 6 cut) (passCk dt s))) :=
  calc exec (.bandCut dt t b) s = execBandCut dt t b s := rfl
    _ = _ := by
      simp only [execBandCut, hwork, hband, hcut, hshare, Bool.not_true, Bool.false_eq_true, if_false]

/-- The block after one re-read of a bucket's values, before its outcome (R102). -/
def afterReread (s : State) (t b : Nat) : State :=
  gauge (spendChunks (passBytes ((lastStep (troupe s t)).any (·.m == 1))) (graphAt (troupe s t) b).chunkList s) t 0x118 1

/-- What a re-read makes of a cut: all of the band or none of it is sent, or the band is narrowed by one radix level, and
waits for its cut once it fits a buffer (R101, R102). -/
def narrow (t b : Nat) (w : BWork) (cut : Nat × Nat × Nat × Nat) (s : State) : State :=
  let next := radixLevel w.band cut
  let left := (bandKeys w.band next.1 next.2.1).length
  if cut.2.2.1 = 0 then endPass t b cut.2.1 s
  else if cut.2.2.2 = 1 ∧ w.band.length ≤ cut.2.2.1 then endPass t b cut.1 s
  else if left ≤ 2 ^ 20 then modWork (spendShare (bufferPit s.house.pits w.buffer) (8 * left) s) t b fun w =>
    { w with cut := some next, pass := .band }
  else modWork s t b fun w => { w with cut := some next }

theorem bandReread_narrows {w : BWork} {cut : Nat × Nat × Nat × Nat} (hwork : workOf (troupe (passCk dt s) t) b = w)
    (hreread : w.pass = .reread) (hcut : w.cut = some cut)
    (hpits : pitsReady (passCk dt s) (graphAt (troupe (passCk dt s) t) b).chunkList = true) :
    exec (.bandReread dt t b) s = .next (narrow t b w cut (afterReread (passCk dt s) t b)) :=
  calc exec (.bandReread dt t b) s = execBandReread dt t b s := rfl
    _ = _ := by
      simp only [execBandReread, hwork, hreread, hcut, hpits, Bool.not_true, Bool.false_eq_true, if_false,
        Bool.and_eq_true, decide_eq_true_eq, narrow, afterReread]

/-! ### PACK_ITEM (R46, R178, log entry 90) -/

theorem packItem_packs_first {pick : Nat} {i : Item} {rest : List Item} (hgoes : packerWaits (passCk dt s) = false)
    (hscripted : stepScripted (troupe (passCk dt s) t) = true)
    (hitems : openItems (troupe (passCk dt s) t) = i :: rest)
    (hready : itemReady (troupe (passCk dt s) t) i = true) :
    exec (.packItem dt t pick) s = .next (packItem t i 0 (passCk dt s)) :=
  calc exec (.packItem dt t pick) s = execPackItem dt t pick s := rfl
    _ = _ := by simp only [execPackItem, hgoes, hscripted, hitems, hready, Bool.false_eq_true, if_false, if_true]

theorem packItem_packs_picked {pick : Nat} {i : Item} {ready : List Item} (hgoes : packerWaits (passCk dt s) = false)
    (hadlib : stepScripted (troupe (passCk dt s) t) = false)
    (hready : (openItems (troupe (passCk dt s) t)).filter (itemReady (troupe (passCk dt s) t)) = ready)
    (hpick : ready[pick % max 1 ready.length]? = some i) :
    exec (.packItem dt t pick) s = .next (packItem t i (pick / max 1 ready.length) (passCk dt s)) :=
  calc exec (.packItem dt t pick) s = execPackItem dt t pick s := rfl
    _ = _ := by simp only [execPackItem, hgoes, hadlib, hready, hpick, Bool.false_eq_true, if_false]

end Rows

/-! ### The statement -/

/-- Settles O27: one lemma for each way a row goes; over whole words a pass uses nothing that is broken, so that it leaves
what its choice makes of the bucket's values. -/
theorem quantisationComplete : Obligations.QuantisationComplete := by
  unfold Obligations.QuantisationComplete
  refine ⟨?start, ?passEnd, ?cut, ?reread, ?first, ?picked, ?item⟩
  case start => exact fun _ _ _ _ hready hbank hentries => quantPassStart_starts hready hbank hentries rfl
  case passEnd =>
    exact fun _ _ _ _ _ _ hopen hruns hstep hchoice hwords => quantPassEnd_ends hopen hruns hstep hchoice hwords
  case cut => exact fun _ _ _ _ _ hband hcut hshare => bandCut_cuts rfl hband hcut hshare
  case reread => exact fun _ _ _ _ _ hreread hcut hpits => bandReread_narrows rfl hreread hcut hpits
  case first => exact fun _ _ _ _ _ _ hgoes hscripted hitems hready => packItem_packs_first hgoes hscripted hitems hready
  case picked => exact fun _ _ _ _ _ hgoes hadlib hpick => packItem_packs_picked hgoes hadlib rfl hpick
  case item => exact fun _ _ _ _ => rfl

end Sys2Proof.Machine
end

section
/-! Unique-and-count calls (R110, R112–R116): each row under the condition that lets its event happen, and the statement
O28 put together from them. -/

namespace Sys2Proof.Machine

open Sys2Proof

section Rows

variable {dt t : Nat} {s : State}

@[simp] theorem activeCall_passCk (dt t : Nat) (s : State) :
    activeCall (troupe (passCk dt s) t) = activeCall (troupe s t) := by simp [activeCall]

@[simp] theorem carouselOf_passCk (dt t e : Nat) (s : State) :
    carouselOf (troupe (passCk dt s) t) e = carouselOf (troupe s t) e := by simp [carouselOf]

/-! ### SIEVE_CALL_TAKE (R112, R116) -/

/-- A good local call that no step binds, at the head of the first ring that holds one, is taken where the sieve has a live
network. -/
theorem sieveCallTake_takes_local {n : Nat} {r : Ring} {c : SieveCall × Bool}
    (hwaits : sieveWaits (troupe (passCk dt s) t) = true)
    (hlowest : ∀ e ∈ (passCk dt s).troupes, e.1 < t → sieveWaits e.2 = false)
    (hring : ((troupe s t).rings.find? fun e => ringReady 2 e.2) = some (n, r)) (hwhole : ringWhole r = true)
    (hcall : readSieve (passCk dt s) t n (headDescriptor (passCk dt s) r) = c) (hgood : c.2 = true)
    (hlocal : c.1.kind = 1) (hfree : c.1.bound = false) (hlive : liveNetworks (takeDescriptor t n (passCk dt s)) ≠ 0) :
    exec (.sieveCallTake dt t) s = .next (modTroupe (takeDescriptor t n (passCk dt s)) t fun tr =>
      { tr with sieveCalls := c.1 :: tr.sieveCalls }) := by
  have hfirst : ((passCk dt s).troupes.any fun e => decide (e.1 < t) && sieveWaits e.2) = false := by
    simpa using hlowest
  calc exec (.sieveCallTake dt t) s = execSieveCallTake dt t s := rfl
    _ = _ := by
      simp only [execSieveCallTake, hwaits, hfirst, passCk_rings, hring, hwhole, hcall, hgood, hfree, decide_eq_false hlive,
        if_pos hlocal, Bool.not_true, Bool.false_and, Bool.or_self, Bool.false_eq_true, if_false]

/-! ### SIEVE_CALL_COMPLETE and SIEVE_CALL_TIMEOUT (R110, R114, R115) -/

theorem sieveCallComplete_ends_local {c : SieveCall} (hcall : activeCall (troupe s t) = some c) (hlocal : c.kind = 1) :
    exec (.sieveCallComplete dt t) s = .next (endDescriptor t c.ring c.compl.toNat
      (callRecord .done (uniqueCounts (callKeys (passCk dt s) c)).length 0 0) c.cue
      (dropCall (localCall c (passCk dt s)) t c)) :=
  calc exec (.sieveCallComplete dt t) s = execSieveCallComplete dt t s := rfl
    _ = _ := by simp only [execSieveCallComplete, activeCall_passCk, hcall, if_pos hlocal]

theorem sieveCallTimeout_ends {c : SieveCall} (hcall : activeCall (troupe s t) = some c) (hcarousel : c.kind = 2)
    (hpast : c.issued + 4096 ≤ s.house.tick) (hopen : c.status = none)
    (hmissing : (List.range (carouselOf (troupe s t) c.carousel).members.length).all c.returned.contains = false) :
    exec (.sieveCallTimeout dt t) s = .next (callCurtain t c (endDescriptor t c.ring c.compl.toNat
      (callRecord .timeout 0 0 0) c.cue (dropCall (passCk dt s) t c))) := by
  have hkind : (c.kind != 2) = false := by rw [hcarousel]; rfl
  calc exec (.sieveCallTimeout dt t) s = execSieveCallTimeout dt t s := rfl
    _ = _ := by
      simp only [execSieveCallTimeout, activeCall_passCk, hcall, carouselOf_passCk, passCk_tick, hkind,
        decide_eq_false (Nat.not_lt.2 hpast), hopen, hmissing, Option.isSome_none, Bool.or_self, Bool.false_eq_true,
        if_false]

end Rows

/-! ### The statement -/

/-- Settles O28: one lemma for each row. -/
theorem sieveCallsComplete : Obligations.SieveCallsComplete := by
  unfold Obligations.SieveCallsComplete
  refine ⟨?take, ?complete, ?timeout⟩
  case take =>
    exact fun _ _ _ _ _ hwaits hlowest hring hwhole hgood hlocal hfree hlive =>
      sieveCallTake_takes_local hwaits hlowest hring hwhole rfl hgood hlocal hfree hlive
  case complete => exact fun _ _ _ _ hcall hlocal => sieveCallComplete_ends_local hcall hlocal
  case timeout =>
    exact fun _ _ _ _ hcall hcarousel hpast hopen hmissing =>
      sieveCallTimeout_ends hcall hcarousel hpast hopen hmissing

end Sys2Proof.Machine
end

section
/-! Quantising elements (R122, R127, R309, R311): the value and the residual of one element, the pass over a block in
scripted mode, the digests and the pulled residuals, and the statement O57 put together from them. -/

namespace Sys2Proof.Machine

open Sys2Proof

/-! ### The nearest integer (R127) -/

/-- q is a nearest integer to num/den, the even one of two that are as near. -/
def NearestEven (q num : Int) (den : Nat) : Prop :=
  2 * (num - q * den).natAbs ≤ den ∧ (2 * (num - q * den).natAbs = den → q % 2 = 0)

theorem NearestEven.neg {q num : Int} {den : Nat} (h : NearestEven q num den) : NearestEven (-q) (-num) den := by
  have hdist : (-num - -q * den).natAbs = (num - q * den).natAbs := by rw [← Int.natAbs_neg]; ring_nf
  have heven : (-q) % 2 = 0 ↔ q % 2 = 0 := by omega
  rwa [NearestEven, hdist, heven]

/-- What is nearest to a fraction within ±c lies within ±c. -/
theorem NearestEven.natAbs_le {q num : Int} {den c : Nat} (h : NearestEven q num den) (hden : 0 < den)
    (hnum : num.natAbs ≤ c * den) : q.natAbs ≤ c := by
  by_contra hq
  have hfar : (c + 1) * den ≤ (q * den).natAbs := by
    rw [Int.natAbs_mul, Int.natAbs_natCast]
    exact Nat.mul_le_mul_right den (by omega)
  rw [Nat.succ_mul] at hfar
  have hnear := h.1
  omega

theorem rneDiv_nearestEven (num : Nat) {den : Nat} (hden : 0 < den) : NearestEven (rneDiv num den) num den := by
  have hsplit : (num : Int) = (num / den : Nat) * (den : Int) + (num % den : Nat) := by
    exact_mod_cast (Nat.div_add_mod' num den).symm
  have hrest := Nat.mod_lt num hden
  have hdown : (num : Int) - (num / den : Nat) * (den : Int) = (num % den : Nat) := by omega
  have hup : (num : Int) - ((num / den + 1 : Nat) : Int) * den = (num % den : Nat) - (den : Int) := by
    rw [Nat.cast_succ, add_mul]; omega
  simp only [rneDiv]
  split_ifs
  case pos => rw [NearestEven, hdown]; omega
  case pos => rw [NearestEven, hup]; omega
  case pos => rw [NearestEven, hdown]; omega
  case neg => rw [NearestEven, hup]; omega

theorem pow2_pos (e : Int) : 0 < pow2 e := Nat.two_pow_pos _

theorem roundHalfEven_nearestEven (d : Dy) :
    NearestEven (roundHalfEven d) (d.num * pow2 d.exp) (pow2 (-d.exp)) := by
  have hround := rneDiv_nearestEven (d.num.natAbs * pow2 d.exp) (pow2_pos (-d.exp))
  rw [Nat.cast_mul] at hround
  simp only [roundHalfEven]
  split_ifs with hneg
  · have hnum : d.num * pow2 d.exp = -((d.num.natAbs : Int) * pow2 d.exp) := by
      rw [Int.ofNat_natAbs_of_nonpos hneg.le, neg_mul, neg_neg]
    rw [hnum]
    exact hround.neg
  · rwa [Int.natAbs_of_nonneg (not_lt.1 hneg)] at hround

/-! ### The quantised value (R122, R127) -/

theorem clamp127_range (u : Int) : -127 ≤ clamp127 u ∧ clamp127 u ≤ 127 := by unfold clamp127; omega

theorem clamp127_of_natAbs_le {u : Int} (h : u.natAbs ≤ 127) : clamp127 u = u := by unfold clamp127; omega

theorem quantise_of_not_finite {v : F32} (h : f32Finite v = false) (e : Nat) (r : Option Nat) : quantise v e r = (0, 0) := by
  rw [quantise, h]; rfl

theorem f32Finite_of_inf {v : F32} (h : f32Inf v = true) : f32Finite v = false := by
  simp only [f32Inf, Bool.and_eq_true, beq_iff_eq] at h
  rw [f32Finite, h.1]; rfl

theorem quantise_scale_255 (v : F32) (r : Option Nat) : quantise v 255 r = quantise v 254 r := rfl

theorem quantise_range (v : F32) (e : Nat) (r : Option Nat) :
    -127 ≤ (quantise v e r).1 ∧ (quantise v e r).1 ≤ 127 := by
  cases h : f32Finite v with
  | false => rw [quantise_of_not_finite h]; decide
  | true => rw [quantise, h]; exact clamp127_range _

/-- The exact value of v in units of scale byte e. -/
def inUnits (v : F32) (e : Nat) : Dy := ⟨(f32Dy v).num, (f32Dy v).exp + (133 - Int.ofNat e)⟩

theorem quantise_nearest_even {v : F32} {e : Nat} (hv : f32Finite v = true) (he : e ≤ 254) :
    (quantise v e none).1 = clamp127 (roundHalfEven (inUnits v e)) := by
  rw [quantise, hv, if_neg (by decide), if_neg (by omega)]; rfl

theorem quantise_nearestEven {v : F32} {e : Nat} (hv : f32Finite v = true) (he : e ≤ 254)
    (hrange : ((inUnits v e).num * pow2 (inUnits v e).exp).natAbs ≤ 127 * pow2 (-(inUnits v e).exp)) :
    NearestEven (quantise v e none).1 ((inUnits v e).num * pow2 (inUnits v e).exp) (pow2 (-(inUnits v e).exp)) := by
  have hround := roundHalfEven_nearestEven (inUnits v e)
  rwa [quantise_nearest_even hv he, clamp127_of_natAbs_le (hround.natAbs_le (pow2_pos _) hrange)]

/-! ### The residual (R127) -/

theorem signed_mag (neg : Bool) {mag : Nat} (h : mag < 2 ^ 15) : (signed 16 neg mag).toNat % 2 ^ 15 = mag := by
  have hsign : bitOf neg ≤ 1 := by cases neg <;> decide
  simp only [signed, BitVec.toNat_ofNat]
  omega

theorem bf16Sat_mag_le (d : Dy) : (bf16Sat d).toNat % 2 ^ 15 ≤ 0x7F7F := by
  rw [bf16Sat, signed_mag _ (by omega)]
  exact min_le_right _ _

theorem quantise_residual_mag_le (v : F32) (e : Nat) (r : Option Nat) :
    (quantise v e r).2.toNat % 2 ^ 15 ≤ 0x7F7F := by
  cases h : f32Finite v with
  | false => rw [quantise_of_not_finite h]; decide
  | true => rw [quantise, h]; exact bf16Sat_mag_le _

/-! ### The pass in scripted mode (R137, R311) -/

section Scripted

variable {r : StepRec} (hr : r.adlib = false)
include hr

/-- A scripted draw is one value, whatever the pit and the house, and leaves the house alone. -/
theorem drawFor_scripted (stochastic : Bool) (tensor j pit : Nat) (h : House) :
    drawFor r stochastic tensor j pit h =
      (if stochastic then some (scriptedDraw r.seed r.num tensor j) else none, h) := by
  cases stochastic with
  | false => rfl
  | true => rw [drawFor, hr]; rfl

/-- What a scripted pass makes of an element: a value that is the same on every pit and house. -/
theorem passElem_scripted (c : Choice) (en : Entry) (e j : Nat) (v : F32) :
    ∃ x, ∀ pit h, passElem c r en pit e j v h = (x, h) := by
  simp only [passElem, sendElem, drawFor_scripted hr]
  split_ifs <;> exact ⟨_, fun _ _ => rfl⟩

theorem passElems_scripted (c : Choice) (en : Entry) (e : Nat) (vs : List F32) :
    ∀ j, ∃ xs, ∀ pit h, passElems c r en pit e vs j h = (xs, h) := by
  induction vs with
  | nil => exact fun _ => ⟨[], fun _ _ => rfl⟩
  | cons v vs ih =>
    intro j
    obtain ⟨x, hx⟩ := passElem_scripted hr c en e j v
    obtain ⟨xs, hxs⟩ := ih (j + 1)
    exact ⟨x :: xs, fun pit h => by rw [passElems, hx, hxs]⟩

theorem passBlock_scripted (tr : Troupe) (g : Graph) (w : BWork) (c : Choice) (blk : Nat) (vs : List F32) (o : PassOut) :
    ∃ out, ∀ h, passBlock tr g w c r blk vs (o, h) = (out, h) := by
  simp only [passBlock]
  split
  · exact ⟨o, fun _ => rfl⟩
  next te _ =>
    split
    · exact ⟨o, fun _ => rfl⟩
    next en _ =>
      obtain ⟨xs, hxs⟩ := passElems_scripted hr c en (min 254 (scaleByte w blk)) vs (32 * (blk - (tensorBlocks te).1))
      simp only [hxs]
      exact ⟨_, fun _ => rfl⟩

end Scripted

/-! ### Digests (R282, R311) -/

theorem digestSum_perm {ds es : List (BitVec 64)} (h : ds.Perm es) : digestSum ds = digestSum es := h.foldl_eq 0

theorem stepDigest_perm {ds es : List (Nat × Nat × BitVec 64)} (h : ds.Perm es) (kind : Nat) :
    stepDigest ds kind = stepDigest es kind := digestSum_perm ((h.filter _).map _)

/-! ### The residuals after a takeover (R308, R309) -/

/-- Bank A holds the pulled copies and is the current bank. -/
def TakesResiduals (p : Pulled) (tr : Troupe) : Prop :=
  tr.residA = p.residuals.map (fun e => (e.1, e.2.2)) ∧ tr.bank = Pair.of false

theorem encoreState_takesResiduals (tr : Troupe) (p : Pulled) (area : Tab TState) :
    TakesResiduals p (encoreState tr p area) :=
  List.foldlRecOn (motive := TakesResiduals p) p.fallback _
    (List.foldlRecOn (motive := TakesResiduals p) p.histories _ ⟨rfl, rfl⟩ fun _ h _ _ => h) fun _ h _ _ => h

theorem TakesResiduals.residual {p : Pulled} {tr : Troupe} (h : TakesResiduals p tr) (k : Nat) :
    residual tr false k = ((tabGet p.residuals k).map (·.2)).getD [] := by
  rw [Machine.residual, if_neg Bool.false_ne_true, h.1, tabGetD, tabGet_map p.residuals k fun _ => Prod.snd]

theorem TakesResiduals.bankNow {p : Pulled} {tr : Troupe} (h : TakesResiduals p tr) : bankNow tr = false := by
  rw [Machine.bankNow, h.2]; rfl

/-! ### The oldest residual (R308) -/

theorem le_foldl_min_iff {α : Type} (f : α → Nat) (l : List α) {a c : Nat} :
    c ≤ l.foldl (fun b x => min b (f x)) a ↔ c ≤ a ∧ ∀ x ∈ l, c ≤ f x := by
  induction l generalizing a with
  | nil => simp
  | cons x l ih => rw [List.foldl_cons, ih, le_min_iff, List.forall_mem_cons, and_assoc]

/-- A minimum that starts at `a` stays at `a` where no value lies below it. -/
theorem foldl_min_eq_init_iff {α : Type} (f : α → Nat) (l : List α) (a : Nat) :
    l.foldl (fun b x => min b (f x)) a = a ↔ ∀ x ∈ l, a ≤ f x :=
  have hle : l.foldl (fun b x => min b (f x)) a ≤ a := ((le_foldl_min_iff f l).1 le_rfl).1
  ⟨fun h => ((le_foldl_min_iff f l).1 h.ge).2, fun h => le_antisymm hle ((le_foldl_min_iff f l).2 ⟨le_rfl, h⟩)⟩

theorem tabGetD_residual_le {p : Pulled} {m : Nat} (h : ∀ e ∈ p.residuals, e.2.1 ≤ m) (k : Nat) :
    (tabGetD p.residuals k (0, [])).1 ≤ m := by
  rw [tabGetD]
  cases hk : tabGet p.residuals k with
  | none => exact Nat.zero_le m
  | some v => exact h _ (mem_of_tabGet hk)

theorem residualsMatch_iff (tr : Troupe) {p : Pulled} (h : ∀ e ∈ p.residuals, e.2.1 ≤ p.lastCommitted) :
    residualsMatch tr p = true ↔ oldestResidual tr p = p.lastCommitted := by
  rw [oldestResidual, foldl_min_eq_init_iff, residualsMatch, List.all_eq_true]
  refine forall₂_congr fun k _ => ?_
  rw [beq_iff_eq]
  exact ⟨fun heq => heq.ge, fun hge => le_antisymm (tabGetD_residual_le h _) hge⟩

/-! ### The statement -/

/-- Settles O57: one lemma for each clause. -/
theorem elementsQuantised : Obligations.ElementsQuantised := by
  unfold Obligations.ElementsQuantised
  refine ⟨?infinite, quantise_scale_255, quantise_range, ?nearest, quantise_residual_mag_le, ?scripted,
    fun _ _ => stepDigest_perm, ?residuals, fun tr _ => residualsMatch_iff tr⟩
  case infinite => exact fun _ e r hv => quantise_of_not_finite (f32Finite_of_inf hv) e r
  case nearest =>
    intro v e hv he k num den q hrange
    have hden : den = (pow2 (-k) : Int) := by simp [den, pow2]
    have hnum : num = (f32Dy v).num * (pow2 k : Int) := by simp [num, pow2]
    rw [hden, Int.natAbs_natCast, hnum] at hrange ⊢
    exact quantise_nearestEven hv he hrange
  case scripted =>
    intro tr g w c r blk vs o h h' hr
    obtain ⟨out, hout⟩ := passBlock_scripted hr tr g w c blk vs o
    simp only [hout, and_self]
  case residuals =>
    intro tr p area k
    have htakes := encoreState_takesResiduals tr p area
    exact ⟨htakes.residual k, htakes.bankNow⟩

end Sys2Proof.Machine
end

section
/-! A frame that passes and a frame of a round (R167, R236, R240, R243, R256, R257): what the two rows do with a frame
that they hear, and the statement O35 put together from them. -/

namespace Sys2Proof.Machine

open Sys2Proof

section Rows

variable {dt port : Nat} {f : List Byte} {s : State}

/-! ### A frame that passes (R167, R240) -/

@[simp] theorem counted_podNumber (k : Kind) (dt p : Nat) (s : State) :
    (counted k dt p s).house.podNumber = s.house.podNumber := by
  rw [counted_house]
  exact passCk_house_podNumber dt s

@[simp] theorem routable_counted (k : Kind) (dt p : Nat) (s : State) (a : BlockAddr) :
    routable (counted k dt p s) a = routable s a := by
  simp only [routable, counted_podNumber]

/-- In an open house a port that carries more than TICK frames forwards what passes. -/
theorem frameRelay_heard (H : HeardOpen .passing dt port f s) :
    exec (.frameRelay dt port f) s = .next (forward port f (counted .passing dt port s)) := by
  obtain ⟨heard, hopen, hport⟩ := H
  calc exec (.frameRelay dt port f) s = execFrameRelay dt port f s := rfl
    _ = _ := by simp [execFrameRelay, arrive_heard heard, hopen, hport]

/-- A frame to a routable address goes where the entry of its bank says. -/
theorem forward_out {r out : Nat} {bank : Bool} {epoch : BitVec 16}
    (hslice : (troupe s (bodyField f 2 1 % 64)).slice = some r)
    (hbank : bankFor (sliceOf s r) (frameTableEpoch f) = some (bank, epoch)) (hroute : routable s (frameDst f) = true)
    (hentry : judgeEntry s (bankEntry (sliceOf s r) bank (entryKey (destIndex (coordOf (frameDst f))) (6 + port))) port =
      .out out) :
    forward port f s = placeRelayed port out (framePcp f) r epoch f s := by
  simp only [forward, hslice, hbank, hroute, hentry, Bool.not_true, Bool.false_eq_true, if_false]

/-! ### A hop frame of the round in progress (R256, R257) -/

/-- Counting a frame leaves a troupe its slice record. -/
theorem sliceFor_counted (k : Kind) (dt p t : Nat) (s : State) :
    sliceFor (counted k dt p s) (troupe (counted k dt p s) t) = sliceFor s (troupe s t) := by
  rw [sliceFor, sliceFor, troupe_counted, passCk_slice, funext (sliceOf_counted k dt p s)]

theorem callReceive_heard (H : HeardOpen .call dt port f s) :
    exec (.callReceive dt port f) s = .next (hearCall port f (counted .call dt port s)) := by
  calc exec (.callReceive dt port f) s = execCallReceive dt port f s := rfl
    _ = _ := by rw [execCallReceive, arriveOpen_heard H]

/-- A frame whose count is that of the tick, in the round of the tick, is of this round. -/
theorem frameLaunch_of_current {tick count : Nat} {tr : Troupe} {r : Round} (hround : tr.round = some r)
    (hlaunch : r.launch = tick) (hcount : count = tick % 512) : frameLaunch tick tr count = some tick := by
  simp [frameLaunch, hround, hlaunch, hcount]

/-- A round that has been launched is joined as it stands. -/
theorem joinRound_of_launched {t launch : Nat} {r : Round} (hround : (troupe s t).round = some r)
    (hlaunch : r.launch = launch) : joinRound t launch s = s := by
  simp [joinRound, hround, hlaunch]

/-- A frame of the round in progress, for the round's own step, enters the round as a hop frame. -/
theorem hearCall_current {t : Nat} {sl : Slice} {r : Round} (ht : bodyField f 9 2 / 2 ^ 10 = t)
    (hslice : sliceFor s (troupe s t) = some sl) (hlife : (troupe s t).life ≠ .absent)
    (hepoch : epochKnown sl (BitVec.ofNat 16 (bodyField f 12 2)) = true)
    (hcount : bodyField f 9 2 % 512 = s.house.tick % 512) (hround : (troupe s t).round = some r)
    (hlaunch : r.launch = s.house.tick) (hstep : r.step = bodyField f 3 6)
    (hnext : bodyField f 3 6 ≠ roundStep (troupe s t) + 1) :
    hearCall port f s =
      takeHop t port (bodyField f 14 1) (bit (bodyField f 11 1) 0) (bit (bodyField f 11 1) 1) s := by
  simp only [hearCall, ht, hslice, frameLaunch_of_current hround hlaunch hcount]
  simp [hlife, hepoch, joinRound_of_launched hround hlaunch, hnext, hround, hstep]

end Rows

/-! ### The statement -/

/-- Settles O35: each row is heard with the frame counted, and counting it changes nothing that the relay or the round
asks for. -/
theorem relayAndCallComplete : Obligations.RelayAndCallComplete := by
  unfold Obligations.RelayAndCallComplete
  refine ⟨?relay, ?call⟩
  case relay =>
    intro dt port f s r bank epoch out H s1 hslice hbank hroute hentry
    have hslice' : (troupe s1 (bodyField f 2 1 % 64)).slice = some r := by
      rwa [troupe_counted, passCk_slice]
    rw [← sliceOf_counted .passing dt port] at hbank hentry
    rw [frameRelay_heard H, forward_out hslice' hbank ((routable_counted ..).trans hroute) hentry]
  case call =>
    intro dt port f s sl r H s1 t hslice hlife hepoch hcount hround hlaunch hstep hnext
    have hslice' : sliceFor s1 (troupe s1 t) = some sl := (sliceFor_counted ..).trans hslice
    rw [callReceive_heard H,
      hearCall_current (s := s1) (t := t) (sl := sl) (r := r) rfl hslice' ?_ hepoch ?_ ?_ ?_ hstep ?_]
    · rwa [troupe_counted, passCk_life]
    · rwa [counted_tick]
    · rwa [troupe_counted, passCk_round]
    · rwa [counted_tick]
    · rwa [roundStep, troupe_counted, passCk_decided]

end Sys2Proof.Machine
end

section
/-! Frames that are dropped (R166, R235, R246, Table 6.12): every row that hears a frame puts it through the same checks,
and the statement O56 put together from what the checks do. -/

namespace Sys2Proof.Machine

open Sys2Proof

section Drops

variable {i : Instr} {dt port : Nat} {f : List Byte} {s : State}

/-- What dropping a counted frame does, by the check of Table 6.12 that it failed. -/
def dropBy (c : Checked) (port : Nat) (f : List Byte) (s : State) : State :=
  match c with
  | .ok _ => s
  | .runt => dropAtOne port 2 s
  | .oversize => dropAtOne port 3 s
  | .fcs => dropAtOne port 4 s
  | .vlan => portGauge s port 6 1
  | .misaddressed => portGauge s port 7 1
  | .malformed check => dropMalformed port check f s

/-- What a row's frame, judged in the block `s`, leaves once a stranger's TICK frame has told its partner (R246). -/
def afterStranger (i : Instr) (port : Nat) (f : List Byte) (s judged : State) : State :=
  if stranger i port f s then hearStranger port f judged else judged

/-! ### One frame through the checks -/

theorem arrived_of_not_receives (h : receives s port = false) (kind : Kind) (act : State → State) :
    arrived kind port f act s = s := by
  simp [arrived, h]

/-- A frame that fails a check is counted and dropped, whatever kind of frame its row is about. -/
theorem arrived_of_failed {c : Checked} (hr : receives s port = true) (hc : checkFrame s f = c) (hfail : ∀ k, c ≠ .ok k)
    (kind : Kind) (act : State → State) : arrived kind port f act s = dropBy c port f (received port c s) := by
  cases c with
  | ok k => exact absurd rfl (hfail k)
  | _ => simp [arrived, dropBy, hr, hc]

/-! ### Every row that hears a frame -/

/-- A row judges its frame by the checks, for some kind and with some effect of its own. -/
def Judges (i : Instr) (dt port : Nat) (f : List Byte) (s : State) : Prop :=
  ∃ kind act, exec i s = .next (afterStranger i port f (arriving i dt port s)
    (arrived kind port f act (arriving i dt port s)))

theorem judges_of_arrived {kind : Kind} {act : State → State}
    (hexec : exec i s = .next (arrived kind port f act (arriving i dt port s)))
    (hstranger : stranger i port f (arriving i dt port s) = false) : Judges i dt port f s :=
  ⟨kind, act, by rw [hexec, afterStranger, hstranger, if_neg Bool.false_ne_true]⟩

theorem judges_of_arriveOpen {kind : Kind} {closed : Bool} {act : State → State}
    (hexec : exec i s = .next (arriveOpen kind closed dt port f act s)) (harriving : arriving i dt port s = passCk dt s)
    (hstranger : stranger i port f (arriving i dt port s) = false) : Judges i dt port f s :=
  judges_of_arrived (hexec.trans (by rw [harriving, arriveOpen, arrive])) hstranger

/-- Every row that hears a frame judges it so; only the row of TICK frames looks at a stranger's. -/
theorem judges_of_frameOf (h : frameOf i = some (dt, port, f)) (s : State) : Judges i dt port f s := by
  cases i <;> cases h
  case tickReceive => exact ⟨_, _, rfl⟩
  case knockReceive | dimReceive | lightReceive | pfcReceive | pauseFrameReceive | foreignFrameReceive | frameRelay =>
    exact judges_of_arrived rfl rfl
  all_goals exact judges_of_arriveOpen rfl rfl rfl

theorem receives_and_vlan_of_stranger (h : stranger i port f s = true) :
    receives s port = true ∧ checkFrame s f = .vlan := by
  unfold stranger at h
  split at h
  · simp only [strangeTick, Bool.and_eq_true, beq_iff_eq] at h
    obtain ⟨⟨⟨hr, hc⟩, -⟩, -⟩ := h
    exact ⟨hr, hc⟩
  · cases h

theorem afterStranger_of_not (h : ¬ (receives s port = true ∧ checkFrame s f = .vlan)) (judged : State) :
    afterStranger i port f s judged = judged :=
  if_neg (mt receives_and_vlan_of_stranger h)

/-- A port that is not lit receives nothing. -/
theorem exec_frame_of_not_receives (h : frameOf i = some (dt, port, f))
    (hr : receives (arriving i dt port s) port = false) : exec i s = .next (arriving i dt port s) := by
  obtain ⟨kind, act, hexec⟩ := judges_of_frameOf h s
  rw [hexec, arrived_of_not_receives hr, afterStranger_of_not (by simp [hr])]

/-- A row drops a frame that fails a check; the VLAN check lets a stranger's TICK frame tell its partner all the same. -/
theorem exec_frame_of_failed {c : Checked} (h : frameOf i = some (dt, port, f))
    (hr : receives (arriving i dt port s) port = true) (hc : checkFrame (arriving i dt port s) f = c)
    (hfail : ∀ k, c ≠ .ok k) :
    exec i s = .next (afterStranger i port f (arriving i dt port s)
      (dropBy c port f (received port c (arriving i dt port s)))) := by
  obtain ⟨kind, act, hexec⟩ := judges_of_frameOf h s
  rw [hexec, arrived_of_failed hr hc hfail]

theorem exec_frame_of_failed_not_vlan {c : Checked} (h : frameOf i = some (dt, port, f))
    (hr : receives (arriving i dt port s) port = true) (hc : checkFrame (arriving i dt port s) f = c)
    (hfail : ∀ k, c ≠ .ok k) (hvlan : c ≠ .vlan) :
    exec i s = .next (dropBy c port f (received port c (arriving i dt port s))) := by
  rw [exec_frame_of_failed h hr hc hfail, afterStranger_of_not fun hv => hvlan (hc.symm.trans hv.2)]

end Drops

/-! ### The statement -/

/-- Settles O56: all rows judge their frames alike, so that one lemma serves every check but the VLAN's. -/
theorem framesDropped : Obligations.FramesDropped := by
  unfold Obligations.FramesDropped
  intro i dt port f s h s1 got
  refine ⟨exec_frame_of_not_receives h, fun hr => ?_⟩
  have drop {c : Checked} (hc : checkFrame s1 f = c) (hfail : ∀ k, c ≠ .ok k) (hvlan : c ≠ .vlan) :
      exec i s = .next (dropBy c port f (got c)) :=
    exec_frame_of_failed_not_vlan h hr hc hfail hvlan
  refine ⟨?runt, ?oversize, ?fcs, ?vlan, ?misaddressed, ?malformed⟩
  case runt => exact fun hc => by rw [drop hc nofun nofun, dropBy]
  case oversize => exact fun hc => by rw [drop hc nofun nofun, dropBy]
  case fcs => exact fun hc => by rw [drop hc nofun nofun, dropBy]
  case vlan => exact fun hc => by rw [exec_frame_of_failed h hr hc nofun, afterStranger, dropBy]
  case misaddressed => exact fun hc => by rw [drop hc nofun nofun, dropBy]
  case malformed => exact fun _ hc => by rw [drop hc nofun nofun, dropBy]

end Sys2Proof.Machine
end

section
/-! Carriages in sequence (R199, R209, Table 8.5) and the refutation of O31: a REDUCE_WRITE in sequence is lost where every
tally group is dark (R7, log entry 92), which the statement leaves out. -/

namespace Sys2Proof.Machine

open Sys2Proof

section Rows

variable {kind : Kind} {dt port l i : Nat} {f : List Byte} {s : State}

/-! ### A carriage in sequence (R199, Table 8.5) -/

@[simp] theorem lineOf_counted (k : Kind) (dt p : Nat) (s : State) (t l : Nat) :
    lineOf (troupe (counted k dt p s) t) l = lineOf (troupe s t) l := by
  rw [lineOf, lineOf, troupe_counted, passCk_lines]

theorem checkLine_of_not_broken {t : Nat} (h : lineBroken (lineOf (troupe s t) l) = false) : checkLine t l s = s := by
  simp [checkLine, h]

/-- A matching carriage of the line's epoch, with the peer's expected sequence, is taken. -/
theorem deliver_of_expected {c : Car} {p : Peer} (hc : readCar f = c) (hmatch : matchLine s f c = some (l, i))
    (hwhole : lineBroken (lineOf (troupe s c.troupe) l) = false)
    (hstate : (lineOf (troupe s c.troupe) l).state.val = .opened ∨ (lineOf (troupe s c.troupe) l).state.val = .closing)
    (hepoch : c.lineEpoch = (lineOf (troupe s c.troupe) l).epoch)
    (hpeer : peerOf (takeTimes c.troupe l i c s) c.troupe l i = some p) (hseq : p.expected.val = c.seq)
    (apply : Applies) :
    deliver apply port f s = takeCar apply c.troupe l i (frameSrc f) c (takeTimes c.troupe l i c s) := by
  have hsequenced : sequenced apply c.troupe l i (frameSrc f) c s =
      takeCar apply c.troupe l i (frameSrc f) c (takeTimes c.troupe l i c s) := by
    simp [sequenced, hepoch, hpeer, hseq]
  rcases hstate with h | h <;> simp only [deliver, hc, hmatch, checkLine_of_not_broken hwhole, h, hsequenced]

/-- A carriage in sequence that has the share of its pit is taken. -/
theorem terminate_inSequence (H : InSequence kind dt port f l i s) (apply : Applies) :
    terminate apply port f (counted kind dt port s) =
      takeCar apply (readCar f).troupe l i (frameSrc f) (readCar f) (timed kind dt port f l i s) := by
  obtain ⟨-, hmatch, hwhole, hstate, hepoch, ⟨p, hpeer, hseq⟩, hheld, hshare⟩ := H
  rw [terminate, hheld, hshare]
  exact deliver_of_expected rfl hmatch (by rwa [lineOf_counted]) (by rwa [lineOf_counted])
    (by rwa [lineOf_counted]) hpeer hseq apply

/-! ### REDUCE_WRITE with every tally group dark (R7) -/

theorem type_of_carKind_reduceWrite {c : Car} (h : carKind c = .reduceWrite) : c.type = 2 := by
  unfold carKind at h
  split_ifs at h
  split at h
  case h_2 htype => exact htype
  all_goals cases h

/-- What nothing here takes is discarded as if lost, where the mirror has no part in it. -/
theorem takeCar_of_lost {apply : Applies} {t : Nat} {src : BlockAddr} {c : Car} (htype : c.type ≠ 1)
    (hwin : inWindow (lineOf (troupe s t) l) c = true) (hlost : apply t l i src c s = none) :
    takeCar apply t l i src c s = s := by
  simp [takeCar, htype, hwin, hlost]

/-- A REDUCE_WRITE in sequence that finds every tally group dark leaves only its times and its acknowledgement: the
sequence does not move on. -/
theorem reduceWriteReceive_of_tallyOut (H : InSequence .reduceWrite dt port f l i s)
    (hwin : inWindow (lineOf (troupe (timed .reduceWrite dt port f l i s) (readCar f).troupe) l) (readCar f) = true)
    (hout : tallyOut (timed .reduceWrite dt port f l i s) = true) :
    exec (.reduceWriteReceive dt port f) s = .next (timed .reduceWrite dt port f l i s) := by
  have hopen : HeardOpen .reduceWrite dt port f s := H.1
  have htype : (readCar f).type = 2 := type_of_carKind_reduceWrite (carKind_of_checkFrame hopen.1.2 rfl)
  calc exec (.reduceWriteReceive dt port f) s = execReduceWriteReceive dt port f s := rfl
    _ = .next (terminate applyReduce port f (counted .reduceWrite dt port s)) := by
      rw [execReduceWriteReceive, arriveOpen_heard hopen]
    _ = .next (timed .reduceWrite dt port f l i s) := by
      rw [terminate_inSequence H, takeCar_of_lost (by simp [htype]) hwin (by simp [applyReduce, hout])]

end Rows

/-! ### The counterexample -/

/-- A chip of the pod other than this one. -/
def peerAddress : BlockAddr := 0x0000_0001_0002

/-- Troupe 2 with an OPEN point line 5 to that chip, whose local window is 0x6000–0x6FFF. -/
def lineTroupe : Troupe :=
  { lines := [(5, { state := ⟨.opened, 0⟩, epoch := 1, peers := [{ addr := peerAddress }]
                    localBase := 0x6000, localLen := 4096 })] }

/-- The open house with port 3 lit, after every tally group and the tally wing group (units 9 to 17) have gone dark. -/
def tallyDark : State :=
  { house := { doorsOpen := true, fwUp := true, units := (List.range 9).map fun k => (9 + k, { dark := true }) }
    troupes := [(0, {}), (2, lineTroupe)]
    ports := [(3, { link := .lit, verified := true })] }

/-- A REDUCE_WRITE that adds the FP32 value 1.0 at 0x6100, the first carriage of line 5. -/
def addOne : List Byte :=
  carFrame { type := 2, cls := .d, enc := 7, op := 2, troupe := 2, line := 5, lineEpoch := 1, count := 1, last := true
             target := 0x6100, payload := padPayload (leBytes 4 0x3F800000) } 2 peerAddress 1

/-- The next sequence expected on line 5 of troupe 2. -/
def expectedNext (s : State) : Option (BitVec 32) := (peerOf s 2 5 0).map fun p => p.expected.val

section Evaluated

set_option maxRecDepth 100000

theorem addOne_heard : HeardOpen .reduceWrite 0 3 addOne tallyDark := by decide +kernel

theorem addOne_expected :
    ∃ p, peerOf (timed .reduceWrite 0 3 addOne 5 0 tallyDark) (readCar addOne).troupe 5 0 = some p ∧
      p.expected.val = (readCar addOne).seq := by
  have h : (peerOf (timed .reduceWrite 0 3 addOne 5 0 tallyDark) (readCar addOne).troupe 5 0).any
      (fun p => p.expected.val == (readCar addOne).seq) = true := by decide +kernel
  simpa only [Option.any_eq_true, beq_iff_eq] using h

theorem addOne_inSequence : InSequence .reduceWrite 0 3 addOne 5 0 tallyDark :=
  ⟨addOne_heard, by decide +kernel, by decide +kernel, .inl (by decide +kernel), by decide +kernel, addOne_expected,
    by decide +kernel, by decide +kernel⟩

theorem addOne_inWindow : inWindow (lineOf (troupe (timed .reduceWrite 0 3 addOne 5 0 tallyDark)
    (readCar addOne).troupe) 5) (readCar addOne) = true := by decide +kernel

theorem addOne_tallyOut : tallyOut (timed .reduceWrite 0 3 addOne 5 0 tallyDark) = true := by decide +kernel

/-- Had it been accepted, sequence 1 would be expected next instead of 0. -/
theorem addOne_accepted_expectedNext :
    expectedNext (timed .reduceWrite 0 3 addOne 5 0 tallyDark) = some 0 ∧
      expectedNext (accepted (readCar addOne).troupe 5 0 (readCar addOne)
        (reduceInto (readCar addOne).troupe (readCar addOne) (timed .reduceWrite 0 3 addOne 5 0 tallyDark))) = some 1 := by
  decide +kernel

end Evaluated

/-! ### The statement -/

/-- Refutes O31: its second clause does not ask for a tally group that is not dark. With all of them dark the REDUCE_WRITE
is lost until the sender's timer brings it again (log entry 92), so that the sequence expected next stays 0. -/
theorem not_carriagesComplete : ¬ Obligations.CarriagesComplete := by
  unfold Obligations.CarriagesComplete
  rintro ⟨-, hreduce, -⟩
  have hlost := reduceWriteReceive_of_tallyOut addOne_inSequence addOne_inWindow addOne_tallyOut
  have htaken := hreduce 0 3 addOne 5 0 tallyDark addOne_inSequence addOne_inWindow
  obtain ⟨hstays, hmoves⟩ := addOne_accepted_expectedNext
  have hsame := congrArg expectedNext (Host.Outcome.next.inj (hlost.symm.trans htaken))
  rw [hstays, hmoves] at hsame
  exact absurd hsame (by decide)

end Sys2Proof.Machine
end

section
/-! Lines: what the passing of time, the taking of a command and the counting of a frame leave of a line, the use of a
line without a broken word, and what a change leaves of a line and of a peer (R50, R202, R323). -/

namespace Sys2Proof.Machine

open Sys2Proof

section Leaves

variable {s : State} {t l : Nat}

/-! ### The taking of a command -/

@[simp] theorem lineOf_begun (p : Post) (s : State) (t l : Nat) :
    lineOf (troupe (begun p s) t) l = lineOf (troupe s t) l := by
  rw [lineOf, lineOf, begun_lines]

@[simp] theorem lineHeld_begun (p : Post) (s : State) (t l : Nat) : lineHeld (begun p s) t l = lineHeld s t l := by
  rw [lineHeld, lineHeld, holdsBy, holdsBy, begun_deferred]

@[simp] theorem readAddresses_begun (p : Post) (s : State) (a n : Nat) :
    readAddresses (begun p s) a n = readAddresses s a n := by
  simp only [readAddresses, peekWord, begun_hbm]

@[simp] theorem endLineCommands_begun (p : Post) (s : State) (t l : Nat) (st : Status) :
    endLineCommands (begun p s) t l st = endLineCommands s t l st := by
  simp only [endLineCommands, begun_deferred]

/-! ### The passing of time -/

@[simp] theorem lineOf_passCk (dt : Nat) (s : State) (t l : Nat) :
    lineOf (troupe (passCk dt s) t) l = lineOf (troupe s t) l := by
  rw [lineOf, lineOf, passCk_lines]

@[simp] theorem routeClass_passCk (dt : Nat) (s : State) (t l : Nat) :
    routeClass (troupe (passCk dt s) t) l = routeClass (troupe s t) l := by
  rw [routeClass, routeClass, passCk_carousels]

@[simp] theorem lineAddr_passCk (dt : Nat) (s : State) (t l : Nat) : lineAddr (passCk dt s) t l = lineAddr s t l := by
  simp [lineAddr, ownAddr]

@[simp] theorem unsentFrames_passCk (dt : Nat) (s : State) (t l i : Nat) :
    unsentFrames (troupe (passCk dt s) t) l i = unsentFrames (troupe s t) l i := by
  simp only [unsentFrames, passCk_sheet, lineOf_passCk]

@[simp] theorem governed_passCk (dt : Nat) (s : State) (t : Nat) :
    governed (passCk dt s) (troupe (passCk dt s) t) = governed (passCk dt s) (troupe s t) := by
  funext f
  simp only [governed, scripted, passCk_adlib]

/-! ### The counting of a frame -/

@[simp] theorem peerOf_counted (k : Kind) (dt port : Nat) (s : State) (t l i : Nat) :
    peerOf (counted k dt port s) t l i = peerOf s t l i := by
  rw [peerOf, peerOf, lineOf_counted]

/-! ### Lines without a broken word -/

theorem useLine_of_not_broken (h : lineBroken (lineOf (troupe s t) l) = false) (f : State → State) :
    useLine t l f s = f s := by
  rw [useLine, h, if_neg Bool.false_ne_true]

/-- A line that is not CLOSED belongs to a troupe that exists. -/
theorem tabGet_isSome_of_not_closed (h : (lineOf (troupe s t) l).state.val ≠ .closed) :
    (tabGet s.troupes t).isSome = true := by
  cases e : tabGet s.troupes t with
  | none =>
    have habsent : troupe s t = absentTroupe := by rw [troupe, tabGetD, e]; rfl
    exact absurd (by rw [habsent]; rfl) h
  | some _ => rfl

/-- A line of a troupe that exists, once it is changed. -/
theorem lineOf_modLine_same (h : (tabGet s.troupes t).isSome = true) (f : Line → Line) :
    lineOf (troupe (modLine s t l f) t) l = f (lineOf (troupe s t) l) := by
  rw [modLine, troupe_modTroupe_same h, lineOf, tabGetD, tabGet_tabPut_same]
  rfl

/-! ### Changes of a line and of a peer -/

/-- Two changes of a line that agree on it leave the same state. -/
theorem modLine_congr {f g : Line → Line} (h : f (lineOf (troupe s t) l) = g (lineOf (troupe s t) l)) :
    modLine s t l f = modLine s t l g :=
  modTroupe_congr (by rw [h])

/-- Two changes of a peer that agree on it leave the same state. -/
theorem modPeer_congr {i : Nat} {p : Peer} {f g : Peer → Peer} (hpeer : peerOf s t l i = some p) (h : f p = g p) :
    modPeer s t l i f = modPeer s t l i g := by
  have hpeers : (lineOf (troupe s t) l).peers.modify i f = (lineOf (troupe s t) l).peers.modify i g := by
    rw [peerOf] at hpeer
    refine List.ext_getElem? fun j => ?_
    rw [List.getElem?_modify, List.getElem?_modify]
    by_cases hj : i = j
    · subst hj
      simp [hpeer, h]
    · simp [hj]
  exact modLine_congr (congrArg (fun ps => { lineOf (troupe s t) l with peers := ps }) hpeers)

end Leaves

end Sys2Proof.Machine
end

section
/-! The commands that open, reset and close a line (R198, R218, R223, R247, R400, Table 8.7): one lemma for each way a
row ends, and the statement O13 put together from them. -/

namespace Sys2Proof.Machine

open Sys2Proof

/-- A command that completes in one case and waits in the other. -/
theorem answer_done_or_defer (c : Prop) [Decidable c] (p : Post) (t : Nat) (q : Posted) (s s' s'' : State)
    (aw : Awaits) :
    answer p t q (if c then done s' else .defer s'' aw []) s =
      if c then completed p .done [] [] [] s' else heldBack p t q aw [] s'' := by
  split <;> rfl

section Rows

variable {p : Post} {q : Posted} {s : State} {line : BitVec 16}

/-! ### LINE_OPEN (R198, R218, R247) -/

/-- The entry that LINE_OPEN writes for a point line (R198). -/
def freshPoint (peer remoteBase remoteLen localBase localLen : BitVec 64) (payload share : BitVec 8)
    (ln : Line) : Line :=
  { ln with
    state := ⟨.knocking, 0⟩, carousel := false, requested := some (ln.epoch + 1)
    remoteBase := remoteBase, remoteLen := remoteLen.toNat, localBase := localBase, localLen := localLen.toNat
    payload := payload.toNat, share := share.toNat, standIn := false
    peers := [{ addr := peer.setWidth 48 }], members := [], ops := [] }

theorem lineOpen_knocks {peer remoteBase remoteLen localBase localLen : BitVec 64} {payload share : BitVec 8}
    (h : Ready false anyGate (.lineOpen p line 0 0 peer remoteBase remoteLen localBase localLen payload share) p q s)
    (hline : line.toNat < 512) (hpayload : inRange 1 32 payload.toNat = true) (hshare : share.toNat ≤ 100)
    (hpeer : addressOk peer = true) (hremote : remoteLen.toNat ≤ 2 ^ 40) (hlocal : localLen.toNat ≤ 2 ^ 40)
    (hclosed : (lineOf (troupe s q.target) line.toNat).state.val = .closed)
    (hheld : lineHeld s q.target line.toNat = false) :
    exec (.lineOpen p line 0 0 peer remoteBase remoteLen localBase localLen payload share) s = .next
      (heldBack p q.target q (.line line.toNat) [] (sendKnock q.target line.toNat 0 0
        (modLine (begun p s) q.target line.toNat fun _ => freshPoint peer remoteBase remoteLen localBase localLen
          payload share (lineOf (troupe s q.target) line.toNat)))) := by
  calc exec (.lineOpen p line 0 0 peer remoteBase remoteLen localBase localLen payload share) s =
      execLineOpen p line 0 0 peer remoteBase remoteLen localBase localLen payload share s := rfl
    _ = _ := congrArg Host.Outcome.next
      (serve_ready rfl h (by simpa [hline, hpayload, hshare, hpeer] using And.intro hremote hlocal))
    _ = _ := by simp [hclosed, hheld, answer_defer, freshPoint, Pair.of]

/-- The entry that LINE_OPEN writes for a carousel line, with the members and this chip's own address (R198, R247). -/
def freshCarousel (payload share : BitVec 8) (members : List BlockAddr) (own : BlockAddr) (ln : Line) : Line :=
  { ln with
    state := ⟨.knocking, 0⟩, carousel := true, requested := some (ln.epoch + 1)
    remoteBase := 0, remoteLen := 0, localBase := 0, localLen := 0
    payload := payload.toNat, share := share.toNat, standIn := false
    peers := (members.filter (· != own)).map fun a => { addr := a, firstDue := true }, members := members, ops := [] }

theorem lineOpen_carousel {n : BitVec 16} {peer remoteBase remoteLen localBase localLen : BitVec 64}
    {payload share : BitVec 8}
    (h : Ready false anyGate (.lineOpen p line 1 n peer remoteBase remoteLen localBase localLen payload share) p q s)
    (hline : line.toNat < 512) (hpayload : inRange 1 32 payload.toNat = true) (hshare : share.toNat ≤ 100)
    (hn : inRange 1 16384 n.toNat = true)
    (hmembers : membersOk (myAddr (begun p s) q.target) (readAddresses s peer.toNat n.toNat) = true)
    (hclosed : (lineOf (troupe s q.target) line.toNat).state.val = .closed)
    (hheld : lineHeld s q.target line.toNat = false) :
    let ln := lineOf (troupe s q.target) line.toNat
    let own := myAddr (begun p s) q.target
    let members := (readAddresses s peer.toNat n.toNat).map fun a => (a.setWidth 48 : BlockAddr)
    let s' := modLine (begun p s) q.target line.toNat fun _ => freshCarousel payload share members own ln
    exec (.lineOpen p line 1 n peer remoteBase remoteLen localBase localLen payload share) s = .next
      (if members.filter (· != own) = [] then
        completed p .done [] [] [] (openEpoch q.target line.toNat (ln.epoch + 1) s')
      else heldBack p q.target q (.line line.toNat) [] s') := by
  intro ln own members s'
  calc exec (.lineOpen p line 1 n peer remoteBase remoteLen localBase localLen payload share) s =
      execLineOpen p line 1 n peer remoteBase remoteLen localBase localLen payload share s := rfl
    _ = _ := congrArg Host.Outcome.next (serve_ready rfl h (by simp [hline, hpayload, hshare, hn]))
    _ = _ := by
      simp only [lineOf_begun, readAddresses_begun, lineHeld_begun, hclosed, hheld, hmembers, beq_self_eq_true,
        if_true, Bool.not_true, Bool.not_false, Bool.false_or, Bool.and_self, need_true, List.isEmpty_iff,
        answer_done_or_defer]
      rfl

/-! ### LINE_RESET (R218, R223, R400) -/

theorem lineReset_resets (h : Ready false anyGate (.lineReset p line) p q s) (hline : line.toNat < 512)
    (hstate : (lineOf (troupe s q.target) line.toNat).state.val = .opened ∨
      (lineOf (troupe s q.target) line.toNat).state.val = .faulted)
    (hheld : lineHeld s q.target line.toNat = false) :
    let ln := lineOf (troupe s q.target) line.toNat
    exec (.lineReset p line) s = .next
      (if ln.peers = [] then completed p .done [] [] []
          (openEpoch q.target line.toNat (ln.epoch + 1) (resetCurtain q.target line.toNat (begun p s)))
       else heldBack p q.target q (.line line.toNat) [] (beginReset q.target line.toNat (begun p s))) := by
  intro ln
  have hstate' : (ln.state.val == .opened || ln.state.val == .faulted) = true := by simpa using hstate
  calc exec (.lineReset p line) s = execLineReset p line s := rfl
    _ = _ := congrArg Host.Outcome.next (serve_ready rfl h (decide_eq_true hline))
    _ = _ := by
      simp only [lineOf_begun, lineHeld_begun, hheld, hstate', ln, Bool.not_false, Bool.and_self, need_true,
        List.isEmpty_iff, answer_done_or_defer]

/-! ### LINE_CLOSE (R400) -/

theorem lineClose_closed (h : Ready false anyGate (.lineClose p line) p q s) (hline : line.toNat < 512)
    (hclosed : (lineOf (troupe s q.target) line.toNat).state.val = .closed) :
    exec (.lineClose p line) s = .next (completed p .done [] [] [] (begun p s)) :=
  calc exec (.lineClose p line) s = execLineClose p line s := rfl
    _ = _ := congrArg Host.Outcome.next (serve_ready rfl h (decide_eq_true hline))
    _ = _ := by simp only [lineOf_begun, hclosed, answer_done]

/-- An OPEN line with nothing left closes at once, one with work left closes when that has ended. -/
theorem lineClose_opened (h : Ready false anyGate (.lineClose p line) p q s) (hline : line.toNat < 512)
    (hopen : (lineOf (troupe s q.target) line.toNat).state.val = .opened) :
    let ended := endLineCommands s q.target line.toNat .closed
    exec (.lineClose p line) s = .next (if lineEmpty (begun p s) q.target line.toNat then
        completed p .done [] ended [] (closeLine q.target line.toNat .closed (begun p s))
      else heldBack p q.target q (.lineClose line.toNat) ended
        (modLine (begun p s) q.target line.toNat fun ln => { ln with state := ⟨.closing, 0⟩ })) := by
  intro ended
  calc exec (.lineClose p line) s = execLineClose p line s := rfl
    _ = _ := congrArg Host.Outcome.next (serve_ready rfl h (decide_eq_true hline))
    _ = _ := by
      simp only [lineOf_begun, hopen, endLineCommands_begun]
      split <;> rfl

theorem lineClose_faulted (h : Ready false anyGate (.lineClose p line) p q s) (hline : line.toNat < 512)
    (hfaulted : (lineOf (troupe s q.target) line.toNat).state.val = .faulted) :
    exec (.lineClose p line) s = .next (completed p .done []
      (endLineCommands s q.target line.toNat .closed ++
        (s.deferred.filter fun d => d.target == q.target && d.awaits == .lineClose line.toNat).map fun d =>
          .complete d.issuer d.slot .done []) []
      (closeLine q.target line.toNat .closed (begun p s))) :=
  calc exec (.lineClose p line) s = execLineClose p line s := rfl
    _ = _ := congrArg Host.Outcome.next (serve_ready rfl h (decide_eq_true hline))
    _ = _ := by simp only [lineOf_begun, hfaulted, endLineCommands_begun, begun_deferred, answer_finish]

end Rows

/-! ### The statement -/

/-- Settles O13: one lemma for each way a row ends; LINE_CLOSE goes by the state of its line. -/
theorem lineLifeCommandsComplete : Obligations.LineLifeCommandsComplete := by
  unfold Obligations.LineLifeCommandsComplete
  refine ⟨?point, ?carousel, ?reset, ?close⟩
  case point =>
    rintro p q s line n peer remoteBase remoteLen localBase localLen payload share h hline hlo hhi hshare rfl hpeer
      hremote hlocal ln hclosed hheld
    exact lineOpen_knocks h hline ((inRange_eq_true_iff ..).2 ⟨hlo, hhi⟩) hshare hpeer hremote hlocal hclosed hheld
  case carousel =>
    intro p q s line n peer remoteBase remoteLen localBase localLen payload share h hline hlo hhi hshare hn hn' ln
      members others hmembers hclosed hheld s'
    exact lineOpen_carousel h hline ((inRange_eq_true_iff ..).2 ⟨hlo, hhi⟩) hshare
      ((inRange_eq_true_iff ..).2 ⟨hn, hn'⟩) hmembers hclosed hheld
  case reset => exact fun _ _ _ _ h hline hstate hheld => lineReset_resets h hline hstate hheld
  case close =>
    intro p q s line h hline ln ended
    exact ⟨lineClose_closed h hline,
      fun hopen hempty => (lineClose_opened h hline hopen).trans (by rw [if_pos hempty]),
      fun hopen hwork => (lineClose_opened h hline hopen).trans (by rw [if_neg (by simp [hwork])]),
      lineClose_faulted h hline⟩

end Sys2Proof.Machine
end

section
/-! The commands that set and read a line (R199, R212, R226, Table 8.1): one lemma for each row, and the statement O14
put together from them. -/

namespace Sys2Proof.Machine

open Sys2Proof

section Rows

variable {p : Post} {q : Posted} {s : State} {line : BitVec 16}

/-! ### LINE_SET (R226) -/

/-- The fields that a mask names, as a new version of the entry (R226). -/
def setLine (mask : BitVec 8) (remoteBase remoteLen localBase localLen : BitVec 64) (payload share : BitVec 8)
    (ln : Line) : Line :=
  { ln with
    payload := if mask.getLsbD 0 then payload.toNat else ln.payload
    remoteBase := if mask.getLsbD 1 then remoteBase else ln.remoteBase
    remoteLen := if mask.getLsbD 1 then remoteLen.toNat else ln.remoteLen
    localBase := if mask.getLsbD 2 then localBase else ln.localBase
    localLen := if mask.getLsbD 2 then localLen.toNat else ln.localLen
    share := if mask.getLsbD 3 then share.toNat else ln.share
    version := (ln.version + 1) % 65536 }

/-- A bound that is asked for only where a mask names its field. -/
theorem not_or_decide_of {b : Bool} {P : Prop} [Decidable P] (h : b = true → P) : (! b || decide P) = true := by
  cases b with
  | false => rfl
  | true => exact decide_eq_true (h rfl)

theorem lineSet_sets {mask payload share : BitVec 8} {remoteBase remoteLen localBase localLen : BitVec 64}
    (h : Ready false anyGate (.lineSet p line mask 0 remoteBase remoteLen localBase localLen payload share) p q s)
    (hline : line.toNat < 512) (hmask : mask.toNat < 16)
    (hpayload : mask.getLsbD 0 = true → 1 ≤ payload.toNat ∧ payload.toNat ≤ 32)
    (hshare : mask.getLsbD 3 = true → share.toNat ≤ 100)
    (hremote : mask.getLsbD 1 = true → remoteLen.toNat ≤ 2 ^ 40)
    (hlocal : mask.getLsbD 2 = true → localLen.toNat ≤ 2 ^ 40)
    (hopen : (lineOf (troupe s q.target) line.toNat).state.val = .opened)
    (hheld : lineHeld s q.target line.toNat = false)
    (hops : ∀ o ∈ (lineOf (troupe s q.target) line.toNat).ops,
      o.version = (lineOf (troupe s q.target) line.toNat).version) :
    exec (.lineSet p line mask 0 remoteBase remoteLen localBase localLen payload share) s = .next
      (completed p .done [] [] [] (modLine (begun p s) q.target line.toNat
        (setLine mask remoteBase remoteLen localBase localLen payload share))) := by
  have hpayload' : (! mask.getLsbD 0 || inRange 1 32 payload.toNat) = true := by
    simpa [inRange] using not_or_decide_of hpayload
  have hops' : ((lineOf (troupe s q.target) line.toNat).ops.all fun o =>
      o.version == (lineOf (troupe s q.target) line.toNat).version) = true := by simpa using hops
  calc exec (.lineSet p line mask 0 remoteBase remoteLen localBase localLen payload share) s =
      execLineSet p line mask 0 remoteBase remoteLen localBase localLen payload share s := rfl
    _ = _ := congrArg Host.Outcome.next (serve_ready rfl h (by
      simp only [hpayload', not_or_decide_of hshare, not_or_decide_of hremote, not_or_decide_of hlocal,
        decide_eq_true hline, decide_eq_true hmask, Bool.and_self]))
    _ = _ := by
      simp only [lineOf_begun, lineHeld_begun, hopen, hheld, hops', beq_self_eq_true, Bool.not_false, Bool.true_or,
        Bool.and_self, need_true, answer_done]
      rfl

/-! ### LINE_STATE and LINE_AREA (R199, R212) -/

/-- LINE_STATE returns state, epoch and sequences, and writes the whole entry where it has an address for it. -/
theorem lineState_returns {dest : BitVec 64} (h : Ready false alwaysGate (.lineState p line dest) p q s)
    (hline : line.toNat < 512) :
    let ln := lineOf (troupe s q.target) line.toNat
    let k := if ln.carousel then ({ addr := 0 } : Peer) else ln.peers.headD { addr := 0 }
    exec (.lineState p line dest) s = .next (completed p .done
      [(0, leBytes 1 ln.state.val.code), (2, leBytes 2 ln.epoch.toNat), (4, leBytes 4 k.next.val.toNat),
       (8, leBytes 4 k.oldest.val.toNat), (12, leBytes 4 k.expected.val.toNat)] [] []
      (if dest = 0 then begun p s else pokeHbm (begun p s) dest.toNat (lineEntry q.target line.toNat ln))) := by
  intro ln k
  calc exec (.lineState p line dest) s = execLineState p line dest s := rfl
    _ = _ := congrArg Host.Outcome.next (serve_ready rfl h (decide_eq_true hline))
    _ = _ := by
      simp only [lineOf_begun, answer_doneWith, res]
      rfl

theorem lineArea_sets {mib : BitVec 16} (h : Ready false anyGate (.lineArea p mib) p q s) (hlo : 16 ≤ mib.toNat)
    (hhi : mib.toNat ≤ 4096) :
    exec (.lineArea p mib) s = .next (completed p .done [] [] []
      (modTroupe (begun p s) q.target fun tr => { tr with area := mib.toNat })) :=
  calc exec (.lineArea p mib) s = execLineArea p mib s := rfl
    _ = _ := congrArg Host.Outcome.next (serve_ready rfl h ((inRange_eq_true_iff ..).2 ⟨hlo, hhi⟩))

end Rows

/-! ### The statement -/

/-- Settles O14: one lemma for each row. -/
theorem lineSettingsComplete : Obligations.LineSettingsComplete := by
  unfold Obligations.LineSettingsComplete
  refine ⟨?set, ?state, ?area⟩
  case set =>
    rintro p q s line mask peer remoteBase remoteLen localBase localLen payload share h hline hmask hpayload hshare
      hremote hlocal ln hopen hheld rfl hops
    exact lineSet_sets h hline hmask hpayload hshare hremote hlocal hopen hheld hops
  case state => exact fun _ _ _ _ _ h hline => lineState_returns h hline
  case area => exact fun _ _ _ _ h hlo hhi => lineArea_sets h hlo hhi

end Sys2Proof.Machine
end

section
/-! The control frames of Lines (R214, R215, R218, R225, Tables 6.11 and 8.7): each row leaves a frame that matches a
line without a broken word to the effect of its kind; one lemma for each of them, and the statement O32 put together
from them. -/

namespace Sys2Proof.Machine

open Sys2Proof

section Rows

variable {dt port t l i : Nat} {f : List Byte} {s : State}

/-- A control frame that matches a line is left to the effect of its row on that line. -/
theorem arriveOpen_controls {k : Kind} (H : Controls k dt port f t l i s) (closed : Bool)
    (act : Nat → Nat → Nat → State → State) :
    arriveOpen k closed dt port f (onLine f act) s = act t l i (counted k dt port s) := by
  obtain ⟨hheard, hmatch, hwhole⟩ := H
  simp only [arriveOpen_heard hheard, onLine, hmatch, checkLine_of_not_broken ((congrArg lineBroken
    (lineOf_counted ..)).trans hwhole)]

/-! ### ACK and NAK (R214, R215) -/

theorem ackReceive_acknowledges (H : Controls .ack dt port f t l i s)
    (htakes : takesAcks (lineOf (troupe s t) l) = true) (hepoch : frameEpoch f = (lineOf (troupe s t) l).epoch) :
    exec (.ackReceive dt port f) s = .next
      (acknowledge t l i (BitVec.ofNat 32 (bodyField f 7 4) + 1) f (counted .ack dt port s)) :=
  calc exec (.ackReceive dt port f) s = execAckReceive dt port f s := rfl
    _ = _ := by simp [execAckReceive, arriveOpen_controls H, htakes, hepoch]

theorem nakReceive_gap (H : Controls .nak dt port f t l i s) (hreason : bits (bodyField f 17 1) 1 2 = 0)
    (htakes : takesAcks (lineOf (troupe s t) l) = true) (hepoch : frameEpoch f = (lineOf (troupe s t) l).epoch) :
    exec (.nakReceive dt port f) s = .next (nakGap t l i f (counted .nak dt port s)) :=
  calc exec (.nakReceive dt port f) s = execNakReceive dt port f s := rfl
    _ = _ := by simp [execNakReceive, arriveOpen_controls H, hreason, htakes, hepoch]

theorem nakReceive_epoch (H : Controls .nak dt port f t l i s) (hreason : bits (bodyField f 17 1) 1 2 = 1)
    (hopen : (lineOf (troupe s t) l).state.val = .opened) (hepoch : frameEpoch f ≠ (lineOf (troupe s t) l).epoch) :
    exec (.nakReceive dt port f) s = .next (beginReset t l (counted .nak dt port s)) :=
  calc exec (.nakReceive dt port f) s = execNakReceive dt port f s := rfl
    _ = _ := by simp [execNakReceive, arriveOpen_controls H, hreason, hopen, hepoch]

theorem nakReceive_closed (H : Controls .nak dt port f t l i s) (hreason : bits (bodyField f 17 1) 1 2 = 2)
    (hopen : (lineOf (troupe s t) l).state.val = .opened ∨ (lineOf (troupe s t) l).state.val = .closing) :
    exec (.nakReceive dt port f) s = .next (shutLine t l (counted .nak dt port s)) :=
  calc exec (.nakReceive dt port f) s = execNakReceive dt port f s := rfl
    _ = _ := by simp [execNakReceive, arriveOpen_controls H, hreason, hopen]

/-! ### PROBE and PROBE_ECHO (R225) -/

theorem probeReceive_echoes {p : Peer} (H : Controls .probe dt port f t l i s) (hpeer : peerOf s t l i = some p) :
    let s1 := counted .probe dt port s
    exec (.probeReceive dt port f) s = .next (sendControl t (routeClass (troupe s1 t) l) p.addr
      (controlTo s1 0x83 t l
        [(5, 2, bodyField f 5 2), (7, 4, bodyField f 7 4), (11, 4, bodyField f 11 4)] p.addr) s1) :=
  calc exec (.probeReceive dt port f) s = execProbeReceive dt port f s := rfl
    _ = _ := by simp only [execProbeReceive, arriveOpen_controls H, peerOf_counted, hpeer]

theorem probeEchoReceive_samples {p : Peer} (H : Controls .probeEcho dt port f t l i s)
    (hpeer : peerOf s t l i = some p) (hepoch : frameEpoch f = (lineOf (troupe s t) l).epoch)
    (hprobe : p.probe.toNat = bodyField f 7 4) :
    let s1 := counted .probeEcho dt port s
    exec (.probeEchoReceive dt port f) s = .next (sampleRtt t l i
      (rttOf s1.house.ck (BitVec.ofNat 32 (bodyField f 11 4)) (bodyField f 15 2)) 0 s1) :=
  calc exec (.probeEchoReceive dt port f) s = execProbeEchoReceive dt port f s := rfl
    _ = _ := by simp [execProbeEchoReceive, arriveOpen_controls H, hpeer, hepoch, hprobe]

/-! ### KNOCK_ANSWER (R218, Table 8.7) -/

/-- A peer once it has granted an epoch (R218). -/
def Peer.grant (g : BitVec 16) (p : Peer) : Peer :=
  { p with granted := some g, knockTimer := none, knockStage := 0, retryAt := none }

/-- A peer that has refused a knock, to be knocked again at a tick (R218). -/
def Peer.refuse (tick : Nat) (p : Peer) : Peer := { p with knockTimer := none, knockStage := 0, retryAt := some tick }

theorem allGranted_singleton {ln : Line} {p : Peer} (h : ln.peers = [p]) : allGranted ln = p.granted := by
  simp [allGranted, h]

/-- The only peer of a line grants the epoch that was asked for: the line is OPEN in it. -/
theorem granted_of_only {g : BitVec 16} {p : Peer} (htroupe : (tabGet s.troupes t).isSome = true)
    (hpeers : (lineOf (troupe s t) l).peers = [p]) (hg : g = (lineOf (troupe s t) l).requested.getD 0) :
    granted t l 0 g s = openEpoch t l g (modPeer s t l 0 (Peer.grant g)) := by
  have hall : allGranted (lineOf (troupe (modPeer s t l 0 (Peer.grant g)) t) l) = some g := by
    refine allGranted_singleton (p := p.grant g) ?_
    rw [modPeer, lineOf_modLine_same htroupe]
    simp [hpeers]
  have hask : (g != (lineOf (troupe s t) l).requested.getD 0) = false := by simp [hg]
  simp only [granted, hask, Bool.false_and, Bool.false_eq_true, if_false]
  split
  next e he => rw [Option.some.inj (he.symm.trans hall)]; rfl
  next he => cases he.symm.trans hall

theorem eq_zero_and_peers_of_only {p : Peer} (hpeer : peerOf s t l i = some p)
    (hone : (lineOf (troupe s t) l).peers.length = 1) : i = 0 ∧ (lineOf (troupe s t) l).peers = [p] := by
  obtain ⟨a, ha⟩ := List.length_eq_one_iff.1 hone
  rw [peerOf, ha] at hpeer
  cases i with
  | zero => exact ⟨rfl, by rw [ha, Option.some.inj hpeer]⟩
  | succ n => cases hpeer

section Awaited

variable {p : Peer} (H : Controls .knockAnswer dt port f t l i s) (hpeer : peerOf s t l i = some p)
  (hfree : p.granted = none)
  (hstate : (lineOf (troupe s t) l).state.val = .knocking ∨ (lineOf (troupe s t) l).state.val = .resetting)

include H hpeer hfree hstate

/-- An answer to a knock by a peer that has granted nothing is taken while its line is KNOCKING or RESETTING. -/
theorem knockAnswerReceive_awaited :
    let s1 := counted .knockAnswer dt port s
    exec (.knockAnswerReceive dt port f) s = .next
      (if bodyField f 11 1 = statusCode .done then granted t l i (frameEpoch f) s1
       else if bodyField f 11 1 = statusCode .closed then
         gauge (modPeer s1 t l i (Peer.refuse (s.house.tick + max 1 (bodyField f 12 2)))) t 0x410 1
       else s1) := by
  have hwaits : ((lineOf (troupe s t) l).state.val == .knocking || (lineOf (troupe s t) l).state.val == .resetting) =
      true := by simpa using hstate
  calc exec (.knockAnswerReceive dt port f) s = execKnockAnswerReceive dt port f s := rfl
    _ = _ := by
      simp only [execKnockAnswerReceive, arriveOpen_controls H, lineOf_counted, hwaits, peerOf_counted, hpeer,
        Option.any_some, hfree, Option.isNone_none, Bool.and_self, Bool.not_true, Bool.false_eq_true, if_false,
        counted_tick]
      rfl

/-- The answer DONE of a line's only peer opens the line in the epoch that was asked for. -/
theorem knockAnswerReceive_done (hdone : bodyField f 11 1 = statusCode .done)
    (hepoch : frameEpoch f = (lineOf (troupe s t) l).requested.getD 0)
    (hone : (lineOf (troupe s t) l).peers.length = 1) :
    exec (.knockAnswerReceive dt port f) s = .next (openEpoch t l (frameEpoch f)
      (modPeer (counted .knockAnswer dt port s) t l i (Peer.grant (frameEpoch f)))) := by
  obtain ⟨rfl, hpeers⟩ := eq_zero_and_peers_of_only hpeer hone
  have htroupe : (tabGet (counted .knockAnswer dt port s).troupes t).isSome = true := by
    refine tabGet_isSome_of_not_closed (l := l) ?_
    rcases hstate with h | h <;> simp [h]
  rw [knockAnswerReceive_awaited H hpeer hfree hstate, if_pos hdone,
    granted_of_only htroupe (by rwa [lineOf_counted]) (by rwa [lineOf_counted])]

/-- The answer CLOSED sets the time of the next knock. -/
theorem knockAnswerReceive_closed (hclosed : bodyField f 11 1 = statusCode .closed) :
    exec (.knockAnswerReceive dt port f) s = .next (gauge (modPeer (counted .knockAnswer dt port s) t l i
      (Peer.refuse (s.house.tick + max 1 (bodyField f 12 2)))) t 0x410 1) := by
  have hnot : bodyField f 11 1 ≠ statusCode .done := by rw [hclosed]; decide
  rw [knockAnswerReceive_awaited H hpeer hfree hstate, if_neg hnot, if_pos hclosed]

end Awaited

end Rows

/-! ### The statement -/

/-- Settles O32: one lemma for each effect; a NAK goes by its reason, a knock answer by its status. -/
theorem lineControlFramesComplete : Obligations.LineControlFramesComplete := by
  unfold Obligations.LineControlFramesComplete
  refine ⟨?ack, ?nak, ?probe, ?echo, ?answer⟩
  case ack => exact fun _ _ _ _ _ _ _ H htakes hepoch => ackReceive_acknowledges H htakes hepoch
  case nak =>
    intro dt port f t l i s H ln s1
    exact ⟨nakReceive_gap H, nakReceive_epoch H, nakReceive_closed H⟩
  case probe => exact fun _ _ _ _ _ _ _ _ H hpeer => probeReceive_echoes H hpeer
  case echo => exact fun _ _ _ _ _ _ _ _ H hpeer hepoch hprobe => probeEchoReceive_samples H hpeer hepoch hprobe
  case answer =>
    intro dt port f t l i s p H hpeer hfree ln s1 hstate
    exact ⟨knockAnswerReceive_done H hpeer hfree hstate, knockAnswerReceive_closed H hpeer hfree hstate⟩

end Sys2Proof.Machine
end

section
/-! Knocks (R218, R246, Table 8.7): what a closed house, a CLOSED line and an OPEN line make of a knock, and the
statement O33 put together from that. -/

namespace Sys2Proof.Machine

open Sys2Proof

section Rows

variable {dt port t l : Nat} {f : List Byte} {s : State}

/-- A knock on a port that carries more than TICK frames is heard. -/
theorem knockReceive_heard (H : Heard .knock dt port f s) (hticks : ticksOnly s port = false) :
    exec (.knockReceive dt port f) s = .next (hearKnock port f (counted .knock dt port s)) :=
  calc exec (.knockReceive dt port f) s = execKnockReceive dt port f s := rfl
    _ = _ := by simp [execKnockReceive, arrive_heard H, hticks]

section Named

variable (ht : bodyField f 2 1 % 64 = t) (hl : lineNumber s t (bodyField f 3 2 % 512) f = l)

include ht hl

/-- A closed house answers CLOSED with its retry-after (R246). -/
theorem hearKnock_of_closed_house (h : s.house.doorsOpen = false) :
    hearKnock port f s = answerKnock port t l f 0 .closed (closedRetry s) s := by
  simp only [hearKnock, ht, hl, h, Bool.not_false, if_true]

/-- A CLOSED line refuses a knock (Table 8.7). -/
theorem hearKnock_of_closed_line (ho : s.house.doorsOpen = true) (hwhole : lineBroken (lineOf (troupe s t) l) = false)
    (hclosed : (lineOf (troupe s t) l).state.val = .closed) : hearKnock port f s = refuseKnock port t l f s := by
  simp [hearKnock, ht, hl, ho, checkLine_of_not_broken hwhole, hclosed]

/-- An OPEN line lends its epoch to a peer that it has answered no knock, where that asks for no later one (R218, log
entry 81). -/
theorem hearKnock_of_open_line {i : Nat} {p : Peer} (ho : s.house.doorsOpen = true)
    (hwhole : lineBroken (lineOf (troupe s t) l) = false) (hopen : (lineOf (troupe s t) l).state.val = .opened)
    (hstays : (troupe s t).promotion = none) (hindex : peerIndex (lineOf (troupe s t) l) (frameSrc f) = some i)
    (hpeer : peerOf s t l i = some p) (hfirst : p.answered = none)
    (hearlier : epochLater (lineOf (troupe s t) l).epoch (frameEpoch f) = false) :
    hearKnock port f s = grant port t l i f (lineOf (troupe s t) l).epoch (sendFinal t l i s) := by
  have hknock : knockByState port t l i f s = grant port t l i f (lineOf (troupe s t) l).epoch (sendFinal t l i s) := by
    simp [knockByState, hopen, hpeer, hfirst, hearlier]
  simp [hearKnock, ht, hl, ho, checkLine_of_not_broken hwhole, hopen, hstays, hindex, hknock]

end Named

end Rows

/-! ### The statement -/

/-- Settles O33: a knock is heard with its frame counted, which changes nothing that its answer depends on. -/
theorem knocksAnswered : Obligations.KnocksAnswered := by
  unfold Obligations.KnocksAnswered
  intro dt port f s H hticks s1 t l ln
  have hline : lineOf (troupe s1 t) l = ln := lineOf_counted ..
  rw [knockReceive_heard H hticks]
  refine ⟨?house, ?closed, ?opened⟩
  case house =>
    exact fun hdoors => congrArg Host.Outcome.next
      (hearKnock_of_closed_house rfl rfl ((counted_doorsOpen ..).trans hdoors))
  case closed =>
    exact fun hdoors hwhole hclosed => congrArg Host.Outcome.next
      (hearKnock_of_closed_line rfl rfl ((counted_doorsOpen ..).trans hdoors) (by rwa [hline]) (by rwa [hline]))
  case opened =>
    intro hdoors hwhole hopen hstays i p hindex hpeer hfirst hearlier
    have hstays' : (troupe s1 t).promotion = none := by rwa [troupe_counted, passCk_promotion]
    rw [hearKnock_of_open_line rfl rfl ((counted_doorsOpen ..).trans hdoors) (by rwa [hline]) (by rwa [hline]) hstays'
      (by rwa [hline]) ((peerOf_counted ..).trans hpeer) hfirst (by rwa [hline]), hline]

end Sys2Proof.Machine
end

section
/-! The timers of Lines (R216, R218, R225, R247, Table 8.6): one lemma for each row under the condition that lets its
event happen, and the statement O36 put together from them. -/

namespace Sys2Proof.Machine

open Sys2Proof

section Rows

variable {dt t line peer : Nat} {s : State} {p : Peer}

/-! ### The retransmit timer (R216) -/

/-- The timer of a peer with something outstanding goes back with the next stage, or faults the line after the last. -/
theorem retransmitTimerExpiry_acts {c : Nat} (hwhole : lineBroken (lineOf (troupe s t) line) = false)
    (hstate : (lineOf (troupe s t) line).state.val = .opened ∨ (lineOf (troupe s t) line).state.val = .closing)
    (hpeer : (lineOf (troupe s t) line).peers[peer]? = some p) (htimer : p.timer = some c)
    (hdue : c + stageCk p.stage ≤ s.house.ck + dt) (hout : p.out ≠ [])
    (hfrozen : frozenHop (passCk dt s) t line p = false) :
    let s1 := gauge (passCk dt s) t 0x420 1
    exec (.retransmitTimerExpiry dt t line peer) s = .next
      (if 5 ≤ p.stage then faultLine t line (lineRec t line .timeout 0) s1
       else modPeer (goBackFrom t line peer p.oldest.val s1) t line peer fun p =>
         { p with stage := p.stage + 1, timer := some (s.house.ck + dt) }) := by
  have hwhole' : lineBroken (lineOf (troupe (passCk dt s) t) line) = false := by rwa [lineOf_passCk]
  have hopen : ((lineOf (troupe s t) line).state.val == .opened || (lineOf (troupe s t) line).state.val == .closing) =
      true := by simpa using hstate
  calc exec (.retransmitTimerExpiry dt t line peer) s = execRetransmitTimerExpiry dt t line peer s := rfl
    _ = _ := by
      simp only [execRetransmitTimerExpiry, lineOf_passCk, hpeer, htimer, Option.any_some, passCk_ck, hdue,
        decide_true, Bool.not_true, List.isEmpty_eq_false_iff.2 hout, hfrozen, hopen, Bool.or_self, Bool.false_eq_true,
        if_false, useLine_of_not_broken hwhole', gauge_house]

/-! ### The knock timer (R218) -/

/-- A knock is sent again with the next stage; after the last its line faults, from RESETTING with its epoch left. -/
theorem knockTimerExpiry_acts {c : Nat} (hwhole : lineBroken (lineOf (troupe s t) line) = false)
    (hknocks : knocks (lineOf (troupe s t) line) peer = some p) (htimer : p.knockTimer = some c)
    (hdue : c + stageCk p.knockStage ≤ s.house.ck + dt) :
    let s1 := passCk dt s
    exec (.knockTimerExpiry dt t line peer) s = .next
      (if p.knockStage < 5 then sendKnock t line peer (p.knockStage + 1) s1
       else faultLine t line (lineRec t line .timeout 0)
         (if (lineOf (troupe s t) line).state.val == .resetting then leaveEpoch t line s1 else s1)) := by
  have hwhole' : lineBroken (lineOf (troupe (passCk dt s) t) line) = false := by rwa [lineOf_passCk]
  calc exec (.knockTimerExpiry dt t line peer) s = execKnockTimerExpiry dt t line peer s := rfl
    _ = _ := by
      simp only [execKnockTimerExpiry, lineOf_passCk, hknocks, htimer, Option.any_some, passCk_ck, hdue, decide_true,
        Bool.not_true, Bool.false_eq_true, if_false, useLine_of_not_broken hwhole']

/-! ### The retry-after and the first knocks (R218, R247) -/

theorem knockRetry_knocks {n : Nat} (hwhole : lineBroken (lineOf (troupe s t) line) = false)
    (hknocks : knocks (lineOf (troupe s t) line) peer = some p) (hretry : p.retryAt = some n)
    (hpast : n ≤ s.house.tick) :
    exec (.knockRetry dt t line peer) s = .next (sendKnock t line peer 0 (passCk dt s)) := by
  have hwhole' : lineBroken (lineOf (troupe (passCk dt s) t) line) = false := by rwa [lineOf_passCk]
  calc exec (.knockRetry dt t line peer) s = execKnockRetry dt t line peer s := rfl
    _ = _ := by simp [execKnockRetry, hknocks, hretry, hpast, useLine_of_not_broken hwhole']

theorem firstKnock_knocks (hwhole : lineBroken (lineOf (troupe s t) line) = false)
    (hknocks : knocks (lineOf (troupe s t) line) peer = some p) (hdoors : s.house.doorsOpen = true)
    (hroom : s.house.knocksInTick < 64)
    (hturn : ((rotation (lineAddr s t line) (lineOf (troupe s t) line)).find? fun i =>
      ((lineOf (troupe s t) line).peers[i]?).any (·.firstDue)) = some peer) :
    exec (.firstKnock dt t line peer) s = .next (sendKnock t line peer 0
      (modHouse (passCk dt s) fun h => { h with knocksInTick := h.knocksInTick + 1 })) := by
  have hwhole' : lineBroken (lineOf (troupe (passCk dt s) t) line) = false := by rwa [lineOf_passCk]
  calc exec (.firstKnock dt t line peer) s = execFirstKnock dt t line peer s := rfl
    _ = _ := by simp [execFirstKnock, hknocks, hdoors, hroom, hturn, useLine_of_not_broken hwhole']

/-! ### PROBE (R225) -/

/-- A governed OPEN line with work waiting, no sample and no PROBE for 32 µs sends a PROBE (log entry 53). -/
theorem probeSend_sends (hwhole : lineBroken (lineOf (troupe s t) line) = false)
    (hopen : (lineOf (troupe s t) line).state.val = .opened)
    (hpeer : (lineOf (troupe s t) line).peers[peer]? = some p)
    (hlong : ∀ c, p.sampledAt = some c ∨ p.probedAt = some c → c + 57600 ≤ s.house.ck + dt)
    (hwork : (unsentFrames (troupe s t) line peer).any (governed (passCk dt s) (troupe s t)) = true) :
    let s1 := passCk dt s
    let s2 := modPeer s1 t line peer fun p => { p with probe := p.probe + 1, probedAt := some s1.house.ck }
    exec (.probeSend dt t line peer) s = .next (sendControl t (routeClass (troupe s t) line) p.addr
      (controlTo s1 0x82 t line [(5, 2, (lineOf (troupe s t) line).epoch.toNat), (7, 4, (p.probe + 1).toNat),
        (11, 4, s1.house.ck % 2 ^ 32)] p.addr) s2) := by
  intro s1 s2
  have hwhole' : lineBroken (lineOf (troupe (passCk dt s) t) line) = false := by rwa [lineOf_passCk]
  have hsampled : (p.sampledAt.all fun c => decide (c + 57600 ≤ s.house.ck + dt)) = true := by
    simpa [Option.all_eq_true] using fun c h => hlong c (.inl h)
  have hprobed : (p.probedAt.all fun c => decide (c + 57600 ≤ s.house.ck + dt)) = true := by
    simpa [Option.all_eq_true] using fun c h => hlong c (.inr h)
  have hnext : modPeer s1 t line peer (fun q => { q with probe := p.probe + 1, probedAt := some s1.house.ck }) = s2 :=
    modPeer_congr (by rwa [peerOf, lineOf_passCk]) rfl
  calc exec (.probeSend dt t line peer) s = execProbeSend dt t line peer s := rfl
    _ = _ := by
      simp only [execProbeSend, lineOf_passCk, hpeer, hopen, passCk_ck, hsampled, hprobed, unsentFrames_passCk,
        governed_passCk, hwork, useLine_of_not_broken hwhole', routeClass_passCk, bne_self_eq_false, Bool.and_self,
        Bool.not_true, Bool.or_self, Bool.false_eq_true, if_false, ← hnext, s1]

end Rows

/-! ### The statement -/

/-- Settles O36: one lemma for each row; the retransmit and the knock timer go by their stage. -/
theorem lineTimersComplete : Obligations.LineTimersComplete := by
  unfold Obligations.LineTimersComplete
  refine ⟨?retransmit, ?knock, ?retry, ?first, ?probe⟩
  case retransmit =>
    intro dt t line peer s p c s1 ln hwhole hstate hpeer htimer hdue hout hfrozen
    have hacts := retransmitTimerExpiry_acts hwhole hstate hpeer htimer hdue hout hfrozen
    exact ⟨fun hmore => hacts.trans (by rw [if_neg (by omega)]), fun hlast => hacts.trans (by rw [if_pos hlast])⟩
  case knock =>
    intro dt t line peer s p c s1 ln hwhole hknocks htimer hdue
    have hacts := knockTimerExpiry_acts hwhole hknocks htimer hdue
    exact ⟨fun hmore => hacts.trans (by rw [if_pos hmore]),
      fun hlast hkeeps => hacts.trans (by rw [if_neg (by omega), if_neg (by simpa using hkeeps)])⟩
  case retry => exact fun _ _ _ _ _ _ _ hwhole hknocks hretry hpast => knockRetry_knocks hwhole hknocks hretry hpast
  case first =>
    exact fun _ _ _ _ _ _ hwhole hknocks hdoors hroom hturn => firstKnock_knocks hwhole hknocks hdoors hroom hturn
  case probe =>
    exact fun _ _ _ _ _ _ hwhole hopen hpeer hlong hwork => probeSend_sends hwhole hopen hpeer hlong hwork

end Sys2Proof.Machine
end

section
/-! The slice and routing commands of the house (R238, R241, R242, R255, R401): when a slice suits this chip, what keeps
a staged bank from being committed, one lemma for each way a row ends, and the statement O3 put together from them. -/

namespace Sys2Proof.Machine

open Sys2Proof

/-! ### A slice that suits this chip (R238) -/

/-- The position or the extents that three arguments of HOUSE_SLICE_SET spell. -/
def coordArg (x y z : BitVec 8) : Coord := ⟨x.toNat, y.toNat, z.toNat⟩

/-- Whether a slice suits this chip (R238): every axis has an extent up to the pod's length and an origin in the pod,
the chip lies inside, and the diameter is at most 63 (R255). -/
def sliceFits (s : State) (o e : Coord) : Bool :=
  ([0, 1, 2].all fun a =>
    decide (1 ≤ e.on a) && decide (e.on a ≤ s.house.dims.on a) && decide (o.on a < s.house.dims.on a)) &&
    inSlice s (o, e) s.house.coord && decide (diameter s e ≤ 63)

theorem sliceFits_eq_true_iff (s : State) (o e : Coord) : sliceFits s o e = true ↔
    (∀ a < 3, 1 ≤ e.on a ∧ e.on a ≤ s.house.dims.on a ∧ o.on a < s.house.dims.on a) ∧
      inSlice s (o, e) s.house.coord = true ∧ diameter s e ≤ 63 := by
  have haxes : ∀ P : Nat → Prop, (∀ a ∈ [0, 1, 2], P a) ↔ ∀ a < 3, P a := fun P =>
    forall_congr' fun a => imp_congr_left (by simp only [List.mem_cons, List.not_mem_nil, or_false]; omega)
  simp only [sliceFits, Bool.and_eq_true, List.all_eq_true, haxes, decide_eq_true_eq, and_assoc]

/-- A record with a new slice: nothing is left of its routes, their epoch and its rounds (R238). -/
def Slice.reshape (o e : Coord) (sl : Slice) : Slice :=
  { sl with shape := some (o, e), bank0 := [], bank1 := [], epoch := 0, margin := 0, mask := 0, found := [] }

/-- A troupe bound to a slice record. -/
def Troupe.bindSlice (record : Nat) (tr : Troupe) : Troupe := { tr with slice := some record }

/-! ### Entries that no commit lets pass (R242) -/

/-- A whole entry that sends frames to a port that may not be used. -/
def deadEntry (s : State) (w : Pair (BitVec 32)) : Bool :=
  whole w && entryValid w.val && ! entryLocal w.val && ! entryCut w.val && ! portUsable s (entryPort w.val)

theorem deadEntry_eq_false_iff (s : State) (w : Pair (BitVec 32)) : deadEntry s w = false ↔
    (whole w = true → entryValid w.val = true →
      entryLocal w.val = true ∨ entryCut w.val = true ∨ portUsable s (entryPort w.val) = true) := by
  simp [deadEntry, or_iff_not_imp_left]

section Rows

variable {p : Post} {q : Posted} {s : State} {record : BitVec 8}

/-! ### HOUSE_SLICE_SET (R238) -/

section SliceSet

variable {x0 y0 z0 ex ey ez : BitVec 8}
  (h : Ready true (gateOf (.houseSliceSet p record x0 y0 z0 ex ey ez))
    (.houseSliceSet p record x0 y0 z0 ex ey ez) p q s)
  (hrec : record.toNat < 8) (hfits : sliceFits (begun p s) (coordArg x0 y0 z0) (coordArg ex ey ez) = true)
include h hrec hfits

/-- A slice that suits the chip is judged by what the record holds and by who else is bound to it. -/
theorem houseSliceSet_judges :
    exec (.houseSliceSet p record x0 y0 z0 ex ey ez) s = .next (answer p q.target q
      (if (sliceOf s record.toNat).shape == some (coordArg x0 y0 z0, coordArg ex ey ez) then
        done (modTroupe (begun p s) q.target (Troupe.bindSlice record.toNat))
      else need ((begun p s).troupes.all (fun k => k.1 == q.target || k.2.slice != some record.toNat) &&
          (sliceOf s record.toNat).commit.isNone && (sliceOf s record.toNat).draining.isNone) .state <|
        done (modTroupe (modSlice (begun p s) record.toNat (Slice.reshape (coordArg x0 y0 z0) (coordArg ex ey ez)))
          q.target (Troupe.bindSlice record.toNat)))
      (begun p s)) :=
  calc exec (.houseSliceSet p record x0 y0 z0 ex ey ez) s = execHouseSliceSet p record x0 y0 z0 ex ey ez s := rfl
    _ = _ := congrArg Host.Outcome.next (serve_ready rfl h (decide_eq_true hrec))
    _ = _ := congrArg (fun v => Host.Outcome.next (answer p q.target q v (begun p s))) (need_of hfits _ _)
    _ = _ := by simp only [sliceOf_begun]; rfl

/-- A record that holds the slice already only has the troupe bound to it. -/
theorem houseSliceSet_binds
    (hsame : (sliceOf s record.toNat).shape = some (coordArg x0 y0 z0, coordArg ex ey ez)) :
    exec (.houseSliceSet p record x0 y0 z0 ex ey ez) s = .next (completed p .done [] [] []
      (modTroupe (begun p s) q.target (Troupe.bindSlice record.toNat))) := by
  rw [houseSliceSet_judges h hrec hfits, if_pos (beq_iff_eq.2 hsame), answer_done]

/-- A record that no other troupe is bound to takes a new slice, where no commit pends and no bank drains. -/
theorem houseSliceSet_reshapes
    (hnew : (sliceOf s record.toNat).shape ≠ some (coordArg x0 y0 z0, coordArg ex ey ez))
    (hcommit : (sliceOf s record.toNat).commit = none) (hdrain : (sliceOf s record.toNat).draining = none)
    (halone : ∀ k ∈ (begun p s).troupes, k.1 = q.target ∨ k.2.slice ≠ some record.toNat) :
    exec (.houseSliceSet p record x0 y0 z0 ex ey ez) s = .next (completed p .done [] [] []
      (modTroupe (modSlice (begun p s) record.toNat (Slice.reshape (coordArg x0 y0 z0) (coordArg ex ey ez)))
        q.target (Troupe.bindSlice record.toNat))) := by
  have hfree : ((begun p s).troupes.all (fun k => k.1 == q.target || k.2.slice != some record.toNat) &&
      (sliceOf s record.toNat).commit.isNone && (sliceOf s record.toNat).draining.isNone) = true := by
    simpa [hcommit, hdrain] using halone
  rw [houseSliceSet_judges h hrec hfits, if_neg (by simpa using hnew), need_of hfree, answer_done]

end SliceSet

/-! ### The staged bank is filled and set (R241, R401) -/

theorem houseRouteFill_fills (h : Ready true houseGate (.houseRouteFill p record) p q s) (hrec : record.toNat < 8)
    (hfree : stagedFree (sliceOf s record.toNat) = true) :
    exec (.houseRouteFill p record) s = .next (completed p .done [] [] []
      (modSlice (begun p s) record.toNat (fillRoutes (begun p s)))) :=
  calc exec (.houseRouteFill p record) s = execHouseRouteFill p record s := rfl
    _ = _ := congrArg Host.Outcome.next (serve_ready rfl h (decide_eq_true hrec))
    _ = _ := by simp only [sliceOf_begun, hfree, need_true, answer_done]

theorem houseRouteSet_sets {count : BitVec 32} {items : BitVec 64} {es : List (Nat × BitVec 32)}
    (h : Ready true houseGate (.houseRouteSet p record count items) p q s) (hrec : record.toNat < 8)
    (hlo : 1 ≤ count.toNat) (hhi : count.toNat ≤ 65536) (hfree : stagedFree (sliceOf s record.toNat) = true)
    (hitems : routeItems (begun p s) count.toNat items.toNat = .ok es) :
    exec (.houseRouteSet p record count items) s = .next (completed p .done [] [] []
      (modSlice (begun p s) record.toNat fun sl => es.foldl (fun sl e => putStaged sl e.1 ⟨e.2, 0⟩) sl)) := by
  have hargs : (decide (record.toNat < 8) && inRange 1 65536 count.toNat) = true := by
    rw [decide_eq_true hrec, (inRange_eq_true_iff ..).2 ⟨hlo, hhi⟩, Bool.and_self]
  calc exec (.houseRouteSet p record count items) s = execHouseRouteSet p record count items s := rfl
    _ = _ := congrArg Host.Outcome.next (serve_ready rfl h hargs)
    _ = _ := by simp only [sliceOf_begun, hfree, need_true, hitems, answer_done]

/-! ### HOUSE_ROUTE_COMMIT (R242, R255) -/

theorem houseRouteCommit_pends {epoch : BitVec 16} {margin mask : BitVec 8} {effective : BitVec 64}
    (h : Ready true houseGate (.houseRouteCommit p record epoch margin mask effective) p q s) (hrec : record.toNat < 8)
    (hmargin : margin.toNat ≤ 8) (hmask : mask &&& 0x3F = 0) (heff : s.house.tick + 4 ≤ effective.toNat)
    (hdrain : (sliceOf s record.toNat).draining = none) (hcommit : (sliceOf s record.toNat).commit = none)
    (hepoch : epoch = (sliceOf s record.toNat).epoch + 1)
    (hlive : ∀ e ∈ bankOf (sliceOf s record.toNat) (! (sliceOf s record.toNat).active),
      deadEntry (begun p s) e.2 = false)
    (hround : (((sliceOf s record.toNat).shape.map fun sh => diameter (begun p s) sh.2).getD 0) + margin.toNat ≤ 63) :
    exec (.houseRouteCommit p record epoch margin mask effective) s = .next (completed p .done [] [] []
      (modSlice (begun p s) record.toNat fun sl =>
        { sl with commit := some (epoch, margin.toNat, mask, effective.toNat) })) := by
  have hargs : (decide (record.toNat < 8) && decide (margin.toNat ≤ 8) && mask &&& 0x3F == 0) = true := by
    rw [decide_eq_true hrec, decide_eq_true hmargin, beq_iff_eq.2 hmask, Bool.and_self, Bool.and_self]
  have hbank : ((bankOf (sliceOf s record.toNat) (! (sliceOf s record.toNat).active)).any fun e =>
      deadEntry (begun p s) e.2) = false := List.any_eq_false.2 fun e he => by simp [hlive e he]
  simp only [deadEntry] at hbank
  calc exec (.houseRouteCommit p record epoch margin mask effective) s =
      execHouseRouteCommit p record epoch margin mask effective s := rfl
    _ = _ := congrArg Host.Outcome.next (serve_ready rfl h hargs)
    _ = _ := by
      simp only [sliceOf_begun, begun_house_tick, heff, hdrain, hcommit, ← hepoch, hbank, hround, Option.isNone_none,
        beq_self_eq_true, decide_true, Bool.not_false, Bool.and_self, need_true, answer_done]

end Rows

/-! ### The statement -/

/-- Settles O3: one lemma for each way a row ends; HOUSE_SLICE_SET turns on whether the record holds the slice. -/
theorem houseRoutingComplete : Obligations.HouseRoutingComplete := by
  unfold Obligations.HouseRoutingComplete
  refine ⟨?slice, ?fill, ?set, ?commit⟩
  case slice =>
    intro p q s record x0 y0 z0 ex ey ez h o e hrec haxes hin hdiam
    have hfits : sliceFits (begun p s) o e = true :=
      (sliceFits_eq_true_iff ..).2 ⟨by simpa using haxes, by simpa using hin, hdiam⟩
    exact ⟨fun hsame => houseSliceSet_binds h hrec hfits hsame, fun hnew hcommit hdrain halone =>
      houseSliceSet_reshapes h hrec hfits hnew hcommit hdrain halone⟩
  case fill => exact fun _ _ _ _ h hrec hfree => houseRouteFill_fills h hrec hfree
  case set =>
    exact fun _ _ _ _ _ _ _ h hrec hlo hhi hfree hitems => houseRouteSet_sets h hrec hlo hhi hfree hitems
  case commit =>
    exact fun _ _ _ _ _ _ _ _ h hrec hmargin hmask heff hdrain hcommit hepoch hlive hround =>
      houseRouteCommit_pends h hrec hmargin hmask heff hdrain hcommit hepoch
        (fun e he => (deadEntry_eq_false_iff ..).2 (hlive e he)) hround

end Sys2Proof.Machine
end

section
/-! The states of a link (R230, R244, R248–R252): each row under the condition that lets its event happen, and the
statement O38 put together from them. -/

namespace Sys2Proof.Machine

open Sys2Proof

section Rows

variable {dt port : Nat} {s : State}

/-! ### A link lights, loses its signal and fails (R230, R244, R249) -/

theorem linkUp_lights (hunlit : (portOf s port).link = .unlit) (hwhole : (portOf s port).failed = false) :
    exec (.linkUp dt port) s =
      .next (modPort (passCk dt s) port fun q => { q with link := .lit, verified := false }) :=
  calc exec (.linkUp dt port) s = execLinkUp dt port s := rfl
    _ = _ := by simp [execLinkUp, hunlit, hwhole]

theorem dimmingNow_of_no_dim {q : Port} (h : q.dim = none) (s : State) : dimmingNow s q = false := by
  simp only [dimmingNow, h]

/-- Outside a dim handshake a loss of signal on a lit link is timed from its first ck on. -/
theorem linkSignalLoss_times (hlit : (portOf s port).link = .lit) (hdim : (portOf s port).dim = none) :
    exec (.linkSignalLoss dt port) s = .next
      (modPort (passCk dt s) port fun q => { q with lossSince := q.lossSince.or (some (s.house.ck + dt)) }) :=
  calc exec (.linkSignalLoss dt port) s = execLinkSignalLoss dt port s := rfl
    _ = _ := by simp [execLinkSignalLoss, hlit, dimmingNow_of_no_dim hdim]

theorem portFail_fails {c : Nat} (hlit : (portOf s port).link = .lit) (hdim : (portOf s port).dim = none)
    (hloss : (portOf s port).lossSince = some c) (hlong : c + 200 * Config.ckPerUs ≤ s.house.ck + dt) :
    exec (.portFail dt port) s = .next (failPort port (passCk dt s)) :=
  calc exec (.portFail dt port) s = execPortFail dt port s := rfl
    _ = _ := by simp [execPortFail, failCk, hlit, hdim, hloss, hlong]

/-- In a dim handshake the time of a loss starts anew: it does not count (R249). -/
theorem portFail_restarts (hlit : (portOf s port).link = .lit) (hdim : (portOf s port).dim.isSome = true) :
    exec (.portFail dt port) s = .next (modPort (passCk dt s) port fun q =>
      { q with lossSince := q.lossSince.map fun _ => s.house.ck + dt }) :=
  calc exec (.portFail dt port) s = execPortFail dt port s := rfl
    _ = _ := by simp [execPortFail, hlit, hdim]

/-! ### The dim handshake of the proposer (R248, R249) -/

/-- An eligible port proposes under its next handshake number, with a dark tick that is the chip's to choose (log entry
12). -/
theorem dimPropose_proposes (heligible : dimEligible (passCk dt s) port = true) (hdim : (portOf s port).dim = none) :
    let n := (portOf s port).handshake + 1
    let dark := s.house.tick + 2 + Config.freeDraw s.house.draws
    exec (.dimPropose dt port) s = .next (sendDim port 0 n dark
      (modPort (modHouse (passCk dt s) fun h => { h with draws := h.draws + 1 }) port fun q =>
        { q with handshake := n, dim := some (true, n, dark, false, false) })) := by
  intro n dark
  calc exec (.dimPropose dt port) s = execDimPropose dt port s := rfl
    _ = _ := by simp [execDimPropose, heligible, hdim, n, dark]

theorem pastCommitPoint_eq_true_iff (s : State) (dark : Nat) :
    pastCommitPoint s dark = true ↔ dark ≤ s.house.tick + 1 := by
  simp [pastCommitPoint]

theorem dimCommitPoint_commits {n : BitVec 16} {dark : Nat}
    (hdim : (portOf s port).dim = some (true, n, dark, true, false))
    (hdue : dark ≤ s.house.tick + 1) :
    exec (.dimCommitPoint dt port) s = .next (sendDim port 3 n dark
      (modPort (passCk dt s) port fun q => { q with dim := some (true, n, dark, true, true) })) := by
  have hpast : pastCommitPoint (passCk dt s) dark = true := (pastCommitPoint_eq_true_iff ..).2 (by simpa using hdue)
  calc exec (.dimCommitPoint dt port) s = execDimCommitPoint dt port s := rfl
    _ = _ := by simp [execDimCommitPoint, hdim, hpast]

/-! ### A link goes dark, wakes and is lit again (R249–R252) -/

theorem linkDark_darkens {own sent : Bool} {n : BitVec 16} {dark : Nat}
    (hdim : (portOf s port).dim = some (own, n, dark, true, sent)) (hlit : (portOf s port).link = .lit)
    (hdue : dark ≤ s.house.tick) (hasleep : (portOf s port).woken = false)
    (hidle : framesWait (passCk dt s) port = false) :
    exec (.linkDark dt port) s = .next (goDark port (passCk dt s)) :=
  calc exec (.linkDark dt port) s = execLinkDark dt port s := rfl
    _ = _ := by simp [execLinkDark, hdim, hlit, Nat.not_lt.2 hdue, hasleep, hidle]

theorem relight_of_dark (hdark : (portOf s port).link = .dark) :
    relight port s = modPort s port fun q =>
      { q with link := .relighting, relightSince := some s.house.ck, woken := false } := by
  simp [relight, hdark]

theorem linkWake_relights {b : Bool} (hdark : (portOf s port).link = .dark) :
    exec (.linkWake dt port b) s = .next (modPort (passCk dt s) port fun q =>
      { q with link := .relighting, relightSince := some (passCk dt s).house.ck, woken := false }) := by
  have hdark' : (portOf (passCk dt s) port).link = .dark := by simpa using hdark
  calc exec (.linkWake dt port b) s = execLinkWake dt port b s := rfl
    _ = .next (relight port (passCk dt s)) := by simp only [execLinkWake, hdark']
    _ = _ := by rw [relight_of_dark hdark']

/-- A relight is over once it has lasted its 20 µs. -/
theorem relit_of_past {c : Nat} (hrelights : (portOf s port).link = .relighting)
    (hsince : (portOf s port).relightSince = some c) (hpast : c + 20 * Config.ckPerUs ≤ s.house.ck) :
    relit s port = true := by
  simp [relit, relightCk, hrelights, hsince, hpast]

theorem linkLit_lights {c : Nat} (hrelights : (portOf s port).link = .relighting)
    (hsince : (portOf s port).relightSince = some c) (hpast : c + 20 * Config.ckPerUs ≤ s.house.ck + dt) :
    exec (.linkLit dt port) s = .next (lightUp port (passCk dt s)) := by
  have hover : relit (passCk dt s) port = true :=
    relit_of_past (by simpa using hrelights) (by simpa using hsince) (by simpa using hpast)
  calc exec (.linkLit dt port) s = execLinkLit dt port s := rfl
    _ = _ := by rw [execLinkLit, if_pos hover]

end Rows

/-! ### The statement -/

/-- Settles O38: one lemma for each row; PORT_FAIL turns on whether the port is in a dim handshake. The dark tick of a
proposal is the model's choice (log entry 12). -/
theorem linkStatesComplete : Obligations.LinkStatesComplete := by
  unfold Obligations.LinkStatesComplete
  refine ⟨?up, ?loss, ?fail, ?restart, ?propose, ?commit, ?dark, ?wake, ?lit⟩
  case up => exact fun _ _ _ hunlit hwhole => linkUp_lights hunlit hwhole
  case loss => exact fun _ _ _ hlit hdim _ => linkSignalLoss_times hlit hdim
  case fail => exact fun _ _ _ _ hlit hdim hloss hlong => portFail_fails hlit hdim hloss hlong
  case restart => exact fun _ _ _ hlit hdim => portFail_restarts hlit hdim
  case propose => exact fun _ _ _ heligible hdim => dimPropose_proposes heligible hdim
  case commit => exact fun _ _ _ _ _ hdim hdue => dimCommitPoint_commits hdim hdue
  case dark =>
    exact fun _ _ _ _ _ _ _ hdim hlit hdue hasleep hidle => linkDark_darkens hdim hlit hdue hasleep hidle
  case wake => exact fun _ _ _ _ hdark => linkWake_relights hdark
  case lit => exact fun _ _ _ _ hrelights hsince hpast => linkLit_lights hrelights hsince hpast

end Sys2Proof.Machine
end

section
/-! The OPT_ commands (R268, R276, R278, R280): one lemma for each row, and the statement O18 put together from them. -/

namespace Sys2Proof.Machine

open Sys2Proof

section Rows

variable {p : Post} {q : Posted} {s : State}

/-! ### Records that wait for their step, the host ring and the detectors (R268, R276–R278) -/

/-- A troupe with an optimiser record that a tensor takes at an effective step, beside the one in force (R268). -/
def scheduleOpt (tensor : Nat) (new : OptRec) (effective : Nat) (tr : Troupe) : Troupe :=
  { tr with opt := tabPut tr.opt tensor (optRec tr tensor, some (new, effective)) }

theorem optSet_schedules {tensor : BitVec 32} {rule nesterov : BitVec 8}
    {eta lam beta1 beta2 eps d clip : BitVec 32} {effective : BitVec 64}
    (h : Ready false anyGate (.optSet p tensor rule nesterov eta lam beta1 beta2 eps d clip effective) p q s)
    (hrule : rule.toNat < 6) (hnesterov : nesterov.toNat < 2) (heta : nonNegative eta = true)
    (hlam : nonNegative lam = true) (hbeta1 : belowOne beta1 = true) (hbeta2 : belowOne beta2 = true)
    (heps : positive eps = true) (hd : positive d = true) (hclip : nonNegative clip = true)
    (hlisted : (tabGet (troupe s q.target).bill tensor.toNat).isSome = true)
    (hlater : (troupe s q.target).opened < effective.toNat) :
    exec (.optSet p tensor rule nesterov eta lam beta1 beta2 eps d clip effective) s =
      .next (completed p .done [] [] [] (modTroupe (begun p s) q.target (scheduleOpt tensor.toNat
        { rule := rule.toNat, nesterov := nesterov == 1, etaWord := ⟨eta, 0⟩, lamWord := ⟨lam, 0⟩
          beta1Word := ⟨beta1, 0⟩, beta2Word := ⟨beta2, 0⟩, epsWord := ⟨eps, 0⟩, dWord := ⟨d, 0⟩
          clipWord := ⟨clip, 0⟩ } effective.toNat))) := by
  have hargs : (decide (rule.toNat < 6) && decide (nesterov.toNat < 2) && nonNegative eta && nonNegative lam &&
      belowOne beta1 && belowOne beta2 && positive eps && positive d && nonNegative clip) = true := by
    simp [hrule, hnesterov, heta, hlam, hbeta1, hbeta2, heps, hd, hclip]
  calc exec (.optSet p tensor rule nesterov eta lam beta1 beta2 eps d clip effective) s =
      execOptSet p tensor rule nesterov eta lam beta1 beta2 eps d clip effective s := rfl
    _ = _ := congrArg Host.Outcome.next (serve_ready rfl h hargs)
    _ = _ := by simp only [begun_bill, begun_opened, hlisted, hlater, decide_true, need_true, answer_done]; rfl

theorem optTroupe_pends {gamma : BitVec 32} {lag : BitVec 8} {effective : BitVec 64}
    (h : Ready false anyGate (.optTroupe p gamma lag effective) p q s)
    (hlater : (troupe s q.target).opened < effective.toNat)
    (hlag : lag.toNat = (troupe s q.target).lag ∨ (troupe s q.target).hostSlots = []) :
    exec (.optTroupe p gamma lag effective) s = .next (completed p .done [] [] []
      (modTroupe (begun p s) q.target fun tr =>
        { tr with pendingOpt := some (gamma, lag.toNat, effective.toNat) })) := by
  have hmay : (decide ((troupe (begun p s) q.target).opened < effective.toNat) &&
      (lag.toNat == (troupe (begun p s) q.target).lag || (troupe (begun p s) q.target).hostSlots.isEmpty)) = true := by
    simpa [hlater] using hlag
  calc exec (.optTroupe p gamma lag effective) s = execOptTroupe p gamma lag effective s := rfl
    _ = _ := congrArg Host.Outcome.next (serve_ready rfl h rfl)
    _ = _ := by simp only [hmay, need_true, answer_done]

theorem optHost_sets {base slotLen : BitVec 64} (h : Ready false quietGate (.optHost p base slotLen) p q s) :
    exec (.optHost p base slotLen) s = .next (completed p .done [] [] []
      (modTroupe (begun p s) q.target fun tr => { tr with hostRing := (base, slotLen) })) :=
  calc exec (.optHost p base slotLen) s = execOptHost p base slotLen s := rfl
    _ = _ := congrArg Host.Outcome.next (serve_ready rfl h rfl)

theorem optSpike_pends {detector armed k : BitVec 8} {ratio : BitVec 32} {warmup : BitVec 16}
    (h : Ready false anyGate (.optSpike p detector armed k ratio warmup) p q s)
    (hdetector : detector.toNat < 2) (harmed : armed.toNat < 2) (hlo : 1 ≤ k.toNat) (hhi : k.toNat ≤ 10)
    (hnan : f32Nan ratio = false) (hratio : f32Lt f32One ratio = true) :
    exec (.optSpike p detector armed k ratio warmup) s = .next (completed p .done [] [] []
      (modTroupe (begun p s) q.target fun tr => { tr with
        pendingSpike := tr.pendingSpike ++ [(detector.toNat, armed == 1, k.toNat, ratio, warmup.toNat)] })) := by
  have hargs : (decide (detector.toNat < 2) && decide (armed.toNat < 2) && inRange 1 10 k.toNat && ! f32Nan ratio &&
      f32Lt f32One ratio) = true := by
    simp [hdetector, harmed, (inRange_eq_true_iff ..).2 ⟨hlo, hhi⟩, hnan, hratio]
  calc exec (.optSpike p detector armed k ratio warmup) s = execOptSpike p detector armed k ratio warmup s := rfl
    _ = _ := congrArg Host.Outcome.next (serve_ready rfl h hargs)

/-! ### Export and import (R280) -/

@[simp] theorem idList_begun (p : Post) (s : State) (a n : Nat) : idList (begun p s) a n = idList s a n := by
  simp only [idList, peekWord_begun]

section Lists

variable {count : BitVec 32} {ids : BitVec 64} (hcount : 1 ≤ count.toNat)
  (hlist : exportable (troupe (begun p s) q.target) (idList s ids.toNat count.toNat) = true)
include hcount hlist

theorem optExport_deferred {dest : BitVec 64} (h : Ready false anyGate (.optExport p count ids dest) p q s) :
    exec (.optExport p count ids dest) s = .next
      (heldBack p q.target q (.optExport (idList s ids.toNat count.toNat) dest) [] (begun p s)) :=
  calc exec (.optExport p count ids dest) s = execOptExport p count ids dest s := rfl
    _ = _ := congrArg Host.Outcome.next (serve_ready rfl h (decide_eq_true hcount))
    _ = _ := by simp only [idList_begun, hlist, need_true, answer_defer]

theorem optImport_deferred {source : BitVec 64} (h : Ready false quietGate (.optImport p count ids source) p q s) :
    exec (.optImport p count ids source) s = .next
      (heldBack p q.target q (.optImport (idList s ids.toNat count.toNat) source) [] (begun p s)) :=
  calc exec (.optImport p count ids source) s = execOptImport p count ids source s := rfl
    _ = _ := congrArg Host.Outcome.next (serve_ready rfl h (decide_eq_true hcount))
    _ = _ := by simp only [idList_begun, hlist, need_true, answer_defer]

end Lists

end Rows

/-! ### The statement -/

/-- Settles O18: one lemma for each row; a list of tensors that may be exported leaves the command held back. -/
theorem optCommandsComplete : Obligations.OptCommandsComplete := by
  unfold Obligations.OptCommandsComplete
  refine ⟨?set, ?troupe, ?host, ?spike, ?exports, ?imports⟩
  case set =>
    exact fun _ _ _ _ _ _ _ _ _ _ _ _ _ _ h hrule hnesterov heta hlam hbeta1 hbeta2 heps hd hclip hlisted hlater =>
      optSet_schedules h hrule hnesterov heta hlam hbeta1 hbeta2 heps hd hclip hlisted hlater
  case troupe => exact fun _ _ _ _ _ _ h hlater hlag => optTroupe_pends h hlater hlag
  case host => exact fun _ _ _ _ _ h => optHost_sets h
  case spike =>
    exact fun _ _ _ _ _ _ _ _ h hdetector harmed hlo hhi hnan hratio =>
      optSpike_pends h hdetector harmed hlo hhi hnan hratio
  case exports => exact fun _ _ _ _ _ _ h hcount hlist => optExport_deferred hcount hlist h
  case imports => exact fun _ _ _ _ _ _ h hcount hlist => optImport_deferred hcount hlist h

end Sys2Proof.Machine
end

section
/-! The ends of exports and of an import (R280, R310, R390): each row under the deferred command that it ends, and the
statement O20 put together from them. The layout of an exported state is log entry 15. -/

namespace Sys2Proof.Machine

open Sys2Proof

section Rows

variable {dt t : Nat} {s : State} {d : Deferred} {ids : List Nat}

theorem optExportComplete_ends {dest : BitVec 64} (hheld : s.deferred.findSome? (exportOf t) = some (d, ids, dest)) :
    let s' := useVersion t (passCk dt s)
    exec (.optExportComplete dt t) s = .next (run [.complete d.issuer d.slot .done []]
      (exportAll (troupe s' t) ids dest.toNat s')) :=
  calc exec (.optExportComplete dt t) s = execOptExportComplete dt t s := rfl
    _ = _ := by simp only [execOptExportComplete, passCk_deferred, hheld]

theorem spareExportComplete_ends {dest : BitVec 64} (hheld : s.deferred.findSome? (spareExportOf t) = some (d, dest)) :
    let s1 := passCk dt s
    exec (.spareExportComplete dt t) s = .next (run [.complete d.issuer d.slot .done []]
      (exportArea (troupe s1 t) (troupe s t).mirror.checked dest.toNat s1)) :=
  calc exec (.spareExportComplete dt t) s = execSpareExportComplete dt t s := rfl
    _ = _ := by simp only [execSpareExportComplete, passCk_deferred, hheld, passCk_mirror]

/-- A troupe with the states of an import in its committed version: the imported tensors are left to import no more, and
steps may open again once none is left (R280, R390). -/
def takeImport (ids : List Nat) (new : List (Nat × TState)) (tr : Troupe) : Troupe :=
  let tr := setCommitted tr (new.foldl (fun a e => tabPut a e.1 e.2) (committed tr))
  let left := tr.toImport.filter fun i => ! ids.contains i
  { tr with
    toImport := left, needImport := tr.needImport && ! left.isEmpty
    tierChanged := tr.tierChanged.filter fun i => ! ids.contains i }

theorem optImportComplete_ends {source : BitVec 64}
    (hheld : s.deferred.findSome? (importOf t) = some (d, ids, source)) :
    let s1 := passCk dt s
    exec (.optImportComplete dt t) s = .next (run [.complete d.issuer d.slot .done []]
      (modTroupe s1 t (takeImport ids ((importPlaces (troupe s1 t) ids source.toNat).map fun e =>
        (e.1, imported s1 (troupe s1 t) e))))) :=
  calc exec (.optImportComplete dt t) s = execOptImportComplete dt t s := rfl
    _ = _ := by simp only [execOptImportComplete, passCk_deferred, hheld]; rfl

end Rows

/-! ### The statement -/

/-- Settles O20: one lemma for each row; the passing of time changes neither the deferred commands nor the mirror. -/
theorem exportEndsComplete : Obligations.ExportEndsComplete := by
  unfold Obligations.ExportEndsComplete
  exact ⟨fun _ _ _ _ _ _ hheld => optExportComplete_ends hheld, fun _ _ _ _ _ hheld => spareExportComplete_ends hheld,
    fun _ _ _ _ _ _ hheld => optImportComplete_ends hheld⟩

end Sys2Proof.Machine
end

section
/-! Updates, host results, verdicts, the encore and captures (R270, R272, R276, R298, R306, R313): each row under the
condition that lets its event happen, and the statement O30 put together from them. -/

namespace Sys2Proof.Machine

open Sys2Proof

section Rows

variable {dt t : Nat} {s : State}

/-! ### The update sequencer issues a command (R268, R272, R351) -/

/-- The broken words that the sequencer finds as it takes up a tensor: the version word, the parameters and the playbill
entry, each recorded once (R268, R351). -/
def useTensor (t tensor : Nat) (s : State) : State :=
  useEntry .updateSequencer t tensor (useParams t tensor (useVersion t s))

/-- A command at the end of the sequencer's queue; with the first one of a step its update phase starts. -/
def queueUpdate (t : Nat) (u : UpdCmd) (s : State) : State :=
  modTroupe (modHouse s fun h => { h with updates := h.updates ++ [u] }) t fun tr =>
    modLast tr fun r => r.phase 4 fun p => p.start s

theorem updateIssue_issues {r : StepRec} {b : Nat} {e : Nat × Nat × Nat × Bool}
    (hlast : lastStep (troupe (passCk dt s) t) = some r) (hnext : nextUpdate (passCk dt s) t = some (b, e))
    (hcalled : r.state.val = .called) (hroom : s.house.updates.length < 32) :
    let s1 := passCk dt s
    exec (.updateIssue dt t) s = .next (queueUpdate t
      ⟨t, e.1, commandBlocks s.house.pits e (openBlocks s1 t (graphAt (troupe s1 t) b) e), r.num⟩
      (useTensor t e.1 s1)) := by
  have hgoes : (r.state.val != .called || decide (32 ≤ (passCk dt s).house.updates.length)) = false := by
    simpa [hcalled] using hroom
  calc exec (.updateIssue dt t) s = execUpdateIssue dt t s := rfl
    _ = _ := by
      simp only [execUpdateIssue, hlast, hnext, hgoes, Bool.false_eq_true, if_false, passCk_house_pits]
      rfl

/-! ### A command of the sequencer ends (R270, R274, R285) -/

/-- A troupe with a tensor's new state in its pending version, and the blocks that are written with it. -/
def writePending (tensor : Nat) (blocks : List Nat) (new : TState) (tr : Troupe) : Troupe :=
  { setPending tr (tabPut (pendingArea tr) tensor new) with
    written := tr.written ++ blocks.map fun k => (tensor, k) }

/-- The update phase of a step stops once every owned block is written, and completion is noted. -/
def endUpdate (t : Nat) (s : State) : State :=
  noteComplete t (modTroupe s t fun tr =>
    if promptWritten tr then modLast tr fun r => r.phase 4 fun p => p.stop s else tr)

theorem updateComplete_completes {u : UpdCmd} {rest : List UpdCmd} {g : Graph} {te : Nat × Nat × Nat × Bool}
    {r : StepRec} (hfirst : s.house.updates = u :: rest) (hown : u.troupe = t)
    (hgraph : graphOfTensor (troupe (passCk dt s) t) u.tensor = some g) (hentry : g.tensor u.tensor = some te)
    (hstep : stepOf (troupe (passCk dt s) t) u.step = some r) (hflight : inFlight r = true) (hmode : r.mirror ≠ .copy)
    (hfinite : ∀ k ∈ u.blocks,
      blkFinite (blockOf (updateTensor (troupe (passCk dt s) t) g.bucket te u.blocks) k) = true) :
    let s1 := passCk dt s
    exec (.updateComplete dt t) s = .next (endUpdate t (formDeltas t g.bucket te u.blocks
      (modTroupe (spendDigest s.house.pits te u.blocks (modHouse s1 fun h => { h with updates := rest })) t
        (writePending u.tensor u.blocks (updateTensor (troupe s1 t) g.bucket te u.blocks))))) := by
  have hgood : (u.blocks.any fun k =>
      ! blkFinite (blockOf (updateTensor (troupe (passCk dt s) t) g.bucket te u.blocks) k)) = false :=
    List.any_eq_false.2 fun k hk => by simp [hfinite k hk]
  have hreplay : (r.mirror == .copy) = false := by simpa using hmode
  calc exec (.updateComplete dt t) s = execUpdateComplete dt t s := rfl
    _ = _ := by
      simp only [execUpdateComplete, passCk_house_updates, hfirst, hown, bne_self_eq_false, hgraph, hentry, hstep,
        Option.all_some, hflight, Option.any_some, hreplay, hgood, modHouse_house, passCk_house_pits, Bool.not_true,
        Bool.false_eq_true, if_false]
      rfl

/-! ### Host results are read (R276) -/

/-- A troupe with some slots of its host ring marked as read in a step. -/
def markSlotsRead (fresh : List HostSlot) (step : Nat) (tr : Troupe) : Troupe :=
  { tr with hostSlots := tr.hostSlots.map fun h => if fresh.contains h then { h with read := some step } else h }

/-- The due slots whose done words are written and have not been read (R276, R277). -/
def freshSlots (s : State) (t step : Nat) : List HostSlot :=
  (dueSlots (troupe s t) step).filter fun h => h.read.isNone && doneWritten s (troupe s t) h.step

/-- Where the masters of the latest due slot stand in host memory. -/
def latestMasters (s : State) (t step : Nat) : Nat :=
  leNat (peek true s (hostSlotAt (troupe s t) ((dueSlots (troupe s t) step).foldl (fun a h => max a h.step) 0) + 32) 8)

/-- The place of a slot is a matter of the ring, not of what has been read. -/
theorem hostSlotAt_markSlotsRead (fresh : List HostSlot) (step : Nat) (s : State) (t n : Nat) :
    hostSlotAt (troupe (modTroupe s t (markSlotsRead fresh step)) t) n = hostSlotAt (troupe s t) n :=
  troupe_modTroupe_of s t t _ (hostSlotAt · n) fun _ => rfl

theorem delayedDoneRead_reads {r : StepRec} (hlast : lastStep (troupe (passCk dt s) t) = some r)
    (hcalled : r.state.val = .called) (hfresh : freshSlots (passCk dt s) t r.num ≠ []) :
    let s1 := passCk dt s
    let s2 := modTroupe s1 t (markSlotsRead (freshSlots s1 t r.num) r.num)
    exec (.delayedDoneRead dt t) s = .next (if (dueSlots (troupe s2 t) r.num).all (·.read.isSome) then
        noteComplete t (takeMasters t r.num (delayedOwned (troupe s2 t)) (latestMasters s2 t r.num) (useVersion t s2))
      else s2) := by
  intro s1 s2
  have hgoes : (r.state.val != .called || (freshSlots s1 t r.num).isEmpty) = false := by
    simpa [hcalled, s1] using hfresh
  have hplace : latestMasters s2 t r.num = leNat (peek true s2
      (hostSlotAt (troupe s1 t) ((dueSlots (troupe s2 t) r.num).foldl (fun a h => max a h.step) 0) + 32) 8) := by
    rw [latestMasters, hostSlotAt_markSlotsRead]
  rw [freshSlots] at hgoes
  calc exec (.delayedDoneRead dt t) s = execDelayedDoneRead dt t s := rfl
    _ = .next (if ! (dueSlots (troupe s2 t) r.num).all (·.read.isSome) then s2
        else noteComplete t
          (takeMasters t r.num (delayedOwned (troupe s2 t)) (latestMasters s2 t r.num) (useVersion t s2))) := by
      simp only [execDelayedDoneRead, hlast, hgoes, hplace, Bool.false_eq_true, if_false, s1]
      rfl
    _ = _ := by cases (dueSlots (troupe s2 t) r.num).all (·.read.isSome) <;> rfl

/-! ### What is sent on a line leaves the house as it is (R169, R289) -/

theorem enterFrames_house (t l : Nat) : ∀ (fs : List OutFrame) (s : State), (enterFrames t l fs s).house = s.house
  | [], _ => rfl
  | f :: r, s => by
    rw [enterFrames]
    split
    · rfl
    · split
      · rfl
      · exact enterFrames_house t l r _

theorem enterLine_house (t l : Nat) (s : State) : (enterLine t l s).house = s.house := by
  rw [enterLine]
  split
  · exact enterFrames_house t l _ s
  · rfl

theorem queueOn_house (cls t l peer : Nat) (charge : Option Charge) (step : Option Nat) (cars : List Car) (s : State) :
    (queueOn cls t l peer charge step cars s).house = s.house := by
  rw [queueOn]
  split
  · rfl
  · exact enterLine_house t l _

@[simp] theorem mirrorWrite_house (t step target : Nat) (charge : Charge) (bytes : List Byte) (s : State) :
    (mirrorWrite t step target charge bytes s).house = s.house :=
  queueOn_house ..

/-! ### Verdicts, the encore and captures (R298, R306, R313) -/

/-- An understudy that finds no kind of digest different sends an equal verdict, which passes the step at the next
tick. -/
theorem verdictCompare_passes {step : Nat} {r : DigestRec} {h : Retained}
    (hwritten : digestWritten (troupe (passCk dt s) t) step = some r)
    (hhalf : tabGet (troupe (passCk dt s) t).mirror.halves step = some h)
    (hcheck : step % max 1 (troupe (passCk dt s) t).propN = 0) (hruns : h.running ≠ [])
    (hpassed : (troupe (passCk dt s) t).mirror.passed = none)
    (hright : (troupe (passCk dt s) t).mirror.diverged = false) (hequal : badKinds r h.running = []) :
    let s1 := passCk dt s
    exec (.verdictCompare dt t step) s = .next (modMirror
      (mirrorWrite t step (place t kindVerdict 0) (mirrorCharge (troupe s1 t))
        (leBytes 8 (pcWord (verdictValue step [])).toNat) s1) t fun m =>
          { m with passed := some (step, s.house.tick) }) := by
  have hgoes : (step % max 1 (troupe (passCk dt s) t).propN != 0 || h.running.isEmpty ||
      (troupe (passCk dt s) t).mirror.passed.isSome || (troupe (passCk dt s) t).mirror.diverged) = false := by
    rw [hcheck, hpassed, hright]
    simpa using hruns
  calc exec (.verdictCompare dt t step) s = execVerdictCompare dt t step s := rfl
    _ = _ := by
      simp only [execVerdictCompare, hwritten, hhalf, hgoes, hequal, List.isEmpty_nil, Bool.false_eq_true, if_false,
        if_true, mirrorWrite_house, passCk_tick]

theorem encoreRun_ends {pulled : Pulled} (hpromotes : (troupe s t).promotion.isSome = true)
    (hopen : (troupe s t).encoreDone = false) (hheld : holdsBy s t Awaits.isPromote = true)
    (hgood : (encore (troupe (passCk dt s) t) pulled).bad = none) :
    let s1 := passCk dt s
    exec (.encoreRun dt t pulled) s = .next (encoreOk t pulled (encore (troupe s1 t) pulled) s1) := by
  have hwaits : ((troupe (passCk dt s) t).promotion.isSome && ! (troupe (passCk dt s) t).encoreDone &&
      holdsBy (passCk dt s) t Awaits.isPromote) = true := by
    rw [passCk_promotion, passCk_encoreDone, holdsBy, passCk_deferred, hpromotes, hopen]
    exact hheld
  calc exec (.encoreRun dt t pulled) s = execEncoreRun dt t pulled s := rfl
    _ = _ := by simp only [execEncoreRun, hwaits, hgood, Bool.not_true, Bool.false_eq_true, if_false]

/-- Where a step's half is copied to in the host capture area, whose slots are taken in turn (R313). -/
def captureAt (p : LedgerPlace) (step : Nat) (r : StepRec) : Nat :=
  p.capBase.toNat + step % max 1 (p.capLen.toNat / max 1 (halfBytes r).length) * (halfBytes r).length

theorem captureComplete_copies {step : Nat} {p : LedgerPlace} {r : StepRec} (hledger : (troupe s t).ledger = some p)
    (hstep : stepOf (troupe s t) step = some r) (hcaptures : r.capturing = true)
    (hfits : (halfBytes r).length ≤ p.capLen.toNat) :
    exec (.captureComplete dt t step) s = .next (modTroupe
      (pokeHost (passCk dt s) (captureAt p step r) (halfBytes r)) t fun tr => modStep tr step releaseHalf) := by
  have hcaptured : (stepOf (troupe (passCk dt s) t) step).filter (·.capturing) = some r := by
    rw [stepOf, passCk_steps, ← stepOf, hstep, Option.filter_some, if_pos hcaptures]
  calc exec (.captureComplete dt t step) s = execCaptureComplete dt t step s := rfl
    _ = _ := by simp only [execCaptureComplete, passCk_ledger, hledger, hcaptured, hfits, if_true, captureAt]

end Rows

/-! ### The statement -/

/-- Settles O30: one lemma for each row. A verdict keeps the tick at which it was sent, as what is sent leaves the house
as it is. -/
theorem updatesAndMirrorComplete : Obligations.UpdatesAndMirrorComplete := by
  unfold Obligations.UpdatesAndMirrorComplete
  refine ⟨?issue, ?complete, ?delayed, ?verdict, ?encores, ?capture⟩
  case issue => exact fun _ _ _ _ _ _ hlast hnext hcalled hroom => updateIssue_issues hlast hnext hcalled hroom
  case complete =>
    exact fun _ _ _ _ _ _ _ _ hfirst hown hgraph hentry hstep hflight hmode hfinite =>
      updateComplete_completes hfirst hown hgraph hentry hstep hflight hmode hfinite
  case delayed => exact fun _ _ _ _ hlast hcalled hfresh => delayedDoneRead_reads hlast hcalled hfresh
  case verdict =>
    exact fun _ _ _ _ _ _ hwritten hhalf hcheck hruns hpassed hright hequal =>
      verdictCompare_passes hwritten hhalf hcheck hruns hpassed hright hequal
  case encores => exact fun _ _ _ _ hpromotes hopen hheld hgood => encoreRun_ends hpromotes hopen hheld hgood
  case capture =>
    exact fun _ _ _ _ _ _ hledger hstep hcaptures hfits => captureComplete_copies hledger hstep hcaptures hfits

end Sys2Proof.Machine
end

section
/-! The bytes of a slot (Table 12.3): numbers and their bytes, fields of a run of bytes that is written over another, and
the argument area, whose fields lie apart. -/

namespace Sys2Proof.Machine

open Sys2Proof

/-! ### Numbers and their bytes (R12) -/

@[simp] theorem length_leBytes : ∀ n x : Nat, (leBytes n x).length = n
  | 0, _ => rfl
  | n + 1, x => congrArg (· + 1) (length_leBytes n (x / 256))

/-- The bytes of a number give it back, as far as they reach. -/
@[simp] theorem leNat_leBytes : ∀ n x : Nat, leNat (leBytes n x) = x % 256 ^ n
  | 0, x => by simp [leBytes, leNat, Nat.mod_one]
  | n + 1, x => by
    rw [leBytes, leNat, leNat_leBytes n, BitVec.toNat_ofNat]
    calc x % 256 + 256 * (x / 256 % 256 ^ n) = x % (256 * 256 ^ n) := Nat.mod_mul.symm
      _ = x % 256 ^ (n + 1) := by rw [Nat.pow_succ']

/-- The first bytes of a number are those of the number cut to them. -/
theorem take_leBytes : ∀ {k n : Nat} (x : Nat), k ≤ n → (leBytes n x).take k = leBytes k x
  | 0, _, _, _ => rfl
  | k + 1, n + 1, x, h => by
    rw [leBytes, leBytes, List.take_succ_cons, take_leBytes (x / 256) (Nat.le_of_succ_le_succ h)]

/-! ### Fields -/

/-- A slice inside a run of bytes is what stands there. -/
theorem slice_eq_take_drop {bs : List Byte} {o n : Nat} (h : o + n ≤ bs.length) : slice bs o n = (bs.drop o).take n := by
  have : n - ((bs.drop o).take n).length = 0 := by simp; omega
  simp only [slice, this, List.replicate_zero, List.append_nil]

/-- A slice of what stands behind a run of bytes. -/
theorem slice_append_right {as bs : List Byte} {k : Nat} (h : as.length = k) (o n : Nat) :
    slice (as ++ bs) (k + o) n = slice bs o n := by
  subst h
  simp only [slice, List.drop_append, List.drop_eq_nil_of_le (Nat.le_add_right as.length o), List.nil_append,
    Nat.add_sub_cancel_left]

/-- A field of a number's own bytes. -/
theorem field_leBytes {k n : Nat} (x : Nat) (bs : List Byte) (h : k ≤ n) :
    field (leBytes n x ++ bs) 0 k = x % 256 ^ k := by
  have hl : k ≤ (leBytes n x).length := by simpa using h
  rw [field, slice_eq_take_drop (by simp; omega), List.drop_zero, List.take_append_of_le_length hl, take_leBytes x h,
    leNat_leBytes]

/-! ### Writing over a run of bytes -/

/-- The place of a field: two fields lie apart where one ends before the other begins. -/
def apart (f g : Nat × Nat × Nat) : Bool := decide (f.1 + f.2.1 ≤ g.1) || decide (g.1 + g.2.1 ≤ f.1)

/-- Fields that lie apart from one another inside an area of n bytes. -/
def laidOut (n : Nat) : List (Nat × Nat × Nat) → Bool
  | [] => true
  | f :: fs => decide (f.1 + f.2.1 ≤ n) && fs.all (apart f) && laidOut n fs

theorem length_overlay {bs new : List Byte} {o : Nat} (h : o + new.length ≤ bs.length) :
    (overlay bs o new).length = bs.length := by
  simp only [overlay, List.length_append, List.length_take, List.length_drop]; omega

theorem slice_overlay_same {bs new : List Byte} {o : Nat} (h : o + new.length ≤ bs.length) :
    slice (overlay bs o new) o new.length = new := by
  have hl : (bs.take o).length = o := by rw [List.length_take]; omega
  rw [slice_eq_take_drop (by rw [length_overlay h]; exact h), overlay, List.append_assoc, List.drop_left' hl,
    List.take_left]

/-- What is written apart from a slice leaves the slice. -/
theorem slice_overlay_apart {bs new : List Byte} {o c n : Nat} (h : o + new.length ≤ bs.length) (hc : c + n ≤ bs.length)
    (ha : c + n ≤ o ∨ o + new.length ≤ c) : slice (overlay bs o new) c n = slice bs c n := by
  have hl : (bs.take o).length = o := by rw [List.length_take]; omega
  rw [slice_eq_take_drop (by rw [length_overlay h]; exact hc), slice_eq_take_drop hc]
  apply List.ext_getElem?
  intro i
  simp only [List.getElem?_take, List.getElem?_drop]
  by_cases hi : i < n
  · rw [if_pos hi, if_pos hi]
    rcases ha with ha | ha
    · rw [overlay, List.append_assoc, List.getElem?_append_left (by omega), List.getElem?_take, if_pos (by omega)]
    · rw [overlay, List.getElem?_append_right (by rw [List.length_append]; omega), List.getElem?_drop]
      congr 1
      rw [List.length_append]; omega
  · rw [if_neg hi, if_neg hi]

/-- Fields written one after the other. -/
def writeFields (fs : List (Nat × Nat × Nat)) (bs : List Byte) : List Byte :=
  fs.foldl (fun a f => overlay a f.1 (leBytes f.2.1 f.2.2)) bs

theorem argumentArea_eq (i : Instr) : argumentArea i = writeFields (arguments i) (List.replicate 160 0) := rfl

theorem laidOut_cons {n : Nat} {f : Nat × Nat × Nat} {fs : List (Nat × Nat × Nat)} (h : laidOut n (f :: fs) = true) :
    f.1 + f.2.1 ≤ n ∧ (∀ g ∈ fs, apart f g = true) ∧ laidOut n fs = true := by
  simpa [laidOut, and_assoc] using h

theorem length_writeFields : ∀ {fs : List (Nat × Nat × Nat)} {bs : List Byte}, laidOut bs.length fs = true →
    (writeFields fs bs).length = bs.length
  | [], _, _ => rfl
  | f :: fs, bs, h => by
    obtain ⟨hf, -, hfs⟩ := laidOut_cons h
    have hl : (overlay bs f.1 (leBytes f.2.1 f.2.2)).length = bs.length := length_overlay (by simpa using hf)
    exact (length_writeFields (bs := overlay bs f.1 (leBytes f.2.1 f.2.2)) (hl ▸ hfs)).trans hl

/-- Fields that lie apart from a slice leave it. -/
theorem slice_writeFields_apart : ∀ {fs : List (Nat × Nat × Nat)} {bs : List Byte} {f : Nat × Nat × Nat},
    laidOut bs.length (f :: fs) = true → slice (writeFields fs bs) f.1 f.2.1 = slice bs f.1 f.2.1
  | [], _, _, _ => rfl
  | g :: fs, bs, f, h => by
    obtain ⟨hf, ha, hgs⟩ := laidOut_cons h
    obtain ⟨hg, -, hfs⟩ := laidOut_cons hgs
    have hl : (overlay bs g.1 (leBytes g.2.1 g.2.2)).length = bs.length := length_overlay (by simpa using hg)
    have hrest : laidOut bs.length (f :: fs) = true := by
      simp only [laidOut, Bool.and_eq_true, decide_eq_true_eq, List.all_eq_true]
      exact ⟨⟨hf, fun x hx => ha x (List.mem_cons_of_mem _ hx)⟩, hfs⟩
    have hap := ha g (List.mem_cons_self ..)
    simp only [apart, Bool.or_eq_true, decide_eq_true_eq] at hap
    calc slice (writeFields fs (overlay bs g.1 (leBytes g.2.1 g.2.2))) f.1 f.2.1
        = slice (overlay bs g.1 (leBytes g.2.1 g.2.2)) f.1 f.2.1 := slice_writeFields_apart (hl ▸ hrest)
      _ = slice bs f.1 f.2.1 := slice_overlay_apart (by simpa using hg) hf (by simpa using hap)

/-- Fields that lie apart read back as written. -/
theorem slice_writeFields : ∀ {fs : List (Nat × Nat × Nat)} {bs : List Byte}, laidOut bs.length fs = true →
    ∀ f ∈ fs, slice (writeFields fs bs) f.1 f.2.1 = leBytes f.2.1 f.2.2
  | g :: fs, bs, h, f, hf => by
    obtain ⟨hg, ha, hfs⟩ := laidOut_cons h
    have hg' : g.1 + (leBytes g.2.1 g.2.2).length ≤ bs.length := by simpa using hg
    have hl : (overlay bs g.1 (leBytes g.2.1 g.2.2)).length = bs.length := length_overlay hg'
    rcases List.mem_cons.1 hf with rfl | hf
    · have hsame := slice_overlay_same hg'
      rw [length_leBytes] at hsame
      exact (slice_writeFields_apart (bs := overlay bs f.1 (leBytes f.2.1 f.2.2)) (hl ▸ h)).trans hsame
    · exact slice_writeFields (bs := overlay bs g.1 (leBytes g.2.1 g.2.2)) (hl ▸ hfs) f hf

end Sys2Proof.Machine
end


section
/-! The image of a slot (Table 12.3, R318, R319): what its post word and its cue field say, and the one command that its
opcode and its argument bytes spell. -/

namespace Sys2Proof.Machine

open Sys2Proof

/-! ### The post word and the cue field -/

theorem toNat_pcWord (n : Nat) : (pcWord n).toNat % 2 ^ 32 = n % 2 ^ 32 := by
  have h := pcVal_pcWord n
  rwa [pcVal, BitVec.extractLsb'_toNat, Nat.shiftRight_zero] at h

section Image

variable (i : Instr) (target tag cue : Nat)

/-- The post word of an image, before its complement. -/
abbrev postNumber : Nat := opcode i + target * 2 ^ 16 + tag * 2 ^ 22

theorem field_post {k : Nat} (h : k ≤ 4) :
    field (slotImage i target tag cue) 0 k = postNumber i target tag % 256 ^ k := by
  have hdvd : (256 : Nat) ^ k ∣ 2 ^ 32 := by
    rw [show (2 : Nat) ^ 32 = 256 ^ 4 by norm_num]; exact Nat.pow_dvd_pow 256 h
  rw [slotImage, List.append_assoc, List.append_assoc, List.append_assoc, field_leBytes _ _ (by omega),
    ← Nat.mod_mod_of_dvd _ hdvd, toNat_pcWord, Nat.mod_mod_of_dvd _ hdvd]

theorem imageWhole_slotImage : imageWhole (slotImage i target tag cue) = true := by
  have h : field (slotImage i target tag cue) 0 8 = (pcWord (postNumber i target tag)).toNat := by
    rw [slotImage, List.append_assoc, List.append_assoc, List.append_assoc, field_leBytes _ _ (by omega)]
    exact Nat.mod_eq_of_lt (pcWord _).isLt
  rw [imageWhole, h, BitVec.ofNat_toNat, BitVec.setWidth_eq, pcWhole_pcWord]

/-- What stands behind the post word and its reserved half. -/
theorem slice_slotImage_cue (o n : Nat) : slice (slotImage i target tag cue) (16 + o) n =
    slice (leBytes 2 cue ++ (List.replicate 14 0 ++ argumentArea i)) o n := by
  rw [slotImage, List.append_assoc, List.append_assoc]
  exact slice_append_right (by simp) o n

theorem slice_slotImage_argument (o n : Nat) :
    slice (slotImage i target tag cue) (32 + o) n = slice (argumentArea i) o n :=
  slice_append_right (by simp) o n

theorem field_cue : field (slotImage i target tag cue) 16 2 = cue % 65536 := by
  have h := slice_slotImage_cue i target tag cue 0 2
  rw [field, h]
  exact field_leBytes _ _ (Nat.le_refl 2)

theorem field_cue_reserved : field (slotImage i target tag cue) 18 6 = 0 := by
  have h := slice_slotImage_cue i target tag cue 2 6
  rw [field, h, show (2 : Nat) = 2 + 0 from rfl, slice_append_right (by simp),
    slice_eq_take_drop (by simp), List.drop_zero, List.take_append_of_le_length (by simp)]
  decide

end Image

/-! ### The argument area -/

/-- The arguments of a well-formed command lie apart in the 160 bytes of the argument area (Table 12.7). -/
theorem laidOut_arguments {i : Instr} {p : Post} (hp : post i = some p) (hw : i.wf = true) :
    laidOut 160 (arguments i) = true := by
  cases i <;> cases hp
  case troupeCreate flags bases lens =>
    simp only [Instr.wf, Bool.and_eq_true, beq_iff_eq] at hw
    obtain ⟨⟨-, hb⟩, hl⟩ := hw
    match bases, lens, hb, hl with
    | [_, _, _, _, _, _, _, _], [_, _, _, _, _, _, _, _], _, _ => rfl
  case troupeCarousel entry count n own lines members =>
    simp only [Instr.wf, Bool.and_eq_true, beq_iff_eq] at hw
    match lines, hw.2 with
    | [_, _, _, _, _, _], _ => rfl
  all_goals rfl

theorem length_argumentArea {i : Instr} (h : laidOut 160 (arguments i) = true) : (argumentArea i).length = 160 := by
  rw [argumentArea_eq, length_writeFields (by rwa [List.length_replicate]), List.length_replicate]

/-- Each argument stands in the argument area at its offset and width. -/
theorem field_argumentArea {i : Instr} (h : laidOut 160 (arguments i) = true) {f : Nat × Nat × Nat}
    (hf : f ∈ arguments i) : field (argumentArea i) f.1 f.2.1 = f.2.2 % 256 ^ f.2.1 := by
  rw [field, argumentArea_eq, slice_writeFields (by rwa [List.length_replicate]) f hf, leNat_leBytes]

theorem spells_iff (i : Instr) (q : List Byte) : spells i q = true ↔
    imageOpcode q = opcode i ∧ ∀ f ∈ arguments i, field q (32 + f.1) f.2.1 = f.2.2 % 256 ^ f.2.1 := by
  simp [spells]

/-- The operand that stands in the argument bytes at an offset (Table 12.7). -/
def arg {w : Nat} (q : List Byte) (off n : Nat) : BitVec w := BitVec.ofNat w (field q (32 + off) n)

theorem arg_of_mem {i : Instr} {q : List Byte}
    (h : ∀ f ∈ arguments i, field q (32 + f.1) f.2.1 = f.2.2 % 256 ^ f.2.1) {w off n : Nat} {v : BitVec w}
    (hf : (off, n, v.toNat) ∈ arguments i) (hw : w ≤ 8 * n) : arg q off n = v := by
  have hlt : v.toNat < 256 ^ n := Nat.lt_of_lt_of_le v.isLt (by
    rw [show (256 : Nat) = 2 ^ 8 by norm_num, ← Nat.pow_mul]; exact Nat.pow_le_pow_right (by omega) hw)
  rw [arg, h _ hf, Nat.mod_eq_of_lt hlt, BitVec.ofNat_toNat, BitVec.setWidth_eq]

/-- An operand that is a list stands element by element. -/
theorem args_of_mem {i : Instr} {q : List Byte}
    (h : ∀ f ∈ arguments i, field q (32 + f.1) f.2.1 = f.2.2 % 256 ^ f.2.1) {w n m : Nat} {off : Nat → Nat}
    {l : List (BitVec w)} (hm : l.length = m)
    (hf : ∀ k (hk : k < l.length), (off k, n, l[k].toNat) ∈ arguments i) (hw : w ≤ 8 * n) :
    ((List.range m).map fun k => arg q (off k) n) = l := by
  apply List.ext_getElem
  · simpa using hm.symm
  · intro k h1 h2
    simpa using arg_of_mem h (hf k h2) hw

theorem mem_zipIdx_map {α β : Type} {l : List α} (f : α → Nat → β) {k : Nat} (hk : k < l.length) :
    f l[k] k ∈ l.zipIdx.map fun e => f e.1 e.2 :=
  List.mem_map.2 ⟨(l[k], k), List.mk_mem_zipIdx_iff_getElem?.2 (List.getElem?_eq_getElem hk), rfl⟩

/-! ### The commands by their opcodes (Table 12.7, R340): the high byte names the group, the low byte the row -/

/-- The HOUSE_ commands by the low byte of their opcode. -/
def houseCommand (p : Post) (q : List Byte) : Nat → Option Instr
  | 0x01 => some (.houseTickSet p (arg q 0 2) (arg q 8 8))
  | 0x02 => some (.houseTickTree p (arg q 0 1))
  | 0x03 => some (.housePodSet p (arg q 0 2) (arg q 2 1) (arg q 3 1) (arg q 4 1) (arg q 6 2))
  | 0x04 => some (.houseWingSet p (arg q 0 1) (arg q 8 8))
  | 0x05 => some (.housePortSet p (arg q 0 1) (arg q 1 1) (arg q 4 4) (arg q 8 2))
  | 0x06 => some (.houseShaperSet p (arg q 0 1) (arg q 4 4) (arg q 8 4))
  | 0x07 => some (.houseGrant p (arg q 0 1) (arg q 4 4))
  | 0x08 => some (.housePitShare p (arg q 0 1))
  | 0x09 => some (.houseSliceSet p (arg q 0 1) (arg q 1 1) (arg q 2 1) (arg q 3 1) (arg q 4 1) (arg q 5 1)
      (arg q 6 1))
  | 0x0A => some (.houseRouteFill p (arg q 0 1))
  | 0x0B => some (.houseRouteSet p (arg q 0 1) (arg q 4 4) (arg q 8 8))
  | 0x0C => some (.houseRouteCommit p (arg q 0 1) (arg q 2 2) (arg q 4 1) (arg q 5 1) (arg q 8 8))
  | 0x0D => some (.houseBind p (arg q 0 2) (arg q 2 2))
  | 0x0E => some (.houseDispatch p (arg q 0 1))
  | 0x0F => some (.housePortReset p (arg q 0 1))
  | 0x10 => some (.housePitReset p (arg q 0 1))
  | 0x11 => some (.houseReset p)
  | _ => none

/-- The TROUPE_ commands by the low byte of their opcode. -/
def troupeCommand (p : Post) (q : List Byte) : Nat → Option Instr
  | 0x01 => some (.troupeCreate p (arg q 0 1) ((List.range 8).map fun k => arg q (8 + 16 * k) 8)
      ((List.range 8).map fun k => arg q (16 + 16 * k) 8))
  | 0x02 => some (.troupeDelete p)
  | 0x03 => some (.troupeMode p (arg q 0 1))
  | 0x04 => some (.troupeClass p (arg q 0 1))
  | 0x05 => some (.troupeCarousel p (arg q 0 1) (arg q 1 1) (arg q 4 2) (arg q 8 2)
      ((List.range 6).map fun k => arg q (12 + 2 * k) 2) (arg q 24 8))
  | 0x06 => some (.troupeIntermission p)
  | 0x07 => some (.troupeResume p)
  | 0x08 => some (.troupeReset p)
  | 0x09 => some (.troupeState p)
  | _ => none

/-- The BILL_ commands by the low byte of their opcode. -/
def billCommand (p : Post) (q : List Byte) : Nat → Option Instr
  | 0x01 => some (.billAdd p (arg q 0 2) (arg q 8 8))
  | 0x02 => some (.billSet p (arg q 0 2) (arg q 8 8))
  | 0x03 => some (.billRemove p (arg q 0 2) (arg q 8 8))
  | 0x04 => some (.billRead p (arg q 0 4))
  | 0x05 => some (.billBucket p (arg q 0 2) (arg q 2 1) (arg q 3 1) (arg q 4 1) (arg q 5 1))
  | 0x06 => some (.billArena p (arg q 0 1) (arg q 4 2) (arg q 8 8))
  | 0x07 => some (.billSeal p)
  | 0x08 => some (.billSieve p (arg q 0 2) (arg q 4 4) (arg q 8 4) (arg q 16 8))
  | 0x09 => some (.billScale p (arg q 0 4) (arg q 4 1) (arg q 5 1) (arg q 6 2) (arg q 8 8))
  | _ => none

/-- The BOOK_ commands by the low byte of their opcode. -/
def bookCommand (p : Post) (q : List Byte) : Nat → Option Instr
  | 0x01 => some (.bookSet p (arg q 0 1) (arg q 1 1) (arg q 2 1) (arg q 4 4) (arg q 8 8) (arg q 16 8))
  | 0x02 => some (.bookClear p (arg q 0 1))
  | 0x03 => some (.bookRead p (arg q 0 1))
  | _ => none

/-- The LINE_ commands by the low byte of their opcode. -/
def lineCommand (p : Post) (q : List Byte) : Nat → Option Instr
  | 0x01 => some (.lineOpen p (arg q 0 2) (arg q 2 1) (arg q 4 2) (arg q 8 8) (arg q 16 8) (arg q 24 8) (arg q 32 8)
      (arg q 40 8) (arg q 48 1) (arg q 49 1))
  | 0x02 => some (.lineSet p (arg q 0 2) (arg q 4 1) (arg q 8 8) (arg q 16 8) (arg q 24 8) (arg q 32 8) (arg q 40 8)
      (arg q 48 1) (arg q 49 1))
  | 0x03 => some (.lineReset p (arg q 0 2))
  | 0x04 => some (.lineClose p (arg q 0 2))
  | 0x05 => some (.lineState p (arg q 0 2) (arg q 8 8))
  | 0x06 => some (.lineArea p (arg q 0 2))
  | _ => none

/-- The RING_ commands by the low byte of their opcode. -/
def ringCommand (p : Post) (q : List Byte) : Nat → Option Instr
  | 0x01 => some (.ringCreate p (arg q 0 2) (arg q 2 1) (arg q 3 1) (arg q 4 1) (arg q 5 1) (arg q 6 1) (arg q 8 8)
      (arg q 16 2))
  | 0x02 => some (.ringDelete p (arg q 0 2))
  | 0x03 => some (.ringState p (arg q 0 2))
  | _ => none

/-- The CUE_ commands by the low byte of their opcode. -/
def cueCommand (p : Post) (q : List Byte) : Nat → Option Instr
  | 0x01 => some (.cueCreate p (arg q 0 2) (arg q 8 8))
  | 0x02 => some (.cueDelete p (arg q 0 2))
  | 0x03 => some (.cueAdd p (arg q 0 2) (arg q 8 8))
  | 0x04 => some (.cueWait p (arg q 0 2) (arg q 8 8) (arg q 16 4) (arg q 24 8))
  | 0x05 => some (.cueRead p (arg q 0 2))
  | _ => none

/-- The STEP_ commands by the low byte of their opcode. -/
def stepCommand (p : Post) (q : List Byte) : Nat → Option Instr
  | 0x01 => some (.stepOpen p (arg q 0 2) (arg q 32 32))
  | 0x02 => some (.stepAbort p)
  | 0x03 => some (.stepSeed p (arg q 8 8))
  | 0x04 => some (.stepLoss p (arg q 0 4))
  | 0x05 => some (.stepState p)
  | 0x06 => some (.stepDeadline p (arg q 0 4))
  | 0x07 => some (.stepLedger p (arg q 0 1) (arg q 4 4) (arg q 8 8) (arg q 16 8) (arg q 24 8) (arg q 32 8)
      (arg q 40 8))
  | _ => none

/-- The OPT_ commands by the low byte of their opcode. -/
def optCommand (p : Post) (q : List Byte) : Nat → Option Instr
  | 0x01 => some (.optSet p (arg q 0 4) (arg q 4 1) (arg q 5 1) (arg q 8 4) (arg q 12 4) (arg q 16 4) (arg q 20 4)
      (arg q 24 4) (arg q 28 4) (arg q 32 4) (arg q 40 8))
  | 0x02 => some (.optTroupe p (arg q 0 4) (arg q 4 1) (arg q 8 8))
  | 0x03 => some (.optHost p (arg q 8 8) (arg q 16 8))
  | 0x04 => some (.optSpike p (arg q 0 1) (arg q 1 1) (arg q 2 1) (arg q 4 4) (arg q 8 2))
  | 0x05 => some (.optExport p (arg q 0 4) (arg q 8 8) (arg q 16 8))
  | 0x06 => some (.optImport p (arg q 0 4) (arg q 8 8) (arg q 16 8))
  | _ => none

/-- The SPARE_ commands by the low byte of their opcode. -/
def spareCommand (p : Post) (q : List Byte) : Nat → Option Instr
  | 0x01 => some (.sparePair p (arg q 0 2) (arg q 2 1) (arg q 3 1) (arg q 8 8))
  | 0x02 => some (.spareProp p (arg q 0 1) (arg q 1 1))
  | 0x03 => some (.spareResync p)
  | 0x04 => some (.spareStandin p (arg q 8 8))
  | 0x05 => some (.spareEncore p)
  | 0x06 => some (.sparePromote p (arg q 8 8) (arg q 16 8) (arg q 24 8) (arg q 32 2))
  | 0x07 => some (.spareExport p (arg q 8 8))
  | _ => none

/-- The TEST_ commands by the low byte of their opcode. -/
def testCommand (p : Post) (q : List Byte) : Nat → Option Instr
  | 0x01 => some (.testSet p (arg q 0 1) (arg q 4 1))
  | 0x02 => some (.testRun p (arg q 0 1) (arg q 1 1))
  | 0x03 => some (.testDarken p (arg q 0 1) (arg q 1 1))
  | 0x04 => some (.testReturn p (arg q 0 1) (arg q 1 1))
  | _ => none

/-- The GAUGE_ commands by the low byte of their opcode. -/
def gaugeCommand (p : Post) (q : List Byte) : Nat → Option Instr
  | 0x01 => some (.gaugeSnap p (arg q 8 8))
  | 0x02 => some (.gaugeClear p (arg q 0 4))
  | 0x03 => some (.gaugeTimers p (arg q 0 8) (arg q 8 8))
  | _ => none

/-- The SPILL_ commands by the low byte of their opcode. -/
def spillCommand (p : Post) (q : List Byte) : Nat → Option Instr
  | 0x01 => some (.spillSet p (arg q 8 8) (arg q 16 8) (arg q 24 8) (arg q 32 8))
  | 0x02 => some (.spillDrain p)
  | _ => none

/-- The command that the bytes of a slot spell, if their opcode is defined (Table 12.7, R340). -/
def commandOf (p : Post) (q : List Byte) : Option Instr :=
  match imageOpcode q / 256 with
  | 0x01 => houseCommand p q (imageOpcode q % 256)
  | 0x02 => troupeCommand p q (imageOpcode q % 256)
  | 0x03 => billCommand p q (imageOpcode q % 256)
  | 0x04 => bookCommand p q (imageOpcode q % 256)
  | 0x05 => lineCommand p q (imageOpcode q % 256)
  | 0x06 => ringCommand p q (imageOpcode q % 256)
  | 0x07 => cueCommand p q (imageOpcode q % 256)
  | 0x08 => stepCommand p q (imageOpcode q % 256)
  | 0x09 => optCommand p q (imageOpcode q % 256)
  | 0x0A => spareCommand p q (imageOpcode q % 256)
  | 0x0B => testCommand p q (imageOpcode q % 256)
  | 0x0C => gaugeCommand p q (imageOpcode q % 256)
  | 0x0D => spillCommand p q (imageOpcode q % 256)
  | _ => none

/-- A well-formed command is the one that the bytes which spell it spell. -/
theorem commandOf_of_spells {i : Instr} {p : Post} {q : List Byte} (hp : post i = some p) (hw : i.wf = true)
    (h : spells i q = true) : commandOf p q = some i := by
  obtain ⟨hop, hargs⟩ := (spells_iff i q).1 h
  rw [commandOf, hop]
  cases i <;> cases hp
  case troupeCreate flags bases lens =>
    simp only [Instr.wf, Bool.and_eq_true, beq_iff_eq] at hw
    obtain ⟨⟨-, hb⟩, hl⟩ := hw
    dsimp only [opcode]
    refine congrArg some ?_
    congr 1
    · exact arg_of_mem hargs (by simp [arguments]) (by decide)
    · exact args_of_mem hargs hb (fun k hk => by
        simp only [arguments, List.cons_append, List.mem_cons, List.mem_append]
        exact .inr (.inl (mem_zipIdx_map (fun x k => (8 + 16 * k, 8, x.toNat)) hk))) (by decide)
    · exact args_of_mem hargs hl (fun k hk => by
        simp only [arguments, List.cons_append, List.mem_cons, List.mem_append]
        exact .inr (.inr (mem_zipIdx_map (fun x k => (16 + 16 * k, 8, x.toNat)) hk))) (by decide)
  case troupeCarousel entry count n own lines members =>
    simp only [Instr.wf, Bool.and_eq_true, beq_iff_eq] at hw
    dsimp only [opcode]
    refine congrArg some ?_
    congr 1
    case e_lines =>
      exact args_of_mem hargs hw.2 (fun k hk =>
        List.mem_append_right _ (mem_zipIdx_map (fun x k => (12 + 2 * k, 2, x.toNat)) hk)) (by decide)
    all_goals exact arg_of_mem hargs (by simp [arguments]) (by decide)
  all_goals
    dsimp only [opcode]
    refine congrArg some ?_
    congr 1 <;> exact arg_of_mem hargs (by simp [arguments]) (by decide)

/-! ### The statement -/

/-- A row of the call board has a defined opcode (R340). -/
theorem opcodes_contains {i : Instr} {p : Post} (hp : post i = some p) : opcodes.contains (opcode i) = true := by
  cases i <;> cases hp
  all_goals rfl

theorem lt_of_opcodes_contains {n : Nat} (h : opcodes.contains n = true) : n < 2 ^ 16 :=
  (by decide : ∀ n ∈ opcodes, n < 2 ^ 16) n (by simpa using h)

/-- Settles O46: the header of the image gives back opcode, target, tag and cue; the argument fields lie apart and read
back as written; and a well-formed command is the one that the bytes which spell it spell. -/
theorem slotSpellsOne : Obligations.SlotSpellsOne := by
  intro i p target tag cue hp hw htarget htag hcue image
  have hdefined := opcodes_contains hp
  have hop := lt_of_opcodes_contains hdefined
  have hlaid := laidOut_arguments hp hw
  have hopcode : imageOpcode image = opcode i := by
    have := field_post i target tag (cue + 2 ^ 15) (k := 2) (by decide)
    rw [imageOpcode, this, postNumber]; omega
  have hpost := field_post i target tag (cue + 2 ^ 15) (k := 4) (by decide)
  have hfield : field image 16 2 = cue + 2 ^ 15 := by
    have := field_cue i target tag (cue + 2 ^ 15)
    rw [this]; omega
  have hspells : spells i image = true := (spells_iff i image).2 ⟨hopcode, fun f hf => by
    rw [← field_argumentArea hlaid hf, field, slice_slotImage_argument, field]⟩
  refine ⟨imageWhole_slotImage i target tag (cue + 2 ^ 15), hopcode, hdefined, ?namesTarget, ?namesTag,
    ?namesCue, ?clear, hspells, ?one⟩
  case namesTarget => rw [imageTarget, hpost, bits, postNumber]; omega
  case namesTag => rw [imageTag, hpost, postNumber]; omega
  case namesCue =>
    have hbit : bit (cue + 2 ^ 15) 15 = true := by simp only [bit, decide_eq_true_eq]; omega
    rw [imageCue, hfield, if_pos hbit]
    exact congrArg some (by omega)
  case clear =>
    have hbits : bits (cue + 2 ^ 15) 10 5 = 0 := by rw [bits]; omega
    have harea : slice image 32 160 = argumentArea i := by
      rw [slice_slotImage_argument i target tag _ 0 160, slice_eq_take_drop (by rw [length_argumentArea hlaid]),
        List.drop_zero, List.take_of_length_le (by rw [length_argumentArea hlaid])]
    simp only [reservedClear, hfield, hbits, field_cue_reserved, harea, image, beq_self_eq_true, Bool.and_self]
  case one =>
    intro j hj hjw hjs
    exact Option.some.inj ((commandOf_of_spells hj hjw hjs).symm.trans (commandOf_of_spells hp hw hspells))

end Sys2Proof.Machine
end

section
/-! The block after reset (Tables 12.2, 13.4 to 13.8, 14.3), its soundness, and the queue that a step serves: the
statements O41, O43 and O44. -/

namespace Sys2Proof.Machine

open Sys2Proof

/-- After reset the block has troupe 0, as it is made at reset, and no other. -/
theorem troupe_reset (t : Nat) : troupe State.reset t = if t = 0 then troupe State.reset 0 else absentTroupe := by
  split
  case isTrue h => rw [h]
  case isFalse h => simp [troupe, tabGetD, State.reset, tabGet, Ne.symm h]

/-! ### The statements -/

/-- Settles O41: both are the branches of a step. -/
theorem stepServesFront : Obligations.StepServesFront := by
  unfold Obligations.StepServesFront
  refine ⟨fun c rest s hfront => ?front, fun s hempty => ?empty⟩
  case front => simp only [step, hfront]
  case empty => simp only [step, hempty]

/-- Settles O43: the house, the log and the check window are closed facts; of the troupes there is troupe 0 alone. -/
theorem resetLeaves : Obligations.ResetLeaves := by
  unfold Obligations.ResetLeaves
  refine ⟨rfl, rfl, rfl, rfl, rfl, rfl, rfl, rfl, by decide, by decide, by decide, by decide, rfl, rfl, rfl,
    fun t => ?life, fun t => ?gauges, rfl, rfl, rfl⟩
  case life => rw [troupe_reset]; split <;> rfl
  case gauges => rw [troupe_reset]; split <;> rfl

/-- Settles O44: no memory holds a page and no record is kept. -/
theorem resetSound : Obligations.ResetSound := by
  unfold Obligations.ResetSound
  exact ⟨rfl, Nat.zero_le _, by decide⟩

end Sys2Proof.Machine
end

section
/-! What a cue does (R329, R330): an add saturates and releases the waits that it reaches, which end in ascending
threshold and equal ones in their order of service. The statement O51. -/

namespace Sys2Proof.Machine

open Sys2Proof

/-! ### Waits in order of threshold -/

theorem insertWait_perm (w : Wait) (ws : List Wait) : (insertWait w ws).Perm (w :: ws) := by
  induction ws with
  | nil => rfl
  | cons v r ih =>
    rw [insertWait]
    split
    case isTrue => rfl
    case isFalse => exact (ih.cons v).trans (.swap w v r)

/-- Waits of which none has a larger threshold than a later one. -/
def Ascending (ws : List Wait) : Prop := ws.Pairwise fun a b => a.threshold ≤ b.threshold

theorem ascending_insertWait (w : Wait) {ws : List Wait} (h : Ascending ws) : Ascending (insertWait w ws) := by
  induction ws with
  | nil => exact List.pairwise_singleton _ _
  | cons v r ih =>
    obtain ⟨hv, hr⟩ := List.pairwise_cons.1 h
    rw [insertWait]
    split
    case isTrue hlt =>
      refine List.pairwise_cons.2 ⟨fun x hx => ?_, h⟩
      rcases List.mem_cons.1 hx with rfl | hx
      · exact BitVec.le_of_lt hlt
      · exact BitVec.le_trans (BitVec.le_of_lt hlt) (hv x hx)
    case isFalse hle =>
      refine List.pairwise_cons.2 ⟨fun x hx => ?_, ih hr⟩
      rcases List.mem_cons.1 ((insertWait_perm w r).mem_iff.1 hx) with rfl | hx
      · exact BitVec.not_lt.1 hle
      · exact hv x hx

/-- A wait joins ascending waits after all of its own threshold. -/
theorem filter_insertWait (k : BitVec 64) (w : Wait) {ws : List Wait} (h : Ascending ws) :
    (insertWait w ws).filter (fun x => x.threshold == k) =
      ws.filter (fun x => x.threshold == k) ++ [w].filter fun x => x.threshold == k := by
  induction ws with
  | nil => rfl
  | cons v r ih =>
    obtain ⟨hv, hr⟩ := List.pairwise_cons.1 h
    rw [insertWait]
    split
    case isFalse => simp only [List.filter_cons (x := v), ih hr]; split <;> rfl
    case isTrue hlt =>
      by_cases hk : w.threshold = k
      case neg => simp [hk]
      case pos =>
        have later : (v :: r).filter (fun x => x.threshold == k) = [] := by
          refine List.filter_eq_nil_iff.2 fun x hx heq => ?_
          have hle : v.threshold ≤ x.threshold := by
            rcases List.mem_cons.1 hx with rfl | hx
            · exact BitVec.le_refl _
            · exact hv x hx
          rw [hk, ← beq_iff_eq.1 heq] at hlt
          exact BitVec.not_lt.2 hle hlt
        rw [List.filter_cons, later]
        simp [hk]

/-- What sorting has made of the waits so far: a permutation of them, ascending, each threshold's in their order. -/
structure SortOf (ws sorted : List Wait) : Prop where
  perm : sorted.Perm ws
  ascending : Ascending sorted
  stable : ∀ k, sorted.filter (fun w => w.threshold == k) = ws.filter fun w => w.threshold == k

theorem SortOf.insert {ws sorted : List Wait} (h : SortOf ws sorted) (w : Wait) :
    SortOf (ws ++ [w]) (insertWait w sorted) where
  perm := (insertWait_perm w sorted).trans ((h.perm.cons w).trans (List.perm_append_singleton w ws).symm)
  ascending := ascending_insertWait w h.ascending
  stable k := by rw [filter_insertWait k w h.ascending, h.stable, List.filter_append]

theorem SortOf.foldl {ws sorted : List Wait} (h : SortOf ws sorted) (rest : List Wait) :
    SortOf (ws ++ rest) (rest.foldl (fun a w => insertWait w a) sorted) := by
  induction rest generalizing ws sorted with
  | nil => rwa [List.append_nil]
  | cons w rest ih => rw [List.append_cons]; exact ih (h.insert w)

theorem sortOf_sortWaits (ws : List Wait) : SortOf ws (sortWaits ws) :=
  SortOf.foldl (ws := []) ⟨.refl _, .nil, fun _ => rfl⟩ ws

/-! ### The counter -/

theorem capAt_eq_min (limit x : Nat) : capAt limit x = min limit x := by
  rw [capAt]; split <;> omega

/-- A troupe that has a cue is in the table of troupes. -/
theorem tabGet_isSome_of_cue {s : State} {t c : Nat} {cue : Cue} (h : tabGet (troupe s t).cues c = some cue) :
    (tabGet s.troupes t).isSome = true := by
  by_contra habsent
  rw [Bool.not_eq_true, Option.isSome_eq_false_iff, Option.isNone_iff_eq_none] at habsent
  rw [troupe, tabGetD, habsent] at h
  cases h

theorem cueAdd_whole {s : State} {t c : Nat} {cue : Cue} (h : tabGet (troupe s t).cues c = some cue)
    (hwhole : cue.isWhole = true) (n : Nat) :
    let v := BitVec.ofNat 64 (min (2 ^ 64 - 1) (cue.value.toNat + n))
    cueAdd t c n s =
      (modTroupe s t fun tr => { tr with
        cues := tabPut tr.cues c { cue with value := v, waits := cue.waits.filter fun w => ! decide (w.threshold ≤ v) } },
       (sortWaits (cue.waits.filter fun w => decide (w.threshold ≤ v))).flatMap (endWait .done v),
       if 2 ^ 64 ≤ cue.value.toNat + n then some .saturated else none) := by
  simp only [cueAdd, h, hwhole, Bool.not_true, Bool.false_eq_true, if_false, capAt_eq_min, gt_iff_lt,
    Nat.lt_iff_add_one_le, show 2 ^ 64 - 1 + 1 = 2 ^ 64 from rfl]

theorem cueAdd_broken {s : State} {t c : Nat} {cue : Cue} (h : tabGet (troupe s t).cues c = some cue)
    (hbroken : cue.isWhole = false) (n : Nat) : cueAdd t c n s = (s, [], some .integrity) := by
  simp [cueAdd, h, hbroken]

/-! ### The statement -/

/-- Settles O51: the add by its two cases, the order of the waits by `sortOf_sortWaits`. -/
theorem cuesCount : Obligations.CuesCount := by
  unfold Obligations.CuesCount
  refine ⟨fun t c n s cue hcue hwhole => ?whole, fun t c n s cue hcue hbroken => cueAdd_broken hcue hbroken n,
    fun ws => ?order⟩
  case order =>
    obtain ⟨perm, ascending, stable⟩ := sortOf_sortWaits ws
    exact ⟨perm, ascending, stable⟩
  case whole =>
    set v := BitVec.ofNat 64 (min (2 ^ 64 - 1) (cue.value.toNat + n)) with hv
    have value : v.toNat = min (2 ^ 64 - 1) (cue.value.toNat + n) := by
      rw [hv, BitVec.toNat_ofNat]; omega
    rw [cueAdd_whole hcue hwhole n, ← hv]
    refine ⟨{ cue with value := v, waits := cue.waits.filter fun w => ! decide (w.threshold ≤ v) },
      ?cue, value, ?stay, ?ended, rfl⟩
    case cue =>
      rw [troupe_modTroupe_same (tabGet_isSome_of_cue hcue), tabGet_tabPut_same]
    case stay => simp only [BitVec.le_def, value, ← decide_not, Nat.not_le]
    case ended => simp only [BitVec.le_def, value]

end Sys2Proof.Machine
end

section
/-! The ring and cue commands (R325, R328–R331, Table 12.5): one lemma for each way a row ends, and the statements O15 and
O16 put together from them. -/

namespace Sys2Proof.Machine

open Sys2Proof

section Rows

variable {p : Post} {q : Posted} {s : State}

/-! ### Rings -/

/-- What the binding of a ring is judged by, as the row computes it (Table 12.5). -/
theorem bindOk_of {s : State} {t : Nat} {kind binding booking : BitVec 8}
    (h : kind = 3 ∧ binding = 0 ∨ kind ≠ 3 ∧ binding = 2 ∨ kind ≠ 3 ∧ binding = 1 ∧ (troupe s t).bestEffort = false ∧
      (tabGet (troupe s t).bookings booking.toNat).isSome = true) :
    (if kind == 3 then binding == 0 else binding == 2 || (binding == 1 && ! (troupe s t).bestEffort &&
      (tabGet (troupe s t).bookings booking.toNat).isSome)) = true := by
  rcases h with ⟨rfl, rfl⟩ | ⟨hkind, rfl⟩ | ⟨hkind, rfl, hbest, hbooked⟩
  · rfl
  · rw [beq_eq_false_iff_ne.2 hkind]; rfl
  · rw [beq_eq_false_iff_ne.2 hkind]; simp [hbest, hbooked]

theorem ringCreate_adds {ring : BitVec 16} {kind depth binding port booking : BitVec 8} {base : BitVec 64}
    {spaceCue : BitVec 16}
    (h : Ready false anyGate (.ringCreate p ring kind depth binding port booking base spaceCue) p q s)
    (hargs : (decide (ring.toNat < 4096) && inRange 1 3 kind.toNat && inRange 6 16 depth.toNat &&
      decide (binding.toNat < 3) && decide (port.toNat < 8) && base.toNat % 4096 == 0) = true)
    (hbind : kind = 3 ∧ binding = 0 ∨ kind ≠ 3 ∧ binding = 2 ∨
      kind ≠ 3 ∧ binding = 1 ∧ (troupe (begun p s) q.target).bestEffort = false ∧
        (tabGet (troupe (begun p s) q.target).bookings booking.toNat).isSome = true)
    (hcue : cueFieldOk (troupe (begun p s) q.target) spaceCue = true)
    (hfree : tabGet (troupe s q.target).rings ring.toNat = none) :
    exec (.ringCreate p ring kind depth binding port booking base spaceCue) s = .next (completed p .done [] [] []
      (modTroupe (begun p s) q.target fun tr => { tr with
        rings := tabPut tr.rings ring.toNat
          { kind := kind.toNat, depth := 2 ^ depth.toNat, binding := binding.toNat, port := port.toNat
            booking := booking.toNat, base := base, spaceCue := spaceCue } })) :=
  calc exec (.ringCreate p ring kind depth binding port booking base spaceCue) s =
      execRingCreate p ring kind depth binding port booking base spaceCue s := rfl
    _ = _ := congrArg Host.Outcome.next (serve_ready rfl h hargs)
    _ = _ := by
      simp only [bindOk_of hbind, hcue, begun_rings, hfree, Option.isNone_none, Bool.and_self, need_true, answer_done]

theorem ringDelete_removes {ring : BitVec 16} {r : Ring} (h : Ready false anyGate (.ringDelete p ring) p q s)
    (hring : ring.toNat < 4096) (hheld : tabGet (troupe s q.target).rings ring.toNat = some r)
    (hempty : r.tail.val = r.head.val) (hidle : r.inFlight = 0) :
    exec (.ringDelete p ring) s = .next (completed p .done [] [] []
      (modTroupe (begun p s) q.target fun tr => { tr with rings := tabDel tr.rings ring.toNat })) := by
  have hmay : (ringHeld r == 0 && r.inFlight == 0) = true := by simp [ringHeld, hempty, hidle]
  calc exec (.ringDelete p ring) s = execRingDelete p ring s := rfl
    _ = _ := congrArg Host.Outcome.next (serve_ready rfl h (decide_eq_true hring))
    _ = _ := by simp only [begun_rings, hheld, hmay, need_true, answer_done]

theorem ringState_reads {ring : BitVec 16} {r : Ring} (h : Ready false alwaysGate (.ringState p ring) p q s)
    (hring : ring.toNat < 4096) (hheld : tabGet (troupe s q.target).rings ring.toNat = some r) :
    exec (.ringState p ring) s = .next (completed p .done [(0, ringRecord r)] [] [] (begun p s)) :=
  calc exec (.ringState p ring) s = execRingState p ring s := rfl
    _ = _ := congrArg Host.Outcome.next (serve_ready rfl h (decide_eq_true hring))
    _ = _ := by simp only [begun_rings, hheld, answer_doneWith]

/-! ### Cues -/

section Cue

variable {cue : BitVec 16} (hcue : cue.toNat < 1024)
include hcue

theorem cueCreate_adds {initial : BitVec 64} (h : Ready false anyGate (.cueCreate p cue initial) p q s)
    (hfree : tabGet (troupe s q.target).cues cue.toNat = none) :
    exec (.cueCreate p cue initial) s = .next (completed p .done [] [] []
      (modTroupe (begun p s) q.target fun tr => { tr with cues := tabPut tr.cues cue.toNat { value := initial } })) := by
  have hmay : (! cueExists (troupe (begun p s) q.target) cue.toNat) = true := by simp [cueExists, hfree]
  calc exec (.cueCreate p cue initial) s = execCueCreate p cue initial s := rfl
    _ = _ := congrArg Host.Outcome.next (serve_ready rfl h (decide_eq_true hcue))
    _ = _ := by simp only [hmay, need_true, answer_done]

theorem cueDelete_removes (h : Ready false anyGate (.cueDelete p cue) p q s)
    (hheld : (tabGet (troupe s q.target).cues cue.toNat).isSome = true)
    (hunnamed : cueNamed (begun p s) q.target cue.toNat = false) :
    exec (.cueDelete p cue) s = .next (completed p .done [] [] []
      (modTroupe (begun p s) q.target fun tr => { tr with cues := tabDel tr.cues cue.toNat })) := by
  have hexists : cueExists (troupe (begun p s) q.target) cue.toNat = true := by simp [cueExists, hheld]
  calc exec (.cueDelete p cue) s = execCueDelete p cue s := rfl
    _ = _ := congrArg Host.Outcome.next (serve_ready rfl h (decide_eq_true hcue))
    _ = _ := by simp only [hexists, hunnamed, Bool.not_false, need_true, answer_done]

variable {c : Cue} (hheld : tabGet (troupe s q.target).cues cue.toNat = some c) (hwhole : c.isWhole = true)
include hheld hwhole

theorem cueAdd_counts {increment : BitVec 64} (h : Ready false anyGate (.cueAdd p cue increment) p q s)
    (hlo : 1 ≤ increment.toNat) (hhi : increment.toNat ≤ 2 ^ 32) :
    let sum := c.value.toNat + increment.toNat
    let v := BitVec.ofNat 64 (min (2 ^ 64 - 1) sum)
    exec (.cueAdd p cue increment) s = .next (completed p (if sum < 2 ^ 64 then .done else .saturated) []
      ((sortWaits (c.waits.filter fun w => decide (w.threshold ≤ v))).flatMap (endWait .done v))
      (if sum < 2 ^ 64 then [] else [.fault (cueMisuse q.target cue.toNat c .saturated) none])
      (modTroupe (begun p s) q.target fun tr => { tr with
        cues := tabPut tr.cues cue.toNat
          { c with value := v, waits := c.waits.filter fun w => ! decide (w.threshold ≤ v) } })) := by
  have hargs : (decide (cue.toNat < 1024) && inRange 1 (2 ^ 32) increment.toNat) = true := by
    rw [Bool.and_eq_true, inRange_eq_true_iff]
    exact ⟨decide_eq_true hcue, hlo, hhi⟩
  have hbegun : tabGet (troupe (begun p s) q.target).cues cue.toNat = some c := by rw [begun_cues]; exact hheld
  calc exec (.cueAdd p cue increment) s = execCueAdd p cue increment s := rfl
    _ = _ := congrArg Host.Outcome.next (serve_ready rfl h hargs)
    _ = _ := by
      simp only [hbegun, cueAdd_whole hbegun hwhole, answer_finish]
      by_cases hfits : c.value.toNat + increment.toNat < 2 ^ 64
      · rw [if_neg (Nat.not_le.2 hfits), if_pos hfits, if_pos hfits]; rfl
      · rw [if_pos (Nat.not_lt.1 hfits), if_neg hfits, if_neg hfits]; rfl

theorem cueWait_reached {threshold notify : BitVec 64} {timeout : BitVec 32}
    (h : Ready false anyGate (.cueWait p cue threshold timeout notify) p q s) (hreached : threshold ≤ c.value) :
    exec (.cueWait p cue threshold timeout notify) s = .next (completed p .done []
      (if notify = 0 then [] else [.store notify.toNat (leBytes 8 c.value.toNat)]) [] (begun p s)) :=
  calc exec (.cueWait p cue threshold timeout notify) s = execCueWait p cue threshold timeout notify s := rfl
    _ = _ := congrArg Host.Outcome.next (serve_ready rfl h (decide_eq_true hcue))
    _ = _ := by
      simp only [begun_cues, hheld, hwhole, Bool.not_true, Bool.false_eq_true, if_false, hreached, if_true,
        answer_finish]

theorem cueWait_waits {threshold notify : BitVec 64} {timeout : BitVec 32}
    (h : Ready false anyGate (.cueWait p cue threshold timeout notify) p q s) (hbelow : c.value < threshold)
    (hroom : c.waits.length < 8) :
    exec (.cueWait p cue threshold timeout notify) s = .next (heldBack p q.target q (.cueWait cue.toNat) []
      (modTroupe (begun p s) q.target fun tr => { tr with
        cues := tabPut tr.cues cue.toNat { c with
          waits := c.waits ++ [{ issuer := p.issuer, slot := p.slot, threshold := threshold, notify := notify
                                 expires := if timeout = 0 then none else some (s.house.tick + timeout.toNat) }] } })) :=
  calc exec (.cueWait p cue threshold timeout notify) s = execCueWait p cue threshold timeout notify s := rfl
    _ = _ := congrArg Host.Outcome.next (serve_ready rfl h (decide_eq_true hcue))
    _ = _ := by
      simp only [begun_cues, hheld, hwhole, Bool.not_true, Bool.false_eq_true, if_false, BitVec.not_le.2 hbelow, hroom,
        decide_true, need_true, begun_house_tick, answer_defer]

theorem cueRead_reads (h : Ready false alwaysGate (.cueRead p cue) p q s) :
    exec (.cueRead p cue) s = .next (completed p .done [(0, leBytes 8 c.value.toNat)] [] [] (begun p s)) :=
  calc exec (.cueRead p cue) s = execCueRead p cue s := rfl
    _ = _ := congrArg Host.Outcome.next (serve_ready rfl h (decide_eq_true hcue))
    _ = _ := by
      simp only [begun_cues, hheld, hwhole, Bool.not_true, Bool.false_eq_true, if_false, answer_doneWith]; rfl

end Cue

end Rows

theorem isWhole_of_flaws {c : Cue} (hlo : c.flawLo = 0) (hhi : c.flawHi = 0) : c.isWhole = true := by
  simp [Cue.isWhole, hlo, hhi]

/-! ### The statements -/

/-- Settles O15: one lemma for each row. -/
theorem ringCommandsComplete : Obligations.RingCommandsComplete := by
  unfold Obligations.RingCommandsComplete
  refine ⟨?create, fun _ _ _ _ _ h hring hheld hempty hidle => ringDelete_removes h hring hheld hempty hidle,
    fun _ _ _ _ _ h hring hheld => ringState_reads h hring hheld⟩
  case create =>
    intro p q s ring kind depth binding port booking base spaceCue h hring hkind1 hkind3 hdepth6 hdepth16 hbinding hport
      hbase hbind hcue hfree
    refine ringCreate_adds h ?_ (by simpa using hbind) hcue hfree
    simp [(inRange_eq_true_iff ..).2 ⟨hkind1, hkind3⟩, (inRange_eq_true_iff ..).2 ⟨hdepth6, hdepth16⟩, hring, hbinding,
      hport, hbase]

/-- Settles O16: one lemma for each way a row ends. -/
theorem cueCommandsComplete : Obligations.CueCommandsComplete := by
  unfold Obligations.CueCommandsComplete
  refine ⟨?create, ?delete, ?add, ?wait, ?read⟩
  case create => exact fun _ _ _ _ _ h hcue hfree => cueCreate_adds hcue h hfree
  case delete => exact fun _ _ _ _ h hcue hheld hunnamed => cueDelete_removes hcue h hheld hunnamed
  case add =>
    exact fun _ _ _ _ _ _ h hcue hlo hhi hheld flawLo flawHi =>
      cueAdd_counts hcue hheld (isWhole_of_flaws flawLo flawHi) h hlo hhi
  case wait =>
    exact fun _ _ _ _ _ _ _ _ h hcue hheld flawLo flawHi =>
      ⟨fun hreached => cueWait_reached hcue hheld (isWhole_of_flaws flawLo flawHi) h hreached,
       fun hbelow hroom => cueWait_waits hcue hheld (isWhole_of_flaws flawLo flawHi) h hbelow hroom⟩
  case read =>
    exact fun _ _ _ _ _ h hcue hheld flawLo flawHi =>
      cueRead_reads hcue hheld (isWhole_of_flaws flawLo flawHi) h

end Sys2Proof.Machine
end

section
/-! The gauge, spill and rehearsal commands (R340, R371, R373, R374, R377, R380, R382): one lemma for each way a row ends,
and the statements O5 and O6 put together from them. -/

namespace Sys2Proof.Machine

open Sys2Proof

section Rows

variable {p : Post} {q : Posted} {s : State}

/-! ### Gauges (R380, R382) -/

theorem gaugeSnap_writes {dest : BitVec 64} (h : Ready false alwaysGate (.gaugeSnap p dest) p q s) :
    exec (.gaugeSnap p dest) s = .next (completed p .done [] [] []
      (pokeHbm (begun p s) dest.toNat (snapBytes (begun p s) q.target))) :=
  calc exec (.gaugeSnap p dest) s = execGaugeSnap p dest s := rfl
    _ = _ := congrArg Host.Outcome.next (serve_ready rfl h rfl)
    _ = _ := by simp only [answer_done]

/-- The gate of GAUGE_CLEAR: only the house clears the groups of the whole chip (R380). -/
def clearGate (p : Post) (groups : BitVec 32) (s : State) (t : Nat) : Option Status :=
  if p.issuer != 0 && groups &&& 0x300 != 0 then some .notOwner else anyGate s t

theorem clearGate_own {p : Post} {groups : BitVec 32} (hown : p.issuer = 0 ∨ groups &&& 0x300 = 0) :
    clearGate p groups = anyGate := by
  funext s t
  have hmay : (p.issuer != 0 && groups &&& 0x300 != 0) = false := by
    rcases hown with hown | hown <;> simp only [hown, bne_self_eq_false, Bool.false_and, Bool.and_false]
  simp only [clearGate, hmay, Bool.false_eq_true, if_false]

theorem gaugeClear_clears {groups : BitVec 32} (h : Ready false anyGate (.gaugeClear p groups) p q s)
    (hgroups : groups &&& ~~~ 0x37F = 0) (hown : p.issuer = 0 ∨ groups &&& 0x300 = 0) :
    exec (.gaugeClear p groups) s = .next (completed p .done [] [] []
      (modHouse (modTroupe (begun p s) q.target fun tr => { tr with gauges := clearGroups groups.toNat tr.gauges })
        fun h => { h with gauges := clearGroups groups.toNat h.gauges })) := by
  rw [← clearGate_own hown] at h
  calc exec (.gaugeClear p groups) s = execGaugeClear p groups s := rfl
    _ = _ := congrArg Host.Outcome.next (serve_ready rfl h (beq_iff_eq.2 hgroups))

theorem gaugeTimers_writes {step dest : BitVec 64} {r : StepRec}
    (h : Ready false alwaysGate (.gaugeTimers p step dest) p q s)
    (hstep : stepOf (troupe (begun p s) q.target) step.toNat = some r)
    (hopened : step.toNat ≤ (troupe s q.target).opened) (hkept : (troupe s q.target).opened < step.toNat + 64) :
    exec (.gaugeTimers p step dest) s = .next (completed p .done [] [] []
      (pokeHbm (begun p s) dest.toNat (phaseRecord r))) :=
  calc exec (.gaugeTimers p step dest) s = execGaugeTimers p step dest s := rfl
    _ = _ := congrArg Host.Outcome.next (serve_ready rfl h rfl)
    _ = _ := by
      simp only [hstep, begun_opened, hopened, hkept, decide_true, Bool.and_self, need_true, answer_done]

/-! ### Spill regions (R340) -/

theorem spillSet_sets {pitBase pitLen hostBase hostLen : BitVec 64}
    (h : Ready false anyGate (.spillSet p pitBase pitLen hostBase hostLen) p q s)
    (hnone : (troupe s q.target).spills = []) :
    exec (.spillSet p pitBase pitLen hostBase hostLen) s = .next (completed p .done [] [] []
      (modTroupe (begun p s) q.target fun tr => { tr with spillRegions := (pitBase, pitLen, hostBase, hostLen) })) :=
  calc exec (.spillSet p pitBase pitLen hostBase hostLen) s = execSpillSet p pitBase pitLen hostBase hostLen s := rfl
    _ = _ := congrArg Host.Outcome.next (serve_ready rfl h rfl)
    _ = _ := by simp only [begun_spills, hnone, List.isEmpty_nil, need_true, answer_done]

theorem spillDrain_completes (h : Ready false anyGate (.spillDrain p) p q s)
    (hnone : (troupe s q.target).spills = []) :
    exec (.spillDrain p) s = .next (completed p .done [] [] [] (begun p s)) :=
  calc exec (.spillDrain p) s = execSpillDrain p s := rfl
    _ = _ := congrArg Host.Outcome.next (serve_ready rfl h rfl)
    _ = _ := by simp only [begun_spills, hnone, List.length_nil, if_true, answer_done]

/-! ### Rehearsals (R371, R373, R374, R377) -/

theorem testSet_pends {flags slack : BitVec 8} (h : Ready true anyGate (.testSet p flags slack) p q s)
    (hflags : flags.toNat < 2) (hlo : 1 ≤ slack.toNat) (hhi : slack.toNat ≤ 50) :
    exec (.testSet p flags slack) s = .next (completed p .done [] [] []
      (modHouse (begun p s) fun h => { h with pendingTest := some (flags.getLsbD 0, slack.toNat) })) := by
  have hargs : (decide (flags.toNat < 2) && inRange 1 50 slack.toNat) = true := by
    simp [hflags, (inRange_eq_true_iff ..).2 ⟨hlo, hhi⟩]
  calc exec (.testSet p flags slack) s = execTestSet p flags slack s := rfl
    _ = _ := congrArg Host.Outcome.next (serve_ready rfl h hargs)

section Unit

variable {sub unit : BitVec 8} {u : Nat} (hunit : unitNumber (begun p s) sub.toNat unit.toNat = some u)
include hunit

theorem testRun_waits (h : Ready true anyGate (.testRun p sub unit) p q s)
    (hidle : underTest (unitOf (begun p s) u) = false) :
    exec (.testRun p sub unit) s = .next (heldBack p q.target q (.testRun u) []
      (modUnit (begun p s) u fun r => { r with testing := some false })) :=
  calc exec (.testRun p sub unit) s = execTestRun p sub unit s := rfl
    _ = _ := congrArg Host.Outcome.next (serve_ready rfl h rfl)
    _ = _ := by simp only [hunit, hidle, Bool.not_false, need_true, answer_defer]

theorem testDarken_stops (h : Ready true anyGate (.testDarken p sub unit) p q s) :
    exec (.testDarken p sub unit) s = .next (completed p .done [] [] []
      (modUnit (begun p s) u fun r => { r with stopping := true })) :=
  calc exec (.testDarken p sub unit) s = execTestDarken p sub unit s := rfl
    _ = _ := congrArg Host.Outcome.next (serve_ready rfl h rfl)
    _ = _ := by simp only [hunit, answer_done]

theorem testReturn_waits (h : Ready true anyGate (.testReturn p sub unit) p q s)
    (hdark : (unitOf (begun p s) u).dark = true) (hfused : (unitOf (begun p s) u).fused = false)
    (hidle : underTest (unitOf (begun p s) u) = false) :
    exec (.testReturn p sub unit) s = .next (heldBack p q.target q (.testReturn u) []
      (modUnit (begun p s) u fun r => { r with testing := some true })) :=
  calc exec (.testReturn p sub unit) s = execTestReturn p sub unit s := rfl
    _ = _ := congrArg Host.Outcome.next (serve_ready rfl h rfl)
    _ = _ := by simp only [hunit, hdark, hfused, hidle, Bool.not_false, Bool.and_self, need_true, answer_defer]

end Unit

end Rows

/-! ### The statements -/

/-- Settles O5: one lemma for each row; the house clears every group, another troupe its own. -/
theorem gaugeAndSpillCommandsComplete : Obligations.GaugeAndSpillCommandsComplete := by
  unfold Obligations.GaugeAndSpillCommandsComplete
  exact ⟨fun _ _ _ _ h => gaugeSnap_writes h, fun _ _ _ _ h hgroups hown => gaugeClear_clears h hgroups hown,
    fun _ _ _ _ _ _ h hstep hopened hkept => gaugeTimers_writes h hstep hopened hkept,
    fun _ _ _ _ _ _ _ h hnone => spillSet_sets h hnone, fun _ _ _ h hnone => spillDrain_completes h hnone⟩

/-- Settles O6: one lemma for each row. -/
theorem testCommandsComplete : Obligations.TestCommandsComplete := by
  unfold Obligations.TestCommandsComplete
  exact ⟨fun _ _ _ _ _ h hflags hlo hhi => testSet_pends h hflags hlo hhi,
    fun _ _ _ _ _ _ h hunit hidle => testRun_waits hunit h hidle,
    fun _ _ _ _ _ _ h hunit => testDarken_stops hunit h,
    fun _ _ _ _ _ _ h hunit hdark hfused hidle => testReturn_waits hunit h hdark hfused hidle⟩

end Sys2Proof.Machine
end

section
/-! The SPARE_ commands (R287, R295, R302, R303, R305, R306, R310): one lemma for each row, and the statement O19 put
together from them. -/

namespace Sys2Proof.Machine

open Sys2Proof

@[simp] theorem holdsBy_begun (p : Post) (s : State) (t : Nat) (f : Awaits → Bool) :
    holdsBy (begun p s) t f = holdsBy s t f := by
  simp only [holdsBy, begun_deferred]

section Rows

variable {p : Post} {q : Posted} {s : State}

theorem sparePair_pairs {line : BitVec 16} {mode flags : BitVec 8} {owned : BitVec 64}
    (h : Ready false quietGate (.sparePair p line mode flags owned) p q s) (hmode : mode.toNat < 3)
    (hflags : flags.toNat < 2) (hline : mirrorSuits (begun p s) q.target line.toNat = true)
    (hroom : propFits (begun p s) q.target (troupe s q.target).propK owned.toNat = true) :
    exec (.sparePair p line mode flags owned) s = .next (completed p .done [] [] []
      (modTroupe (begun p s) q.target fun tr => { tr with
        pairLine := line.toNat, pairMode := modeOf mode.toNat, pairTrickle := flags == 1, pairOwned := owned.toNat
        diverged := false, noCheck := false
        mirror := { tr.mirror with frozen := false, standIn := none, standSent := false, diverged := false } })) := by
  have hargs : (decide (mode.toNat < 3) && decide (flags.toNat < 2)) = true := by simp [hmode, hflags]
  calc exec (.sparePair p line mode flags owned) s = execSparePair p line mode flags owned s := rfl
    _ = _ := congrArg Host.Outcome.next (serve_ready rfl h hargs)
    _ = _ := by simp only [hline, begun_propK, hroom, Bool.and_self, need_true, answer_done]

theorem spareProp_sets {k n : BitVec 8} (h : Ready false quietGate (.spareProp p k n) p q s) (hk2 : 2 ≤ k.toNat)
    (hk16 : k.toNat ≤ 16) (hn1 : 1 ≤ n.toNat) (hnk : n.toNat ≤ k.toNat)
    (hroom : propFits (begun p s) q.target k.toNat (troupe s q.target).pairOwned = true) :
    exec (.spareProp p k n) s = .next (completed p .done [] [] []
      (modTroupe (begun p s) q.target fun tr => { tr with propK := k.toNat, propN := n.toNat })) := by
  have hargs : (inRange 2 16 k.toNat && inRange 1 16 n.toNat && decide (n.toNat ≤ k.toNat)) = true := by
    simp [(inRange_eq_true_iff ..).2 ⟨hk2, hk16⟩, (inRange_eq_true_iff ..).2 ⟨hn1, hnk.trans hk16⟩, hnk]
  calc exec (.spareProp p k n) s = execSpareProp p k n s := rfl
    _ = _ := congrArg Host.Outcome.next (serve_ready rfl h hargs)
    _ = _ := by simp only [begun_pairOwned, hroom, need_true, answer_done]

theorem spareResync_copies (h : Ready true anyGate (.spareResync p) p q s)
    (hdiverged : (troupe s q.target).diverged = true) (hfirst : holdsBy s q.target Awaits.isResync = false) :
    let ln := lineOf (troupe s q.target) (troupe s q.target).pairLine
    exec (.spareResync p) s = .next (heldBack p q.target q (.resync ln.epoch) []
      (if ln.state.val = .opened then sendCopy q.target (begun p s) else begun p s)) :=
  calc exec (.spareResync p) s = execSpareResync p s := rfl
    _ = _ := congrArg Host.Outcome.next (serve_ready rfl h rfl)
    _ = _ := by
      simp only [begun_diverged, hdiverged, holdsBy_begun, hfirst, Bool.not_false, Bool.and_self, need_true,
        begun_pairLine, lineOf_begun, beq_iff_eq, answer_defer]

theorem spareStandin_knocks {lost : BitVec 64} (h : Ready true anyGate (.spareStandin p lost) p q s)
    (hlost : addressOk lost = true) (hmode : (troupe s q.target).pairMode ≠ .none)
    (hfree : (troupe s q.target).mirror.standIn = none)
    (hpeer : (lineOf (troupe s q.target) (troupe s q.target).pairLine).peers.head?.any
      (fun k => k.addr == lost.setWidth 48) = true) :
    exec (.spareStandin p lost) s = .next (heldBack p q.target q .standIn []
      ((((troupe s q.target).lines.filter fun e =>
          decide (e.1 < 512) && e.2.carousel && e.2.members.contains (lost.setWidth 48)).map (·.1)).foldl
        (fun s l => standLine q.target (lost.setWidth 48) l s)
        (modMirror (begun p s) q.target fun m =>
          { m with frozen := true, standIn := some (lost.setWidth 48), standSent := false }))) :=
  calc exec (.spareStandin p lost) s = execSpareStandin p lost s := rfl
    _ = _ := congrArg Host.Outcome.next (serve_ready rfl h hlost)
    _ = _ := by
      simp only [begun_pairMode, bne_iff_ne.2 hmode, begun_mirror, hfree, Option.isNone_none, begun_pairLine,
        lineOf_begun, hpeer, Bool.and_self, need_true, begun_lines, answer_defer]

theorem spareEncore_holds (h : Ready true anyGate (.spareEncore p) p q s) :
    exec (.spareEncore p) s = .next (completed p .done [] [] []
      (modTroupe (begun p s) q.target fun tr => { tr with held := true })) :=
  calc exec (.spareEncore p) s = execSpareEncore p s := rfl
    _ = _ := congrArg Host.Outcome.next (serve_ready rfl h rfl)

theorem sparePromote_takes {lost standin donors : BitVec 64} {donorCount : BitVec 16}
    (h : Ready true quietGate (.sparePromote p lost standin donors donorCount) p q s)
    (hlost : addressOk lost = true) (hstandin : addressOk standin = true)
    (hcount : donorCount.toNat = (troupe s q.target).carousels.length)
    (hdonors : ∀ a ∈ readAddresses s donors.toNat donorCount.toNat, addressOk a = true)
    (hmode : (troupe s q.target).pairMode ≠ .none) (hsealed : (troupe s q.target).sealed = true)
    (hholds : tableHolds (troupe (begun p s) q.target) (lost.setWidth 48) = true)
    (hsteps : (troupe s q.target).steps = []) (hfirst : (troupe s q.target).promotion = none) :
    exec (.sparePromote p lost standin donors donorCount) s = .next
      (heldBack p q.target q (.promote (lost.setWidth 48) (standin.setWidth 48)) []
        (modTroupe (begun p s) q.target fun tr => { tr with
          address := some (lost.setWidth 48), promotion := some (lost.setWidth 48, standin.setWidth 48)
          encoreDone := false, mirror := { tr.mirror with frozen := false } })) := by
  have hlist : (readAddresses s donors.toNat donorCount.toNat).all addressOk = true := List.all_eq_true.2 hdonors
  have hargs : (addressOk lost && addressOk standin) = true := by rw [hlost, hstandin]; rfl
  calc exec (.sparePromote p lost standin donors donorCount) s =
      execSparePromote p lost standin donors donorCount s := rfl
    _ = _ := congrArg Host.Outcome.next (serve_ready rfl h hargs)
    _ = _ := by
      simp only [begun_carousels, beq_iff_eq.2 hcount, readAddresses_begun, hlist, begun_pairMode, bne_iff_ne.2 hmode,
        begun_sealed, hsealed, hholds, begun_steps, hsteps, List.isEmpty_nil, begun_promotion, hfirst,
        Option.isNone_none, Bool.and_self, need_true, answer_defer]

theorem spareExport_waits {dest : BitVec 64} (h : Ready true anyGate (.spareExport p dest) p q s)
    (hstandIn : (troupe s q.target).mirror.standIn.isSome = true) :
    exec (.spareExport p dest) s = .next (heldBack p q.target q (.spareExport dest) [] (begun p s)) :=
  calc exec (.spareExport p dest) s = execSpareExport p dest s := rfl
    _ = _ := congrArg Host.Outcome.next (serve_ready rfl h rfl)
    _ = _ := by simp only [begun_mirror, hstandIn, need_true, answer_defer]

end Rows

/-! ### The statement -/

/-- Settles O19: one lemma for each row. -/
theorem spareCommandsComplete : Obligations.SpareCommandsComplete := by
  unfold Obligations.SpareCommandsComplete
  refine ⟨?pair, ?prop, ?resync, ?standin, ?encore, ?promote, ?exports⟩
  case pair =>
    exact fun _ _ _ _ _ _ _ h hmode hflags hline hroom => sparePair_pairs h hmode hflags hline hroom
  case prop => exact fun _ _ _ _ _ h hk2 hk16 hn1 hnk hroom => spareProp_sets h hk2 hk16 hn1 hnk hroom
  case resync => exact fun _ _ _ h hdiverged hfirst => spareResync_copies h hdiverged hfirst
  case standin => exact fun _ _ _ _ h hlost hmode hfree hpeer => spareStandin_knocks h hlost hmode hfree hpeer
  case encore => exact fun _ _ _ h => spareEncore_holds h
  case promote =>
    exact fun _ _ _ _ _ _ _ h hlost hstandin hcount hdonors hmode hsealed hholds hsteps hfirst =>
      sparePromote_takes h hlost hstandin hcount hdonors hmode hsealed hholds hsteps hfirst
  case exports => exact fun _ _ _ _ h hstandIn => spareExport_waits h hstandIn

end Sys2Proof.Machine
end

section
/-! Plain writes to the register window: the statement O21 fails at ERR_CUE. A write of a whole word there also lets the
word be found broken anew, as one to ERR_READ does, but the statement keeps it among those that were found. -/

namespace Sys2Proof.Machine

open Sys2Proof

/-- A block whose broken ERR_CUE a tick has found and recorded (R351, Table 13.3). -/
def foundBroken : State := { State.reset with log := { State.reset.log with cue := 1, pcFound := [0x40] } }

/-- A write of troupe 0 that names no cue in ERR_CUE. -/
def clearErrCue : Access := { tag := 0, offset := 0x40, size := 8, data := leBytes 8 (pcWord 0).toNat }

/-- ERR_CUE can be found broken again once a whole word stands there. -/
theorem exec_clearErrCue : ∃ t, exec (.registerWrite clearErrCue) foundBroken = .next t ∧ t.log.pcFound = [] :=
  ⟨_, rfl, by decide⟩

/-- Refutes O21: where ERR_CUE had been found broken, a write to it takes its offset off the registers found broken, which
the clause on ERR_CUE keeps. -/
theorem not_windowWritesComplete : ¬ Obligations.WindowWritesComplete := by
  unfold Obligations.WindowWritesComplete
  rintro ⟨-, -, -, -, plain⟩
  have allowed : denial (passCk clearErrCue.dt foundBroken) clearErrCue true = none := by decide
  obtain ⟨-, errCue, -⟩ := plain clearErrCue foundBroken allowed
  obtain ⟨t, hexec, found⟩ := exec_clearErrCue
  have kept := Host.Outcome.next.inj (hexec.symm.trans (errCue (by decide)))
  rw [kept] at found
  exact absurd found (by decide)

end Sys2Proof.Machine
end

section
/-! Reset, bring-up and rehearsal (R336, R370, R372, R373, R376, R377, R384, R385, Table 14.9): one lemma for each row,
and the statements O23 and O25 put together from them. -/

namespace Sys2Proof.Machine

open Sys2Proof

@[simp] theorem unitOf_passCk (dt : Nat) (s : State) (u : Nat) : unitOf (passCk dt s) u = unitOf s u := by
  simp only [unitOf, passCk_house_units]

@[simp] theorem unitOf_modUnit_same (s : State) (u : Nat) (f : UnitRec → UnitRec) :
    unitOf (modUnit s u f) u = f (unitOf s u) := by
  simp only [unitOf, modUnit, modHouse, tabGetD, tabGet_tabPut_same, Option.getD_some]

@[simp] theorem unitOf_unitGauge (s : State) (u off v : Nat) : unitOf (unitGauge s u off) v = unitOf s v := rfl

@[simp] theorem doorsReady_passCk (dt : Nat) (s : State) : doorsReady (passCk dt s) = doorsReady s := by
  simp only [doorsReady, portOf_passCk, unitDark, unitOf_passCk, passCk_house_adrift, passCk_house_parent,
    passCk_house_tookCounter, passCk_house_rehearsed, passCk_house_podSet]

section Rows

variable {dt unit : Nat} {s : State}

/-! ### Reset (R333, R336) -/

theorem resetUnit_chip (r : UnitRec) : resetUnit true r = {} := by
  simp only [resetUnit, Bool.not_true, Bool.and_false]

theorem resetUnit_house (r : UnitRec) : resetUnit false r = { fused := r.fused, dark := r.fused } := by
  simp only [resetUnit, Bool.not_false, Bool.and_true]

theorem resetPort_chip (p : Port) : resetPort true p = { tx := p.tx } := by
  simp only [resetPort, Bool.not_true, Bool.and_false, Bool.false_eq_true, if_false]

theorem resetPort_house (p : Port) :
    resetPort false p = { link := if p.link = .lit then .lit else .unlit, tx := p.tx } := by
  simp only [resetPort, Bool.not_false, Bool.and_true, beq_iff_eq]

/-- A reset takes no account of the time that passed. -/
theorem resetBlock_passCk (chip : Bool) (dt : Nat) (s : State) : resetBlock chip (passCk dt s) = resetBlock chip s := by
  rw [passCk_eq]; rfl

theorem chipReset_resets : exec (.chipReset dt true) s = .next { s with
    house := { pits := s.house.pits, coord := s.house.coord, lfsr := laneSeeds (256 * (s.house.pits + 1)) 0
               draws := s.house.draws, units := s.house.units.map fun e => (e.1, ({} : UnitRec)) }
    log := {}, check := {}, troupes := [(0, {})], slices := [], deferred := []
    ports := s.ports.map fun e => (e.1, { ({} : Port) with tx := e.2.tx }) } :=
  calc exec (.chipReset dt true) s = execChipReset dt true s := rfl
    _ = .next (resetBlock true s) := congrArg Host.Outcome.next (resetBlock_passCk true dt s)
    _ = _ := by simp only [resetBlock, resetHouse, resetUnit_chip, resetPort_chip]

theorem chipReset_resets_house : exec (.chipReset dt false) s = .next { s with
    house := { pits := s.house.pits, coord := s.house.coord, lfsr := laneSeeds (256 * (s.house.pits + 1)) 0
               draws := s.house.draws
               units := s.house.units.map fun e => (e.1, { ({} : UnitRec) with fused := e.2.fused, dark := e.2.fused }) }
    log := {}, check := {}, troupes := [(0, {})], slices := [], deferred := []
    ports := s.ports.map fun e =>
      (e.1, { ({} : Port) with link := if e.2.link = .lit then .lit else .unlit, tx := e.2.tx }) } :=
  calc exec (.chipReset dt false) s = execChipReset dt false s := rfl
    _ = .next (resetBlock false s) := congrArg Host.Outcome.next (resetBlock_passCk false dt s)
    _ = _ := by simp only [resetBlock, resetHouse, resetUnit_house, resetPort_house]

/-! ### Bring-up (R384, R385) -/

theorem resetRelease_rehearses {failed : List Nat} (hfirst : s.house.released = false) :
    exec (.resetRelease dt failed) s = .next
      ((failed.eraseDups.filter fun u => unitExists s.house.pits u && ! (unitOf s u).fused).foldl (fun s u => failUnit u s)
        (modHouse (passCk dt s) fun h => { h with released := true, releaseCk := h.ck, rehearsed := true })) := by
  have hunit (u : Nat) : unitOf (modHouse (passCk dt s) fun h =>
      { h with released := true, releaseCk := h.ck, rehearsed := true }) u = unitOf s u := unitOf_passCk dt s u
  have hpits : (modHouse (passCk dt s) fun h =>
      { h with released := true, releaseCk := h.ck, rehearsed := true }).house.pits = s.house.pits :=
    passCk_house_pits dt s
  calc exec (.resetRelease dt failed) s = execResetRelease dt failed s := rfl
    _ = _ := by
      simp only [execResetRelease, passCk_house_released, hfirst, Bool.false_eq_true, if_false, hunit, hpits]

theorem nimliaUp_rises (hreleased : s.house.released = true) (hrehearsed : s.house.rehearsed = true)
    (hdown : s.house.fwUp = false) :
    exec (.nimliaUp dt) s = .next (modHouse (passCk dt s) fun h => { h with fwUp := true, silentTicks := 0 }) :=
  calc exec (.nimliaUp dt) s = execNimliaUp dt s := rfl
    _ = _ := by
      simp only [execNimliaUp, passCk_house_released, hreleased, passCk_house_rehearsed, hrehearsed, passCk_house_fwUp,
        hdown, Bool.not_false, Bool.and_self, if_true]

theorem doorsOpen_opens (hup : s.house.fwUp = true) (hclosed : s.house.doorsOpen = false) (hready : doorsReady s = true) :
    exec (.doorsOpen dt) s = .next (modHouse (passCk dt s) fun h => { h with doorsOpen := true, takeCounter := none }) :=
  calc exec (.doorsOpen dt) s = execDoorsOpen dt s := rfl
    _ = _ := by
      simp only [execDoorsOpen, passCk_house_fwUp, hup, passCk_house_doorsOpen, hclosed, doorsReady_passCk, hready,
        Bool.not_false, Bool.and_self, if_true]

theorem doorsTimeout_records (hup : s.house.fwUp = true) (hclosed : s.house.doorsOpen = false)
    (hfirst : s.house.doorsRecord = false) (hlate : s.house.releaseCk + 720000000 ≤ s.house.ck + dt) :
    exec (.doorsTimeout dt) s = .next (record { sub := .prompter, status := .timeout }
      (modHouse (passCk dt s) fun h => { h with doorsRecord := true })) := by
  have hdue : decide (s.house.releaseCk + 400000 * Config.ckPerUs ≤ s.house.ck + dt) = true := decide_eq_true hlate
  calc exec (.doorsTimeout dt) s = execDoorsTimeout dt s := rfl
    _ = _ := by
      simp only [execDoorsTimeout, passCk_house_fwUp, hup, passCk_house_doorsOpen, hclosed, passCk_house_doorsRecord,
        hfirst, passCk_house_releaseCk, passCk_ck, hdue, Bool.not_false, Bool.and_self, if_true]

/-! ### Slices of a rehearsal (R370, R372) -/

/-- A slice that may run on a unit is counted against the unit's slack, and what it found counts. -/
theorem rehearsalSlice_runs {vector : Nat} (found : SliceResult) (hmay : mayRehearse (passCk dt s) unit = true)
    (hnew : (unitOf s unit).skippedVectors.contains vector = false)
    (hvector : (unitOf s unit).suspect.any (· != vector) = false) :
    exec (.rehearsalSlice dt unit vector found) s =
      .next (sliceFound unit vector found (modUnit (passCk dt s) unit fun r => { r with spent := r.spent + 256 })) :=
  calc exec (.rehearsalSlice dt unit vector found) s = execRehearsalSlice dt unit vector found s := rfl
    _ = _ := by
      simp only [execRehearsalSlice, hmay, unitOf_passCk, hnew, hvector, Bool.not_true, Bool.or_self,
        Bool.false_eq_true, if_false]

/-- A right result counts as one that was not tried again where no vector of the unit is suspect. -/
theorem sliceFound_right {vector : Nat} (hclean : (unitOf s unit).suspect = none) :
    sliceFound unit vector .right s = unitGauge (modUnit s unit fun r => { r with suspect := none }) unit 0 := by
  simp only [sliceFound, hclean, Option.isSome_none, Bool.false_eq_true, if_false]

theorem sliceFound_wrong_first {vector : Nat} (hclean : (unitOf s unit).suspect = none) :
    sliceFound unit vector .wrong s = modUnit (unitGauge s unit 0) unit fun r => { r with suspect := some vector } := by
  have hfirst : (none == some vector) = false := rfl
  simp only [sliceFound, unitOf_unitGauge, hclean, hfirst, Bool.false_eq_true, if_false]

theorem sliceFound_wrong_again {vector : Nat} (hsuspect : (unitOf s unit).suspect = some vector) :
    sliceFound unit vector .wrong s = failUnit unit (unitGauge s unit 0) := by
  simp only [sliceFound, unitOf_unitGauge, hsuspect, beq_self_eq_true, if_true]

/-! ### Full rehearsals (R373, R377) -/

theorem rehearsalComplete_ends (pass : Bool) :
    exec (.rehearsalComplete dt unit pass) s = .next (rehearsalEnd unit pass (passCk dt s)) := rfl

theorem rehearsalEnd_reset (hreset : (unitOf s unit).resetting = true) :
    rehearsalEnd unit true s = modUnit s unit fun r => { r with resetting := false, clearing := true, stopping := false } := by
  simp only [rehearsalEnd, hreset, if_true]

theorem rehearsalEnd_return (hservice : (unitOf s unit).resetting = false)
    (htest : (unitOf s unit).testing = some true) (pass : Bool) :
    rehearsalEnd unit pass s = if pass then modUnit s unit fun r => { r with clearing := true }
      else endTest unit false (failureRecord unit s) := by
  simp only [rehearsalEnd, hservice, htest, Bool.false_eq_true, if_false]

theorem rehearsalEnd_test_passes (hservice : (unitOf s unit).resetting = false)
    (htest : (unitOf s unit).testing = some false) : rehearsalEnd unit true s = endTest unit true s := by
  simp only [rehearsalEnd, hservice, htest, Bool.false_eq_true, if_false, if_true]

end Rows

/-! ### The statements -/

/-- Settles O23: one lemma for each row and each kind of reset. -/
theorem bringUpComplete : Obligations.BringUpComplete := by
  unfold Obligations.BringUpComplete
  exact ⟨fun _ _ => chipReset_resets, fun _ _ => chipReset_resets_house,
    fun _ _ _ hfirst => resetRelease_rehearses hfirst,
    fun _ _ hreleased hrehearsed hdown => nimliaUp_rises hreleased hrehearsed hdown,
    fun _ _ hup hclosed hready => doorsOpen_opens hup hclosed hready,
    fun _ _ hup hclosed hfirst hlate => doorsTimeout_records hup hclosed hfirst hlate⟩

/-- Settles O25: a slice by what it found and by whether its vector is suspect, a full rehearsal by what asked for it. -/
theorem rehearsalComplete : Obligations.RehearsalComplete := by
  unfold Obligations.RehearsalComplete
  refine ⟨?first, ?again, ?reset, ?return_, ?test⟩
  case first =>
    intro dt unit vector s hmay hnew hclean
    have hspent : (unitOf (modUnit (passCk dt s) unit fun r => { r with spent := r.spent + 256 }) unit).suspect = none := by
      rw [unitOf_modUnit_same, unitOf_passCk]; exact hclean
    have hvector : (unitOf s unit).suspect.any (· != vector) = false := by rw [hclean]; rfl
    exact ⟨by rw [rehearsalSlice_runs .right hmay hnew hvector, sliceFound_right hspent],
      by rw [rehearsalSlice_runs .wrong hmay hnew hvector, sliceFound_wrong_first hspent]⟩
  case again =>
    intro dt unit vector s hmay hnew hsuspect
    have hspent : (unitOf (modUnit (passCk dt s) unit fun r => { r with spent := r.spent + 256 }) unit).suspect =
        some vector := by
      rw [unitOf_modUnit_same, unitOf_passCk]; exact hsuspect
    have hvector : (unitOf s unit).suspect.any (· != vector) = false := by rw [hsuspect]; simp
    rw [rehearsalSlice_runs .wrong hmay hnew hvector, sliceFound_wrong_again hspent]
  case reset =>
    intro dt unit s hreset
    rw [rehearsalComplete_ends, rehearsalEnd_reset (by rwa [unitOf_passCk])]
  case return_ =>
    intro dt unit s hservice htest
    rw [← unitOf_passCk dt] at hservice htest
    exact ⟨by rw [rehearsalComplete_ends, rehearsalEnd_return hservice htest, if_pos rfl],
      by rw [rehearsalComplete_ends, rehearsalEnd_return hservice htest, if_neg Bool.false_ne_true]⟩
  case test =>
    intro dt unit s hservice htest
    rw [← unitOf_passCk dt] at hservice htest
    rw [rehearsalComplete_ends, rehearsalEnd_test_passes hservice htest]

end Sys2Proof.Machine
end

section
/-! Error records (R357, R360, R361): what a record leaves in the log and in the troupe page that it names, and the values
that ERR_READ takes. The statement O50. -/

namespace Sys2Proof.Machine

open Sys2Proof

/-- A record that finds 256 kept moves ERR_READ as it is taken one on, whether its stored pair is whole or broken. -/
theorem errReadVal_push_full {l : ErrorLog} (e : ErrRec) (hfull : l.write - errReadVal l = 256) :
    errReadVal (l.push e) = errReadVal l + 1 := by
  have hread := push_read l e
  by_cases hwhole : pcWhole l.read = true
  · rw [if_pos ⟨hfull, hwhole⟩] at hread
    rw [errReadVal, hread, pcWhole_pcWord, if_pos rfl, pcVal_pcWord]
    bv_omega
  · rw [if_neg fun h => hwhole h.2] at hread
    have hwrite : (l.push e).write = l.write + 1 := rfl
    rw [errReadVal, errReadVal, hread, if_neg hwhole, if_neg hwhole, hwrite]
    bv_omega

theorem push_overwritten (l : ErrorLog) (e : ErrRec) : (l.push e).overwritten =
    if l.write - errReadVal l = 256 then min 0xFFFFFFFF (l.overwritten + 1) else l.overwritten := by
  simp only [ErrorLog.push, capAt_eq_min, beq_iff_eq]

/-- What stands between ERR_READ and ERR_WRITE where a record overwrites the oldest one, and where there is room. -/
theorem push_keeps_256 (l : ErrorLog) (e : ErrRec) :
    if l.write - errReadVal l = 256 then
      errReadVal (l.push e) = errReadVal l + 1 ∧ (l.push e).overwritten = min 0xFFFFFFFF (l.overwritten + 1)
    else (l.push e).read = l.read ∧ (l.push e).overwritten = l.overwritten := by
  rw [push_overwritten]
  split
  case isTrue hfull => exact ⟨errReadVal_push_full e hfull, rfl⟩
  case isFalse hroom => exact ⟨by rw [push_read, if_neg fun h => hroom h.1], rfl⟩

@[simp] theorem copyRecord_log (r : Rec) (e : ErrRec) (s : State) : (copyRecord r e s).log = s.log := by
  unfold copyRecord; split <;> rfl

theorem troupe_copyRecord_named {r : Rec} {s : State} {u : Nat} (hwho : r.who = some u)
    (hlife : (troupe s u).life ≠ .absent) (e : ErrRec) : troupe (copyRecord r e s) u =
      { troupe s u with lastError := some e, errors := capAt 0xFFFFFFFF ((troupe s u).errors + 1) } := by
  simp only [copyRecord, hwho]
  exact troupe_modTroupe_same (tabGet_isSome_of_ne_absent Troupe.life hlife) _

theorem troupe_copyRecord_other {r : Rec} {s : State} {u : Nat} (hwho : r.who ≠ some u) (e : ErrRec) :
    troupe (copyRecord r e s) u = troupe s u := by
  unfold copyRecord
  split
  case h_1 => rfl
  case h_2 v hv => exact troupe_modTroupe_other s (fun h => hwho (by rw [hv, h])) _

theorem writeRecord_of_room {s : State} (hroom : s.log.inTick < 256) (r : Rec) :
    writeRecord r s = copyRecord r (r.stored s) { s with log := s.log.push (r.stored s) } := by
  simp only [writeRecord, logOpen, hroom, decide_true, if_true]

theorem writeRecord_of_full {s : State} (hfull : 256 ≤ s.log.inTick) (r : Rec) : writeRecord r s = suppress s := by
  simp only [writeRecord, logOpen, Nat.not_lt.2 hfull, decide_false, Bool.false_eq_true, if_false]

theorem errRead_refuses {a : Access} {s : State} (hplace : placeOf (a.offset / 8 * 8) = .house 0x30)
    (hpass : denial (passCk a.dt s) a true = none)
    (hpast : s.log.write - errReadVal s.log < BitVec.ofNat 32 (pcVal (wordOf a)) - errReadVal s.log) :
    exec (.errRead a) s =
      .next (refuseAccess a true { reply := .refused, status := .badArg } (passCk a.dt s)) :=
  calc exec (.errRead a) s = execErrRead a s := rfl
    _ = _ := by
      simp only [execErrRead, hplace, bne_self_eq_false, Bool.false_eq_true, if_false, judged, hpass, passCk_log, hpast,
        if_true]

/-! ### The statement -/

/-- Settles O50: a record by whether the tick still takes one, ERR_READ by its refusal. -/
theorem recordsKept : Obligations.RecordsKept := by
  unfold Obligations.RecordsKept
  refine ⟨fun r s hroom => ?written, fun r s hfull => ⟨writeRecord_of_full hfull r, ?counted⟩,
    fun a s hplace hpass hpast => errRead_refuses hplace hpass hpast⟩
  case counted => simp only [suppress, capAt_eq_min]
  case written =>
    rw [writeRecord_of_room hroom r]
    simp only [copyRecord_log]
    refine ⟨rfl, rfl, rfl, tabGet_tabPut_same .., rfl, rfl, fun k hk => tabGet_tabPut_other _ hk.symm _,
      push_keeps_256 _ _, fun u hwho hlife => ?_, fun u hwho => troupe_copyRecord_other hwho _⟩
    rw [troupe_copyRecord_named (s := { s with log := s.log.push (r.stored s) }) hwho hlife]
    exact ⟨rfl, capAt_eq_min ..⟩

end Sys2Proof.Machine
end

section
/-! The doorbells (R319, R320, R326, R355, R356): how a full tail is rebuilt and judged, and which slots are posted. The
statements O54 and O55. -/

namespace Sys2Proof.Machine

open Sys2Proof

/-! ### Tails (R355) -/

theorem toNat_fullTail (t0 : BitVec 32) (low : Nat) : (fullTail t0 low).toNat =
    (t0.toNat + (low + 2 ^ 17 - t0.toNat % 2 ^ 17) % 2 ^ 17) % 2 ^ 32 := by
  rw [fullTail, BitVec.toNat_add, BitVec.toNat_ofNat, Nat.add_mod_mod]

theorem fullTail_low (t0 : BitVec 32) {low : Nat} (h : low < 2 ^ 17) : (fullTail t0 low).toNat % 2 ^ 17 = low := by
  rw [toNat_fullTail]; omega

theorem fullTail_near (t0 : BitVec 32) (low : Nat) : (fullTail t0 low - t0).toNat < 2 ^ 17 := by
  rw [BitVec.toNat_sub, toNat_fullTail]; omega

/-- The low bits of a tail name that tail itself. -/
theorem fullTail_self (t0 : BitVec 32) : fullTail t0 (t0.toNat % 2 ^ 17) = t0 := by
  refine BitVec.eq_of_toNat_eq ?_
  rw [toNat_fullTail]; omega

/-! ### Judging a tail (R326, R356) -/

section Ring

variable {a : Access} {s : State} {t : Nat}

/-- A ring doorbell that passes the checks of Table 13.2 is judged by its own rule. -/
theorem ringDoorbell_judges (haims : aimsAt a 0x2008 = some t) (hpass : denial (passCk a.dt s) a true = none) :
    exec (.ringDoorbell a) s = .next (ringWrite a t (passCk a.dt s)) :=
  calc exec (.ringDoorbell a) s = execRingDoorbell a s := rfl
    _ = _ := by simp only [execRingDoorbell, haims, judged, hpass]

theorem ringWrite_no_ring (hnone : tabGet (troupe s t).rings (bits (pcVal (wordOf a)) 17 12) = none) :
    ringWrite a t s = ringDenied a t (bits (pcVal (wordOf a)) 17 12) .noTarget .noTarget (accessRecord
      { sub := .callDesk, status := .noTarget, who := some a.tag, address := a.offset
        detail := bits (pcVal (wordOf a)) 17 12 } s) := by
  simp only [ringWrite, hnone]

variable {r : Ring} (hring : tabGet (troupe s t).rings (bits (pcVal (wordOf a)) 17 12) = some r)
include hring

/-- What a ring doorbell writes of a ring that refuses it (R356). -/
def tailTold (a : Access) (t : Nat) (r : Ring) (st : Status) : Rec :=
  { sub := .callDesk, status := st, who := some t, address := a.offset
    detail := bits (pcVal (wordOf a)) 17 12 +
      (fullTail r.tail.val (bits (pcVal (wordOf a)) 0 17)).toNat * 2 ^ 16 }

theorem ringWrite_broken (hbroken : r.head.flaw ≠ 0 ∨ r.tail.flaw ≠ 0) :
    ringWrite a t s = ringDenied a t (bits (pcVal (wordOf a)) 17 12) .refused .integrity
      (fault (tailTold a t r .integrity) none s) := by
  have hpairs : (! (whole r.head && whole r.tail)) = true := by
    rcases hbroken with h | h
    · simp only [whole, beq_eq_false_iff_ne.2 h, Bool.false_and, Bool.not_false]
    · simp only [whole, beq_eq_false_iff_ne.2 h, Bool.and_false, Bool.not_false]
  simp only [ringWrite, hring, hpairs, if_true]; rfl

variable (hhead : r.head.flaw = 0) (htail : r.tail.flaw = 0)
include hhead htail

theorem ringWrite_whole : ringWrite a t s =
    let ring := bits (pcVal (wordOf a)) 17 12
    let tail := fullTail r.tail.val (bits (pcVal (wordOf a)) 0 17)
    if r.depth < (tail - r.tail.val).toNat then
      ringDenied a t ring .refused .ringFull (fault (tailTold a t r .ringFull) none s)
    else if r.depth < (tail - r.head.val).toNat then ringDenied a t ring .refused .ringFull (gauge s t 0x518 1)
    else respond .done [] (modTroupe s t fun tr => { tr with rings := tabPut tr.rings ring { r with tail := ⟨tail, 0⟩ } }) := by
  have hpairs : (! (whole r.head && whole r.tail)) = false := by simp [whole, hhead, htail]
  simp only [ringWrite, hring, hpairs, Bool.false_eq_true, if_false]; rfl

theorem ringWrite_overflow
    (hover : r.depth < (fullTail r.tail.val (bits (pcVal (wordOf a)) 0 17) - r.tail.val).toNat) :
    ringWrite a t s = ringDenied a t (bits (pcVal (wordOf a)) 17 12) .refused .ringFull
      (fault (tailTold a t r .ringFull) none s) := by
  rw [ringWrite_whole hring hhead htail]
  exact if_pos hover

theorem ringWrite_full
    (hfits : (fullTail r.tail.val (bits (pcVal (wordOf a)) 0 17) - r.tail.val).toNat ≤ r.depth)
    (hfull : r.depth < (fullTail r.tail.val (bits (pcVal (wordOf a)) 0 17) - r.head.val).toNat) :
    ringWrite a t s =
      ringDenied a t (bits (pcVal (wordOf a)) 17 12) .refused .ringFull (gauge s t 0x518 1) := by
  rw [ringWrite_whole hring hhead htail]
  exact (if_neg (Nat.not_lt.2 hfits)).trans (if_pos hfull)

theorem ringWrite_same (hsame : bits (pcVal (wordOf a)) 0 17 = r.tail.val.toNat % 2 ^ 17)
    (hheld : (r.tail.val - r.head.val).toNat ≤ r.depth) :
    ringWrite a t s = respond .done [] (modTroupe s t fun tr =>
      { tr with rings := tabPut tr.rings (bits (pcVal (wordOf a)) 17 12) r }) := by
  have hadvance : ¬ r.depth < (r.tail.val - r.tail.val).toNat := by simp
  have hkept : ({ r with tail := ⟨r.tail.val, 0⟩ } : Ring) = r := by rw [← htail]
  rw [ringWrite_whole hring hhead htail, hsame, fullTail_self, if_neg hadvance, if_neg (Nat.not_lt.2 hheld), hkept]

end Ring

/-! ### Slots that a call doorbell posts (R319, R320) -/

section Slots

variable {t k j : Nat} {s : State}

/-- What a doorbell posts in a slot: its bytes 0 to 191, and the tick of its arrival. -/
def arrival (t k : Nat) (s : State) : Posted :=
  { image := memRead (troupe s t).board (256 * k) 192, arrived := s.house.tick }

theorem postSlot_busy {q : Posted} (hbusy : tabGet (troupe s t).posted k = some q) :
    postSlot t k s = gauge s t 0x510 1 := by
  simp only [postSlot, hbusy, Option.isSome_some, if_true]

theorem postSlot_free (hfree : tabGet (troupe s t).posted k = none) : postSlot t k s = modTroupe s t fun tr =>
    { tr with posted := tabPut tr.posted k (arrival t k s) } := by
  simp only [postSlot, hfree, Option.isSome_none, Bool.false_eq_true, if_false]; rfl

/-- What neither the posted commands nor the gauges of a troupe are part of. -/
theorem troupe_postSlot {γ : Type} (g : Troupe → γ) (hposted : ∀ tr x, g { tr with posted := x } = g tr)
    (hgauges : ∀ tr x, g { tr with gauges := x } = g tr) : g (troupe (postSlot t k s) t) = g (troupe s t) := by
  cases h : tabGet (troupe s t).posted k with
  | some q => rw [postSlot_busy h]; exact troupe_modTroupe_of s t t _ g fun _ => hgauges _ _
  | none => rw [postSlot_free h]; exact troupe_modTroupe_of s t t _ g fun _ => hposted _ _

theorem board_postSlot : (troupe (postSlot t k s) t).board = (troupe s t).board :=
  troupe_postSlot Troupe.board (fun _ _ => rfl) fun _ _ => rfl

theorem life_postSlot : (troupe (postSlot t k s) t).life = (troupe s t).life :=
  troupe_postSlot Troupe.life (fun _ _ => rfl) fun _ _ => rfl

theorem house_postSlot : (postSlot t k s).house = s.house := by
  cases h : tabGet (troupe s t).posted k with
  | some q => rw [postSlot_busy h, gauge_house]
  | none => rw [postSlot_free h]; rfl

@[simp] theorem arrival_postSlot (j : Nat) : arrival t j (postSlot t k s) = arrival t j s := by
  simp only [arrival, board_postSlot, house_postSlot]

/-- A doorbell leaves a slot that it does not name, and one whose last command has not completed. -/
theorem posted_postSlot_kept (hkept : k ≠ j ∨ tabGet (troupe s t).posted j ≠ none) :
    tabGet (troupe (postSlot t k s) t).posted j = tabGet (troupe s t).posted j := by
  cases h : tabGet (troupe s t).posted k with
  | some q =>
    rw [postSlot_busy h]
    exact troupe_modTroupe_of s t t _ (fun tr => tabGet tr.posted j) fun _ => rfl
  | none =>
    have hother : k ≠ j := by
      rintro rfl
      exact hkept.elim (fun hne => hne rfl) fun hbusy => hbusy h
    rw [postSlot_free h]
    exact troupe_modTroupe_of s t t _ (fun tr => tabGet tr.posted j) fun _ => tabGet_tabPut_other _ hother _

theorem posted_postSlot_free (hfree : tabGet (troupe s t).posted k = none) (hlife : (troupe s t).life ≠ .absent) :
    tabGet (troupe (postSlot t k s) t).posted k =
      some (arrival t k s) := by
  rw [postSlot_free hfree, troupe_modTroupe_same (tabGet_isSome_of_ne_absent Troupe.life hlife), tabGet_tabPut_same]

/-- The slots of a list, posted one after the other. -/
def postSlots (t : Nat) (ks : List Nat) (s : State) : State := ks.foldl (fun s k => postSlot t k s) s

theorem board_postSlots (ks : List Nat) : (troupe (postSlots t ks s) t).board = (troupe s t).board := by
  induction ks generalizing s with
  | nil => rfl
  | cons k ks ih => exact ih.trans board_postSlot

theorem posted_postSlots_kept {ks : List Nat} (h : j ∉ ks ∨ tabGet (troupe s t).posted j ≠ none) :
    tabGet (troupe (postSlots t ks s) t).posted j = tabGet (troupe s t).posted j := by
  induction ks generalizing s with
  | nil => rfl
  | cons k ks ih =>
    have hfirst : k ≠ j ∨ tabGet (troupe s t).posted j ≠ none :=
      h.imp_left fun hnot heq => hnot (heq ▸ List.mem_cons_self)
    have hrest := posted_postSlot_kept hfirst
    refine (ih ?_).trans hrest
    rw [hrest]
    exact h.imp_left fun hnot hmem => hnot (List.mem_cons_of_mem _ hmem)

theorem posted_postSlots_named {ks : List Nat} (hnamed : j ∈ ks) (hfree : tabGet (troupe s t).posted j = none)
    (hlife : (troupe s t).life ≠ .absent) : tabGet (troupe (postSlots t ks s) t).posted j =
      some (arrival t j s) := by
  induction ks generalizing s with
  | nil => cases hnamed
  | cons k ks ih =>
    by_cases heq : k = j
    · subst heq
      have hposted := posted_postSlot_free hfree hlife
      exact (posted_postSlots_kept (s := postSlot t k s)
        (.inr (hposted ▸ Option.some_ne_none _))).trans hposted
    · have hrest := posted_postSlot_kept (s := s) (t := t) (.inl heq)
      have hlater := (List.mem_cons.1 hnamed).resolve_left fun h => heq h.symm
      exact (ih (s := postSlot t k s) hlater (hrest.trans hfree) (by rwa [life_postSlot])).trans
        (congrArg some (arrival_postSlot j))

/-- A call doorbell that passes the checks of Table 13.2 posts the slots of its mask. -/
theorem callDoorbell_posts {a : Access} (haims : aimsAt a 0x2000 = some t)
    (hpass : denial (passCk a.dt s) a true = none) : exec (.callDoorbell a) s = .next (respond .done []
      (postSlots t ((List.range 32).filter fun k => (wordOf a).getLsbD k) (passCk a.dt s))) :=
  calc exec (.callDoorbell a) s = execCallDoorbell a s := rfl
    _ = _ := by simp only [execCallDoorbell, haims, judged, hpass]; rfl

end Slots

/-! ### The statements -/

/-- Settles O54: the arithmetic of tails, then one lemma for each way the rule ends. -/
theorem ringDoorbellsRefused : Obligations.RingDoorbellsRefused := by
  unfold Obligations.RingDoorbellsRefused
  refine ⟨fun t0 low h => ⟨fullTail_low t0 h, fullTail_near t0 low⟩, fullTail_self, ?_⟩
  intro a s t s1 ring haims hpass
  rw [ringDoorbell_judges haims hpass, ← passCk_rings a.dt s t]
  refine ⟨fun hnone => congrArg _ (ringWrite_no_ring hnone), fun r hring => ⟨?broken, ?same, ?overflow, ?full⟩⟩
  case broken => exact fun hbroken => congrArg _ (ringWrite_broken hring hbroken)
  case same => exact fun hhead htail hsame hheld => congrArg _ (ringWrite_same hring hhead htail hsame hheld)
  case overflow => exact fun hhead htail hover => congrArg _ (ringWrite_overflow hring hhead htail hover)
  case full => exact fun hhead htail hfits hfull => congrArg _ (ringWrite_full hring hhead htail hfits hfull)

/-- Settles O55: the slots of the mask are posted one after the other, which posts each free one once. -/
theorem doorbellsPost : Obligations.DoorbellsPost := by
  unfold Obligations.DoorbellsPost
  intro a s t fin s1 haims hpass hexec
  rw [callDoorbell_posts haims hpass] at hexec
  obtain rfl := Host.Outcome.next.inj hexec
  simp only [respond, troupe_modHouse, ← passCk_board a.dt s t, ← passCk_posted a.dt s t, ← passCk_life a.dt s t,
    ← passCk_tick a.dt s]
  refine ⟨board_postSlots _, fun k hk => ⟨fun hnamed hfree hlife => ?_, fun hkept => ?_⟩⟩
  · exact posted_postSlots_named (List.mem_filter.2 ⟨List.mem_range.2 hk, hnamed⟩) hfree hlife
  · refine posted_postSlots_kept (hkept.imp_left fun hnot hmem => ?_)
    rw [(List.mem_filter.1 hmem).2] at hnot
    cases hnot

end Sys2Proof.Machine
end

section
/-! Refused accesses, reads and complement scans (R345, R347, R356, R362): one lemma for each way a row ends, and the
statement O22 put together from them. -/

namespace Sys2Proof.Machine

open Sys2Proof

/-! ### What passing time and a scan leave -/

theorem recordByte_passCk (dt : Nat) (s : State) (a : Nat) : recordByte (passCk dt s) a = recordByte s a := by
  unfold passCk
  split
  case isTrue => rfl
  case isFalse =>
    simp only [recordByte]
    split
    case isTrue => rfl
    case isFalse => rw [List.findSome?_map]; rfl

@[simp] theorem hbmRead_passCk (dt : Nat) (s : State) (a n : Nat) : hbmRead (passCk dt s) a n = hbmRead s a n := by
  simp only [hbmRead, passCk_hbm, recordByte_passCk]

@[simp] theorem scanned_passCk (dt : Nat) (s : State) : scanned (passCk dt s) = scanned s := by
  simp only [scanned, passCk_check]

@[simp] theorem brokenWords_passCk (dt : Nat) (s : State) : brokenWords (passCk dt s) = brokenWords s := by
  simp only [brokenWords, scanned_passCk, hbmRead_passCk]

/-- The words of a scan, each read in the share of the pit that holds it (R362). -/
def spendScan (as : List Nat) (s : State) : State :=
  as.foldl (fun s a => spendShare (Config.pitAt a % max 1 s.house.pits) 8 s) s

@[simp] theorem check_spendScan (as : List Nat) (s : State) : (spendScan as s).check = s.check := by
  induction as generalizing s with
  | nil => rfl
  | cons a as ih => exact ih _

section Rows

variable {a : Access} {s : State}

/-! ### Reads (R345, R347, R356) -/

/-- A refused read sets no RING_STATUS: it is answered, counted, and recorded once for its tag and status in a tick. -/
theorem windowRead_refused {d : Denial} (hdenied : denial (passCk a.dt s) a false = some d)
    (hrecorded : d.recorded = true) : exec (.windowAccessRefused a) s = .next (respond d.reply []
      (accessRecord (accessRec a false d.status) (gauge (passCk a.dt s) a.tag 0x520 1))) :=
  calc exec (.windowAccessRefused a) s = execWindowAccessRefused a s := rfl
    _ = _ := by
      simp only [execWindowAccessRefused, hdenied, refuseAccess, hrecorded, if_true, Bool.false_and,
        Bool.false_eq_true, if_false]
      split <;> rfl

theorem windowRead_reads (hpass : denial (passCk a.dt s) a false = none) :
    exec (.windowAccessRefused a) s = .next (respond .done (readBytes (passCk a.dt s) a) (passCk a.dt s)) :=
  calc exec (.windowAccessRefused a) s = execWindowAccessRefused a s := rfl
    _ = _ := by simp only [execWindowAccessRefused, hpass]

theorem accessRecord_first {r : Rec} (hnew : s.log.accessSeen.contains (r.who.getD 0, r.status) = false) :
    accessRecord r s =
      record r { s with log := { s.log with accessSeen := (r.who.getD 0, r.status) :: s.log.accessSeen } } := by
  simp only [accessRecord, hnew, Bool.false_eq_true, if_false]

theorem accessRecord_again {r : Rec} (hseen : s.log.accessSeen.contains (r.who.getD 0, r.status) = true) :
    accessRecord r s = suppress s := by
  simp only [accessRecord, hseen, if_true]

/-! ### The end of a scan (R362) -/

section Scan

variable {dt : Nat} (hbusy : s.check.busy = true)
include hbusy

theorem checkScanEnd_clean (hclean : brokenWords s = []) :
    exec (.checkScanEnd dt) s = .next { spendScan (scanned s) (passCk dt s) with
      check := { s.check with busy := false, finished := true, broken := 0, first := 0 } } := by
  have hcheck : (spendScan (scanned s) (passCk dt s)).check = s.check := by rw [check_spendScan, passCk_check]
  calc exec (.checkScanEnd dt) s = execCheckScanEnd dt s := rfl
    _ = _ := by
      simp only [execCheckScanEnd, passCk_check, hbusy, Bool.not_true, Bool.false_eq_true, if_false,
        brokenWords_passCk, hclean, scanned_passCk, List.length_nil, List.headD_nil]
      rw [← hcheck]; rfl

theorem checkScanEnd_broken {first : Nat} {rest : List Nat} (hbroken : brokenWords s = first :: rest) :
    exec (.checkScanEnd dt) s = .next (record
      { sub := .ledger, status := .integrity, address := first, detail := rest.length + 1 }
      { spendScan (scanned s) (passCk dt s) with
        check := { s.check with
          busy := false, finished := true, broken := rest.length + 1, first := BitVec.ofNat 64 first } }) := by
  have hcheck : (spendScan (scanned s) (passCk dt s)).check = s.check := by rw [check_spendScan, passCk_check]
  calc exec (.checkScanEnd dt) s = execCheckScanEnd dt s := rfl
    _ = _ := by
      simp only [execCheckScanEnd, passCk_check, hbusy, Bool.not_true, Bool.false_eq_true, if_false,
        brokenWords_passCk, hbroken, scanned_passCk, List.length_cons, List.headD_cons]
      rw [← hcheck]; rfl

end Scan

end Rows

/-! ### The statement -/

/-- Settles O22: one lemma for each way a row ends. -/
theorem windowReadsAndScansComplete : Obligations.WindowReadsAndScansComplete := by
  unfold Obligations.WindowReadsAndScansComplete
  refine ⟨?first, ?again, fun a s hpass => windowRead_reads hpass,
    fun dt s hbusy hclean => checkScanEnd_clean hbusy hclean,
    fun dt s a bad hbusy hbroken => checkScanEnd_broken hbusy hbroken⟩
  case first =>
    intro a s d hdenied hrecorded hnew
    rw [windowRead_refused hdenied hrecorded, accessRecord_first (by simpa [accessRec] using hnew), gauge_log, passCk_log]
    rfl
  case again =>
    intro a s d hdenied hrecorded hseen
    rw [windowRead_refused hdenied hrecorded, accessRecord_again (by simpa [accessRec] using hseen)]

end Sys2Proof.Machine
end

section
/-! The checks of R321 and house order (R323): every row of the call board is served, by the class, the gate and the
operands that its opcode gives it, and no other waiting command comes before the one that is served. The statements O47
and O48. -/

namespace Sys2Proof.Machine

open Sys2Proof

/-! ### What a row of the call board is judged by (R321 checks 3 and 4) -/

/-- Whether the conditions of a row say who may act, and what the column Served asks, as its instruction says. -/
def Agrees (p : Post) (i : Instr) (c : Cmd) : Prop :=
  ∀ s t, (mayAct p.issuer t i = true →
      (p.issuer == 0 || (t == p.issuer && ! c.house)) = true ∧ c.gate s t = gateOf i s t) ∧
    (mayAct p.issuer t i = false →
      (p.issuer == 0 || (t == p.issuer && ! c.house)) = false ∨ c.gate s t = some .notOwner)

/-- A row that anyone may use on its own troupe, but for the commands of the house. -/
theorem Agrees.of_class {p : Post} {i : Instr} {c : Cmd} (hhouse : c.house = houseOnly i) (hgate : c.gate = gateOf i)
    (hown : ∀ issuer t, mayAct issuer t i = (issuer == 0 || (t == issuer && ! houseOnly i))) : Agrees p i c := by
  intro s t
  rw [hhouse, hgate, hown]
  exact ⟨fun h => ⟨h, rfl⟩, fun h => .inl h⟩

/-- GAUGE_CLEAR: only the house clears the groups of the whole chip, which its gate judges (R380). -/
theorem agrees_gaugeClear (p : Post) (groups : BitVec 32) {c : Cmd} (hhouse : c.house = false)
    (hgate : c.gate = clearGate p groups) : Agrees p (.gaugeClear p groups) c := by
  intro s t
  have hopen : houseOnly (.gaugeClear p groups) = false := by simp only [houseOnly, opcode]; rfl
  rw [hhouse, hgate]
  by_cases hown : p.issuer = 0 ∨ groups &&& 0x300 = 0
  case pos =>
    have hmay : mayAct p.issuer t (.gaugeClear p groups) = (p.issuer == 0 || (t == p.issuer && ! false)) := by
      rcases hown with h | h <;> simp only [mayAct, hopen, h, beq_self_eq_true, Bool.true_or, Bool.and_true]
    rw [clearGate_own hown, hmay]
    exact ⟨fun h => ⟨h, rfl⟩, fun h => .inl h⟩
  case neg =>
    obtain ⟨hother, hchip⟩ := not_or.1 hown
    have hmay : mayAct p.issuer t (.gaugeClear p groups) = false := by
      simp only [mayAct, beq_eq_false_iff_ne.2 hother, beq_eq_false_iff_ne.2 hchip, Bool.and_false, Bool.or_self]
    have hrefused : clearGate p groups s t = some .notOwner := by
      simp only [clearGate, bne_iff_ne.2 hother, bne_iff_ne.2 hchip, Bool.and_self, if_true]
    exact ⟨fun h => absurd (hmay.symm.trans h) (by decide), fun _ => .inr hrefused⟩

/-- Every row of the call board is served, under conditions that agree with its instruction. -/
theorem exec_serves {i : Instr} {p : Post} (hp : post i = some p) (s : State) :
    ∃ c : Cmd, exec i s = .next (serve p i c s) ∧ Agrees p i c := by
  cases i <;> cases hp
  case gaugeClear groups => exact ⟨_, rfl, agrees_gaugeClear p groups rfl rfl⟩
  all_goals
    refine ⟨_, rfl, ?_⟩
    exact .of_class (by simp only [houseOnly, opcode]; rfl) rfl fun _ _ => by simp only [mayAct, Bool.and_true]

/-! ### Service by the checks of R321 -/

section Serve

variable {p : Post} {i : Instr} {c : Cmd} {q : Posted} {s : State}

theorem serve_of_not_next (h : servable p (passCk p.dt s) = none) : serve p i c s = passCk p.dt s := by
  simp only [serve, h]

variable (hnext : servable p (passCk p.dt s) = some q)
include hnext

theorem serve_broken (hbroken : imageWhole q.image = false) : serve p i c s = refusedWith p .refusedPc (record
    { sub := .prompter, status := .refusedPc, who := some p.issuer, address := slotAddress p.issuer p.slot }
    (begun p s)) := by
  simp only [serve, hnext, hbroken, Bool.not_false, if_true, answer_refuse]

variable (hwhole : imageWhole q.image = true)
include hwhole

theorem serve_undefined (hundefined : opcodes.contains (imageOpcode q.image) = false) :
    serve p i c s = refusedWith p .unsupported (begun p s) := by
  simp only [serve, hnext, hwhole, hundefined, Bool.not_true, Bool.not_false, Bool.false_eq_true, if_false, if_true,
    answer_refuse]

theorem serve_judged (hdefined : opcodes.contains (opcode i) = true) (hspells : spells i q.image = true) :
    serve p i c s = answer p q.target q (judge p i c q.image (begun p s)) (begun p s) := by
  have hopcode : imageOpcode q.image = opcode i := by
    have := hspells
    simp only [spells, Bool.and_eq_true, beq_iff_eq] at this
    exact this.1
  simp only [serve, hnext, hwhole, hopcode, hdefined, hspells, Bool.not_true, Bool.false_eq_true, if_false,
    Posted.target]

end Serve

section Judge

variable {p : Post} {i : Instr} {c : Cmd} {image : List Byte} {s : State} (hc : Agrees p i c)
include hc

theorem judge_not_owner (hmay : mayAct p.issuer (imageTarget image) i = false) :
    judge p i c image s = .refuse .notOwner := by
  rcases (hc s (imageTarget image)).2 hmay with hright | hgate
  · simp only [judge, hright, Bool.not_false, if_true]
  · simp only [judge, hgate, ite_self]

variable (hmay : mayAct p.issuer (imageTarget image) i = true)
include hmay

theorem judge_not_served {st : Status} (hgate : gateOf i s (imageTarget image) = some st) :
    judge p i c image s = .refuse st := by
  obtain ⟨hright, hsame⟩ := (hc s (imageTarget image)).1 hmay
  simp only [judge, hright, hsame, hgate, Bool.not_true, Bool.false_eq_true, if_false]

/-- What check 5 asks of the image beside the ranges of the operands. -/
theorem judge_bad_image (hgate : gateOf i s (imageTarget image) = none)
    (hbad : (reservedClear i image && targetOk i (imageTarget image) &&
      (imageCue image).all fun k => cueExists (troupe s p.issuer) k) = false) :
    judge p i c image s = .refuse .badArg := by
  obtain ⟨hright, hsame⟩ := (hc s (imageTarget image)).1 hmay
  have hall : (reservedClear i image && c.args && targetOk i (imageTarget image) &&
      (imageCue image).all fun k => cueExists (troupe s p.issuer) k) = false := by
    revert hbad
    cases reservedClear i image <;> cases c.args <;> simp
  simp only [judge, hright, hsame, hgate, hall, Bool.not_true, Bool.not_false, Bool.false_eq_true, if_false, if_true]

end Judge

/-! ### House order (R323) -/

theorem mem_waiting {s : State} {t k : Nat} {q : Posted} (hposted : tabGet (troupe s t).posted k = some q)
    (hnew : q.served = false) : (q.arrived, t, k) ∈ waiting s := by
  have hexists := tabGet_isSome_of_ne_absent (fun tr => tabGet tr.posted k) (s := s) (t := t)
    (by rw [hposted]; exact Option.some_ne_none _)
  obtain ⟨tr, htr⟩ := Option.isSome_iff_exists.1 hexists
  have htroupe : troupe s t = tr := by rw [troupe, tabGetD, htr]; rfl
  rw [htroupe] at hposted
  exact List.mem_flatMap.2 ⟨(t, tr), mem_of_tabGet htr,
    List.mem_map.2 ⟨(k, q), List.mem_filter.2 ⟨mem_of_tabGet hposted, by rw [hnew]; rfl⟩, rfl⟩⟩

/-- House order is total: of two keys of which neither comes before the other, both are the same. -/
theorem eq_of_not_houseBefore {a b : Nat × Nat × Nat} (hab : houseBefore a b = false) (hba : houseBefore b a = false) :
    a = b := by
  simp only [houseBefore, Bool.or_eq_false_iff, Bool.and_eq_false_iff, beq_eq_false_iff_ne, decide_eq_false_iff_not]
    at hab hba
  ext <;> omega

theorem servable_eq_some_iff {p : Post} {s : State} {q : Posted} : servable p s = some q ↔
    tabGet (troupe s p.issuer).posted p.slot = some q ∧ s.house.fwUp = true ∧ s.house.stalled = false ∧
      q.served = false ∧ s.house.servedInTick < 40 * s.house.period ∧
      ∀ k ∈ waiting s, houseBefore k (q.arrived, p.issuer, p.slot) = false := by
  unfold servable
  split
  case h_1 hnone => simp [hnone]
  case h_2 q' hposted =>
    have hwaits : ((waiting s).all fun k => ! houseBefore k (q'.arrived, p.issuer, p.slot)) = true ↔
        ∀ k ∈ waiting s, houseBefore k (q'.arrived, p.issuer, p.slot) = false := by simp
    simp only [Option.ite_none_right_eq_some, Bool.and_eq_true, Bool.not_eq_true', decide_eq_true_eq, hwaits, hposted,
      Option.some.injEq]
    constructor
    · rintro ⟨⟨⟨⟨⟨hup, hruns⟩, hnew⟩, hroom⟩, hfirst⟩, rfl⟩
      exact ⟨rfl, hup, hruns, hnew, hroom, hfirst⟩
    · rintro ⟨rfl, hup, hruns, hnew, hroom, hfirst⟩
      exact ⟨⟨⟨⟨⟨hup, hruns⟩, hnew⟩, hroom⟩, hfirst⟩, rfl⟩

theorem servable_unique {p p' : Post} {s : State} {q q' : Posted} (h : servable p s = some q)
    (h' : servable p' s = some q') : p.issuer = p'.issuer ∧ p.slot = p'.slot := by
  obtain ⟨hposted, -, -, hnew, -, hfirst⟩ := servable_eq_some_iff.1 h
  obtain ⟨hposted', -, -, hnew', -, hfirst'⟩ := servable_eq_some_iff.1 h'
  have hkey := eq_of_not_houseBefore (hfirst' _ (mem_waiting hposted hnew)) (hfirst _ (mem_waiting hposted' hnew'))
  exact Prod.ext_iff.1 (Prod.ext_iff.1 hkey).2

/-! ### The statements -/

/-- Settles O47: every row is served under conditions that agree with its instruction, and the checks of R321 are judged
in their order. -/
theorem refusalsInOrder : Obligations.RefusalsInOrder := by
  unfold Obligations.RefusalsInOrder
  intro i p q s hp hnext
  obtain ⟨c, hexec, hc⟩ := exec_serves hp s
  have hdefined := opcodes_contains hp
  rw [hexec]
  refine ⟨fun hbroken => congrArg _ (serve_broken hnext hbroken),
    fun hwhole hundefined => congrArg _ (serve_undefined hnext hwhole hundefined),
    fun hwhole hspells => ?judged⟩
  case judged =>
    rw [serve_judged hnext hwhole hdefined hspells]
    refine ⟨fun hmay => by rw [judge_not_owner hc hmay, answer_refuse], fun hmay =>
      ⟨fun st hgate => by rw [judge_not_served hc hmay hgate, answer_refuse], fun hgate => ⟨?reserved, ?target, ?cue⟩⟩⟩
    case reserved =>
      intro hbad
      rw [judge_bad_image hc hmay hgate (by simp [hbad]), answer_refuse]
    case target =>
      intro hbad
      have himage : targetOk i (imageTarget q.image) = false := hbad
      rw [judge_bad_image hc hmay hgate (by simp [himage]), answer_refuse]
    case cue =>
      intro k hcue hnone
      rw [judge_bad_image hc hmay hgate (by simp [hcue, hnone]), answer_refuse]

/-- Settles O48: two commands that are next have the same key, and one that is not next only passes the time. -/
theorem houseOrder : Obligations.HouseOrder := by
  unfold Obligations.HouseOrder
  refine ⟨fun p p' s q q' h h' => servable_unique h h', ?waits, ?next, fun p s => ?counted⟩
  case waits =>
    intro i p s q hp hposted hwhy
    obtain ⟨c, hexec, -⟩ := exec_serves hp s
    rw [hexec, serve_of_not_next]
    refine Option.eq_none_iff_forall_ne_some.2 fun q' hnext => ?_
    obtain ⟨hposted', hup, hruns, -, hroom, hfirst⟩ := servable_eq_some_iff.1 hnext
    obtain rfl := Option.some.inj (hposted.symm.trans hposted')
    rw [passCk_house_fwUp] at hup
    rw [passCk_house_stalled] at hruns
    rw [passCk_house_servedInTick, passCk_house_period] at hroom
    rcases hwhy with hdown | hstalled | hserved | ⟨k, hk, hbefore⟩
    · exact absurd (hup.symm.trans hdown) (by decide)
    · exact absurd (hruns.symm.trans hstalled) (by decide)
    · omega
    · exact absurd ((hfirst k hk).symm.trans hbefore) (by decide)
  case next =>
    exact fun p s q hposted hnew hup hruns hroom hfirst =>
      servable_eq_some_iff.2 ⟨hposted, hup, hruns, hnew, hroom, hfirst⟩
  case counted => rw [begun_house]

end Sys2Proof.Machine
end

section
/-! What a completion and a deferred command leave on the call board (R322, Table 12.3): the statement O49. -/

namespace Sys2Proof.Machine

open Sys2Proof

/-! ### Runs of bytes that lie apart below 2^64 -/

theorem memRead_memWrite_apart {m : List Host.Cell} (h : Memory.wf m = true) {a c n : Nat} {bs : List Byte}
    (ha : a + bs.length ≤ 2 ^ 64) (hc : c + n ≤ 2 ^ 64) (hapart : a + bs.length ≤ c ∨ c + n ≤ a) :
    memRead (memWrite m a bs) c n = memRead m c n := by
  refine memRead_memWrite_other h a c n bs fun i k hi hk => ?_
  rw [Nat.mod_eq_of_lt (by omega), Nat.mod_eq_of_lt (by omega)]
  omega

theorem memByte_memWrite_apart (m : List Host.Cell) {a c : Nat} {bs : List Byte} (ha : a + bs.length ≤ 2 ^ 64)
    (hapart : c < a ∨ a + bs.length ≤ c) : memByte (memWrite m a bs) c = memByte m c := by
  refine memByte_memWrite_off bs m a c fun i hi => ?_
  rw [Nat.mod_eq_of_lt (by omega)]
  omega

/-- A number reads back as it was written. -/
theorem leNat_memRead_memWrite {m : List Host.Cell} (h : Memory.wf m = true) (a : Nat) {x : Nat} (hx : x < 2 ^ 64) :
    leNat (memRead (memWrite m a (leBytes 8 x)) a 8) = x := by
  have hread := memRead_memWrite h a (leBytes 8 x) (by rw [length_leBytes]; omega)
  rw [length_leBytes] at hread
  rw [hread, leNat_leBytes]
  exact Nat.mod_eq_of_lt hx

/-- The number of a completion word (Table 12.3). -/
def completionValue (st : Status) (complete deferred : Bool) (tag : Nat) : Nat :=
  (pcWord (statusCode st + bitOf complete * 2 ^ 8 + bitOf deferred * 2 ^ 9 + tag * 2 ^ 10)).toNat

theorem completionValue_complete (st : Status) (tag : Nat) :
    completionValue st true false tag = (pcWord (statusCode st + 2 ^ 8 + tag * 2 ^ 10)).toNat := by
  simp [completionValue, bitOf]

theorem completionValue_deferred (tag : Nat) :
    completionValue .done false true tag = (pcWord (2 ^ 9 + tag * 2 ^ 10)).toNat := by
  simp [completionValue, bitOf, statusCode]

theorem leNat_completion {m : List Host.Cell} (h : Memory.wf m = true) (a : Nat) (st : Status)
    (complete deferred : Bool) (tag : Nat) :
    leNat (memRead (memWrite m a (completionBytes st complete deferred tag)) a 8) =
      completionValue st complete deferred tag :=
  leNat_memRead_memWrite h a (BitVec.isLt _)

@[simp] theorem length_completionBytes (st : Status) (complete deferred : Bool) (tag : Nat) :
    (completionBytes st complete deferred tag).length = 8 := length_leBytes _ _

/-! ### The troupe after a change of its board -/

@[simp] theorem run_nil (s : State) : run [] s = s := by
  simp only [run, List.length_nil, Nat.add_zero, actFuel]; rfl

theorem tabGet_isSome_modTroupe (s : State) (t : Nat) (f : Troupe → Troupe) :
    (tabGet (modTroupe s t f).troupes t).isSome = (tabGet s.troupes t).isSome := by
  simp only [modTroupe, tabGet_tabMod_same, Option.isSome_map]

section Board

variable {s : State} {t slot : Nat} {q : Posted} (hposted : tabGet (troupe s t).posted slot = some q)
include hposted

theorem tabGet_isSome_of_posted : (tabGet s.troupes t).isSome = true :=
  tabGet_isSome_of_ne_absent (fun tr => tabGet tr.posted slot) (by rw [hposted]; exact Option.some_ne_none _)

/-- A completion writes its results and then the completion word, and frees the slot. -/
theorem troupe_completeSlot (st : Status) (off : Nat) (bs : List Byte) :
    troupe (completeSlot t slot st [(off, bs)] s).1 t = { troupe s t with
      board := memWrite (memWrite (troupe s t).board (256 * slot + (192 + off)) bs) (256 * slot + 8)
        (completionBytes st true false (imageTag q.image))
      posted := tabDel (troupe s t).posted slot } := by
  have hexists := tabGet_isSome_of_posted hposted
  have hstate (l : List Deferred) (s : State) : troupe { s with deferred := l } t = troupe s t := rfl
  simp only [completeSlot, hposted, List.foldl_cons, List.foldl_nil, boardWrite, hstate]
  rw [troupe_modTroupe_same (by simpa only [tabGet_isSome_modTroupe]),
    troupe_modTroupe_same (by simpa only [tabGet_isSome_modTroupe]), troupe_modTroupe_same hexists]

/-- A deferred command holds its slot, with the tick at which it was served. -/
theorem troupe_heldBack {p : Post} (hissuer : p.issuer = t) (hslot : p.slot = slot) (target : Nat) (aw : Awaits) :
    troupe (heldBack p target q aw [] s) t = { troupe s t with
      board := memWrite (memWrite (troupe s t).board (256 * slot + 24) (leBytes 8 s.house.tick)) (256 * slot + 8)
        (completionBytes .done false true (imageTag q.image))
      posted := tabMod (troupe s t).posted slot fun q => { q with served := true } } := by
  have hexists := tabGet_isSome_of_posted hposted
  have hstate (l : List Deferred) (s : State) : troupe { s with deferred := l } t = troupe s t := rfl
  simp only [heldBack, run_nil, boardWrite, markServed, hissuer, hslot, hstate]
  rw [troupe_modTroupe_same (by simpa only [tabGet_isSome_modTroupe]), troupe_modTroupe_same hexists]

theorem completeSlot_signals (st : Status) (results : List (Nat × List Byte)) :
    (completeSlot t slot st results s).2 = (imageCue q.image).toList.map fun c => Act.signal t c := by
  simp only [completeSlot, hposted]

/-- The slot's command is no longer among those held back. -/
theorem completeSlot_deferred (st : Status) (results : List (Nat × List Byte)) :
    ∀ d ∈ (completeSlot t slot st results s).1.deferred, ¬ (d.issuer = t ∧ d.slot = slot) := by
  intro d hd
  simp only [completeSlot, hposted, List.mem_filter] at hd
  obtain ⟨-, hkept⟩ := hd
  rintro ⟨rfl, rfl⟩
  simp at hkept

variable (hwf : Memory.wf (troupe s t).board = true)
include hwf

theorem board_completeSlot_word (st : Status) (off : Nat) (bs : List Byte) :
    leNat (memRead (troupe (completeSlot t slot st [(off, bs)] s).1 t).board (256 * slot + 8) 8) =
      (pcWord (statusCode st + 2 ^ 8 + imageTag q.image * 2 ^ 10)).toNat := by
  rw [troupe_completeSlot hposted, ← completionValue_complete]
  exact leNat_completion (memWrite_wf _ _ hwf) _ st true false _

theorem board_completeSlot_results (hslot : slot < 32) (st : Status) {off : Nat} {bs : List Byte}
    (hfits : off + bs.length ≤ 64) :
    memRead (troupe (completeSlot t slot st [(off, bs)] s).1 t).board (256 * slot + 192 + off) bs.length = bs := by
  have hlen := length_completionBytes st true false (imageTag q.image)
  rw [troupe_completeSlot hposted, Nat.add_assoc (256 * slot)]
  exact (memRead_memWrite_apart (memWrite_wf _ _ hwf) (by omega) (by omega) (by omega)).trans
    (memRead_memWrite hwf _ bs (by omega))

omit hwf in
theorem board_completeSlot_rest (hslot : slot < 32) (st : Status) {off : Nat} {bs : List Byte}
    (hfits : off + bs.length ≤ 64) {a : Nat} (hword : a < 256 * slot + 8 ∨ 256 * slot + 16 ≤ a)
    (houtside : a < 256 * slot + 192 + off ∨ 256 * slot + 192 + off + bs.length ≤ a) :
    memByte (troupe (completeSlot t slot st [(off, bs)] s).1 t).board a = memByte (troupe s t).board a := by
  have hlen := length_completionBytes st true false (imageTag q.image)
  rw [troupe_completeSlot hposted]
  exact (memByte_memWrite_apart _ (by omega) (by omega)).trans (memByte_memWrite_apart _ (by omega) (by omega))

section HeldBack

variable {p : Post} (hissuer : p.issuer = t) (hslot : p.slot = slot) (target : Nat) (aw : Awaits)
include hissuer hslot

theorem board_heldBack_word : leNat (memRead (troupe (heldBack p target q aw [] s) t).board (256 * slot + 8) 8) =
    (pcWord (2 ^ 9 + imageTag q.image * 2 ^ 10)).toNat := by
  rw [troupe_heldBack hposted hissuer hslot, ← completionValue_deferred]
  exact leNat_completion (memWrite_wf _ _ hwf) _ .done false true _

theorem board_heldBack_tick (hlow : slot < 32) (htick : s.house.tick < 2 ^ 64) :
    leNat (memRead (troupe (heldBack p target q aw [] s) t).board (256 * slot + 24) 8) = s.house.tick := by
  have hlen := length_completionBytes .done false true (imageTag q.image)
  have hticks := length_leBytes 8 s.house.tick
  rw [troupe_heldBack hposted hissuer hslot]
  exact (congrArg leNat (memRead_memWrite_apart (memWrite_wf _ _ hwf) (by omega) (by omega) (by omega))).trans
    (leNat_memRead_memWrite hwf _ htick)

end HeldBack

end Board

theorem heldBack_deferred (p : Post) (target : Nat) (q : Posted) (aw : Awaits) (s : State) :
    (heldBack p target q aw [] s).deferred = s.deferred ++ [⟨p.issuer, p.slot, target, aw⟩] := by
  simp only [heldBack, run_nil, boardWrite_deferred]; rfl

/-! ### The statement -/

/-- Settles O49: the results and the completion word lie apart in the slot, so that each reads back as it was written. -/
theorem completionsWritten : Obligations.CompletionsWritten := by
  unfold Obligations.CompletionsWritten
  refine ⟨?complete, ?deferred⟩
  case complete =>
    intro issuer slot st off bs s q hslot hposted hfits hwf
    refine ⟨completeSlot_signals hposted st _, ?_, completeSlot_deferred hposted st _,
      board_completeSlot_word hposted hwf st off bs, board_completeSlot_results hposted hwf hslot st hfits,
      fun a _ hword houtside => board_completeSlot_rest hposted hslot st hfits hword houtside⟩
    rw [troupe_completeSlot hposted]
    exact tabGet_tabDel_same ..
  case deferred =>
    intro p target q aw s hslot hposted htick hwf
    refine ⟨board_heldBack_word hposted hwf rfl rfl target aw,
      board_heldBack_tick hposted hwf rfl rfl target aw hslot htick, ?_, heldBack_deferred ..⟩
    rw [troupe_heldBack hposted rfl rfl]
    exact (tabGet_tabMod_same ..).trans (by rw [hposted]; rfl)

end Sys2Proof.Machine
end

section
/-! What a fence does (R262, R263, R312, R332): the step under the curtain, its ledger record, the troupe that is fenced.
The statement O52. -/

namespace Sys2Proof.Machine

open Sys2Proof

/-! ### Writes to the step ledgers (R312) -/

theorem poke_frame (host : Bool) (s : State) (k : Nat) (bs : List Byte) :
    ∃ m n, poke host s k bs = { s with host := m, hbm := n } := by
  cases host
  · exact ⟨s.host, memWrite s.hbm k bs, rfl⟩
  · exact ⟨memWrite s.host k bs, s.hbm, rfl⟩

/-- A write to a step ledger changes memory and nothing else. -/
theorem ledgerStore_frame (t num : Nat) (s : State) :
    ∃ m n, ledgerStore t num s = { s with host := m, hbm := n } := by
  unfold ledgerStore
  dsimp only
  split
  case h_2 => exact ⟨s.host, s.hbm, rfl⟩
  case h_1 p r _ _ =>
    split
    case h_1 => exact ⟨s.host, s.hbm, rfl⟩
    case h_2 i _ =>
      split
      case isTrue => exact ⟨s.host, s.hbm, rfl⟩
      case isFalse =>
        obtain ⟨m, n, hrecord⟩ := poke_frame p.host s (p.base.toNat + 128 * (i % max 1 p.records)) (ledgerBytes t r)
        rw [hrecord]
        split
        · exact ⟨m, n, rfl⟩
        · exact poke_frame ..

@[simp] theorem ledgerStore_troupes (t num : Nat) (s : State) : (ledgerStore t num s).troupes = s.troupes := by
  obtain ⟨m, n, h⟩ := ledgerStore_frame t num s; rw [h]

@[simp] theorem ledgerStore_log (t num : Nat) (s : State) : (ledgerStore t num s).log = s.log := by
  obtain ⟨m, n, h⟩ := ledgerStore_frame t num s; rw [h]

@[simp] theorem ledgerStore_deferred (t num : Nat) (s : State) : (ledgerStore t num s).deferred = s.deferred := by
  obtain ⟨m, n, h⟩ := ledgerStore_frame t num s; rw [h]

@[simp] theorem troupe_ledgerStore (t num u : Nat) (s : State) : troupe (ledgerStore t num s) u = troupe s u := by
  rw [troupe, ledgerStore_troupes, troupe]

theorem hbm_poke {host : Bool} {s : State} {k : Nat} {bs : List Byte} {a : Nat}
    (h : host = false → ∀ i < bs.length, a ≠ (k + i) % 2 ^ 64) :
    memByte (poke host s k bs).hbm a = memByte s.hbm a := by
  cases host
  · exact memByte_memWrite_off bs s.hbm k a (h rfl)
  · rfl

theorem hbm_ledgerStore {t num : Nat} {s : State} {a : Nat} (ha : ¬ inLedger false s a) :
    memByte (ledgerStore t num s).hbm a = memByte s.hbm a := by
  unfold ledgerStore
  dsimp only
  split
  case h_2 => rfl
  case h_1 p r hledger _ =>
    split
    case h_1 => rfl
    case h_2 i _ =>
      have hrecord : p.host = false → ∀ j < (ledgerBytes t r).length,
          a ≠ (p.base.toNat + 128 * (i % max 1 p.records) + j) % 2 ^ 64 := by
        intro hhbm j hj heq
        rw [ledgerBytes_length] at hj
        have hin : i % max 1 p.records < max 1 p.records := Nat.mod_lt _ (by omega)
        exact ha ⟨t, p, hledger, hhbm, .inl ⟨128 * (i % max 1 p.records) + j, by omega, by rw [heq, Nat.add_assoc]⟩⟩
      split
      case isTrue => rfl
      case isFalse =>
        split
        case isTrue => exact hbm_poke hrecord
        case isFalse =>
          refine (hbm_poke fun hhbm j hj heq => ?_).trans (hbm_poke hrecord)
          rw [List.length_take] at hj
          exact ha ⟨t, p, hledger, hhbm, .inr ⟨r.extAt + j, by omega, by rw [heq, Nat.add_assoc]⟩⟩

/-! ### The curtain (R262, R263) -/

section Curtain

variable {row : Option Nat} {t u : Nat} {s : State}

theorem curtain_of_none (h : openCalled (troupe s t) = none) : curtain row t s = s := by
  simp only [curtain, h]

@[simp] theorem countCause_hbm (fresh : Bool) : (countCause row fresh t s).hbm = s.hbm := by
  unfold countCause; split <;> rfl

@[simp] theorem countCause_log (fresh : Bool) : (countCause row fresh t s).log = s.log := by
  unfold countCause; split <;> rfl

@[simp] theorem countCause_deferred (fresh : Bool) : (countCause row fresh t s).deferred = s.deferred := by
  unfold countCause; split <;> rfl

theorem troupe_countCause_other (h : u ≠ t) (fresh : Bool) : troupe (countCause row fresh t s) u = troupe s u := by
  unfold countCause; split
  · exact troupe_modTroupe_other s h.symm _
  · rfl

/-- What gauges are no part of, a cause that is counted leaves. -/
theorem troupe_countCause {γ : Type} (g : Troupe → γ) (hg : ∀ tr x, g { tr with gauges := x } = g tr) (fresh : Bool) :
    g (troupe (countCause row fresh t s) u) = g (troupe s u) := by
  unfold countCause; split
  · exact troupe_modTroupe_of s t u _ g fun _ => hg _ _
  · rfl

/-- The curtain over a step: its cause counted, the step called, and its ledger record written if it was OPEN. -/
theorem curtain_of_some {r : StepRec} (h : openCalled (troupe s t) = some r) :
    let fresh := freshCause row r
    let counted := countCause row fresh t s
    let fallen := modTroupe counted t (·.fall row fresh (r.state.val == .opened) counted)
    curtain row t s = if r.state.val == .opened then ledgerStore t r.num fallen else fallen := by
  simp only [curtain, h]

/-- What holds of every state through whose troupes and memory a curtain passes. -/
theorem curtain_cases {C : State → Prop} (hs : C s)
    (hfall : ∀ r, openCalled (troupe s t) = some r → ∀ fresh opened,
      C (modTroupe (countCause row fresh t s) t (·.fall row fresh opened (countCause row fresh t s))))
    (hledger : ∀ s1 num, C s1 → C (ledgerStore t num s1)) : C (curtain row t s) := by
  cases h : openCalled (troupe s t) with
  | none => rwa [curtain_of_none h]
  | some r =>
    rw [curtain_of_some h]
    split
    · exact hledger _ _ (hfall r h _ _)
    · exact hfall r h _ _

theorem curtain_log : (curtain row t s).log = s.log := by
  refine curtain_cases (C := fun x => x.log = s.log) rfl (fun _ _ _ _ => countCause_log _) fun s1 num h => ?_
  rw [ledgerStore_log, h]

theorem curtain_deferred : (curtain row t s).deferred = s.deferred := by
  refine curtain_cases (C := fun x => x.deferred = s.deferred) rfl (fun _ _ _ _ => countCause_deferred _)
    fun s1 num h => ?_
  rw [ledgerStore_deferred, h]

theorem troupe_curtain_other (h : u ≠ t) : troupe (curtain row t s) u = troupe s u := by
  refine curtain_cases (C := fun x => troupe x u = troupe s u) rfl (fun _ _ _ _ => ?_) fun s1 num h1 => ?_
  · rw [troupe_modTroupe_other _ h.symm, troupe_countCause_other h]
  · rw [troupe_ledgerStore, h1]

/-- What neither a step, its buckets' work nor a gauge is part of, a curtain leaves. -/
theorem troupe_curtain {γ : Type} (g : Troupe → γ)
    (hg : ∀ tr x y z, g { tr with steps := x, work := y, gauges := z } = g tr) :
    g (troupe (curtain row t s) u) = g (troupe s u) := by
  refine curtain_cases (C := fun x => g (troupe x u) = g (troupe s u)) rfl (fun _ _ _ _ => ?_) fun s1 num h1 => ?_
  · exact (troupe_modTroupe_of _ t u _ g fun tr => hg tr _ _ tr.gauges).trans
      (troupe_countCause g (fun tr x => hg tr tr.steps tr.work x) _)
  · rw [troupe_ledgerStore, h1]

theorem hbm_curtain {a : Nat} (ha : ¬ inLedger false s a) : memByte (curtain row t s).hbm a = memByte s.hbm a := by
  refine (curtain_cases (C := fun x => Calm s x ∧ memByte x.hbm a = memByte s.hbm a) ⟨.refl s, rfl⟩
    (fun _ _ fresh _ => ⟨((Calm.refl s).countCause row fresh t).modTroupe t _ fun _ => rfl, ?_⟩)
    fun s1 num h1 => ⟨h1.1.ledgerStore t num, ?_⟩).2
  · rw [modTroupe_hbm, countCause_hbm]
  · obtain ⟨hcalm, hsame⟩ := h1
    rw [hbm_ledgerStore fun hin => ha (inLedger_of_own hcalm.own hin), hsame]

/-- An OPEN or CALLED step stands under the curtain once it has fallen, and is then CALLED. -/
theorem openCalled_fall {tr : Troupe} {r : StepRec} (h : openCalled tr = some r) (fresh opened : Bool) (s : State) :
    openCalled (tr.fall row fresh opened s) = some (r.fall row fresh s) := by
  obtain ⟨hlast, hstate⟩ := Option.filter_eq_some_iff.1 h
  have hfallen : lastStep (tr.fall row fresh opened s) = some (r.fall row fresh s) := by
    have hstep : tabGet tr.steps tr.opened = some r := hlast
    simp only [lastStep, stepOf, Troupe.fall, modLast, modStep, tabGet_tabMod_same, hstep, Option.map_some]
  refine Option.filter_eq_some_iff.2 ⟨hfallen, ?_⟩
  simp only [StepRec.fall]
  split
  · rfl
  · exact hstate

theorem openCalled_curtain {r : StepRec} (h : openCalled (troupe s t) = some r) :
    (openCalled (troupe (curtain row t s) t)).any (·.curtain) = true := by
  have hcounted : openCalled (troupe (countCause row (freshCause row r) t s) t) = some r :=
    (troupe_countCause openCalled (fun _ _ => rfl) _).trans h
  have hexists := tabGet_isSome_of_openCalled (by rw [hcounted]; rfl)
  rw [curtain_of_some h]
  split
  case isTrue => rw [troupe_ledgerStore, troupe_modTroupe_same hexists, openCalled_fall hcounted]; rfl
  case isFalse => rw [troupe_modTroupe_same hexists, openCalled_fall hcounted]; rfl

end Curtain

/-! ### The fence (R332) -/

section Fence

variable {t : Nat} {s : State} {st : Status} {ix : BitVec 32} {row : Option Nat}

/-- A troupe as a fence makes it of the one whose curtain has fallen. -/
def fencedTroupe (st : Status) (ix : BitVec 32) (tr : Troupe) : Troupe :=
  { tr with life := .fenced, prior := tr.life, fence := some st, fenceIndex := ix, sealing := false, promotion := none
            cues := tr.cues.map fun e => (e.1, { e.2 with waits := [] }) }

theorem fenceTroupe_fences
    (h : (troupe s t).life = .active ∨ (troupe s t).life = .pending ∨ (troupe s t).life = .intermission) :
    fenceTroupe t st ix row s = (modTroupe (curtain row t s) t (fencedTroupe st ix),
      (s.deferred.filter fun d => d.target == t && d.awaits.fenceEnds).map
        fun d => .complete d.issuer d.slot .fenced []) := by
  rw [← curtain_deferred (row := row) (t := t) (s := s)]
  rcases h with h | h | h <;> simp only [fenceTroupe, h] <;> rfl

theorem fenceTroupe_leaves
    (h : (troupe s t).life = .fenced ∨ (troupe s t).life = .resetting ∨ (troupe s t).life = .absent) :
    fenceTroupe t st ix row s = (s, []) := by
  rcases h with h | h | h <;> simp only [fenceTroupe, h]

/-- A fence either fences its troupe or leaves the block as it is. -/
theorem fenceTroupe_cases {C : State → Prop} (hs : C s) (hfence : C (modTroupe (curtain row t s) t (fencedTroupe st ix))) :
    C (fenceTroupe t st ix row s).1 := by
  cases h : (troupe s t).life with
  | active => rw [fenceTroupe_fences (.inl h)]; exact hfence
  | pending => rw [fenceTroupe_fences (.inr (.inl h))]; exact hfence
  | intermission => rw [fenceTroupe_fences (.inr (.inr h))]; exact hfence
  | fenced => rw [fenceTroupe_leaves (.inl h)]; exact hs
  | resetting => rw [fenceTroupe_leaves (.inr (.inl h))]; exact hs
  | absent => rw [fenceTroupe_leaves (.inr (.inr h))]; exact hs

theorem hbm_fenceTroupe {a : Nat} (ha : ¬ inLedger false s a) :
    memByte (fenceTroupe t st ix row s).1.hbm a = memByte s.hbm a :=
  fenceTroupe_cases (C := fun x => memByte x.hbm a = memByte s.hbm a) rfl (hbm_curtain ha)

/-- A troupe that may be fenced, fenced. -/
theorem troupe_fenceTroupe
    (h : (troupe s t).life = .active ∨ (troupe s t).life = .pending ∨ (troupe s t).life = .intermission) :
    troupe (fenceTroupe t st ix row s).1 t = fencedTroupe st ix (troupe (curtain row t s) t) := by
  have hlife : (troupe (curtain row t s) t).life ≠ .absent := by
    rw [troupe_curtain Troupe.life fun _ _ _ _ => rfl]
    rcases h with h | h | h <;> rw [h] <;> decide
  rw [fenceTroupe_fences h]
  exact troupe_modTroupe_same (tabGet_isSome_of_ne_absent Troupe.life hlife) _

theorem waits_fencedTroupe {tr : Troupe} {c : Nat} {cue : Cue}
    (h : tabGet (fencedTroupe st ix tr).cues c = some cue) : cue.waits = [] := by
  have hmap := tabGet_map tr.cues c fun _ k => ({ k with waits := [] } : Cue)
  obtain ⟨old, -, rfl⟩ := Option.map_eq_some_iff.1 (hmap.symm.trans h)
  rfl

end Fence

/-! ### The statement -/

/-- Settles O52: a fence is the curtain of the step and then the troupe fenced; the curtain leaves bookings and rings, other
troupes, and HBM but for the step ledgers. -/
theorem fenceActs : Obligations.FenceActs := by
  unfold Obligations.FenceActs
  intro t st ix row s
  refine ⟨fun hmay => ?fences, fenceTroupe_leaves, fun u hu => ?others, fun a ha => hbm_fenceTroupe ha, ?log, ?house⟩
  case fences =>
    rw [troupe_fenceTroupe hmay]
    refine ⟨rfl, ?prior, rfl, rfl, ?bookings, ?rings, fun o ho => openCalled_curtain ho, fun hnone => ?steps,
      fun c cue hcue => waits_fencedTroupe hcue, by rw [fenceTroupe_fences hmay]⟩
    case prior => exact troupe_curtain Troupe.life fun _ _ _ _ => rfl
    case bookings => exact troupe_curtain Troupe.bookings fun _ _ _ _ => rfl
    case rings => exact troupe_curtain Troupe.rings fun _ _ _ _ => rfl
    case steps => rw [curtain_of_none hnone]; rfl
  case others =>
    exact fenceTroupe_cases (C := fun x => troupe x u = troupe s u) rfl
      ((troupe_modTroupe_other _ hu.symm _).trans (troupe_curtain_other hu))
  case log => exact fenceTroupe_cases (C := fun x => x.log = s.log) rfl curtain_log
  case house => exact ((Calm.refl s).fenceTroupe t st ix row).house

end Sys2Proof.Machine
end

section
/-! What a service changes in HBM (R205, R312, R322, R330): the bytes that its own actions store, those that a pending
CUE_WAIT asked for, and those of the step ledgers. Every action keeps within them and brings only actions that do. The
statement O58. -/

namespace Sys2Proof.Machine

open Sys2Proof

/-! ### Waits and stores within a set of bytes -/

/-- A wait asks for no byte outside P to be written. -/
def NotifiesIn (P : Nat → Prop) (w : Wait) : Prop := w.notify ≠ 0 → ∀ k < 8, P ((w.notify.toNat + k) % 2 ^ 64)

/-- The waits of a troupe's cues ask for no byte outside P. -/
def Troupe.WaitsIn (P : Nat → Prop) (tr : Troupe) : Prop := ∀ c ∈ tr.cues, ∀ w ∈ c.2.waits, NotifiesIn P w

/-- The waits of all cues ask for no byte outside P. -/
def WaitsIn (P : Nat → Prop) (s : State) : Prop := ∀ e ∈ s.troupes, e.2.WaitsIn P

/-- A list of actions stores no byte outside P itself. -/
def StoresIn (P : Nat → Prop) (as : List Act) : Prop :=
  ∀ b bs, Act.store b bs ∈ as → ∀ k < bs.length, P ((b + k) % 2 ^ 64)

section Within

variable {P : Nat → Prop} {s : State}

theorem waitsIn_of_notified (h : ∀ a, notified s a → P a) : WaitsIn P s :=
  fun e he c hc w hw hnotify k hk => h _ ⟨e, he, c, hc, w, hw, hnotify, k, hk, rfl⟩

theorem storesIn_of_storedBy {as : List Act} (h : ∀ a, storedBy as a → P a) : StoresIn P as :=
  fun b bs hmem k hk => h _ ⟨b, bs, hmem, k, hk, rfl⟩

theorem StoresIn.append {as bs : List Act} (h : StoresIn P as) (k : StoresIn P bs) : StoresIn P (as ++ bs) :=
  fun b x hmem => (List.mem_append.1 hmem).elim (h b x) (k b x)

theorem StoresIn.tail {x : Act} {as : List Act} (h : StoresIn P (x :: as)) : StoresIn P as :=
  fun b bs hmem => h b bs (List.mem_cons_of_mem _ hmem)

/-- Actions none of which stores. -/
theorem StoresIn.of_none {as : List Act} (h : ∀ b bs, Act.store b bs ∉ as) : StoresIn P as :=
  fun b bs hmem => absurd hmem (h b bs)

theorem WaitsIn.modTroupe (h : WaitsIn P s) (t : Nat) {f : Troupe → Troupe}
    (hf : ∀ tr, tr.WaitsIn P → (f tr).WaitsIn P) : WaitsIn P (modTroupe s t f) := by
  intro e he
  obtain ⟨o, ho, -, hchanged | hsame⟩ := mem_tabMod he
  · rw [hchanged]; exact hf _ (h o ho)
  · rw [hsame]; exact h o ho

/-- A change of a troupe that leaves its cues leaves the waits. -/
theorem WaitsIn.modTroupe_cues (h : WaitsIn P s) (t : Nat) {f : Troupe → Troupe} (hf : ∀ tr, (f tr).cues = tr.cues) :
    WaitsIn P (Machine.modTroupe s t f) :=
  h.modTroupe t fun tr htr c hc => htr c (hf tr ▸ hc)

theorem WaitsIn.of_troupes {s' : State} (h : WaitsIn P s) (hsame : s'.troupes = s.troupes) : WaitsIn P s' :=
  fun e he => h e (hsame ▸ he)

theorem WaitsIn.cue (h : WaitsIn P s) {t c : Nat} {cue : Cue} (hcue : tabGet (troupe s t).cues c = some cue) :
    ∀ w ∈ cue.waits, NotifiesIn P w := by
  obtain ⟨tr, htr⟩ := Option.isSome_iff_exists.1 (tabGet_isSome_of_cue hcue)
  have htroupe : troupe s t = tr := by rw [troupe, tabGetD, htr]; rfl
  exact h (t, tr) (mem_of_tabGet htr) (c, cue) (mem_of_tabGet (htroupe ▸ hcue))

/-- The ends of waits store what the waits asked for. -/
theorem storesIn_endWaits {ws : List Wait} (h : ∀ w ∈ ws, NotifiesIn P w) (st : Status) (v : BitVec 64) :
    StoresIn P (ws.flatMap (endWait st v)) := by
  intro b bs hmem k hk
  obtain ⟨w, hw, hmem⟩ := List.mem_flatMap.1 hmem
  have hstore : w.notify ≠ 0 ∧ b = w.notify.toNat ∧ bs = leBytes 8 v.toNat := by
    simp only [endWait, List.mem_append, List.mem_singleton, reduceCtorEq, or_false] at hmem
    split at hmem
    · cases hmem
    · next hnotify =>
      obtain ⟨rfl, rfl⟩ := Act.store.inj (List.mem_singleton.1 hmem)
      exact ⟨hnotify, rfl, rfl⟩
  obtain ⟨hnotify, rfl, rfl⟩ := hstore
  rw [length_leBytes] at hk
  exact h w hw hnotify k hk

end Within

/-! ### One action -/

section OneAct

variable {P : Nat → Prop} {s : State}

theorem writeRecord_hbm (r : Rec) (s : State) : (writeRecord r s).hbm = s.hbm := by
  unfold writeRecord copyRecord
  split
  · cases r.who <;> rfl
  · rfl

theorem WaitsIn.writeRecord (h : WaitsIn P s) (r : Rec) : WaitsIn P (writeRecord r s) := by
  unfold Machine.writeRecord copyRecord
  split
  · cases r.who with
    | none => exact h
    | some u => exact WaitsIn.modTroupe_cues (s := { s with log := s.log.push (r.stored s) }) h u fun _ => rfl
  · exact h

theorem foldl_boardWrite_hbm (t slot : Nat) (rs : List (Nat × List Byte)) (s : State) :
    (rs.foldl (fun s e => boardWrite s t slot (192 + e.1) e.2) s).hbm = s.hbm := by
  induction rs generalizing s with
  | nil => rfl
  | cons e rs ih => exact ih _

theorem WaitsIn.boardWrite (h : WaitsIn P s) (t slot off : Nat) (bs : List Byte) :
    WaitsIn P (boardWrite s t slot off bs) := h.modTroupe_cues t fun _ => rfl

theorem WaitsIn.foldl_boardWrite (h : WaitsIn P s) (t slot : Nat) (rs : List (Nat × List Byte)) :
    WaitsIn P (rs.foldl (fun s e => Machine.boardWrite s t slot (192 + e.1) e.2) s) := by
  induction rs generalizing s with
  | nil => exact h
  | cons e rs ih => exact ih (h.boardWrite t slot _ _)

theorem completeSlot_hbm (t slot : Nat) (st : Status) (rs : List (Nat × List Byte)) (s : State) :
    (completeSlot t slot st rs s).1.hbm = s.hbm := by
  unfold completeSlot
  split
  · rfl
  · exact foldl_boardWrite_hbm t slot rs s

theorem WaitsIn.completeSlot (h : WaitsIn P s) (t slot : Nat) (st : Status) (rs : List (Nat × List Byte)) :
    WaitsIn P (completeSlot t slot st rs s).1 := by
  unfold Machine.completeSlot
  split
  · exact h
  · exact ((h.foldl_boardWrite t slot rs).boardWrite t slot _ _).modTroupe_cues t fun _ => rfl

theorem storesIn_completeSlot (t slot : Nat) (st : Status) (rs : List (Nat × List Byte)) (s : State) :
    StoresIn P (completeSlot t slot st rs s).2 := by
  unfold completeSlot
  split
  · exact .of_none fun _ _ => by simp
  · exact .of_none fun _ _ => by simp

theorem cueAdd_hbm (t c n : Nat) (s : State) : (cueAdd t c n s).1.hbm = s.hbm := by
  unfold cueAdd
  split
  · rfl
  · split <;> rfl

/-- An add leaves fewer waits, and ends only waits that were there. -/
theorem WaitsIn.cueAdd (h : WaitsIn P s) (t c n : Nat) :
    WaitsIn P (cueAdd t c n s).1 ∧ StoresIn P (cueAdd t c n s).2.1 := by
  cases hcue : tabGet (troupe s t).cues c with
  | none =>
    have hsame : Machine.cueAdd t c n s = (s, [], none) := by simp only [Machine.cueAdd, hcue]
    rw [hsame]
    exact ⟨h, .of_none fun _ _ => List.not_mem_nil⟩
  | some cue =>
    by_cases hwhole : cue.isWhole = true
    case neg =>
      rw [cueAdd_broken hcue (Bool.not_eq_true _ ▸ hwhole)]
      exact ⟨h, .of_none fun _ _ => List.not_mem_nil⟩
    case pos =>
      have hwaits := h.cue hcue
      rw [cueAdd_whole hcue hwhole]
      refine ⟨h.modTroupe t fun tr htr e he w hw => ?_, storesIn_endWaits (fun w hw => ?_) _ _⟩
      · rcases mem_tabPut he with rfl | he
        · exact hwaits w (List.mem_of_mem_filter hw)
        · exact htr e he w hw
      · exact hwaits w (List.mem_of_mem_filter ((sortOf_sortWaits _).perm.mem_iff.1 hw))

theorem WaitsIn.fenceTroupe (h : WaitsIn P s) (t : Nat) (st : Status) (ix : BitVec 32) (row : Option Nat) :
    WaitsIn P (fenceTroupe t st ix row s).1 := by
  refine fenceTroupe_cases (C := WaitsIn P) h (WaitsIn.modTroupe ?_ t fun tr _ e he w hw => ?_)
  · refine curtain_cases (C := WaitsIn P) h (fun r _ fresh opened => ?_) fun s1 num h1 =>
      h1.of_troupes (ledgerStore_troupes ..)
    refine WaitsIn.modTroupe_cues ?_ t fun _ => rfl
    unfold countCause
    split
    · exact h.modTroupe_cues t fun _ => rfl
    · exact h
  · obtain ⟨o, -, rfl⟩ := List.mem_map.1 he
    cases hw

theorem storesIn_fenceTroupe (t : Nat) (st : Status) (ix : BitVec 32) (row : Option Nat) (s : State) :
    StoresIn P (fenceTroupe t st ix row s).2 := by
  unfold fenceTroupe
  split <;> exact .of_none fun _ _ => by simp

end OneAct

/-! ### The worklist -/

/-- A state that a service may have reached from another: calm, with HBM and the waits within P. -/
structure Within (P : Nat → Prop) (z s : State) : Prop where
  calm : Calm z s
  hbm : ∀ a, ¬ P a → memByte s.hbm a = memByte z.hbm a
  waits : WaitsIn P s

section Worklist

variable {P : Nat → Prop} {z s : State}

theorem Within.of_hbm {s' : State} (h : Within P z s) (hcalm : Calm z s') (hsame : s'.hbm = s.hbm)
    (hwaits : WaitsIn P s') : Within P z s' :=
  ⟨hcalm, fun a ha => by rw [hsame]; exact h.hbm a ha, hwaits⟩

/-- A store keeps within P, as its bytes do. -/
theorem Within.store (h : Within P z s) {b : Nat} {bs : List Byte} (hin : ∀ k < bs.length, P ((b + k) % 2 ^ 64)) :
    Within P z (pokeHbm s b bs) where
  calm := h.calm.pokeHbm b bs
  hbm a ha := (memByte_memWrite_off bs s.hbm b a fun k hk heq => ha (heq ▸ hin k hk)).trans (h.hbm a ha)
  waits := h.waits

/-- The acts that a record brings signal ERR_CUE (R361). -/
theorem storesIn_errCue (s : State) :
    StoresIn P (if logOpen s then (errCue s).toList.map fun c => Act.signal 0 c else []) :=
  .of_none fun _ _ => by split <;> simp

variable (hledger : ∀ a, inLedger false z a → P a)
include hledger

/-- One action keeps within P, and what it brings stores within P. -/
theorem Within.act (h : Within P z s) {x : Act} (hx : StoresIn P [x]) :
    Within P z (act x s).1 ∧ StoresIn P (act x s).2 := by
  have hcalm := h.calm.act x
  cases x with
  | complete i k st rs =>
    exact ⟨h.of_hbm hcalm (completeSlot_hbm ..) (h.waits.completeSlot i k st rs), storesIn_completeSlot i k st rs s⟩
  | store b bs => exact ⟨h.store (hx b bs (List.mem_singleton_self _)), .of_none fun _ _ => List.not_mem_nil⟩
  | signal t c =>
    obtain ⟨hwaits, hstores⟩ := h.waits.cueAdd t c 1
    refine ⟨h.of_hbm hcalm (cueAdd_hbm ..) hwaits, hstores.append (.of_none fun _ _ => ?_)⟩
    split <;> simp
  | record r => exact ⟨h.of_hbm hcalm (writeRecord_hbm r s) (h.waits.writeRecord r), storesIn_errCue s⟩
  | fault r row =>
    exact ⟨h.of_hbm hcalm (writeRecord_hbm r s) (h.waits.writeRecord r),
      (storesIn_errCue s).append (.of_none fun _ _ => by simp)⟩
  | fence t st ix row =>
    refine ⟨⟨hcalm, fun a ha => ?_, h.waits.fenceTroupe t st ix row⟩, storesIn_fenceTroupe t st ix row s⟩
    exact (hbm_fenceTroupe fun hin => ha (hledger a (inLedger_of_own h.calm.own hin))).trans (h.hbm a ha)

theorem Within.runActs {n : Nat} {xs : List Act} (h : Within P z s) (hxs : StoresIn P xs) :
    Within P z (runActs n xs s) := by
  induction n generalizing xs s with
  | zero => exact h
  | succ n ih =>
    cases xs with
    | nil => exact h
    | cons x rest =>
      have hx : StoresIn P [x] := fun b bs hmem => hxs b bs (List.mem_cons.2 (.inl (List.mem_singleton.1 hmem)))
      obtain ⟨hstep, hbrings⟩ := h.act hledger hx
      exact ih hstep (hbrings.append hxs.tail)

theorem Within.run (h : Within P z s) {xs : List Act} (hxs : StoresIn P xs) : Within P z (run xs s) :=
  h.runActs hledger hxs

end Worklist

/-! ### The service -/

/-- The bytes that a service may change in HBM: those its actions store, those that waits ask for, those of ledgers. -/
def mayChange (as : List Act) (s : State) (a : Nat) : Prop := storedBy as a ∨ notified s a ∨ inLedger false s a

section Service

variable {p : Post} {s : State}

theorem within_markServed (as : List Act) : Within (mayChange as s) s (markServed p s) where
  calm := (Calm.refl s).markServed p
  hbm _ _ := rfl
  waits := (waitsIn_of_notified fun _ h => .inr (.inl h)).modTroupe_cues p.issuer fun _ => rfl

theorem within_completed (st : Status) (res : List (Nat × List Byte)) (before after : List Act) :
    Within (mayChange (before ++ after) s) s (completed p st res before after s) := by
  refine (within_markServed _).run (fun _ h => .inr (.inr h)) (((storesIn_of_storedBy ?_).append
    (.of_none fun _ _ => by simp)).append (storesIn_of_storedBy ?_))
  · exact fun a ⟨b, bs, hmem, hrest⟩ => .inl ⟨b, bs, List.mem_append_left _ hmem, hrest⟩
  · exact fun a ⟨b, bs, hmem, hrest⟩ => .inl ⟨b, bs, List.mem_append_right _ hmem, hrest⟩

theorem within_refusedWith (st : Status) : Within (mayChange [] s) s (refusedWith p st s) := by
  have hmark := within_markServed (p := p) (s := s) []
  refine Within.run (fun _ h => .inr (.inr h)) ?_ (.of_none fun _ _ => by simp)
  exact hmark.of_hbm (hmark.calm.gauge ..) rfl (hmark.waits.modTroupe_cues p.issuer fun _ => rfl)

theorem within_heldBack (t : Nat) (q : Posted) (aw : Awaits) (before : List Act) :
    Within (mayChange before s) s (heldBack p t q aw before s) := by
  have hmark := within_markServed (p := p) (s := s) before
  refine Within.run (fun _ h => .inr (.inr h)) ?_ (storesIn_of_storedBy fun _ h => .inl h)
  exact hmark.of_hbm ((hmark.calm.boardWrite ..).deferred _) rfl (hmark.waits.boardWrite p.issuer p.slot _ _)

theorem not_mayChange {as : List Act} {a : Nat} (hstored : ¬ storedBy as a) (hnotified : ¬ notified s a)
    (hledger : ¬ inLedger false s a) : ¬ mayChange as s a :=
  fun h => h.elim hstored fun h => h.elim hnotified hledger

theorem begun_plan (t : Nat) : (troupe (begun p s) t).plan = (troupe s t).plan :=
  troupe_begun p s t Troupe.plan (fun _ _ => rfl) fun _ _ => rfl

end Service

/-! ### The statement -/

/-- Settles O58: each end of a service is a run of actions from a state in which only the slot was marked. -/
theorem serviceFrame : Obligations.ServiceFrame := by
  unfold Obligations.ServiceFrame
  refine ⟨fun p st res before after s => ?completed, fun p st s => ?refused, fun p t q aw before s => ?heldBack,
    fun p s => ⟨begun_hbm .., begun_host .., begun_scratch .., begun_pending .., ?house, fun t => begun_plan t⟩⟩
  case completed =>
    have h := within_completed (p := p) (s := s) st res before after
    exact ⟨h.calm, fun a hstored hnotified hledger => h.hbm a (not_mayChange hstored hnotified hledger)⟩
  case refused =>
    have h := within_refusedWith (p := p) (s := s) st
    have hnone (a : Nat) : ¬ storedBy [] a := fun ⟨_, _, hmem, _⟩ => List.not_mem_nil hmem
    exact ⟨h.calm, fun a hnotified hledger => h.hbm a (not_mayChange (hnone a) hnotified hledger)⟩
  case heldBack =>
    have h := within_heldBack (p := p) (s := s) t q aw before
    exact ⟨h.calm, fun a hstored hnotified hledger => h.hbm a (not_mayChange hstored hnotified hledger)⟩
  case house => rw [begun_house]

end Sys2Proof.Machine
end

section
/-! Every command of the call board keeps the queue and soundness (R323, R357, R360): what its own effect is made of keeps
them, and so does the service around it. -/

namespace Sys2Proof.Machine

open Sys2Proof

/-! ### Verdicts -/

section Verdicts

variable {s t : State}

@[simp] theorem Verdict.kept_done : (done t).kept s ↔ Keeps s t := Iff.rfl
@[simp] theorem Verdict.kept_doneWith (rs : List (Nat × List Byte)) : (doneWith t rs).kept s ↔ Keeps s t := Iff.rfl
@[simp] theorem Verdict.kept_refuse (st : Status) : (Verdict.refuse st).kept s := trivial
@[simp] theorem Verdict.kept_finish (st : Status) (rs : List (Nat × List Byte)) (a b : List Act) :
    (Verdict.finish st t rs a b).kept s ↔ Keeps s t := Iff.rfl
@[simp] theorem Verdict.kept_defer (aw : Awaits) (a : List Act) : (Verdict.defer t aw a).kept s ↔ Keeps s t := Iff.rfl

@[simp] theorem Verdict.kept_need_iff {c : Bool} {st : Status} {v : Verdict} :
    (need c st v).kept s ↔ (c = true → v.kept s) := by
  cases c
  case false => exact ⟨fun _ h => absurd h Bool.false_ne_true, fun _ => trivial⟩
  case true => exact ⟨fun h _ => h, fun h => h rfl⟩

end Verdicts

/-! ### Service -/

/-- A row of the call board is served, and what its own conditions answer keeps the queue and soundness. -/
def KeptBy (p : Post) (i : Instr) : Prop := ∀ s, ∃ c : Cmd,
  exec i s = .next (serve p i c s) ∧ ∀ s' t, (c.body p.issuer p.slot t s').kept s'

section Rows

variable {p : Post}

/-! Rows whose effect is more than a chain of the operations that keep both. -/

theorem keptBy_housePitReset (pit : BitVec 8) : KeptBy p (.housePitReset p pit) := by
  refine fun s => ⟨_, rfl, fun s' t => ?_⟩
  dsimp only
  exact (((Keeps.refl s').curtainAll 9 _).mapTroupes _ (by intro _; rfl)).modUnit _ _

theorem keptBy_troupeCreate (flags : BitVec 8) (bases lens : List (BitVec 64)) :
    KeptBy p (.troupeCreate p flags bases lens) :=
  fun _ => ⟨_, rfl, fun s' t => (Keeps.refl s').setTroupe t _ rfl⟩

theorem keptBy_troupeIntermission : KeptBy p (.troupeIntermission p) := by
  refine fun s => ⟨_, rfl, fun s' t => ?_⟩
  have hissuer (n : Nat) : Keeps s' (modTroupe s' t fun tr => { tr with issuer := n }) :=
    (Keeps.refl s').modTroupe t _ fun _ => rfl
  dsimp only
  split
  · exact (Keeps.refl s').modTroupe t _ (by intro _; rfl)
  · split
    · exact (hissuer _).enterIntermission t
    · exact ((hissuer _).curtain _ t).modTroupe t _ (by intro _; rfl)

theorem keptBy_billAdd (count : BitVec 16) (entries : BitVec 64) : KeptBy p (.billAdd p count entries) := by
  refine fun s => ⟨_, rfl, fun s' t => ?_⟩
  dsimp only
  split
  · exact Verdict.kept_refuse _
  · exact Verdict.kept_need ((Keeps.refl s').modTroupe t _ fun _ => board_foldl (by intro _ _; rfl) _ _)

theorem keptBy_billSet (count : BitVec 16) (entries : BitVec 64) : KeptBy p (.billSet p count entries) := by
  refine fun s => ⟨_, rfl, fun s' t => ?_⟩
  dsimp only
  split
  · exact Verdict.kept_refuse _
  · exact Verdict.kept_need (Verdict.kept_need
      ((Keeps.refl s').modTroupe t _ fun _ => board_foldl board_setEntry _ _))

theorem keptBy_billRemove (count : BitVec 16) (ids : BitVec 64) : KeptBy p (.billRemove p count ids) :=
  fun _ => ⟨_, rfl, fun s' t => Verdict.kept_need
    ((Keeps.refl s').modTroupe t _ fun _ => board_foldl board_dropTensor _ _)⟩

theorem keptBy_stepLoss (loss : BitVec 32) : KeptBy p (.stepLoss p loss) := by
  refine fun s => ⟨_, rfl, fun s' t => Verdict.kept_need ?_⟩
  rw [Verdict.kept_done]
  exact (((Keeps.refl s').modTroupe t _ (by intro _; rfl)).judgeSpike t _ _).noteComplete t

theorem keptBy_spareStandin (lost : BitVec 64) : KeptBy p (.spareStandin p lost) := by
  refine fun s => ⟨_, rfl, fun s' t => Verdict.kept_need ?_⟩
  rw [Verdict.kept_defer]
  exact Keeps.foldl (fun s l => (Keeps.refl s).standLine t _ l) _ ((Keeps.refl s').modMirror t _)

/-- Every row of the call board keeps the queue and soundness. -/
theorem keptBy_row {i : Instr} (hp : post i = some p) : KeptBy p i := by
  cases i <;> cases hp
  case housePitReset => exact keptBy_housePitReset _
  case troupeCreate => exact keptBy_troupeCreate _ _ _
  case troupeIntermission => exact keptBy_troupeIntermission
  case billAdd => exact keptBy_billAdd _ _
  case billSet => exact keptBy_billSet _ _
  case billRemove => exact keptBy_billRemove _ _
  case stepLoss => exact keptBy_stepLoss _
  case spareStandin => exact keptBy_spareStandin _
  all_goals
    refine fun s => ⟨_, rfl, fun s' t => ?_⟩
    have hrefl := Keeps.refl s'
    dsimp only
    repeat' split
  all_goals
    simp only [hrefl, Verdict.kept_need_iff, Verdict.kept_done, Verdict.kept_doneWith,
      Verdict.kept_refuse, Verdict.kept_finish, Verdict.kept_defer, implies_true, Keeps.modHouse, Keeps.modPort,
      Keeps.modTroupe, Keeps.modSlice, Keeps.modUnit, Keeps.pokeHbm, Keeps.curtain, Keeps.cueAdd,
      Keeps.modLine, Keeps.sendKnock, Keeps.openEpoch, Keeps.resetCurtain, Keeps.beginReset,
      Keeps.closeLine, Keeps.declineDim, Keeps.openStep,
      Keeps.beginTroupeReset, Keeps.serveHeld, Keeps.sendCopy, Keeps.dropQueues]

end Rows

end Sys2Proof.Machine
end

section
/-! The commands of the call board keep what is configured outside their target (R315, R317, R340), but for the four that
set the pod and the routing: the statement O59. -/

namespace Sys2Proof.Machine

open Sys2Proof

variable {but : Nat → Bool}

/-! ### Verdicts -/

section Verdicts

variable {s t : State}

@[simp] theorem Verdict.steady_done : (done t).steady but s ↔ Steady but s t := Iff.rfl
@[simp] theorem Verdict.steady_doneWith (rs : List (Nat × List Byte)) :
    (doneWith t rs).steady but s ↔ Steady but s t := Iff.rfl
@[simp] theorem Verdict.steady_refuse (st : Status) : (Verdict.refuse st).steady but s := trivial
@[simp] theorem Verdict.steady_finish (st : Status) (rs : List (Nat × List Byte)) (a b : List Act) :
    (Verdict.finish st t rs a b).steady but s ↔ Steady but s t := Iff.rfl
@[simp] theorem Verdict.steady_defer (aw : Awaits) (a : List Act) :
    (Verdict.defer t aw a).steady but s ↔ Steady but s t := Iff.rfl

@[simp] theorem Verdict.steady_need_iff {c : Bool} {st : Status} {v : Verdict} :
    (need c st v).steady but s ↔ (c = true → v.steady but s) := by
  cases c
  case false => exact ⟨fun _ h => absurd h Bool.false_ne_true, fun _ => trivial⟩
  case true => exact ⟨fun h _ => h, fun h => h rfl⟩

end Verdicts

/-! ### Service -/

/-- A troupe that is left out may be written anew. -/
theorem Steady.setBut {a s : State} (h : Steady but a s) (t : Nat) (tr : Troupe) (ht : but t = true) :
    Steady but a (setTroupe s t tr) :=
  h.trans ⟨rfl, rfl, rfl, fun _ => rfl, fun u x hu hx => by
    have hother : t ≠ u := by rintro rfl; rw [ht] at hu; cases hu
    rw [setTroupe_troupes, tabGet_tabPut_other _ hother] at hx
    exact ⟨x, hx, rfl⟩⟩

/-- A row of the call board is served, and what its own conditions answer keeps what is configured but for the troupe that
it is served for. -/
def SteadyBy (but : Nat → Bool) (p : Post) (i : Instr) : Prop := ∀ s, ∃ c : Cmd,
  exec i s = .next (serve p i c s) ∧ ∀ s' t, but t = true → (c.body p.issuer p.slot t s').steady but s'

section Rows

variable {p : Post}

theorem steadyBy_housePitReset (pit : BitVec 8) : SteadyBy but p (.housePitReset p pit) := by
  refine fun s => ⟨_, rfl, fun s' t _ => ?_⟩
  have hcurtain := (Steady.refl (but := but) s').curtainAll 9 fun tr => graphOnPit s' tr pit.toNat
  exact (hcurtain.mapTroupes (fun _ => abandonPit (curtainAll 9 (fun tr => graphOnPit s' tr pit.toNat) s') pit.toNat)
    fun _ _ => rfl).modUnit _ _

theorem steadyBy_troupeCreate (flags : BitVec 8) (bases lens : List (BitVec 64)) :
    SteadyBy but p (.troupeCreate p flags bases lens) :=
  fun _ => ⟨_, rfl, fun s' t ht => (Steady.refl s').setBut t _ ht⟩

theorem steadyBy_troupeIntermission : SteadyBy but p (.troupeIntermission p) := by
  refine fun s => ⟨_, rfl, fun s' t ht => ?_⟩
  have hissuer (n : Nat) : Steady but s' (modTroupe s' t fun tr => { tr with issuer := n }) :=
    (Steady.refl s').modBut t _ ht
  dsimp only
  split
  · exact (Steady.refl s').modBut t _ ht
  · split
    · exact (hissuer _).enterIntermission t
    · exact ((hissuer _).curtain _ t).modBut t _ ht

theorem steadyBy_stepLoss (loss : BitVec 32) : SteadyBy but p (.stepLoss p loss) := by
  refine fun s => ⟨_, rfl, fun s' t ht => Verdict.steady_need ?_⟩
  rw [Verdict.steady_done]
  exact (((Steady.refl s').modBut t _ ht).judgeSpike t _ _).noteComplete t

theorem steadyBy_spareStandin (lost : BitVec 64) : SteadyBy but p (.spareStandin p lost) := by
  refine fun s => ⟨_, rfl, fun s' t _ => Verdict.steady_need ?_⟩
  rw [Verdict.steady_defer]
  exact Steady.foldl (fun s l => (Steady.refl s).standLine t _ l) _ ((Steady.refl s').modMirror t _)

/-- Every row of the call board but HOUSE_POD_SET, HOUSE_SLICE_SET, HOUSE_ROUTE_FILL and HOUSE_ROUTE_SET keeps what is
configured but for its target. -/
theorem steadyBy_row {i : Instr} (hp : post i = some p)
    (hother : [0x0103, 0x0109, 0x010A, 0x010B].contains (opcode i) = false) : SteadyBy but p i := by
  cases i <;> cases hp
  case housePodSet | houseSliceSet | houseRouteFill | houseRouteSet => cases hother
  case housePitReset => exact steadyBy_housePitReset _
  case troupeCreate => exact steadyBy_troupeCreate _ _ _
  case troupeIntermission => exact steadyBy_troupeIntermission
  case stepLoss => exact steadyBy_stepLoss _
  case spareStandin => exact steadyBy_spareStandin _
  all_goals
    refine fun s => ⟨_, rfl, fun s' t ht => ?_⟩
    have hrefl := Steady.refl (but := but) s'
    dsimp only
    repeat' split
  all_goals
    simp only [hrefl, ht, Verdict.steady_need_iff, Verdict.steady_done, Verdict.steady_doneWith,
      Verdict.steady_refuse, Verdict.steady_finish, Verdict.steady_defer, implies_true, Steady.modHouse, Steady.modPort,
      Steady.modBut, Steady.modSlice, Steady.modUnit, Steady.pokeHbm, Steady.curtain, Steady.cueAdd,
      Steady.modLine, Steady.sendKnock, Steady.openEpoch, Steady.resetCurtain, Steady.beginReset,
      Steady.closeLine, Steady.declineDim, Steady.openStep,
      Steady.beginTroupeReset, Steady.serveHeld, Steady.sendCopy, Steady.dropQueues]

end Rows

/-! ### The statement -/

/-- Settles O59: the service of a row is steady where its own effect is, and the effect goes to the target of the slot that
is served. -/
theorem commandsKeepOthers : Obligations.CommandsKeepOthers := by
  unfold Obligations.CommandsKeepOthers
  intro i p q s t hp hnext hother hexec
  obtain ⟨c, hserve, heffect⟩ := steadyBy_row (but := fun u => u == q.target) hp hother s
  obtain rfl := Host.Outcome.next.inj (hserve.symm.trans hexec)
  refine (Steady.refl s).serve p i fun q' hnext' => heffect _ _ ?_
  obtain rfl := Option.some.inj (hnext.symm.trans hnext')
  exact beq_self_eq_true _

end Sys2Proof.Machine
end

section
/-! What an event keeps (O42, O45, O60): the queue and soundness, and all that commands configure. First the carriages: what
each kind applies keeps both, so its row does. -/

namespace Sys2Proof.Machine

open Sys2Proof

/-! ### Events -/

/-- An event ends in a next state, and it keeps the queue, soundness and all that commands configure. -/
def EventKeeps (i : Instr) : Prop :=
  ∀ s, ∃ t, exec i s = .next t ∧ Keeps s t ∧ Steady (fun _ => false) s t

/-- One text shows both relations: it starts at `r s`, that a state is in the relation with itself. -/
theorem eventKeeps_of {i : Instr} {f : State → State} (he : ∀ s, exec i s = .next (f s))
    (hk : (∀ s, Keeps s s) → ∀ s, Keeps s (f s))
    (hs : (∀ s, Steady (fun _ => false) s s) → ∀ s, Steady (fun _ => false) s (f s)) : EventKeeps i :=
  fun s => ⟨f s, he s, hk Keeps.refl s, hs Steady.refl s⟩

/-! A change of the house or of a troupe that leaves what commands configure: one premise for both relations. -/

section Running

variable {but : Nat → Bool} {z s : State}

theorem Keeps.houseRun (h : Keeps z s) (x : House) (_ : x.plan = s.house.plan) : Keeps z { s with house := x } :=
  h.house x

theorem Steady.houseRun (h : Steady but z s) (x : House) (hx : x.plan = s.house.plan) :
    Steady but z { s with house := x } :=
  h.house' x hx

theorem Keeps.modHouseRun (h : Keeps z s) (f : House → House) (_ : ∀ x, (f x).plan = x.plan) :
    Keeps z (Sys2Proof.Machine.modHouse s f) :=
  h.modHouse f

theorem Steady.modHouseRun (h : Steady but z s) (f : House → House) (hf : ∀ x, (f x).plan = x.plan) :
    Steady but z (Sys2Proof.Machine.modHouse s f) :=
  h.modHouse f hf

theorem Keeps.modTroupeRun (h : Keeps z s) (t : Nat) (f : Troupe → Troupe)
    (hf : ∀ tr, (f tr).board = tr.board ∧ (f tr).plan = tr.plan) : Keeps z (Sys2Proof.Machine.modTroupe s t f) :=
  h.modTroupe t f fun tr => (hf tr).1

theorem Steady.modTroupeRun (h : Steady but z s) (t : Nat) (f : Troupe → Troupe)
    (hf : ∀ tr, (f tr).board = tr.board ∧ (f tr).plan = tr.plan) : Steady but z (Sys2Proof.Machine.modTroupe s t f) :=
  h.modTroupe t f fun tr => (hf tr).2

end Running

/-! ### What a carriage applies -/

section Applies

variable {but : Nat → Bool}

/-- What a kind of carriage applies keeps the queue, soundness and what commands configure. -/
abbrev Applies.keeps (but : Nat → Bool) (f : Applies) : Prop := f.kept ∧ f.steady but

/-- One text shows both, as for the rows. -/
theorem Applies.keeps_of {f : Applies}
    (hk : (∀ s, Keeps s s) → ∀ t l i src c s s', f t l i src c s = some s' → Keeps s s')
    (hs : (∀ s, Steady but s s) → ∀ t l i src c s s', f t l i src c s = some s' → Steady but s s') : f.keeps but :=
  ⟨hk Keeps.refl, hs Steady.refl⟩

theorem applyWrite_keeps : applyWrite.keeps but := by
  refine Applies.keeps_of ?_ ?_
  all_goals
    rintro r t l i src c s s' ⟨⟩
    exact (r s).pokeHbm _ _

theorem applyReduce_keeps : applyReduce.keeps but := by
  refine Applies.keeps_of ?_ ?_
  all_goals
    intro r t l i src c s s' h
    unfold applyReduce at h
    split at h <;> cases h
    exact (r s).reduceInto _ _

theorem applyRequest_keeps : applyRequest.keeps but := by
  refine Applies.keeps_of ?_ ?_
  all_goals
    rintro r t l i src c s s' ⟨⟩
    exact (r s).queueCars _ _ _ _ _ _

theorem applyResponse_keeps : applyResponse.keeps but := by
  refine Applies.keeps_of ?_ ?_
  all_goals
    intro r t l i src c s s' h
    unfold applyResponse at h
    dsimp only at h
    split at h <;> cases h
    · exact (r s).pokeHbm _ _
    · exact (((r s).pokeHbm _ _).modLine _ _ _).completeOps _ _

theorem applyFence_keeps : applyFence.keeps but := by
  refine Applies.keeps_of ?_ ?_
  all_goals
    rintro r t l i src c s s' ⟨⟩
    exact r s

theorem applyCollective_keeps : applyCollective.keeps but := by
  refine Applies.keeps_of ?_ ?_
  all_goals
    intro r t l i src c s s' h
    unfold applyCollective at h
    split at h <;> cases h
    exact (r s).takeCollective _ _ _ _

/-- What applying a delta carriage can end in (R180, R275). -/
theorem applyDeltas_cases {t l i : Nat} {src : BlockAddr} {c : Car} {s s' : State}
    (h : applyDeltas t l i src c s = some s') :
    s' = tooFar t s ∨ s' = staleCar t s ∨ s' = misplaced t c c.tensor s ∨
      ∃ b, ∃ ks : List (Nat × QBlk × List F32), s' = settleGather t (ks.foldl (takeDelta t b) s) := by
  unfold applyDeltas at h
  dsimp only at h
  split at h
  · exact .inl (Option.some.inj h).symm
  · split at h
    · cases h
    · split at h
      · exact .inr (.inl (Option.some.inj h).symm)
      · split at h
        · exact .inr (.inr (.inl (Option.some.inj h).symm))
        · exact .inr (.inr (.inr ⟨_, _, (Option.some.inj h).symm⟩))

theorem applyDeltas_keeps : applyDeltas.keeps but := by
  refine Applies.keeps_of ?_ ?_
  all_goals
    intro r t l i src c s s' h
    obtain rfl | rfl | rfl | ⟨b, ks, rfl⟩ := applyDeltas_cases h
    · exact (r s).tooFar t
    · exact (r s).staleCar t
    · exact (r s).misplaced t c _
    · refine .settleGather (.foldl (fun s k => ?_) ks (r s)) t
      exact (r s).takeDelta t b k

theorem applyMirror_keeps : applyMirror.keeps but := by
  refine Applies.keeps_of ?_ ?_
  all_goals
    rintro r t l i src c s s' ⟨⟩
    exact (r s).takeMirror _ _

theorem applyTrickle_keeps : applyTrickle.keeps but := by
  refine Applies.keeps_of ?_ ?_
  all_goals
    rintro r t l i src c s s' ⟨⟩
    exact (r s).takeTrickle _ _

/-- Whatever kind of carriage a frame holds. -/
theorem appliesOf_keeps {k : Kind} {f : Applies} (h : appliesOf k = some f) : f.keeps but := by
  cases k <;> cases h
  case write => exact applyWrite_keeps
  case reduceWrite => exact applyReduce_keeps
  case readRequest => exact applyRequest_keeps
  case readResponse => exact applyResponse_keeps
  case fence => exact applyFence_keeps
  case collective => exact applyCollective_keeps
  case delta => exact applyDeltas_keeps
  case mirror => exact applyMirror_keeps
  case trickle => exact applyTrickle_keeps

end Applies

/-! ### The carriage rows and the window of a pit -/

/-- A row that terminates the carriages of one kind. -/
theorem eventKeeps_terminate {i : Instr} {k : Kind} {f : Applies} {dt port : Nat} {frame : List Byte}
    (hf : appliesOf k = some f)
    (he : ∀ s, exec i s = .next (arriveOpen k true dt port frame (terminate f port frame) s)) : EventKeeps i := by
  obtain ⟨hkept, hsteady⟩ := appliesOf_keeps (but := fun _ => false) hf
  exact eventKeeps_of he (fun r s => (r s).arriveOpen _ _ _ _ _ fun s => (r s).terminate hkept _ _)
    (fun r s => (r s).arriveOpen _ _ _ _ _ fun s => (r s).terminate hsteady _ _)

/-- The rows that hear a carriage (Table 6.12). -/
theorem eventKeeps_carriage {i : Instr} (h : (carriageRow i).isSome) : EventKeeps i := by
  cases i <;> cases h
  case writeReceive => exact eventKeeps_terminate (k := .write) rfl fun _ => rfl
  case reduceWriteReceive => exact eventKeeps_terminate (k := .reduceWrite) rfl fun _ => rfl
  case readRequestReceive => exact eventKeeps_terminate (k := .readRequest) rfl fun _ => rfl
  case readResponseReceive => exact eventKeeps_terminate (k := .readResponse) rfl fun _ => rfl
  case fenceCarriageReceive => exact eventKeeps_terminate (k := .fence) rfl fun _ => rfl
  case collectiveCarriageReceive => exact eventKeeps_terminate (k := .collective) rfl fun _ => rfl
  case deltaCarriageReceive => exact eventKeeps_terminate (k := .delta) rfl fun _ => rfl
  case mirrorCarriageReceive => exact eventKeeps_terminate (k := .mirror) rfl fun _ => rfl
  case residualTrickleReceive => exact eventKeeps_terminate (k := .trickle) rfl fun _ => rfl

/-- The frames that a port holds for the share of a pit go on with what their kind applies (R233). -/
theorem Keeps.drainHere {z : State} (port prio : Nat) : ∀ (n : Nat) {s : State}, Keeps z s →
    Keeps z (Sys2Proof.Machine.drainHere port prio n s)
  | 0, _, h => h
  | n + 1, s, h => by
    unfold Sys2Proof.Machine.drainHere
    split
    · exact h
    next r _ =>
      split
      · exact h
      · refine Keeps.drainHere port prio n ?_
        cases ha : appliesOf (carKind (readCar r.2.1)) with
        | none => exact h.unbuffer port r
        | some a => exact (h.unbuffer port r).deliver (appliesOf_keeps (but := fun _ => false) ha).1 port _

theorem Steady.drainHere {but : Nat → Bool} {z : State} (port prio : Nat) : ∀ (n : Nat) {s : State}, Steady but z s →
    Steady but z (Sys2Proof.Machine.drainHere port prio n s)
  | 0, _, h => h
  | n + 1, s, h => by
    unfold Sys2Proof.Machine.drainHere
    split
    · exact h
    next r _ =>
      split
      · exact h
      · refine Steady.drainHere port prio n ?_
        cases ha : appliesOf (carKind (readCar r.2.1)) with
        | none => exact h.unbuffer port r
        | some a => exact (h.unbuffer port r).deliver (appliesOf_keeps ha).2 port _

theorem eventKeeps_pitWindowOpen (dt pit : Nat) : EventKeeps (.pitWindowOpen dt pit) := by
  refine eventKeeps_of (fun _ => rfl) (fun r s => ?_) (fun r s => ?_)
  all_goals
    refine .ite (.foldl (fun s port => ?_) _ (((r s).passCk dt).openWindow pit)) ((r s).passCk dt)
    exact .foldl (fun s prio => (r s).drainHere port prio _) _ (r s)

end Sys2Proof.Machine
end

section
/-! What the window's accesses keep (O42, O45, O60): ERR_READ goes to a value between the current one and ERR_WRITE, so at
most 256 records still lie between them (R357). -/

namespace Sys2Proof.Machine

open Sys2Proof

/-! ### ERR_READ -/

/-- A value that lies between ERR_READ and ERR_WRITE is no further from ERR_WRITE than ERR_READ is. -/
theorem toNat_sub_le_of_between {w rd v : BitVec 32} (h : v - rd ≤ w - rd) : (w - v).toNat ≤ (w - rd).toNat := by
  have hle : (v - rd).toNat ≤ (w - rd).toNat := h
  have heq : w - v = (w - rd) - (v - rd) := by bv_omega
  rw [heq, BitVec.toNat_sub_of_le h]
  exact Nat.sub_le _ _

/-- However ERR_READ is written, at most 256 records lie between a value that it takes and ERR_WRITE: a broken one stands
256 below. -/
theorem kept_of_read {l : ErrorLog} {v : BitVec 64} {pc : List Nat} (hkept : (l.write - errReadVal l).toNat ≤ 256)
    (hv : ¬ l.write - errReadVal l < BitVec.ofNat 32 (pcVal v) - errReadVal l) :
    (l.write - errReadVal { l with read := v, pcFound := pc }).toNat ≤ 256 := by
  unfold errReadVal at *
  dsimp only
  by_cases hwhole : pcWhole v
  · rw [if_pos hwhole]
    exact (toNat_sub_le_of_between (BitVec.not_lt.mp hv)).trans hkept
  · rw [if_neg hwhole]
    bv_omega

/-- ERR_READ with a value that it takes. -/
theorem Keeps.errRead {z s : State} (h : Keeps z s) (v : BitVec 64) (pc : List Nat)
    (hv : ¬ s.log.write - errReadVal s.log < BitVec.ofNat 32 (pcVal v) - errReadVal s.log) :
    Keeps z { s with log := { s.log with read := v, pcFound := pc } } :=
  h.trans ⟨rfl, fun hs => ⟨hs.memories, hs.inTick, kept_of_read (l := s.log) hs.kept hv⟩⟩

/-! ### Rows -/

theorem eventKeeps_errRead (a : Access) : EventKeeps (.errRead a) := by
  intro s
  refine ⟨_, rfl, ?_, ?_⟩
  · refine .ite ((Keeps.refl s).passCk _) (((Keeps.refl s).passCk _).judged a fun s => ?_)
    dsimp only
    split
    · exact (Keeps.refl s).refuseAccess a _ _
    next hv => exact ((Keeps.refl s).errRead _ _ hv).respond _ _
  · refine .ite ((Steady.refl s).passCk _) (((Steady.refl s).passCk _).judged a fun s => ?_)
    exact .ite ((Steady.refl s).refuseAccess a _ _) (((Steady.refl s).log _).respond _ _)

theorem eventKeeps_ringDoorbell (a : Access) : EventKeeps (.ringDoorbell a) := by
  refine eventKeeps_of (fun _ => rfl) ?_ ?_
  all_goals
    intro r s
    split
    · exact (r s).passCk _
    · exact ((r s).passCk _).judged a fun s => (r s).ringWrite a _

theorem eventKeeps_callDoorbell (a : Access) : EventKeeps (.callDoorbell a) := by
  refine eventKeeps_of (fun _ => rfl) ?_ ?_
  all_goals
    intro r s
    split
    · exact (r s).passCk _
    · refine ((r s).passCk _).judged a fun s => .respond (.foldl (fun s k => ?_) _ (r s)) _ _
      exact (r s).postSlot _ k

/-! CHK_CTRL, a scan's end and a plain write change the check window, which is no command's. -/

theorem keeps_chkCtrl (a : Access) (s : State) : ∃ t, exec (.chkCtrl a) s = .next t ∧ Keeps s t := by
  refine ⟨_, rfl, .ite ((Keeps.refl s).passCk _) (((Keeps.refl s).passCk _).judged a fun s => ?_)⟩
  exact .ite ((Keeps.refl s).refuseAccess a _ _) (((Keeps.refl s).check _).respond _ _)

theorem keeps_checkScanEnd (dt : Nat) (s : State) : ∃ t, exec (.checkScanEnd dt) s = .next t ∧ Keeps s t := by
  have hscan := Keeps.foldl (g := fun s a => spendShare (Config.pitAt a % max 1 s.house.pits) 8 s)
    (fun s _ => (Keeps.refl s).spendShare _ _) (scanned (passCk dt s)) ((Keeps.refl s).passCk dt)
  refine ⟨_, rfl, ?_⟩
  dsimp only
  split
  · exact (Keeps.refl s).passCk _
  · split
    · exact hscan.check _
    · exact (hscan.check _).record _

theorem keeps_registerWrite (a : Access) (s : State) : ∃ t, exec (.registerWrite a) s = .next t ∧ Keeps s t :=
  ⟨_, rfl, .ite ((Keeps.refl s).passCk _)
    (((Keeps.refl s).passCk _).judged a fun s => ((Keeps.refl s).plainWrite a).respond _ _)⟩

end Sys2Proof.Machine
end

section
/-! What the frames of control, the links and the timers of a line keep (O42, O45, O60). -/

namespace Sys2Proof.Machine

open Sys2Proof

/-! ### Control frames of a line (Table 8.7) -/

theorem eventKeeps_ackReceive (dt port : Nat) (f : List Byte) : EventKeeps (.ackReceive dt port f) := by
  refine eventKeeps_of (fun _ => rfl) ?_ ?_
  all_goals
    refine fun r s => (r s).arriveOpen _ _ _ _ _ fun s => (r s).onLine _ fun t l i s => ?_
    exact .ite (r s) ((r s).acknowledge t l i _ _)

theorem eventKeeps_nakReceive (dt port : Nat) (f : List Byte) : EventKeeps (.nakReceive dt port f) := by
  refine eventKeeps_of (fun _ => rfl) ?_ ?_
  all_goals
    refine fun r s => (r s).arriveOpen _ _ _ _ _ fun s => (r s).onLine _ fun t l i s => ?_
    dsimp only
    split
    · exact .ite ((r s).nakGap t l i _) (r s)
    · exact .ite ((r s).beginReset t l) (r s)
    · exact .ite ((r s).shutLine t l) (r s)
    · exact r s

theorem eventKeeps_probeReceive (dt port : Nat) (f : List Byte) : EventKeeps (.probeReceive dt port f) := by
  refine eventKeeps_of (fun _ => rfl) ?_ ?_
  all_goals
    refine fun r s => (r s).arriveOpen _ _ _ _ _ fun s => (r s).onLine _ fun t l i s => ?_
    dsimp only
    split
    · exact r s
    · exact (r s).sendControl t _ _ _

theorem eventKeeps_probeEchoReceive (dt port : Nat) (f : List Byte) : EventKeeps (.probeEchoReceive dt port f) := by
  refine eventKeeps_of (fun _ => rfl) ?_ ?_
  all_goals
    refine fun r s => (r s).arriveOpen _ _ _ _ _ fun s => (r s).onLine _ fun t l i s => ?_
    exact .ite (r s) ((r s).sampleRtt t l i _ _)

theorem eventKeeps_knockAnswerReceive (dt port : Nat) (f : List Byte) : EventKeeps (.knockAnswerReceive dt port f) := by
  refine eventKeeps_of (fun _ => rfl) ?_ ?_
  all_goals
    refine fun r s => (r s).arriveOpen _ _ _ _ _ fun s => (r s).onLine _ fun t l i s => ?_
    exact .ite (r s) (.ite ((r s).granted t l i _) (.ite (((r s).modPeer t l i _).gauge t _ _) (r s)))

/-! ### Frames of a port -/

theorem eventKeeps_callReceive (dt port : Nat) (f : List Byte) : EventKeeps (.callReceive dt port f) := by
  refine eventKeeps_of (fun _ => rfl) ?_ ?_
  all_goals exact fun r s => (r s).arriveOpen _ _ _ _ _ fun s => (r s).hearCall port _

theorem eventKeeps_knockReceive (dt port : Nat) (f : List Byte) : EventKeeps (.knockReceive dt port f) := by
  refine eventKeeps_of (fun _ => rfl) ?_ ?_
  all_goals exact fun r s => (r s).arrive _ _ _ _ fun s => .ite (r s) ((r s).hearKnock port _)

theorem eventKeeps_dimReceive (dt port : Nat) (f : List Byte) : EventKeeps (.dimReceive dt port f) := by
  refine eventKeeps_of (fun _ => rfl) ?_ ?_
  all_goals exact fun r s => (r s).arrive _ _ _ _ fun s => .ite (r s) (((r s).asked port _ _).hearDim port _)

theorem eventKeeps_lightReceive (dt port : Nat) (f : List Byte) : EventKeeps (.lightReceive dt port f) := by
  refine eventKeeps_of (fun _ => rfl) ?_ ?_
  all_goals
    intro r s
    refine .arrived (.ite (.lightUp ((r s).passCk dt) port) ((r s).passCk dt)) _ _ _ fun s => ?_
    exact .ite (r s) ((r s).sendLink port _ _ _)

theorem eventKeeps_tickReceive (dt port : Nat) (f : List Byte) (sub : Nat) :
    EventKeeps (.tickReceive dt port f sub) := by
  refine eventKeeps_of (fun _ => rfl) ?_ ?_
  all_goals
    intro r s
    have heard := (r s).arrive .tick dt port f (k := hearTick port f sub) fun s => (r s).hearTick port f sub
    exact .ite (heard.hearStranger port f) heard

theorem eventKeeps_pfcReceive (dt port : Nat) (f : List Byte) : EventKeeps (.pfcReceive dt port f) := by
  refine eventKeeps_of (fun _ => rfl) ?_ ?_
  all_goals
    refine fun r s => (r s).arrive _ _ _ _ fun s => .ite (r s) (.foldl (fun s k => ?_) _ ((r s).portGauge port _ _))
    exact (r s).takePause port k _

theorem eventKeeps_pauseFrameReceive (dt port : Nat) (f : List Byte) : EventKeeps (.pauseFrameReceive dt port f) := by
  refine eventKeeps_of (fun _ => rfl) ?_ ?_
  all_goals exact fun r s => (r s).arrive _ _ _ _ fun s => (r s).portGauge port _ _

theorem eventKeeps_foreignFrameReceive (dt port : Nat) (f : List Byte) :
    EventKeeps (.foreignFrameReceive dt port f) := by
  refine eventKeeps_of (fun _ => rfl) ?_ ?_
  all_goals exact fun r s => (r s).arrive _ _ _ _ fun s => (r s).portGauge port _ _

theorem eventKeeps_frameRelay (dt port : Nat) (f : List Byte) : EventKeeps (.frameRelay dt port f) := by
  refine eventKeeps_of (fun _ => rfl) ?_ ?_
  all_goals
    refine fun r s => (r s).arrive _ _ _ _ fun s => ?_
    exact .ite (r s) (.ite ((r s).portGauge port _ _) (.ite (r s) ((r s).forward port _)))

theorem eventKeeps_portFail (dt port : Nat) : EventKeeps (.portFail dt port) := by
  refine eventKeeps_of (fun _ => rfl) ?_ ?_
  all_goals
    intro r s
    have hck := (r s).passCk dt
    exact .ite (hck.modPort port _) (.ite (hck.failPort port) hck)

/-! ### Timers of a line (Table 8.6) -/

theorem eventKeeps_retransmitTimerExpiry (dt t line peer : Nat) :
    EventKeeps (.retransmitTimerExpiry dt t line peer) := by
  refine eventKeeps_of (fun _ => rfl) ?_ ?_
  all_goals
    intro r s
    have hck := (r s).passCk dt
    dsimp only
    split
    · exact hck
    · refine .ite hck (hck.useLine t line fun s => ?_)
      have hgauge := (r s).gauge t 0x420 1
      exact .ite (hgauge.faultLine t line _) ((hgauge.goBackFrom t line peer _).modPeer t line peer _)

theorem eventKeeps_knockTimerExpiry (dt t line peer : Nat) : EventKeeps (.knockTimerExpiry dt t line peer) := by
  refine eventKeeps_of (fun _ => rfl) ?_ ?_
  all_goals
    intro r s
    have hck := (r s).passCk dt
    split
    · exact hck
    · refine .ite hck (hck.useLine t line fun s => ?_)
      exact .ite ((r s).sendKnock t line peer _) (.faultLine (.ite ((r s).leaveEpoch t line) (r s)) t line _)

theorem eventKeeps_knockRetry (dt t line peer : Nat) : EventKeeps (.knockRetry dt t line peer) := by
  refine eventKeeps_of (fun _ => rfl) ?_ ?_
  all_goals
    intro r s
    have hck := (r s).passCk dt
    split
    · exact hck
    · exact .ite (hck.useLine t line fun s => (r s).sendKnock t line peer 0) hck

theorem eventKeeps_firstKnock (dt t line peer : Nat) : EventKeeps (.firstKnock dt t line peer) := by
  refine eventKeeps_of (fun _ => rfl) ?_ ?_
  all_goals
    intro r s
    have hck := (r s).passCk dt
    refine .ite (hck.useLine t line fun s => .sendKnock (.modHouseRun (r s) _ ?_) t line peer 0) hck
    intro _; rfl

theorem eventKeeps_probeSend (dt t line peer : Nat) : EventKeeps (.probeSend dt t line peer) := by
  refine eventKeeps_of (fun _ => rfl) ?_ ?_
  all_goals
    intro r s
    have hck := (r s).passCk dt
    dsimp only
    split
    · exact hck
    · exact .ite hck (hck.useLine t line fun s => ((r s).modPeer t line peer _).sendControl t _ _ _)

end Sys2Proof.Machine
end

section
/-! What the inlets and the pits keep (O42, O45, O60): a seal's end, the adding of chunks, the passes of a bucket. -/

namespace Sys2Proof.Machine

open Sys2Proof

/-! ### Inlets and pits -/

theorem eventKeeps_sealComplete (dt t : Nat) : EventKeeps (.sealComplete dt t) := by
  refine eventKeeps_of (fun _ => rfl) ?_ ?_
  all_goals
    intro r s
    have hck := (r s).passCk dt
    have hsealed := hck.modTroupeRun t sealed fun tr => ⟨board_sealed tr, plan_sealed tr⟩
    refine .ite hck (.completeDeferred (.foldl (fun s e => ?_) _ hsealed) t _ _ _)
    exact (r s).useEntry _ t _

theorem eventKeeps_chunkAccumulate (dt t tensor chunk : Nat) : EventKeeps (.chunkAccumulate dt t tensor chunk) := by
  refine eventKeeps_of (fun _ => rfl) ?_ ?_
  all_goals
    intro r s
    have hck := (r s).passCk dt
    dsimp only
    split
    · exact hck
    next k _ =>
      have htaken := hck.modTroupe t (fun tr => { tr with taken := tr.taken.erase k }) (by intro _; rfl)
      refine .ite hck ?_
      split
      · exact htaken
      · refine .ite (.chunkDone ?_ t tensor chunk) ?_
        all_goals exact .nonFinite (.modTroupe (htaken.spendShare _ _) t _ (by intro _; rfl)) t _ tensor chunk _ _

theorem eventKeeps_quantPassStart (dt t b : Nat) : EventKeeps (.quantPassStart dt t b) := by
  refine eventKeeps_of (fun _ => rfl) ?_ ?_
  all_goals
    intro r s
    have hck := (r s).passCk dt
    refine .ite hck (.modWork (.modTroupeRun (.foldl (fun s e => ?_) _ (hck.useBank t)) t _
      fun tr => ⟨board_modLast .., plan_modLast ..⟩) t b _)
    exact (r s).useEntry _ t _

/-! The draws of a pass are the house's, and no command's. -/

theorem plan_passElem (c : Choice) (r : StepRec) (en : Entry) (pit e j : Nat) (v : F32) (h : House) :
    (passElem c r en pit e j v h).2.plan = h.plan := by
  unfold passElem
  split
  · rfl
  · split
    · exact plan_sendElem ..
    · split <;> rfl

theorem plan_passElems (c : Choice) (r : StepRec) (en : Entry) (pit e : Nat) (vs : List F32) (j : Nat) (h : House) :
    (passElems c r en pit e vs j h).2.plan = h.plan := by
  induction vs generalizing j h with
  | nil => rfl
  | cons v vs ih => exact (ih (j + 1) _).trans (plan_passElem ..)

theorem plan_passBlock (tr : Troupe) (g : Graph) (w : BWork) (c : Choice) (r : StepRec) (blk : Nat) (vs : List F32)
    (o : PassOut × House) : (passBlock tr g w c r blk vs o).2.plan = o.2.plan := by
  unfold passBlock
  split
  · rfl
  · split
    · rfl
    · exact plan_passElems ..

theorem plan_foldl_passBlock (tr : Troupe) (g : Graph) (w : BWork) (c : Choice) (r : StepRec) (vals : List (List F32))
    (ks : List Nat) (o : PassOut × House) :
    (ks.foldl (fun o k => passBlock tr g w c r k (vals.getD k []) o) o).2.plan = o.2.plan := by
  induction ks generalizing o with
  | nil => rfl
  | cons k ks ih => exact (ih _).trans (plan_passBlock ..)

theorem storeChunks_runs (tr : Troupe) (res : Tab (List (Option BF16))) (ks : List ((Nat × Nat × Nat × Bool) × Nat)) :
    (ks.foldl (fun tr k => storeChunk tr res k) tr).board = tr.board ∧
      (ks.foldl (fun tr k => storeChunk tr res k) tr).plan = tr.plan :=
  ⟨board_foldl (fun tr k => board_storeChunk tr res k) ks tr, plan_foldl (fun tr k => plan_storeChunk tr res k) ks tr⟩

theorem eventKeeps_quantPassEnd (dt t b : Nat) : EventKeeps (.quantPassEnd dt t b) := by
  refine eventKeeps_of (fun _ => rfl) ?_ ?_
  all_goals
    intro r s
    have hck := (r s).passCk dt
    split
    · exact hck
    · extract_lets g s2 c vals out s3 s4 _ _ _ _ s5 _ _ _ _ _ s6
      refine .ite (.endPass ?_ t b _) (.ite (.endPass ?_ t b _) (.ite (.modWork ?_ t b _)
        (.ite (.endPass (.spendShare ?_ _ _) t b _)
          (.ite (.endPass (.spendShare ?_ _ _) t b _) (.modWork (.spendShare ?_ _ _) t b _)))))
      all_goals
        refine .modWork (.modTroupeRun (.spendPass (.houseRun (.foldl (fun s k => ?_) _ hck) _
          (plan_foldl_passBlock ..)) _ _ _) t _ fun tr => storeChunks_runs ..) t b _
        exact (r s).useScaleWord t b _ k

end Sys2Proof.Machine
end

section
/-! What the updates, the calls of the sieve and the spill path, the prop room and the ledger's capture keep (O42, O45,
O60). -/

namespace Sys2Proof.Machine

open Sys2Proof

/-! ### Calls of the sieve and the spill path -/

theorem eventKeeps_sieveCallTake (dt t : Nat) : EventKeeps (.sieveCallTake dt t) := by
  refine eventKeeps_of (fun _ => rfl) ?_ ?_
  all_goals
    intro r s
    have hck := (r s).passCk dt
    refine .ite hck ?_
    split
    · exact hck
    next e _ =>
      have htaken := hck.takeDescriptor t e.1
      refine .ite (hck.brokenRing t _ _) (.ite (htaken.badDescriptor t _ _ _ _ _ _) (.ite (htaken.endDescriptor t _ _ _ _)
        (.ite (htaken.modTroupe t _ ?_) (htaken.startCarousel t _))))
      intro _; rfl

/-- The scratchpad is restored by a call of the spill path, so steadiness is not claimed of it. -/
theorem keeps_spillCallComplete (dt t : Nat) (s : State) :
    ∃ s', exec (.spillCallComplete dt t) s = .next s' ∧ Keeps s s' := by
  refine ⟨_, rfl, ?_⟩
  have hck := (Keeps.refl s).passCk dt
  split
  · exact hck
  next c rest _ =>
    extract_lets n s1 s2 ended
    have htaken : Keeps s s1 := hck.modTroupe t _ fun _ => rfl
    have hspent : Keeps s s2 := .ite htaken (htaken.spendShare _ _)
    have hended (st : Status) (bad : Nat) {s3 : State} (h : Keeps s s3) : Keeps s (ended st bad s3) :=
      (h.endDescriptor t _ _ _ _).spillDrained t
    have hpoke := hspent.poke c.host c.store.toNat (spillOut c (spillSource s2 c))
    exact .ite (hended _ _ (hspent.scratch _ _)) (hended _ _ (.ite (hpoke.addLayer t c _) hpoke))

/-! ### Updates -/

theorem eventKeeps_updateIssue (dt t : Nat) : EventKeeps (.updateIssue dt t) := by
  refine eventKeeps_of (fun _ => rfl) ?_ ?_
  all_goals
    intro r s
    have hck := (r s).passCk dt
    split
    next e _ _ =>
      have hused := ((hck.useVersion t).useParams t e.1).useEntry .updateSequencer t e.1
      refine .ite hck (.modTroupeRun (.modHouseRun hused _ ?_) t _ fun tr => ⟨board_modLast .., plan_modLast ..⟩)
      intro _; rfl
    · exact hck

/-! ### The prop room -/

/-- The areas of a lost chip go to memory one tensor after the other (R310). -/
theorem Keeps.exportArea {z : State} (tr : Troupe) : ∀ (l : List (Nat × TState)) (k : Nat) {s : State}, Keeps z s →
    Keeps z (Sys2Proof.Machine.exportArea tr l k s)
  | [], _, _, h => h
  | _ :: l, _, _, h => Keeps.exportArea tr l _ (h.pokeHbm _ _)

theorem Steady.exportArea {but : Nat → Bool} {z : State} (tr : Troupe) : ∀ (l : List (Nat × TState)) (k : Nat) {s : State},
    Steady but z s → Steady but z (Sys2Proof.Machine.exportArea tr l k s)
  | [], _, _, h => h
  | _ :: l, _, _, h => Steady.exportArea tr l _ (h.pokeHbm _ _)

theorem eventKeeps_spareExportComplete (dt t : Nat) : EventKeeps (.spareExportComplete dt t) := by
  refine eventKeeps_of (fun _ => rfl) ?_ ?_
  all_goals
    intro r s
    have hck := (r s).passCk dt
    split
    · exact hck
    · exact .run (.exportArea _ _ _ hck) _

theorem eventKeeps_optImportComplete (dt t : Nat) : EventKeeps (.optImportComplete dt t) := by
  refine eventKeeps_of (fun _ => rfl) ?_ ?_
  all_goals
    intro r s
    have hck := (r s).passCk dt
    split
    · exact hck
    · refine .run (.modTroupeRun hck t _ fun tr => ?_) _
      exact ⟨board_setCommitted tr _, plan_setCommitted tr _⟩

/-! ### The ledger and bring-up -/

theorem eventKeeps_captureComplete (dt t step : Nat) : EventKeeps (.captureComplete dt t step) := by
  refine eventKeeps_of (fun _ => rfl) ?_ ?_
  all_goals
    intro r s
    have hck := (r s).passCk dt
    split
    · exact .modTroupeRun (.ite (hck.pokeHost _ _) hck) t _ fun tr => ⟨board_modStep .., plan_modStep ..⟩
    · exact hck

theorem eventKeeps_resetRelease (dt : Nat) (failed : List Nat) : EventKeeps (.resetRelease dt failed) := by
  refine eventKeeps_of (fun _ => rfl) ?_ ?_
  all_goals
    intro r s
    have hck := (r s).passCk dt
    refine .ite hck (.foldl (fun s u => ?_) _ (.modHouseRun hck _ ?_))
    · exact (r s).failUnit u
    · intro _; rfl

/-- What a tick runs out is kept by a reset in it as by the tick itself. -/
theorem keeps_tick (s : State) : ∃ t, exec .tick s = .next t ∧ Keeps s t :=
  ⟨_, rfl, .ite ((Keeps.refl s).runOut.resetBlock false) (Keeps.refl s).runOut.tickBlock⟩

theorem keeps_chipReset (dt : Nat) (chip : Bool) (s : State) : ∃ t, exec (.chipReset dt chip) s = .next t ∧ Keeps s t :=
  ⟨_, rfl, ((Keeps.refl s).passCk dt).resetBlock chip⟩

end Sys2Proof.Machine
end

section
/-! What the end of an update and a delayed one keep (O42, O45, O60). -/

namespace Sys2Proof.Machine

open Sys2Proof

/-- The masters of a slot enter the pending version one tensor after the other (R276). -/
theorem Keeps.takeMasters {z : State} (t step : Nat) : ∀ (l : List (Nat × Nat × Nat × Nat × Bool)) (a : Nat) {s : State},
    Keeps z s → Keeps z (Sys2Proof.Machine.takeMasters t step l a s)
  | [], _, _, h => h
  | (b, te) :: l, a, s, h => by
    unfold Sys2Proof.Machine.takeMasters
    extract_lets tr blocks got s1 s2 told s3
    have hwritten : Keeps z s1 := h.modTroupe t _ fun tr => board_setPending tr _
    have hformed : Keeps z s2 := hwritten.formDeltas t b te blocks
    have htold : Keeps z s3 := .ite (hformed.mirrorMasters t b step te blocks) hformed
    exact htold.takeMasters t step l _

theorem Steady.takeMasters {but : Nat → Bool} {z : State} (t step : Nat) :
    ∀ (l : List (Nat × Nat × Nat × Nat × Bool)) (a : Nat) {s : State},
      Steady but z s → Steady but z (Sys2Proof.Machine.takeMasters t step l a s)
  | [], _, _, h => h
  | (b, te) :: l, a, s, h => by
    unfold Sys2Proof.Machine.takeMasters
    extract_lets tr blocks got s1 s2 told s3
    have hwritten : Steady but z s1 := h.modTroupe t _ fun tr => plan_setPending tr _
    have hformed : Steady but z s2 := hwritten.formDeltas t b te blocks
    have htold : Steady but z s3 := .ite (hformed.mirrorMasters t b step te blocks) hformed
    exact htold.takeMasters t step l _

theorem eventKeeps_delayedDoneRead (dt t : Nat) : EventKeeps (.delayedDoneRead dt t) := by
  refine eventKeeps_of (fun _ => rfl) ?_ ?_
  all_goals
    intro r s
    have hck := (r s).passCk dt
    split
    · exact hck
    · refine .ite hck (.ite ?_ (.noteComplete (.takeMasters t _ _ _ (.useVersion ?_ t)) t))
      all_goals exact hck.modTroupe t _ (by intro _; rfl)

theorem eventKeeps_updateComplete (dt t : Nat) : EventKeeps (.updateComplete dt t) := by
  refine eventKeeps_of (fun _ => rfl) ?_ ?_
  all_goals
    intro r s
    have hck := (r s).passCk dt
    split
    · exact hck
    next u rest _ =>
      have htaken := hck.modHouseRun (fun h => { h with updates := rest }) fun _ => rfl
      refine .ite hck ?_
      split
      · exact htaken
      · split
        · exact htaken
        · extract_lets s1 new bad s2 s3 s4 s5 s6
          refine .ite htaken (.ite (.curtain (.record (.gauge ?_ t _ _) _) _ t) ?_)
          all_goals
            refine .noteComplete (.modTroupeRun (.ite (.mirrorMasters (.formDeltas ?_ t _ _ _) t _ _ _ _)
              (.formDeltas ?_ t _ _ _)) t _ fun tr => by split <;> exact ⟨rfl, rfl⟩) t
            all_goals
              refine .modTroupeRun (htaken.spendDigest _ _ _) t _ fun tr => ?_
              exact ⟨board_setPending tr _, plan_setPending tr _⟩

end Sys2Proof.Machine
end

section
/-! What the other events keep (O42, O45, O60): the inlets, the passes of a bucket, the ports and links, the house's own
limits, the calls and rounds, rehearsal and bring-up. -/

namespace Sys2Proof.Machine

open Sys2Proof

/-! ### The window, the inlets and the passes -/

theorem eventKeeps_windowAccessRefused (a : Access) : EventKeeps (.windowAccessRefused a) := by
  refine eventKeeps_of (fun _ => rfl) ?_ ?_
  all_goals
    intro r s
    have hck := (r s).passCk a.dt
    split
    · exact hck.refuseAccess a _ _
    · exact hck.respond _ _

theorem eventKeeps_emit (dt core : Nat) (desc : List Byte) : EventKeeps (.emit dt core desc) := by
  refine eventKeeps_of (fun _ => rfl) ?_ ?_
  all_goals
    intro r s
    have hck := (r s).passCk dt
    refine .ite hck (.ite (hck.modTroupe _ _ ?_) (.modHouseRun hck _ ?_))
    all_goals intro _; rfl

theorem eventKeeps_emitTake (dt : Nat) : EventKeeps (.emitTake dt) := by
  refine eventKeeps_of (fun _ => rfl) ?_ ?_
  all_goals
    intro r s
    have hck := (r s).passCk dt
    split
    · exact hck
    · split
      · exact hck
      · exact hck.serveHead _ _

theorem eventKeeps_chunkRead (dt t : Nat) : EventKeeps (.chunkRead dt t) := by
  refine eventKeeps_of (fun _ => rfl) ?_ ?_
  all_goals
    intro r s
    have hck := (r s).passCk dt
    split
    · exact hck
    · split
      · exact hck
      · refine .ite (.releaseSlot (.nonFinite ?_ t _ _ _ _ _) t _ _)
          (.ite (.chunkDone (.modTroupe (.nonFinite ?_ t _ _ _ _ _) t _ (by intro _; rfl)) t _ _)
            (.releaseSlot (.nonFinite ?_ t _ _ _ _ _) t _ _))
        all_goals exact hck.modTroupe t _ (by intro _; rfl)

theorem eventKeeps_bandCut (dt t b : Nat) : EventKeeps (.bandCut dt t b) := by
  refine eventKeeps_of (fun _ => rfl) ?_ ?_
  all_goals
    intro r s
    have hck := (r s).passCk dt
    split
    · exact .ite hck ((hck.spendShare _ _).endPass t b _)
    · exact hck

theorem eventKeeps_bandReread (dt t b : Nat) : EventKeeps (.bandReread dt t b) := by
  refine eventKeeps_of (fun _ => rfl) ?_ ?_
  all_goals
    intro r s
    have hck := (r s).passCk dt
    split
    · refine .ite hck (.ite (.endPass ?_ t b _) (.ite (.endPass ?_ t b _)
        (.ite (.modWork (.spendShare ?_ _ _) t b _) (.modWork ?_ t b _))))
      all_goals exact (hck.spendChunks _ _).gauge t _ _
    · exact hck

theorem eventKeeps_packItem (dt t pick : Nat) : EventKeeps (.packItem dt t pick) := by
  refine eventKeeps_of (fun _ => rfl) ?_ ?_
  all_goals
    intro r s
    have hck := (r s).passCk dt
    refine .ite hck (.ite ?_ ?_)
    · split
      · exact hck
      · exact .ite (hck.packItem t _ _) hck
    · dsimp only
      split
      · exact hck
      · exact hck.packItem t _ _

/-! ### Ports and links -/

theorem eventKeeps_frameSend (dt port : Nat) : EventKeeps (.frameSend dt port) := by
  refine eventKeeps_of (fun _ => rfl) ?_ ?_
  all_goals
    intro r s
    have hck := (r s).passCk dt
    exact .ite hck (.ite (hck.failedSend port) (.ite hck (hck.litSend port)))

theorem eventKeeps_pauseExpire (dt port prio : Nat) : EventKeeps (.pauseExpire dt port prio) := by
  refine eventKeeps_of (fun _ => rfl) ?_ ?_
  all_goals
    intro r s
    have hck := (r s).passCk dt
    exact .ite (hck.modPort port _) hck

theorem eventKeeps_pfcRepeat (dt port prio : Nat) : EventKeeps (.pfcRepeat dt port prio) := by
  refine eventKeeps_of (fun _ => rfl) ?_ ?_
  all_goals
    intro r s
    have hck := (r s).passCk dt
    exact .ite (hck.pausePartner port prio) hck

theorem eventKeeps_tickReply (dt port : Nat) : EventKeeps (.tickReply dt port) := by
  refine eventKeeps_of (fun _ => rfl) ?_ ?_
  all_goals
    intro r s
    have hck := (r s).passCk dt
    exact .ite ((hck.modPort port _).putOnWire port _) hck

theorem eventKeeps_linkSignalLoss (dt port : Nat) : EventKeeps (.linkSignalLoss dt port) := by
  refine eventKeeps_of (fun _ => rfl) ?_ ?_
  all_goals
    intro r s
    have hck := (r s).passCk dt
    exact .ite hck (.ite (hck.goDark port) (hck.modPort port _))

theorem eventKeeps_linkUp (dt port : Nat) : EventKeeps (.linkUp dt port) := by
  refine eventKeeps_of (fun _ => rfl) ?_ ?_
  all_goals
    intro r s
    have hck := (r s).passCk dt
    exact .ite (hck.modPort port _) (.ite (hck.modPort port _) hck)

theorem eventKeeps_dimPropose (dt port : Nat) : EventKeeps (.dimPropose dt port) := by
  refine eventKeeps_of (fun _ => rfl) ?_ ?_
  all_goals
    intro r s
    have hck := (r s).passCk dt
    refine .ite hck (.sendDim (.modPort (.modHouseRun hck _ ?_) port _) port _ _ _)
    intro _; rfl

theorem eventKeeps_dimCommitPoint (dt port : Nat) : EventKeeps (.dimCommitPoint dt port) := by
  refine eventKeeps_of (fun _ => rfl) ?_ ?_
  all_goals
    intro r s
    have hck := (r s).passCk dt
    split
    · exact .ite hck ((hck.modPort port _).sendDim port _ _ _)
    · exact hck

theorem eventKeeps_linkDark (dt port : Nat) : EventKeeps (.linkDark dt port) := by
  refine eventKeeps_of (fun _ => rfl) ?_ ?_
  all_goals
    intro r s
    have hck := (r s).passCk dt
    split
    · exact .ite hck (.ite ((hck.goDark port).relight port) (hck.goDark port))
    · exact hck

theorem eventKeeps_linkWake (dt port : Nat) (fromPartner : Bool) : EventKeeps (.linkWake dt port fromPartner) := by
  refine eventKeeps_of (fun _ => rfl) ?_ ?_
  all_goals
    intro r s
    have hck := (r s).passCk dt
    split
    · exact hck.relight port
    · exact .ite (hck.declineDim port) (.ite (hck.modPort port _) hck)
    · exact hck

theorem eventKeeps_linkLit (dt port : Nat) : EventKeeps (.linkLit dt port) := by
  refine eventKeeps_of (fun _ => rfl) ?_ ?_
  all_goals
    intro r s
    have hck := (r s).passCk dt
    exact .ite (hck.lightUp port) hck

/-! ### The house's own limits, rehearsal and bring-up -/

theorem eventKeeps_adriftEnter (dt : Nat) : EventKeeps (.adriftEnter dt) := by
  refine eventKeeps_of (fun _ => rfl) ?_ ?_
  all_goals
    intro r s
    have hck := (r s).passCk dt
    exact .ite (.record (.modHouseRun hck _ (by intro _; rfl)) _) hck

theorem eventKeeps_adriftClear (dt : Nat) : EventKeeps (.adriftClear dt) := by
  refine eventKeeps_of (fun _ => rfl) ?_ ?_
  all_goals
    intro r s
    have hck := (r s).passCk dt
    exact .ite (.modHouseRun hck _ (by intro _; rfl)) hck

theorem eventKeeps_bankDrainRelease (dt record : Nat) : EventKeeps (.bankDrainRelease dt record) := by
  refine fun s => ⟨_, rfl, ?_, ?_⟩
  · have hck := (Keeps.refl s).passCk dt
    exact .ite (hck.modSlice record _) hck
  · have hck := (Steady.refl (but := fun _ => false) s).passCk dt
    exact .ite (hck.modSlice record _ (by intro _; rfl)) hck

theorem eventKeeps_prompterStall (dt : Nat) : EventKeeps (.prompterStall dt) := by
  refine eventKeeps_of (fun _ => rfl) ?_ ?_
  all_goals
    intro r s
    have hck := (r s).passCk dt
    exact .ite (.record (.modHouseRun hck _ (by intro _; rfl)) _) hck

theorem eventKeeps_rehearsalSlice (dt unit vector : Nat) (found : SliceResult) :
    EventKeeps (.rehearsalSlice dt unit vector found) := by
  refine eventKeeps_of (fun _ => rfl) ?_ ?_
  all_goals
    intro r s
    have hck := (r s).passCk dt
    exact .ite hck ((hck.modUnit unit _).sliceFound unit vector found)

theorem eventKeeps_rehearsalComplete (dt unit : Nat) (pass : Bool) : EventKeeps (.rehearsalComplete dt unit pass) := by
  refine eventKeeps_of (fun _ => rfl) ?_ ?_
  all_goals exact fun r s => ((r s).passCk dt).rehearsalEnd unit pass

theorem eventKeeps_nimliaUp (dt : Nat) : EventKeeps (.nimliaUp dt) := by
  refine eventKeeps_of (fun _ => rfl) ?_ ?_
  all_goals
    intro r s
    have hck := (r s).passCk dt
    exact .ite (.modHouseRun hck _ (by intro _; rfl)) hck

theorem eventKeeps_doorsOpen (dt : Nat) : EventKeeps (.doorsOpen dt) := by
  refine eventKeeps_of (fun _ => rfl) ?_ ?_
  all_goals
    intro r s
    have hck := (r s).passCk dt
    exact .ite (.modHouseRun hck _ (by intro _; rfl)) hck

theorem eventKeeps_doorsTimeout (dt : Nat) : EventKeeps (.doorsTimeout dt) := by
  refine eventKeeps_of (fun _ => rfl) ?_ ?_
  all_goals
    intro r s
    have hck := (r s).passCk dt
    exact .ite (.record (.modHouseRun hck _ (by intro _; rfl)) _) hck

/-! ### Steps, rounds and calls -/

theorem eventKeeps_stepDeadlineMiss (dt t : Nat) : EventKeeps (.stepDeadlineMiss dt t) := by
  refine eventKeeps_of (fun _ => rfl) ?_ ?_
  all_goals
    intro r s
    have hck := (r s).passCk dt
    split
    · exact hck
    · refine .ite hck (.record (.gauge (.curtain (.modTroupeRun hck t _ fun tr => ?_) _ t) t _ _) _)
      exact ⟨board_modLast .., plan_modLast ..⟩

theorem eventKeeps_roundAbandonLimit (dt t : Nat) : EventKeeps (.roundAbandonLimit dt t) := by
  refine eventKeeps_of (fun _ => rfl) ?_ ?_
  all_goals
    intro r s
    have hck := (r s).passCk dt
    exact .ite hck (.record (hck.modTroupe t _ (by intro _; rfl)) _)

theorem eventKeeps_callResend (dt t port : Nat) : EventKeeps (.callResend dt t port) := by
  refine eventKeeps_of (fun _ => rfl) ?_ ?_
  all_goals
    intro r s
    have hck := (r s).passCk dt
    split
    · exact hck
    · exact .ite (hck.sendCall t port) hck

theorem eventKeeps_cueWaitTimeout (dt issuer slot : Nat) : EventKeeps (.cueWaitTimeout dt issuer slot) := by
  refine eventKeeps_of (fun _ => rfl) ?_ ?_
  all_goals
    intro r s
    have hck := (r s).passCk dt
    split
    · split
      · split
        · exact hck
        · split
          · exact hck
          · exact .run (hck.modTroupe _ _ (by intro _; rfl)) _
      · exact hck
    · exact hck

theorem eventKeeps_lineDescriptorTake (dt t : Nat) : EventKeeps (.lineDescriptorTake dt t) := by
  refine eventKeeps_of (fun _ => rfl) ?_ ?_
  all_goals
    intro r s
    have hck := (r s).passCk dt
    refine .ite hck ?_
    split
    · exact hck
    · exact .ite (hck.takeLine t _ _) (hck.brokenRing t _ _)

theorem eventKeeps_sieveCallTimeout (dt t : Nat) : EventKeeps (.sieveCallTimeout dt t) := by
  refine eventKeeps_of (fun _ => rfl) ?_ ?_
  all_goals
    intro r s
    have hck := (r s).passCk dt
    split
    · exact hck
    next c _ => exact .ite hck (((hck.dropCall t c).endDescriptor t _ _ _ _).callCurtain t c)

theorem eventKeeps_sieveCallComplete (dt t : Nat) : EventKeeps (.sieveCallComplete dt t) := by
  refine eventKeeps_of (fun _ => rfl) ?_ ?_
  all_goals
    intro r s
    have hck := (r s).passCk dt
    split
    · exact hck
    next c _ =>
      refine .ite (.endDescriptor (.dropCall (hck.localCall c) t c) t _ _ _ _)
        (.ite (.endDescriptor (.dropCall hck t c) t _ _ _ _) (.ite hck (.ite ?_ ?_)))
      · exact .endDescriptor (.dropCall (hck.pokeHbm _ _) t c) t _ _ _ _
      · exact .callCurtain (.endDescriptor (.dropCall (.record (hck.pokeHbm _ _) _) t c) t _ _ _ _) t c

theorem eventKeeps_spillCallTake (dt t : Nat) : EventKeeps (.spillCallTake dt t) := by
  refine eventKeeps_of (fun _ => rfl) ?_ ?_
  all_goals
    intro r s
    have hck := (r s).passCk dt
    refine .ite hck ?_
    split
    · exact hck
    next e _ =>
      have htaken := hck.takeDescriptor t e.1
      exact .ite (hck.brokenRing t _ _) (.ite (htaken.badDescriptor t _ _ _ _ _ _)
        (htaken.modTroupe t _ (by intro _; rfl)))

theorem eventKeeps_optExportComplete (dt t : Nat) : EventKeeps (.optExportComplete dt t) := by
  refine eventKeeps_of (fun _ => rfl) ?_ ?_
  all_goals
    intro r s
    have hck := (r s).passCk dt
    split
    · exact hck
    · exact .run (.exportAll _ _ _ (hck.useVersion t)) _

/-! ### The understudy -/

theorem eventKeeps_verdictCompare (dt t step : Nat) : EventKeeps (.verdictCompare dt t step) := by
  refine eventKeeps_of (fun _ => rfl) ?_ ?_
  all_goals
    intro r s
    have hck := (r s).passCk dt
    split
    · refine .ite hck (.ite (.modMirror ?_ t _) (.diverge (.modMirror ?_ t _) _ t step _))
      all_goals exact hck.mirrorWrite t step _ _ _
    · exact hck

theorem eventKeeps_verdictArrive (dt t : Nat) (word : BitVec 64) : EventKeeps (.verdictArrive dt t word) := by
  refine eventKeeps_of (fun _ => rfl) ?_ ?_
  all_goals exact fun r s => ((r s).passCk dt).takeVerdict t word

theorem eventKeeps_encoreRun (dt t : Nat) (pulled : Pulled) : EventKeeps (.encoreRun dt t pulled) := by
  refine eventKeeps_of (fun _ => rfl) ?_ ?_
  all_goals
    intro r s
    have hck := (r s).passCk dt
    refine .ite hck ?_
    dsimp only
    split
    · exact hck.encoreBad t _
    · exact hck.encoreOk t pulled _

end Sys2Proof.Machine
end

section
/-! Every command is answered by a next state, the queue is left as it is, and soundness is kept (O42, O45); the events keep
what commands configure (O60). -/

namespace Sys2Proof.Machine

open Sys2Proof

/-! ### The events -/

/-- The events that have settings, the check window or the scratchpad to change. -/
def setsWindow : Instr → Bool
  | .tick | .chipReset .. | .chkCtrl _ | .checkScanEnd _ | .registerWrite _ | .spillCallComplete .. => true
  | _ => false

/-- Every other event keeps the queue, soundness and what commands configure. -/
theorem eventKeeps_of_post {i : Instr} (hp : post i = none) : EventKeeps i ∨ setsWindow i = true := by
  cases i <;> cases hp
  case tick | chipReset | chkCtrl |
      checkScanEnd | registerWrite | spillCallComplete => exact .inr rfl
  case writeReceive | reduceWriteReceive | readRequestReceive | readResponseReceive |
      fenceCarriageReceive | collectiveCarriageReceive | deltaCarriageReceive |
      mirrorCarriageReceive | residualTrickleReceive =>
    exact .inl (eventKeeps_carriage rfl)
  case sealComplete => exact .inl (eventKeeps_sealComplete _ _)
  case ringDoorbell => exact .inl (eventKeeps_ringDoorbell _)
  case errRead => exact .inl (eventKeeps_errRead _)
  case windowAccessRefused => exact .inl (eventKeeps_windowAccessRefused _)
  case emit => exact .inl (eventKeeps_emit _ _ _)
  case emitTake => exact .inl (eventKeeps_emitTake _)
  case chunkRead => exact .inl (eventKeeps_chunkRead _ _)
  case chunkAccumulate => exact .inl (eventKeeps_chunkAccumulate _ _ _ _)
  case pitWindowOpen => exact .inl (eventKeeps_pitWindowOpen _ _)
  case quantPassStart => exact .inl (eventKeeps_quantPassStart _ _ _)
  case quantPassEnd => exact .inl (eventKeeps_quantPassEnd _ _ _)
  case bandCut => exact .inl (eventKeeps_bandCut _ _ _)
  case bandReread => exact .inl (eventKeeps_bandReread _ _ _)
  case packItem => exact .inl (eventKeeps_packItem _ _ _)
  case frameSend => exact .inl (eventKeeps_frameSend _ _)
  case ackReceive => exact .inl (eventKeeps_ackReceive _ _ _)
  case nakReceive => exact .inl (eventKeeps_nakReceive _ _ _)
  case probeReceive => exact .inl (eventKeeps_probeReceive _ _ _)
  case probeEchoReceive => exact .inl (eventKeeps_probeEchoReceive _ _ _)
  case callReceive => exact .inl (eventKeeps_callReceive _ _ _)
  case knockReceive => exact .inl (eventKeeps_knockReceive _ _ _)
  case knockAnswerReceive => exact .inl (eventKeeps_knockAnswerReceive _ _ _)
  case dimReceive => exact .inl (eventKeeps_dimReceive _ _ _)
  case lightReceive => exact .inl (eventKeeps_lightReceive _ _ _)
  case tickReceive => exact .inl (eventKeeps_tickReceive _ _ _ _)
  case pfcReceive => exact .inl (eventKeeps_pfcReceive _ _ _)
  case pauseFrameReceive => exact .inl (eventKeeps_pauseFrameReceive _ _ _)
  case foreignFrameReceive => exact .inl (eventKeeps_foreignFrameReceive _ _ _)
  case frameRelay => exact .inl (eventKeeps_frameRelay _ _ _)
  case pauseExpire => exact .inl (eventKeeps_pauseExpire _ _ _)
  case pfcRepeat => exact .inl (eventKeeps_pfcRepeat _ _ _)
  case stepDeadlineMiss => exact .inl (eventKeeps_stepDeadlineMiss _ _)
  case roundAbandonLimit => exact .inl (eventKeeps_roundAbandonLimit _ _)
  case adriftEnter => exact .inl (eventKeeps_adriftEnter _)
  case adriftClear => exact .inl (eventKeeps_adriftClear _)
  case tickReply => exact .inl (eventKeeps_tickReply _ _)
  case retransmitTimerExpiry => exact .inl (eventKeeps_retransmitTimerExpiry _ _ _ _)
  case knockTimerExpiry => exact .inl (eventKeeps_knockTimerExpiry _ _ _ _)
  case knockRetry => exact .inl (eventKeeps_knockRetry _ _ _ _)
  case firstKnock => exact .inl (eventKeeps_firstKnock _ _ _ _)
  case probeSend => exact .inl (eventKeeps_probeSend _ _ _ _)
  case callResend => exact .inl (eventKeeps_callResend _ _ _)
  case cueWaitTimeout => exact .inl (eventKeeps_cueWaitTimeout _ _ _)
  case sieveCallTimeout => exact .inl (eventKeeps_sieveCallTimeout _ _)
  case bankDrainRelease => exact .inl (eventKeeps_bankDrainRelease _ _)
  case prompterStall => exact .inl (eventKeeps_prompterStall _)
  case linkSignalLoss => exact .inl (eventKeeps_linkSignalLoss _ _)
  case portFail => exact .inl (eventKeeps_portFail _ _)
  case linkUp => exact .inl (eventKeeps_linkUp _ _)
  case dimPropose => exact .inl (eventKeeps_dimPropose _ _)
  case dimCommitPoint => exact .inl (eventKeeps_dimCommitPoint _ _)
  case linkDark => exact .inl (eventKeeps_linkDark _ _)
  case linkWake => exact .inl (eventKeeps_linkWake _ _ _)
  case linkLit => exact .inl (eventKeeps_linkLit _ _)
  case lineDescriptorTake => exact .inl (eventKeeps_lineDescriptorTake _ _)
  case sieveCallTake => exact .inl (eventKeeps_sieveCallTake _ _)
  case sieveCallComplete => exact .inl (eventKeeps_sieveCallComplete _ _)
  case spillCallTake => exact .inl (eventKeeps_spillCallTake _ _)
  case updateIssue => exact .inl (eventKeeps_updateIssue _ _)
  case updateComplete => exact .inl (eventKeeps_updateComplete _ _)
  case delayedDoneRead => exact .inl (eventKeeps_delayedDoneRead _ _)
  case verdictCompare => exact .inl (eventKeeps_verdictCompare _ _ _)
  case verdictArrive => exact .inl (eventKeeps_verdictArrive _ _ _)
  case encoreRun => exact .inl (eventKeeps_encoreRun _ _ _)
  case rehearsalSlice => exact .inl (eventKeeps_rehearsalSlice _ _ _ _)
  case rehearsalComplete => exact .inl (eventKeeps_rehearsalComplete _ _ _)
  case resetRelease => exact .inl (eventKeeps_resetRelease _ _)
  case nimliaUp => exact .inl (eventKeeps_nimliaUp _)
  case doorsOpen => exact .inl (eventKeeps_doorsOpen _)
  case doorsTimeout => exact .inl (eventKeeps_doorsTimeout _)
  case callDoorbell => exact .inl (eventKeeps_callDoorbell _)
  case optExportComplete => exact .inl (eventKeeps_optExportComplete _ _)
  case optImportComplete => exact .inl (eventKeeps_optImportComplete _ _)
  case spareExportComplete => exact .inl (eventKeeps_spareExportComplete _ _)
  case captureComplete => exact .inl (eventKeeps_captureComplete _ _ _)

/-- A tick, a reset, the window's writes, a scan's end and a spill call keep the queue and soundness. -/
theorem keeps_of_setsWindow {i : Instr} (h : setsWindow i = true) (s : State) : ∃ t, exec i s = .next t ∧ Keeps s t := by
  cases i <;> cases h
  case tick => exact keeps_tick s
  case chipReset => exact keeps_chipReset _ _ s
  case chkCtrl => exact keeps_chkCtrl _ s
  case checkScanEnd => exact keeps_checkScanEnd _ s
  case registerWrite => exact keeps_registerWrite _ s
  case spillCallComplete => exact keeps_spillCallComplete _ _ s

/-! ### Every command -/

/-- A row of the call board is served, and its service keeps what its own effect keeps; an event keeps both by itself. -/
theorem exec_keeps (i : Instr) (s : State) : ∃ t, exec i s = .next t ∧ Keeps s t := by
  cases hp : post i with
  | some p =>
    obtain ⟨c, hserve, heffect⟩ := keptBy_row hp s
    exact ⟨_, hserve, (Keeps.refl s).serve p i fun t => heffect _ t⟩
  | none =>
    obtain hevent | hwindow := eventKeeps_of_post hp
    · obtain ⟨t, hexec, hkeeps, _⟩ := hevent s
      exact ⟨t, hexec, hkeeps⟩
    · exact keeps_of_setsWindow hwindow s

/-! ### The statements -/

/-- Settles O42: what is kept of the queue is the whole of it. -/
theorem everyCommandAnswers : Obligations.EveryCommandAnswers := by
  unfold Obligations.EveryCommandAnswers
  intro c s
  obtain ⟨t, hexec, hkeeps⟩ := exec_keeps c s
  exact ⟨t, hexec, hkeeps.pending⟩

/-- Settles O45: the command at the front keeps soundness, which says nothing of the queue; an empty queue idles. -/
theorem stepKeepsSound : Obligations.StepKeepsSound := by
  unfold Obligations.StepKeepsSound
  intro s t hsound hstep
  cases hfront : s.pending with
  | nil =>
    rw [step, hfront] at hstep
    obtain rfl := Host.Outcome.next.inj hstep
    exact hsound
  | cons c rest =>
    rw [step, hfront] at hstep
    obtain ⟨t', hexec, hkeeps⟩ := exec_keeps c { s with pending := rest }
    obtain rfl := Host.Outcome.next.inj (hexec.symm.trans hstep)
    exact hkeeps.sound ⟨hsound.memories, hsound.inTick, hsound.kept⟩

/-- Settles O60: the events that the statement leaves out are those that set the window; every other one keeps what is
configured. -/
theorem eventsKeepSettings : Obligations.EventsKeepSettings := by
  unfold Obligations.EventsKeepSettings
  intro i s t hp hother hexec
  obtain hevent | hwindow := eventKeeps_of_post hp
  · obtain ⟨t', hexec', _, hsteady⟩ := hevent s
    obtain rfl := Host.Outcome.next.inj (hexec'.symm.trans hexec)
    exact hsteady
  · cases i <;> cases hwindow
    all_goals exact hother.elim

end Sys2Proof.Machine
end
